-- ==== Sys2Proof/Word.lean ====
section
/-! DEFINITION. The word type and its plainest arithmetic (R4, R5), and the sparse table that every numbered
collection of the state is kept in: a list of (key, value) pairs in rising key order, read with a default. -/

namespace Sys2Proof

/-- A word is 64 bits (R4). -/
abbrev Word := BitVec 64
/-- A byte is 8 bits (R4). -/
abbrev Byte := BitVec 8

/-- A sparse table from numbers to values. -/
abbrev Tab (α : Type) := List (Nat × α)

namespace Tab

/-- The value at `k`, or the default where the table lists none. -/
def get {α : Type} (m : Tab α) (k : Nat) (dflt : α) : α :=
  match m with
  | [] => dflt
  | (j, v) :: t => if j = k then v else Tab.get t k dflt

/-- The value at `k`, if listed. -/
def get? {α : Type} (m : Tab α) (k : Nat) : Option α :=
  match m with
  | [] => none
  | (j, v) :: t => if j = k then some v else Tab.get? t k

/-- The table with `v` at `k`; keys stay in rising order. -/
def put {α : Type} (m : Tab α) (k : Nat) (v : α) : Tab α :=
  match m with
  | [] => [(k, v)]
  | (j, w) :: t => if j = k then (k, v) :: t else if k < j then (k, v) :: (j, w) :: t else (j, w) :: Tab.put t k v

/-- The table without `k`. -/
def del {α : Type} (m : Tab α) (k : Nat) : Tab α := m.filter fun p => !(p.1 == k)

/-- The values, in key order. -/
def vals {α : Type} (m : Tab α) : List α := m.map (·.2)

end Tab

/-- The list with its element at `n` taken out. -/
def takeOut {α : Type} (n : Nat) (l : List α) : List α := l.take n ++ l.drop (n + 1)

/-- The list with its element at `n` changed by `f`. -/
def updAt {α : Type} (n : Nat) (f : α → α) : List α → List α
  | [] => []
  | x :: t => match n with
    | 0 => f x :: t
    | k + 1 => x :: updAt k f t

/-- Splits a list into consecutive pieces of `n` (the fuel `k` bounds the number of pieces). -/
def chunks {α : Type} (n : Nat) : Nat → List α → List (List α)
  | 0, _ => []
  | k + 1, l => match l with
    | [] => []
    | _ => l.take n :: chunks n k (l.drop n)

end Sys2Proof
end

