-- ==== Sys2Proof/Config.lean ====
section
/-! DEFINITION. What the spec fixes for every NYX-1024A, and the FREE VALUES: what the spec leaves open, each an
opaque constant with no body, so that no proof can see a value of it. -/

namespace Sys2Proof.Config

/-- Size of device DRAM in bytes (R341). -/
def dramSize : Nat := 384000000000
/-- Base of the full/empty metadata region, the M of R342. -/
def metaBase : Nat := 0x5800000000
/-- Host memory appears from this physical address upward (R341). -/
def hostBase : Nat := 0x800000000000
/-- Physical addresses are 48 bits wide (the pa field of R345). -/
def paEnd : Nat := 0x1000000000000
/-- DESIGN CHOICE (log 2): the model numbers the byte at offset `o` of the scratchpad of physical cell home `n`
`spadBase + n * 2^20 + o`, above every physical address. -/
def spadBase : Nat := 0x1000000000000
/-- DESIGN CHOICE (log 2): the full/empty bits of scratchpad words, 8 to a byte, from here. -/
def spadFeBase : Nat := 0x2000000000000

/-- DESIGN CHOICE (log 2): scratchpad of peer devices, which is no memory of this device, is named from here: what a load there
returns is a free value, and a store there leaves no trace in the state (R450). -/
def peerBase : Nat := 0x4000000000000

/-- Largest number of instructions' parcels fetched ahead of issue (R192). -/
def fetchAhead : Nat := 16
/-- Default hold limit of a reservation, in cycles (R182). -/
def holdLimit : Nat := 65536
/-- Default pin quota of a partition, in lines (R339). -/
def pinQuota : Nat := 65536
/-- Wait-list entries of one bank or slice (R333). -/
def waitEntries : Nat := 512

/-! ### Where firmware has put its tables -/

/-- DESIGN CHOICE (log 79): where the Sillage map, the space descriptors, the system route table and the stream descriptors lie, and the length of the host memory
range (R341, R355, R407, R442, R448). -/
def mapBase : Nat := 0x57FF000000
def spdescBase : Nat := 0x57FE000000
def sysrtBase : Nat := 0x57FF001000
def strdescBase : Nat := 0x57FF010000
def hostLength : Nat := 0x800000000000

/-! ### Free values -/

/-- FREE VALUE (log 3): which of `k` things that may happen next does happen next, at choice number `n`. -/
opaque pick (n : Nat) : Nat

/-- The kinds of storage whose corrected errors are counted (R352, R467), with the unit of each: a DRAM stack, an L2 slice and its wait lists, a cell's L1,
instruction cache, register files, scratchpad and its wait lists, and its Flacon MRAM. -/
inductive Storage where
  | dram | l2 | sliceWait | l1 | icache | registers | spad | bankWait | flacon
deriving DecidableEq, Repr

/-- What comes from outside the machine's steps and has no row in the opcode table: errors of storage (R331, R333, R336, R344, R350 to R352), and what monitor
firmware does (R115, R193, R345, R365, R407, R437, R442, R448, R465). -/
inductive Outer where
  /-- An uncorrectable error of a DRAM line. -/
  | dram (line : Nat)
  /-- An error of an L1 line of a cell: parity in a clean word, or, of a dirty word, one that can be corrected or not. -/
  | l1Clean (cell line : Nat)
  | l1Dirty (cell line : Nat) (corrects : Bool)
  /-- A parity error of an instruction-cache line. -/
  | icache (cell line : Nat)
  /-- An error of an L2 line that can be corrected, or not. -/
  | l2 (line : Nat) (corrects : Bool)
  /-- An uncorrectable error of the `n`-th wait-list entry of a word. -/
  | waitEntry (word n : Nat)
  /-- An uncorrectable error of a context's register file. -/
  | register (c : Nat)
  /-- An uncorrectable error of a scratchpad word, by its address; a bank of a cell's scratchpad found failed. -/
  | spadWord (word : Nat)
  | bank (cell bank : Nat)
  /-- An error that a unit's storage of a kind corrected. -/
  | corrected (kind : Storage) (unit : Nat)
  /-- An error of the Flacon layer that BCH cannot correct: in a shadow copy of a cell's line, or in an image slot of a context; `second` names Y, or B. -/
  | shadow (cell line : Nat) (second : Bool)
  | image (c : Nat) (second : Bool)
  /-- Firmware creates a space for a partition, with the place and size of its table and the place of its index. -/
  | createSpace (part : BitVec 6) (sp : BitVec 12) (tbase tlog ibase : Nat)
  /-- Firmware tears a partition down. -/
  | tearDown (part : BitVec 6)
  /-- Firmware sets what it keeps for a partition: the root of its page tables, its Alembic and station masks, hold limit and pin quota, the ring of its records,
  its loader handle table, and the address at which the Sillage map is mapped for it. -/
  | setPart (part : BitVec 6) (root : Nat) (am : BitVec 64) (stations : BitVec 76) (hold pins ring ringSize : Nat) (table : Option (BitVec 64)) (mapVa : Nat)
  /-- Firmware changes a loop's rank, writes a system route, or writes a stream descriptor. -/
  | setRank (loop rank : Nat)
  /-- Firmware sets the threshold of the counters of corrected errors, and their window in ticks (R467). -/
  | setErrors (threshold window : Nat)
  /-- Firmware masks an MSI-X vector for the host, or raises one of its own events (R454). -/
  | maskVector (v : Nat)
  | firmwareEvent (v : Nat)
  /-- The host writes a word of its own memory (R451), reads a register of BAR0, BAR2 or its DVSEC (R448, R453, R474), or writes to an offset of BAR2. -/
  | hostStore (addr : Nat) (v : BitVec 64)
  | bar0Read (off : Nat)
  | bar2Read (off : Nat)
  | dvsecRead
  | bar2Write (off : Nat) (v : BitVec 64)
  /-- A peer device's access reaches a scratchpad of this one, for the strand that its handle entry names (R444, R450). -/
  | peerStore (cell off : Nat) (gen v : BitVec 64)
  /-- The entrant for which a loop's stations hold extra bubbles is in (R439). -/
  | entrantIn (loop station : Nat)
  | setRoute (src dst : Nat) (route : BitVec 64)
  | setStream (stream : Nat) (words : List (BitVec 64))
deriving DecidableEq, Repr

/-- A unit that the tests at bring-up may find failed (R475): a station, a loop, a port, or a bank of a cell's scratchpad. -/
inductive Unit where
  | station (n : Nat)
  | loop (n : Nat)
  | port (n : Nat)
  | bank (cell : Nat)
deriving DecidableEq, Repr

/-- FREE VALUE (log 103): the units that the tests of bring-up number `n` find failed. -/
opaque failedUnits (n : Nat) : List Unit
/-- FREE VALUE (log 78): what comes from outside with the time that passes at choice number `n`. -/
opaque outer (n : Nat) : Option Outer
/-- FREE VALUE (log 4): the ticks of TSC that pass between readings number `n` and `n + 1`. -/
opaque tscAdvance (n : Nat) : BitVec 32
/-- FREE VALUE (log 5): whether a context still issues a parcel it fetched earlier (R192). -/
opaque staleParcel (n : Nat) : Bool
/-- FREE VALUE (log 6): a value the spec does not state, number `n`. -/
opaque freeWord (n : Nat) : BitVec 64
/-- FREE VALUE (log 16): the severity of an error record of a code for which the spec names none (R463, R464). -/
opaque severity (code : Nat) : BitVec 3
/-- FREE VALUE (log 7): modulus and exponent of the key that firmware's key table holds under an identifier (R116, R476). -/
opaque publicKey (id : BitVec 64) : Nat × Nat
/-- FREE VALUE (log 7): modulus and exponent of the public key that has a SHA-512 digest (R475). -/
opaque bootKey (digest : BitVec 512) : Nat × Nat
/-- FREE VALUE (log 7): the device's RSA-4096 signature over A, the log and a nonce (R475). -/
opaque deviceSign (a : BitVec 512) (log : List (BitVec 512)) (nonce : BitVec 512) : List Byte
/-- FREE VALUE (log 8): the bitstream an encoder produces for a frame: words 0 to 5 of the stream's descriptor, which hold its codec, size and bit rate, the
frame's bytes, and whether it is a key frame. -/
opaque bitstream (stream : List (BitVec 64)) (frame : List Byte) (key : Bool) : List Byte
/-- FREE VALUE (log 19): the lifetime count of corrected errors above which firmware wants a wear record (R467). -/
opaque wearLimit : Nat
/-- FREE VALUE (log 20): the clock ceiling in MHz that a power cap of this many watts sets on a column (R469); 0 removes its power. -/
opaque capClock (watts : Nat) : Nat
/-- FREE VALUE (log 20): the clock ceiling in MHz that a power cap of the whole device sets on every column (R469). -/
opaque deviceCapClock (watts : Nat) : Nat
/-- FREE VALUE (log 23): the distinct index values that the spill pool of one column's gather engine holds (R405). -/
opaque poolEntries : Nat
/-- FREE VALUE (log 27): the element size, as a power of two, of a format code for which R163 states none. -/
opaque unstatedSize (fmt : BitVec 6) : BitVec 2
/-- FREE VALUE (log 78): how many spaces firmware lets a partition have (R365). -/
opaque spaceQuota (part : BitVec 6) : Nat
/-- FREE VALUES (log 66): of the Sillage map, a loop's hop latency, which is at most 2 (R447), and of a port the number of its peer device, the peer's port and the link's latency (R448). -/
opaque hopLatency (loop : Nat) : Fin 3
opaque peerDevice (port : Nat) : BitVec 16
opaque peerPort (port : Nat) : BitVec 3
opaque linkLatency (port : Nat) : BitVec 16
/-- FREE VALUE (log 81): the set of a product cache that the entry of a product, or of a content (`ha = hb`), lies in (R360). -/
opaque pcacheSet (sp : BitVec 12) (ha hb : BitVec 24) : BitVec 6
/-- FREE VALUE (log 86): the column record's bytes, whose layout the spec does not give (R375): the power-down log, the restore-error lists of the column's cells, and
the quarantine tables of its slices. -/
opaque columnRecord (log : List (BitVec 64 × Bool)) (errs quars : List (List Nat)) : List Byte
end Sys2Proof.Config
end

