-- ==== Sys2Proof/Syntax.lean ====
section
/-! DEFINITION. The instructions and events of the NYX-1024A: one constructor for each row of spec/opcode_table.json.
The first 214 constructors are instructions, whose fields are those of chapter 3 (R74, R78, R80, R81): register fields are
6-bit numbers, `wa`, `wb`, `wc` and `wd` the wait bits. The 106 constructors after them are the machine's EVENTS: the steps
that its own units, the host and the physical world take (95_what_each_step_holds.md). Their operands are plain numbers:
`c` a context identifier (16 times the exposed cell plus the context, the CTXID of R30), `cell`, `col` (device column, 16
times the tower plus the column), and `n` the place of the thing in the list of the state that holds it. -/

namespace Sys2Proof

/-- Integer width of an IT or DV field (R80). -/
inductive Width where
  | w64 | w32 | w16 | w8
deriving DecidableEq, Repr

/-- Integer kind of an IT field (R80): signed or unsigned, wrapping or saturating. -/
inductive IntKind where
  | wrapI | wrapN | satI | satN
deriving DecidableEq, Repr

/-- Access size of a load (SZ, R80). -/
inductive MemSize where
  | n8 | n16 | n32 | word | i8 | i16 | i32
deriving DecidableEq, Repr

/-- Access size of a store (SZ 0 to 3, R80). -/
inductive StSize where
  | n8 | n16 | n32 | word
deriving DecidableEq, Repr

/-- Scope (R38, R302). -/
inductive Scope where
  | context | cell | column | tower | device | system
deriving DecidableEq, Repr

/-- Vector element type (R80). -/
inductive VT where
  | fp64 | fp32 | fp16 | bf16 | i64 | i32 | i16 | i8
deriving DecidableEq, Repr

/-- Floating-point vector element type (VT 0 to 3, R80). -/
inductive FT where
  | fp64 | fp32 | fp16 | bf16
deriving DecidableEq, Repr

/-- Conversion type (R80). -/
inductive CT where
  | fp64 | fp32 | fp16 | bf16 | i64 | i32 | i16 | i8 | n64 | n32 | n16 | n8 | e4m3 | e5m2
deriving DecidableEq, Repr

/-- Rounding mode (R30, R47). -/
inductive RMode where
  | nearest | zero | up | down
deriving DecidableEq, Repr

/-- Condition of VCMP (R201). -/
inductive Cond where
  | eq | ne | lt | le | ltn | len | un
deriving DecidableEq, Repr

/-- Operation of VRED (R208). -/
inductive RedOp where
  | sum | min | max
deriving DecidableEq, Repr

/-- Register file constant of LGET and LSET (R233). -/
inductive RFile where
  | g | v | k | q | x
deriving DecidableEq, Repr

/-- Retention hint (R76). -/
inductive Hint where
  | dflt | short | long | bypass
deriving DecidableEq, Repr

/-- Kind of FENCE (R184). -/
inductive FenceKind where
  | acq | rel | full
deriving DecidableEq, Repr

/-- Scope of PFENCE (R184). -/
inductive PScope where
  | context | cell | column
deriving DecidableEq, Repr

/-- Work level (R80, R411). -/
inductive Lvl where
  | strand | launch | graph | phase | job
deriving DecidableEq, Repr

/-- Operand type of ACCW (R225). -/
inductive AccIn where
  | fp32 | fp16 | bf16 | e4m3 | e5m2 | i8 | i16 | i32 | i64 | n8 | n16 | n32 | n64
deriving DecidableEq, Repr

/-- Dimension of TRANGE (R221). -/
inductive Dim where
  | rows | columns | depth
deriving DecidableEq, Repr

/-- Area of TLBINV (R280). -/
inductive TlbArea where
  | pageCell | pagePart | allPart
deriving DecidableEq, Repr

/-- Context mode (R8, R280). -/
inductive CtxMode where
  | m16 | m8 | m4
deriving DecidableEq, Repr

/-- Constant of MSET (R210). -/
inductive MsetMode where
  | spread1 | spread2 | spread4 | spread8 | first | copy
deriving DecidableEq, Repr

/-- Control register (R27). -/
inductive Cr where
  | status | tvec | tcause | tpc | tval | space | view | lninfo | ggr | htbase | param | cpsrc | cpdst | cpshape | cpstr0 | cpstr1 | cpbar | cpfollow | slotinit | ctxid | cellid | part | spadsize | shadowiv | tsc | tcfg0 | tcfg1 | tcfg2 | tcfg3 | tcfg4 | tcfg5 | tcfg6 | tcfg7 | tcfg8 | tcfg9 | tcfg10 | tcfg11 | tcfg12 | tcfg13 | tcfg14 | tcfg15
deriving DecidableEq, Repr

/-- Control register that the plain MTCR row writes (R27); STATUS, SPACE, SLOTINIT and TCFG have rows of their own, and a register that no level may write is none (R28). -/
inductive WCr where
  | tvec | tcause | tpc | tval | view | htbase | param | cpsrc | cpdst | cpshape | cpstr0 | cpstr1 | cpbar | cpfollow | part | shadowiv
deriving DecidableEq, Repr

/-- One instruction or event: a row of the opcode table each. -/
inductive Instr where
  /-- ADD (R123). -/
  | add (d a b : BitVec 6) (wa wb : Bool) (wid : Width) (k : IntKind)
  /-- SUB (R123). -/
  | sub (d a b : BitVec 6) (wa wb : Bool) (wid : Width) (k : IntKind)
  /-- MUL (R123). -/
  | mul (d a b : BitVec 6) (wa wb : Bool) (wid : Width) (k : IntKind)
  /-- MULH (R124). -/
  | mulh (d a b : BitVec 6) (wa wb : Bool)
  /-- MULHN (R124). -/
  | mulhn (d a b : BitVec 6) (wa wb : Bool)
  /-- DIV (R125). -/
  | div (d a b : BitVec 6) (wa wb : Bool) (wid : Width)
  /-- DIVN (R125). -/
  | divn (d a b : BitVec 6) (wa wb : Bool) (wid : Width)
  /-- REM (R125). -/
  | rem (d a b : BitVec 6) (wa wb : Bool) (wid : Width)
  /-- REMN (R125). -/
  | remn (d a b : BitVec 6) (wa wb : Bool) (wid : Width)
  /-- AND (R126). -/
  | and (d a b : BitVec 6) (wa wb : Bool)
  /-- OR (R126). -/
  | or (d a b : BitVec 6) (wa wb : Bool)
  /-- XOR (R126). -/
  | xor (d a b : BitVec 6) (wa wb : Bool)
  /-- MOV (R126). -/
  | mov (d a : BitVec 6) (wa : Bool)
  /-- SHL (R130). -/
  | shl (d a b : BitVec 6) (wa wb : Bool)
  /-- SHR (R130). -/
  | shr (d a b : BitVec 6) (wa wb : Bool)
  /-- SRA (R130). -/
  | sra (d a b : BitVec 6) (wa wb : Bool)
  /-- ROTL (R130). -/
  | rotl (d a b : BitVec 6) (wa wb : Bool)
  /-- CLZ (R130). -/
  | clz (d a : BitVec 6) (wa : Bool)
  /-- CTZ (R130). -/
  | ctz (d a : BitVec 6) (wa : Bool)
  /-- POPC (R130). -/
  | popc (d a : BitVec 6) (wa : Bool)
  /-- MIN (R131). -/
  | min (d a b : BitVec 6) (wa wb : Bool)
  /-- MAX (R131). -/
  | max (d a b : BitVec 6) (wa wb : Bool)
  /-- MINN (R131). -/
  | minn (d a b : BitVec 6) (wa wb : Bool)
  /-- MAXN (R131). -/
  | maxn (d a b : BitVec 6) (wa wb : Bool)
  /-- SEXT (R132). -/
  | sext (d a : BitVec 6) (wa : Bool) (n : BitVec 6)
  /-- ZEXT (R132). -/
  | zext (d a : BitVec 6) (wa : Bool) (n : BitVec 6)
  /-- BFX (R133). -/
  | bfx (d a b : BitVec 6) (wa wb : Bool)
  /-- BFI (R133). -/
  | bfi (d a b : BitVec 6) (wa wb : Bool)
  /-- SEL (R134). -/
  | sel (d a b : BitVec 6) (wa wb : Bool)
  /-- SLT (R135). -/
  | slt (d a b : BitVec 6) (wa wb : Bool)
  /-- SLTN (R135). -/
  | sltn (d a b : BitVec 6) (wa wb : Bool)
  /-- SEQ (R135). -/
  | seq (d a b : BitVec 6) (wa wb : Bool)
  /-- HASH (R136). -/
  | hash (d a b : BitVec 6) (wa wb : Bool)
  /-- ADDI (R127). -/
  | addi (d a : BitVec 6) (wa : Bool) (imm : BitVec 11)
  /-- ANDI (R127). -/
  | andi (d a : BitVec 6) (wa : Bool) (imm : BitVec 11)
  /-- ORI (R127). -/
  | ori (d a : BitVec 6) (wa : Bool) (imm : BitVec 11)
  /-- XORI (R127). -/
  | xori (d a : BitVec 6) (wa : Bool) (imm : BitVec 11)
  /-- SLTI (R135). -/
  | slti (d a : BitVec 6) (wa : Bool) (imm : BitVec 11)
  /-- SHLI (R130). -/
  | shli (d a : BitVec 6) (wa : Bool) (s : BitVec 6)
  /-- SHRI (R130). -/
  | shri (d a : BitVec 6) (wa : Bool) (s : BitVec 6)
  /-- SRAI (R130). -/
  | srai (d a : BitVec 6) (wa : Bool) (s : BitVec 6)
  /-- ROTLI (R130). -/
  | rotli (d a : BitVec 6) (wa : Bool) (s : BitVec 6)
  /-- LI (R128). -/
  | li (d : BitVec 6) (imm : BitVec 18)
  /-- LIH (R128). -/
  | lih (d : BitVec 6) (imm : BitVec 18)
  /-- RMAKE (R138). -/
  | rmake (d a b : BitVec 6) (wa wb : Bool)
  /-- RADD (R138). -/
  | radd (d a b : BitVec 6) (wa wb : Bool)
  /-- RSETF (R138). -/
  | rsetf (d a b : BitVec 6) (wa wb : Bool)
  /-- ROFF (R138). -/
  | roff (d a : BitVec 6) (wa : Bool)
  /-- RIDX (R138). -/
  | ridx (d a : BitVec 6) (wa : Bool)
  /-- RADDI (R138). -/
  | raddi (d a : BitVec 6) (wa : Bool) (imm : BitVec 11)
  /-- J (R140). -/
  | j (disp : BitVec 24)
  /-- JAL (R140). -/
  | jal (disp : BitVec 24)
  /-- JR (R140). -/
  | jr (a : BitVec 6) (wa : Bool)
  /-- JALR (R140). -/
  | jalr (d a : BitVec 6) (wa : Bool)
  /-- BEQ (R141). -/
  | beq (a b : BitVec 6) (wa wb : Bool) (disp : BitVec 10)
  /-- BNE (R141). -/
  | bne (a b : BitVec 6) (wa wb : Bool) (disp : BitVec 10)
  /-- BLT (R141). -/
  | blt (a b : BitVec 6) (wa wb : Bool) (disp : BitVec 10)
  /-- BGE (R141). -/
  | bge (a b : BitVec 6) (wa wb : Bool) (disp : BitVec 10)
  /-- BLTN (R141). -/
  | bltn (a b : BitVec 6) (wa wb : Bool) (disp : BitVec 10)
  /-- BGEN (R141). -/
  | bgen (a b : BitVec 6) (wa wb : Bool) (disp : BitVec 10)
  /-- BZ (R141). -/
  | bz (a : BitVec 6) (wa : Bool) (disp : BitVec 17)
  /-- BNZ (R141). -/
  | bnz (a : BitVec 6) (wa : Bool) (disp : BitVec 17)
  /-- LOOP (R145). -/
  | loop (c : BitVec 6) (wc : Bool) (len : BitVec 8) (m : BitVec 5) (e : BitVec 4)
  /-- LOOPW (R145). -/
  | loopw (c : BitVec 6) (wc : Bool) (len : BitVec 8) (m : BitVec 5) (e : BitVec 4)
  /-- LOOPL (R145). -/
  | loopl (a : BitVec 6) (wa : Bool) (xn : BitVec 3)
  /-- NOP (R143). -/
  | nop
  /-- XSET (R149). -/
  | xset (d a : BitVec 6) (wa : Bool)
  /-- XGET (R149). -/
  | xget (d a : BitVec 6)
  /-- XLD (R150). -/
  | xld (d a : BitVec 6) (wa : Bool) (hint : Hint) (disp : BitVec 5)
  /-- XLI (R149). -/
  | xli (d : BitVec 6) (imm : BitVec 18)
  /-- LD (R159). -/
  | ld (d a : BitVec 6) (wa : Bool) (sz : MemSize) (hint : Hint) (disp : BitVec 5)
  /-- ST (R159). -/
  | st (d a : BitVec 6) (wa wd : Bool) (sz : StSize) (hint : Hint) (disp : BitVec 5)
  /-- LDA (R160). -/
  | lda (d a : BitVec 6) (wa : Bool) (sc : Scope) (hint : Hint) (disp : BitVec 5)
  /-- STR (R160). -/
  | str (d a : BitVec 6) (wa wd : Bool) (sc : Scope) (hint : Hint) (disp : BitVec 5)
  /-- LDV (R164). -/
  | ldv (d a : BitVec 6) (wa masked : Bool) (hint : Hint) (disp : BitVec 5)
  /-- STV (R164). -/
  | stv (d a : BitVec 6) (wa wd masked : Bool) (hint : Hint) (disp : BitVec 5)
  /-- VLDS (R166). -/
  | vlds (d a : BitVec 6) (wa : Bool) (xn : BitVec 3) (hint : Hint) (disp : BitVec 5)
  /-- VGATH (R167). -/
  | vgath (d a b : BitVec 6) (wa wb : Bool) (qn : BitVec 3) (idx : Bool)
  /-- VSCAT (R168). -/
  | vscat (d a b : BitVec 6) (wa wb : Bool) (qn : BitVec 3) (idx : Bool)
  /-- LDP (R161). -/
  | ldp (d a : BitVec 6) (wa : Bool) (sz : MemSize) (disp : BitVec 5)
  /-- PREF (R169). -/
  | pref (a : BitVec 6) (wa l2only : Bool) (hint : Hint) (disp : BitVec 5)
  /-- LDS (R173). -/
  | lds (d a : BitVec 6) (wa : Bool) (sc : Scope) (hint : Hint) (disp : BitVec 5)
  /-- TAKE (R173). -/
  | take (d a : BitVec 6) (wa : Bool) (sc : Scope) (hint : Hint) (disp : BitVec 5)
  /-- PUT (R173). -/
  | put (d a : BitVec 6) (wa wd : Bool) (sc : Scope) (hint : Hint) (disp : BitVec 5)
  /-- PUT_FULL_FAULT (R173). -/
  | putFullFault (d a : BitVec 6) (wa wd : Bool) (sc : Scope) (hint : Hint) (disp : BitVec 5)
  /-- FEQ (R175). -/
  | feq (d a : BitVec 6) (wa : Bool) (hint : Hint) (disp : BitVec 5)
  /-- FESET (R175). -/
  | feset (a : BitVec 6) (wa full : Bool) (hint : Hint) (disp : BitVec 5)
  /-- LRW (R179). -/
  | lrw (d a : BitVec 6) (wa : Bool) (sc : Scope) (hint : Hint) (disp : BitVec 5)
  /-- SC (R180). -/
  | sc (d a : BitVec 6) (wa wd : Bool) (sc : Scope) (hint : Hint) (disp : BitVec 5)
  /-- SCREL (R180). -/
  | screl (a : BitVec 6) (wa : Bool) (sc : Scope) (hint : Hint) (disp : BitVec 5)
  /-- FENCE (R185). -/
  | fence (kind : FenceKind) (sc : Scope)
  /-- PFENCE (R187). -/
  | pfence (sc : PScope)
  /-- PPOINT (R186). -/
  | ppoint
  /-- DCLEAN (R190). -/
  | dclean (a : BitVec 6) (wa : Bool) (hint : Hint) (disp : BitVec 5)
  /-- DINVAL (R190). -/
  | dinval (a : BitVec 6) (wa : Bool) (hint : Hint) (disp : BitVec 5)
  /-- ICINVAL_LINE (R191). -/
  | icinvalLine (a : BitVec 6) (wa : Bool) (disp : BitVec 5)
  /-- ICINVAL_CELL (R191). -/
  | icinvalCell
  /-- FETCHB (R192). -/
  | fetchb
  /-- CPIN_PIN (R193). -/
  | cpinPin (a : BitVec 6) (wa : Bool) (hint : Hint) (disp : BitVec 5)
  /-- CPIN_UNPIN (R193). -/
  | cpinUnpin (a : BitVec 6) (wa : Bool) (hint : Hint) (disp : BitVec 5)
  /-- VADD (R200). -/
  | vadd (d a b : BitVec 6) (wa wb : Bool) (t : VT)
  /-- VSUB (R200). -/
  | vsub (d a b : BitVec 6) (wa wb : Bool) (t : VT)
  /-- VMUL (R200). -/
  | vmul (d a b : BitVec 6) (wa wb : Bool) (t : VT)
  /-- VDIV (R200). -/
  | vdiv (d a b : BitVec 6) (wa wb : Bool) (t : FT)
  /-- VFMA (R200). -/
  | vfma (d a b : BitVec 6) (wa wb : Bool) (t : FT)
  /-- VFMS (R200). -/
  | vfms (d a b : BitVec 6) (wa wb : Bool) (t : FT)
  /-- VMIN (R200). -/
  | vmin (d a b : BitVec 6) (wa wb : Bool) (t : VT)
  /-- VMAX (R200). -/
  | vmax (d a b : BitVec 6) (wa wb : Bool) (t : VT)
  /-- VSQRT (R200). -/
  | vsqrt (d a : BitVec 6) (wa : Bool) (t : FT)
  /-- VRCP (R200). -/
  | vrcp (d a : BitVec 6) (wa : Bool) (t : FT)
  /-- VRSQ (R200). -/
  | vrsq (d a : BitVec 6) (wa : Bool) (t : FT)
  /-- VABS (R200). -/
  | vabs (d a : BitVec 6) (wa : Bool) (t : VT)
  /-- VNEG (R200). -/
  | vneg (d a : BitVec 6) (wa : Bool) (t : VT)
  /-- VCMP (R201). -/
  | vcmp (qd : BitVec 3) (cond : Cond) (a b : BitVec 6) (wa wb : Bool) (t : VT)
  /-- VSEL (R202). -/
  | vsel (d a b : BitVec 6) (wa wb : Bool) (qn : BitVec 3)
  /-- VAND (R203). -/
  | vand (d a b : BitVec 6) (wa wb : Bool)
  /-- VOR (R203). -/
  | vor (d a b : BitVec 6) (wa wb : Bool)
  /-- VXOR (R203). -/
  | vxor (d a b : BitVec 6) (wa wb : Bool)
  /-- VSHL (R204). -/
  | vshl (d a b : BitVec 6) (wa wb : Bool) (wid : Width)
  /-- VSHR (R204). -/
  | vshr (d a b : BitVec 6) (wa wb : Bool) (wid : Width)
  /-- VSHR_ARITH (R204). -/
  | vshrArith (d a b : BitVec 6) (wa wb : Bool) (wid : Width)
  /-- VCVT (R206). -/
  | vcvt (d a : BitVec 6) (wa : Bool) (src dst : CT) (rm : Option RMode)
  /-- VBCAST (R207). -/
  | vbcast (d a : BitVec 6) (wa : Bool) (wid : Width)
  /-- VEXT (R207). -/
  | vext (d a b : BitVec 6) (wa wb : Bool) (wid : Width)
  /-- VINS (R207). -/
  | vins (d a b : BitVec 6) (wa wb : Bool) (wid : Width)
  /-- VPERM (R207). -/
  | vperm (d a b : BitVec 6) (wa wb : Bool) (wid : Width)
  /-- VRED (R208). -/
  | vred (d a : BitVec 6) (wa : Bool) (op : RedOp) (t : VT)
  /-- VDOT (R208). -/
  | vdot (d a b : BitVec 6) (wa wb : Bool) (t : VT)
  /-- MAND (R209). -/
  | mand (d a b : BitVec 6) (wa wb : Bool)
  /-- MOR (R209). -/
  | mor (d a b : BitVec 6) (wa wb : Bool)
  /-- MXOR (R209). -/
  | mxor (d a b : BitVec 6) (wa wb : Bool)
  /-- MNOT (R209). -/
  | mnot (d a : BitVec 6) (wa : Bool)
  /-- MPOP (R209). -/
  | mpop (d a : BitVec 6) (wa : Bool)
  /-- MSET (R210). -/
  | mset (d a : BitVec 6) (wa : Bool) (mode : MsetMode)
  /-- MMA (R220). -/
  | mma (d a b : BitVec 6) (xn : BitVec 3) (acc16 : Bool)
  /-- MMAZ (R220). -/
  | mmaz (d a b : BitVec 6) (xn : BitVec 3) (acc16 : Bool)
  /-- TLD (R215). -/
  | tld (d a : BitVec 6) (wa : Bool) (xn : BitVec 3) (hint : Hint) (disp : BitVec 5)
  /-- TST (R216). -/
  | tst (d a : BitVec 6) (wa : Bool) (xn : BitVec 3) (hint : Hint) (disp : BitVec 5)
  /-- TZERO (R222). -/
  | tzero (d : BitVec 6)
  /-- TCVT (R222). -/
  | tcvt (d a : BitVec 6)
  /-- TADD (R222). -/
  | tadd (d a b : BitVec 6)
  /-- TSCALE (R222). -/
  | tscale (d a : BitVec 6) (xn : BitVec 3)
  /-- TTRANS (R222). -/
  | ttrans (d a : BitVec 6)
  /-- TROWV (R222). -/
  | trowv (d a : BitVec 6) (xn : BitVec 3)
  /-- TVROW (R222). -/
  | tvrow (d a : BitVec 6) (xn : BitVec 3)
  /-- TRANGE (R221). -/
  | trange (d a b : BitVec 6) (wa wb : Bool) (dim : Dim)
  /-- TFACT (R223). -/
  | tfact (d a b : BitVec 6) (xn : BitVec 3) (chol : Bool)
  /-- TSOLVE (R224). -/
  | tsolve (d a b : BitVec 6) (upper unit right : Bool)
  /-- ACCZ (R227). -/
  | accz (a : BitVec 6) (wa : Bool)
  /-- ACCWP (R227). -/
  | accwp (d a b : BitVec 6) (wa wb : Bool)
  /-- ACCR (R227). -/
  | accr (d a : BitVec 6) (wa : Bool)
  /-- ACCR_FP64 (R227). -/
  | accrFp64 (d a : BitVec 6) (wa : Bool)
  /-- ACCM (R227). -/
  | accm (a b : BitVec 6) (wa wb : Bool)
  /-- ACCW (R227). -/
  | accw (a b : BitVec 6) (wa wb : Bool) (ty : AccIn)
  /-- LTAG (R234). -/
  | ltag (d a b : BitVec 6) (wa wb : Bool)
  /-- LGET (R235). -/
  | lget (d a : BitVec 6) (wa : Bool) (file : RFile)
  /-- LSET (R236). -/
  | lset (d a : BitVec 6) (wa : Bool) (file : RFile)
  /-- LPROD (R237). -/
  | lprod (d a b : BitVec 6) (wa wb : Bool)
  /-- LHOLDS (R238). -/
  | lholds (d a b : BitVec 6) (wa wb : Bool)
  /-- LENV (R238). -/
  | lenv (d a b : BitVec 6) (wa wb : Bool)
  /-- LCNT (R238). -/
  | lcnt (d a : BitVec 6) (wa : Bool)
  /-- LSEL (R239). -/
  | lsel (d a b : BitVec 6) (wa wb : Bool)
  /-- NOGOOD (R240). -/
  | nogood (d a : BitVec 6) (wa : Bool)
  /-- LSYNC (R242). -/
  | lsync
  /-- LCOMPACT (R243). -/
  | lcompact (d a : BitVec 6) (wa : Bool)
  /-- CLAIM (R246). -/
  | claim (d : BitVec 6)
  /-- CLAIMW (R247). -/
  | claimw (d : BitVec 6)
  /-- FULFIL (R248). -/
  | fulfil (a : BitVec 6) (wa : Bool) (cls : Hint)
  /-- ABANDON (R249). -/
  | abandon
  /-- CLDROP (R249). -/
  | cldrop (d : BitVec 6)
  /-- CPGO (R257). -/
  | cpgo (d : BitVec 6)
  /-- CPMC (R262). -/
  | cpmc (d a : BitVec 6) (wa : Bool)
  /-- SLOTRET (R264). -/
  | slotret (a b : BitVec 6) (wa wb : Bool)
  /-- SLOTQ (R265). -/
  | slotq (d a : BitVec 6) (wa : Bool)
  /-- TBINIT (R269). -/
  | tbinit (a b : BitVec 6) (wa wb : Bool)
  /-- TBEXP (R269). -/
  | tbexp (a b : BitVec 6) (wa wb : Bool)
  /-- TBARR (R269). -/
  | tbarr (a : BitVec 6) (wa : Bool) (sc : Scope)
  /-- TBWAIT (R270). -/
  | tbwait (d a b : BitVec 6) (wa wb : Bool)
  /-- TBTIME (R270). -/
  | tbtime (d a b : BitVec 6) (wa wb : Bool)
  /-- ENCPOST (R275). -/
  | encpost (d a b : BitVec 6) (wa wb : Bool)
  /-- GATH (R272). -/
  | gath (d : BitVec 6) (hint : Hint)
  /-- NSIGNAL (R277). -/
  | nsignal (a : BitVec 6) (wa : Bool)
  /-- STRDONE (R278). -/
  | strdone
  /-- CANCEL (R279). -/
  | cancel (d a : BitVec 6) (wa : Bool) (lvl : Lvl)
  /-- CNTQ (R279). -/
  | cntq (d a : BitVec 6) (wa : Bool) (lvl : Lvl)
  /-- MFCR (R281). -/
  | mfcr (d : BitVec 6) (cr : Cr)
  /-- MTCR (R281). -/
  | mtcr (cr : WCr) (a : BitVec 6)
  /-- MTCR_STATUS (R30). -/
  | mtcrStatus (a : BitVec 6)
  /-- MTCR_SPACE (R31). -/
  | mtcrSpace (a : BitVec 6)
  /-- MTCR_SLOTINIT (R263). -/
  | mtcrSlotinit (a : BitVec 6)
  /-- MTCR_TCFG (R31). -/
  | mtcrTcfg (n : BitVec 4) (a : BitVec 6)
  /-- TRAP (R282). -/
  | trap (imm : BitVec 12)
  /-- ERET (R283). -/
  | eret
  /-- SIGNAL (R284). -/
  | signal (a : BitVec 6) (info : BitVec 12)
  /-- REPART (R285). -/
  | repart (a : BitVec 6) (mode : CtxMode)
  /-- TLBINV (R286). -/
  | tlbinv (a : BitVec 6) (area : TlbArea)
  /-- HINVAL (R286). -/
  | hinval (a : BitVec 6) (all : Bool)
  /-- ROUTESET (R286). -/
  | routeset (a : BitVec 6) (idx : BitVec 8)
  /-- ROUTEINV (R286). -/
  | routeinv (idx : BitVec 8) (all : Bool)
  /-- C_MOV (R79). -/
  | cMov (d a : BitVec 4)
  /-- C_ADD (R79). -/
  | cAdd (d a : BitVec 4)
  /-- C_SUB (R79). -/
  | cSub (d a : BitVec 4)
  /-- C_AND (R79). -/
  | cAnd (d a : BitVec 4)
  /-- C_OR (R79). -/
  | cOr (d a : BitVec 4)
  /-- C_XOR (R79). -/
  | cXor (d a : BitVec 4)
  /-- C_ADDI (R79). -/
  | cAddi (d : BitVec 4) (imm : BitVec 7)
  /-- C_SHLI (R79). -/
  | cShli (d : BitVec 4) (s : BitVec 6)
  /-- C_LI (R79). -/
  | cLi (d : BitVec 4) (imm : BitVec 7)
  /-- C_LD (R79). -/
  | cLd (d a : BitVec 4) (disp : BitVec 3)
  /-- C_ST (R79). -/
  | cSt (d a : BitVec 4) (disp : BitVec 3)
  /-- C_BZ (R79). -/
  | cBz (a : BitVec 4) (disp : BitVec 7)
  /-- C_BNZ (R79). -/
  | cBnz (a : BitVec 4) (disp : BitVec 7)
  /-- C_J (R79). -/
  | cJ (disp : BitVec 11)
  /-- C_JR (R79). -/
  | cJr (a : BitVec 4)
  /-- INTERRUPT_TAKEN (R36). -/
  | interruptTaken (c : Nat)
  /-- SIGNAL_ARRIVAL (R284). -/
  | signalArrival (n : Nat)
  /-- LOOP_BACK (R146). -/
  | loopBack (c : Nat)
  /-- LABEL_PRODUCT_ANSWER (R14). -/
  | labelProductAnswer (n : Nat)
  /-- DIVIDE_COMPLETE (R125). -/
  | divideComplete (c n : Nat)
  /-- LOAD_DATA_RETURN (R159). -/
  | loadDataReturn (c n : Nat)
  /-- DEFERRED_DATA_ERROR_FAULT (R157). -/
  | deferredDataErrorFault (c : Nat)
  /-- VECTOR_LONG_COMPLETE (R208). -/
  | vectorLongComplete (c n : Nat)
  /-- MATRIX_INSTRUCTION_START (R213). -/
  | matrixInstructionStart (cell : Nat)
  /-- MATRIX_INSTRUCTION_COMPLETE (R217). -/
  | matrixInstructionComplete (cell : Nat)
  /-- FOLLOW_ON_OFFER (R261). -/
  | followOnOffer (cell n : Nat)
  /-- ACCUMULATOR_COMPLETE (R228). -/
  | accumulatorComplete (c n : Nat)
  /-- PAGE_WALK_COMPLETE (R348). -/
  | pageWalkComplete (n : Nat)
  /-- HOME_REQUEST_ARRIVAL (R171). -/
  | homeRequestArrival (n : Nat)
  /-- REFUSED_REQUEST_RETRY (R176). -/
  | refusedRequestRetry (n : Nat)
  /-- SERVICE_DELIVERY (R173). -/
  | serviceDelivery (n : Nat)
  /-- RESERVATION_REQUEST_ARRIVAL (R179). -/
  | reservationRequestArrival (n : Nat)
  /-- RESERVATION_PASS_ARRIVAL (R180). -/
  | reservationPassArrival (n : Nat)
  /-- HOLD_LIMIT_EXPIRY (R182). -/
  | holdLimitExpiry (w : Nat)
  /-- RESERVATION_HOLD_NOTICE (R182). -/
  | reservationHoldNotice (n : Nat)
  /-- WCB_DRAIN (R307). -/
  | wcbDrain (c n : Nat)
  /-- L1_WRITE_BACK (R306). -/
  | l1WriteBack (cell line : Nat) (evict : Bool)
  /-- SCRUB (R344). -/
  | scrub (stack line : Nat)
  /-- AUTOMATIC_PERSISTENCE_POINT (R188). -/
  | automaticPersistencePoint (c : Nat)
  /-- IMAGE_COMPLETE (R379). -/
  | imageComplete (c : Nat)
  /-- SHADOW_LINE_COPY (R381). -/
  | shadowLineCopy (cell line : Nat)
  /-- CELL_LOSS (R382). -/
  | cellLoss (col : Nat)
  /-- STATION_LOSS (R382). -/
  | stationLoss (col : Nat)
  /-- LOSS_REPORT (R372). -/
  | lossReport (col : Nat)
  /-- COLUMN_RESUME (R385). -/
  | columnResume (col : Nat)
  /-- PEER_ACCESS_TIMEOUT (R384). -/
  | peerAccessTimeout (c : Nat)
  /-- REQUEST_ABANDON_TIMEOUT (R480). -/
  | requestAbandonTimeout (cell col : Nat)
  /-- ALEMBIC_CLAIM_ARRIVAL (R370). -/
  | alembicClaimArrival (n : Nat)
  /-- ALEMBIC_FULFIL_ARRIVAL (R248). -/
  | alembicFulfilArrival (n : Nat)
  /-- ALEMBIC_ABANDON_ARRIVAL (R249). -/
  | alembicAbandonArrival (n : Nat)
  /-- ALEMBIC_CLDROP_ARRIVAL (R249). -/
  | alembicCldropArrival (n : Nat)
  /-- CLAIM_RETURN (R246). -/
  | claimReturn (n : Nat)
  /-- ACCORD_PRODUCT_REQUEST (R363). -/
  | accordProductRequest (n : Nat)
  /-- INTERN (R357). -/
  | intern (n : Nat)
  /-- ENTRY_REWRITE (R358). -/
  | entryRewrite (n : Nat)
  /-- NOGOOD_APPEND (R240). -/
  | nogoodAppend (n : Nat)
  /-- GENERATION_BROADCAST (R361). -/
  | generationBroadcast (n unit : Nat)
  /-- NOGOOD_ACKNOWLEDGE (R240). -/
  | nogoodAcknowledge (n unit : Nat)
  /-- COPY_SLOT_ALLOCATION (R258). -/
  | copySlotAllocation (cell : Nat)
  /-- SLOT_RETURN_ARRIVAL (R264). -/
  | slotReturnArrival (n : Nat)
  /-- COPY_LINE (R396). -/
  | copyLine (cell slot : Nat)
  /-- BARRIER_CREDIT (R260). -/
  | barrierCredit (n : Nat)
  /-- BARRIER_WAIT_RETURN (R270). -/
  | barrierWaitReturn (n : Nat)
  /-- TBTIME_LIMIT_EXPIRY (R270). -/
  | tbtimeLimitExpiry (n : Nat)
  /-- GATHER_INDEX_READ (R274). -/
  | gatherIndexRead (col n : Nat)
  /-- GATHER_ROW_MOVE (R274). -/
  | gatherRowMove (col n : Nat)
  /-- ENCODER_FRAME_START (R408). -/
  | encoderFrameStart (enc : Nat)
  /-- ENCODER_FRAME_READ_DONE (R275). -/
  | encoderFrameReadDone (enc : Nat)
  /-- ENCODER_RECORD_WRITE (R409). -/
  | encoderRecordWrite (enc : Nat)
  /-- JOB_SUBMISSION (R453). -/
  | jobSubmission (part : BitVec 6) (v : Word)
  /-- JCLR (R453). -/
  | jclr (part : BitVec 6) (v : Word)
  /-- JOB_START (R413). -/
  | jobStart (part : BitVec 6)
  /-- PHASE_START (R319). -/
  | phaseStart (job : Nat)
  /-- NODE_READY (R418). -/
  | nodeReady (job g n : Nat)
  /-- NODE_COMPLETE (R419). -/
  | nodeComplete (job g n : Nat)
  /-- NSIGNAL_ARRIVAL (R277). -/
  | nsignalArrival (n : Nat)
  /-- STRAND_PLACEMENT (R422). -/
  | strandPlacement (c : Nat)
  /-- CO_RESIDENT_PLACEMENT (R426). -/
  | coResidentPlacement (job g n : Nat)
  /-- CONTRACT_RELEASE (R430). -/
  | contractRelease (job : Nat)
  /-- BUDGET_OVERRUN (R431). -/
  | budgetOverrun (c : Nat)
  /-- DEADLINE_MISS (R431). -/
  | deadlineMiss (job : Nat)
  /-- DISPATCH_STALL (R429). -/
  | dispatchStall (job g n : Nat)
  /-- PRE_EMPTION (R433). -/
  | preEmption (c : Nat)
  /-- RESTORE (R434). -/
  | restore (c : Nat)
  /-- DEFERRED_DELIVERY (R434). -/
  | deferredDelivery (c n : Nat)
  /-- BUBBLE_STARVATION (R439). -/
  | bubbleStarvation (station lp : Nat)
  /-- LOST_REQUEST_TIMEOUT (R446). -/
  | lostRequestTimeout (c n : Nat)
  /-- LOOP_FAILURE (R446). -/
  | loopFailure (isStation : Bool) (n : Nat)
  /-- PORT_DOWN (R450). -/
  | portDown (port : Nat)
  /-- PEER_ARRIVAL_CHECK (R444). -/
  | peerArrivalCheck (n : Nat)
  /-- HOST_CXL_MEM_ACCESS (R452). -/
  | hostCxlMemAccess (addr : Nat) (write : Bool) (v : Word)
  /-- HOST_SNOOP (R451). -/
  | hostSnoop (line : Nat) (inval : Bool)
  /-- TEMPERATURE_SAMPLE (R469). -/
  | temperatureSample (col : Nat) (t0 t1 t2 : Int) (mw : Nat)
  /-- DROOP_STRETCH (R471). -/
  | droopStretch (col : Nat)
  /-- DROOP_STRETCH_LONG (R471). -/
  | droopStretchLong (col : Nat)
  /-- POWER_ON (R475). -/
  | powerOn (warm : Bool) (key digest : BitVec 512) (sig : List Byte)
  /-- FILE_LOAD (R117). -/
  | fileLoad (part : BitVec 6) (file : List Byte)
  /-- IMAGE_RECEIPT (R116). -/
  | imageReceipt (cell : Nat) (errs : List Byte)
  /-- ADOPT_SPARE_CELL (R392). -/
  | adoptSpareCell (cell : Nat)
  /-- REPAIR_BANKS (R331). -/
  | repairBanks (cell : Nat)
  /-- COMMISSION_SPARE_LOOP (R437). -/
  | commissionSpareLoop (spare failed : Nat)
  /-- SUBSTITUTE_L2_WAY_GROUP (R472). -/
  | substituteL2WayGroup (slice : Nat)
  /-- RELEASE_QUARANTINE_ENTRY (R351). -/
  | releaseQuarantineEntry (slice line : Nat)
  /-- CLEAR_SENSOR_MARKING (R468). -/
  | clearSensorMarking (col sensor : Nat)
  /-- SET_POWER_CAP (R469). -/
  | setPowerCap (col watts : Nat)
  /-- TAKE_CHECKPOINT (R393). -/
  | takeCheckpoint (stay : Bool)
  /-- RESTORE_CHECKPOINT (R395). -/
  | restoreCheckpoint (good : Bool)
  /-- POWER_COLUMN (R383). -/
  | powerColumn (col : Nat) (up station : Bool)
  /-- TAKE_SLICE_OUT_OF_SERVICE (R351). -/
  | takeSliceOutOfService (slice : Nat)
  /-- MAILBOX_COMPLETION (R474). -/
  | mailboxCompletion
  /-- INSTRUCTION_CACHE_EVICTION (R335). -/
  | instructionCacheEviction (cell line : Nat)
  /-- HANDLE_CACHE_EVICTION (R26). -/
  | handleCacheEviction (cell idx : Nat)
  /-- STORE_ARRIVAL_AT_HOME (R304). -/
  | storeArrivalAtHome (n : Nat)
  /-- BARRIER_REQUEST_ARRIVAL (R269). -/
  | barrierRequestArrival (n : Nat)
  /-- SCHEDULER_ANSWER (R279). -/
  | schedulerAnswer (n : Nat)
  /-- FRAME_OFFER (R275). -/
  | frameOffer (n : Nat)
  /-- SUPPLY_RECOVERY (R471). -/
  | supplyRecovery (col : Nat)
  /-- PORT_UP (R448). -/
  | portUp (port : Nat)
  /-- MSIX_VECTOR_UNMASK (R454). -/
  | msixVectorUnmask (v : Nat)
  /-- INVALID_MAILBOX_COMMAND (R474). -/
  | invalidMailboxCommand (op : BitVec 8)
  /-- ATTESTATION_REQUEST (R475). -/
  | attestationRequest (nonce : BitVec 512)
deriving DecidableEq, Repr

/-- Which file a register field names (R75). -/
abbrev RegField := RFile × Nat

/-- The tile register whose configuration a control register is: TCFGn names kn, and every other names none (0 is always within the allotment). -/
def Cr.tile : Cr → Nat
  | .tcfg0 => 0
  | .tcfg1 => 1
  | .tcfg2 => 2
  | .tcfg3 => 3
  | .tcfg4 => 4
  | .tcfg5 => 5
  | .tcfg6 => 6
  | .tcfg7 => 7
  | .tcfg8 => 8
  | .tcfg9 => 9
  | .tcfg10 => 10
  | .tcfg11 => 11
  | .tcfg12 => 12
  | .tcfg13 => 13
  | .tcfg14 => 14
  | .tcfg15 => 15
  | .status => 0
  | .tvec => 0
  | .tcause => 0
  | .tpc => 0
  | .tval => 0
  | .space => 0
  | .view => 0
  | .lninfo => 0
  | .ggr => 0
  | .htbase => 0
  | .param => 0
  | .cpsrc => 0
  | .cpdst => 0
  | .cpshape => 0
  | .cpstr0 => 0
  | .cpstr1 => 0
  | .cpbar => 0
  | .cpfollow => 0
  | .slotinit => 0
  | .ctxid => 0
  | .cellid => 0
  | .part => 0
  | .spadsize => 0
  | .shadowiv => 0
  | .tsc => 0

/-- The register fields that an instruction names, with their files: the numbers R12 and R75 check against the allotment. -/
def Instr.regs : Instr → List RegField
  | .add d a b _ _ _ _ => [(.g, d.toNat), (.g, a.toNat), (.g, b.toNat)]
  | .sub d a b _ _ _ _ => [(.g, d.toNat), (.g, a.toNat), (.g, b.toNat)]
  | .mul d a b _ _ _ _ => [(.g, d.toNat), (.g, a.toNat), (.g, b.toNat)]
  | .mulh d a b _ _ => [(.g, d.toNat), (.g, a.toNat), (.g, b.toNat)]
  | .mulhn d a b _ _ => [(.g, d.toNat), (.g, a.toNat), (.g, b.toNat)]
  | .div d a b _ _ _ => [(.g, d.toNat), (.g, a.toNat), (.g, b.toNat)]
  | .divn d a b _ _ _ => [(.g, d.toNat), (.g, a.toNat), (.g, b.toNat)]
  | .rem d a b _ _ _ => [(.g, d.toNat), (.g, a.toNat), (.g, b.toNat)]
  | .remn d a b _ _ _ => [(.g, d.toNat), (.g, a.toNat), (.g, b.toNat)]
  | .and d a b _ _ => [(.g, d.toNat), (.g, a.toNat), (.g, b.toNat)]
  | .or d a b _ _ => [(.g, d.toNat), (.g, a.toNat), (.g, b.toNat)]
  | .xor d a b _ _ => [(.g, d.toNat), (.g, a.toNat), (.g, b.toNat)]
  | .mov d a _ => [(.g, d.toNat), (.g, a.toNat)]
  | .shl d a b _ _ => [(.g, d.toNat), (.g, a.toNat), (.g, b.toNat)]
  | .shr d a b _ _ => [(.g, d.toNat), (.g, a.toNat), (.g, b.toNat)]
  | .sra d a b _ _ => [(.g, d.toNat), (.g, a.toNat), (.g, b.toNat)]
  | .rotl d a b _ _ => [(.g, d.toNat), (.g, a.toNat), (.g, b.toNat)]
  | .clz d a _ => [(.g, d.toNat), (.g, a.toNat)]
  | .ctz d a _ => [(.g, d.toNat), (.g, a.toNat)]
  | .popc d a _ => [(.g, d.toNat), (.g, a.toNat)]
  | .min d a b _ _ => [(.g, d.toNat), (.g, a.toNat), (.g, b.toNat)]
  | .max d a b _ _ => [(.g, d.toNat), (.g, a.toNat), (.g, b.toNat)]
  | .minn d a b _ _ => [(.g, d.toNat), (.g, a.toNat), (.g, b.toNat)]
  | .maxn d a b _ _ => [(.g, d.toNat), (.g, a.toNat), (.g, b.toNat)]
  | .sext d a _ _ => [(.g, d.toNat), (.g, a.toNat)]
  | .zext d a _ _ => [(.g, d.toNat), (.g, a.toNat)]
  | .bfx d a b _ _ => [(.g, d.toNat), (.g, a.toNat), (.g, b.toNat)]
  | .bfi d a b _ _ => [(.g, d.toNat), (.g, a.toNat), (.g, b.toNat)]
  | .sel d a b _ _ => [(.g, d.toNat), (.g, a.toNat), (.g, b.toNat)]
  | .slt d a b _ _ => [(.g, d.toNat), (.g, a.toNat), (.g, b.toNat)]
  | .sltn d a b _ _ => [(.g, d.toNat), (.g, a.toNat), (.g, b.toNat)]
  | .seq d a b _ _ => [(.g, d.toNat), (.g, a.toNat), (.g, b.toNat)]
  | .hash d a b _ _ => [(.g, d.toNat), (.g, a.toNat), (.g, b.toNat)]
  | .addi d a _ _ => [(.g, d.toNat), (.g, a.toNat)]
  | .andi d a _ _ => [(.g, d.toNat), (.g, a.toNat)]
  | .ori d a _ _ => [(.g, d.toNat), (.g, a.toNat)]
  | .xori d a _ _ => [(.g, d.toNat), (.g, a.toNat)]
  | .slti d a _ _ => [(.g, d.toNat), (.g, a.toNat)]
  | .shli d a _ _ => [(.g, d.toNat), (.g, a.toNat)]
  | .shri d a _ _ => [(.g, d.toNat), (.g, a.toNat)]
  | .srai d a _ _ => [(.g, d.toNat), (.g, a.toNat)]
  | .rotli d a _ _ => [(.g, d.toNat), (.g, a.toNat)]
  | .li d _ => [(.g, d.toNat)]
  | .lih d _ => [(.g, d.toNat)]
  | .rmake d a b _ _ => [(.g, d.toNat), (.g, a.toNat), (.g, b.toNat)]
  | .radd d a b _ _ => [(.g, d.toNat), (.g, a.toNat), (.g, b.toNat)]
  | .rsetf d a b _ _ => [(.g, d.toNat), (.g, a.toNat), (.g, b.toNat)]
  | .roff d a _ => [(.g, d.toNat), (.g, a.toNat)]
  | .ridx d a _ => [(.g, d.toNat), (.g, a.toNat)]
  | .raddi d a _ _ => [(.g, d.toNat), (.g, a.toNat)]
  | .j _ => []
  | .jal _ => []
  | .jr a _ => [(.g, a.toNat)]
  | .jalr d a _ => [(.g, d.toNat), (.g, a.toNat)]
  | .beq a b _ _ _ => [(.g, a.toNat), (.g, b.toNat)]
  | .bne a b _ _ _ => [(.g, a.toNat), (.g, b.toNat)]
  | .blt a b _ _ _ => [(.g, a.toNat), (.g, b.toNat)]
  | .bge a b _ _ _ => [(.g, a.toNat), (.g, b.toNat)]
  | .bltn a b _ _ _ => [(.g, a.toNat), (.g, b.toNat)]
  | .bgen a b _ _ _ => [(.g, a.toNat), (.g, b.toNat)]
  | .bz a _ _ => [(.g, a.toNat)]
  | .bnz a _ _ => [(.g, a.toNat)]
  | .loop c _ _ _ _ => [(.g, c.toNat)]
  | .loopw c _ _ _ _ => [(.g, c.toNat)]
  | .loopl a _ _ => [(.g, a.toNat)]
  | .nop => []
  | .xset d a _ => [(.x, d.toNat), (.g, a.toNat)]
  | .xget d a => [(.g, d.toNat), (.x, a.toNat)]
  | .xld d a _ _ _ => [(.x, d.toNat), (.g, a.toNat)]
  | .xli d _ => [(.x, d.toNat)]
  | .ld d a _ _ _ _ => [(.g, d.toNat), (.g, a.toNat)]
  | .st d a _ _ _ _ _ => [(.g, d.toNat), (.g, a.toNat)]
  | .lda d a _ _ _ _ => [(.g, d.toNat), (.g, a.toNat)]
  | .str d a _ _ _ _ _ => [(.g, d.toNat), (.g, a.toNat)]
  | .ldv d a _ _ _ _ => [(.v, d.toNat), (.g, a.toNat)]
  | .stv d a _ _ _ _ _ => [(.v, d.toNat), (.g, a.toNat)]
  | .vlds d a _ _ _ _ => [(.v, d.toNat), (.g, a.toNat)]
  | .vgath d a b _ _ _ _ => [(.v, d.toNat), (.g, a.toNat), (.v, b.toNat)]
  | .vscat d a b _ _ _ _ => [(.v, d.toNat), (.g, a.toNat), (.v, b.toNat)]
  | .ldp d a _ _ _ => [(.g, d.toNat), (.g, a.toNat)]
  | .pref a _ _ _ _ => [(.g, a.toNat)]
  | .lds d a _ _ _ _ => [(.g, d.toNat), (.g, a.toNat)]
  | .take d a _ _ _ _ => [(.g, d.toNat), (.g, a.toNat)]
  | .put d a _ _ _ _ _ => [(.g, d.toNat), (.g, a.toNat)]
  | .putFullFault d a _ _ _ _ _ => [(.g, d.toNat), (.g, a.toNat)]
  | .feq d a _ _ _ => [(.g, d.toNat), (.g, a.toNat)]
  | .feset a _ _ _ _ => [(.g, a.toNat)]
  | .lrw d a _ _ _ _ => [(.g, d.toNat), (.g, a.toNat)]
  | .sc d a _ _ _ _ _ => [(.g, d.toNat), (.g, a.toNat)]
  | .screl a _ _ _ _ => [(.g, a.toNat)]
  | .fence _ _ => []
  | .pfence _ => []
  | .ppoint => []
  | .dclean a _ _ _ => [(.g, a.toNat)]
  | .dinval a _ _ _ => [(.g, a.toNat)]
  | .icinvalLine a _ _ => [(.g, a.toNat)]
  | .icinvalCell => []
  | .fetchb => []
  | .cpinPin a _ _ _ => [(.g, a.toNat)]
  | .cpinUnpin a _ _ _ => [(.g, a.toNat)]
  | .vadd d a b _ _ _ => [(.v, d.toNat), (.v, a.toNat), (.v, b.toNat)]
  | .vsub d a b _ _ _ => [(.v, d.toNat), (.v, a.toNat), (.v, b.toNat)]
  | .vmul d a b _ _ _ => [(.v, d.toNat), (.v, a.toNat), (.v, b.toNat)]
  | .vdiv d a b _ _ _ => [(.v, d.toNat), (.v, a.toNat), (.v, b.toNat)]
  | .vfma d a b _ _ _ => [(.v, d.toNat), (.v, a.toNat), (.v, b.toNat)]
  | .vfms d a b _ _ _ => [(.v, d.toNat), (.v, a.toNat), (.v, b.toNat)]
  | .vmin d a b _ _ _ => [(.v, d.toNat), (.v, a.toNat), (.v, b.toNat)]
  | .vmax d a b _ _ _ => [(.v, d.toNat), (.v, a.toNat), (.v, b.toNat)]
  | .vsqrt d a _ _ => [(.v, d.toNat), (.v, a.toNat)]
  | .vrcp d a _ _ => [(.v, d.toNat), (.v, a.toNat)]
  | .vrsq d a _ _ => [(.v, d.toNat), (.v, a.toNat)]
  | .vabs d a _ _ => [(.v, d.toNat), (.v, a.toNat)]
  | .vneg d a _ _ => [(.v, d.toNat), (.v, a.toNat)]
  | .vcmp _ _ a b _ _ _ => [(.v, a.toNat), (.v, b.toNat)]
  | .vsel d a b _ _ _ => [(.v, d.toNat), (.v, a.toNat), (.v, b.toNat)]
  | .vand d a b _ _ => [(.v, d.toNat), (.v, a.toNat), (.v, b.toNat)]
  | .vor d a b _ _ => [(.v, d.toNat), (.v, a.toNat), (.v, b.toNat)]
  | .vxor d a b _ _ => [(.v, d.toNat), (.v, a.toNat), (.v, b.toNat)]
  | .vshl d a b _ _ _ => [(.v, d.toNat), (.v, a.toNat), (.v, b.toNat)]
  | .vshr d a b _ _ _ => [(.v, d.toNat), (.v, a.toNat), (.v, b.toNat)]
  | .vshrArith d a b _ _ _ => [(.v, d.toNat), (.v, a.toNat), (.v, b.toNat)]
  | .vcvt d a _ _ _ _ => [(.v, d.toNat), (.v, a.toNat)]
  | .vbcast d a _ _ => [(.v, d.toNat), (.g, a.toNat)]
  | .vext d a b _ _ _ => [(.g, d.toNat), (.v, a.toNat), (.g, b.toNat)]
  | .vins d a b _ _ _ => [(.v, d.toNat), (.g, a.toNat), (.g, b.toNat)]
  | .vperm d a b _ _ _ => [(.v, d.toNat), (.v, a.toNat), (.v, b.toNat)]
  | .vred d a _ _ _ => [(.g, d.toNat), (.v, a.toNat)]
  | .vdot d a b _ _ _ => [(.g, d.toNat), (.v, a.toNat), (.v, b.toNat)]
  | .mand d a b _ _ => [(.q, d.toNat), (.q, a.toNat), (.q, b.toNat)]
  | .mor d a b _ _ => [(.q, d.toNat), (.q, a.toNat), (.q, b.toNat)]
  | .mxor d a b _ _ => [(.q, d.toNat), (.q, a.toNat), (.q, b.toNat)]
  | .mnot d a _ => [(.q, d.toNat), (.q, a.toNat)]
  | .mpop d a _ => [(.g, d.toNat), (.q, a.toNat)]
  | .mset d a _ mode => [(.q, d.toNat), (if mode = .first ∨ mode = .copy then .g else .q, a.toNat)]
  | .mma d a b _ _ => [(.k, d.toNat), (.k, a.toNat), (.k, b.toNat)]
  | .mmaz d a b _ _ => [(.k, d.toNat), (.k, a.toNat), (.k, b.toNat)]
  | .tld d a _ _ _ _ => [(.k, d.toNat), (.g, a.toNat)]
  | .tst d a _ _ _ _ => [(.k, d.toNat), (.g, a.toNat)]
  | .tzero d => [(.k, d.toNat)]
  | .tcvt d a => [(.k, d.toNat), (.k, a.toNat)]
  | .tadd d a b => [(.k, d.toNat), (.k, a.toNat), (.k, b.toNat)]
  | .tscale d a _ => [(.k, d.toNat), (.k, a.toNat)]
  | .ttrans d a => [(.k, d.toNat), (.k, a.toNat)]
  | .trowv d a _ => [(.v, d.toNat), (.k, a.toNat)]
  | .tvrow d a _ => [(.k, d.toNat), (.v, a.toNat)]
  | .trange d a b _ _ _ => [(.x, d.toNat), (.g, a.toNat), (.g, b.toNat)]
  | .tfact d a b _ _ => [(.k, d.toNat), (.k, a.toNat), (.q, b.toNat)]
  | .tsolve d a b _ _ _ => [(.k, d.toNat), (.k, a.toNat), (.k, b.toNat)]
  | .accz a _ => [(.g, a.toNat)]
  | .accwp d a b _ _ => [(.g, d.toNat), (.g, a.toNat), (.g, b.toNat)]
  | .accr d a _ => [(.g, d.toNat), (.g, a.toNat)]
  | .accrFp64 d a _ => [(.g, d.toNat), (.g, a.toNat)]
  | .accm a b _ _ => [(.g, a.toNat), (.g, b.toNat)]
  | .accw a b _ _ _ => [(.g, a.toNat), (.g, b.toNat)]
  | .ltag d a b _ _ => [(.g, d.toNat), (.g, a.toNat), (.g, b.toNat)]
  | .lget d a _ file => [(.g, d.toNat), (file, a.toNat)]
  | .lset d a _ file => [(file, d.toNat), (.g, a.toNat)]
  | .lprod d a b _ _ => [(.g, d.toNat), (.g, a.toNat), (.g, b.toNat)]
  | .lholds d a b _ _ => [(.g, d.toNat), (.g, a.toNat), (.g, b.toNat)]
  | .lenv d a b _ _ => [(.g, d.toNat), (.g, a.toNat), (.g, b.toNat)]
  | .lcnt d a _ => [(.g, d.toNat), (.g, a.toNat)]
  | .lsel d a b _ _ => [(.g, d.toNat), (.g, a.toNat), (.g, b.toNat)]
  | .nogood d a _ => [(.g, d.toNat), (.g, a.toNat)]
  | .lsync => []
  | .lcompact d a _ => [(.g, d.toNat), (.g, a.toNat)]
  | .claim d => [(.g, d.toNat)]
  | .claimw d => [(.g, d.toNat)]
  | .fulfil a _ _ => [(.g, a.toNat)]
  | .abandon => []
  | .cldrop d => [(.g, d.toNat)]
  | .cpgo d => [(.g, d.toNat)]
  | .cpmc d a _ => [(.g, d.toNat), (.g, a.toNat)]
  | .slotret a b _ _ => [(.g, a.toNat), (.g, b.toNat)]
  | .slotq d a _ => [(.g, d.toNat), (.g, a.toNat)]
  | .tbinit a b _ _ => [(.g, a.toNat), (.g, b.toNat)]
  | .tbexp a b _ _ => [(.g, a.toNat), (.g, b.toNat)]
  | .tbarr a _ _ => [(.g, a.toNat)]
  | .tbwait d a b _ _ => [(.g, d.toNat), (.g, a.toNat), (.g, b.toNat)]
  | .tbtime d a b _ _ => [(.g, d.toNat), (.g, a.toNat), (.g, b.toNat)]
  | .encpost d a b _ _ => [(.g, d.toNat), (.g, a.toNat), (.g, b.toNat)]
  | .gath d _ => [(.g, d.toNat)]
  | .nsignal a _ => [(.g, a.toNat)]
  | .strdone => []
  | .cancel d a _ _ => [(.g, d.toNat), (.g, a.toNat)]
  | .cntq d a _ _ => [(.g, d.toNat), (.g, a.toNat)]
  | .mfcr d cr => [(.g, d.toNat), (.k, cr.tile)]
  | .mtcr _ a => [(.g, a.toNat)]
  | .mtcrStatus a => [(.g, a.toNat)]
  | .mtcrSpace a => [(.g, a.toNat)]
  | .mtcrSlotinit a => [(.g, a.toNat)]
  | .mtcrTcfg n a => [(.k, n.toNat), (.g, a.toNat)]
  | .trap _ => []
  | .eret => []
  | .signal a _ => [(.g, a.toNat)]
  | .repart a _ => [(.g, a.toNat)]
  | .tlbinv a _ => [(.g, a.toNat)]
  | .hinval a _ => [(.g, a.toNat)]
  | .routeset a _ => [(.g, a.toNat)]
  | .routeinv _ _ => []
  | .cMov _ _ => []
  | .cAdd _ _ => []
  | .cSub _ _ => []
  | .cAnd _ _ => []
  | .cOr _ _ => []
  | .cXor _ _ => []
  | .cAddi _ _ => []
  | .cShli _ _ => []
  | .cLi _ _ => []
  | .cLd _ _ _ => []
  | .cSt _ _ _ => []
  | .cBz _ _ => []
  | .cBnz _ _ => []
  | .cJ _ => []
  | .cJr _ => []
  | .interruptTaken _ => []
  | .signalArrival _ => []
  | .loopBack _ => []
  | .labelProductAnswer _ => []
  | .divideComplete _ _ => []
  | .loadDataReturn _ _ => []
  | .deferredDataErrorFault _ => []
  | .vectorLongComplete _ _ => []
  | .matrixInstructionStart _ => []
  | .matrixInstructionComplete _ => []
  | .followOnOffer _ _ => []
  | .accumulatorComplete _ _ => []
  | .pageWalkComplete _ => []
  | .homeRequestArrival _ => []
  | .refusedRequestRetry _ => []
  | .serviceDelivery _ => []
  | .reservationRequestArrival _ => []
  | .reservationPassArrival _ => []
  | .holdLimitExpiry _ => []
  | .reservationHoldNotice _ => []
  | .wcbDrain _ _ => []
  | .l1WriteBack _ _ _ => []
  | .scrub _ _ => []
  | .automaticPersistencePoint _ => []
  | .imageComplete _ => []
  | .shadowLineCopy _ _ => []
  | .cellLoss _ => []
  | .stationLoss _ => []
  | .lossReport _ => []
  | .columnResume _ => []
  | .peerAccessTimeout _ => []
  | .requestAbandonTimeout _ _ => []
  | .alembicClaimArrival _ => []
  | .alembicFulfilArrival _ => []
  | .alembicAbandonArrival _ => []
  | .alembicCldropArrival _ => []
  | .claimReturn _ => []
  | .accordProductRequest _ => []
  | .intern _ => []
  | .entryRewrite _ => []
  | .nogoodAppend _ => []
  | .generationBroadcast _ _ => []
  | .nogoodAcknowledge _ _ => []
  | .copySlotAllocation _ => []
  | .slotReturnArrival _ => []
  | .copyLine _ _ => []
  | .barrierCredit _ => []
  | .barrierWaitReturn _ => []
  | .tbtimeLimitExpiry _ => []
  | .gatherIndexRead _ _ => []
  | .gatherRowMove _ _ => []
  | .encoderFrameStart _ => []
  | .encoderFrameReadDone _ => []
  | .encoderRecordWrite _ => []
  | .jobSubmission _ _ => []
  | .jclr _ _ => []
  | .jobStart _ => []
  | .phaseStart _ => []
  | .nodeReady _ _ _ => []
  | .nodeComplete _ _ _ => []
  | .nsignalArrival _ => []
  | .strandPlacement _ => []
  | .coResidentPlacement _ _ _ => []
  | .contractRelease _ => []
  | .budgetOverrun _ => []
  | .deadlineMiss _ => []
  | .dispatchStall _ _ _ => []
  | .preEmption _ => []
  | .restore _ => []
  | .deferredDelivery _ _ => []
  | .bubbleStarvation _ _ => []
  | .lostRequestTimeout _ _ => []
  | .loopFailure _ _ => []
  | .portDown _ => []
  | .peerArrivalCheck _ => []
  | .hostCxlMemAccess _ _ _ => []
  | .hostSnoop _ _ => []
  | .temperatureSample _ _ _ _ _ => []
  | .droopStretch _ => []
  | .droopStretchLong _ => []
  | .powerOn _ _ _ _ => []
  | .fileLoad _ _ => []
  | .imageReceipt _ _ => []
  | .adoptSpareCell _ => []
  | .repairBanks _ => []
  | .commissionSpareLoop _ _ => []
  | .substituteL2WayGroup _ => []
  | .releaseQuarantineEntry _ _ => []
  | .clearSensorMarking _ _ => []
  | .setPowerCap _ _ => []
  | .takeCheckpoint _ => []
  | .restoreCheckpoint _ => []
  | .powerColumn _ _ _ => []
  | .takeSliceOutOfService _ => []
  | .mailboxCompletion => []
  | .instructionCacheEviction _ _ => []
  | .handleCacheEviction _ _ => []
  | .storeArrivalAtHome _ => []
  | .barrierRequestArrival _ => []
  | .schedulerAnswer _ => []
  | .frameOffer _ => []
  | .supplyRecovery _ => []
  | .portUp _ => []
  | .msixVectorUnmask _ => []
  | .invalidMailboxCommand _ => []
  | .attestationRequest _ => []

/-- The lowest privilege level at which a control register may be written by the plain MTCR row (R27). -/
def WCr.level : WCr → Nat
  | .tvec | .tcause | .tpc | .tval | .htbase | .param | .shadowiv => 1
  | .part => 3
  | .view | .cpsrc | .cpdst | .cpshape | .cpstr0 | .cpstr1 | .cpbar | .cpfollow => 0

/-- The lowest privilege level at which a control register may be read (R27). -/
def Cr.level : Cr → Nat
  | .tvec | .tcause | .tpc | .tval => 1
  | .status | .space | .view | .lninfo | .ggr | .htbase | .param | .cpsrc | .cpdst | .cpshape | .cpstr0 | .cpstr1 | .cpbar | .cpfollow | .slotinit | .ctxid | .cellid | .part | .spadsize | .shadowiv | .tsc | .tcfg0 | .tcfg1 | .tcfg2 | .tcfg3 | .tcfg4 | .tcfg5 | .tcfg6 | .tcfg7 | .tcfg8 | .tcfg9 | .tcfg10 | .tcfg11 | .tcfg12 | .tcfg13 | .tcfg14 | .tcfg15 => 0

/-- The lowest privilege level that may issue an instruction (R81, R280). -/
def Instr.level : Instr → Nat
  | .add _ _ _ _ _ _ _ => 0
  | .sub _ _ _ _ _ _ _ => 0
  | .mul _ _ _ _ _ _ _ => 0
  | .mulh _ _ _ _ _ => 0
  | .mulhn _ _ _ _ _ => 0
  | .div _ _ _ _ _ _ => 0
  | .divn _ _ _ _ _ _ => 0
  | .rem _ _ _ _ _ _ => 0
  | .remn _ _ _ _ _ _ => 0
  | .and _ _ _ _ _ => 0
  | .or _ _ _ _ _ => 0
  | .xor _ _ _ _ _ => 0
  | .mov _ _ _ => 0
  | .shl _ _ _ _ _ => 0
  | .shr _ _ _ _ _ => 0
  | .sra _ _ _ _ _ => 0
  | .rotl _ _ _ _ _ => 0
  | .clz _ _ _ => 0
  | .ctz _ _ _ => 0
  | .popc _ _ _ => 0
  | .min _ _ _ _ _ => 0
  | .max _ _ _ _ _ => 0
  | .minn _ _ _ _ _ => 0
  | .maxn _ _ _ _ _ => 0
  | .sext _ _ _ _ => 0
  | .zext _ _ _ _ => 0
  | .bfx _ _ _ _ _ => 0
  | .bfi _ _ _ _ _ => 0
  | .sel _ _ _ _ _ => 0
  | .slt _ _ _ _ _ => 0
  | .sltn _ _ _ _ _ => 0
  | .seq _ _ _ _ _ => 0
  | .hash _ _ _ _ _ => 0
  | .addi _ _ _ _ => 0
  | .andi _ _ _ _ => 0
  | .ori _ _ _ _ => 0
  | .xori _ _ _ _ => 0
  | .slti _ _ _ _ => 0
  | .shli _ _ _ _ => 0
  | .shri _ _ _ _ => 0
  | .srai _ _ _ _ => 0
  | .rotli _ _ _ _ => 0
  | .li _ _ => 0
  | .lih _ _ => 0
  | .rmake _ _ _ _ _ => 0
  | .radd _ _ _ _ _ => 0
  | .rsetf _ _ _ _ _ => 0
  | .roff _ _ _ => 0
  | .ridx _ _ _ => 0
  | .raddi _ _ _ _ => 0
  | .j _ => 0
  | .jal _ => 0
  | .jr _ _ => 0
  | .jalr _ _ _ => 0
  | .beq _ _ _ _ _ => 0
  | .bne _ _ _ _ _ => 0
  | .blt _ _ _ _ _ => 0
  | .bge _ _ _ _ _ => 0
  | .bltn _ _ _ _ _ => 0
  | .bgen _ _ _ _ _ => 0
  | .bz _ _ _ => 0
  | .bnz _ _ _ => 0
  | .loop _ _ _ _ _ => 0
  | .loopw _ _ _ _ _ => 0
  | .loopl _ _ _ => 0
  | .nop => 0
  | .xset _ _ _ => 0
  | .xget _ _ => 0
  | .xld _ _ _ _ _ => 0
  | .xli _ _ => 0
  | .ld _ _ _ _ _ _ => 0
  | .st _ _ _ _ _ _ _ => 0
  | .lda _ _ _ _ _ _ => 0
  | .str _ _ _ _ _ _ _ => 0
  | .ldv _ _ _ _ _ _ => 0
  | .stv _ _ _ _ _ _ _ => 0
  | .vlds _ _ _ _ _ _ => 0
  | .vgath _ _ _ _ _ _ _ => 0
  | .vscat _ _ _ _ _ _ _ => 0
  | .ldp _ _ _ _ _ => 0
  | .pref _ _ _ _ _ => 0
  | .lds _ _ _ _ _ _ => 0
  | .take _ _ _ _ _ _ => 0
  | .put _ _ _ _ _ _ _ => 0
  | .putFullFault _ _ _ _ _ _ _ => 0
  | .feq _ _ _ _ _ => 0
  | .feset _ _ _ _ _ => 0
  | .lrw _ _ _ _ _ _ => 0
  | .sc _ _ _ _ _ _ _ => 0
  | .screl _ _ _ _ _ => 0
  | .fence _ _ => 0
  | .pfence _ => 0
  | .ppoint => 0
  | .dclean _ _ _ _ => 0
  | .dinval _ _ _ _ => 0
  | .icinvalLine _ _ _ => 0
  | .icinvalCell => 0
  | .fetchb => 0
  | .cpinPin _ _ _ _ => 0
  | .cpinUnpin _ _ _ _ => 0
  | .vadd _ _ _ _ _ _ => 0
  | .vsub _ _ _ _ _ _ => 0
  | .vmul _ _ _ _ _ _ => 0
  | .vdiv _ _ _ _ _ _ => 0
  | .vfma _ _ _ _ _ _ => 0
  | .vfms _ _ _ _ _ _ => 0
  | .vmin _ _ _ _ _ _ => 0
  | .vmax _ _ _ _ _ _ => 0
  | .vsqrt _ _ _ _ => 0
  | .vrcp _ _ _ _ => 0
  | .vrsq _ _ _ _ => 0
  | .vabs _ _ _ _ => 0
  | .vneg _ _ _ _ => 0
  | .vcmp _ _ _ _ _ _ _ => 0
  | .vsel _ _ _ _ _ _ => 0
  | .vand _ _ _ _ _ => 0
  | .vor _ _ _ _ _ => 0
  | .vxor _ _ _ _ _ => 0
  | .vshl _ _ _ _ _ _ => 0
  | .vshr _ _ _ _ _ _ => 0
  | .vshrArith _ _ _ _ _ _ => 0
  | .vcvt _ _ _ _ _ _ => 0
  | .vbcast _ _ _ _ => 0
  | .vext _ _ _ _ _ _ => 0
  | .vins _ _ _ _ _ _ => 0
  | .vperm _ _ _ _ _ _ => 0
  | .vred _ _ _ _ _ => 0
  | .vdot _ _ _ _ _ _ => 0
  | .mand _ _ _ _ _ => 0
  | .mor _ _ _ _ _ => 0
  | .mxor _ _ _ _ _ => 0
  | .mnot _ _ _ => 0
  | .mpop _ _ _ => 0
  | .mset _ _ _ _ => 0
  | .mma _ _ _ _ _ => 0
  | .mmaz _ _ _ _ _ => 0
  | .tld _ _ _ _ _ _ => 0
  | .tst _ _ _ _ _ _ => 0
  | .tzero _ => 0
  | .tcvt _ _ => 0
  | .tadd _ _ _ => 0
  | .tscale _ _ _ => 0
  | .ttrans _ _ => 0
  | .trowv _ _ _ => 0
  | .tvrow _ _ _ => 0
  | .trange _ _ _ _ _ _ => 0
  | .tfact _ _ _ _ _ => 0
  | .tsolve _ _ _ _ _ _ => 0
  | .accz _ _ => 0
  | .accwp _ _ _ _ _ => 0
  | .accr _ _ _ => 0
  | .accrFp64 _ _ _ => 0
  | .accm _ _ _ _ => 0
  | .accw _ _ _ _ _ => 0
  | .ltag _ _ _ _ _ => 0
  | .lget _ _ _ _ => 0
  | .lset _ _ _ _ => 0
  | .lprod _ _ _ _ _ => 0
  | .lholds _ _ _ _ _ => 0
  | .lenv _ _ _ _ _ => 0
  | .lcnt _ _ _ => 0
  | .lsel _ _ _ _ _ => 0
  | .nogood _ _ _ => 0
  | .lsync => 0
  | .lcompact _ _ _ => 1
  | .claim _ => 0
  | .claimw _ => 0
  | .fulfil _ _ _ => 0
  | .abandon => 0
  | .cldrop _ => 0
  | .cpgo _ => 0
  | .cpmc _ _ _ => 0
  | .slotret _ _ _ _ => 0
  | .slotq _ _ _ => 0
  | .tbinit _ _ _ _ => 0
  | .tbexp _ _ _ _ => 0
  | .tbarr _ _ _ => 0
  | .tbwait _ _ _ _ _ => 0
  | .tbtime _ _ _ _ _ => 0
  | .encpost _ _ _ _ _ => 0
  | .gath _ _ => 0
  | .nsignal _ _ => 0
  | .strdone => 0
  | .cancel _ _ _ _ => 0
  | .cntq _ _ _ _ => 0
  | .mfcr _ cr => cr.level
  | .mtcr cr _ => cr.level
  | .mtcrStatus _ => 0
  | .mtcrSpace _ => 0
  | .mtcrSlotinit _ => 0
  | .mtcrTcfg _ _ => 0
  | .trap _ => 0
  | .eret => 1
  | .signal _ _ => 0
  | .repart _ _ => 1
  | .tlbinv _ _ => 1
  | .hinval _ _ => 1
  | .routeset _ _ => 1
  | .routeinv _ _ => 1
  | .cMov _ _ => 0
  | .cAdd _ _ => 0
  | .cSub _ _ => 0
  | .cAnd _ _ => 0
  | .cOr _ _ => 0
  | .cXor _ _ => 0
  | .cAddi _ _ => 0
  | .cShli _ _ => 0
  | .cLi _ _ => 0
  | .cLd _ _ _ => 0
  | .cSt _ _ _ => 0
  | .cBz _ _ => 0
  | .cBnz _ _ => 0
  | .cJ _ => 0
  | .cJr _ => 0
  | .interruptTaken _ => 0
  | .signalArrival _ => 0
  | .loopBack _ => 0
  | .labelProductAnswer _ => 0
  | .divideComplete _ _ => 0
  | .loadDataReturn _ _ => 0
  | .deferredDataErrorFault _ => 0
  | .vectorLongComplete _ _ => 0
  | .matrixInstructionStart _ => 0
  | .matrixInstructionComplete _ => 0
  | .followOnOffer _ _ => 0
  | .accumulatorComplete _ _ => 0
  | .pageWalkComplete _ => 0
  | .homeRequestArrival _ => 0
  | .refusedRequestRetry _ => 0
  | .serviceDelivery _ => 0
  | .reservationRequestArrival _ => 0
  | .reservationPassArrival _ => 0
  | .holdLimitExpiry _ => 0
  | .reservationHoldNotice _ => 0
  | .wcbDrain _ _ => 0
  | .l1WriteBack _ _ _ => 0
  | .scrub _ _ => 0
  | .automaticPersistencePoint _ => 0
  | .imageComplete _ => 0
  | .shadowLineCopy _ _ => 0
  | .cellLoss _ => 0
  | .stationLoss _ => 0
  | .lossReport _ => 0
  | .columnResume _ => 0
  | .peerAccessTimeout _ => 0
  | .requestAbandonTimeout _ _ => 0
  | .alembicClaimArrival _ => 0
  | .alembicFulfilArrival _ => 0
  | .alembicAbandonArrival _ => 0
  | .alembicCldropArrival _ => 0
  | .claimReturn _ => 0
  | .accordProductRequest _ => 0
  | .intern _ => 0
  | .entryRewrite _ => 0
  | .nogoodAppend _ => 0
  | .generationBroadcast _ _ => 0
  | .nogoodAcknowledge _ _ => 0
  | .copySlotAllocation _ => 0
  | .slotReturnArrival _ => 0
  | .copyLine _ _ => 0
  | .barrierCredit _ => 0
  | .barrierWaitReturn _ => 0
  | .tbtimeLimitExpiry _ => 0
  | .gatherIndexRead _ _ => 0
  | .gatherRowMove _ _ => 0
  | .encoderFrameStart _ => 0
  | .encoderFrameReadDone _ => 0
  | .encoderRecordWrite _ => 0
  | .jobSubmission _ _ => 0
  | .jclr _ _ => 0
  | .jobStart _ => 0
  | .phaseStart _ => 0
  | .nodeReady _ _ _ => 0
  | .nodeComplete _ _ _ => 0
  | .nsignalArrival _ => 0
  | .strandPlacement _ => 0
  | .coResidentPlacement _ _ _ => 0
  | .contractRelease _ => 0
  | .budgetOverrun _ => 0
  | .deadlineMiss _ => 0
  | .dispatchStall _ _ _ => 0
  | .preEmption _ => 0
  | .restore _ => 0
  | .deferredDelivery _ _ => 0
  | .bubbleStarvation _ _ => 0
  | .lostRequestTimeout _ _ => 0
  | .loopFailure _ _ => 0
  | .portDown _ => 0
  | .peerArrivalCheck _ => 0
  | .hostCxlMemAccess _ _ _ => 0
  | .hostSnoop _ _ => 0
  | .temperatureSample _ _ _ _ _ => 0
  | .droopStretch _ => 0
  | .droopStretchLong _ => 0
  | .powerOn _ _ _ _ => 0
  | .fileLoad _ _ => 0
  | .imageReceipt _ _ => 0
  | .adoptSpareCell _ => 0
  | .repairBanks _ => 0
  | .commissionSpareLoop _ _ => 0
  | .substituteL2WayGroup _ => 0
  | .releaseQuarantineEntry _ _ => 0
  | .clearSensorMarking _ _ => 0
  | .setPowerCap _ _ => 0
  | .takeCheckpoint _ => 0
  | .restoreCheckpoint _ => 0
  | .powerColumn _ _ _ => 0
  | .takeSliceOutOfService _ => 0
  | .mailboxCompletion => 0
  | .instructionCacheEviction _ _ => 0
  | .handleCacheEviction _ _ => 0
  | .storeArrivalAtHome _ => 0
  | .barrierRequestArrival _ => 0
  | .schedulerAnswer _ => 0
  | .frameOffer _ => 0
  | .supplyRecovery _ => 0
  | .portUp _ => 0
  | .msixVectorUnmask _ => 0
  | .invalidMailboxCommand _ => 0
  | .attestationRequest _ => 0

end Sys2Proof
end

