-- ==== Sys2Proof/WellFormed.lean ====
section
/-! DEFINITION. Which terms of the syntax are instructions or events of the machine: a LOOP has a body (R77), and an
event names a context, cell, column, station, loop, port, encoder, slice, unit or vector that the device has (R1, R302, R337,
R353, R407, R436, R437, R454). -/

namespace Sys2Proof

/-- The check of well-formedness. -/
def Instr.wf : Instr → Bool
  | .add _ _ _ _ _ _ _ => true
  | .sub _ _ _ _ _ _ _ => true
  | .mul _ _ _ _ _ _ _ => true
  | .mulh _ _ _ _ _ => true
  | .mulhn _ _ _ _ _ => true
  | .div _ _ _ _ _ _ => true
  | .divn _ _ _ _ _ _ => true
  | .rem _ _ _ _ _ _ => true
  | .remn _ _ _ _ _ _ => true
  | .and _ _ _ _ _ => true
  | .or _ _ _ _ _ => true
  | .xor _ _ _ _ _ => true
  | .mov _ _ _ => true
  | .shl _ _ _ _ _ => true
  | .shr _ _ _ _ _ => true
  | .sra _ _ _ _ _ => true
  | .rotl _ _ _ _ _ => true
  | .clz _ _ _ => true
  | .ctz _ _ _ => true
  | .popc _ _ _ => true
  | .min _ _ _ _ _ => true
  | .max _ _ _ _ _ => true
  | .minn _ _ _ _ _ => true
  | .maxn _ _ _ _ _ => true
  | .sext _ _ _ _ => true
  | .zext _ _ _ _ => true
  | .bfx _ _ _ _ _ => true
  | .bfi _ _ _ _ _ => true
  | .sel _ _ _ _ _ => true
  | .slt _ _ _ _ _ => true
  | .sltn _ _ _ _ _ => true
  | .seq _ _ _ _ _ => true
  | .hash _ _ _ _ _ => true
  | .addi _ _ _ _ => true
  | .andi _ _ _ _ => true
  | .ori _ _ _ _ => true
  | .xori _ _ _ _ => true
  | .slti _ _ _ _ => true
  | .shli _ _ _ _ => true
  | .shri _ _ _ _ => true
  | .srai _ _ _ _ => true
  | .rotli _ _ _ _ => true
  | .li _ _ => true
  | .lih _ _ => true
  | .rmake _ _ _ _ _ => true
  | .radd _ _ _ _ _ => true
  | .rsetf _ _ _ _ _ => true
  | .roff _ _ _ => true
  | .ridx _ _ _ => true
  | .raddi _ _ _ _ => true
  | .j _ => true
  | .jal _ => true
  | .jr _ _ => true
  | .jalr _ _ _ => true
  | .beq _ _ _ _ _ => true
  | .bne _ _ _ _ _ => true
  | .blt _ _ _ _ _ => true
  | .bge _ _ _ _ _ => true
  | .bltn _ _ _ _ _ => true
  | .bgen _ _ _ _ _ => true
  | .bz _ _ _ => true
  | .bnz _ _ _ => true
  | .loop _ _ len _ _ => len != 0#8
  | .loopw _ _ len _ _ => len != 0#8
  | .loopl _ _ _ => true
  | .nop => true
  | .xset _ _ _ => true
  | .xget _ _ => true
  | .xld _ _ _ _ _ => true
  | .xli _ _ => true
  | .ld _ _ _ _ _ _ => true
  | .st _ _ _ _ _ _ _ => true
  | .lda _ _ _ _ _ _ => true
  | .str _ _ _ _ _ _ _ => true
  | .ldv _ _ _ _ _ _ => true
  | .stv _ _ _ _ _ _ _ => true
  | .vlds _ _ _ _ _ _ => true
  | .vgath _ _ _ _ _ _ _ => true
  | .vscat _ _ _ _ _ _ _ => true
  | .ldp _ _ _ _ _ => true
  | .pref _ _ _ _ _ => true
  | .lds _ _ _ _ _ _ => true
  | .take _ _ _ _ _ _ => true
  | .put _ _ _ _ _ _ _ => true
  | .putFullFault _ _ _ _ _ _ _ => true
  | .feq _ _ _ _ _ => true
  | .feset _ _ _ _ _ => true
  | .lrw _ _ _ _ _ _ => true
  | .sc _ _ _ _ _ _ _ => true
  | .screl _ _ _ _ _ => true
  | .fence _ _ => true
  | .pfence _ => true
  | .ppoint => true
  | .dclean _ _ _ _ => true
  | .dinval _ _ _ _ => true
  | .icinvalLine _ _ _ => true
  | .icinvalCell => true
  | .fetchb => true
  | .cpinPin _ _ _ _ => true
  | .cpinUnpin _ _ _ _ => true
  | .vadd _ _ _ _ _ _ => true
  | .vsub _ _ _ _ _ _ => true
  | .vmul _ _ _ _ _ _ => true
  | .vdiv _ _ _ _ _ _ => true
  | .vfma _ _ _ _ _ _ => true
  | .vfms _ _ _ _ _ _ => true
  | .vmin _ _ _ _ _ _ => true
  | .vmax _ _ _ _ _ _ => true
  | .vsqrt _ _ _ _ => true
  | .vrcp _ _ _ _ => true
  | .vrsq _ _ _ _ => true
  | .vabs _ _ _ _ => true
  | .vneg _ _ _ _ => true
  | .vcmp _ _ _ _ _ _ _ => true
  | .vsel _ _ _ _ _ _ => true
  | .vand _ _ _ _ _ => true
  | .vor _ _ _ _ _ => true
  | .vxor _ _ _ _ _ => true
  | .vshl _ _ _ _ _ _ => true
  | .vshr _ _ _ _ _ _ => true
  | .vshrArith _ _ _ _ _ _ => true
  | .vcvt _ _ _ _ _ _ => true
  | .vbcast _ _ _ _ => true
  | .vext _ _ _ _ _ _ => true
  | .vins _ _ _ _ _ _ => true
  | .vperm _ _ _ _ _ _ => true
  | .vred _ _ _ _ _ => true
  | .vdot _ _ _ _ _ _ => true
  | .mand _ _ _ _ _ => true
  | .mor _ _ _ _ _ => true
  | .mxor _ _ _ _ _ => true
  | .mnot _ _ _ => true
  | .mpop _ _ _ => true
  | .mset _ _ _ _ => true
  | .mma _ _ _ _ _ => true
  | .mmaz _ _ _ _ _ => true
  | .tld _ _ _ _ _ _ => true
  | .tst _ _ _ _ _ _ => true
  | .tzero _ => true
  | .tcvt _ _ => true
  | .tadd _ _ _ => true
  | .tscale _ _ _ => true
  | .ttrans _ _ => true
  | .trowv _ _ _ => true
  | .tvrow _ _ _ => true
  | .trange _ _ _ _ _ _ => true
  | .tfact _ _ _ _ _ => true
  | .tsolve _ _ _ _ _ _ => true
  | .accz _ _ => true
  | .accwp _ _ _ _ _ => true
  | .accr _ _ _ => true
  | .accrFp64 _ _ _ => true
  | .accm _ _ _ _ => true
  | .accw _ _ _ _ _ => true
  | .ltag _ _ _ _ _ => true
  | .lget _ _ _ _ => true
  | .lset _ _ _ _ => true
  | .lprod _ _ _ _ _ => true
  | .lholds _ _ _ _ _ => true
  | .lenv _ _ _ _ _ => true
  | .lcnt _ _ _ => true
  | .lsel _ _ _ _ _ => true
  | .nogood _ _ _ => true
  | .lsync => true
  | .lcompact _ _ _ => true
  | .claim _ => true
  | .claimw _ => true
  | .fulfil _ _ _ => true
  | .abandon => true
  | .cldrop _ => true
  | .cpgo _ => true
  | .cpmc _ _ _ => true
  | .slotret _ _ _ _ => true
  | .slotq _ _ _ => true
  | .tbinit _ _ _ _ => true
  | .tbexp _ _ _ _ => true
  | .tbarr _ _ _ => true
  | .tbwait _ _ _ _ _ => true
  | .tbtime _ _ _ _ _ => true
  | .encpost _ _ _ _ _ => true
  | .gath _ _ => true
  | .nsignal _ _ => true
  | .strdone => true
  | .cancel _ _ _ _ => true
  | .cntq _ _ _ _ => true
  | .mfcr _ _ => true
  | .mtcr _ _ => true
  | .mtcrStatus _ => true
  | .mtcrSpace _ => true
  | .mtcrSlotinit _ => true
  | .mtcrTcfg _ _ => true
  | .trap _ => true
  | .eret => true
  | .signal _ _ => true
  | .repart _ _ => true
  | .tlbinv _ _ => true
  | .hinval _ _ => true
  | .routeset _ _ => true
  | .routeinv _ _ => true
  | .cMov _ _ => true
  | .cAdd _ _ => true
  | .cSub _ _ => true
  | .cAnd _ _ => true
  | .cOr _ _ => true
  | .cXor _ _ => true
  | .cAddi _ _ => true
  | .cShli _ _ => true
  | .cLi _ _ => true
  | .cLd _ _ _ => true
  | .cSt _ _ _ => true
  | .cBz _ _ => true
  | .cBnz _ _ => true
  | .cJ _ => true
  | .cJr _ => true
  | .interruptTaken c => decide (c < 16384)
  | .signalArrival _ => true
  | .loopBack c => decide (c < 16384)
  | .labelProductAnswer _ => true
  | .divideComplete c _ => decide (c < 16384)
  | .loadDataReturn c _ => decide (c < 16384)
  | .deferredDataErrorFault c => decide (c < 16384)
  | .vectorLongComplete c _ => decide (c < 16384)
  | .matrixInstructionStart cell => decide (cell < 1024)
  | .matrixInstructionComplete cell => decide (cell < 1024)
  | .followOnOffer cell _ => decide (cell < 1024)
  | .accumulatorComplete c _ => decide (c < 16384)
  | .pageWalkComplete _ => true
  | .homeRequestArrival _ => true
  | .refusedRequestRetry _ => true
  | .serviceDelivery _ => true
  | .reservationRequestArrival _ => true
  | .reservationPassArrival _ => true
  | .holdLimitExpiry _ => true
  | .reservationHoldNotice _ => true
  | .wcbDrain c _ => decide (c < 16384)
  | .l1WriteBack cell _ _ => decide (cell < 1024)
  | .scrub stack _ => decide (stack < 8)
  | .automaticPersistencePoint c => decide (c < 16384)
  | .imageComplete c => decide (c < 16384)
  | .shadowLineCopy cell _ => decide (cell < 1024)
  | .cellLoss col => decide (col < 64)
  | .stationLoss col => decide (col < 64)
  | .lossReport col => decide (col < 64)
  | .columnResume col => decide (col < 64)
  | .peerAccessTimeout c => decide (c < 16384)
  | .requestAbandonTimeout cell col => decide (cell < 1024) && decide (col < 64)
  | .alembicClaimArrival _ => true
  | .alembicFulfilArrival _ => true
  | .alembicAbandonArrival _ => true
  | .alembicCldropArrival _ => true
  | .claimReturn _ => true
  | .accordProductRequest _ => true
  | .intern _ => true
  | .entryRewrite _ => true
  | .nogoodAppend _ => true
  | .generationBroadcast _ unit => decide (unit < 64)
  | .nogoodAcknowledge _ unit => decide (unit < 64)
  | .copySlotAllocation cell => decide (cell < 1024)
  | .slotReturnArrival _ => true
  | .copyLine cell slot => decide (cell < 1024) && decide (slot < 64)
  | .barrierCredit _ => true
  | .barrierWaitReturn _ => true
  | .tbtimeLimitExpiry _ => true
  | .gatherIndexRead col _ => decide (col < 64)
  | .gatherRowMove col _ => decide (col < 64)
  | .encoderFrameStart enc => decide (enc < 32)
  | .encoderFrameReadDone enc => decide (enc < 32)
  | .encoderRecordWrite enc => decide (enc < 32)
  | .jobSubmission _ _ => true
  | .jclr _ _ => true
  | .jobStart _ => true
  | .phaseStart _ => true
  | .nodeReady _ _ _ => true
  | .nodeComplete _ _ _ => true
  | .nsignalArrival _ => true
  | .strandPlacement c => decide (c < 16384)
  | .coResidentPlacement _ _ _ => true
  | .contractRelease _ => true
  | .budgetOverrun c => decide (c < 16384)
  | .deadlineMiss _ => true
  | .dispatchStall _ _ _ => true
  | .preEmption c => decide (c < 16384)
  | .restore c => decide (c < 16384)
  | .deferredDelivery c _ => decide (c < 16384)
  | .bubbleStarvation station lp => decide (station < 76) && decide (lp < 24)
  | .lostRequestTimeout c _ => decide (c < 16384)
  | .loopFailure isStation n => decide (n < if isStation then 76 else 24)
  | .portDown port => decide (port < 8)
  | .peerArrivalCheck _ => true
  | .hostCxlMemAccess _ _ _ => true
  | .hostSnoop _ _ => true
  | .temperatureSample col _ _ _ _ => decide (col < 64)
  | .droopStretch col => decide (col < 64)
  | .droopStretchLong col => decide (col < 64)
  | .powerOn _ _ _ _ => true
  | .fileLoad _ _ => true
  | .imageReceipt cell _ => decide (cell < 1024)
  | .adoptSpareCell cell => decide (cell < 1024)
  | .repairBanks cell => decide (cell < 1024)
  | .commissionSpareLoop spare failed => decide (spare < 24) && decide (failed < 24)
  | .substituteL2WayGroup slice => decide (slice < 128)
  | .releaseQuarantineEntry slice _ => decide (slice < 128)
  | .clearSensorMarking col sensor => decide (col < 64) && decide (sensor < 3)
  | .setPowerCap col _ => decide (col < 64 ∨ col = 255)
  | .takeCheckpoint _ => true
  | .restoreCheckpoint _ => true
  | .powerColumn col _ _ => decide (col < 64)
  | .takeSliceOutOfService slice => decide (slice < 128)
  | .mailboxCompletion => true
  | .instructionCacheEviction cell _ => decide (cell < 1024)
  | .handleCacheEviction cell _ => decide (cell < 1024)
  | .storeArrivalAtHome _ => true
  | .barrierRequestArrival _ => true
  | .schedulerAnswer _ => true
  | .frameOffer _ => true
  | .supplyRecovery col => decide (col < 64)
  | .portUp port => decide (port < 8)
  | .msixVectorUnmask v => decide (v < 1040)
  | .invalidMailboxCommand op => decide (op.toNat = 0 ∨ 0x0B < op.toNat)
  | .attestationRequest _ => true

end Sys2Proof
end

