-- ==== Sys2Proof/Decode.lean ====
section
/-! DEFINITION. From parcels to instructions and back (chapter 3). An instruction is the number `w` its parcels make, the
first parcel in bits 15 to 0 (R71); `decode` is total and refuses by name every encoding that R83 sends to the illegal
instruction fault, and `encode` is written from the same encoding tables. -/

namespace Sys2Proof

/-- Why an encoding is no instruction (R83): each is the illegal instruction fault. -/
inductive Reject where
  /-- A major the map reserves (R81). -/
  | reservedMajor
  /-- Compact opcode 0, or a nonzero fixed bit of a compact layout (R78, R79). -/
  | compactIllegal
  /-- An fn value or selector the map does not list, or a nonzero bit in a field fixed at zero (R75, R81). -/
  | notAssigned
  /-- SZ 7 (R80). -/
  | reservedSize
  /-- Scope 6 or 7, or PFENCE scope 3 (R38, R80). -/
  | reservedScope
  /-- CT 14 or 15 (R80). -/
  | reservedType
  /-- Condition 7 of VCMP (R201). -/
  | reservedCondition
  /-- FENCE kind 0 (R184). -/
  | reservedFence
  /-- LOOP len 0 (R77). -/
  | emptyLoop
  /-- A control register number that is unassigned, or one written that no level may write (R28). -/
  | unassignedRegister
deriving DecidableEq, Repr

/-- The number that encodes a Width. -/
def Width.code : Width → Nat
  | .w64 => 0
  | .w32 => 1
  | .w16 => 2
  | .w8 => 3

/-- The Width a number encodes, or the reason it encodes none. -/
def Width.ofCode : Nat → Except Reject Width
  | 0 => .ok .w64
  | 1 => .ok .w32
  | 2 => .ok .w16
  | 3 => .ok .w8
  | _ => .error .notAssigned

/-- The number that encodes a IntKind. -/
def IntKind.code : IntKind → Nat
  | .wrapI => 0
  | .wrapN => 1
  | .satI => 2
  | .satN => 3

/-- The IntKind a number encodes, or the reason it encodes none. -/
def IntKind.ofCode : Nat → Except Reject IntKind
  | 0 => .ok .wrapI
  | 1 => .ok .wrapN
  | 2 => .ok .satI
  | 3 => .ok .satN
  | _ => .error .notAssigned

/-- The number that encodes a MemSize. -/
def MemSize.code : MemSize → Nat
  | .n8 => 0
  | .n16 => 1
  | .n32 => 2
  | .word => 3
  | .i8 => 4
  | .i16 => 5
  | .i32 => 6

/-- The MemSize a number encodes, or the reason it encodes none. -/
def MemSize.ofCode : Nat → Except Reject MemSize
  | 0 => .ok .n8
  | 1 => .ok .n16
  | 2 => .ok .n32
  | 3 => .ok .word
  | 4 => .ok .i8
  | 5 => .ok .i16
  | 6 => .ok .i32
  | _ => .error .reservedSize

/-- The number that encodes a StSize. -/
def StSize.code : StSize → Nat
  | .n8 => 0
  | .n16 => 1
  | .n32 => 2
  | .word => 3

/-- The StSize a number encodes, or the reason it encodes none. -/
def StSize.ofCode : Nat → Except Reject StSize
  | 0 => .ok .n8
  | 1 => .ok .n16
  | 2 => .ok .n32
  | 3 => .ok .word
  | _ => .error .reservedSize

/-- The number that encodes a Scope. -/
def Scope.code : Scope → Nat
  | .context => 0
  | .cell => 1
  | .column => 2
  | .tower => 3
  | .device => 4
  | .system => 5

/-- The Scope a number encodes, or the reason it encodes none. -/
def Scope.ofCode : Nat → Except Reject Scope
  | 0 => .ok .context
  | 1 => .ok .cell
  | 2 => .ok .column
  | 3 => .ok .tower
  | 4 => .ok .device
  | 5 => .ok .system
  | _ => .error .reservedScope

/-- The number that encodes a VT. -/
def VT.code : VT → Nat
  | .fp64 => 0
  | .fp32 => 1
  | .fp16 => 2
  | .bf16 => 3
  | .i64 => 4
  | .i32 => 5
  | .i16 => 6
  | .i8 => 7

/-- The VT a number encodes, or the reason it encodes none. -/
def VT.ofCode : Nat → Except Reject VT
  | 0 => .ok .fp64
  | 1 => .ok .fp32
  | 2 => .ok .fp16
  | 3 => .ok .bf16
  | 4 => .ok .i64
  | 5 => .ok .i32
  | 6 => .ok .i16
  | 7 => .ok .i8
  | _ => .error .notAssigned

/-- The number that encodes a FT. -/
def FT.code : FT → Nat
  | .fp64 => 0
  | .fp32 => 1
  | .fp16 => 2
  | .bf16 => 3

/-- The FT a number encodes, or the reason it encodes none. -/
def FT.ofCode : Nat → Except Reject FT
  | 0 => .ok .fp64
  | 1 => .ok .fp32
  | 2 => .ok .fp16
  | 3 => .ok .bf16
  | _ => .error .notAssigned

/-- The number that encodes a CT. -/
def CT.code : CT → Nat
  | .fp64 => 0
  | .fp32 => 1
  | .fp16 => 2
  | .bf16 => 3
  | .i64 => 4
  | .i32 => 5
  | .i16 => 6
  | .i8 => 7
  | .n64 => 8
  | .n32 => 9
  | .n16 => 10
  | .n8 => 11
  | .e4m3 => 12
  | .e5m2 => 13

/-- The CT a number encodes, or the reason it encodes none. -/
def CT.ofCode : Nat → Except Reject CT
  | 0 => .ok .fp64
  | 1 => .ok .fp32
  | 2 => .ok .fp16
  | 3 => .ok .bf16
  | 4 => .ok .i64
  | 5 => .ok .i32
  | 6 => .ok .i16
  | 7 => .ok .i8
  | 8 => .ok .n64
  | 9 => .ok .n32
  | 10 => .ok .n16
  | 11 => .ok .n8
  | 12 => .ok .e4m3
  | 13 => .ok .e5m2
  | _ => .error .reservedType

/-- The number that encodes a RMode. -/
def RMode.code : RMode → Nat
  | .nearest => 0
  | .zero => 1
  | .up => 2
  | .down => 3

/-- The RMode a number encodes, or the reason it encodes none. -/
def RMode.ofCode : Nat → Except Reject RMode
  | 0 => .ok .nearest
  | 1 => .ok .zero
  | 2 => .ok .up
  | 3 => .ok .down
  | _ => .error .notAssigned

/-- The number that encodes a Cond. -/
def Cond.code : Cond → Nat
  | .eq => 0
  | .ne => 1
  | .lt => 2
  | .le => 3
  | .ltn => 4
  | .len => 5
  | .un => 6

/-- The Cond a number encodes, or the reason it encodes none. -/
def Cond.ofCode : Nat → Except Reject Cond
  | 0 => .ok .eq
  | 1 => .ok .ne
  | 2 => .ok .lt
  | 3 => .ok .le
  | 4 => .ok .ltn
  | 5 => .ok .len
  | 6 => .ok .un
  | _ => .error .reservedCondition

/-- The number that encodes a RedOp. -/
def RedOp.code : RedOp → Nat
  | .sum => 0
  | .min => 1
  | .max => 2

/-- The RedOp a number encodes, or the reason it encodes none. -/
def RedOp.ofCode : Nat → Except Reject RedOp
  | 0 => .ok .sum
  | 1 => .ok .min
  | 2 => .ok .max
  | _ => .error .notAssigned

/-- The number that encodes a RFile. -/
def RFile.code : RFile → Nat
  | .g => 0
  | .v => 1
  | .k => 2
  | .q => 3
  | .x => 4

/-- The RFile a number encodes, or the reason it encodes none. -/
def RFile.ofCode : Nat → Except Reject RFile
  | 0 => .ok .g
  | 1 => .ok .v
  | 2 => .ok .k
  | 3 => .ok .q
  | 4 => .ok .x
  | _ => .error .notAssigned

/-- The number that encodes a Hint. -/
def Hint.code : Hint → Nat
  | .dflt => 0
  | .short => 1
  | .long => 2
  | .bypass => 3

/-- The Hint a number encodes, or the reason it encodes none. -/
def Hint.ofCode : Nat → Except Reject Hint
  | 0 => .ok .dflt
  | 1 => .ok .short
  | 2 => .ok .long
  | 3 => .ok .bypass
  | _ => .error .notAssigned

/-- The number that encodes a FenceKind. -/
def FenceKind.code : FenceKind → Nat
  | .acq => 1
  | .rel => 2
  | .full => 3

/-- The FenceKind a number encodes, or the reason it encodes none. -/
def FenceKind.ofCode : Nat → Except Reject FenceKind
  | 1 => .ok .acq
  | 2 => .ok .rel
  | 3 => .ok .full
  | _ => .error .reservedFence

/-- The number that encodes a PScope. -/
def PScope.code : PScope → Nat
  | .context => 0
  | .cell => 1
  | .column => 2

/-- The PScope a number encodes, or the reason it encodes none. -/
def PScope.ofCode : Nat → Except Reject PScope
  | 0 => .ok .context
  | 1 => .ok .cell
  | 2 => .ok .column
  | _ => .error .reservedScope

/-- The number that encodes a Lvl. -/
def Lvl.code : Lvl → Nat
  | .strand => 0
  | .launch => 1
  | .graph => 2
  | .phase => 3
  | .job => 4

/-- The Lvl a number encodes, or the reason it encodes none. -/
def Lvl.ofCode : Nat → Except Reject Lvl
  | 0 => .ok .strand
  | 1 => .ok .launch
  | 2 => .ok .graph
  | 3 => .ok .phase
  | 4 => .ok .job
  | _ => .error .notAssigned

/-- The number that encodes a AccIn. -/
def AccIn.code : AccIn → Nat
  | .fp32 => 0
  | .fp16 => 1
  | .bf16 => 2
  | .e4m3 => 3
  | .e5m2 => 4
  | .i8 => 5
  | .i16 => 6
  | .i32 => 7
  | .i64 => 8
  | .n8 => 9
  | .n16 => 10
  | .n32 => 11
  | .n64 => 12

/-- The AccIn a number encodes, or the reason it encodes none. -/
def AccIn.ofCode : Nat → Except Reject AccIn
  | 0 => .ok .fp32
  | 1 => .ok .fp16
  | 2 => .ok .bf16
  | 3 => .ok .e4m3
  | 4 => .ok .e5m2
  | 5 => .ok .i8
  | 6 => .ok .i16
  | 7 => .ok .i32
  | 8 => .ok .i64
  | 9 => .ok .n8
  | 10 => .ok .n16
  | 11 => .ok .n32
  | 12 => .ok .n64
  | _ => .error .notAssigned

/-- The number that encodes a Dim. -/
def Dim.code : Dim → Nat
  | .rows => 0
  | .columns => 1
  | .depth => 2

/-- The Dim a number encodes, or the reason it encodes none. -/
def Dim.ofCode : Nat → Except Reject Dim
  | 0 => .ok .rows
  | 1 => .ok .columns
  | 2 => .ok .depth
  | _ => .error .notAssigned

/-- The number that encodes a TlbArea. -/
def TlbArea.code : TlbArea → Nat
  | .pageCell => 0
  | .pagePart => 1
  | .allPart => 2

/-- The TlbArea a number encodes, or the reason it encodes none. -/
def TlbArea.ofCode : Nat → Except Reject TlbArea
  | 0 => .ok .pageCell
  | 1 => .ok .pagePart
  | 2 => .ok .allPart
  | _ => .error .notAssigned

/-- The number that encodes a CtxMode. -/
def CtxMode.code : CtxMode → Nat
  | .m16 => 16
  | .m8 => 8
  | .m4 => 4

/-- The CtxMode a number encodes, or the reason it encodes none. -/
def CtxMode.ofCode : Nat → Except Reject CtxMode
  | 16 => .ok .m16
  | 8 => .ok .m8
  | 4 => .ok .m4
  | _ => .error .notAssigned

/-- The number that encodes a MsetMode. -/
def MsetMode.code : MsetMode → Nat
  | .spread1 => 0
  | .spread2 => 1
  | .spread4 => 2
  | .spread8 => 3
  | .first => 16
  | .copy => 32

/-- The MsetMode a number encodes, or the reason it encodes none. -/
def MsetMode.ofCode : Nat → Except Reject MsetMode
  | 0 => .ok .spread1
  | 1 => .ok .spread2
  | 2 => .ok .spread4
  | 3 => .ok .spread8
  | 16 => .ok .first
  | 32 => .ok .copy
  | _ => .error .notAssigned

/-- The number that encodes a Cr. -/
def Cr.code : Cr → Nat
  | .status => 0
  | .tvec => 1
  | .tcause => 2
  | .tpc => 3
  | .tval => 4
  | .space => 8
  | .view => 9
  | .lninfo => 16
  | .ggr => 17
  | .htbase => 18
  | .param => 19
  | .cpsrc => 32
  | .cpdst => 33
  | .cpshape => 34
  | .cpstr0 => 35
  | .cpstr1 => 36
  | .cpbar => 37
  | .cpfollow => 38
  | .slotinit => 48
  | .ctxid => 64
  | .cellid => 65
  | .part => 66
  | .spadsize => 67
  | .shadowiv => 68
  | .tsc => 80
  | .tcfg0 => 256
  | .tcfg1 => 257
  | .tcfg2 => 258
  | .tcfg3 => 259
  | .tcfg4 => 260
  | .tcfg5 => 261
  | .tcfg6 => 262
  | .tcfg7 => 263
  | .tcfg8 => 264
  | .tcfg9 => 265
  | .tcfg10 => 266
  | .tcfg11 => 267
  | .tcfg12 => 268
  | .tcfg13 => 269
  | .tcfg14 => 270
  | .tcfg15 => 271

/-- The Cr a number encodes, or the reason it encodes none. -/
def Cr.ofCode : Nat → Except Reject Cr
  | 0 => .ok .status
  | 1 => .ok .tvec
  | 2 => .ok .tcause
  | 3 => .ok .tpc
  | 4 => .ok .tval
  | 8 => .ok .space
  | 9 => .ok .view
  | 16 => .ok .lninfo
  | 17 => .ok .ggr
  | 18 => .ok .htbase
  | 19 => .ok .param
  | 32 => .ok .cpsrc
  | 33 => .ok .cpdst
  | 34 => .ok .cpshape
  | 35 => .ok .cpstr0
  | 36 => .ok .cpstr1
  | 37 => .ok .cpbar
  | 38 => .ok .cpfollow
  | 48 => .ok .slotinit
  | 64 => .ok .ctxid
  | 65 => .ok .cellid
  | 66 => .ok .part
  | 67 => .ok .spadsize
  | 68 => .ok .shadowiv
  | 80 => .ok .tsc
  | 256 => .ok .tcfg0
  | 257 => .ok .tcfg1
  | 258 => .ok .tcfg2
  | 259 => .ok .tcfg3
  | 260 => .ok .tcfg4
  | 261 => .ok .tcfg5
  | 262 => .ok .tcfg6
  | 263 => .ok .tcfg7
  | 264 => .ok .tcfg8
  | 265 => .ok .tcfg9
  | 266 => .ok .tcfg10
  | 267 => .ok .tcfg11
  | 268 => .ok .tcfg12
  | 269 => .ok .tcfg13
  | 270 => .ok .tcfg14
  | 271 => .ok .tcfg15
  | _ => .error .unassignedRegister

/-- The number that encodes a WCr. -/
def WCr.code : WCr → Nat
  | .tvec => 1
  | .tcause => 2
  | .tpc => 3
  | .tval => 4
  | .view => 9
  | .htbase => 18
  | .param => 19
  | .cpsrc => 32
  | .cpdst => 33
  | .cpshape => 34
  | .cpstr0 => 35
  | .cpstr1 => 36
  | .cpbar => 37
  | .cpfollow => 38
  | .part => 66
  | .shadowiv => 68

/-- The WCr a number encodes, or the reason it encodes none. -/
def WCr.ofCode : Nat → Except Reject WCr
  | 1 => .ok .tvec
  | 2 => .ok .tcause
  | 3 => .ok .tpc
  | 4 => .ok .tval
  | 9 => .ok .view
  | 18 => .ok .htbase
  | 19 => .ok .param
  | 32 => .ok .cpsrc
  | 33 => .ok .cpdst
  | 34 => .ok .cpshape
  | 35 => .ok .cpstr0
  | 36 => .ok .cpstr1
  | 37 => .ok .cpbar
  | 38 => .ok .cpfollow
  | 66 => .ok .part
  | 68 => .ok .shadowiv
  | _ => .error .unassignedRegister

/-- The bits [lo + n - 1 : lo] of a number. -/
def bitsAt (w lo n : Nat) : Nat := w / 2 ^ lo % 2 ^ n

/-- One bit of a number. -/
def bitAt (w lo : Nat) : Bool := w / 2 ^ lo % 2 == 1

/-- Goes on where a check holds, and refuses where it does not. -/
def need (p : Bool) (r : Reject) (k : Except Reject Instr) : Except Reject Instr := if p then k else .error r

/-- The number that the parcels of an instruction make (R71, R74, R78); events have no encoding. -/
def encode : Instr → Option Nat
  | .add d a b wa wb wid k => some (3 + 256 * d.toNat + 16384 * a.toNat + 1048576 * b.toNat + 67108864 * wa.toNat + 134217728 * wb.toNat + 268435456 * wid.code + 1073741824 * k.code)
  | .sub d a b wa wb wid k => some (5 + 256 * d.toNat + 16384 * a.toNat + 1048576 * b.toNat + 67108864 * wa.toNat + 134217728 * wb.toNat + 268435456 * wid.code + 1073741824 * k.code)
  | .mul d a b wa wb wid k => some (7 + 256 * d.toNat + 16384 * a.toNat + 1048576 * b.toNat + 67108864 * wa.toNat + 134217728 * wb.toNat + 268435456 * wid.code + 1073741824 * k.code)
  | .mulh d a b wa wb => some (9 + 256 * d.toNat + 16384 * a.toNat + 1048576 * b.toNat + 67108864 * wa.toNat + 134217728 * wb.toNat)
  | .mulhn d a b wa wb => some (268435465 + 256 * d.toNat + 16384 * a.toNat + 1048576 * b.toNat + 67108864 * wa.toNat + 134217728 * wb.toNat)
  | .div d a b wa wb wid => some (11 + 256 * d.toNat + 16384 * a.toNat + 1048576 * b.toNat + 67108864 * wa.toNat + 134217728 * wb.toNat + 268435456 * wid.code)
  | .divn d a b wa wb wid => some (1073741835 + 256 * d.toNat + 16384 * a.toNat + 1048576 * b.toNat + 67108864 * wa.toNat + 134217728 * wb.toNat + 268435456 * wid.code)
  | .rem d a b wa wb wid => some (2147483659 + 256 * d.toNat + 16384 * a.toNat + 1048576 * b.toNat + 67108864 * wa.toNat + 134217728 * wb.toNat + 268435456 * wid.code)
  | .remn d a b wa wb wid => some (3221225483 + 256 * d.toNat + 16384 * a.toNat + 1048576 * b.toNat + 67108864 * wa.toNat + 134217728 * wb.toNat + 268435456 * wid.code)
  | .and d a b wa wb => some (13 + 256 * d.toNat + 16384 * a.toNat + 1048576 * b.toNat + 67108864 * wa.toNat + 134217728 * wb.toNat)
  | .or d a b wa wb => some (268435469 + 256 * d.toNat + 16384 * a.toNat + 1048576 * b.toNat + 67108864 * wa.toNat + 134217728 * wb.toNat)
  | .xor d a b wa wb => some (536870925 + 256 * d.toNat + 16384 * a.toNat + 1048576 * b.toNat + 67108864 * wa.toNat + 134217728 * wb.toNat)
  | .mov d a wa => some (805306381 + 256 * d.toNat + 16384 * a.toNat + 67108864 * wa.toNat)
  | .shl d a b wa wb => some (15 + 256 * d.toNat + 16384 * a.toNat + 1048576 * b.toNat + 67108864 * wa.toNat + 134217728 * wb.toNat)
  | .shr d a b wa wb => some (268435471 + 256 * d.toNat + 16384 * a.toNat + 1048576 * b.toNat + 67108864 * wa.toNat + 134217728 * wb.toNat)
  | .sra d a b wa wb => some (536870927 + 256 * d.toNat + 16384 * a.toNat + 1048576 * b.toNat + 67108864 * wa.toNat + 134217728 * wb.toNat)
  | .rotl d a b wa wb => some (805306383 + 256 * d.toNat + 16384 * a.toNat + 1048576 * b.toNat + 67108864 * wa.toNat + 134217728 * wb.toNat)
  | .clz d a wa => some (17 + 256 * d.toNat + 16384 * a.toNat + 67108864 * wa.toNat)
  | .ctz d a wa => some (268435473 + 256 * d.toNat + 16384 * a.toNat + 67108864 * wa.toNat)
  | .popc d a wa => some (536870929 + 256 * d.toNat + 16384 * a.toNat + 67108864 * wa.toNat)
  | .min d a b wa wb => some (19 + 256 * d.toNat + 16384 * a.toNat + 1048576 * b.toNat + 67108864 * wa.toNat + 134217728 * wb.toNat)
  | .max d a b wa wb => some (268435475 + 256 * d.toNat + 16384 * a.toNat + 1048576 * b.toNat + 67108864 * wa.toNat + 134217728 * wb.toNat)
  | .minn d a b wa wb => some (536870931 + 256 * d.toNat + 16384 * a.toNat + 1048576 * b.toNat + 67108864 * wa.toNat + 134217728 * wb.toNat)
  | .maxn d a b wa wb => some (805306387 + 256 * d.toNat + 16384 * a.toNat + 1048576 * b.toNat + 67108864 * wa.toNat + 134217728 * wb.toNat)
  | .sext d a wa n => some (21 + 256 * d.toNat + 16384 * a.toNat + 67108864 * wa.toNat + 1048576 * n.toNat)
  | .zext d a wa n => some (268435477 + 256 * d.toNat + 16384 * a.toNat + 67108864 * wa.toNat + 1048576 * n.toNat)
  | .bfx d a b wa wb => some (536870933 + 256 * d.toNat + 16384 * a.toNat + 1048576 * b.toNat + 67108864 * wa.toNat + 134217728 * wb.toNat)
  | .bfi d a b wa wb => some (805306389 + 256 * d.toNat + 16384 * a.toNat + 1048576 * b.toNat + 67108864 * wa.toNat + 134217728 * wb.toNat)
  | .sel d a b wa wb => some (23 + 256 * d.toNat + 16384 * a.toNat + 1048576 * b.toNat + 67108864 * wa.toNat + 134217728 * wb.toNat)
  | .slt d a b wa wb => some (25 + 256 * d.toNat + 16384 * a.toNat + 1048576 * b.toNat + 67108864 * wa.toNat + 134217728 * wb.toNat)
  | .sltn d a b wa wb => some (268435481 + 256 * d.toNat + 16384 * a.toNat + 1048576 * b.toNat + 67108864 * wa.toNat + 134217728 * wb.toNat)
  | .seq d a b wa wb => some (536870937 + 256 * d.toNat + 16384 * a.toNat + 1048576 * b.toNat + 67108864 * wa.toNat + 134217728 * wb.toNat)
  | .hash d a b wa wb => some (27 + 256 * d.toNat + 16384 * a.toNat + 1048576 * b.toNat + 67108864 * wa.toNat + 134217728 * wb.toNat)
  | .addi d a wa imm => some (33 + 256 * d.toNat + 16384 * a.toNat + 1048576 * wa.toNat + 2097152 * imm.toNat)
  | .andi d a wa imm => some (35 + 256 * d.toNat + 16384 * a.toNat + 1048576 * wa.toNat + 2097152 * imm.toNat)
  | .ori d a wa imm => some (37 + 256 * d.toNat + 16384 * a.toNat + 1048576 * wa.toNat + 2097152 * imm.toNat)
  | .xori d a wa imm => some (39 + 256 * d.toNat + 16384 * a.toNat + 1048576 * wa.toNat + 2097152 * imm.toNat)
  | .slti d a wa imm => some (41 + 256 * d.toNat + 16384 * a.toNat + 1048576 * wa.toNat + 2097152 * imm.toNat)
  | .shli d a wa s => some (43 + 256 * d.toNat + 16384 * a.toNat + 1048576 * wa.toNat + 2097152 * s.toNat)
  | .shri d a wa s => some (45 + 256 * d.toNat + 16384 * a.toNat + 1048576 * wa.toNat + 2097152 * s.toNat)
  | .srai d a wa s => some (47 + 256 * d.toNat + 16384 * a.toNat + 1048576 * wa.toNat + 2097152 * s.toNat)
  | .rotli d a wa s => some (49 + 256 * d.toNat + 16384 * a.toNat + 1048576 * wa.toNat + 2097152 * s.toNat)
  | .li d imm => some (51 + 256 * d.toNat + 16384 * imm.toNat)
  | .lih d imm => some (53 + 256 * d.toNat + 16384 * imm.toNat)
  | .rmake d a b wa wb => some (65 + 256 * d.toNat + 16384 * a.toNat + 1048576 * b.toNat + 67108864 * wa.toNat + 134217728 * wb.toNat)
  | .radd d a b wa wb => some (268435521 + 256 * d.toNat + 16384 * a.toNat + 1048576 * b.toNat + 67108864 * wa.toNat + 134217728 * wb.toNat)
  | .rsetf d a b wa wb => some (536870977 + 256 * d.toNat + 16384 * a.toNat + 1048576 * b.toNat + 67108864 * wa.toNat + 134217728 * wb.toNat)
  | .roff d a wa => some (805306433 + 256 * d.toNat + 16384 * a.toNat + 67108864 * wa.toNat)
  | .ridx d a wa => some (1073741889 + 256 * d.toNat + 16384 * a.toNat + 67108864 * wa.toNat)
  | .raddi d a wa imm => some (67 + 256 * d.toNat + 16384 * a.toNat + 1048576 * wa.toNat + 2097152 * imm.toNat)
  | .j disp => some (81 + 256 * disp.toNat)
  | .jal disp => some (83 + 256 * disp.toNat)
  | .jr a wa => some (85 + 16384 * a.toNat + 67108864 * wa.toNat)
  | .jalr d a wa => some (268435541 + 256 * d.toNat + 16384 * a.toNat + 67108864 * wa.toNat)
  | .beq a b wa wb disp => some (87 + 256 * a.toNat + 16384 * b.toNat + 1048576 * wa.toNat + 2097152 * wb.toNat + 4194304 * disp.toNat)
  | .bne a b wa wb disp => some (89 + 256 * a.toNat + 16384 * b.toNat + 1048576 * wa.toNat + 2097152 * wb.toNat + 4194304 * disp.toNat)
  | .blt a b wa wb disp => some (91 + 256 * a.toNat + 16384 * b.toNat + 1048576 * wa.toNat + 2097152 * wb.toNat + 4194304 * disp.toNat)
  | .bge a b wa wb disp => some (93 + 256 * a.toNat + 16384 * b.toNat + 1048576 * wa.toNat + 2097152 * wb.toNat + 4194304 * disp.toNat)
  | .bltn a b wa wb disp => some (95 + 256 * a.toNat + 16384 * b.toNat + 1048576 * wa.toNat + 2097152 * wb.toNat + 4194304 * disp.toNat)
  | .bgen a b wa wb disp => some (97 + 256 * a.toNat + 16384 * b.toNat + 1048576 * wa.toNat + 2097152 * wb.toNat + 4194304 * disp.toNat)
  | .bz a wa disp => some (99 + 256 * a.toNat + 16384 * wa.toNat + 32768 * disp.toNat)
  | .bnz a wa disp => some (101 + 256 * a.toNat + 16384 * wa.toNat + 32768 * disp.toNat)
  | .loop c wc len m e => some (103 + 256 * c.toNat + 16384 * wc.toNat + 32768 * len.toNat + 8388608 * m.toNat + 268435456 * e.toNat)
  | .loopw c wc len m e => some (105 + 256 * c.toNat + 16384 * wc.toNat + 32768 * len.toNat + 8388608 * m.toNat + 268435456 * e.toNat)
  | .loopl a wa xn => some (107 + 16384 * a.toNat + 67108864 * wa.toNat + 1048576 * xn.toNat)
  | .nop => some (109)
  | .xset d a wa => some (113 + 256 * d.toNat + 16384 * a.toNat + 67108864 * wa.toNat)
  | .xget d a => some (268435569 + 256 * d.toNat + 16384 * a.toNat)
  | .xld d a wa hint disp => some (115 + 256 * d.toNat + 16384 * a.toNat + 1048576 * wa.toNat + 4194304 * hint.code + 134217728 * disp.toNat)
  | .xli d imm => some (117 + 256 * d.toNat + 16384 * imm.toNat)
  | .ld d a wa sz hint disp => some (129 + 256 * d.toNat + 16384 * a.toNat + 1048576 * wa.toNat + 16777216 * sz.code + 4194304 * hint.code + 134217728 * disp.toNat)
  | .st d a wa wd sz hint disp => some (131 + 256 * d.toNat + 16384 * a.toNat + 1048576 * wa.toNat + 2097152 * wd.toNat + 16777216 * sz.code + 4194304 * hint.code + 134217728 * disp.toNat)
  | .lda d a wa sc hint disp => some (133 + 256 * d.toNat + 16384 * a.toNat + 1048576 * wa.toNat + 16777216 * sc.code + 4194304 * hint.code + 134217728 * disp.toNat)
  | .str d a wa wd sc hint disp => some (135 + 256 * d.toNat + 16384 * a.toNat + 1048576 * wa.toNat + 2097152 * wd.toNat + 16777216 * sc.code + 4194304 * hint.code + 134217728 * disp.toNat)
  | .ldv d a wa masked hint disp => some (137 + 256 * d.toNat + 16384 * a.toNat + 1048576 * wa.toNat + 16777216 * masked.toNat + 4194304 * hint.code + 134217728 * disp.toNat)
  | .stv d a wa wd masked hint disp => some (139 + 256 * d.toNat + 16384 * a.toNat + 1048576 * wa.toNat + 2097152 * wd.toNat + 16777216 * masked.toNat + 4194304 * hint.code + 134217728 * disp.toNat)
  | .vlds d a wa xn hint disp => some (141 + 256 * d.toNat + 16384 * a.toNat + 1048576 * wa.toNat + 16777216 * xn.toNat + 4194304 * hint.code + 134217728 * disp.toNat)
  | .vgath d a b wa wb qn idx => some (143 + 256 * d.toNat + 16384 * a.toNat + 1048576 * b.toNat + 67108864 * wa.toNat + 134217728 * wb.toNat + 268435456 * qn.toNat + 2147483648 * idx.toNat)
  | .vscat d a b wa wb qn idx => some (145 + 256 * d.toNat + 16384 * a.toNat + 1048576 * b.toNat + 67108864 * wa.toNat + 134217728 * wb.toNat + 268435456 * qn.toNat + 2147483648 * idx.toNat)
  | .ldp d a wa sz disp => some (147 + 256 * d.toNat + 16384 * a.toNat + 1048576 * wa.toNat + 16777216 * sz.code + 134217728 * disp.toNat)
  | .pref a wa l2only hint disp => some (149 + 16384 * a.toNat + 1048576 * wa.toNat + 16777216 * l2only.toNat + 4194304 * hint.code + 134217728 * disp.toNat)
  | .lds d a wa sc hint disp => some (153 + 256 * d.toNat + 16384 * a.toNat + 1048576 * wa.toNat + 16777216 * sc.code + 4194304 * hint.code + 134217728 * disp.toNat)
  | .take d a wa sc hint disp => some (155 + 256 * d.toNat + 16384 * a.toNat + 1048576 * wa.toNat + 16777216 * sc.code + 4194304 * hint.code + 134217728 * disp.toNat)
  | .put d a wa wd sc hint disp => some (157 + 256 * d.toNat + 16384 * a.toNat + 1048576 * wa.toNat + 2097152 * wd.toNat + 16777216 * sc.code + 4194304 * hint.code + 134217728 * disp.toNat)
  | .putFullFault d a wa wd sc hint disp => some (159 + 256 * d.toNat + 16384 * a.toNat + 1048576 * wa.toNat + 2097152 * wd.toNat + 16777216 * sc.code + 4194304 * hint.code + 134217728 * disp.toNat)
  | .feq d a wa hint disp => some (161 + 256 * d.toNat + 16384 * a.toNat + 1048576 * wa.toNat + 4194304 * hint.code + 134217728 * disp.toNat)
  | .feset a wa full hint disp => some (163 + 16384 * a.toNat + 1048576 * wa.toNat + 16777216 * full.toNat + 4194304 * hint.code + 134217728 * disp.toNat)
  | .lrw d a wa sc hint disp => some (165 + 256 * d.toNat + 16384 * a.toNat + 1048576 * wa.toNat + 16777216 * sc.code + 4194304 * hint.code + 134217728 * disp.toNat)
  | .sc d a wa wd sc hint disp => some (167 + 256 * d.toNat + 16384 * a.toNat + 1048576 * wa.toNat + 2097152 * wd.toNat + 16777216 * sc.code + 4194304 * hint.code + 134217728 * disp.toNat)
  | .screl a wa sc hint disp => some (169 + 16384 * a.toNat + 1048576 * wa.toNat + 16777216 * sc.code + 4194304 * hint.code + 134217728 * disp.toNat)
  | .fence kind sc => some (171 + 131072 * kind.code + 16384 * sc.code)
  | .pfence sc => some (173 + 16384 * sc.code)
  | .ppoint => some (175)
  | .dclean a wa hint disp => some (177 + 16384 * a.toNat + 1048576 * wa.toNat + 4194304 * hint.code + 134217728 * disp.toNat)
  | .dinval a wa hint disp => some (179 + 16384 * a.toNat + 1048576 * wa.toNat + 4194304 * hint.code + 134217728 * disp.toNat)
  | .icinvalLine a wa disp => some (181 + 16384 * a.toNat + 1048576 * wa.toNat + 134217728 * disp.toNat)
  | .icinvalCell => some (16777397)
  | .fetchb => some (183)
  | .cpinPin a wa hint disp => some (185 + 16384 * a.toNat + 1048576 * wa.toNat + 4194304 * hint.code + 134217728 * disp.toNat)
  | .cpinUnpin a wa hint disp => some (16777401 + 16384 * a.toNat + 1048576 * wa.toNat + 4194304 * hint.code + 134217728 * disp.toNat)
  | .vadd d a b wa wb t => some (193 + 256 * d.toNat + 16384 * a.toNat + 1048576 * b.toNat + 67108864 * wa.toNat + 134217728 * wb.toNat + 268435456 * t.code)
  | .vsub d a b wa wb t => some (2147483841 + 256 * d.toNat + 16384 * a.toNat + 1048576 * b.toNat + 67108864 * wa.toNat + 134217728 * wb.toNat + 268435456 * t.code)
  | .vmul d a b wa wb t => some (195 + 256 * d.toNat + 16384 * a.toNat + 1048576 * b.toNat + 67108864 * wa.toNat + 134217728 * wb.toNat + 268435456 * t.code)
  | .vdiv d a b wa wb t => some (2147483843 + 256 * d.toNat + 16384 * a.toNat + 1048576 * b.toNat + 67108864 * wa.toNat + 134217728 * wb.toNat + 268435456 * t.code)
  | .vfma d a b wa wb t => some (197 + 256 * d.toNat + 16384 * a.toNat + 1048576 * b.toNat + 67108864 * wa.toNat + 134217728 * wb.toNat + 268435456 * t.code)
  | .vfms d a b wa wb t => some (2147483845 + 256 * d.toNat + 16384 * a.toNat + 1048576 * b.toNat + 67108864 * wa.toNat + 134217728 * wb.toNat + 268435456 * t.code)
  | .vmin d a b wa wb t => some (199 + 256 * d.toNat + 16384 * a.toNat + 1048576 * b.toNat + 67108864 * wa.toNat + 134217728 * wb.toNat + 268435456 * t.code)
  | .vmax d a b wa wb t => some (2147483847 + 256 * d.toNat + 16384 * a.toNat + 1048576 * b.toNat + 67108864 * wa.toNat + 134217728 * wb.toNat + 268435456 * t.code)
  | .vsqrt d a wa t => some (201 + 256 * d.toNat + 16384 * a.toNat + 67108864 * wa.toNat + 268435456 * t.code)
  | .vrcp d a wa t => some (1048777 + 256 * d.toNat + 16384 * a.toNat + 67108864 * wa.toNat + 268435456 * t.code)
  | .vrsq d a wa t => some (2097353 + 256 * d.toNat + 16384 * a.toNat + 67108864 * wa.toNat + 268435456 * t.code)
  | .vabs d a wa t => some (3145929 + 256 * d.toNat + 16384 * a.toNat + 67108864 * wa.toNat + 268435456 * t.code)
  | .vneg d a wa t => some (4194505 + 256 * d.toNat + 16384 * a.toNat + 67108864 * wa.toNat + 268435456 * t.code)
  | .vcmp qd cond a b wa wb t => some (203 + 256 * qd.toNat + 2048 * cond.code + 16384 * a.toNat + 1048576 * b.toNat + 67108864 * wa.toNat + 134217728 * wb.toNat + 268435456 * t.code)
  | .vsel d a b wa wb qn => some (205 + 256 * d.toNat + 16384 * a.toNat + 1048576 * b.toNat + 67108864 * wa.toNat + 134217728 * wb.toNat + 268435456 * qn.toNat)
  | .vand d a b wa wb => some (207 + 256 * d.toNat + 16384 * a.toNat + 1048576 * b.toNat + 67108864 * wa.toNat + 134217728 * wb.toNat)
  | .vor d a b wa wb => some (268435663 + 256 * d.toNat + 16384 * a.toNat + 1048576 * b.toNat + 67108864 * wa.toNat + 134217728 * wb.toNat)
  | .vxor d a b wa wb => some (536871119 + 256 * d.toNat + 16384 * a.toNat + 1048576 * b.toNat + 67108864 * wa.toNat + 134217728 * wb.toNat)
  | .vshl d a b wa wb wid => some (209 + 256 * d.toNat + 16384 * a.toNat + 1048576 * b.toNat + 67108864 * wa.toNat + 134217728 * wb.toNat + 268435456 * wid.code)
  | .vshr d a b wa wb wid => some (1073742033 + 256 * d.toNat + 16384 * a.toNat + 1048576 * b.toNat + 67108864 * wa.toNat + 134217728 * wb.toNat + 268435456 * wid.code)
  | .vshrArith d a b wa wb wid => some (2147483857 + 256 * d.toNat + 16384 * a.toNat + 1048576 * b.toNat + 67108864 * wa.toNat + 134217728 * wb.toNat + 268435456 * wid.code)
  | .vcvt d a wa src dst rm => some (211 + 256 * d.toNat + 16384 * a.toNat + 67108864 * wa.toNat + 1048576 * src.code + 268435456 * dst.code + (match rm with | none => 0 | some r => 134217728 + 16777216 * r.code))
  | .vbcast d a wa wid => some (213 + 256 * d.toNat + 16384 * a.toNat + 67108864 * wa.toNat + 268435456 * wid.code)
  | .vext d a b wa wb wid => some (1073742037 + 256 * d.toNat + 16384 * a.toNat + 1048576 * b.toNat + 67108864 * wa.toNat + 134217728 * wb.toNat + 268435456 * wid.code)
  | .vins d a b wa wb wid => some (2147483861 + 256 * d.toNat + 16384 * a.toNat + 1048576 * b.toNat + 67108864 * wa.toNat + 134217728 * wb.toNat + 268435456 * wid.code)
  | .vperm d a b wa wb wid => some (3221225685 + 256 * d.toNat + 16384 * a.toNat + 1048576 * b.toNat + 67108864 * wa.toNat + 134217728 * wb.toNat + 268435456 * wid.code)
  | .vred d a wa op t => some (215 + 256 * d.toNat + 16384 * a.toNat + 67108864 * wa.toNat + 1048576 * op.code + 268435456 * t.code)
  | .vdot d a b wa wb t => some (2147483863 + 256 * d.toNat + 16384 * a.toNat + 1048576 * b.toNat + 67108864 * wa.toNat + 134217728 * wb.toNat + 268435456 * t.code)
  | .mand d a b wa wb => some (217 + 256 * d.toNat + 16384 * a.toNat + 1048576 * b.toNat + 67108864 * wa.toNat + 134217728 * wb.toNat)
  | .mor d a b wa wb => some (268435673 + 256 * d.toNat + 16384 * a.toNat + 1048576 * b.toNat + 67108864 * wa.toNat + 134217728 * wb.toNat)
  | .mxor d a b wa wb => some (536871129 + 256 * d.toNat + 16384 * a.toNat + 1048576 * b.toNat + 67108864 * wa.toNat + 134217728 * wb.toNat)
  | .mnot d a wa => some (805306585 + 256 * d.toNat + 16384 * a.toNat + 67108864 * wa.toNat)
  | .mpop d a wa => some (1073742041 + 256 * d.toNat + 16384 * a.toNat + 67108864 * wa.toNat)
  | .mset d a wa mode => some (1342177497 + 256 * d.toNat + 16384 * a.toNat + 67108864 * wa.toNat + 1048576 * mode.code)
  | .mma d a b xn acc16 => some (221 + 256 * d.toNat + 16384 * a.toNat + 1048576 * b.toNat + 67108864 * xn.toNat + 536870912 * acc16.toNat)
  | .mmaz d a b xn acc16 => some (223 + 256 * d.toNat + 16384 * a.toNat + 1048576 * b.toNat + 67108864 * xn.toNat + 536870912 * acc16.toNat)
  | .tld d a wa xn hint disp => some (225 + 256 * d.toNat + 16384 * a.toNat + 1048576 * wa.toNat + 16777216 * xn.toNat + 4194304 * hint.code + 134217728 * disp.toNat)
  | .tst d a wa xn hint disp => some (227 + 256 * d.toNat + 16384 * a.toNat + 1048576 * wa.toNat + 16777216 * xn.toNat + 4194304 * hint.code + 134217728 * disp.toNat)
  | .tzero d => some (229 + 256 * d.toNat)
  | .tcvt d a => some (536871141 + 256 * d.toNat + 16384 * a.toNat)
  | .tadd d a b => some (1073742053 + 256 * d.toNat + 16384 * a.toNat + 1048576 * b.toNat)
  | .tscale d a xn => some (1610612965 + 256 * d.toNat + 16384 * a.toNat + 67108864 * xn.toNat)
  | .ttrans d a => some (2147483877 + 256 * d.toNat + 16384 * a.toNat)
  | .trowv d a xn => some (2684354789 + 256 * d.toNat + 16384 * a.toNat + 67108864 * xn.toNat)
  | .tvrow d a xn => some (3221225701 + 256 * d.toNat + 16384 * a.toNat + 67108864 * xn.toNat)
  | .trange d a b wa wb dim => some (231 + 256 * d.toNat + 16384 * a.toNat + 1048576 * b.toNat + 67108864 * wa.toNat + 134217728 * wb.toNat + 268435456 * dim.code)
  | .tfact d a b xn chol => some (233 + 256 * d.toNat + 16384 * a.toNat + 1048576 * b.toNat + 67108864 * xn.toNat + 536870912 * chol.toNat)
  | .tsolve d a b upper unit right => some (235 + 256 * d.toNat + 16384 * a.toNat + 1048576 * b.toNat + 536870912 * upper.toNat + 1073741824 * unit.toNat + 2147483648 * right.toNat)
  | .accz a wa => some (239 + 16384 * a.toNat + 67108864 * wa.toNat)
  | .accwp d a b wa wb => some (268435695 + 256 * d.toNat + 16384 * a.toNat + 1048576 * b.toNat + 67108864 * wa.toNat + 134217728 * wb.toNat)
  | .accr d a wa => some (536871151 + 256 * d.toNat + 16384 * a.toNat + 67108864 * wa.toNat)
  | .accrFp64 d a wa => some (805306607 + 256 * d.toNat + 16384 * a.toNat + 67108864 * wa.toNat)
  | .accm a b wa wb => some (1073742063 + 16384 * a.toNat + 1048576 * b.toNat + 67108864 * wa.toNat + 134217728 * wb.toNat)
  | .accw a b wa wb ty => some (241 + 16384 * a.toNat + 1048576 * b.toNat + 67108864 * wa.toNat + 134217728 * wb.toNat + 268435456 * ty.code)
  | .ltag d a b wa wb => some (243 + 256 * d.toNat + 16384 * a.toNat + 1048576 * b.toNat + 67108864 * wa.toNat + 134217728 * wb.toNat)
  | .lget d a wa file => some (268435699 + 256 * d.toNat + 16384 * a.toNat + 67108864 * wa.toNat + 1048576 * file.code)
  | .lset d a wa file => some (536871155 + 256 * d.toNat + 16384 * a.toNat + 67108864 * wa.toNat + 1048576 * file.code)
  | .lprod d a b wa wb => some (805306611 + 256 * d.toNat + 16384 * a.toNat + 1048576 * b.toNat + 67108864 * wa.toNat + 134217728 * wb.toNat)
  | .lholds d a b wa wb => some (1073742067 + 256 * d.toNat + 16384 * a.toNat + 1048576 * b.toNat + 67108864 * wa.toNat + 134217728 * wb.toNat)
  | .lenv d a b wa wb => some (1342177523 + 256 * d.toNat + 16384 * a.toNat + 1048576 * b.toNat + 67108864 * wa.toNat + 134217728 * wb.toNat)
  | .lcnt d a wa => some (1610612979 + 256 * d.toNat + 16384 * a.toNat + 67108864 * wa.toNat)
  | .lsel d a b wa wb => some (1879048435 + 256 * d.toNat + 16384 * a.toNat + 1048576 * b.toNat + 67108864 * wa.toNat + 134217728 * wb.toNat)
  | .nogood d a wa => some (2147483891 + 256 * d.toNat + 16384 * a.toNat + 67108864 * wa.toNat)
  | .lsync => some (2415919347)
  | .lcompact d a wa => some (2684354803 + 256 * d.toNat + 16384 * a.toNat + 67108864 * wa.toNat)
  | .claim d => some (245 + 256 * d.toNat)
  | .claimw d => some (268435701 + 256 * d.toNat)
  | .fulfil a wa cls => some (536871157 + 16384 * a.toNat + 67108864 * wa.toNat + 1048576 * cls.code)
  | .abandon => some (805306613)
  | .cldrop d => some (1073742069 + 256 * d.toNat)
  | .cpgo d => some (247 + 256 * d.toNat)
  | .cpmc d a wa => some (268435703 + 256 * d.toNat + 16384 * a.toNat + 67108864 * wa.toNat)
  | .slotret a b wa wb => some (536871159 + 16384 * a.toNat + 1048576 * b.toNat + 67108864 * wa.toNat + 134217728 * wb.toNat)
  | .slotq d a wa => some (805306615 + 256 * d.toNat + 16384 * a.toNat + 67108864 * wa.toNat)
  | .tbinit a b wa wb => some (1073742071 + 16384 * a.toNat + 1048576 * b.toNat + 67108864 * wa.toNat + 134217728 * wb.toNat)
  | .tbexp a b wa wb => some (1342177527 + 16384 * a.toNat + 1048576 * b.toNat + 67108864 * wa.toNat + 134217728 * wb.toNat)
  | .tbarr a wa sc => some (1610612983 + 16384 * a.toNat + 67108864 * wa.toNat + 1048576 * sc.code)
  | .tbwait d a b wa wb => some (1879048439 + 256 * d.toNat + 16384 * a.toNat + 1048576 * b.toNat + 67108864 * wa.toNat + 134217728 * wb.toNat)
  | .tbtime d a b wa wb => some (2147483895 + 256 * d.toNat + 16384 * a.toNat + 1048576 * b.toNat + 67108864 * wa.toNat + 134217728 * wb.toNat)
  | .encpost d a b wa wb => some (2415919351 + 256 * d.toNat + 16384 * a.toNat + 1048576 * b.toNat + 67108864 * wa.toNat + 134217728 * wb.toNat)
  | .gath d hint => some (3221225719 + 256 * d.toNat + 268435456 * hint.code)
  | .nsignal a wa => some (249 + 16384 * a.toNat + 67108864 * wa.toNat)
  | .strdone => some (268435705)
  | .cancel d a wa lvl => some (536871161 + 256 * d.toNat + 16384 * a.toNat + 67108864 * wa.toNat + 268435456 * lvl.code)
  | .cntq d a wa lvl => some (2147483897 + 256 * d.toNat + 16384 * a.toNat + 67108864 * wa.toNat + 268435456 * lvl.code)
  | .mfcr d cr => some (251 + 256 * d.toNat + 1048576 * cr.code)
  | .mtcr cr a => some (253 + 1048576 * cr.code + 16384 * a.toNat)
  | .mtcrStatus a => some (253 + 16384 * a.toNat)
  | .mtcrSpace a => some (8388861 + 16384 * a.toNat)
  | .mtcrSlotinit a => some (50331901 + 16384 * a.toNat)
  | .mtcrTcfg n a => some (268435709 + 1048576 * n.toNat + 16384 * a.toNat)
  | .trap imm => some (509 + 1048576 * imm.toNat)
  | .eret => some (765)
  | .signal a info => some (1021 + 16384 * a.toNat + 1048576 * info.toNat)
  | .repart a mode => some (1277 + 16384 * a.toNat + 1048576 * mode.code)
  | .tlbinv a area => some (1533 + 16384 * a.toNat + 1048576 * area.code)
  | .hinval a all => some (1789 + 16384 * a.toNat + 1048576 * all.toNat)
  | .routeset a idx => some (2045 + 16384 * a.toNat + 1048576 * idx.toNat)
  | .routeinv idx all => some (2301 + 1048576 * idx.toNat + 268435456 * all.toNat)
  | .cMov d a => some (2 + 32 * d.toNat + 512 * a.toNat)
  | .cAdd d a => some (4 + 32 * d.toNat + 512 * a.toNat)
  | .cSub d a => some (6 + 32 * d.toNat + 512 * a.toNat)
  | .cAnd d a => some (8 + 32 * d.toNat + 512 * a.toNat)
  | .cOr d a => some (10 + 32 * d.toNat + 512 * a.toNat)
  | .cXor d a => some (12 + 32 * d.toNat + 512 * a.toNat)
  | .cAddi d imm => some (14 + 32 * d.toNat + 512 * imm.toNat)
  | .cShli d s => some (16 + 32 * d.toNat + 512 * s.toNat)
  | .cLi d imm => some (18 + 32 * d.toNat + 512 * imm.toNat)
  | .cLd d a disp => some (20 + 32 * d.toNat + 512 * a.toNat + 8192 * disp.toNat)
  | .cSt d a disp => some (22 + 32 * d.toNat + 512 * a.toNat + 8192 * disp.toNat)
  | .cBz a disp => some (24 + 32 * a.toNat + 512 * disp.toNat)
  | .cBnz a disp => some (26 + 32 * a.toNat + 512 * disp.toNat)
  | .cJ disp => some (28 + 32 * disp.toNat)
  | .cJr a => some (30 + 32 * a.toNat)
  | .interruptTaken _ => none
  | .signalArrival _ => none
  | .loopBack _ => none
  | .labelProductAnswer _ => none
  | .divideComplete _ _ => none
  | .loadDataReturn _ _ => none
  | .deferredDataErrorFault _ => none
  | .vectorLongComplete _ _ => none
  | .matrixInstructionStart _ => none
  | .matrixInstructionComplete _ => none
  | .followOnOffer _ _ => none
  | .accumulatorComplete _ _ => none
  | .pageWalkComplete _ => none
  | .homeRequestArrival _ => none
  | .refusedRequestRetry _ => none
  | .serviceDelivery _ => none
  | .reservationRequestArrival _ => none
  | .reservationPassArrival _ => none
  | .holdLimitExpiry _ => none
  | .reservationHoldNotice _ => none
  | .wcbDrain _ _ => none
  | .l1WriteBack _ _ _ => none
  | .scrub _ _ => none
  | .automaticPersistencePoint _ => none
  | .imageComplete _ => none
  | .shadowLineCopy _ _ => none
  | .cellLoss _ => none
  | .stationLoss _ => none
  | .lossReport _ => none
  | .columnResume _ => none
  | .peerAccessTimeout _ => none
  | .requestAbandonTimeout _ _ => none
  | .alembicClaimArrival _ => none
  | .alembicFulfilArrival _ => none
  | .alembicAbandonArrival _ => none
  | .alembicCldropArrival _ => none
  | .claimReturn _ => none
  | .accordProductRequest _ => none
  | .intern _ => none
  | .entryRewrite _ => none
  | .nogoodAppend _ => none
  | .generationBroadcast _ _ => none
  | .nogoodAcknowledge _ _ => none
  | .copySlotAllocation _ => none
  | .slotReturnArrival _ => none
  | .copyLine _ _ => none
  | .barrierCredit _ => none
  | .barrierWaitReturn _ => none
  | .tbtimeLimitExpiry _ => none
  | .gatherIndexRead _ _ => none
  | .gatherRowMove _ _ => none
  | .encoderFrameStart _ => none
  | .encoderFrameReadDone _ => none
  | .encoderRecordWrite _ => none
  | .jobSubmission _ _ => none
  | .jclr _ _ => none
  | .jobStart _ => none
  | .phaseStart _ => none
  | .nodeReady _ _ _ => none
  | .nodeComplete _ _ _ => none
  | .nsignalArrival _ => none
  | .strandPlacement _ => none
  | .coResidentPlacement _ _ _ => none
  | .contractRelease _ => none
  | .budgetOverrun _ => none
  | .deadlineMiss _ => none
  | .dispatchStall _ _ _ => none
  | .preEmption _ => none
  | .restore _ => none
  | .deferredDelivery _ _ => none
  | .bubbleStarvation _ _ => none
  | .lostRequestTimeout _ _ => none
  | .loopFailure _ _ => none
  | .portDown _ => none
  | .peerArrivalCheck _ => none
  | .hostCxlMemAccess _ _ _ => none
  | .hostSnoop _ _ => none
  | .temperatureSample _ _ _ _ _ => none
  | .droopStretch _ => none
  | .droopStretchLong _ => none
  | .powerOn _ _ _ _ => none
  | .fileLoad _ _ => none
  | .imageReceipt _ _ => none
  | .adoptSpareCell _ => none
  | .repairBanks _ => none
  | .commissionSpareLoop _ _ => none
  | .substituteL2WayGroup _ => none
  | .releaseQuarantineEntry _ _ => none
  | .clearSensorMarking _ _ => none
  | .setPowerCap _ _ => none
  | .takeCheckpoint _ => none
  | .restoreCheckpoint _ => none
  | .powerColumn _ _ _ => none
  | .takeSliceOutOfService _ => none
  | .mailboxCompletion => none
  | .instructionCacheEviction _ _ => none
  | .handleCacheEviction _ _ => none
  | .storeArrivalAtHome _ => none
  | .barrierRequestArrival _ => none
  | .schedulerAnswer _ => none
  | .frameOffer _ => none
  | .supplyRecovery _ => none
  | .portUp _ => none
  | .msixVectorUnmask _ => none
  | .invalidMailboxCommand _ => none
  | .attestationRequest _ => none

/-- The length in bytes of an instruction: 2 where bit 0 of its first parcel is 0, else 4 (R71). -/
def wordLen (w : Nat) : Nat := if w % 2 = 0 then 2 else 4

/-- The instruction that a 32-bit word of a major encodes (R81). -/
def decodeMajor (major w : Nat) : Except Reject Instr :=
  match major with
  | 0x01 =>
    (Width.ofCode (bitsAt w 28 2)).bind fun wid => (IntKind.ofCode (bitsAt w 30 2)).bind fun k => .ok (.add (.ofNat 6 (w / 256)) (.ofNat 6 (w / 16384)) (.ofNat 6 (w / 1048576)) (bitAt w 26) (bitAt w 27) wid k)
  | 0x02 =>
    (Width.ofCode (bitsAt w 28 2)).bind fun wid => (IntKind.ofCode (bitsAt w 30 2)).bind fun k => .ok (.sub (.ofNat 6 (w / 256)) (.ofNat 6 (w / 16384)) (.ofNat 6 (w / 1048576)) (bitAt w 26) (bitAt w 27) wid k)
  | 0x03 =>
    (Width.ofCode (bitsAt w 28 2)).bind fun wid => (IntKind.ofCode (bitsAt w 30 2)).bind fun k => .ok (.mul (.ofNat 6 (w / 256)) (.ofNat 6 (w / 16384)) (.ofNat 6 (w / 1048576)) (bitAt w 26) (bitAt w 27) wid k)
  | 0x04 =>
    if bitsAt w 28 4 == 0 then .ok (.mulh (.ofNat 6 (w / 256)) (.ofNat 6 (w / 16384)) (.ofNat 6 (w / 1048576)) (bitAt w 26) (bitAt w 27)) else
    if bitsAt w 28 4 == 1 then .ok (.mulhn (.ofNat 6 (w / 256)) (.ofNat 6 (w / 16384)) (.ofNat 6 (w / 1048576)) (bitAt w 26) (bitAt w 27)) else
    .error .notAssigned
  | 0x05 =>
    if bitsAt w 30 2 == 0 then (Width.ofCode (bitsAt w 28 2)).bind fun wid => .ok (.div (.ofNat 6 (w / 256)) (.ofNat 6 (w / 16384)) (.ofNat 6 (w / 1048576)) (bitAt w 26) (bitAt w 27) wid) else
    if bitsAt w 30 2 == 1 then (Width.ofCode (bitsAt w 28 2)).bind fun wid => .ok (.divn (.ofNat 6 (w / 256)) (.ofNat 6 (w / 16384)) (.ofNat 6 (w / 1048576)) (bitAt w 26) (bitAt w 27) wid) else
    if bitsAt w 30 2 == 2 then (Width.ofCode (bitsAt w 28 2)).bind fun wid => .ok (.rem (.ofNat 6 (w / 256)) (.ofNat 6 (w / 16384)) (.ofNat 6 (w / 1048576)) (bitAt w 26) (bitAt w 27) wid) else
    if bitsAt w 30 2 == 3 then (Width.ofCode (bitsAt w 28 2)).bind fun wid => .ok (.remn (.ofNat 6 (w / 256)) (.ofNat 6 (w / 16384)) (.ofNat 6 (w / 1048576)) (bitAt w 26) (bitAt w 27) wid) else
    .error .notAssigned
  | 0x06 =>
    if bitsAt w 28 4 == 0 then .ok (.and (.ofNat 6 (w / 256)) (.ofNat 6 (w / 16384)) (.ofNat 6 (w / 1048576)) (bitAt w 26) (bitAt w 27)) else
    if bitsAt w 28 4 == 1 then .ok (.or (.ofNat 6 (w / 256)) (.ofNat 6 (w / 16384)) (.ofNat 6 (w / 1048576)) (bitAt w 26) (bitAt w 27)) else
    if bitsAt w 28 4 == 2 then .ok (.xor (.ofNat 6 (w / 256)) (.ofNat 6 (w / 16384)) (.ofNat 6 (w / 1048576)) (bitAt w 26) (bitAt w 27)) else
    if bitsAt w 20 6 == 0 && bitsAt w 27 5 == 6 then .ok (.mov (.ofNat 6 (w / 256)) (.ofNat 6 (w / 16384)) (bitAt w 26)) else
    .error .notAssigned
  | 0x07 =>
    if bitsAt w 28 4 == 0 then .ok (.shl (.ofNat 6 (w / 256)) (.ofNat 6 (w / 16384)) (.ofNat 6 (w / 1048576)) (bitAt w 26) (bitAt w 27)) else
    if bitsAt w 28 4 == 1 then .ok (.shr (.ofNat 6 (w / 256)) (.ofNat 6 (w / 16384)) (.ofNat 6 (w / 1048576)) (bitAt w 26) (bitAt w 27)) else
    if bitsAt w 28 4 == 2 then .ok (.sra (.ofNat 6 (w / 256)) (.ofNat 6 (w / 16384)) (.ofNat 6 (w / 1048576)) (bitAt w 26) (bitAt w 27)) else
    if bitsAt w 28 4 == 3 then .ok (.rotl (.ofNat 6 (w / 256)) (.ofNat 6 (w / 16384)) (.ofNat 6 (w / 1048576)) (bitAt w 26) (bitAt w 27)) else
    .error .notAssigned
  | 0x08 =>
    if bitsAt w 20 6 == 0 && bitsAt w 27 5 == 0 then .ok (.clz (.ofNat 6 (w / 256)) (.ofNat 6 (w / 16384)) (bitAt w 26)) else
    if bitsAt w 20 6 == 0 && bitsAt w 27 5 == 2 then .ok (.ctz (.ofNat 6 (w / 256)) (.ofNat 6 (w / 16384)) (bitAt w 26)) else
    if bitsAt w 20 6 == 0 && bitsAt w 27 5 == 4 then .ok (.popc (.ofNat 6 (w / 256)) (.ofNat 6 (w / 16384)) (bitAt w 26)) else
    .error .notAssigned
  | 0x09 =>
    if bitsAt w 28 4 == 0 then .ok (.min (.ofNat 6 (w / 256)) (.ofNat 6 (w / 16384)) (.ofNat 6 (w / 1048576)) (bitAt w 26) (bitAt w 27)) else
    if bitsAt w 28 4 == 1 then .ok (.max (.ofNat 6 (w / 256)) (.ofNat 6 (w / 16384)) (.ofNat 6 (w / 1048576)) (bitAt w 26) (bitAt w 27)) else
    if bitsAt w 28 4 == 2 then .ok (.minn (.ofNat 6 (w / 256)) (.ofNat 6 (w / 16384)) (.ofNat 6 (w / 1048576)) (bitAt w 26) (bitAt w 27)) else
    if bitsAt w 28 4 == 3 then .ok (.maxn (.ofNat 6 (w / 256)) (.ofNat 6 (w / 16384)) (.ofNat 6 (w / 1048576)) (bitAt w 26) (bitAt w 27)) else
    .error .notAssigned
  | 0x0A =>
    if bitsAt w 28 4 == 2 then .ok (.bfx (.ofNat 6 (w / 256)) (.ofNat 6 (w / 16384)) (.ofNat 6 (w / 1048576)) (bitAt w 26) (bitAt w 27)) else
    if bitsAt w 28 4 == 3 then .ok (.bfi (.ofNat 6 (w / 256)) (.ofNat 6 (w / 16384)) (.ofNat 6 (w / 1048576)) (bitAt w 26) (bitAt w 27)) else
    if bitsAt w 27 5 == 0 then .ok (.sext (.ofNat 6 (w / 256)) (.ofNat 6 (w / 16384)) (bitAt w 26) (.ofNat 6 (w / 1048576))) else
    if bitsAt w 27 5 == 2 then .ok (.zext (.ofNat 6 (w / 256)) (.ofNat 6 (w / 16384)) (bitAt w 26) (.ofNat 6 (w / 1048576))) else
    .error .notAssigned
  | 0x0B =>
    if bitsAt w 28 4 == 0 then .ok (.sel (.ofNat 6 (w / 256)) (.ofNat 6 (w / 16384)) (.ofNat 6 (w / 1048576)) (bitAt w 26) (bitAt w 27)) else
    .error .notAssigned
  | 0x0C =>
    if bitsAt w 28 4 == 0 then .ok (.slt (.ofNat 6 (w / 256)) (.ofNat 6 (w / 16384)) (.ofNat 6 (w / 1048576)) (bitAt w 26) (bitAt w 27)) else
    if bitsAt w 28 4 == 1 then .ok (.sltn (.ofNat 6 (w / 256)) (.ofNat 6 (w / 16384)) (.ofNat 6 (w / 1048576)) (bitAt w 26) (bitAt w 27)) else
    if bitsAt w 28 4 == 2 then .ok (.seq (.ofNat 6 (w / 256)) (.ofNat 6 (w / 16384)) (.ofNat 6 (w / 1048576)) (bitAt w 26) (bitAt w 27)) else
    .error .notAssigned
  | 0x0D =>
    if bitsAt w 28 4 == 0 then .ok (.hash (.ofNat 6 (w / 256)) (.ofNat 6 (w / 16384)) (.ofNat 6 (w / 1048576)) (bitAt w 26) (bitAt w 27)) else
    .error .notAssigned
  | 0x10 =>
    .ok (.addi (.ofNat 6 (w / 256)) (.ofNat 6 (w / 16384)) (bitAt w 20) (.ofNat 11 (w / 2097152)))
  | 0x11 =>
    .ok (.andi (.ofNat 6 (w / 256)) (.ofNat 6 (w / 16384)) (bitAt w 20) (.ofNat 11 (w / 2097152)))
  | 0x12 =>
    .ok (.ori (.ofNat 6 (w / 256)) (.ofNat 6 (w / 16384)) (bitAt w 20) (.ofNat 11 (w / 2097152)))
  | 0x13 =>
    .ok (.xori (.ofNat 6 (w / 256)) (.ofNat 6 (w / 16384)) (bitAt w 20) (.ofNat 11 (w / 2097152)))
  | 0x14 =>
    .ok (.slti (.ofNat 6 (w / 256)) (.ofNat 6 (w / 16384)) (bitAt w 20) (.ofNat 11 (w / 2097152)))
  | 0x15 =>
    if bitsAt w 27 5 == 0 then .ok (.shli (.ofNat 6 (w / 256)) (.ofNat 6 (w / 16384)) (bitAt w 20) (.ofNat 6 (w / 2097152))) else
    .error .notAssigned
  | 0x16 =>
    if bitsAt w 27 5 == 0 then .ok (.shri (.ofNat 6 (w / 256)) (.ofNat 6 (w / 16384)) (bitAt w 20) (.ofNat 6 (w / 2097152))) else
    .error .notAssigned
  | 0x17 =>
    if bitsAt w 27 5 == 0 then .ok (.srai (.ofNat 6 (w / 256)) (.ofNat 6 (w / 16384)) (bitAt w 20) (.ofNat 6 (w / 2097152))) else
    .error .notAssigned
  | 0x18 =>
    if bitsAt w 27 5 == 0 then .ok (.rotli (.ofNat 6 (w / 256)) (.ofNat 6 (w / 16384)) (bitAt w 20) (.ofNat 6 (w / 2097152))) else
    .error .notAssigned
  | 0x19 =>
    .ok (.li (.ofNat 6 (w / 256)) (.ofNat 18 (w / 16384)))
  | 0x1A =>
    .ok (.lih (.ofNat 6 (w / 256)) (.ofNat 18 (w / 16384)))
  | 0x20 =>
    if bitsAt w 28 4 == 0 then .ok (.rmake (.ofNat 6 (w / 256)) (.ofNat 6 (w / 16384)) (.ofNat 6 (w / 1048576)) (bitAt w 26) (bitAt w 27)) else
    if bitsAt w 28 4 == 1 then .ok (.radd (.ofNat 6 (w / 256)) (.ofNat 6 (w / 16384)) (.ofNat 6 (w / 1048576)) (bitAt w 26) (bitAt w 27)) else
    if bitsAt w 28 4 == 2 then .ok (.rsetf (.ofNat 6 (w / 256)) (.ofNat 6 (w / 16384)) (.ofNat 6 (w / 1048576)) (bitAt w 26) (bitAt w 27)) else
    if bitsAt w 20 6 == 0 && bitsAt w 27 5 == 6 then .ok (.roff (.ofNat 6 (w / 256)) (.ofNat 6 (w / 16384)) (bitAt w 26)) else
    if bitsAt w 20 6 == 0 && bitsAt w 27 5 == 8 then .ok (.ridx (.ofNat 6 (w / 256)) (.ofNat 6 (w / 16384)) (bitAt w 26)) else
    .error .notAssigned
  | 0x21 =>
    .ok (.raddi (.ofNat 6 (w / 256)) (.ofNat 6 (w / 16384)) (bitAt w 20) (.ofNat 11 (w / 2097152)))
  | 0x28 =>
    .ok (.j (.ofNat 24 (w / 256)))
  | 0x29 =>
    .ok (.jal (.ofNat 24 (w / 256)))
  | 0x2A =>
    if bitsAt w 20 6 == 0 && bitsAt w 27 5 == 2 then .ok (.jalr (.ofNat 6 (w / 256)) (.ofNat 6 (w / 16384)) (bitAt w 26)) else
    if bitsAt w 8 6 == 0 && bitsAt w 20 6 == 0 && bitsAt w 27 5 == 0 then .ok (.jr (.ofNat 6 (w / 16384)) (bitAt w 26)) else
    .error .notAssigned
  | 0x2B =>
    .ok (.beq (.ofNat 6 (w / 256)) (.ofNat 6 (w / 16384)) (bitAt w 20) (bitAt w 21) (.ofNat 10 (w / 4194304)))
  | 0x2C =>
    .ok (.bne (.ofNat 6 (w / 256)) (.ofNat 6 (w / 16384)) (bitAt w 20) (bitAt w 21) (.ofNat 10 (w / 4194304)))
  | 0x2D =>
    .ok (.blt (.ofNat 6 (w / 256)) (.ofNat 6 (w / 16384)) (bitAt w 20) (bitAt w 21) (.ofNat 10 (w / 4194304)))
  | 0x2E =>
    .ok (.bge (.ofNat 6 (w / 256)) (.ofNat 6 (w / 16384)) (bitAt w 20) (bitAt w 21) (.ofNat 10 (w / 4194304)))
  | 0x2F =>
    .ok (.bltn (.ofNat 6 (w / 256)) (.ofNat 6 (w / 16384)) (bitAt w 20) (bitAt w 21) (.ofNat 10 (w / 4194304)))
  | 0x30 =>
    .ok (.bgen (.ofNat 6 (w / 256)) (.ofNat 6 (w / 16384)) (bitAt w 20) (bitAt w 21) (.ofNat 10 (w / 4194304)))
  | 0x31 =>
    .ok (.bz (.ofNat 6 (w / 256)) (bitAt w 14) (.ofNat 17 (w / 32768)))
  | 0x32 =>
    .ok (.bnz (.ofNat 6 (w / 256)) (bitAt w 14) (.ofNat 17 (w / 32768)))
  | 0x33 =>
    need (bitsAt w 15 8 != 0) .emptyLoop (.ok (.loop (.ofNat 6 (w / 256)) (bitAt w 14) (.ofNat 8 (w / 32768)) (.ofNat 5 (w / 8388608)) (.ofNat 4 (w / 268435456))))
  | 0x34 =>
    need (bitsAt w 15 8 != 0) .emptyLoop (.ok (.loopw (.ofNat 6 (w / 256)) (bitAt w 14) (.ofNat 8 (w / 32768)) (.ofNat 5 (w / 8388608)) (.ofNat 4 (w / 268435456))))
  | 0x35 =>
    if bitsAt w 8 6 == 0 && bitsAt w 23 3 == 0 && bitsAt w 27 5 == 0 then .ok (.loopl (.ofNat 6 (w / 16384)) (bitAt w 26) (.ofNat 3 (w / 1048576))) else
    .error .notAssigned
  | 0x36 =>
    if bitsAt w 8 24 == 0 then .ok (.nop) else
    .error .notAssigned
  | 0x38 =>
    if bitsAt w 20 6 == 0 && bitsAt w 27 5 == 0 then .ok (.xset (.ofNat 6 (w / 256)) (.ofNat 6 (w / 16384)) (bitAt w 26)) else
    if bitsAt w 20 12 == 256 then .ok (.xget (.ofNat 6 (w / 256)) (.ofNat 6 (w / 16384))) else
    .error .notAssigned
  | 0x39 =>
    if bitsAt w 21 1 == 0 && bitsAt w 24 3 == 0 then (Hint.ofCode (bitsAt w 22 2)).bind fun hint => .ok (.xld (.ofNat 6 (w / 256)) (.ofNat 6 (w / 16384)) (bitAt w 20) hint (.ofNat 5 (w / 134217728))) else
    .error .notAssigned
  | 0x3A =>
    .ok (.xli (.ofNat 6 (w / 256)) (.ofNat 18 (w / 16384)))
  | 0x40 =>
    if bitsAt w 21 1 == 0 then (MemSize.ofCode (bitsAt w 24 3)).bind fun sz => (Hint.ofCode (bitsAt w 22 2)).bind fun hint => .ok (.ld (.ofNat 6 (w / 256)) (.ofNat 6 (w / 16384)) (bitAt w 20) sz hint (.ofNat 5 (w / 134217728))) else
    .error .notAssigned
  | 0x41 =>
    if bitsAt w 26 1 == 0 then (StSize.ofCode (bitsAt w 24 2)).bind fun sz => (Hint.ofCode (bitsAt w 22 2)).bind fun hint => .ok (.st (.ofNat 6 (w / 256)) (.ofNat 6 (w / 16384)) (bitAt w 20) (bitAt w 21) sz hint (.ofNat 5 (w / 134217728))) else
    .error .notAssigned
  | 0x42 =>
    if bitsAt w 21 1 == 0 then (Scope.ofCode (bitsAt w 24 3)).bind fun sc => (Hint.ofCode (bitsAt w 22 2)).bind fun hint => .ok (.lda (.ofNat 6 (w / 256)) (.ofNat 6 (w / 16384)) (bitAt w 20) sc hint (.ofNat 5 (w / 134217728))) else
    .error .notAssigned
  | 0x43 =>
    (Scope.ofCode (bitsAt w 24 3)).bind fun sc => (Hint.ofCode (bitsAt w 22 2)).bind fun hint => .ok (.str (.ofNat 6 (w / 256)) (.ofNat 6 (w / 16384)) (bitAt w 20) (bitAt w 21) sc hint (.ofNat 5 (w / 134217728)))
  | 0x44 =>
    if bitsAt w 21 1 == 0 && bitsAt w 25 2 == 0 then (Hint.ofCode (bitsAt w 22 2)).bind fun hint => .ok (.ldv (.ofNat 6 (w / 256)) (.ofNat 6 (w / 16384)) (bitAt w 20) (bitAt w 24) hint (.ofNat 5 (w / 134217728))) else
    .error .notAssigned
  | 0x45 =>
    if bitsAt w 25 2 == 0 then (Hint.ofCode (bitsAt w 22 2)).bind fun hint => .ok (.stv (.ofNat 6 (w / 256)) (.ofNat 6 (w / 16384)) (bitAt w 20) (bitAt w 21) (bitAt w 24) hint (.ofNat 5 (w / 134217728))) else
    .error .notAssigned
  | 0x46 =>
    if bitsAt w 21 1 == 0 then (Hint.ofCode (bitsAt w 22 2)).bind fun hint => .ok (.vlds (.ofNat 6 (w / 256)) (.ofNat 6 (w / 16384)) (bitAt w 20) (.ofNat 3 (w / 16777216)) hint (.ofNat 5 (w / 134217728))) else
    .error .notAssigned
  | 0x47 =>
    .ok (.vgath (.ofNat 6 (w / 256)) (.ofNat 6 (w / 16384)) (.ofNat 6 (w / 1048576)) (bitAt w 26) (bitAt w 27) (.ofNat 3 (w / 268435456)) (bitAt w 31))
  | 0x48 =>
    .ok (.vscat (.ofNat 6 (w / 256)) (.ofNat 6 (w / 16384)) (.ofNat 6 (w / 1048576)) (bitAt w 26) (bitAt w 27) (.ofNat 3 (w / 268435456)) (bitAt w 31))
  | 0x49 =>
    if bitsAt w 21 3 == 0 then (MemSize.ofCode (bitsAt w 24 3)).bind fun sz => .ok (.ldp (.ofNat 6 (w / 256)) (.ofNat 6 (w / 16384)) (bitAt w 20) sz (.ofNat 5 (w / 134217728))) else
    .error .notAssigned
  | 0x4A =>
    if bitsAt w 8 6 == 0 && bitsAt w 21 1 == 0 && bitsAt w 25 2 == 0 then (Hint.ofCode (bitsAt w 22 2)).bind fun hint => .ok (.pref (.ofNat 6 (w / 16384)) (bitAt w 20) (bitAt w 24) hint (.ofNat 5 (w / 134217728))) else
    .error .notAssigned
  | 0x4C =>
    if bitsAt w 21 1 == 0 then (Scope.ofCode (bitsAt w 24 3)).bind fun sc => (Hint.ofCode (bitsAt w 22 2)).bind fun hint => .ok (.lds (.ofNat 6 (w / 256)) (.ofNat 6 (w / 16384)) (bitAt w 20) sc hint (.ofNat 5 (w / 134217728))) else
    .error .notAssigned
  | 0x4D =>
    if bitsAt w 21 1 == 0 then (Scope.ofCode (bitsAt w 24 3)).bind fun sc => (Hint.ofCode (bitsAt w 22 2)).bind fun hint => .ok (.take (.ofNat 6 (w / 256)) (.ofNat 6 (w / 16384)) (bitAt w 20) sc hint (.ofNat 5 (w / 134217728))) else
    .error .notAssigned
  | 0x4E =>
    (Scope.ofCode (bitsAt w 24 3)).bind fun sc => (Hint.ofCode (bitsAt w 22 2)).bind fun hint => .ok (.put (.ofNat 6 (w / 256)) (.ofNat 6 (w / 16384)) (bitAt w 20) (bitAt w 21) sc hint (.ofNat 5 (w / 134217728)))
  | 0x4F =>
    (Scope.ofCode (bitsAt w 24 3)).bind fun sc => (Hint.ofCode (bitsAt w 22 2)).bind fun hint => .ok (.putFullFault (.ofNat 6 (w / 256)) (.ofNat 6 (w / 16384)) (bitAt w 20) (bitAt w 21) sc hint (.ofNat 5 (w / 134217728)))
  | 0x50 =>
    if bitsAt w 21 1 == 0 && bitsAt w 24 3 == 0 then (Hint.ofCode (bitsAt w 22 2)).bind fun hint => .ok (.feq (.ofNat 6 (w / 256)) (.ofNat 6 (w / 16384)) (bitAt w 20) hint (.ofNat 5 (w / 134217728))) else
    .error .notAssigned
  | 0x51 =>
    if bitsAt w 8 6 == 0 && bitsAt w 21 1 == 0 && bitsAt w 25 2 == 0 then (Hint.ofCode (bitsAt w 22 2)).bind fun hint => .ok (.feset (.ofNat 6 (w / 16384)) (bitAt w 20) (bitAt w 24) hint (.ofNat 5 (w / 134217728))) else
    .error .notAssigned
  | 0x52 =>
    if bitsAt w 21 1 == 0 then (Scope.ofCode (bitsAt w 24 3)).bind fun sc => (Hint.ofCode (bitsAt w 22 2)).bind fun hint => .ok (.lrw (.ofNat 6 (w / 256)) (.ofNat 6 (w / 16384)) (bitAt w 20) sc hint (.ofNat 5 (w / 134217728))) else
    .error .notAssigned
  | 0x53 =>
    (Scope.ofCode (bitsAt w 24 3)).bind fun sc => (Hint.ofCode (bitsAt w 22 2)).bind fun hint => .ok (.sc (.ofNat 6 (w / 256)) (.ofNat 6 (w / 16384)) (bitAt w 20) (bitAt w 21) sc hint (.ofNat 5 (w / 134217728)))
  | 0x54 =>
    if bitsAt w 8 6 == 0 && bitsAt w 21 1 == 0 then (Scope.ofCode (bitsAt w 24 3)).bind fun sc => (Hint.ofCode (bitsAt w 22 2)).bind fun hint => .ok (.screl (.ofNat 6 (w / 16384)) (bitAt w 20) sc hint (.ofNat 5 (w / 134217728))) else
    .error .notAssigned
  | 0x55 =>
    if bitsAt w 8 6 == 0 && bitsAt w 19 13 == 0 then (FenceKind.ofCode (bitsAt w 17 2)).bind fun kind => (Scope.ofCode (bitsAt w 14 3)).bind fun sc => .ok (.fence kind sc) else
    .error .notAssigned
  | 0x56 =>
    if bitsAt w 8 6 == 0 && bitsAt w 16 16 == 0 then (PScope.ofCode (bitsAt w 14 2)).bind fun sc => .ok (.pfence sc) else
    .error .notAssigned
  | 0x57 =>
    if bitsAt w 8 24 == 0 then .ok (.ppoint) else
    .error .notAssigned
  | 0x58 =>
    if bitsAt w 8 6 == 0 && bitsAt w 21 1 == 0 && bitsAt w 24 3 == 0 then (Hint.ofCode (bitsAt w 22 2)).bind fun hint => .ok (.dclean (.ofNat 6 (w / 16384)) (bitAt w 20) hint (.ofNat 5 (w / 134217728))) else
    .error .notAssigned
  | 0x59 =>
    if bitsAt w 8 6 == 0 && bitsAt w 21 1 == 0 && bitsAt w 24 3 == 0 then (Hint.ofCode (bitsAt w 22 2)).bind fun hint => .ok (.dinval (.ofNat 6 (w / 16384)) (bitAt w 20) hint (.ofNat 5 (w / 134217728))) else
    .error .notAssigned
  | 0x5A =>
    if bitsAt w 8 24 == 65536 then .ok (.icinvalCell) else
    if bitsAt w 8 6 == 0 && bitsAt w 21 6 == 0 then .ok (.icinvalLine (.ofNat 6 (w / 16384)) (bitAt w 20) (.ofNat 5 (w / 134217728))) else
    .error .notAssigned
  | 0x5B =>
    if bitsAt w 8 24 == 0 then .ok (.fetchb) else
    .error .notAssigned
  | 0x5C =>
    if bitsAt w 8 6 == 0 && bitsAt w 21 1 == 0 && bitsAt w 24 3 == 0 then (Hint.ofCode (bitsAt w 22 2)).bind fun hint => .ok (.cpinPin (.ofNat 6 (w / 16384)) (bitAt w 20) hint (.ofNat 5 (w / 134217728))) else
    if bitsAt w 8 6 == 0 && bitsAt w 21 1 == 0 && bitsAt w 24 3 == 1 then (Hint.ofCode (bitsAt w 22 2)).bind fun hint => .ok (.cpinUnpin (.ofNat 6 (w / 16384)) (bitAt w 20) hint (.ofNat 5 (w / 134217728))) else
    .error .notAssigned
  | 0x60 =>
    if bitsAt w 31 1 == 0 then (VT.ofCode (bitsAt w 28 3)).bind fun t => .ok (.vadd (.ofNat 6 (w / 256)) (.ofNat 6 (w / 16384)) (.ofNat 6 (w / 1048576)) (bitAt w 26) (bitAt w 27) t) else
    if bitsAt w 31 1 == 1 then (VT.ofCode (bitsAt w 28 3)).bind fun t => .ok (.vsub (.ofNat 6 (w / 256)) (.ofNat 6 (w / 16384)) (.ofNat 6 (w / 1048576)) (bitAt w 26) (bitAt w 27) t) else
    .error .notAssigned
  | 0x61 =>
    if bitsAt w 31 1 == 0 then (VT.ofCode (bitsAt w 28 3)).bind fun t => .ok (.vmul (.ofNat 6 (w / 256)) (.ofNat 6 (w / 16384)) (.ofNat 6 (w / 1048576)) (bitAt w 26) (bitAt w 27) t) else
    if bitsAt w 30 2 == 2 then (FT.ofCode (bitsAt w 28 2)).bind fun t => .ok (.vdiv (.ofNat 6 (w / 256)) (.ofNat 6 (w / 16384)) (.ofNat 6 (w / 1048576)) (bitAt w 26) (bitAt w 27) t) else
    .error .notAssigned
  | 0x62 =>
    if bitsAt w 30 2 == 0 then (FT.ofCode (bitsAt w 28 2)).bind fun t => .ok (.vfma (.ofNat 6 (w / 256)) (.ofNat 6 (w / 16384)) (.ofNat 6 (w / 1048576)) (bitAt w 26) (bitAt w 27) t) else
    if bitsAt w 30 2 == 2 then (FT.ofCode (bitsAt w 28 2)).bind fun t => .ok (.vfms (.ofNat 6 (w / 256)) (.ofNat 6 (w / 16384)) (.ofNat 6 (w / 1048576)) (bitAt w 26) (bitAt w 27) t) else
    .error .notAssigned
  | 0x63 =>
    if bitsAt w 31 1 == 0 then (VT.ofCode (bitsAt w 28 3)).bind fun t => .ok (.vmin (.ofNat 6 (w / 256)) (.ofNat 6 (w / 16384)) (.ofNat 6 (w / 1048576)) (bitAt w 26) (bitAt w 27) t) else
    if bitsAt w 31 1 == 1 then (VT.ofCode (bitsAt w 28 3)).bind fun t => .ok (.vmax (.ofNat 6 (w / 256)) (.ofNat 6 (w / 16384)) (.ofNat 6 (w / 1048576)) (bitAt w 26) (bitAt w 27) t) else
    .error .notAssigned
  | 0x64 =>
    if bitsAt w 20 6 == 0 && bitsAt w 27 1 == 0 && bitsAt w 30 2 == 0 then (FT.ofCode (bitsAt w 28 2)).bind fun t => .ok (.vsqrt (.ofNat 6 (w / 256)) (.ofNat 6 (w / 16384)) (bitAt w 26) t) else
    if bitsAt w 20 6 == 1 && bitsAt w 27 1 == 0 && bitsAt w 30 2 == 0 then (FT.ofCode (bitsAt w 28 2)).bind fun t => .ok (.vrcp (.ofNat 6 (w / 256)) (.ofNat 6 (w / 16384)) (bitAt w 26) t) else
    if bitsAt w 20 6 == 2 && bitsAt w 27 1 == 0 && bitsAt w 30 2 == 0 then (FT.ofCode (bitsAt w 28 2)).bind fun t => .ok (.vrsq (.ofNat 6 (w / 256)) (.ofNat 6 (w / 16384)) (bitAt w 26) t) else
    if bitsAt w 20 6 == 3 && bitsAt w 27 1 == 0 && bitsAt w 31 1 == 0 then (VT.ofCode (bitsAt w 28 3)).bind fun t => .ok (.vabs (.ofNat 6 (w / 256)) (.ofNat 6 (w / 16384)) (bitAt w 26) t) else
    if bitsAt w 20 6 == 4 && bitsAt w 27 1 == 0 && bitsAt w 31 1 == 0 then (VT.ofCode (bitsAt w 28 3)).bind fun t => .ok (.vneg (.ofNat 6 (w / 256)) (.ofNat 6 (w / 16384)) (bitAt w 26) t) else
    .error .notAssigned
  | 0x65 =>
    if bitsAt w 31 1 == 0 then (Cond.ofCode (bitsAt w 11 3)).bind fun cond => (VT.ofCode (bitsAt w 28 3)).bind fun t => .ok (.vcmp (.ofNat 3 (w / 256)) cond (.ofNat 6 (w / 16384)) (.ofNat 6 (w / 1048576)) (bitAt w 26) (bitAt w 27) t) else
    .error .notAssigned
  | 0x66 =>
    if bitsAt w 31 1 == 0 then .ok (.vsel (.ofNat 6 (w / 256)) (.ofNat 6 (w / 16384)) (.ofNat 6 (w / 1048576)) (bitAt w 26) (bitAt w 27) (.ofNat 3 (w / 268435456))) else
    .error .notAssigned
  | 0x67 =>
    if bitsAt w 28 4 == 0 then .ok (.vand (.ofNat 6 (w / 256)) (.ofNat 6 (w / 16384)) (.ofNat 6 (w / 1048576)) (bitAt w 26) (bitAt w 27)) else
    if bitsAt w 28 4 == 1 then .ok (.vor (.ofNat 6 (w / 256)) (.ofNat 6 (w / 16384)) (.ofNat 6 (w / 1048576)) (bitAt w 26) (bitAt w 27)) else
    if bitsAt w 28 4 == 2 then .ok (.vxor (.ofNat 6 (w / 256)) (.ofNat 6 (w / 16384)) (.ofNat 6 (w / 1048576)) (bitAt w 26) (bitAt w 27)) else
    .error .notAssigned
  | 0x68 =>
    if bitsAt w 30 2 == 0 then (Width.ofCode (bitsAt w 28 2)).bind fun wid => .ok (.vshl (.ofNat 6 (w / 256)) (.ofNat 6 (w / 16384)) (.ofNat 6 (w / 1048576)) (bitAt w 26) (bitAt w 27) wid) else
    if bitsAt w 30 2 == 1 then (Width.ofCode (bitsAt w 28 2)).bind fun wid => .ok (.vshr (.ofNat 6 (w / 256)) (.ofNat 6 (w / 16384)) (.ofNat 6 (w / 1048576)) (bitAt w 26) (bitAt w 27) wid) else
    if bitsAt w 30 2 == 2 then (Width.ofCode (bitsAt w 28 2)).bind fun wid => .ok (.vshrArith (.ofNat 6 (w / 256)) (.ofNat 6 (w / 16384)) (.ofNat 6 (w / 1048576)) (bitAt w 26) (bitAt w 27) wid) else
    .error .notAssigned
  | 0x69 =>
    (CT.ofCode (bitsAt w 20 4)).bind fun src => (CT.ofCode (bitsAt w 28 4)).bind fun dst =>
    if bitAt w 27 then (RMode.ofCode (bitsAt w 24 2)).bind fun rm => .ok (.vcvt (.ofNat 6 (w / 256)) (.ofNat 6 (w / 16384)) (bitAt w 26) src dst (some rm))
    else need (bitsAt w 24 2 == 0) .notAssigned (.ok (.vcvt (.ofNat 6 (w / 256)) (.ofNat 6 (w / 16384)) (bitAt w 26) src dst none))
  | 0x6A =>
    if bitsAt w 30 2 == 3 then (Width.ofCode (bitsAt w 28 2)).bind fun wid => .ok (.vperm (.ofNat 6 (w / 256)) (.ofNat 6 (w / 16384)) (.ofNat 6 (w / 1048576)) (bitAt w 26) (bitAt w 27) wid) else
    if bitsAt w 20 6 == 0 && bitsAt w 27 1 == 0 && bitsAt w 30 2 == 0 then (Width.ofCode (bitsAt w 28 2)).bind fun wid => .ok (.vbcast (.ofNat 6 (w / 256)) (.ofNat 6 (w / 16384)) (bitAt w 26) wid) else
    if bitsAt w 30 2 == 1 then (Width.ofCode (bitsAt w 28 2)).bind fun wid => .ok (.vext (.ofNat 6 (w / 256)) (.ofNat 6 (w / 16384)) (.ofNat 6 (w / 1048576)) (bitAt w 26) (bitAt w 27) wid) else
    if bitsAt w 30 2 == 2 then (Width.ofCode (bitsAt w 28 2)).bind fun wid => .ok (.vins (.ofNat 6 (w / 256)) (.ofNat 6 (w / 16384)) (.ofNat 6 (w / 1048576)) (bitAt w 26) (bitAt w 27) wid) else
    .error .notAssigned
  | 0x6B =>
    if bitsAt w 27 1 == 0 && bitsAt w 31 1 == 0 then (RedOp.ofCode (bitsAt w 20 6)).bind fun op => (VT.ofCode (bitsAt w 28 3)).bind fun t => .ok (.vred (.ofNat 6 (w / 256)) (.ofNat 6 (w / 16384)) (bitAt w 26) op t) else
    if bitsAt w 31 1 == 1 then (VT.ofCode (bitsAt w 28 3)).bind fun t => .ok (.vdot (.ofNat 6 (w / 256)) (.ofNat 6 (w / 16384)) (.ofNat 6 (w / 1048576)) (bitAt w 26) (bitAt w 27) t) else
    .error .notAssigned
  | 0x6C =>
    if bitsAt w 28 4 == 0 then .ok (.mand (.ofNat 6 (w / 256)) (.ofNat 6 (w / 16384)) (.ofNat 6 (w / 1048576)) (bitAt w 26) (bitAt w 27)) else
    if bitsAt w 28 4 == 1 then .ok (.mor (.ofNat 6 (w / 256)) (.ofNat 6 (w / 16384)) (.ofNat 6 (w / 1048576)) (bitAt w 26) (bitAt w 27)) else
    if bitsAt w 28 4 == 2 then .ok (.mxor (.ofNat 6 (w / 256)) (.ofNat 6 (w / 16384)) (.ofNat 6 (w / 1048576)) (bitAt w 26) (bitAt w 27)) else
    if bitsAt w 20 6 == 0 && bitsAt w 27 5 == 6 then .ok (.mnot (.ofNat 6 (w / 256)) (.ofNat 6 (w / 16384)) (bitAt w 26)) else
    if bitsAt w 20 6 == 0 && bitsAt w 27 5 == 8 then .ok (.mpop (.ofNat 6 (w / 256)) (.ofNat 6 (w / 16384)) (bitAt w 26)) else
    if bitsAt w 27 5 == 10 then (MsetMode.ofCode (bitsAt w 20 6)).bind fun mode => .ok (.mset (.ofNat 6 (w / 256)) (.ofNat 6 (w / 16384)) (bitAt w 26) mode) else
    .error .notAssigned
  | 0x6E =>
    if bitsAt w 30 2 == 0 then .ok (.mma (.ofNat 6 (w / 256)) (.ofNat 6 (w / 16384)) (.ofNat 6 (w / 1048576)) (.ofNat 3 (w / 67108864)) (bitAt w 29)) else
    .error .notAssigned
  | 0x6F =>
    if bitsAt w 30 2 == 0 then .ok (.mmaz (.ofNat 6 (w / 256)) (.ofNat 6 (w / 16384)) (.ofNat 6 (w / 1048576)) (.ofNat 3 (w / 67108864)) (bitAt w 29)) else
    .error .notAssigned
  | 0x70 =>
    if bitsAt w 21 1 == 0 then (Hint.ofCode (bitsAt w 22 2)).bind fun hint => .ok (.tld (.ofNat 6 (w / 256)) (.ofNat 6 (w / 16384)) (bitAt w 20) (.ofNat 3 (w / 16777216)) hint (.ofNat 5 (w / 134217728))) else
    .error .notAssigned
  | 0x71 =>
    if bitsAt w 21 1 == 0 then (Hint.ofCode (bitsAt w 22 2)).bind fun hint => .ok (.tst (.ofNat 6 (w / 256)) (.ofNat 6 (w / 16384)) (bitAt w 20) (.ofNat 3 (w / 16777216)) hint (.ofNat 5 (w / 134217728))) else
    .error .notAssigned
  | 0x72 =>
    if bitsAt w 14 18 == 0 then .ok (.tzero (.ofNat 6 (w / 256))) else
    if bitsAt w 20 12 == 512 then .ok (.tcvt (.ofNat 6 (w / 256)) (.ofNat 6 (w / 16384))) else
    if bitsAt w 20 12 == 2048 then .ok (.ttrans (.ofNat 6 (w / 256)) (.ofNat 6 (w / 16384))) else
    if bitsAt w 26 6 == 16 then .ok (.tadd (.ofNat 6 (w / 256)) (.ofNat 6 (w / 16384)) (.ofNat 6 (w / 1048576))) else
    if bitsAt w 20 6 == 0 && bitsAt w 29 3 == 3 then .ok (.tscale (.ofNat 6 (w / 256)) (.ofNat 6 (w / 16384)) (.ofNat 3 (w / 67108864))) else
    if bitsAt w 20 6 == 0 && bitsAt w 29 3 == 5 then .ok (.trowv (.ofNat 6 (w / 256)) (.ofNat 6 (w / 16384)) (.ofNat 3 (w / 67108864))) else
    if bitsAt w 20 6 == 0 && bitsAt w 29 3 == 6 then .ok (.tvrow (.ofNat 6 (w / 256)) (.ofNat 6 (w / 16384)) (.ofNat 3 (w / 67108864))) else
    .error .notAssigned
  | 0x73 =>
    (Dim.ofCode (bitsAt w 28 4)).bind fun dim => .ok (.trange (.ofNat 6 (w / 256)) (.ofNat 6 (w / 16384)) (.ofNat 6 (w / 1048576)) (bitAt w 26) (bitAt w 27) dim)
  | 0x74 =>
    if bitsAt w 30 2 == 0 then .ok (.tfact (.ofNat 6 (w / 256)) (.ofNat 6 (w / 16384)) (.ofNat 6 (w / 1048576)) (.ofNat 3 (w / 67108864)) (bitAt w 29)) else
    .error .notAssigned
  | 0x75 =>
    if bitsAt w 26 3 == 0 then .ok (.tsolve (.ofNat 6 (w / 256)) (.ofNat 6 (w / 16384)) (.ofNat 6 (w / 1048576)) (bitAt w 29) (bitAt w 30) (bitAt w 31)) else
    .error .notAssigned
  | 0x77 =>
    if bitsAt w 8 6 == 0 && bitsAt w 20 6 == 0 && bitsAt w 27 5 == 0 then .ok (.accz (.ofNat 6 (w / 16384)) (bitAt w 26)) else
    if bitsAt w 28 4 == 1 then .ok (.accwp (.ofNat 6 (w / 256)) (.ofNat 6 (w / 16384)) (.ofNat 6 (w / 1048576)) (bitAt w 26) (bitAt w 27)) else
    if bitsAt w 20 6 == 0 && bitsAt w 27 5 == 4 then .ok (.accr (.ofNat 6 (w / 256)) (.ofNat 6 (w / 16384)) (bitAt w 26)) else
    if bitsAt w 20 6 == 0 && bitsAt w 27 5 == 6 then .ok (.accrFp64 (.ofNat 6 (w / 256)) (.ofNat 6 (w / 16384)) (bitAt w 26)) else
    if bitsAt w 8 6 == 0 && bitsAt w 28 4 == 4 then .ok (.accm (.ofNat 6 (w / 16384)) (.ofNat 6 (w / 1048576)) (bitAt w 26) (bitAt w 27)) else
    .error .notAssigned
  | 0x78 =>
    if bitsAt w 8 6 == 0 then (AccIn.ofCode (bitsAt w 28 4)).bind fun ty => .ok (.accw (.ofNat 6 (w / 16384)) (.ofNat 6 (w / 1048576)) (bitAt w 26) (bitAt w 27) ty) else
    .error .notAssigned
  | 0x79 =>
    if bitsAt w 28 4 == 0 then .ok (.ltag (.ofNat 6 (w / 256)) (.ofNat 6 (w / 16384)) (.ofNat 6 (w / 1048576)) (bitAt w 26) (bitAt w 27)) else
    if bitsAt w 28 4 == 3 then .ok (.lprod (.ofNat 6 (w / 256)) (.ofNat 6 (w / 16384)) (.ofNat 6 (w / 1048576)) (bitAt w 26) (bitAt w 27)) else
    if bitsAt w 28 4 == 4 then .ok (.lholds (.ofNat 6 (w / 256)) (.ofNat 6 (w / 16384)) (.ofNat 6 (w / 1048576)) (bitAt w 26) (bitAt w 27)) else
    if bitsAt w 28 4 == 5 then .ok (.lenv (.ofNat 6 (w / 256)) (.ofNat 6 (w / 16384)) (.ofNat 6 (w / 1048576)) (bitAt w 26) (bitAt w 27)) else
    if bitsAt w 28 4 == 7 then .ok (.lsel (.ofNat 6 (w / 256)) (.ofNat 6 (w / 16384)) (.ofNat 6 (w / 1048576)) (bitAt w 26) (bitAt w 27)) else
    if bitsAt w 20 6 == 0 && bitsAt w 27 5 == 12 then .ok (.lcnt (.ofNat 6 (w / 256)) (.ofNat 6 (w / 16384)) (bitAt w 26)) else
    if bitsAt w 20 6 == 0 && bitsAt w 27 5 == 16 then .ok (.nogood (.ofNat 6 (w / 256)) (.ofNat 6 (w / 16384)) (bitAt w 26)) else
    if bitsAt w 20 6 == 0 && bitsAt w 27 5 == 20 then .ok (.lcompact (.ofNat 6 (w / 256)) (.ofNat 6 (w / 16384)) (bitAt w 26)) else
    if bitsAt w 8 24 == 9437184 then .ok (.lsync) else
    if bitsAt w 27 5 == 2 then (RFile.ofCode (bitsAt w 20 6)).bind fun file => .ok (.lget (.ofNat 6 (w / 256)) (.ofNat 6 (w / 16384)) (bitAt w 26) file) else
    if bitsAt w 27 5 == 4 then (RFile.ofCode (bitsAt w 20 6)).bind fun file => .ok (.lset (.ofNat 6 (w / 256)) (.ofNat 6 (w / 16384)) (bitAt w 26) file) else
    .error .notAssigned
  | 0x7A =>
    if bitsAt w 8 24 == 3145728 then .ok (.abandon) else
    if bitsAt w 14 18 == 0 then .ok (.claim (.ofNat 6 (w / 256))) else
    if bitsAt w 14 18 == 16384 then .ok (.claimw (.ofNat 6 (w / 256))) else
    if bitsAt w 14 18 == 65536 then .ok (.cldrop (.ofNat 6 (w / 256))) else
    if bitsAt w 8 6 == 0 && bitsAt w 22 4 == 0 && bitsAt w 27 5 == 4 then (Hint.ofCode (bitsAt w 20 2)).bind fun cls => .ok (.fulfil (.ofNat 6 (w / 16384)) (bitAt w 26) cls) else
    .error .notAssigned
  | 0x7B =>
    if bitsAt w 20 6 == 0 && bitsAt w 27 5 == 6 then .ok (.slotq (.ofNat 6 (w / 256)) (.ofNat 6 (w / 16384)) (bitAt w 26)) else
    if bitsAt w 20 6 == 0 && bitsAt w 27 5 == 2 then .ok (.cpmc (.ofNat 6 (w / 256)) (.ofNat 6 (w / 16384)) (bitAt w 26)) else
    if bitsAt w 14 18 == 0 then .ok (.cpgo (.ofNat 6 (w / 256))) else
    if bitsAt w 8 6 == 0 && bitsAt w 28 4 == 2 then .ok (.slotret (.ofNat 6 (w / 16384)) (.ofNat 6 (w / 1048576)) (bitAt w 26) (bitAt w 27)) else
    if bitsAt w 8 6 == 0 && bitsAt w 28 4 == 4 then .ok (.tbinit (.ofNat 6 (w / 16384)) (.ofNat 6 (w / 1048576)) (bitAt w 26) (bitAt w 27)) else
    if bitsAt w 8 6 == 0 && bitsAt w 28 4 == 5 then .ok (.tbexp (.ofNat 6 (w / 16384)) (.ofNat 6 (w / 1048576)) (bitAt w 26) (bitAt w 27)) else
    if bitsAt w 8 6 == 0 && bitsAt w 23 3 == 0 && bitsAt w 27 5 == 12 then (Scope.ofCode (bitsAt w 20 3)).bind fun sc => .ok (.tbarr (.ofNat 6 (w / 16384)) (bitAt w 26) sc) else
    if bitsAt w 28 4 == 7 then .ok (.tbwait (.ofNat 6 (w / 256)) (.ofNat 6 (w / 16384)) (.ofNat 6 (w / 1048576)) (bitAt w 26) (bitAt w 27)) else
    if bitsAt w 28 4 == 8 then .ok (.tbtime (.ofNat 6 (w / 256)) (.ofNat 6 (w / 16384)) (.ofNat 6 (w / 1048576)) (bitAt w 26) (bitAt w 27)) else
    if bitsAt w 28 4 == 9 then .ok (.encpost (.ofNat 6 (w / 256)) (.ofNat 6 (w / 16384)) (.ofNat 6 (w / 1048576)) (bitAt w 26) (bitAt w 27)) else
    if bitsAt w 14 14 == 0 && bitsAt w 30 2 == 3 then (Hint.ofCode (bitsAt w 28 2)).bind fun hint => .ok (.gath (.ofNat 6 (w / 256)) hint) else
    .error .notAssigned
  | 0x7C =>
    if bitsAt w 8 24 == 1048576 then .ok (.strdone) else
    if bitsAt w 8 6 == 0 && bitsAt w 20 6 == 0 && bitsAt w 27 5 == 0 then .ok (.nsignal (.ofNat 6 (w / 16384)) (bitAt w 26)) else
    if bitsAt w 20 6 == 0 && bitAt w 27 == false && decide (2 ≤ bitsAt w 28 4 ∧ bitsAt w 28 4 ≤ 6) then (Lvl.ofCode (bitsAt w 28 4 - 2)).bind fun lvl => .ok (.cancel (.ofNat 6 (w / 256)) (.ofNat 6 (w / 16384)) (bitAt w 26) lvl) else
    if bitsAt w 20 6 == 0 && bitAt w 27 == false && decide (8 ≤ bitsAt w 28 4 ∧ bitsAt w 28 4 ≤ 12) then (Lvl.ofCode (bitsAt w 28 4 - 8)).bind fun lvl => .ok (.cntq (.ofNat 6 (w / 256)) (.ofNat 6 (w / 16384)) (bitAt w 26) lvl) else
    .error .notAssigned
  | 0x7D =>
    if bitsAt w 14 6 == 0 then (Cr.ofCode (bitsAt w 20 12)).bind fun cr => .ok (.mfcr (.ofNat 6 (w / 256)) cr) else
    .error .notAssigned
  | 0x7E =>
    if bitsAt w 8 24 == 2 then .ok (.eret) else
    if bitsAt w 8 6 == 0 && bitsAt w 20 12 == 0 then .ok (.mtcrStatus (.ofNat 6 (w / 16384))) else
    if bitsAt w 8 6 == 0 && bitsAt w 20 12 == 8 then .ok (.mtcrSpace (.ofNat 6 (w / 16384))) else
    if bitsAt w 8 6 == 0 && bitsAt w 20 12 == 48 then .ok (.mtcrSlotinit (.ofNat 6 (w / 16384))) else
    if bitsAt w 8 6 == 0 && bitsAt w 24 8 == 16 then .ok (.mtcrTcfg (.ofNat 4 (w / 1048576)) (.ofNat 6 (w / 16384))) else
    if bitsAt w 8 12 == 1 then .ok (.trap (.ofNat 12 (w / 1048576))) else
    if bitsAt w 8 6 == 3 then .ok (.signal (.ofNat 6 (w / 16384)) (.ofNat 12 (w / 1048576))) else
    if bitsAt w 8 6 == 4 then (CtxMode.ofCode (bitsAt w 20 12)).bind fun mode => .ok (.repart (.ofNat 6 (w / 16384)) mode) else
    if bitsAt w 8 6 == 5 then (TlbArea.ofCode (bitsAt w 20 12)).bind fun area => .ok (.tlbinv (.ofNat 6 (w / 16384)) area) else
    if bitsAt w 8 6 == 6 && bitsAt w 21 11 == 0 then .ok (.hinval (.ofNat 6 (w / 16384)) (bitAt w 20)) else
    if bitsAt w 8 6 == 7 && bitsAt w 28 4 == 0 then .ok (.routeset (.ofNat 6 (w / 16384)) (.ofNat 8 (w / 1048576))) else
    if bitsAt w 8 12 == 8 && bitsAt w 29 3 == 0 then .ok (.routeinv (.ofNat 8 (w / 1048576)) (bitAt w 28)) else
    if bitsAt w 8 6 == 0 then (WCr.ofCode (bitsAt w 20 12)).bind fun cr => .ok (.mtcr cr (.ofNat 6 (w / 16384))) else
    .error .notAssigned
  | _ => .error .reservedMajor

/-- The instruction that a 32-bit word encodes (bit 0 set, R74). -/
def decode32 (w : Nat) : Except Reject Instr := decodeMajor (w / 2 % 128) w

/-- The compact instruction of a compact opcode that a 16-bit parcel encodes (R79). -/
def decodeCompact (op w : Nat) : Except Reject Instr :=
  match op with
  | 1 => need (bitsAt w 13 3 == 0) .compactIllegal (.ok (.cMov (.ofNat 4 (w / 32)) (.ofNat 4 (w / 512))))
  | 2 => need (bitsAt w 13 3 == 0) .compactIllegal (.ok (.cAdd (.ofNat 4 (w / 32)) (.ofNat 4 (w / 512))))
  | 3 => need (bitsAt w 13 3 == 0) .compactIllegal (.ok (.cSub (.ofNat 4 (w / 32)) (.ofNat 4 (w / 512))))
  | 4 => need (bitsAt w 13 3 == 0) .compactIllegal (.ok (.cAnd (.ofNat 4 (w / 32)) (.ofNat 4 (w / 512))))
  | 5 => need (bitsAt w 13 3 == 0) .compactIllegal (.ok (.cOr (.ofNat 4 (w / 32)) (.ofNat 4 (w / 512))))
  | 6 => need (bitsAt w 13 3 == 0) .compactIllegal (.ok (.cXor (.ofNat 4 (w / 32)) (.ofNat 4 (w / 512))))
  | 7 => .ok (.cAddi (.ofNat 4 (w / 32)) (.ofNat 7 (w / 512)))
  | 8 => need (bitsAt w 15 1 == 0) .compactIllegal (.ok (.cShli (.ofNat 4 (w / 32)) (.ofNat 6 (w / 512))))
  | 9 => .ok (.cLi (.ofNat 4 (w / 32)) (.ofNat 7 (w / 512)))
  | 10 => .ok (.cLd (.ofNat 4 (w / 32)) (.ofNat 4 (w / 512)) (.ofNat 3 (w / 8192)))
  | 11 => .ok (.cSt (.ofNat 4 (w / 32)) (.ofNat 4 (w / 512)) (.ofNat 3 (w / 8192)))
  | 12 => .ok (.cBz (.ofNat 4 (w / 32)) (.ofNat 7 (w / 512)))
  | 13 => .ok (.cBnz (.ofNat 4 (w / 32)) (.ofNat 7 (w / 512)))
  | 14 => .ok (.cJ (.ofNat 11 (w / 32)))
  | 15 => need (bitsAt w 9 7 == 0) .compactIllegal (.ok (.cJr (.ofNat 4 (w / 32))))
  | _ => .error .compactIllegal

/-- The compact instruction that a 16-bit parcel encodes (bit 0 clear; R78). -/
def decode16 (w : Nat) : Except Reject Instr := decodeCompact (w / 2 % 16) w

/-- The instruction that a number made of two parcels begins with (R71): total, and refusing by name. -/
def decode (w : Nat) : Except Reject Instr := if w % 2 = 0 then decode16 (w % 65536) else decode32 (w % 4294967296)

/-- The number that bytes make, the first the least significant (R5). -/
def leNat : List Byte → Nat
  | [] => 0
  | b :: t => b.toNat + 256 * leNat t

/-- The `n` bytes of a number, the least significant first (R5). -/
def leBytes (w : Nat) : Nat → List Byte
  | 0 => []
  | n + 1 => BitVec.ofNat 8 w :: leBytes (w / 256) n

/-- Decodes the instruction at the head of a byte string, with the bytes that follow it. Bytes beyond the end read as 0. -/
def decodeBytes (bs : List Byte) : Except Reject (Instr × List Byte) :=
  (decode (leNat (bs.take 4))).map fun i => (i, bs.drop (wordLen (leNat (bs.take 1))))

/-- The instruction the decoder reads from an instruction of `nbits` bits whose bits are `w`, the bits above it 0. -/
def decodeTableWord (nbits w : Nat) : Option Instr :=
  match decodeBytes (leBytes (w % 2 ^ nbits) 4) with
  | .ok (i, _) => some i
  | .error _ => none

/-- The instruction image of an instruction, which TVAL reports (R72); 0 for an event. -/
def Instr.image (i : Instr) : Word := BitVec.ofNat 64 ((encode i).getD 0)

/-- The length of an instruction in bytes (R71). -/
def Instr.len (i : Instr) : Nat := wordLen ((encode i).getD 1)

end Sys2Proof
end

