-- ==== Sys2Proof/Machine/State.lean ====
section
/-! DEFINITION. The state of the whole device: every context, cell, column, home, label space, claim, engine, job, loop,
sensor and queue that the spec names, as plain data, and the state after reset. -/

namespace Sys2Proof.Machine

/-! ### Labels and registers -/

/-- A label as registers and memory carry it: space and handle (R13, R19). -/
structure Label where
  sp : BitVec 12
  h : BitVec 24
deriving DecidableEq, Repr

/-- The label that holds in every environment, handle 0x000000 (R19). -/
def Label.top : Label := ⟨0, 0⟩
/-- The label that holds in none, handle 0xFFFFFF (R19). -/
def Label.bot : Label := ⟨0, 0xFFFFFF⟩
/-- Whether a label is the top label; its space number is ignored (R19). -/
def Label.isTop (l : Label) : Bool := l.h == 0
/-- Whether a label is the bottom label (R19). -/
def Label.isBot (l : Label) : Bool := l.h == 0xFFFFFF
/-- Whether a label belongs to a space: neither top nor bottom. -/
def Label.proper (l : Label) : Bool := !l.isTop && !l.isBot

/-- What the product of labels comes to: a label, or an overflow of a kind (R23, R230). -/
inductive PRes where
  | lab (l : Label)
  | past (k : BitVec 2)
deriving DecidableEq, Repr

/-- Full/empty state of a register (R13). -/
inductive FE where
  | full | empty | faulted
deriving DecidableEq, Repr

/-- A register (R13). `val` of an empty register that waits only for its label is the value it will fill with; a faulted
register keeps the overflow detail `det` and the producing instruction's address `prod` (R230). `dueData` and `dueLab` say
what an empty register still waits for; the `lab` of one that waits for its label names the product's space (R20 rule 8). -/
structure Reg (α : Type) where
  val : α
  fe : FE
  lab : Label
  det : BitVec 2
  prod : Word
  dueData : Bool
  dueLab : Bool
deriving DecidableEq, Repr

/-- A full register with the label ⊤. -/
def Reg.of {α : Type} (v : α) : Reg α := ⟨v, .full, .top, 0, 0, false, false⟩

/-- A register of a context: its file and number (R11). -/
structure RegId where
  file : RFile
  n : Nat
deriving DecidableEq, Repr

/-- An exact floating-point value: (−1)^neg · mant · 2^exp with mant > 0, a signed zero, a signed infinity or NaN (R45). -/
inductive Fp where
  | zero (neg : Bool)
  | fin (neg : Bool) (mant : Nat) (exp : Int)
  | inf (neg : Bool)
  | nan
deriving DecidableEq, Repr

/-- An element of a tile: the bits of its format, or, in a tile of format 0x05 or 0x06, the exact value it holds (R212). -/
inductive Elem where
  | raw (b : BitVec 32)
  | val (x : Fp)
deriving DecidableEq, Repr

/-- A level of the loop stack (R144): body start and end, kind, maximum, pass value, condition register with its wait bit,
and the privilege level at entry. -/
structure Level where
  start : Word
  stop : Word
  cond : Bool
  max : Nat
  p : Nat
  c : BitVec 6
  wc : Bool
  pl : BitVec 2
deriving DecidableEq, Repr

/-- A bank of trap registers (R29). -/
structure Bank where
  tvec : Word
  tcause : Word
  tpc : Word
  tval : Word
deriving DecidableEq, Repr

/-! ### A context -/

/-- What a save image and a persistence image hold of a context (R186, R435): pc, STATUS (its LD field is the depth of
`loops`, innermost level first), the trap banks, the control registers, the register files, and a pending SIGNAL. -/
structure Arch where
  pc : Word
  status : Word
  sup : Bank
  mon : Bank
  space : Word
  view : Word
  lninfo : Word
  ggr : Word
  htbase : Word
  param : Word
  cpsrc : Word
  cpdst : Word
  cpshape : Word
  cpstr0 : Word
  cpstr1 : Word
  cpbar : Word
  cpfollow : Word
  slotinit : Word
  shadowiv : Word
  part : Word
  tcfg : Tab Word
  g : Tab (Reg Word)
  v : Tab (Reg (BitVec 512))
  k : Tab (Reg (List Elem))
  q : Tab (Reg Word)
  x : Tab (Reg Word)
  loops : List Level
  sig : Option Word
deriving DecidableEq, Repr

/-- A trap about to be taken: cause, detail, TVAL (R33), and the flags that the arithmetic fault leaves in STATUS (R121). -/
structure Trap where
  code : BitVec 8
  det : BitVec 4
  tval : Word
  flags : BitVec 6
deriving DecidableEq, Repr

/-- A fault that waits for a later boundary (R157, R182): at the next one, or at the first use of a register, the next release,
fence, point or retirement. `tpc` is the address that TPC names when it is not that of the instruction at the boundary (R333). -/
structure Deferred where
  trap : Trap
  reg : Option RegId
  tpc : Option Word
deriving DecidableEq, Repr

/-- One checked access to memory (R39, R152): the home byte address and size, and what its page and handle entry say. -/
structure Acc where
  addr : Nat
  size : Nat
  /-- The reference that faults report. -/
  ref : Word
  va : Word
  /-- 0 L1+L2, 1 L2 only, 2 none (R154); scratchpad counts as 2. -/
  cache : Nat
  wthru : Bool
  /-- Retention class stored with the line (R154). -/
  cls : BitVec 2
  /-- The page is writable (R305). -/
  pageWr : Bool
  /-- The label space of a labelled page, and the address of the first accessed word's label word (R343). -/
  lab : Option (BitVec 12 × Nat)
  /-- The race shadow word's address and the page's race action, on a race-detect page (R343). -/
  rdet : Option (Nat × Bool)
  host : Bool
deriving DecidableEq, Repr

/-- How loaded data fills its destination. -/
inductive LoadHow where
  /-- A scalar of `size` bytes, sign- or zero-extended (R159). -/
  | scalar (size : Nat) (signed : Bool)
  /-- Vector lanes: the loaded bytes, in the order of the accesses, go to these places (byte offset in the register, number of
  bytes); the other bytes stay (R164 to R167). -/
  | lanes (at_ : List (Nat × Nat))
  /-- Decoded elements as FP32 lanes (R165): lane numbers and values are formed at issue. -/
  | fp32 (bits : List (Nat × BitVec 32))
  /-- The state of a word, 1 full (R175). -/
  | fe
  /-- A tile: element size in bytes, one access an element (R215). -/
  | tile (size : Nat)
  /-- A tile whose elements were decoded exactly (R215 step 3). -/
  | elems (xs : List Elem)
deriving DecidableEq, Repr

/-- A value of a register file: a 64-bit word (g, q, x), a vector, or a tile. -/
inductive RV where
  | w (x : Word)
  | v (x : BitVec 512)
  | k (x : List Elem)
deriving DecidableEq, Repr

/-- A result not yet delivered: the register it fills, the value, the labels of the sources, and the instruction's address (R14). -/
structure Due where
  dst : RegId
  val : RV
  labs : List Label
  pc : Word
deriving DecidableEq, Repr

/-- An accumulator instruction to be performed (R67, R70, R225): the accumulator's address, whether it is cleared, the accumulator that is
added, the exact addend in units of 2^−320, and the status bits that are set. -/
structure AccOp where
  dst : Nat
  zero : Bool
  src : Option Nat
  delta : Int
  stat : Nat
  va : Word
  /-- The sequence number of the last point made before it issued (R379). -/
  point : Nat
deriving DecidableEq, Repr

/-- What an unanswered request holds back: a request at a home, later memory instructions (R174, R179); a PUT not yet queued,
the same; a claim, later memory and claim instructions (R247); a barrier wait (R270); and CLDROP, whose answer holds nothing back (R249).
A NOGOOD holds back every instruction (R240). The instructions that hold their own issue (PUT with full=fault, CLAIMW, FULFIL, ABANDON) use
`Ctx.hold` instead. -/
inductive WaitKind where
  | home | put | claim | bar | free | all
deriving DecidableEq, Repr

/-- An operation in flight that will fill a register of its context. -/
inductive Pend where
  /-- A load: destination, accesses, how the data fills, the labels of its registers, the acquire it performs (R159, R160),
  the instruction's address, and the destination's state and label from before it (R157). -/
  | load (dst : RegId) (accs : List Acc) (how : LoadHow) (labs : List Label) (acq : Option Scope) (pc : Word) (old : Reg Unit)
  /-- A request to another unit that is not yet answered (R174, R247, R270): what it holds back, its stamp, the register
  it fills, and that register's state and label from before it. -/
  | wait (kind : WaitKind) (stamp : Nat) (dst : Option RegId) (old : Reg Unit)
  /-- A division (R125). -/
  | div (r : Due)
  /-- A long vector operation or reduction (R208, R229). -/
  | vlong (r : Due)
  /-- An ACCR (R228). -/
  | acc (r : Due)
  /-- An outstanding ACCZ, ACCW, ACCWP or ACCM (R228). -/
  | accum (op : AccOp)
deriving DecidableEq, Repr

/-- An entry of a write-combining buffer (R307): line address, the page's cache level and policy, and the bytes and word labels
written. -/
structure WcbEntry where
  line : Nat
  va : Word
  cache : Nat
  wthru : Bool
  cls : BitVec 2
  bytes : Tab Byte
  labs : Tab (Nat × BitVec 32)
deriving DecidableEq, Repr

/-- A strand on a context (R411, R412): placement number, the node of the launch, rank, and the budget and note it runs with. -/
structure Strand where
  plc : Word
  job : Nat
  graph : Nat
  node : Nat
  rank : Nat
  note : BitVec 2
  part : BitVec 6
  /-- TSC at which its launch became ready (R422, R425). -/
  ready : Nat
  /-- Ticks it was resident before, TSC at which it took its context this time, and whether its overrun has been reported (R431). -/
  used : Nat
  since : Nat
  overrun : Bool
deriving DecidableEq, Repr

/-- Whether a context can issue. -/
inductive Run where
  /-- Holds no strand. -/
  | free
  | running
  /-- Halted by a double trap at monitor level (R34) or held halted (R386). -/
  | halted
  /-- Its column has no power. -/
  | dark
deriving DecidableEq, Repr

/-- An instruction that holds its context's issue until a unit has answered: what it asked, and the answer. -/
structure Hold where
  pc : Word
  ans : Option Word
deriving DecidableEq, Repr

/-- A persistence image (R377): sequence number, resume address, TSC, placement number, context mode, the save image and the
records of the copies in flight (R378: snapshot, slot, generation, sectors credited, receiver mask, barrier bytes). -/
structure CopyRec where
  snap : List Word
  slot : Nat
  gen : BitVec 2
  done : Nat
  mask : BitVec 16
  multi : Bool
  bar : Option (Word × Word)
deriving DecidableEq, Repr

/-- See `CopyRec`. -/
structure Image where
  seq : Nat
  rpc : Word
  tsc : Word
  strand : Strand
  mode : CtxMode
  arch : Arch
  copies : List CopyRec
  /-- Scratchpad lines the context wrote before the point (R379). -/
  lines : List Nat
  /-- Word 7 of the header as it was written last (R377, R379); 0 until then. -/
  crc : Word
  /-- The slot was written whole and BCH corrects every unit of it (R386): a torn or corrupted slot was not. -/
  valid : Bool
deriving DecidableEq, Repr

/-- A SIGNAL on its way (R284): the target value, the info, and the context and partition that sent it. -/
structure SignalReq where
  tgt : Word
  info : Word
  c : Nat
  part : BitVec 6
deriving DecidableEq, Repr

/-- A request to a unit that leaves its cell only once a point is complete (R391). -/
inductive Committed where
  | nsignal (job graph node : Nat)
  | signal (r : SignalReq)
  | slotret (sender c : Nat) (n : Word)
  | fulfil (ref : Word) (cls : BitVec 2)
  | abandon
deriving DecidableEq, Repr

/-- A context whose strand was pre-empted: what its save area holds (R434, R435). -/
structure Saved where
  arch : Arch
  strand : Strand
  pend : List Pend
  hold : Option Hold
  resv : List (Nat × Bool)
  deferred : List Deferred
  committed : List (Nat × Committed)
  devIrq : Option Word
  dlIrq : Option Word
  /-- Committed instructions that issue again after the restore, and TSC at the save (R433, R435). -/
  again : List Committed
  tsc : Word
  /-- A resume left it at its start, where its point is still to be made (R481), or found no valid image of it, and holds it halted (R386). -/
  start : Bool
  halted : Bool
deriving DecidableEq, Repr

/-- A TAKE or LRW whose result reached its context: the strand, the point last made before it, the word's virtual address and the value (R384). -/
structure Served where
  plc : Word
  seq : Nat
  va : Word
  val : Word
deriving DecidableEq, Repr

/-- A context (R1, R11). -/
structure Ctx where
  arch : Arch
  run : Run
  strand : Option Strand
  /-- Device, deadline and SIGNAL interrupts pending, with their TVAL (R36); SIGNAL is in `arch.sig`. -/
  devIrq : Option Word
  dlIrq : Option Word
  pend : List Pend
  /-- Oldest entry first, at most 4 (R307). -/
  wcb : List WcbEntry
  /-- Parcels fetched ahead, by address (R192). -/
  fbuf : Tab (BitVec 16)
  deferred : List Deferred
  /-- A page walk for this context ended at this address in a fault of this cause: the page fault, or the data error fault (R347, R350). -/
  walkFault : Option (Word × BitVec 8)
  /-- An Accord answer for an instruction that holds issue: the sources and the product (R155). -/
  labAns : Option (List Label × PRes)
  hold : Option Hold
  /-- Words (home byte addresses) on which the context holds a reservation or has one queued (R180, R181). -/
  resv : List (Nat × Bool)
  /-- Interval number (R324). -/
  ivl : BitVec 8
  /-- The image being written and the latest one waiting (R379), and the sequence number last used. -/
  writing : Option Image
  waiting : Option Image
  seq : Nat
  /-- Cycles of its cell at the creation of the last point (R188). -/
  pointCycle : Nat
  /-- Scratchpad lines that the context wrote and that are not yet shadowed (R379, R381): 16,384 times the cell, plus the line. -/
  dirtyLines : List Nat
  /-- Requests that wait for a point: the sequence number it must reach (R391). -/
  committed : List (Nat × Committed)
  /-- Abandoned committed instructions that are to issue again (R433). -/
  again : List Committed
  save : Option Saved
  /-- A peer access to a cell without power is being retried (R384). -/
  peerWait : Option Word
  /-- What peer devices' arrival ports answered for the instruction in its address phase, by reference and route: 0 passes, a check number, or 0x12 (R444). -/
  peerAns : List ((Word × Word) × Word)
  /-- TAKEs and LRWs delivered since the strand's resume point (R384). -/
  served : List Served
deriving DecidableEq, Repr

/-! ### A cell -/

/-- A line of the L1 (R334): bytes present, each with its dirty bit, and word labels present (address of the label word). -/
structure L1Line where
  line : Nat
  va : Word
  bytes : Tab (Byte × Bool)
  labs : Tab (Nat × BitVec 32 × Bool)
  pageWr : Bool
  wthru : Bool
  cls : BitVec 2
  /-- Dirty bytes of the line were lost to an uncorrectable error that no access and no write-back has met yet (R336). -/
  lost : Bool
deriving DecidableEq, Repr

/-- A handle entry: its four words (R24). -/
structure HEntry where
  w0 : Word
  w1 : Word
  w2 : Word
  w3 : Word
deriving DecidableEq, Repr

/-- A cached translation (R348): partition, first virtual address and size of the page, and its leaf entry (R345). -/
structure TlbEntry where
  part : BitVec 6
  va : Nat
  size : Nat
  pte : Word
deriving DecidableEq, Repr

/-- A product-cache entry (R360). -/
inductive PEntry where
  | product (sp : BitVec 12) (ha hb : BitVec 24) (res : PRes)
  | content (sp : BitVec 12) (h : BitVec 24) (envs : List Word)
deriving DecidableEq, Repr

/-- The registers a matrix instruction reads, as they stand when it reads them: tiles, vectors, masks and x registers. -/
structure MSrcs where
  k : Tab (Reg (List Elem))
  v : Tab (Reg (BitVec 512))
  q : Tab (Reg Word)
  x : Tab (Reg Word)
deriving DecidableEq, Repr

/-- A matrix instruction that the matrix unit has accepted (R213, R217): the instruction, its context, the rounding mode and tile
configurations read at issue, its cost, and, once started, the sources it took. -/
structure MatOp where
  ins : Instr
  c : Nat
  plc : Word
  rm : RMode
  cfgs : Tab Word
  cost : Nat
  pc : Word
  /-- The x register of a follow-on, read at CPGO (R261). -/
  xval : Option (Reg Word)
  srcs : Option MSrcs
  /-- Tiles as earlier producers left them while a later one was still to fill them (R213, R261). -/
  pre : Tab (Reg (List Elem))
  /-- Tiles of a follow-on that a TLD issued before it is still to fill, and its place in the launch order (R261). -/
  waits : List Nat
  order : Nat
  /-- Vectors, and mask and x registers, as they stood before a later instruction that is still to fill them (R213). -/
  preV : Tab (Reg (BitVec 512))
  preW : Tab (Reg Word)
deriving DecidableEq, Repr

/-- A node of a graph in progress: job, graph and node number. -/
structure NodeRef where
  job : Nat
  graph : Nat
  node : Nat
deriving DecidableEq, Repr

/-- A copy, multicast or encode job (R257, R396). -/
structure Copy where
  c : Nat
  plc : Word
  part : BitVec 6
  /-- CPSRC, CPDST, CPSHAPE, CPSTR0, CPSTR1, CPBAR, CPFOLLOW at the snapshot. -/
  snap : List Word
  /-- The handle entries of CPSRC and CPDST at the snapshot; none for a replayed copy whose entries can no longer be read. -/
  src : Option HEntry
  dst : Option HEntry
  multi : Bool
  mask : BitVec 16
  /-- The place of the job in the order in which the engine took its jobs (R322). -/
  order : Nat
  /-- Destination register that the transfer identifier fills, and the transfer identifier once there is one (R258). -/
  reg : Option RegId
  tid : Word
  /-- Destination bytes (source bytes for an encode) already moved. -/
  pos : Nat
  /-- Sectors counted so far, and sectors credited before a replay (R388). -/
  credited : Nat
  skip : Nat
  /-- Every byte is written, or the copy has stopped; credits may still be on their way. -/
  ended : Bool
  /-- Bytes of encoded blocks written so far (R402). -/
  out : Nat
  /-- Receivers lost or skipped (R263, R403). -/
  skipped : BitVec 16
  follow : Option MatOp
  /-- A replayed copy (R388): the sector count of each barrier it credits is restored. -/
  replay : Bool
  /-- The copy node whose job it is (R415). -/
  node : Option NodeRef
  /-- Words that its pieces written so far cover in part: offset from the destination entry's base, and the labels of those pieces (R255). -/
  parts : List (Int × List Label)
deriving DecidableEq, Repr

/-- A shadow copy of a scratchpad line (R375): data, full/empty bits, stamp, and whether BCH corrects it. -/
structure Shadow where
  data : BitVec 512
  fe : BitVec 8
  stamp : BitVec 32
  good : Bool
deriving DecidableEq, Repr

/-- A cell (R1). -/
structure Cell where
  mode : CtxMode
  /-- The slot that issues next (R8). -/
  slot : Nat
  /-- Physical cell index in the column (R30, R392). -/
  phys : Nat
  part : BitVec 6
  /-- Most recently used first. -/
  l1 : List L1Line
  icache : Tab (BitVec 512)
  hcache : Tab HEntry
  tlb : List TlbEntry
  pcache : List PEntry
  routes : Tab Word
  /-- Multicast free-slot counters by receiver (R263). -/
  slots : Tab (BitVec 8)
  /-- Copy slots in use, and their generations (R258). -/
  copies : Tab Copy
  gens : Tab (BitVec 2)
  /-- Copies waiting for a slot, oldest first. -/
  cwait : List Copy
  copyOrder : Nat
  /-- The slot whose line the engine moved last (R396). -/
  copyTurn : Nat
  /-- Copies whose follow-on waits to be offered (R261). -/
  follows : List (MatOp × Bool)
  matrix : List MatOp
  /-- Physical banks usable, and logical banks found failed in use (R330, R331). -/
  banks : Nat
  failedBanks : List Nat
  /-- Lines pending shadow, and the two shadow copies (R381). -/
  pendingShadow : List Nat
  shadowX : Tab Shadow
  shadowY : Tab Shadow
  restoreErr : List Nat
deriving DecidableEq, Repr

/-! ### Homes (R171) -/

/-- A full/empty or reservation request (R171 to R183). -/
inductive ReqKind where
  | lds | take | put | putFault | lrw
deriving DecidableEq, Repr

/-- See `ReqKind`. -/
structure Req where
  kind : ReqKind
  c : Nat
  plc : Word
  addr : Nat
  ref : Word
  va : Word
  dst : RegId
  scope : Scope
  data : Word
  refLab : Label
  dataLab : Label
  /-- The label word's address and space on a labelled page. -/
  lab : Option (BitVec 12 × Nat)
  stamp : Nat
  pc : Word
  /-- Arrival stamp, given when it first reaches its home (R176). -/
  arrival : Option Nat
  /-- The access's retention class, and whether it allocates in L2 (R338). -/
  cls : BitVec 2
  alloc : Bool
deriving DecidableEq, Repr

/-- Who waits at a barrier (R270), and the reference it gave. -/
structure BarWait where
  c : Nat
  plc : Word
  dst : RegId
  ph : BitVec 4
  scope : Scope
  /-- TSC at issue, and the limit of a TBTIME in ticks. -/
  t0 : Word
  lim : Option Nat
  stamp : Nat
  ref : Word
  /-- Arrival stamp, given when it first reaches the barrier's home (R176, R267). -/
  arrival : Option Nat
  /-- The instruction's address. -/
  pc : Word
deriving DecidableEq, Repr

/-- What the home of a word keeps (R171, R172, R179, R270): readers, writers, the reservation queue with its holder (if any) first,
and barrier waiters. -/
structure Home where
  readers : List Req
  writers : List Req
  holder : Option Req
  queue : List Req
  waiters : List BarWait
  /-- Cycles of its column at which the holder's LRW was served (R182). -/
  since : Nat
deriving DecidableEq, Repr

/-- A served result on its way to its context. -/
structure Delivery where
  req : Req
  val : Word
  lab : Label
deriving DecidableEq, Repr

/-- A store that goes straight to its home (R160, R304): the bytes, the word labels, a full/empty change, and what else
its arrival does. -/
inductive StoreKind where
  | plain | sync | feset (full : Bool)
deriving DecidableEq, Repr

/-- See `StoreKind`. -/
structure HomeStore where
  c : Nat
  kind : StoreKind
  acc : Acc
  bytes : List (Nat × Byte)
  labs : List (Nat × BitVec 32)
  scope : BitVec 3
  /-- The sequence number of the last point made before it issued (R379). -/
  point : Nat
deriving DecidableEq, Repr

/-- An SC or SCREL on its way to the home (R180). -/
structure Pass where
  c : Nat
  plc : Word
  addr : Nat
  va : Word
  store : Option (Word × Option (Nat × BitVec 32))
  cls : BitVec 2
  alloc : Bool
  /-- As in `HomeStore`. -/
  point : Nat
deriving DecidableEq, Repr

/-- A barrier request on its way to its home (R269, R270). -/
inductive BarOp where
  | init (n : BitVec 20)
  | expect (n : BitVec 32)
  | arrive
  | wait (w : BarWait)
deriving DecidableEq, Repr

/-- See `BarOp`. -/
structure BarReq where
  c : Nat
  addr : Nat
  ref : Word
  op : BarOp
  /-- As in `HomeStore`. -/
  point : Nat
deriving DecidableEq, Repr

/-! ### Labels: the Accord (R353 to R366) -/

/-- An entry of a label table (R356): environments in ascending order, the generation it was last filtered under, and the
bucket it is filed in (R357). -/
structure LEntry where
  envs : List Word
  fgen : Nat
  bucket : Nat
deriving DecidableEq, Repr

/-- A label space: its descriptor (R355) with its nogoods, and its label table. -/
structure Space where
  owner : BitVec 6
  live : Bool
  gen : Nat
  ng : List Word
  tbase : Nat
  tlog : Nat
  hwm : Nat
  ibase : Nat
  entries : Tab LEntry
deriving DecidableEq, Repr

/-- What a label request asks (R230, R234, R236, R238). -/
inductive Ask where
  /-- The product of the labels, in source order. -/
  | product (srcs : List Label)
  /-- LTAG: an environment added to a label, then the product with the label of b. -/
  | tag (la : Label) (e : Word) (lb : Label)
  /-- LCNT, LENV, LHOLDS: a count, an environment by number, a test. -/
  | count (l : Label)
  | env (l : Label) (i : Word)
  | holds (l : Label) (e : Word)
  /-- LGET and LSET: the label itself, filtered. -/
  | get (l : Label)
  | set (l : Label)
  /-- LSEL: the values and labels of a and b, and VIEW. -/
  | sel (l : Label) (view : Word) (b : Word) (lb : Label)
  /-- The content of a label, for an instruction that holds issue (R142). -/
  | content (l : Label)
deriving DecidableEq, Repr

/-- How far a label request has come. -/
inductive Stage where
  | asked
  /-- The serving unit formed this set, which the home unit interns. -/
  | formed (envs : List Word)
  /-- The answer: a label or an overflow, and, for an inspection, the value. -/
  | answered (res : PRes) (v : Word) (envs : List Word)
deriving DecidableEq, Repr

/-- A request to the Accord. -/
structure LabelJob where
  c : Nat
  plc : Word
  dst : Option RegId
  sp : BitVec 12
  ask : Ask
  stage : Stage
  pc : Word
  /-- The generation under which the serving unit evaluated it (R361). -/
  gen : Nat
deriving DecidableEq, Repr

/-- A filtered entry on its way from a unit to the home unit (R358). -/
structure Rewrite where
  unit : Nat
  sp : BitVec 12
  h : Nat
  envs : List Word
  gen : Nat
deriving DecidableEq, Repr

/-- A NOGOOD in progress (R240). -/
structure Nogood where
  c : Nat
  plc : Word
  dst : RegId
  sp : BitVec 12
  env : Word
  /-- none: not yet at the home; some: the result word, and the units whose broadcast and acknowledgement are outstanding. -/
  done : Option Word
  gen : Nat
  toLearn : List Nat
  toAck : List Nat
deriving DecidableEq, Repr

/-- An LCOMPACT in progress at its space's home unit (R243, R364): the next handle that the walk comes to. -/
structure Compact where
  c : Nat
  plc : Word
  sp : BitVec 12
  next : Nat
deriving DecidableEq, Repr

/-! ### Claims: the Alembic (R367 to R374) -/

/-- A claim name (R245). -/
structure CName where
  part : BitVec 6
  func : Word
  arg : Word
  ver : BitVec 32
deriving DecidableEq, Repr

/-- A parked waiter (R368). -/
structure CWaiter where
  c : Nat
  plc : Word
  stamp : Nat
deriving DecidableEq, Repr

/-- An entry of a partition (R368), listed most recently used first. -/
structure Claim where
  p : Nat
  set : Nat
  name : CName
  done : Bool
  maker : Nat
  makerPlc : Word
  waiters : List CWaiter
  result : Word
  cls : BitVec 2
deriving DecidableEq, Repr

/-- What a claim request asks (R244). -/
inductive ClaimKind where
  | claim | claimw | fulfil (ref : Word) (cls : BitVec 2) | abandon | cldrop
deriving DecidableEq, Repr

/-- A claim request on its way to its partition. -/
structure ClaimReq where
  kind : ClaimKind
  c : Nat
  plc : Word
  name : CName
  dst : RegId
  labs : List Label
  pc : Word
  stamp : Nat
deriving DecidableEq, Repr

/-- A claim answer on its way to its context: the code for d, the reference for x7, whether it acquires, and the register of the CLDROP that it answers
(none for a CLAIM or CLAIMW, of which a context has one at a time). -/
structure ClaimRet where
  c : Nat
  plc : Word
  code : Word
  ref : Word
  acq : Bool
  drop : Option RegId
deriving DecidableEq, Repr

/-- What a context's CLAIM or CLAIMW, which also fills x7, or CLDROP will fill when it returns. -/
structure ClaimOut where
  c : Nat
  plc : Word
  dst : RegId
  x7 : Bool
  labs : List Label
  pc : Word
deriving DecidableEq, Repr

/-! ### Engines -/

/-- A gather (R272 to R274, R404 to R406). -/
structure Gather where
  cell : Nat
  c : Nat
  plc : Word
  part : BitVec 6
  x0 : Word
  x1 : Word
  x2 : Word
  x3 : Word
  /-- The handle entries of x0, x1 and x3. -/
  e0 : HEntry
  e1 : HEntry
  e3 : HEntry
  hint : BitVec 2
  /-- The barrier's address and reference. -/
  bar : Nat
  ref : Word
  /-- Index values read so far, in order. -/
  idx : List Nat
  /-- Destination bytes passed so far, row after row. -/
  moved : Nat
  credited : Nat
  node : Option NodeRef
  /-- As in `Copy`. -/
  parts : List (Int × List Label)
  /-- Its number among all gathers, by which its credits are known (R411). -/
  gid : Nat
deriving DecidableEq, Repr

/-- Sectors to be subtracted from a barrier (R260). -/
structure Credit where
  addr : Nat
  n : Nat
  err : Bool
  /-- An encoder's arrival in place of sectors (R275). -/
  arrive : Bool
  /-- The strand whose transfer it is, and the copy slot (cell, slot) that waits for it. -/
  own : Option (Nat × Word)
  slot : Option (Nat × Nat)
  /-- The gather whose sectors they are. -/
  gid : Option Nat
deriving DecidableEq, Repr

/-- A frame offered to a stream (R275). -/
structure Frame where
  stream : Nat
  part : BitVec 6
  ref : Word
  /-- Virtual address of the frame; none when it does not lie in global memory. -/
  va : Option Nat
  pts : Word
  /-- The barrier's address and reference, and the context that posted the frame. -/
  bar : Option (Nat × Word)
  c : Nat
  /-- The strand, register and instruction whose status it fills, or the node that posted it (job, graph, node; R410). -/
  dst : Option Due
  plc : Word
  node : Option NodeRef
deriving DecidableEq, Repr

/-- A busy encoder (R408, R409). -/
structure Enc where
  frame : Frame
  tstart : Word
  read : Bool
  failed : Bool
  /-- The frame's bytes once it has been read. -/
  data : List Byte
  /-- TSC at the end of the encode, once it has come (R408). -/
  tend : Option Word
deriving DecidableEq, Repr

/-! ### Columns, scheduler, fabric, host -/

/-- A temperature sample: TSC, the three readings in hundredths of a degree, and the column's mean power over 1 ms in milliwatts (R468, R469). -/
structure Sample where
  tsc : Word
  ts : List Int
  mw : Nat
deriving DecidableEq, Repr

/-- A column (R1, R382, R429, R468, R469). -/
structure Column where
  cellPower : Bool
  stationPower : Bool
  tlb : List TlbEntry
  /-- The Accord unit's generation table, its nogood store of the complete lists of 32 spaces, and its cache of 2,048 table entries by space and handle,
  both most recently used first (R362). -/
  gens : Tab Nat
  lists : List (Nat × List Word)
  ecache : List ((Nat × Nat) × LEntry)
  gathers : List Gather
  /-- Sensors marked faulty; the last temperature, in two-hundredths of a degree; the thermal level; power above 90 % of rating or cap; the mean power of
  the last sample; the cap in watts (0 none). -/
  marked : List Nat
  temp : Option Int
  level : Nat
  hot : Bool
  mw : Nat
  cap : Nat
  droop : Bool
  /-- TSC at which the stretch in progress began, and whether its record has been written (R471). -/
  droopSince : Word
  droopNoted : Bool
  /-- Cycles of its cells up to the TSC that follows (R470). -/
  cycles : Nat
  cyclesAt : Word
  /-- The clock ceiling in MHz; 0 is no power. -/
  clock : Nat
  /-- TSC since which it is above its dispatch threshold. -/
  above : Word
  /-- The samples of the last 16 ms, the latest first. -/
  samples : List Sample
  /-- The loss of power has been reported to the Alembic (R372). -/
  reported : Bool
  /-- The power-down log of the column record (R375): for each loss its TSC and whether the station went too. -/
  powerLog : List (Word × Bool)
deriving DecidableEq, Repr

/-- A node's progress (R418 to R421). -/
inductive NState where
  /-- `held`: a node of a loop's body between iterations (R421). `ready`: a launch with strands to place. -/
  | held | waiting | ready | running | complete | skipped
deriving DecidableEq, Repr

/-- A node of a graph in progress. -/
structure Node where
  va : Word
  kind : Nat
  pred : Nat
  sig : Nat
  ran : Bool
  st : NState
  /-- Successor sets (R415). -/
  sets : List (List Nat)
  /-- The descriptor's words read at readiness. -/
  words : List Word
  /-- Launch: next rank to place, strands, strands not complete; loop: iterations done. -/
  next : Nat
  total : Nat
  left : Nat
  ready : Nat
  /-- The node has nothing left to do, and takes this set at completion; none takes no set (R421, R426, R432). -/
  decided : Bool
  taken : Option Nat
  /-- Smallest loop body that holds the node: its loop node. -/
  body : Option Nat
  /-- The dispatch stall of this episode has been recorded (R429). -/
  stalled : Bool
deriving DecidableEq, Repr

/-- A graph in progress. -/
structure Graph where
  va : Word
  nodes : List Node
  done : Bool
  /-- The successor array, as it was read when the graph started (R418). -/
  succ : List Nat
deriving DecidableEq, Repr

/-- A contract (R427). -/
structure Contract where
  ovr : Bool
  mode : Nat
  period : Nat
  budget : Nat
  deadline : Nat
  first : Word
  graph : Word
  notify : BitVec 14
  ctxs : List Nat
  /-- The number of the next release. -/
  release : Nat
  misses : Nat
  /-- The last release reported as a miss, and the release whose graph was started last (R430, R431). -/
  missed : Option Nat
  running : Option Nat
deriving DecidableEq, Repr

/-- A job in progress (R413). -/
structure Job where
  id : Nat
  part : BitVec 6
  va : Word
  jid : BitVec 32
  ptab : Word
  nph : Nat
  cword : Word
  phase : Nat
  graphs : List Graph
  graphErr : Bool
  contract : Option Contract
  /-- The job has ended (R417). -/
  done : Bool
deriving DecidableEq, Repr

/-- An answer of the scheduler on its way (R279): what CANCEL returns, or the object whose counter CNTQ is to return, with the strand that
asked. -/
structure Answer where
  c : Nat
  plc : Word
  dst : RegId
  pc : Word
  val : Option Word
  strand : Strand
  lvl : Lvl
  obj : Word
deriving DecidableEq, Repr

/-- A loop of the fabric (R437): 0 active, 1 failed, 2 spare idle. -/
structure LoopSt where
  st : Nat
  rank : Nat
  order : List Nat
deriving DecidableEq, Repr

/-- An error record (R463). -/
structure Rec where
  tsc : Word
  skind : BitVec 2
  src : BitVec 14
  code : BitVec 8
  sev : BitVec 3
  part : BitVec 6
  obj : Word
  det : Word
deriving DecidableEq, Repr

/-- An MSI-X vector (R454). -/
structure Vec where
  masked : Bool
  pending : Bool
  sent : Nat
deriving DecidableEq, Repr

/-- The firmware mailbox (R474): word 0, and the arguments in words 1 to 4. -/
structure Mailbox where
  op : BitVec 8
  busy : Bool
  status : BitVec 8
  args : List Word
  /-- The status that the command in progress will end with; none while it cannot be performed yet. -/
  result : Option (BitVec 8)
  /-- TSC at which the command in progress was written (R394). -/
  since : Word
deriving DecidableEq, Repr

/-- Per-partition facts that monitor firmware and the host keep (R345, R367, R443, R193, R453, R465, R115). -/
structure Part where
  /-- Physical address of the page-table root. -/
  root : Nat
  /-- Alembic allowed mask AM, and allowed station mask. -/
  am : BitVec 64
  stations : BitVec 76
  holdLimit : Nat
  pinQuota : Nat
  /-- Submission queue, accepted count, overflow (R453). -/
  queue : List Word
  acc : BitVec 32
  ovf : Bool
  /-- Error-record ring: physical base and size, 0 when firmware has set none. -/
  ring : Nat
  ringSize : Nat
  nonEmpty : Bool
  /-- Loader handle table (R115). -/
  ltable : Option Word
deriving DecidableEq, Repr

/-- A line's standing in L2 (R193, R338): retention class, pinned, dirty, most recently used first in the list. -/
structure L2Line where
  line : Nat
  cls : BitVec 2
  pinned : Bool
  dirty : Bool
  part : BitVec 6
deriving DecidableEq, Repr

/-- A slice's quarantine (R351). -/
structure Slice where
  quar : List Nat
  held : Bool
  retired : Bool
  /-- All-pinned bypasses counted in the 1 ms of TSC numbered `period` (R339). -/
  bypasses : Nat
  period : Nat
  /-- Pins refused (R193). -/
  refusals : Nat
  wayGroup : Bool
deriving DecidableEq, Repr

/-- The header of a checkpoint segment (R394). -/
structure Segment where
  kind : Nat
  unit : Nat
  base : Nat
  len : Nat
  tsc : Word
  dig : BitVec 512
deriving DecidableEq, Repr

/-- A whole-device checkpoint as the host holds it (R393, R394): the headers of its segments, and what their bytes hold. -/
structure Checkpoint where
  segs : List Segment
  mem : List Host.Cell
  images : Tab (Option Image × Option Image)
  shadows : Tab (Tab Shadow × Tab Shadow)
  modes : Tab CtxMode
  spaces : Tab Space
  /-- The column records (R375): power-down logs, restore-error lists by cell, quarantine tables by slice. -/
  logs : Tab (List (Word × Bool))
  errs : Tab (List Nat)
  quars : Tab (List Nat)
  tsc : Word
deriving DecidableEq, Repr

/-- A page walk of a tower, under way or waiting for a walker (R348): partition, virtual address, the contexts that wait for it, its arrival stamp, and the
columns whose engines wait for it. -/
structure Walk where
  tower : Nat
  part : BitVec 6
  va : Word
  ctxs : List Nat
  stamp : Nat
  cols : List Nat
deriving DecidableEq, Repr

/-- A correctable-error counter (R467): events in the window that began at `since`, and events over its life. -/
structure ErrCount where
  n : Nat
  since : Word
  life : Nat
deriving DecidableEq, Repr

/-- What has become of an image at a cell (R116, R117): it waits for it, has verified it, found its digest wrong, or is not sent it. -/
inductive Receipt where
  | waits | verified | failed | cut
deriving DecidableEq, Repr

/-- A cell of a load in progress (R111): its parent in the boot tree (none for a root) and its image. -/
structure LoadCell where
  cell : Nat
  parent : Option Nat
  img : Nat
  st : Receipt
deriving DecidableEq, Repr

/-- A load in progress, or one that has failed (R117): its partition, the virtual addresses and sizes of its code sections, the digests of its images, the
bytes that each cell of an image is sent, and its cells. -/
structure Load where
  part : BitVec 6
  code : List (Nat × Nat)
  digests : Tab (BitVec 512)
  inputs : Tab (List Byte)
  cells : List LoadCell
  failed : Bool
deriving DecidableEq, Repr

/-- What firmware names in the Sillage map (R341, R355, R442, R448): where the map, the space descriptors and the system route table lie, the length of the host
memory range, and the device's number. -/
structure FwTables where
  map : Nat
  spdesc : Nat
  sysrt : Nat
  hlen : Nat
  dev : Nat
deriving DecidableEq, Repr

/-- The device. -/
structure State where
  /-- The outside world's and the units' steps that come next, in order (log 1). -/
  agenda : List Instr
  /-- How many free choices have been made; each takes the next number (log 3). -/
  tick : Nat
  tsc : Word
  /-- The context whose instruction `exec` runs. -/
  cur : Nat
  mem : List Host.Cell
  ctxs : Tab Ctx
  cells : Tab Cell
  cols : Tab Column
  parts : Tab Part
  spaces : Tab Space
  /-- Uncorrectable data (R157): lines of DRAM, and lines that L2 holds, by line address, and words of scratchpad by word address. -/
  bad : List Nat
  badL2 : List Nat
  badWords : List Nat
  /-- What has come up outside the machine's own steps and has not yet taken effect (log 78). -/
  outer : List Config.Outer
  l2 : List L2Line
  slices : Tab Slice
  /-- Requests on their way to homes, refused ones, those kept for a column without power, served results, stores, passes, notices. -/
  reqs : List Req
  refused : List Req
  kept : List Req
  deliveries : List Delivery
  stores : List HomeStore
  passes : List Pass
  notices : List Req
  homes : Tab Home
  stamp : Nat
  barReqs : List BarReq
  /-- A barrier wait served or expired, on its way to its context, with its value and whether it acquires. -/
  barRets : List (BarWait × Word × Bool)
  /-- Shadow lines and images of the Flacon layer (R375): images by context. -/
  images : Tab (Option Image × Option Image)
  labelJobs : List LabelJob
  rewrites : List Rewrite
  nogoods : List Nogood
  compacts : List Compact
  claims : List Claim
  claimReqs : List ClaimReq
  claimRets : List ClaimRet
  claimOuts : List ClaimOut
  walks : List Walk
  credits : List Credit
  /-- SLOTRET requests: the sender's cell, the context that returns, the number. -/
  slotRets : List (Nat × Nat × Word)
  frames : List Frame
  streams : Tab (List Frame)
  encs : Tab Enc
  /-- Frames encoded of each stream since it was configured (R407 gop). -/
  frameCount : Tab Nat
  strdesc : Nat
  signals : List SignalReq
  /-- NSIGNALs on their way: job, graph, node, and the context that sent it. -/
  nsignals : List (Nat × Nat × Nat × Nat)
  /-- CANCEL and CNTQ answers on their way. -/
  answers : List Answer
  jobs : List Job
  jobSeq : Nat
  placements : Word
  lastCol : Nat
  stations : Tab Nat
  loops : Tab LoopSt
  ports : Tab Nat
  sysroutes : Tab Word
  /-- Pairs of stations whose failing system route has been recorded (R443). -/
  heldRoutes : List (Nat × Nat)
  bubbles : Tab Nat
  /-- Packets that left through a device-link port and wait for the peer's check (R444): context, reference and route. -/
  peerOut : List (Nat × Word × Word)
  recs : List Rec
  /-- Correctable-error counters, by storage kind and unit. -/
  errCounts : Tab ErrCount
  /-- The threshold of these counters and their window in ticks of TSC, as firmware sets them (R352, R467). -/
  errThreshold : Nat
  errWindow : Nat
  vecs : Tab Vec
  mailbox : Mailbox
  /-- Sillage map: where it and the tables it names lie; sequence number; spare cells in use by column. -/
  fw : FwTables
  mapSeq : Nat
  /-- A station's status has changed since the map was written last. -/
  mapStale : Bool
  /-- The words of an update of the map that firmware has not written yet, while one is under way (R449). -/
  mapNext : Option (List (Nat × Word))
  /-- What the host's last read returned (R452, R453). -/
  hostRead : Word
  spareUsed : List Nat
  /-- Digests of the keys in fuses with their revocation (R475); A and the log; keys for KOF files. -/
  fuses : List (BitVec 512 × Bool)
  attestA : BitVec 512
  attestLog : List (BitVec 512)
  attestOut : List Byte
  booted : Bool
  /-- The device halted at boot, for the reason in BAR0 (R475). -/
  halted : Option Word
  /-- The digest of the image each cell has verified, and the loads in progress (R116, R117). -/
  received : Tab (BitVec 512)
  loads : List Load
  /-- The power cap of the whole device in watts (0 none). -/
  deviceCap : Nat
  checkpoint : Option Checkpoint
  dispatch : Bool
deriving DecidableEq, Repr

/-! ### How a step can stop -/

/-- What stops the machine. -/
inductive Fault where
  /-- An access to a physical address that is neither device DRAM nor host memory (R341): raised by every access whose
  page maps it. Safe: the spec gives such an access no effect. -/
  | noSuchAddress
deriving DecidableEq, Repr

/-- Why an instruction has no meaning. -/
inductive Refusal where
  /-- The instruction is not modelled yet; raised by `exec` alone. Safe. -/
  | notModelled (mnemonic : String)
deriving DecidableEq, Repr

/-! ### Reset (R8, R17, R27, R30, R263, R329, R342, R412, R437, R441, R453, R477) -/

/-- A bank of trap registers at reset (R27). -/
def Bank.reset : Bank := ⟨0, 0, 0, 0⟩

/-- A context's registers at reset: STATUS 3, SHADOWIV 65,536, everything else zero (R27, R30); the data registers, which R17
sets at each strand's start, are given the same values here (log 10); pc 0 (log 11). -/
def Arch.reset : Arch where
  pc := 0
  status := 3
  sup := .reset
  mon := .reset
  space := 0
  view := 0
  lninfo := 0
  ggr := 0
  htbase := 0
  param := 0
  cpsrc := 0
  cpdst := 0
  cpshape := 0
  cpstr0 := 0
  cpstr1 := 0
  cpbar := 0
  cpfollow := 0
  slotinit := 0
  shadowiv := 65536
  part := 0
  tcfg := []
  g := []
  v := []
  k := []
  q := []
  x := []
  loops := []
  sig := none

/-- A context at reset: it holds no strand (R477). -/
def Ctx.reset : Ctx where
  arch := .reset
  run := .free
  strand := none
  devIrq := none
  dlIrq := none
  pend := []
  wcb := []
  fbuf := []
  deferred := []
  walkFault := none
  labAns := none
  hold := none
  resv := []
  ivl := 0
  writing := none
  waiting := none
  seq := 0
  pointCycle := 0
  dirtyLines := []
  committed := []
  again := []
  save := none
  peerWait := none
  peerAns := []
  served := []

/-- A cell at reset: 16-context mode (R8), all banks usable, counters 0 (R263), route cache empty (R441). -/
def Cell.reset (n : Nat) : Cell where
  mode := .m16
  slot := 0
  phys := n % 16
  part := 0
  l1 := []
  icache := []
  hcache := []
  tlb := []
  pcache := []
  routes := []
  slots := []
  copies := []
  gens := []
  cwait := []
  copyOrder := 0
  copyTurn := 0
  follows := []
  matrix := []
  banks := 17
  failedBanks := []
  pendingShadow := []
  shadowX := []
  shadowY := []
  restoreErr := []

/-- A home with nothing queued. -/
def Home.none : Home := ⟨[], [], Option.none, [], [], 0⟩

/-- A column at reset. -/
def Column.reset : Column where
  cellPower := true
  stationPower := true
  tlb := []
  gens := []
  lists := []
  ecache := []
  gathers := []
  marked := []
  temp := none
  level := 0
  hot := false
  mw := 0
  cap := 0
  droop := false
  droopSince := 0
  droopNoted := false
  cycles := 0
  cyclesAt := 0
  clock := 4000
  above := 0
  samples := []
  reported := true
  powerLog := []

/-- A partition as firmware starts it (R339, R367, R453). -/
def Part.reset : Part := ⟨0, BitVec.allOnes 64, BitVec.allOnes 76, Config.holdLimit, Config.pinQuota, [], 0, false, 0, 0, false, none⟩

/-- A slice at reset. -/
def Slice.reset : Slice := ⟨[], false, false, 0, 0, 0, false⟩

/-- The device after a cold start: no strand anywhere, memory as it reads unwritten, TSC 0, and the record of the start in the monitor queue (R477, R482). DESIGN
CHOICE (log 79): where firmware has put the map and the
tables that it names, and the device's number. -/
def State.reset : State where
  agenda := []
  tick := 1
  tsc := 0
  cur := 0
  mem := []
  ctxs := []
  cells := []
  cols := []
  parts := [(63, { Part.reset with nonEmpty := true })]
  spaces := []
  bad := []
  badL2 := []
  badWords := []
  outer := []
  l2 := []
  slices := []
  reqs := []
  refused := []
  kept := []
  deliveries := []
  stores := []
  passes := []
  notices := []
  homes := []
  stamp := 0
  barReqs := []
  barRets := []
  images := []
  labelJobs := []
  rewrites := []
  nogoods := []
  compacts := []
  claims := []
  claimReqs := []
  claimRets := []
  claimOuts := []
  walks := []
  credits := []
  slotRets := []
  frames := []
  streams := []
  encs := []
  frameCount := []
  strdesc := Config.strdescBase
  signals := []
  nsignals := []
  answers := []
  jobs := []
  jobSeq := 0
  placements := 0
  lastCol := 63
  stations := []
  loops := []
  ports := []
  sysroutes := []
  heldRoutes := []
  bubbles := []
  peerOut := []
  recs := [⟨0, 3, 0, 0x4E, Config.severity 0x4E, 63, Config.freeWord 0, 0⟩]
  errCounts := []
  errThreshold := 16
  errWindow := 1000000000
  vecs := [(1025, ⟨false, false, 1⟩)]
  mailbox := ⟨0, false, 0, [], none, 0⟩
  fw := ⟨Config.mapBase, Config.spdescBase, Config.sysrtBase, Config.hostLength, 0⟩
  mapSeq := 0
  mapStale := false
  mapNext := none
  hostRead := 0
  spareUsed := []
  fuses := []
  attestA := 0
  attestLog := []
  attestOut := []
  booted := true
  halted := none
  received := []
  loads := []
  deviceCap := 0
  checkpoint := none
  dispatch := true

end Sys2Proof.Machine
end

