-- ==== Sys2Proof/Machine/BringUp.lean ====
section
/-! DEFINITION. What monitor firmware writes at bring-up, before anything has failed or been changed: the loops (R437), the system routes (R478), and the words of the
Sillage map and of the system route table (R442, R448). -/

namespace Sys2Proof.Machine

/-! ### Loops and routes (R436, R437, R478) -/

/-- The stations of a tower, ascending (R436). -/
def towerStations (t : Nat) : List Nat := (List.range 19).map fun j => 19 * t + j
/-- The towers of bridge pair `p` (R437). -/
def bridgePair (p : Nat) : Nat × Nat :=
  match p with
  | 0 => (0, 1)
  | 1 => (0, 2)
  | 2 => (0, 3)
  | 3 => (1, 2)
  | 4 => (1, 3)
  | _ => (2, 3)

/-- A loop as firmware brings it up (R437). -/
def loopDefault (l : Nat) : LoopSt :=
  if l < 8 then ⟨0, 16, if l % 2 = 0 then towerStations (l / 2) else (towerStations (l / 2)).reverse⟩
  else if l < 20 then
    let ab := bridgePair ((l - 8) / 2)
    let up := towerStations ab.1 ++ towerStations ab.2
    ⟨0, 32, if l % 2 = 0 then up else up.reverse⟩
  else ⟨2, 48, []⟩

/-- The system route of a pair of stations that monitor firmware writes at bring-up (R478): one segment, over a tower loop inside a
tower and over a bridge loop between two. -/
def sysRouteDefault (src dst : Nat) : Word :=
  if src = dst then BitVec.allOnes 64
  else
    let ta := src / 19
    let tb := dst / 19
    let (a, b) := if ta < tb then (ta, tb) else (tb, ta)
    let p := ((List.range 6).find? fun p => bridgePair p == (a, b)).getD 0
    let l := if ta = tb then 2 * ta else 8 + 2 * p
    BitVec.ofNat 64 (2 ^ 64 - 2 ^ 16 + l * 256 + dst)

/-! ### The words of the map (R448) -/

/-- Byte offsets of the station, loop, port and spare tables behind the header of 128 bytes, and the map's size. -/
def mapSto : Nat := 128
def mapLpo : Nat := mapSto + 8 * 76
def mapPto : Nat := mapLpo + 64 * 24
def mapSpo : Nat := mapPto + 16 * 8
def mapSize : Nat := mapSpo + 8 * 64

/-- The words of the header, with the sequence number, where the stream descriptors lie, and what firmware names. -/
def headerWords (seq strdesc : Nat) (fw : FwTables) : List Word :=
  [1 + 76 * 2 ^ 16 + 24 * 2 ^ 32 + 8 * 2 ^ 48, seq, mapSto, mapLpo, mapPto, mapSpo, Config.metaBase, Config.hostBase, fw.hlen, fw.spdesc, strdesc, fw.dev,
    fw.sysrt, 0, 0, 0].map (BitVec.ofNat 64)

/-- The entry of a station with its status; the column of a station that is none's is 0 (log 66). -/
def stationWord (n st : Nat) : Word :=
  let j := n % 19
  let kind := if j < 16 then 0 else if j < 18 then 1 else 2
  BitVec.ofNat 64 (n + kind * 2 ^ 7 + n / 19 * 2 ^ 10 + (if j < 16 then j else 0) * 2 ^ 12 + st * 2 ^ 16)

/-- The words of a loop's entry: number, kind, rank, state, stations visited, hop latency, and the stations in travel order. -/
def loopWords (l : Nat) (x : LoopSt) : List Word :=
  let kind := if l < 8 then 0 else if l < 20 then 1 else 2
  let order := (x.order ++ List.replicate 38 0xFF).take 38 ++ [0, 0]
  BitVec.ofNat 64 (l + kind * 2 ^ 5 + x.rank * 2 ^ 8 + x.st * 2 ^ 16 + x.order.length * 2 ^ 18 + (Config.hopLatency l).val * 2 ^ 24)
    :: ((List.range 5).map fun i => BitVec.ofNat 64 (((order.drop (8 * i)).take 8).foldr (fun b w => w * 256 + b) 0)) ++ [0, 0]

/-- The words of a port's entry: its station, status, peer and latency. -/
def portWords (p st : Nat) : List Word :=
  [BitVec.ofNat 64 (p + (19 * (p / 2) + 18) * 2 ^ 3 + st * 2 ^ 10 + (Config.peerDevice p).toNat * 2 ^ 12 + (Config.peerPort p).toNat * 2 ^ 28
    + (Config.linkLatency p).toNat * 2 ^ 32), 0]

/-- Word `i` of the map at bring-up. -/
def mapInit (i : Nat) : Word :=
  if i < 16 then (headerWords 0 Config.strdescBase ⟨Config.mapBase, Config.spdescBase, Config.sysrtBase, Config.hostLength, 0⟩).getD i 0
  else if i < mapLpo / 8 then stationWord (i - 16) 0
  else if i < mapPto / 8 then (loopWords ((i - mapLpo / 8) / 8) (loopDefault ((i - mapLpo / 8) / 8))).getD ((i - mapLpo / 8) % 8) 0
  else if i < mapSpo / 8 then (portWords ((i - mapPto / 8) / 2) 0).getD ((i - mapPto / 8) % 2) 0
  else 1

/-- The word of the map or of the system route table that firmware's bring-up leaves at an address, if one of them lies there. -/
def bringUpWord (a : Nat) : Option Word :=
  if Config.mapBase ≤ a ∧ a < Config.mapBase + mapSize then some (mapInit ((a - Config.mapBase) / 8))
  else if Config.sysrtBase ≤ a ∧ a < Config.sysrtBase + 8 * 5776 then
    some (sysRouteDefault ((a - Config.sysrtBase) / 8 / 76) ((a - Config.sysrtBase) / 8 % 76))
  else none

end Sys2Proof.Machine
end

