-- ==== Sys2Proof/Machine/Ops.lean ====
section
/-! DEFINITION. The named operations over the state: reaching a context, cell, column, partition or home; bytes and words of
memory; bit fields of a register; the full/empty bits; registers of every file; error records; what ends an instruction
early; taking a trap, and returning from one. -/

namespace Sys2Proof.Machine

/-! ### Bit fields -/

/-- Bits [lo + w − 1 : lo]. -/
def fld (x : Word) (lo w : Nat) : Nat := x.toNat / 2 ^ lo % 2 ^ w
/-- Bit `n`. -/
def bit (x : Word) (n : Nat) : Bool := x.getLsbD n
/-- `x` with bits [lo + w − 1 : lo] replaced by the low `w` bits of `v`. -/
def putFld (x : Word) (lo w v : Nat) : Word :=
  (x &&& ~~~(BitVec.ofNat 64 ((2 ^ w - 1) * 2 ^ lo))) ||| BitVec.ofNat 64 (v % 2 ^ w * 2 ^ lo)
/-- A 64-bit word from a number. -/
def w64 (n : Nat) : Word := BitVec.ofNat 64 n
/-- The signed value of the low `n` bits. -/
def sextInt (x : Nat) (n : Nat) : Int :=
  if x % 2 ^ n < 2 ^ (n - 1) then (x % 2 ^ n : Nat) else ((x % 2 ^ n : Nat) : Int) - (2 ^ n : Nat)
/-- The word that holds an integer modulo 2^64. -/
def wInt (x : Int) : Word := BitVec.ofInt 64 x
/-- A list with each place's number. -/
def numbered {α : Type} (l : List α) : List (α × Nat) := l.zip (List.range l.length)

/-! ### Parts of the device -/

namespace State

/-- Context `c`. -/
def ctx (s : State) (c : Nat) : Ctx := Tab.get s.ctxs c .reset
/-- The state with context `c` replaced. -/
def setCtx (s : State) (c : Nat) (x : Ctx) : State := { s with ctxs := Tab.put s.ctxs c x }
/-- The state with context `c` changed. -/
def modCtx (s : State) (c : Nat) (f : Ctx → Ctx) : State := s.setCtx c (f (s.ctx c))
/-- The state with the registers of context `c` changed. -/
def modArch (s : State) (c : Nat) (f : Arch → Arch) : State := s.modCtx c fun x => { x with arch := f x.arch }
/-- Cell `n`. -/
def cell (s : State) (n : Nat) : Cell := Tab.get s.cells n (.reset n)
/-- The state with cell `n` changed. -/
def modCell (s : State) (n : Nat) (f : Cell → Cell) : State := { s with cells := Tab.put s.cells n (f (s.cell n)) }
/-- Column `n`. -/
def col (s : State) (n : Nat) : Column := Tab.get s.cols n .reset
/-- The state with column `n` changed. -/
def modCol (s : State) (n : Nat) (f : Column → Column) : State := { s with cols := Tab.put s.cols n (f (s.col n)) }
/-- Partition `p`. -/
def part (s : State) (p : Nat) : Part := Tab.get s.parts p .reset
/-- The state with partition `p` changed. -/
def modPart (s : State) (p : Nat) (f : Part → Part) : State := { s with parts := Tab.put s.parts p (f (s.part p)) }
/-- What the home of the word at address `w` keeps. -/
def home (s : State) (w : Nat) : Home := Tab.get s.homes w .none
/-- The state with the home of word `w` changed. -/
def modHome (s : State) (w : Nat) (f : Home → Home) : State := { s with homes := Tab.put s.homes w (f (s.home w)) }
/-- Slice `n`. -/
def slice (s : State) (n : Nat) : Slice := Tab.get s.slices n .reset
/-- The state with slice `n` changed. -/
def modSlice (s : State) (n : Nat) (f : Slice → Slice) : State := { s with slices := Tab.put s.slices n (f (s.slice n)) }
/-- The cycles that a column's cells have had (R470): those of its clock ceiling, each twice as long during a stretch, the most that R471 allows (log 48). -/
def cycles (s : State) (n : Nat) : Nat :=
  let k := s.col n
  k.cycles + (s.tsc - k.cyclesAt).toNat * k.clock / (if k.droop then 2000 else 1000)
/-- The same, noted before the length of a cycle changes. -/
def noteCycles (s : State) (n : Nat) : State := s.modCol n fun k => { k with cycles := s.cycles n, cyclesAt := s.tsc }
/-- The next free value (log 6), and the state in which it has been used. -/
def free (s : State) : Word × State := (Config.freeWord s.tick, { s with tick := s.tick + 1 })

end State

/-- The cell of context `c`. -/
def cellOf (c : Nat) : Nat := c / 16
/-- The column of cell `n` (R1: cell = 256·tower + 16·column + cell). -/
def colOf (n : Nat) : Nat := n / 16
/-- The station of cell `n` (R436). -/
def stationOf (n : Nat) : Nat := 19 * (n / 256) + n / 16 % 16
/-- The station of column `col` counted over the device. -/
def stationOfCol (col : Nat) : Nat := 19 * (col / 16) + col % 16
end Sys2Proof.Machine

namespace Sys2Proof

/-- Contexts of a mode (R8). -/
def CtxMode.contexts : CtxMode → Nat
  | .m16 => 16
  | .m8 => 8
  | .m4 => 4

end Sys2Proof

namespace Sys2Proof.Machine

/-- Usable scratchpad of a cell in bytes (R330). -/
def Cell.spadSize (k : Cell) : Nat := if k.banks < 16 then k.banks * 0x10000 else 0x100000

/-! ### Memory (R341, R342, R329) -/

namespace Memory

/-- What a byte that nothing has written reads as: the full/empty bits full (R329, R342), the map and the system routes as firmware wrote them at bring-up (R448, R478),
everything else 0 (log 12 for DRAM and host memory). -/
def unlisted (a : Nat) : Byte :=
  match bringUpWord a with
  | some w => w.extractLsb' (8 * (a % 8)) 8
  | none => if (Config.metaBase ≤ a ∧ a < Config.dramSize) ∨ Config.spadFeBase ≤ a then 0xFF else 0

/-- The byte at `a`. -/
def read (m : List Host.Cell) (a : Nat) : Byte := Tab.get m a (unlisted a)

/-- The memory with byte `v` at `a`: a byte that reads as unwritten is not listed. -/
def write (m : List Host.Cell) (a : Nat) (v : Byte) : List Host.Cell := if v = unlisted a then Tab.del m a else Tab.put m a v

/-- Addresses strictly rise, all of them above `lo`, and no entry equals what an unlisted address reads as. -/
def wfFrom (lo : Nat) : List Host.Cell → Bool
  | [] => true
  | (a, v) :: t => decide (lo ≤ a) && !(v == unlisted a) && wfFrom (a + 1) t

/-- The canonical form. -/
def wf (m : List Host.Cell) : Bool := wfFrom 0 m

end Memory

namespace State

/-- The byte at `a`. -/
def byte (s : State) (a : Nat) : Byte := Memory.read s.mem a
/-- The state with byte `v` at `a`. -/
def setByte (s : State) (a : Nat) (v : Byte) : State := { s with mem := Memory.write s.mem a v }
/-- The state with these bytes written in order. -/
def setBytes (s : State) (bs : List (Nat × Byte)) : State := { s with mem := bs.foldl (fun m p => Memory.write m p.1 p.2) s.mem }
/-- `n` bytes from `a`, the lowest address first. -/
def bytes (s : State) (a n : Nat) : List Byte := (List.range n).map fun i => s.byte (a + i)
/-- The little-endian number of `n` bytes at `a` (R4). -/
def num (s : State) (a n : Nat) : Nat := leNat (s.bytes a n)
/-- The 8-byte word at `a`. -/
def word (s : State) (a : Nat) : Word := w64 (s.num a 8)
/-- The state with the low `n` bytes of `v` at `a`. -/
def setNum (s : State) (a n v : Nat) : State :=
  s.setBytes ((List.range n).map fun i => (a + i, BitVec.ofNat 8 (v / 256 ^ i)))
/-- The state with the word `v` at `a`. -/
def setWord (s : State) (a : Nat) (v : Word) : State := s.setNum a 8 v.toNat

end State

/-- The bytes from `lo` up to `hi` as nothing has written them. -/
def dropRange (m : List Host.Cell) (lo hi : Nat) : List Host.Cell := m.filter fun p => !(decide (lo ≤ p.1) && decide (p.1 < hi))

/-- Where the full/empty bit of the word at `a` stands: byte and bit (R342; scratchpad log 2). -/
def feAt (a : Nat) : Nat × Nat :=
  (if Config.spadBase ≤ a then Config.spadFeBase + (a - Config.spadBase) / 64 else Config.metaBase + a / 64, a / 8 % 8)
/-- Whether the word at `a` is full. -/
def State.feFull (s : State) (a : Nat) : Bool := (s.byte (feAt a).1).getLsbD (feAt a).2
/-- The state with the word at `a` full or empty. -/
def State.setFe (s : State) (a : Nat) (full : Bool) : State :=
  let m : Byte := (1 : Byte) <<< (feAt a).2
  s.setByte (feAt a).1 (if full then s.byte (feAt a).1 ||| m else s.byte (feAt a).1 &&& ~~~m)

/-- The home L2 slice of a physical address (R337). -/
def sliceOf (pa : Nat) : Nat :=
  let l := pa / 64
  (l % 128) ^^^ (l / 2 ^ 7 % 128) ^^^ (l / 2 ^ 14 % 128) ^^^ (l / 2 ^ 21 % 128) ^^^ (l / 2 ^ 28 % 128) ^^^ (l / 2 ^ 35 % 128)
/-- The column whose station holds slice `n`, and so the column of a global word's home (R337). -/
def sliceCol (n : Nat) : Nat := n / 2
/-- The DRAM stack of a physical address (R341). -/
def stackOf (pa : Nat) : Nat := (pa / 2 ^ 12 % 8) ^^^ (pa / 2 ^ 20 % 8)
/-- The home of an address as one number: slices 0 to 127, then the scratchpad banks, 16 a cell (R171, R327). -/
def homeOf (a : Nat) : Nat := if Config.spadBase ≤ a then 128 + (a - Config.spadBase) / 0x10000 else sliceOf a
/-- The column whose station or cells hold the home of an address (R171). -/
def homeCol (a : Nat) : Nat := if Config.spadBase ≤ a then (a - Config.spadBase) / 0x1000000 else sliceCol (sliceOf a)
/-- The home of an address has power. -/
def homeUp (s : State) (a : Nat) : Bool :=
  if Config.spadBase ≤ a then (s.col (homeCol a)).cellPower else (s.col (homeCol a)).stationPower
/-- An access can reach its home: it has power, or lies on another device. -/
def reachesHome (s : State) (a : Nat) : Bool := decide (Config.peerBase ≤ a) || homeUp s a
/-- The scratchpad byte at offset `o` of exposed cell `n` (R327, log 2). -/
def spadAddr (n o : Nat) : Nat := Config.spadBase + n * 0x100000 + o
/-- The cell whose scratchpad holds an address. -/
def spadCell (a : Nat) : Nat := (a - Config.spadBase) / 0x100000
/-- The scratchpad offset of an address. -/
def spadOff (a : Nat) : Nat := (a - Config.spadBase) % 0x100000

/-- L2 holds a line. -/
def inL2 (s : State) (line : Nat) : Bool := s.l2.any fun x => x.line == line

/-- Whether the datum at `a` is uncorrectable: a quarantined line, one whose copy in L2 is bad, or, of which L2 holds no copy, one that is bad in DRAM; in
scratchpad, a word, a bank found failed, or a line of the restore-error list (R331, R350, R351, R352, R387). -/
def State.isBad (s : State) (a : Nat) : Bool :=
  if Config.spadBase ≤ a then (s.cell (spadCell a)).failedBanks.contains (spadOff a / 0x10000)
    || (s.cell (spadCell a)).restoreErr.contains (spadOff a / 64) || s.badWords.contains (a / 8)
  else (s.slice (sliceOf a)).quar.contains (a / 64) || s.badL2.contains (a / 64) || (s.bad.contains (a / 64) && !inL2 s (a / 64))

/-- Whether the full/empty bit of the word at `a` is uncorrectable: that of a global word stands in the metadata region while L2 does not hold the word's line
(R342, R344). -/
def State.feBad (s : State) (a : Nat) : Bool := decide (a < Config.spadBase) && !inL2 s (a / 64) && s.isBad (feAt a).1

/-! ### Registers (R11 to R15) -/

/-- A register's state and label without its value. -/
def Reg.meta {α : Type} (r : Reg α) : Reg Unit := ⟨(), r.fe, r.lab, r.det, r.prod, r.dueData, r.dueLab⟩
/-- A register with another state and label. -/
def Reg.withMeta {α : Type} (r : Reg α) (m : Reg Unit) : Reg α := ⟨r.val, m.fe, m.lab, m.det, m.prod, m.dueData, m.dueLab⟩
/-- The state and label of a full register. -/
def fullMeta (l : Label) : Reg Unit := ⟨(), .full, l, 0, 0, false, false⟩

namespace Arch

/-- g register `n`; g0 reads zero, full and ⊤ (R11). -/
def gr (a : Arch) (n : Nat) : Reg Word := if n = 0 then .of 0 else Tab.get a.g n (.of 0)
/-- v register `n`. -/
def vr (a : Arch) (n : Nat) : Reg (BitVec 512) := Tab.get a.v n (.of 0)
/-- k register `n`. -/
def kr (a : Arch) (n : Nat) : Reg (List Elem) := Tab.get a.k n (.of [])
/-- q register `n`. -/
def qr (a : Arch) (n : Nat) : Reg Word := Tab.get a.q n (.of 0)
/-- x register `n`. -/
def xr (a : Arch) (n : Nat) : Reg Word := Tab.get a.x n (.of 0)
/-- Writes g register `n`; a write to g0 is discarded (R11). -/
def setG (a : Arch) (n : Nat) (r : Reg Word) : Arch := if n = 0 then a else { a with g := Tab.put a.g n r }
/-- Writes v register `n`. -/
def setV (a : Arch) (n : Nat) (r : Reg (BitVec 512)) : Arch := { a with v := Tab.put a.v n r }
/-- Writes k register `n`. -/
def setK (a : Arch) (n : Nat) (r : Reg (List Elem)) : Arch := { a with k := Tab.put a.k n r }
/-- Writes q register `n`. -/
def setQ (a : Arch) (n : Nat) (r : Reg Word) : Arch := { a with q := Tab.put a.q n r }
/-- Writes x register `n`. -/
def setX (a : Arch) (n : Nat) (r : Reg Word) : Arch := { a with x := Tab.put a.x n r }

/-- The state and label of a register. -/
def rmeta (a : Arch) (r : RegId) : Reg Unit :=
  match r.file with
  | .g => (a.gr r.n).meta
  | .v => (a.vr r.n).meta
  | .k => (a.kr r.n).meta
  | .q => (a.qr r.n).meta
  | .x => (a.xr r.n).meta

/-- Changes the state and label of a register; its value stays. -/
def setMeta (a : Arch) (r : RegId) (m : Reg Unit) : Arch :=
  match r.file with
  | .g => a.setG r.n ((a.gr r.n).withMeta m)
  | .v => a.setV r.n ((a.vr r.n).withMeta m)
  | .k => a.setK r.n ((a.kr r.n).withMeta m)
  | .q => a.setQ r.n ((a.qr r.n).withMeta m)
  | .x => a.setX r.n ((a.xr r.n).withMeta m)

/-- Writes a register's value with a state and label. A value of another file's kind leaves the register alone. -/
def setReg (a : Arch) (r : RegId) (v : RV) (m : Reg Unit) : Arch :=
  match r.file, v with
  | .g, .w x => a.setG r.n ((Reg.of x).withMeta m)
  | .v, .v x => a.setV r.n ((Reg.of x).withMeta m)
  | .k, .k x => a.setK r.n ((Reg.of x).withMeta m)
  | .q, .w x => a.setQ r.n ((Reg.of x).withMeta m)
  | .x, .w x => a.setX r.n ((Reg.of x).withMeta m)
  | _, _ => a

/-- A register's value. -/
def regVal (a : Arch) (r : RegId) : RV :=
  match r.file with
  | .g => .w (a.gr r.n).val
  | .v => .v (a.vr r.n).val
  | .k => .k (a.kr r.n).val
  | .q => .w (a.qr r.n).val
  | .x => .w (a.xr r.n).val

/-! STATUS (R30) -/

/-- Privilege level. -/
def pl (a : Arch) : Nat := fld a.status 0 2
/-- Rounding mode. -/
def rm (a : Arch) : RMode :=
  match fld a.status 2 2 with
  | 0 => .nearest
  | 1 => .zero
  | 2 => .up
  | _ => .down
/-- Interrupts enabled. -/
def ie (a : Arch) : Bool := bit a.status 4
/-- Trap handler active. -/
def tn (a : Arch) : Bool := bit a.status 20
/-- The trap enables. -/
def en (a : Arch) : BitVec 6 := a.status.extractLsb' 14 6
/-- The sticky flags. -/
def flg (a : Arch) : BitVec 6 := a.status.extractLsb' 8 6
/-- ORs flags into STATUS.FLG. -/
def orFlags (a : Arch) (f : BitVec 6) : Arch := { a with status := a.status ||| (f.setWidth 64 <<< 8) }
/-- The tenant partition. -/
def partition (a : Arch) : Nat := fld a.part 0 6
/-- The trap bank of a level (R29). -/
def bank (a : Arch) (level : Nat) : Bank := if level = 3 then a.mon else a.sup
/-- Writes the trap bank of a level. -/
def setBank (a : Arch) (level : Nat) (b : Bank) : Arch := if level = 3 then { a with mon := b } else { a with sup := b }

end Arch

/-! ### Error records (R463 to R465) -/

/-- Where the queue of a partition is, and its MSI-X vector (R454, R465): the monitor queue is partition 63's. -/
def queueVector (part : Nat) : Nat := if part = 63 then 1025 else 16 * part
/-- Raises an MSI-X vector: a masked one is held pending (R454). -/
def State.raiseVector (s : State) (v : Nat) : State :=
  let x := Tab.get s.vecs v ⟨false, false, 0⟩
  { s with vecs := Tab.put s.vecs v (if x.masked then { x with pending := true } else { x with sent := x.sent + 1 }) }

/-- The four words of a record (R463). -/
def Rec.words (r : Rec) : List Word :=
  [r.tsc, w64 (r.src.toNat + r.skind.toNat * 2 ^ 14 + r.code.toNat * 2 ^ 16 + r.sev.toNat * 2 ^ 24 + r.part.toNat * 2 ^ 32), r.obj, r.det]

/-- The words of a record at an address of its ring. -/
def State.putRec (s : State) (at_ : Nat) (r : Rec) : State := (List.range 4).foldl (fun s i => s.setWord (at_ + 8 * i) (r.words.getD i 0)) s

/-- Writes one record to its queue, or drops it when the queue has no room (R465). A queue whose ring firmware has not set keeps
its records in `State.recs` alone. -/
def State.record (s : State) (r : Rec) : State :=
  let p := r.part.toNat
  let q := s.part p
  let s := { s with recs := s.recs ++ [r] }
  if q.ringSize = 0 then
    if q.nonEmpty then s else (s.modPart p fun q => { q with nonEmpty := true }).raiseVector (queueVector p)
  else
    let tail := (s.word q.ring).toNat
    let head := (s.word (q.ring + 8)).toNat
    if tail - head + 32 ≤ q.ringSize then
      let s := (s.putRec (q.ring + 64 + tail % q.ringSize) r).setWord q.ring (w64 (tail + 32))
      if tail = head then s.raiseVector (queueVector p) else s
    else s.setWord (q.ring + 16) (s.word (q.ring + 16) + 1)

/-- A record whose source is context `c` (skind 0), charged to its partition. -/
def State.recordCtx (s : State) (c : Nat) (code : Nat) (obj det : Word) : State :=
  s.record ⟨s.tsc, 0, BitVec.ofNat 14 c, BitVec.ofNat 8 code, Config.severity code, BitVec.ofNat 6 (s.ctx c).arch.partition, obj, det⟩
/-- A record whose source is unit `u` of station `st` (skind 1). -/
def State.recordUnit (s : State) (st u part code : Nat) (obj det : Word) (sev : BitVec 3 := Config.severity code) : State :=
  s.record ⟨s.tsc, 1, BitVec.ofNat 14 (st + u * 256), BitVec.ofNat 8 code, sev, BitVec.ofNat 6 part, obj, det⟩
/-- A record of the scheduler (skind 2). -/
def State.recordSched (s : State) (part code : Nat) (obj det : Word) : State :=
  s.record ⟨s.tsc, 2, 0, BitVec.ofNat 8 code, Config.severity code, BitVec.ofNat 6 part, obj, det⟩
/-- A record of firmware (skind 3). -/
def State.recordFw (s : State) (part code : Nat) (obj det : Word) : State :=
  s.record ⟨s.tsc, 3, 0, BitVec.ofNat 8 code, Config.severity code, BitVec.ofNat 6 part, obj, det⟩

/-! ### Handing claims over (R251, R370) -/

/-- Hands a making entry over: the first waiter becomes its maker and is given 4; with no waiter the entry is removed. -/
def State.handover (s : State) (e : Claim) : State :=
  match e.waiters with
  | [] => { s with claims := s.claims.filter fun x => !(x == e) }
  | w :: ws => { s with
      claims := s.claims.map fun x => if x == e then { e with maker := w.c, makerPlc := w.plc, waiters := ws } else x
      claimRets := s.claimRets ++ [⟨w.c, w.plc, 4, 0, true, none⟩] }

/-- A strand that ends is asked for no more: its waiter records, and its claim requests on their way, are gone (R177, R374). -/
def State.dropClaims (s : State) (c : Nat) (plc : Word) : State :=
  { s with
    claims := s.claims.map fun e => { e with waiters := e.waiters.filter fun w => !(w.c == c && w.plc == plc) }
    claimReqs := s.claimReqs.filter fun r => !(r.c == c && r.plc == plc)
    claimOuts := s.claimOuts.filter fun o => !(o.c == c && o.plc == plc) }

/-- Hands over every making entry of a strand (R251). -/
def State.handoverAll (s : State) (c : Nat) (plc : Word) : State :=
  (s.claims.filter fun e => !e.done && e.maker == c && e.makerPlc == plc).foldl State.handover s

/-- The placement number of the strand on context `c`; 0 when it holds none. -/
def State.plc (s : State) (c : Nat) : Word :=
  match (s.ctx c).strand with
  | some t => t.plc
  | none => 0

/-! ### Traps (R34 to R36) -/

/-- Halts a context: an error record, no further instruction, and its claims are handed over (R34, R251); it waits at no other maker's entry any more, since
its strand ends here. -/
def haltContext (s : State) (c : Nat) (code : Nat) (tval : Word) : State :=
  (((s.recordCtx c code tval 0).modCtx c fun x => { x with run := .halted }).dropClaims c (s.plc c)).handoverAll c (s.plc c)

/-- The level a trap is taken at (R34). -/
def trapTarget (a : Arch) (t : Trap) : Nat :=
  if a.tn then 3 else if a.pl = 3 ∨ (t.code = 0x20 ∧ bit t.tval 11) then 3 else 1

/-- The registers after a trap is taken at `target` (R34): TPC, TVAL and TCAUSE of the bank, PPL, PIE, IE, TN, PL and pc. -/
def enterTrap (a : Arch) (target : Nat) (code det : Nat) (tval pc : Word) (isInt : Bool) : Arch :=
  let cause := w64 ((if isInt then 2 ^ 63 else 0) + det * 256 + code)
  let b := a.bank target
  let st := putFld (putFld (putFld (putFld (putFld a.status 6 2 a.pl) 5 1 (if a.ie then 1 else 0)) 4 1 0) 20 1 1) 0 2 target
  { (a.setBank target { b with tcause := cause, tpc := pc, tval := tval }) with status := st, pc := b.tvec }

/-- The address that TPC names for a trap (R35): `pc`, unless the trap is a deferred data error fault with an address of its own (R333). -/
def trapPc (x : Ctx) (t : Trap) (pc : Word) : Word :=
  if t.code = 0x18 then ((x.deferred.find? fun d => d.trap == t).bind fun d => d.tpc).getD pc else pc

/-- Takes a trap or an interrupt in context `c` (R34, R35): TPC names `pc`. A trap in a handler is a double trap at monitor
level, and in a monitor handler halts the context. -/
def takeTrap (s : State) (c : Nat) (t : Trap) (isInt : Bool) (pc : Word) : State :=
  let pc := trapPc (s.ctx c) t pc
  let s := s.modCtx c fun x =>
    { x with
      arch := x.arch.orFlags t.flags
      walkFault := none
      labAns := none
      hold := none
      peerWait := none
      peerAns := []
      deferred := x.deferred.filter fun d => d.trap != t }
  let a := (s.ctx c).arch
  if a.tn ∧ a.pl = 3 then haltContext s c t.code.toNat t.tval
  else if a.tn then s.modArch c fun a => enterTrap a 3 0x3F 0 (w64 t.code.toNat) pc isInt
  else s.modArch c fun a => enterTrap a (trapTarget a t) t.code.toNat t.det.toNat t.tval pc isInt

/-- The registers after a return from a trap (R283): PL becomes PPL, IE becomes PIE, TN becomes 0, and pc becomes the TPC of the
level the return is made at. PPL, PIE and the loop stack stay. -/
def leaveTrap (a : Arch) : Arch :=
  { a with
    status := putFld (putFld (putFld a.status 20 1 0) 4 1 (fld a.status 5 1)) 0 2 (fld a.status 6 2)
    pc := (a.bank a.pl).tpc }

/-! ### What ends an instruction early -/

/-- What a context that idles waits for, and what must be asked first. -/
inductive Todo where
  /-- Something another step brings about. -/
  | nothing
  /-- A page walk (R348). -/
  | walk (va : Word)
  /-- The product of labels, for an instruction that holds its address phase (R155). -/
  | product (srcs : List Label)
  /-- The content of a label (R142). -/
  | content (l : Label)
  /-- The check at a peer device's arrival port (R444). -/
  | peer (ref route : Word)
  /-- A peer cell without power, retried (R384). -/
  | dark (ref : Word)
deriving DecidableEq, Repr

/-- Why an instruction did not complete. -/
inductive Stop where
  | trap (t : Trap)
  | wait (w : Todo)
  | fault (f : Fault)
deriving DecidableEq, Repr

/-- A trap of a cause, with a detail. -/
def raise {α : Type} (code : Nat) (tval : Word) (det : Nat := 0) : Except Stop α :=
  .error (.trap ⟨BitVec.ofNat 8 code, BitVec.ofNat 4 det, tval, 0⟩)
/-- The slot idles. -/
def waits {α : Type} : Except Stop α := .error (.wait .nothing)

end Sys2Proof.Machine
end

