-- ==== Sys2Proof/Machine/Operands.lean ====
section
/-! DEFINITION. Operands: reading a register source under its wait bit (R15), the space check over the sources (R20 rule 8, R230),
the label of a result (R20, R230), the wait for an empty destination (R16), filling a destination (R14, R118), and the
effective reference of a memory form (R151). -/

namespace Sys2Proof.Machine

/-! ### The label of a result -/

/-- What a label product comes to as far as the cell can tell (R20 rules 2 and 3, R360). -/
inductive LocalRes where
  | known (r : PRes)
  /-- The column's Accord unit must evaluate it; the space of its proper sources. -/
  | ask (sp : BitVec 12)
deriving DecidableEq, Repr

/-- The labels other than ⊤ and ⊥. -/
def properLabels (ls : List Label) : List Label := ls.filter Label.proper

/-- The product-cache entry of a space and two handles, the lower first (R360). -/
def pcacheProduct (pc : List PEntry) (sp : BitVec 12) (ha hb : BitVec 24) : Option PRes :=
  pc.findSome? fun e => match e with
    | .product sp' ha' hb' r => if sp' = sp ∧ ha' = ha ∧ hb' = hb then some r else none
    | .content _ _ _ => none
/-- The product-cache entry of a label's content (R360). -/
def pcacheContent (pc : List PEntry) (sp : BitVec 12) (h : BitVec 24) : Option (List Word) :=
  pc.findSome? fun e => match e with
    | .content sp' h' envs => if sp' = sp ∧ h' = h then some envs else none
    | .product _ _ _ _ => none

/-- The label product as the cell forms it (R20 rules 1 to 3, R230, R360): ⊥ when some source is ⊥, ⊤ when all are ⊤, the one
other label when there is one, and otherwise the product cache's entry or a question to the Accord unit. -/
def localProduct (pc : List PEntry) (ls : List Label) : LocalRes :=
  if ls.any Label.isBot then .known (.lab .bot)
  else match properLabels ls with
    | [] => .known (.lab .top)
    | [l] => .known (.lab l)
    | [a, b] =>
      let (ha, hb) := if a.h.toNat < b.h.toNat then (a.h, b.h) else (b.h, a.h)
      match pcacheProduct pc a.sp ha hb with
      | some r => .known r
      | none => .ask a.sp
    | l :: _ => .ask l.sp

/-- The first source label whose space differs from that of an earlier one (R230's space check). -/
def spaceClash : Option (BitVec 12) → List Label → Option (BitVec 12)
  | _, [] => none
  | none, l :: t => spaceClash (if l.proper then some l.sp else none) t
  | some sp, l :: t => if l.proper ∧ l.sp ≠ sp then some l.sp else spaceClash (some sp) t

/-! ### Reading sources (R15) -/

/-- A register source: the register, its wait bit, and its operand index (R33). -/
structure Src where
  r : RegId
  w : Bool
  idx : Nat
deriving DecidableEq, Repr

/-- Source `a`, `b` or another g register at an operand index. -/
def srcG (n : BitVec 6) (w : Bool) (idx : Nat) : Src := ⟨⟨.g, n.toNat⟩, w, idx⟩
/-- The g register a field names. -/
def gd (n : BitVec 6) : RegId := ⟨.g, n.toNat⟩
/-- The value of a g register. -/
def gv (a : Arch) (n : BitVec 6) : Word := (a.gr n.toNat).val
/-- A source of another file, read as if its wait bit were 1 unless one is given. -/
def srcF (f : RFile) (n : Nat) (idx : Nat) (w : Bool := true) : Src := ⟨⟨f, n⟩, w, idx⟩

/-- What reading one source meets (R15). -/
inductive SrcState where
  | full
  /-- The slot idles. -/
  | idle
  | stop (s : Stop)
deriving DecidableEq, Repr

/-- R15 for one source. -/
def srcState (a : Arch) (x : Src) : SrcState :=
  let m := a.rmeta x.r
  match m.fe with
  | .full => .full
  | .empty => if x.w then .idle else .stop (.trap ⟨4, BitVec.ofNat 4 x.idx, w64 x.r.n, 0⟩)
  | .faulted => .stop (.trap ⟨5, m.det.setWidth 4, m.prod, 0⟩)

/-- Reads the sources in order under R15, then makes the space check (R20 rule 8). The check uses the known space of a source that is still awaited,
which its label names, without waiting for it: sources after one are looked at for their space alone. -/
def readSrcs (a : Arch) (xs : List Src) : Except Stop Unit :=
  go xs [] 
where
  /-- The labels of the sources whose space is known although the slot must idle. -/
  known (xs : List Src) : List Label :=
    xs.filterMap fun x => match srcState a x with
      | .full => some (a.rmeta x.r).lab
      | .idle => some (a.rmeta x.r).lab
      | .stop _ => none
  /-- The pass over the sources. -/
  go : List Src → List Label → Except Stop Unit
  | [], seen => match spaceClash none seen with
    | some sp => raise 0x08 (sp.setWidth 64)
    | none => .ok ()
  | x :: t, seen => match srcState a x with
    | .full => go t (seen ++ [(a.rmeta x.r).lab])
    | .stop s => .error s
    | .idle => match spaceClash none (seen ++ (a.rmeta x.r).lab :: known t) with
      | some sp => raise 0x08 (sp.setWidth 64)
      | none => waits

/-- Reads the sources in order under R15 without comparing their spaces: the condition sources of a branch, each tested on its own
(R142). -/
def readEach (a : Arch) : List Src → Except Stop Unit
  | [] => .ok ()
  | x :: t => match srcState a x with
    | .full => readEach a t
    | .stop s => .error s
    | .idle => waits

/-- The labels of sources. -/
def srcLabels (a : Arch) (xs : List Src) : List Label := xs.map fun x => (a.rmeta x.r).lab

/-- An instruction does not issue while its destination is empty (R16). -/
def destReady (a : Arch) (d : RegId) : Except Stop Unit :=
  match (a.rmeta d).fe with
  | .empty => waits
  | _ => .ok ()

/-! ### Filling a destination (R14, R118, R119) -/

/-- Whether a register discards what is written to it. -/
def RegId.isG0 (d : RegId) : Bool := d.file == .g && d.n == 0

/-- The registers of a strand of context `c`: the live ones, or those of its save area (R434). `none` when the strand is gone. -/
def State.archOf (s : State) (c : Nat) (plc : Word) : Option Arch :=
  if s.plc c = plc then some (s.ctx c).arch
  else match (s.ctx c).save with
    | some v => if v.strand.plc = plc then some v.arch else none
    | none => none

/-- Changes the registers of a strand, live or saved; nothing when the strand is gone. -/
def State.modArchOf (s : State) (c : Nat) (plc : Word) (f : Arch → Arch) : State :=
  if s.plc c = plc then s.modArch c f
  else s.modCtx c fun x => match x.save with
    | some v => if v.strand.plc = plc then { x with save := some { v with arch := f v.arch } } else x
    | none => x

/-- Changes the operations in flight of a strand, live or saved. -/
def State.modPendOf (s : State) (c : Nat) (plc : Word) (f : List Pend → List Pend) : State :=
  if s.plc c = plc then s.modCtx c fun x => { x with pend := f x.pend }
  else s.modCtx c fun x => match x.save with
    | some v => if v.strand.plc = plc then { x with save := some { v with pend := f v.pend } } else x
    | none => x

/-- A strand runs on a context. -/
def liveStrand (s : State) (c : Nat) (plc : Word) : Bool := (s.ctx c).strand.any fun t => t.plc == plc
/-- A strand lies in a context's save area. -/
def savedStrand (s : State) (c : Nat) (plc : Word) : Bool := (s.ctx c).save.any fun v => v.strand.plc == plc

/-- What a context would do with the strand of its save area on it: a change that reaches the save image alone (R434). -/
def withSaved (s : State) (c : Nat) (f : State → State) : State :=
  match (s.ctx c).save with
  | none => s
  | some v =>
    let x := s.ctx c
    let t := f (s.setCtx c { x with
      arch := v.arch
      strand := some v.strand
      pend := v.pend
      hold := v.hold
      resv := v.resv
      deferred := v.deferred
      committed := v.committed
      devIrq := v.devIrq
      dlIrq := v.dlIrq
      wcb := []
      save := none })
    let y := t.ctx c
    t.setCtx c { x with
      ivl := y.ivl
      served := y.served
      dirtyLines := y.dirtyLines
      save := some { v with
        arch := y.arch
        pend := y.pend
        hold := y.hold
        resv := y.resv
        deferred := y.deferred
        committed := y.committed } }

/-- A change to a strand, live or saved. -/
def onStrand (s : State) (c : Nat) (plc : Word) (f : State → State) : State :=
  if liveStrand s c plc then f s else if savedStrand s c plc then withSaved s c f else s

/-- The label that an awaited register carries meanwhile: one of the space of its sources (R20 rule 8), or ⊤ where they have none or the result will
be ⊥. -/
def dueLabel (ls : List Label) : Label := if ls.any Label.isBot then .top else (properLabels ls).head?.getD .top

/-- Marks a destination empty, waiting for data; its value stays, and its label names the space of the sources when they have one
(R14, R20 rule 8). -/
def markEmpty (a : Arch) (d : RegId) (ls : List Label) : Arch :=
  a.setMeta d ⟨(), .empty, dueLabel ls, 0, 0, true, false⟩

/-- A hit makes its entry the most recently used one of the cell's product cache (R360). -/
def hitPcache (s : State) (c : Nat) (found : PEntry → Bool) : State :=
  match (s.cell (cellOf c)).pcache.find? found with
  | none => s
  | some e => s.modCell (cellOf c) fun k => { k with pcache := e :: k.pcache.filter (· != e) }

/-- The entry of a product of two labels. -/
def PEntry.joins (a b : Label) : PEntry → Bool
  | .product sp ha hb _ => sp == a.sp && (if a.h.toNat < b.h.toNat then ha == a.h && hb == b.h else ha == b.h && hb == a.h)
  | .content _ _ _ => false
/-- The entry of the content of a label. -/
def PEntry.lists (l : Label) : PEntry → Bool
  | .content sp h _ => sp == l.sp && h == l.h
  | .product _ _ _ _ => false

/-- The hit of a product that the cell forms from its cache. -/
def hitProduct (s : State) (c : Nat) (ls : List Label) : State :=
  match properLabels ls with
  | [a, b] => if ls.any Label.isBot then s else hitPcache s c (PEntry.joins a b)
  | _ => s
/-- The hit of a label's content that the cell finds in its cache. -/
def hitContent (s : State) (c : Nat) (l : Label) : State := if l.proper then hitPcache s c (PEntry.lists l) else s

/-- Fills a destination of a strand with a value whose label is the product of `ls` (R14, R118): full when the product is known,
faulted when it overflows (R20 rule 7), and otherwise empty with its value held until the Accord unit answers. A result for
g0 is discarded with its label (R119). DESIGN CHOICE (log 82): proper labels of two spaces, which R155 says a load cannot meet, are asked as a product in
the space of the first, without a check. -/
def fillOf (s : State) (c : Nat) (plc : Word) (d : RegId) (v : RV) (ls : List Label) (pc : Word) : State :=
  if d.isG0 then s
  else match localProduct (s.cell (cellOf c)).pcache ls with
    | .known (.lab l) => hitProduct (s.modArchOf c plc fun a => a.setReg d v (fullMeta l)) c ls
    | .known (.past k) => hitProduct (s.modArchOf c plc fun a => a.setReg d v ⟨(), .faulted, .top, k, pc, false, false⟩) c ls
    | .ask sp =>
      let s := s.modArchOf c plc fun a => a.setReg d v ⟨(), .empty, (properLabels ls).head?.getD .top, 0, pc, false, true⟩
      { s with labelJobs := s.labelJobs ++ [⟨c, plc, some d, sp, .product ls, .asked, pc, 0⟩] }

/-- Fills a destination of the context that issues. -/
def fill (s : State) (c : Nat) (d : RegId) (v : RV) (ls : List Label) : State :=
  fillOf s c (s.plc c) d v ls (s.ctx c).arch.pc

/-- Fills a destination with the label ⊤. -/
def fillTop (s : State) (c : Nat) (d : RegId) (v : RV) : State := fill s c d v []

/-- Asks the Accord unit of the column something whose answer fills `d`, which is marked empty with the value it will keep; for g0
nothing is asked (R119). -/
def askFill (s : State) (c : Nat) (d : RegId) (v : RV) (sp : BitVec 12) (lab : Label) (ask : Ask) : State :=
  if d.isG0 then s
  else
    let pc := (s.ctx c).arch.pc
    let s := s.modArch c fun a => a.setReg d v ⟨(), .empty, lab, 0, pc, false, true⟩
    { s with labelJobs := s.labelJobs ++ [⟨c, s.plc c, some d, sp, ask, .asked, pc, 0⟩] }

/-! ### Conditions under VIEW (R142) -/

/-- Whether some environment of the set is a subset of `env` (R18). -/
def holdsIn (envs : List Word) (env : Word) : Bool := envs.any fun e => e &&& env == e

/-- The environments of a label as the cell knows them: of ⊤, of ⊥, or from the product cache (R142, R238). -/
def localContent (pc : List PEntry) (l : Label) : Option (List Word) :=
  if l.isTop then some [0] else if l.isBot then some [] else pcacheContent pc l.sp l.h

/-- The view test of one source (R142). -/
def viewTest1 (s : State) (c : Nat) (x : Src) : Except Stop Unit :=
  let l := ((s.ctx c).arch.rmeta x.r).lab
  if l.isTop then .ok ()
  else match localContent (s.cell (cellOf c)).pcache l with
    | none => .error (.wait (.content l))
    | some envs => if holdsIn envs (s.ctx c).arch.view then .ok () else raise 0x06 (l.h.setWidth 64) x.idx

/-- The view test of every source, in field order (R142). -/
def viewTest (s : State) (c : Nat) : List Src → Except Stop Unit
  | [] => .ok ()
  | x :: t => do viewTest1 s c x; viewTest s c t

/-- The hits of a view test that has passed (R360): `t` is the state that the instruction leaves, `a` its registers before it. -/
def noteView (t : State) (c : Nat) (a : Arch) (xs : List Src) : State := xs.foldl (fun t x => hitContent t c (a.rmeta x.r).lab) t

/-! ### Forms of memory operands -/

/-- The low 40 bits of a sum, beside bits [63:40] of the reference (R138, R151). -/
def refAdd (r : Word) (d : Int) : Word := putFld r 0 40 (((r.toNat : Int) + d) % (2 ^ 40 : Nat)).toNat
/-- The effective reference: disp5 times the access size (R151). -/
def effRef (r : Word) (disp : BitVec 5) (size : Nat) : Word := refAdd r (disp.toInt * size)
end Sys2Proof.Machine

namespace Sys2Proof

/-- Size in bytes of a load (R80). -/
def MemSize.bytes : MemSize → Nat
  | .n8 => 1
  | .n16 => 2
  | .n32 => 4
  | .word => 8
  | .i8 => 1
  | .i16 => 2
  | .i32 => 4
/-- Whether a load sign-extends (R159). -/
def MemSize.signed : MemSize → Bool
  | .i8 => true
  | .i16 => true
  | .i32 => true
  | _ => false
/-- Size in bytes of a store. -/
def StSize.bytes : StSize → Nat
  | .n8 => 1
  | .n16 => 2
  | .n32 => 4
  | .word => 8
/-- Bits of an integer width (R80). -/
def Width.bits : Width → Nat
  | .w64 => 64
  | .w32 => 32
  | .w16 => 16
  | .w8 => 8

end Sys2Proof

namespace Sys2Proof.Machine

/-- The mix of HASH (R136). -/
def hashW (a b : Word) : Word :=
  let h := a ^^^ (b * 0x9E3779B97F4A7C15)
  let h := (h ^^^ (h >>> 31)) * 0xBF58476D1CE4E5B9
  let h := (h ^^^ (h >>> 27)) * 0x94D049BB133111EB
  h ^^^ (h >>> 33)
/-- 1 or 0. -/
def bool64 (p : Bool) : Word := if p then 1 else 0
/-- A number extended to 64 bits from `n` (R38). -/
def extend (n : Nat) (signed : Bool) (v : Nat) : Word := if signed then wInt (sextInt v n) else w64 (v % 2 ^ n)

/-- Element size in bytes of a reference's format (R163). The codes for which the rule states none (0x07 to 0x09, and those above 0x11) are
accepted by no access that needs the size; which lanes and offsets a fault of theirs reports is a free value (log 27). -/
def elemSize (fmt : Nat) : Nat :=
  match fmt with
  | 0x00 => 8
  | 0x01 => 8
  | 0x02 => 4
  | 0x03 => 2
  | 0x04 => 2
  | 0x05 => 1
  | 0x06 => 1
  | 0x0A => 1
  | 0x0B => 1
  | 0x0C => 2
  | 0x0D => 2
  | 0x0E => 4
  | 0x0F => 4
  | 0x10 => 8
  | 0x11 => 8
  | _ => 2 ^ (Config.unstatedSize (BitVec.ofNat 6 fmt)).toNat
/-- Format code of a reference (R21). -/
def refFmt (r : Word) : Nat := fld r 58 6
/-- Block-length code of a reference (R21). -/
def refLbl (r : Word) : Nat := fld r 54 4
/-- Handle index of a reference (R21). -/
def refIdx (r : Word) : Nat := fld r 40 14
/-- Offset of a reference (R21). -/
def refOff (r : Word) : Nat := fld r 0 40
/-- Whether a format is block-scaled or EFP8 (R22). -/
def blockFmt (fmt : Nat) : Bool := 0x07 ≤ fmt && fmt ≤ 0x09

end Sys2Proof.Machine
end

