-- ==== Sys2Proof/Machine/Flags.lean ====
section
/-! DEFINITION. The sticky flags (R30, R38, R121): their bits, `set_flags`, saturation (R43), and the flags of the integer
operations (R42, R123, R125). -/

namespace Sys2Proof.Machine

/-- The six flags in the order of STATUS.FLG (R30). -/
def fNV : BitVec 6 := 1
/-- Divide by zero. -/
def fDZ : BitVec 6 := 2
/-- Overflow. -/
def fOF : BitVec 6 := 4
/-- Underflow. -/
def fUF : BitVec 6 := 8
/-- Inexact. -/
def fNX : BitVec 6 := 16
/-- Saturated. -/
def fSAT : BitVec 6 := 32

/-- `set_flags` (R38, R121): ORs the flags into STATUS.FLG; an enabled one raises the arithmetic fault, whose TVAL is the flags
raised, and the flags stay ORed in. -/
def setFlags (s : State) (c : Nat) (f : BitVec 6) : Except Stop State :=
  if f = 0 then .ok s
  else if f &&& (s.ctx c).arch.en = 0 then .ok (s.modArch c fun a => a.orFlags f)
  else .error (.trap ⟨0x19, 0, f.setWidth 64, f⟩)

end Sys2Proof.Machine

namespace Sys2Proof

/-- Signed kinds of an IT field (R80). -/
def IntKind.signed : IntKind → Bool
  | .wrapI => true
  | .satI => true
  | .wrapN => false
  | .satN => false
/-- Saturating kinds of an IT field (R80). -/
def IntKind.saturating : IntKind → Bool
  | .satI => true
  | .satN => true
  | .wrapI => false
  | .wrapN => false

end Sys2Proof

namespace Sys2Proof.Machine

/-- The operand read as an integer of `n` bits (R41, R123). -/
def readInt (n : Nat) (signed : Bool) (x : Nat) : Int := if signed then sextInt x n else ((x % 2 ^ n : Nat) : Int)
/-- Least value of an integer type. -/
def intMin (n : Nat) (signed : Bool) : Int := if signed then -((2 ^ (n - 1) : Nat) : Int) else 0
/-- Greatest value of an integer type. -/
def intMax (n : Nat) (signed : Bool) : Int := if signed then ((2 ^ (n - 1) : Nat) : Int) - 1 else ((2 ^ n : Nat) : Int) - 1
/-- `saturate` (R43): the clamped value, and SAT when it changed. -/
def saturate (n : Nat) (signed : Bool) (t : Int) : Int × BitVec 6 :=
  if intMax n signed < t then (intMax n signed, fSAT) else if t < intMin n signed then (intMin n signed, fSAT) else (t, 0)
/-- An integer modulo 2^n, as n bits (R42). -/
def wrapInt (n : Nat) (t : Int) : Nat := (t % (2 ^ n : Nat)).toNat

/-- The result of ADD, SUB and MUL shaped by ty (R123), and its flags. -/
def shapeInt (n : Nat) (k : IntKind) (t : Int) : Word × BitVec 6 :=
  if k.saturating then
    let r := saturate n k.signed t
    (extend n k.signed (wrapInt n r.1), r.2)
  else (extend n k.signed (wrapInt n t), 0)

/-- Quotient and remainder of R42 on n-bit operands, and the flag of the corner cases. Signed division truncates toward zero and the
remainder takes the sign of the dividend. -/
def divide (n : Nat) (signed : Bool) (x y : Nat) : Int × Int × BitVec 6 :=
  let u := readInt n signed x
  let v := readInt n signed y
  if v = 0 then (if signed then -1 else intMax n false, u, fDZ)
  else if signed ∧ u = intMin n true ∧ v = -1 then (u, 0, fOF)
  else (Int.tdiv u v, Int.tmod u v, 0)

end Sys2Proof.Machine
end

