-- ==== Sys2Proof/Machine/L2.lean ====
section
/-! DEFINITION. The lines of L2 (R337 to R339, R351): their classes, victims, quarantine, and the bypasses counted where no way is free; and what an
access to a line's data, labels and shadow leaves there (R343). -/

namespace Sys2Proof.Machine

/-- Lines join a list of lines. -/
def addLines (ls old : List Nat) : List Nat := ls ++ old.filter fun l => !ls.contains l

/-- Whether two lines lie in one set of one slice (R337). -/
def sameSet (l m : Nat) : Bool := sliceOf (64 * l) == sliceOf (64 * m) && l / 128 % 4096 == m / 128 % 4096

/-- Enters a dirty line that cannot be corrected in its slice's quarantine table, and frees its way; the 65th raises a machine check, stays in its way
and holds every further write-back (R351). -/
def quarantine (s : State) (line : Nat) : State :=
  let n := sliceOf (64 * line)
  let st := stationOfCol (sliceCol n)
  let q := (s.slice n).quar
  let out (s : State) : State := { s with
    l2 := s.l2.filter fun x => x.line != line
    badL2 := s.badL2.filter (· != line) }
  if q.contains line then out s
  else if q.length < 64 then
    ((out s).modSlice n fun x => { x with quar := x.quar ++ [line] }).recordUnit st (n % 2) 63 0x42 (w64 (64 * line)) (w64 (q.length + 1))
  else if (s.slice n).held then s
  else ((s.modSlice n fun x => { x with held := true }).recordUnit st (n % 2) 63 0x43 (w64 (64 * line)) 0).raiseVector 1026

/-- Counts an all-pinned bypass; the first in each 1 ms of TSC writes the count of the 1 ms before it (R339). -/
def noteBypass (s : State) (line : Nat) (part : Nat) : State :=
  let n := sliceOf (64 * line)
  let x := s.slice n
  let ms := s.tsc.toNat / 1000000
  if x.period = ms ∧ 0 < x.bypasses then s.modSlice n fun x => { x with bypasses := x.bypasses + 1 }
  else (s.modSlice n fun x => { x with bypasses := 1, period := ms }).recordUnit (stationOfCol (sliceCol n)) (n % 2) part 0x4D
    (w64 (64 * line)) (w64 (if x.period + 1 = ms then x.bypasses else 0)) 0

/-- The victim of a full set (R338): never a pinned line; the least recently used of class short-lived, then default, then long-lived.
While the slice holds write-backs, only a clean line (R351). -/
def l2Victim (lines : List L2Line) (held : Bool) : Option L2Line :=
  let free := lines.filter fun x => !x.pinned && (!held || !x.dirty)
  match (free.filter fun x => x.cls == 1).getLast?, (free.filter fun x => x.cls == 0).getLast? with
  | some v, _ => some v
  | none, some v => some v
  | none, none => free.getLast?

/-- A line leaves its way: a dirty one is written back, which makes it whole in DRAM (R338). -/
def l2Leave (s : State) (x : L2Line) : State :=
  { s with
    l2 := s.l2.filter fun y => y.line != x.line
    bad := if x.dirty then s.bad.filter (· != x.line) else s.bad
    badL2 := s.badL2.filter (· != x.line) }

/-- A way for a new line of a full set: its victim leaves, a dirty one that cannot be corrected by quarantine; when that starts the slice's hold, another
victim, a clean one, is looked for (R351). With none left the access is a bypass (R339). -/
def l2Evict (s : State) (set : List L2Line) (line part : Nat) : Option State :=
  let n := sliceOf (64 * line)
  match l2Victim set (s.slice n).held with
  | none => none
  | some v =>
    if !(v.dirty && s.badL2.contains v.line) then some (l2Leave s v)
    else
      let s := quarantine s v.line
      if !(s.slice n).held then some s
      else some (match l2Victim set true with
        | some v => l2Leave s v
        | none => noteBypass s line part)

/-- A line enters L2, if some way of its set is free. -/
def l2Enter (s : State) (x : L2Line) : State :=
  if (s.l2.filter fun y => sameSet y.line x.line).length < 16 then { s with l2 := x :: s.l2 } else s

/-- An access at the home slice (R338, R339): a line present is made most recently used, with the access's class; an absent one is allocated,
unless the access bypasses, DRAM cannot give the line, the slice is out of service, or no victim is left. An uncorrectable dirty line that is read is
quarantined. DESIGN CHOICE (log 95): bypass is no class of R338's order, and a line that a bypass access finds keeps the class it has. -/
def l2Touch (s : State) (pa : Nat) (cls : BitVec 2) (alloc write : Bool) (part : Nat) : State :=
  let line := pa / 64
  match s.l2.find? fun x => x.line == line with
  | some x =>
    if x.dirty && s.badL2.contains line then quarantine s line
    else { s with l2 := { x with cls := if cls == 3 then x.cls else cls, dirty := x.dirty || write } :: s.l2.filter fun y => y.line != line }
  | none =>
    if !alloc || (s.slice (sliceOf pa)).retired || s.isBad pa then s
    else
      let set := s.l2.filter fun y => sameSet y.line line
      let entry : L2Line := ⟨line, cls, false, write, BitVec.ofNat 6 part⟩
      if set.length < 16 then { s with l2 := entry :: s.l2 }
      else match l2Evict s set line part with
        | none => noteBypass s line part
        | some s => l2Enter s entry

/-- Whether an access allocates in L2 (R154, R338). -/
def Acc.allocs (a : Acc) : Bool := a.cache < 2 && a.cls != 3

/-- An access at the home of a line of global or host memory: the data line, and the line of its label words, which is cached under the data
line's class (R338, R343). -/
def touchAcc (s : State) (a : Acc) (write : Bool) (part : Nat) : State :=
  if Config.spadBase ≤ a.addr then s
  else
    let s := l2Touch s a.addr a.cls a.allocs write part
    match a.lab with
    | some (_, la) => l2Touch s la a.cls a.allocs write part
    | none => s

/-- The same for the bytes and label words that are written to one line. -/
def touchWrite (s : State) (pa : Nat) (cls : BitVec 2) (part : Nat) (labs : List (Nat × BitVec 32)) : State :=
  let s := l2Touch s pa cls (cls != 3) true part
  match labs.head? with
  | some p => l2Touch s p.1 cls (cls != 3) true part
  | none => s

/-- The race check's access to a shadow word (R325, R343). -/
def touchShadow (s : State) (a : Acc) (write : Bool) (part : Nat) : State :=
  match a.rdet with
  | some (sh, _) => l2Touch s sh a.cls a.allocs write part
  | none => s

end Sys2Proof.Machine
end

