-- ==== Sys2Proof/Machine/Spaces.lean ====
section
/-! DEFINITION. Label spaces (R353 to R357, R362, R365): a space's descriptor, label table and intern index as words of device DRAM, what an Accord unit
holds of them in its caches, and the creation and tearing down of a space. -/

namespace Sys2Proof.Machine

namespace State

/-- Space `sp`; a space that firmware has not created is not live. -/
def space (s : State) (sp : BitVec 12) : Space := Tab.get s.spaces sp.toNat ⟨0, false, 0, [], 0, 0, 0, 0, []⟩

end State

/-! ### The words in memory (R355 to R357) -/

/-- The physical address of a space's descriptor of 2,112 bytes (R355). -/
def descAddr (s : State) (sp : BitVec 12) : Nat := s.fw.spdesc + 2112 * sp.toNat

namespace Space

/-- The 264 words of the descriptor (R355). -/
def words (x : Space) : List Word :=
  [w64 (x.owner.toNat + if x.live then 64 else 0), w64 (x.gen + x.ng.length * 2 ^ 32), w64 (x.tbase + x.tlog * 2 ^ 48), w64 x.hwm, w64 x.ibase, 0, 0, 0]
  ++ x.ng ++ List.replicate (256 - x.ng.length) 0

/-- The handles filed in a bucket, ascending. -/
def filed (x : Space) (b : Nat) : List Nat := (x.entries.filter fun (p : Nat × LEntry) => p.2.bucket == b).map fun (p : Nat × LEntry) => p.1

/-- The chain of a bucket runs from its highest handle down (R357: an allocation writes the bucket head last; log 34). -/
def head (x : Space) (b : Nat) : Nat := (x.filed b).getLast?.getD 0
/-- The handle after `h` in the chain of a bucket; 0 ends it. -/
def next (x : Space) (b h : Nat) : Nat := ((x.filed b).filter fun k => decide (k < h)).getLast?.getD 0

/-- The 16 words of the entry of a handle (R356); zero where none is allocated. -/
def entryWords (x : Space) (h : Nat) : List Word :=
  match Tab.get? x.entries h with
  | none => List.replicate 16 0
  | some e => w64 (e.envs.length + 16 + x.next e.bucket h * 2 ^ 8 + e.fgen * 2 ^ 32) :: e.envs ++ List.replicate (15 - e.envs.length) 0

/-- The bytes of the intern index: 2^(tlog − 2) heads of 4 (R355). -/
def indexBytes (x : Space) : Nat := 4 * 2 ^ (x.tlog - 2)

end Space

/-- A line of a space's tables is read or written: it is cached in L2 under the long-lived class (R354). -/
def touchTable (s : State) (a : Nat) (write : Bool) : State := l2Touch s a 2 true write 63

/-- The lines of a range of a space's tables are read. -/
def touchRange (s : State) (a n : Nat) : State :=
  (List.range ((a + n + 63) / 64 - a / 64)).foldl (fun s i => touchTable s (64 * (a / 64 + i)) false) s
/-- The entry of a handle is read: its first word, and its environments. -/
def touchEntry (s : State) (x : Space) (h : Nat) : State :=
  touchRange s (x.tbase + 128 * h) (8 + 8 * (Tab.get? x.entries h).elim 0 fun e => e.envs.length)
/-- A space's nogood list is read with the words of its descriptor that come before it. -/
def touchList (s : State) (sp : BitVec 12) (x : Space) : State := touchRange s (descAddr s sp) (64 + 8 * x.ng.length)

/-- Those words of a list that differ from the ones before it are written from an address, in order. -/
def putWords (s : State) (a : Nat) (old new : List Word) : State :=
  (List.range new.length).foldl (fun s i =>
    if old.getD i 0 = new.getD i 0 then s else touchTable (s.setWord (a + 8 * i) (new.getD i 0)) (a + 8 * i) true) s

/-- An entry is written, words 1 to 15 before word 0 (R357). -/
def putEntry (old new : Space) (s : State) (h : Nat) : State :=
  let a := new.tbase + 128 * h
  let w := new.entryWords h
  let o := old.entryWords h
  putWords (putWords s (a + 8) (o.drop 1) (w.drop 1)) a (o.take 1) (w.take 1)

/-- The head of a bucket is written. -/
def putHead (old new : Space) (s : State) (b : Nat) : State :=
  if old.head b = new.head b then s else touchTable (s.setNum (new.ibase + 4 * b) 4 (new.head b)) (new.ibase + 4 * b) true

/-- What changes of a space is written to its DRAM: entries, then the descriptor with hwm, and last the bucket heads (R357). -/
def storeSpace (s : State) (sp : BitVec 12) (old new : Space) : State :=
  let es := old.entries ++ new.entries
  let s := ((es.map fun (p : Nat × LEntry) => p.1).eraseDups).foldl (putEntry old new) s
  let s := putWords s (descAddr s sp) old.words new.words
  ((es.map fun (p : Nat × LEntry) => p.2.bucket).eraseDups).foldl (putHead old new) s

/-- The state with a space changed, and its words in DRAM with it. -/
def State.modSpace (s : State) (sp : BitVec 12) (f : Space → Space) : State :=
  storeSpace { s with spaces := Tab.put s.spaces sp.toNat (f (s.space sp)) } sp (s.space sp) (f (s.space sp))

/-! ### An Accord unit's caches (R362) -/

namespace State

/-- The generation of a space that Accord unit `u` knows. -/
def unitGen (s : State) (u : Nat) (sp : BitVec 12) : Nat := Tab.get (s.col u).gens sp.toNat 0
/-- The nogood list of a space that a unit stores. -/
def unitList (s : State) (u : Nat) (sp : BitVec 12) : Option (List Word) := ((s.col u).lists.find? fun p => p.1 == sp.toNat).map fun p => p.2

/-- A space as a unit sees it: the generation it knows, the nogoods of its store, or else of the descriptor, and the entries of its cache, or else of
the table. -/
def unitSpace (s : State) (u : Nat) (sp : BitVec 12) : Space :=
  let x := s.space sp
  { x with
    gen := s.unitGen u sp
    ng := (s.unitList u sp).getD x.ng
    entries := ((s.col u).ecache.filter fun p => p.1.1 == sp.toNat).foldl (fun m p => Tab.put m p.1.2 p.2) x.entries }

/-- What serving a request leaves in a unit's caches: the space's nogood list, fetched if it was absent, and the entries read. The lines that it fetches
come from L2 (R354). -/
def noteUnit (s : State) (u : Nat) (sp : BitVec 12) (hs : List Nat) : State :=
  let x := s.unitSpace u sp
  let cached (h : Nat) : Bool := (s.col u).ecache.any fun p => p.1 == (sp.toNat, h)
  let s := if (s.unitList u sp).isSome then s else touchList s sp x
  let s := (hs.filter fun h => !cached h).foldl (fun s h => touchEntry s x h) s
  let read := hs.filterMap fun h => (Tab.get? x.entries h).map fun e => ((sp.toNat, h), e)
  s.modCol u fun k => { k with
    lists := ((sp.toNat, x.ng) :: k.lists.filter fun p => p.1 != sp.toNat).take 32
    ecache := (read ++ k.ecache.filter fun p => !read.any fun q => q.1 == p.1).take 2048 }

/-- A broadcast reaches a unit: it knows the generation, appends the nogood to the stored list, and drops the cached entries filtered under an older
generation (R362). -/
def learn (s : State) (u : Nat) (sp : BitVec 12) (env : Word) (gen : Nat) : State :=
  s.modCol u fun k => { k with
    gens := Tab.put k.gens sp.toNat (max (Tab.get k.gens sp.toNat 0) gen)
    lists := k.lists.map fun p => if p.1 = sp.toNat ∧ !p.2.contains env then (p.1, p.2 ++ [env]) else p
    ecache := k.ecache.filter fun p => p.1.1 != sp.toNat || decide (gen ≤ p.2.fgen) }

end State

/-! ### Creating and tearing down (R365) -/

/-- The table and the index of a space read zero. -/
def clearTables (s : State) (x : Space) : State :=
  { s with mem := dropRange (dropRange s.mem x.tbase (x.tbase + 128 * 2 ^ x.tlog)) x.ibase (x.ibase + x.indexBytes) }

/-- Firmware creates a space that is not live, within the partition's quota: its descriptor with generation, nogood count and hwm 0 and every bucket head 0, then live (R365). A place or a
size that no table can have is not chosen (R355). -/
def createSpace (s : State) (part : BitVec 6) (sp : BitVec 12) (tbase tlog ibase : Nat) : State :=
  let x : Space := ⟨part, false, 0, [], tbase, tlog, 0, ibase, []⟩
  let mine := (s.spaces.filter fun (p : Nat × Space) => p.2.live && p.2.owner == part).length
  if (s.space sp).live || Config.spaceQuota part ≤ mine || tlog < 10 || 24 < tlog || tbase % 4096 ≠ 0 || Config.metaBase < tbase + 128 * 2 ^ tlog || Config.metaBase < ibase + x.indexBytes then s
  else (State.modSpace (clearTables s x) sp fun _ => x).modSpace sp fun x => { x with live := true }

/-- A space goes with its partition: live is 0, its table and index are clear, no unit holds anything of it any more, and nothing of it is still on its way (R365). -/
def destroySpace (s : State) (sp : BitVec 12) : State :=
  let x := s.space sp
  let s := (clearTables s x).modSpace sp fun y => { y with live := false, hwm := 0, entries := [] }
  { s with
    rewrites := s.rewrites.filter fun r => r.sp != sp
    nogoods := s.nogoods.filter fun g => g.sp != sp
    labelJobs := s.labelJobs.filter fun j => j.sp != sp
    compacts := s.compacts.filter fun j => j.sp != sp
    cols := s.cols.map fun (p : Nat × Column) => (p.1, { p.2 with
      gens := Tab.del p.2.gens sp.toNat
      lists := p.2.lists.filter fun q => q.1 != sp.toNat
      ecache := p.2.ecache.filter fun q => q.1.1 != sp.toNat })
    cells := s.cells.map fun (p : Nat × Cell) => (p.1, { p.2 with pcache := p.2.pcache.filter fun e => match e with
      | .product k _ _ _ => k != sp
      | .content k _ _ => k != sp }) }

end Sys2Proof.Machine
end

