-- ==== Sys2Proof/Machine/Accord.lean ====
section
/-! DEFINITION. The Accord label units (R230, R231, R234, R353 to R364): minimisation and the nogood filter, reading an entry under a unit's
generation, evaluating a request at the serving unit, interning at the home unit, and the answer that fills a register. -/

namespace Sys2Proof.Machine

/-! ### Sets of environments -/

/-- The environments of which no other one of the set is a subset (R230), each once. -/
def minimise (t : List Word) : List Word := (t.filter fun e => !(t.any fun f => f != e && e &&& f == f)).eraseDups
/-- The environments that contain none of these nogoods (R230). -/
def filterNg (ng : List Word) (t : List Word) : List Word := t.filter fun e => !(ng.any fun g => e &&& g == g)
/-- One environment put into an ascending list. -/
def insEnv (e : Word) : List Word → List Word
  | [] => [e]
  | f :: t => if e.toNat ≤ f.toNat then e :: f :: t else f :: insEnv e t
/-- The environments in ascending order as n64 (R231). -/
def sortEnvs (t : List Word) : List Word := t.foldr insEnv []

/-! ### Spaces and units -/

/-- The home unit of a space: unit sp mod 64, or the next one whose station has power (R353). -/
def homeUnit (s : State) (sp : BitVec 12) : Option Nat :=
  ((List.range 64).map fun i => (sp.toNat + i) % 64).find? fun u => (s.col u).stationPower

/-- The content of a handle as a unit that sees the space so reads it (R231, R358): an entry last filtered under an older generation is filtered. -/
def readEntry (x : Space) (h : BitVec 24) : List Word :=
  match Tab.get? x.entries h.toNat with
  | none => []
  | some e => if e.fgen < x.gen then filterNg x.ng e.envs else e.envs

/-- The environments of a label as a unit reads them. -/
def envsOf (x : Space) (l : Label) : List Word := if l.isTop then [0] else if l.isBot then [] else readEntry x l.h

/-- The rewrites that a unit sends for the entries it filtered (R358). -/
def rewritesFor (u : Nat) (x : Space) (sp : BitVec 12) (ls : List Label) : List Rewrite :=
  (ls.filter Label.proper).filterMap fun l => match Tab.get? x.entries l.h.toNat with
    | some e => if e.fgen < x.gen then some ⟨u, sp, l.h.toNat, filterNg x.ng e.envs, x.gen⟩ else none
    | none => none

/-- A unit serves a request about labels: its caches take what it read, and the rewrites leave (R358, R362). -/
def serveUnit (s : State) (u : Nat) (sp : BitVec 12) (ls : List Label) : State :=
  let r := rewritesFor u (s.unitSpace u sp) sp ls
  let s := s.noteUnit u sp ((properLabels ls).map fun l => l.h.toNat)
  { s with rewrites := s.rewrites ++ r }

/-- What evaluating a product comes to: an outcome, or a set to be interned. -/
inductive Eval where
  | known (r : PRes)
  | set (envs : List Word)
deriving DecidableEq, Repr

/-- A minimised and filtered set as a label (R230, R234). -/
def evalSet (envs : List Word) : Eval :=
  if envs.isEmpty then .known (.lab .bot) else if envs = [0] then .known (.lab .top)
  else if 8 < envs.length then .known (.past 0) else .set (sortEnvs envs)

/-- The folding of R230 over the sources from the set formed so far: ⊥ when it becomes empty, overflow 1 above 64. -/
def foldProduct (ng : List Word) : List Word → List (List Word) → Eval
  | acc, [] => evalSet acc
  | acc, es :: t =>
    let n := filterNg ng (minimise (acc.flatMap fun e => es.map fun f => e ||| f))
    if n.isEmpty then .known (.lab .bot) else if 64 < n.length then .known (.past 1) else foldProduct ng n t

/-- The product of labels as a unit evaluates it (R230). -/
def evalProduct (x : Space) (ls : List Label) : Eval :=
  if ls.any Label.isBot then .known (.lab .bot)
  else foldProduct x.ng [0] ((ls.filter fun l => !l.isTop).map (envsOf x))

/-- What the serving unit makes of a request: the next stage, and the labels whose entries it read. An entry with no environment left reads
as ⊥ (R231): LTAG then adds none, and LSET gives ⊥ (DEDUCED, log 26). -/
def evalAsk (x : Space) (sp : BitVec 12) (ask : Ask) : Stage × List Label :=
  let finish (e : Eval) : Stage := match e with
    | .known r => .answered r 0 []
    | .set envs => .formed envs
  match ask with
  | .product ls => (finish (evalProduct x ls), ls)
  | .tag la e _ =>
    let es := if la.isTop then [e] else match envsOf x la with
      | [] => []
      | ea => e :: ea
    (finish (evalSet (filterNg x.ng (minimise es))), [la])
  | .count l => (.answered (.lab .top) (w64 (envsOf x l).length) (envsOf x l), [l])
  | .env l i => (.answered (.lab .top) ((envsOf x l).getD i.toNat 0) (envsOf x l), [l])
  | .holds l e => (.answered (.lab .top) (bool64 (holdsIn (envsOf x l) e)) (envsOf x l), [l])
  | .get l => (.answered (.lab .top) (if (envsOf x l).isEmpty then 0xFFFFFF else w64 (l.h.toNat + sp.toNat * 2 ^ 24)) (envsOf x l), [l])
  | .set l => (.answered (.lab (if (envsOf x l).isEmpty then .bot else l)) 0 (envsOf x l), [l])
  | .sel l view _ _ => (.answered (.lab l) (bool64 (holdsIn (envsOf x l) view)) (envsOf x l), [l])
  | .content l => (.answered (.lab l) 0 (envsOf x l), [l])

/-! ### Interning (R357) -/

/-- The bucket of a content. -/
def bucketOf (tlog : Nat) (envs : List Word) : Nat :=
  let x := (List.range envs.length).foldl (fun (x : Word) i => x ^^^ (envs.getD i 0).rotateLeft (8 * i)) 0
  (hashW x (w64 envs.length)).toNat % 2 ^ (tlog - 2)

/-- An entry refiltered under the space's generation, in the bucket of its content (R231, R357). -/
def refilter (x : Space) (e : LEntry) : LEntry :=
  if e.fgen < x.gen then
    let envs := filterNg x.ng e.envs
    ⟨envs, x.gen, bucketOf x.tlog envs⟩
  else e

/-- The largest handle that the table can hold (R356). -/
def maxHandle (x : Space) : Nat := min (2 ^ x.tlog - 1) 0xFFFFFE

/-- `intern` (R231, R357): the bucket's older entries are refiltered, the lowest handle with this content is returned, and otherwise the next
handle is allocated, as last filtered under the generation `gen` under which the set was formed (R241); overflow 2 when the table is full. -/
def internSet (x : Space) (sp : BitVec 12) (gen : Nat) (envs : List Word) : PRes × Space :=
  let b := bucketOf x.tlog envs
  let x := { x with entries := x.entries.map fun (p : Nat × LEntry) => if p.2.bucket = b then (p.1, refilter x p.2) else p }
  match x.entries.find? fun (p : Nat × LEntry) => p.2.bucket == b && p.2.envs == envs with
  | some p => (.lab ⟨sp, BitVec.ofNat 24 p.1⟩, x)
  | none =>
    if x.hwm < maxHandle x then
      (.lab ⟨sp, BitVec.ofNat 24 (x.hwm + 1)⟩, { x with hwm := x.hwm + 1, entries := Tab.put x.entries (x.hwm + 1) ⟨envs, gen, b⟩ })
    else (.past 2, x)

/-- Interning at the home unit, which reads the bucket's head and the entries of its chain (R354, R357). -/
def internAt (s : State) (sp : BitVec 12) (gen : Nat) (envs : List Word) : PRes × State :=
  let x := s.space sp
  let b := bucketOf x.tlog envs
  let s := (x.filed b).foldl (fun s h => touchEntry s x h) (touchTable s (x.ibase + 4 * b) false)
  let r := internSet x sp gen envs
  (r.1, s.modSpace sp fun _ => r.2)

/-- The product of labels formed in one go, as the column's unit and the home unit do for an engine or the matrix unit (R255, R213, log 15). -/
def productNow (s : State) (u : Nat) (ls : List Label) : PRes × State :=
  if ls.any Label.isBot then (.lab .bot, s)
  else match properLabels ls with
    | [] => (.lab .top, s)
    | l :: t =>
      if t.isEmpty then (.lab l, s)
      else
        let x := s.unitSpace u l.sp
        let s := serveUnit s u l.sp ls
        match evalProduct x (properLabels ls) with
        | .known r => (r, s)
        | .set envs =>
          internAt s l.sp x.gen envs

/-! ### A space whose words something else than a unit has written (R354) -/

/-- What the words of a descriptor now say of a space (R355). -/
def rereadDesc (s : State) (sp : Nat) (x : Space) : Space :=
  let d := s.fw.spdesc + 2112 * sp
  let w (i : Nat) := s.word (d + 8 * i)
  { x with
    owner := (w 0).extractLsb' 0 6
    live := bit (w 0) 6
    gen := fld (w 1) 0 32
    ng := (List.range (min 256 (fld (w 1) 32 9))).map fun i => w (8 + i)
    tbase := fld (w 2) 0 48
    tlog := fld (w 2) 48 5
    hwm := fld (w 3) 0 24
    ibase := fld (w 4) 0 48 }

/-- What the words of an entry now say (R356). The chains of the intern index keep their order (log 34). -/
def rereadEntry (s : State) (x : Space) (h : Nat) : Space :=
  let a := x.tbase + 128 * h
  let w := s.word a
  let envs := (List.range (min 8 (fld w 0 4))).map fun i => s.word (a + 8 + 8 * i)
  { x with entries := if bit w 4 then
      Tab.put x.entries h ⟨envs, fld w 32 32, (Tab.get? x.entries h).elim (bucketOf x.tlog envs) LEntry.bucket⟩
    else Tab.del x.entries h }

/-- A word was stored by the host at an address: the units read what stands there now. -/
def rereadSpaces (s : State) (a : Nat) : State :=
  let s := { s with spaces := s.spaces.map fun (p : Nat × Space) =>
    if p.2.tbase ≤ a ∧ a < p.2.tbase + 128 * 2 ^ p.2.tlog then (p.1, rereadEntry s p.2 ((a - p.2.tbase) / 128)) else p }
  if s.fw.spdesc ≤ a ∧ a < s.fw.spdesc + 2112 * 4096 then
    let sp := (a - s.fw.spdesc) / 2112
    { s with spaces := Tab.put s.spaces sp (rereadDesc s sp (s.space (BitVec.ofNat 12 sp))) }
  else s

/-! ### Answers -/

/-- The set of an entry (R360, log 81). -/
def PEntry.set : PEntry → BitVec 6
  | .product sp ha hb _ => Config.pcacheSet sp ha hb
  | .content sp h _ => Config.pcacheSet sp h h

/-- An entry goes into a cell's product cache of 64 sets of 4 ways, in the place of the least recently used of a full set (R360); the list has the most recently used
first. -/
def putPcache (s : State) (n : Nat) (e : PEntry) : State :=
  let rest := (s.cell n).pcache.filter (· != e)
  if rest.length < 4 then s.modCell n fun k => { k with pcache := e :: rest }
  else
    let set := rest.filter fun x => x.set == e.set
    if set.length < 4 then s.modCell n fun k => { k with pcache := e :: rest }
    else
      let out := set.getLastD e
      s.modCell n fun k => { k with pcache := e :: rest.filter (· != out) }

/-- What an answer leaves in the cell's product cache (R360), if the unit evaluated it under the generation the column now knows (R361). -/
def cacheAnswer (s : State) (j : LabelJob) (res : PRes) (envs : List Word) : State :=
  let n := cellOf j.c
  let put (e : PEntry) : State := putPcache s n e
  let content (l : Label) : State := if l.proper then put (.content j.sp l.h envs) else s
  if s.unitGen (colOf n) j.sp ≠ j.gen then s
  else match j.ask with
    | .product ls => match properLabels ls with
      | [a, b] =>
        if a.h.toNat < b.h.toNat then put (.product j.sp a.h b.h res)
        else if b.h.toNat < a.h.toNat then put (.product j.sp b.h a.h res) else s
      | _ => s
    | .tag _ _ _ => s
    | .count l => content l
    | .env l _ => content l
    | .holds l _ => content l
    | .get l => content l
    | .set l => content l
    | .sel l _ _ _ => content l
    | .content l => content l

/-- Whether a register still awaits a label answer. -/
def awaitsLabel (a : Arch) (d : RegId) : Bool := (a.rmeta d).fe == .empty && (a.rmeta d).dueLab

/-- The state and label of a register whose product came to `r` (R14, R20 rule 7). -/
def resMeta (r : PRes) (pc : Word) : Reg Unit :=
  match r with
  | .lab l => fullMeta l
  | .past k => ⟨(), .faulted, .top, k, pc, false, false⟩

/-- Fills the register of an answered request. -/
def fillAnswer (a : Arch) (j : LabelJob) (d : RegId) (res : PRes) (v : Word) : Arch :=
  if !awaitsLabel a d then a
  else match j.ask with
    | .product _ => a.setMeta d (resMeta res j.pc)
    | .tag _ _ _ => a.setMeta d (resMeta res j.pc)
    | .set _ => a.setMeta d (resMeta res j.pc)
    | .sel _ _ b lb => if v = 1 then a.setMeta d (resMeta res j.pc) else a.setReg d (.w b) (fullMeta lb)
    | .count _ => a.setReg d (.w v) (fullMeta .top)
    | .env _ _ => a.setReg d (.w v) (fullMeta .top)
    | .holds _ _ => a.setReg d (.w v) (fullMeta .top)
    | .get _ => a.setReg d (.w v) (fullMeta .top)
    | .content _ => a

end Sys2Proof.Machine
end

