-- ==== Sys2Proof/Machine/Fabric.lean ====
section
/-! DEFINITION. Routes and loops of the fabric: the 24 loops (R437), a route's segments (R441), and the seven checks before
injection (R443). -/

namespace Sys2Proof.Machine

/-- Loop `l` as the stations know it. -/
def State.loop (s : State) (l : Nat) : LoopSt := Tab.get s.loops l (loopDefault l)
/-- A station's status: 0 working, 1 failed, 2 without power (R448). -/
def State.station (s : State) (n : Nat) : Nat := Tab.get s.stations n 0
/-- A port's status: 0 up, 1 down, 2 training (R448). -/
def State.port (s : State) (n : Nat) : Nat := Tab.get s.ports n 0

/-- A segment (R441): loop byte and exit byte. -/
abbrev Seg := Nat × Nat
/-- The four segments of a route (R441). -/
def segments (r : Word) : List Seg := (List.range 4).map fun i => (fld r (16 * i + 8) 8, fld r (16 * i) 8)
/-- An empty segment. -/
def segEmpty (g : Seg) : Bool := g.1 == 0xFF && g.2 == 0xFF
/-- A segment over a loop: its loop and whether it is of the escape class. -/
def segLoop (g : Seg) : Option (Nat × Bool) :=
  if g.1 ≤ 0x17 then some (g.1, false) else if 0x40 ≤ g.1 ∧ g.1 ≤ 0x57 then some (g.1 - 0x40, true) else none
/-- A segment through a device-link port. -/
def segPort (g : Seg) : Option Nat := if 0x80 ≤ g.1 ∧ g.1 ≤ 0x87 ∧ g.2 = 0 then some (g.1 - 0x80) else none
/-- The segments before the first empty one. -/
def usedSegs (r : Word) : List Seg := (segments r).takeWhile fun g => !segEmpty g
/-- The segments up to the first port segment. -/
def localSegs (r : Word) : List Seg := (usedSegs r).takeWhile fun g => (segPort g).isNone
/-- The port through which a route leaves the device, if it does. -/
def routePort (r : Word) : Option Nat := ((usedSegs r).filterMap segPort).head?
/-- The entry station of each segment, beside it (R443). -/
def withEntries (src : Nat) : List Seg → List (Nat × Seg)
  | [] => []
  | g :: t => (src, g) :: withEntries g.2 t
/-- Ranks strictly rise, or strictly fall. -/
def strictly (up : Bool) : List Nat → Bool
  | [] => true
  | [_] => true
  | a :: b :: t => (if up then decide (a < b) else decide (b < a)) && strictly up (b :: t)
/-- The I/O station of a port (R436). -/
def portStation (p : Nat) : Nat := 19 * (p / 2) + 18

/-- The checks of R443 on a route from station `src` to `dst` for a partition: the number of the first failing one. A port that is
down fails check 2 (R450). -/
def routeCheck (s : State) (part src dst : Nat) (r : Word) : Option Nat :=
  let used := usedSegs r
  let loc := withEntries src (localSegs r)
  let ok1 := !used.isEmpty && ((segments r).drop used.length).all segEmpty && used.all fun g => (segLoop g).isSome || (segPort g).isSome
  let lp (g : Seg) := match segLoop g with
    | some (l, _) => s.loop l
    | none => ⟨1, 0, []⟩
  let ok2 := (loc.all fun p => (lp p.2).st == 0 && (match segLoop p.2 with | some (l, _) => decide (l < 24) | none => false))
    && (match routePort r with | some p => s.port p == 0 | none => true)
  let ok3 := loc.all fun p => decide (p.1 < 76) && decide (p.2.2 < 76) && s.station p.1 == 0 && s.station p.2.2 == 0
  let ok4 := loc.all fun p => (lp p.2).order.contains p.1 && (lp p.2).order.contains p.2.2 && p.1 != p.2.2
  let mask := (s.part part).stations
  let ok5 := loc.all fun p => mask.getLsbD p.1 && mask.getLsbD p.2.2
  let classes := loc.filterMap fun p => (segLoop p.2).map (·.2)
  let ok6 := (classes.all (· == false) || classes.all (· == true)) && strictly (!(classes.head?.getD false)) (loc.map fun p => (lp p.2).rank)
  let last := (localSegs r).foldl (fun _ g => g.2) src
  let ok7 := match routePort r with
    | some p => last == portStation p
    | none => last == dst
  if !ok1 then some 1 else if !ok2 then some 2 else if !ok3 then some 3 else if !ok4 then some 4
  else if !ok5 then some 5 else if !ok6 then some 6 else if !ok7 then some 7 else none

/-- A handle entry's route segment as a whole route (R441, R442): the segment alone, or the route-cache entry it names, with that
entry's index. -/
def segRoute (k : Cell) (seg : Nat) : Word × Option Nat :=
  if seg / 256 = 0xE0 then (Tab.get k.routes (seg % 256) (BitVec.allOnes 64), some (seg % 256))
  else (putFld (BitVec.allOnes 64) 0 16 seg, none)

/-- The system route of a pair of stations (R442). -/
def State.sysRoute (s : State) (src dst : Nat) : Word := Tab.get s.sysroutes (76 * src + dst) (sysRouteDefault src dst)
/-- The check of R443 at which a system route fails; a packet within one station is not routed (R442). -/
def sysCheck (s : State) (part src dst : Nat) : Option Nat :=
  if src = dst then none else routeCheck s part src dst (s.sysRoute src dst)
/-- The DRAM station of an address (R341, R436): that of the stack in which its line lies. -/
def dramStation (a : Nat) : Nat :=
  let k := (a / 2 ^ 12 % 8).xor (a / 2 ^ 20 % 8)
  19 * (k / 2) + 16 + k % 2
/-- The pairs of stations between which an access from a station goes (R442): to the home slice of a global address, and, where L2 does not hold the line, from there to
the DRAM station. The segment of a handle entry, checked in the address phase, carries an access to a scratchpad. -/
def legs (s : State) (src a : Nat) : List (Nat × Nat) :=
  if Config.spadBase ≤ a then []
  else
    let h := stationOfCol (homeCol a)
    (src, h) :: if a < Config.dramSize ∧ !inL2 s (a / 64) then [(h, dramStation a)] else []
/-- The check at which the packets of an access from a cell fail on the system routes (R443). -/
def accessCheck (s : State) (part cell a : Nat) : Option Nat := (legs s (stationOf cell) a).findSome? fun p => sysCheck s part p.1 p.2
/-- An access of a cell's unit can reach its home: that has power, or lies on another device, and the system route passes (R384, R443). -/
def reaches (s : State) (part cell a : Nat) : Bool := reachesHome s a && (accessCheck s part cell a).isNone
/-- A context's access can reach its home. -/
def ctxReaches (s : State) (c a : Nat) : Bool := reaches s (s.ctx c).arch.partition (cellOf c) a
/-- A packet whose system route fails is held at its source, and a record says so, one for each pair of stations until firmware rewrites the route (R443,
R463). `note` writes the record of a route and a check. -/
def noteRoute (note : State → Word → Word → State) (s : State) (part src dst : Nat) : State :=
  match sysCheck s part src dst with
  | none => s
  | some n =>
    if s.heldRoutes.contains (src, dst) then s
    else note { s with heldRoutes := (src, dst) :: s.heldRoutes } (s.sysRoute src dst) (w64 n)
/-- A context's packet for the home of an address, when it is held. -/
def holdAccess (s : State) (c a : Nat) : State :=
  (legs s (stationOf (cellOf c)) a).foldl (fun s p => noteRoute (fun s route n => s.recordCtx c 0x58 route n) s (s.ctx c).arch.partition p.1 p.2) s

end Sys2Proof.Machine
end

