-- ==== Sys2Proof/Machine/Access.lean ====
section
/-! DEFINITION. The address phase of an access (R152): the handle entry (R26), `read_ref` (R39), the parameter window (R40), the peer
check (R25, R443, R444), translation (R345 to R348), page permissions, the label checks (R155) and the race check (R325). -/

namespace Sys2Proof.Machine

/-! ### Page-table entries (R345) -/

/-- The fields of a leaf entry that an access uses. -/
def pteRd (p : Word) : Bool := bit p 3
/-- Writable. -/
def pteWr (p : Word) : Bool := bit p 4
/-- Executable. -/
def pteExec (p : Word) : Bool := bit p 5
/-- Cache attribute. -/
def pteCache (p : Word) : Nat := fld p 6 2
/-- Write-through at L1. -/
def pteWthru (p : Word) : Bool := bit p 8
/-- Default retention class. -/
def pteRet (p : Word) : Nat := fld p 10 2
/-- Physical address. -/
def ptePa (p : Word) : Nat := fld p 12 36 * 4096
/-- Labelled. -/
def pteLab (p : Word) : Bool := bit p 48
/-- Race-detect. -/
def pteRdet (p : Word) : Bool := bit p 49
/-- Race action. -/
def pteRlog (p : Word) : Bool := bit p 50
/-- Label space. -/
def pteLsp (p : Word) : BitVec 12 := p.extractLsb' 52 12

/-- The size of the page that a leaf maps (R346); none where a leaf is a page fault. -/
def pageSize (level : Nat) (ct : Bool) : Option Nat :=
  match level, ct with
  | 0, false => some 0x1000
  | 0, true => some 0x10000
  | 1, false => some 0x200000
  | 1, true => some 0x4000000
  | 2, false => some 0x40000000
  | _, _ => none

/-- A leaf that R347 faults: a reserved bit, cache 3, an unaligned page, a label space that is not the partition's, or labels on an executable
page. -/
def badLeaf (s : State) (part : BitVec 6) (e : Word) (size : Nat) : Bool :=
  bit e 51 || pteCache e == 3 || ptePa e % size != 0 ||
  (pteLab e && (pteExec e || (match Tab.get? s.spaces (pteLsp e).toNat with
    | some x => !x.live || x.owner != part
    | none => true)))

/-- A physical address that no memory answers (R341). -/
def noMemory (pa : Nat) : Bool := decide (Config.dramSize ≤ pa) && decide (pa < Config.hostBase)

/-- Entries of a contiguous group at a level; 1 where there are none (R346). -/
def groupOf (level : Nat) : Nat := if level = 0 then 16 else if level = 1 then 32 else 1

/-- A page walk from a table at level `l` (the first argument is `l + 1`) for a partition's virtual address (R345 to R347); it ends in the page fault, or,
where it meets an uncorrectable table entry, in the data error fault (R350). An entry of a contiguous group whose first entry is no such leaf faults
(log 17), and so does a table that lies in no memory (log 43). -/
def walkFrom (s : State) (part : BitVec 6) (va : Nat) : Nat → Nat → Except (BitVec 8) TlbEntry
  | 0, _ => .error 0x17
  | l + 1, base =>
    let idx := va / 2 ^ (12 + 9 * l) % 512
    let grp := groupOf l
    let first := s.word (base + 8 * (idx / grp * grp))
    let contig := grp != 1 && bit first 0 && bit first 1 && bit first 2
    let e := if contig then first else s.word (base + 8 * idx)
    if noMemory base then .error 0x17
    else if s.isBad (base + 8 * (idx / grp * grp)) || (!contig && s.isBad (base + 8 * idx)) then .error 0x18
    else if !bit e 0 then .error 0x17
    else if !bit e 1 then
      if fld e 1 11 != 0 || fld e 48 16 != 0 then .error 0x17 else walkFrom s part va l (ptePa e)
    else match pageSize l (bit e 2) with
      | none => .error 0x17
      | some size => if badLeaf s part e size || (bit e 2 && !contig) then .error 0x17 else .ok ⟨part, va / size * size, size, e⟩
/-- A page walk from the partition's root, with the cause of the fault that it ends in. -/
def walkPart (s : State) (part : BitVec 6) (va : Nat) : Except (BitVec 8) TlbEntry := walkFrom s part va 5 (s.part part.toNat).root
/-- The page that a walk finds; none where it faults. -/
def walkTable (s : State) (part : BitVec 6) (va : Nat) : Option TlbEntry := (walkPart s part va).toOption

/-- The addresses of the table entries that a walk reads (R348). -/
def walkReads (s : State) (va : Nat) : Nat → Nat → List Nat
  | 0, _ => []
  | l + 1, base =>
    let own := base + 8 * (va / 2 ^ (12 + 9 * l) % 512)
    let first := base + 8 * (va / 2 ^ (12 + 9 * l) % 512 / groupOf l * groupOf l)
    first :: own :: if bit (s.word own) 0 && !bit (s.word own) 1 then walkReads s va l (ptePa (s.word own)) else []

/-- The pages, with their sizes, that the tables from `base` at level `l` (the first argument is `l + 1`) map onto a page of memory that holds `pa`. -/
def leavesOver (s : State) (pa : Nat) : Nat → Nat → List (Word × Nat)
  | 0, _ => []
  | l + 1, base => (List.range 512).flatMap fun i =>
    let e := s.word (base + 8 * i)
    if !bit e 0 then []
    else if !bit e 1 then leavesOver s pa l (ptePa e)
    else match pageSize l (bit e 2) with
      | some size => if ptePa e ≤ pa ∧ pa < ptePa e + size then [(e, size)] else []
      | none => []
/-- The pages of every partition that hold a physical address. -/
def pagesOver (s : State) (pa : Nat) : List (Word × Nat) := s.parts.flatMap fun (p : Nat × Part) => leavesOver s pa 5 p.2.root

/-- The cached translation of a virtual address for a partition. -/
def tlbFind (t : List TlbEntry) (part : BitVec 6) (va : Nat) : Option TlbEntry :=
  t.find? fun e => e.part == part && decide (e.va ≤ va) && decide (va < e.va + e.size)

/-- Translation (R348): the cell's cache, then the column's, then a page walk, for which the slot idles; a walk that faulted raises the
page fault (R347), whose TVAL is `tval`. -/
def translate (s : State) (c : Nat) (va : Nat) (tval : Word) : Except Stop TlbEntry :=
  let x := s.ctx c
  let part := BitVec.ofNat 6 x.arch.partition
  match tlbFind (s.cell (cellOf c)).tlb part va with
  | some e => .ok e
  | none => match tlbFind (s.col (colOf (cellOf c))).tlb part va with
    | some e => .ok e
    | none => match x.walkFault with
      | some f => if f.1.toNat / 4096 = va / 4096 then raise f.2.toNat tval else .error (.wait (.walk (w64 va)))
      | none => .error (.wait (.walk (w64 va)))

/-- The physical address of a virtual one under its translation. -/
def physOf (e : TlbEntry) (va : Nat) : Nat := ptePa e.pte + (va - e.va)

/-! ### Handle entries (R24, R26) -/

namespace HEntry
/-- base. -/
def base (e : HEntry) : Nat := fld e.w0 0 57
/-- kind. -/
def kind (e : HEntry) : Nat := fld e.w0 57 3
/-- bound. -/
def bound (e : HEntry) : Nat := fld e.w1 0 40
/-- cpol. -/
def cpol (e : HEntry) : Nat := fld e.w1 40 2
/-- entry valid. -/
def valid (e : HEntry) : Bool := bit e.w1 42
/-- read permitted. -/
def rd (e : HEntry) : Bool := bit e.w1 43
/-- write permitted. -/
def wr (e : HEntry) : Bool := bit e.w1 44
/-- access to labelled pages permitted. -/
def lab (e : HEntry) : Bool := bit e.w1 45
/-- access to race-detect pages permitted. -/
def rdet (e : HEntry) : Bool := bit e.w1 46
/-- target cell. -/
def tcell (e : HEntry) : Nat := fld e.w1 48 10
/-- EFP8 block directory. DESIGN CHOICE (log 76): R24 gives an entry of kind 2 no bdir, and an EFP8 access through one takes the low 40 bits of its word
2, which hold lgen. -/
def bdir (e : HEntry) : Nat := fld e.w2 0 40
/-- A reserved field is nonzero (R24): for each kind, every bit that the kind does not define. -/
def reserved (e : HEntry) : Bool :=
  fld e.w0 60 4 != 0 || bit e.w1 47 || fld e.w1 58 6 != 0 ||
  (if e.kind = 2 then fld e.w3 33 31 != 0
   else e.tcell != 0 || e.w3 != 0 || (if e.kind = 4 then e.w2 != 0 else fld e.w2 40 24 != 0))
end HEntry

/-- The virtual address of a handle entry (R26). -/
def handleVa (a : Arch) (idx : Nat) : Nat := (fld a.htbase 12 45 * 4096 + 32 * idx) % 2 ^ 57

/-- The copy of a line in a cell's L1. -/
def l1Find (k : Cell) (line : Nat) : Option L1Line := k.l1.find? fun x => x.line == line

/-- The byte at an address with what the cell's own contexts have written there: a dirty byte of its L1, or the home's. -/
def cellByte (s : State) (n a : Nat) : Byte :=
  match (l1Find (s.cell n) (a / 64)).bind fun x => Tab.get? x.bytes (a % 64) with
  | some b => if b.2 then b.1 else s.byte a
  | none => s.byte a
/-- The word at an address, read so. -/
def cellWord (s : State) (n a : Nat) : Word := w64 (leNat ((List.range 8).map fun i => cellByte s n (a + i)))

/-- The handle entry of an index (R26): the cell's copy, or a read of memory with its own failures. A rewrite by a context of the cell may stand in its L1
alone, and is read there, or found lost there (R336). It waits for a home that it cannot reach (R443). -/
def handleEntry (s : State) (c idx : Nat) : Except Stop HEntry :=
  match Tab.get? (s.cell (cellOf c)).hcache idx with
  | some e => .ok e
  | none => do
    let va := handleVa (s.ctx c).arch idx
    let t ← translate s c va (w64 va)
    if !pteRd t.pte then raise 0x15 (w64 va)
    else
      let pa := physOf t va
      if noMemory pa then .error (.fault .noSuchAddress)
      else if s.isBad pa || (l1Find (s.cell (cellOf c)) (pa / 64)).any (·.lost) then raise 0x18 (w64 va)
      else if !ctxReaches s c pa then waits
      else
        let n := cellOf c
        .ok ⟨cellWord s n pa, cellWord s n (pa + 8), cellWord s n (pa + 16), cellWord s n (pa + 24)⟩

/-! ### What an access asks for -/

/-- The kind of an access: write or read, whether the parameter window is accepted (R40), whether it is a full/empty or reservation
access (R152), whether a block-scaled or EFP8 format is accepted (R153), and the hint (R154). -/
structure Want where
  write : Bool
  window : Bool
  fe : Bool
  block : Bool
  hint : Nat
deriving DecidableEq, Repr

/-- A plain load. -/
def wantLoad (h : Hint) : Want := ⟨false, true, false, false, h.code⟩
/-- A plain store. -/
def wantStore (h : Hint) : Want := ⟨true, false, false, false, h.code⟩

/-- `read_ref` (R39) up to its location: the checks in their order. `size` and `align` are in the unit of off and bound. An entry of kind 4 where no window
is accepted fails with the permission check (R40); in a full/empty or reservation access, after the alignment check (R152 step 3). -/
def readRef (s : State) (c : Nat) (ref : Word) (size align : Nat) (w : Want) : Except Stop HEntry := do
  let e ← handleEntry s c (refIdx ref)
  let fmt := refFmt ref
  if !e.valid || decide (4 < e.kind) || e.reserved then raise 0x13 ref
  else if decide (0x11 < fmt) || (blockFmt fmt && (decide (refLbl ref < 4) || decide (8 < refLbl ref) || !w.block)) then raise 0x1A ref
  else if e.bound < refOff ref + size then raise 0x14 ref
  else if (!w.write && !e.rd) || (w.write && (!e.wr || e.kind == 4)) || (e.kind == 4 && !w.window && !w.fe) then raise 0x15 ref
  else if refOff ref % align ≠ 0 then raise 0x16 ref
  else if e.kind = 4 ∧ w.fe then raise 0x15 ref
  else .ok e

/-- `read_ref` for a vector access under a mask (R164): the handle, format and alignment checks in every case; the bound check for each enabled
part (offset from the reference's, size), and the permission check when there is one. -/
def readRefParts (s : State) (c : Nat) (ref : Word) (parts : List (Nat × Nat)) (align : Nat) (w : Want) : Except Stop HEntry := do
  let e ← handleEntry s c (refIdx ref)
  let fmt := refFmt ref
  if !e.valid || decide (4 < e.kind) || e.reserved then raise 0x13 ref
  else if decide (0x11 < fmt) || (blockFmt fmt && (decide (refLbl ref < 4) || decide (8 < refLbl ref) || !w.block)) then raise 0x1A ref
  else if parts.any fun p => decide (e.bound < refOff ref + p.1 + p.2) then raise 0x14 ref
  else if !parts.isEmpty && ((!w.write && !e.rd) || (w.write && (!e.wr || e.kind == 4)) || (e.kind == 4 && !w.window)) then raise 0x15 ref
  else if refOff ref % align ≠ 0 then raise 0x16 ref
  else .ok e

/-- The liveness of a peer entry's target strand (R24, R444): some context of the target cell runs, or keeps saved, the strand. -/
def peerLive (s : State) (tcell : Nat) (gen : Word) : Bool :=
  (List.range 16).any fun i =>
    let x := s.ctx (16 * tcell + i)
    (match x.strand with | some t => t.plc == gen | none => false) ||
    (match x.save with | some v => v.strand.plc == gen | none => false)

/-- One route of a peer entry: passes, or its check number with the route-cache index it came from. -/
def peerRoute (s : State) (c : Nat) (e : HEntry) (seg : Nat) : Option (Nat × Option Nat) × Word :=
  let (r, idx) := segRoute (s.cell (cellOf c)) seg
  ((routeCheck s (s.ctx c).arch.partition (stationOf (cellOf c)) (stationOf e.tcell) r).map (·, idx), r)

/-- `check_peer` (R25, R442 to R444, R384): within the own column no route is read; otherwise rprim, then ralt when altv is 1. A
route through a port holds the address phase until the peer device has answered, and a check that fails there counts as one here. Then the target's liveness. The
answer says whether the access leaves the device. -/
def checkPeer (s : State) (c : Nat) (ref : Word) (e : HEntry) : Except Stop Bool :=
  let here (_ : Unit) : Except Stop Bool :=
    if !(s.col (colOf e.tcell)).cellPower then .error (.wait (.dark ref))
    else if peerLive s e.tcell e.w2 then .ok false else raise 0x12 ref
  let via (seg : Nat) : Except Stop (Bool ⊕ (Nat × Option Nat)) :=
    let (f, r) := peerRoute s c e seg
    match f with
    | some x => .ok (.inr x)
    | none =>
      if (routePort r).isNone then (here ()).map Sum.inl
      else match (s.ctx c).peerAns.lookup (ref, r) with
        | none => .error (.wait (.peer ref r))
        | some a => if a = 0 then .ok (.inl true) else if a = 0x12 then raise 0x12 ref else .ok (.inr (a.toNat, (segRoute (s.cell (cellOf c)) seg).2))
  let fails (x : Nat × Option Nat) : Except Stop Bool := raise 0x11 (x.2.elim ref w64) x.1
  if colOf e.tcell = colOf (cellOf c) then here ()
  else do
    match ← via (fld e.w3 0 16) with
    | .inl b => .ok b
    | .inr x =>
      if bit e.w3 32 then
        match ← via (fld e.w3 16 16) with
        | .inl b => .ok b
        | .inr y => fails y
      else fails x

/-! ### Where the bytes are -/

/-- The parts of a byte range that lie in one aligned word each, in order (the fuel bounds their number). -/
def wordPieces : Nat → Nat → Nat → List (Nat × Nat)
  | 0, _, _ => []
  | k + 1, a, n => if n = 0 then [] else
      let m := min n (8 - a % 8)
      (a, m) :: wordPieces k (a + m) (n - m)

/-- An access to scratchpad (R329): uncached, no page. -/
def spadAcc (ref : Word) (a n : Nat) : Acc := ⟨a, n, ref, ref, 2, false, 0, true, none, none, false⟩

/-- The cache level of an access (R154): the entry's cpol, or the page's attribute. -/
def levelOfPage (cpol : Nat) (p : Word) : Nat := if cpol = 0 then pteCache p else cpol - 1
/-- The retention class stored with its line (R154): the hint's, or the page's. -/
def classOfPage (hint : Nat) (p : Word) : BitVec 2 := BitVec.ofNat 2 (if hint = 0 then pteRet p else hint)

/-- An access to a page (R152 step 3, R154, R343). -/
def pageAcc (e : HEntry) (ref : Word) (hint : Nat) (t : TlbEntry) (va n : Nat) : Acc :=
  let pa := physOf t va
  let p := ptePa t.pte
  { addr := pa
    size := n
    ref := ref
    va := w64 va
    cache := levelOfPage e.cpol t.pte
    wthru := pteWthru t.pte
    cls := classOfPage hint t.pte
    pageWr := pteWr t.pte
    lab := if pteLab t.pte then some (pteLsp t.pte, p + t.size + (pa - p) / 8 * 4) else none
    rdet := if pteRdet t.pte then
        some (p + t.size + (if pteLab t.pte then t.size / 2 else 0) + (pa - p) / 64 * 4, pteRlog t.pte) else none
    host := decide (Config.hostBase ≤ pa) }

/-- Steps 2 and 3 of R152 for the parts of an access to a global or host page: translation of every part, then the permissions. -/
def pageAccs (s : State) (c : Nat) (ref : Word) (w : Want) (e : HEntry) (ps : List (Nat × Nat)) : Except Stop (List Acc) := do
  let ts ← ps.mapM fun p => do
    let t ← translate s c p.1 (w64 p.1)
    return (t, p)
  ts.mapM fun x =>
    let t := x.1
    let p := x.2
    let a := pageAcc e ref w.hint t p.1 p.2
    if (if w.write then !pteWr t.pte else !pteRd t.pte) || (pteLab t.pte && !e.lab) || (pteRdet t.pte && !e.rdet)
        || (w.fe && (e.kind == 3 || a.host)) then raise 0x15 ref
    else if noMemory a.addr then .error (.fault .noSuchAddress)
    else .ok a

/-- The parameter window (R40): checks a read of `n` bytes at window offset `o`; `tval` is what the permission fault reports. The entry's cpol, where the
window is read through one, and the hint count as for every page (R154). -/
def windowAccs (s : State) (c : Nat) (cpol hint : Nat) (o n : Nat) (tval : Word) : Except Stop (List Acc) :=
  let p := (s.ctx c).arch.param
  if !bit p 63 then raise 0x0E (w64 o)
  else if fld p 0 12 < o + n - 1 then raise 0x0D (w64 o)
  else (wordPieces (n / 8 + 2) ((fld p 12 45 * 4096 + o) % 2 ^ 57) n).mapM fun q => do
    let t ← translate s c q.1 (w64 q.1)
    if !pteRd t.pte then raise 0x15 tval
    else
      let pa := physOf t q.1
      if noMemory pa then .error (.fault .noSuchAddress)
      else .ok { addr := pa, size := q.2, ref := tval, va := w64 q.1, cache := levelOfPage cpol t.pte, wthru := pteWthru t.pte
                 cls := classOfPage hint t.pte, pageWr := pteWr t.pte, lab := none, rdet := none
                 host := decide (Config.hostBase ≤ pa) }
/-- The window as LDP reads it: it names no entry, and its hint is 0 (R76, R161). -/
def paramWindow (s : State) (c : Nat) (o n : Nat) (tval : Word) : Except Stop (List Acc) := windowAccs s c 0 0 o n tval

/-- Where `n` bytes at byte offset `o` from the base of a checked entry lie, with the checks that follow `read_ref`: SPADSIZE (R327), the
peer check, the window, or translation and permissions. -/
def locate (s : State) (c : Nat) (ref : Word) (o n : Nat) (w : Want) (e : HEntry) : Except Stop (List Acc) :=
  let a := e.base + o
  if e.kind = 1 then
    if (s.cell (cellOf c)).spadSize < a + n then raise 0x14 ref
    else .ok ((wordPieces (n / 8 + 2) a n).map fun p => spadAcc ref (spadAddr (cellOf c) p.1) p.2)
  else if e.kind = 2 then do
    let away ← checkPeer s c ref e
    if (if away then 0x100000 else (s.cell e.tcell).spadSize) < a + n then raise 0x14 ref
    else .ok ((wordPieces (n / 8 + 2) a n).map fun p =>
      spadAcc ref ((if away then Config.peerBase else Config.spadBase) + e.tcell * 0x100000 + p.1) p.2)
  else if e.kind = 4 then windowAccs s c e.cpol w.hint a n ref
  else pageAccs s c ref w e (wordPieces (n / 8 + 2) (a % 2 ^ 57) n)

/-- Steps 1 to 3 of the address phase (R152) for one access of `n` bytes. -/
def refAccess (s : State) (c : Nat) (ref : Word) (n align : Nat) (w : Want) : Except Stop (List Acc) := do
  let e ← readRef s c ref n align w
  locate s c ref (refOff ref) n w e

/-! ### Label checks (R155) -/

/-- A label of the access's own registers that lies in another space than the page raises the label space fault. -/
def pageSpaceCheck (accs : List Acc) (ls : List Label) : Except Stop Unit :=
  match accs.findSome? fun a => match a.lab with
      | some (sp, _) => (ls.find? fun l => l.proper && l.sp != sp)
      | none => none with
  | some l => raise 0x08 (l.sp.setWidth 64)
  | none => .ok ()

/-- The product that a store writes (R155): formed in the cell, or held for until the Accord unit has answered. -/
def heldProduct (s : State) (c : Nat) (ls : List Label) : Except Stop PRes :=
  match localProduct (s.cell (cellOf c)).pcache ls with
  | .known r => .ok r
  | .ask _ => match (s.ctx c).labAns with
    | some (srcs, r) => if srcs = properLabels ls then .ok r else .error (.wait (.product (properLabels ls)))
    | none => .error (.wait (.product (properLabels ls)))

/-- The label a store writes (R155): the space check; then, on a page without labels, the label escape fault unless every source is ⊤; on a
labelled page the product, whose overflow is the store's own fault. -/
def storeLabel (s : State) (c : Nat) (ref : Word) (accs : List Acc) (ls : List Label) : Except Stop Label := do
  pageSpaceCheck accs ls
  if accs.any (fun a => a.lab.isNone) && ls.any (fun l => !l.isTop) then raise 0x09 ref
  else if accs.all (fun a => a.lab.isNone) then .ok .top
  else match (← heldProduct s c ls) with
    | .lab l => .ok l
    | .past k => raise 0x05 (s.ctx c).arch.pc k.toNat

/-! ### The race check (R324 to R326) -/

/-- Whether the instance of a scope that holds context `c` holds context `d` (R302). -/
def scopeHolds (sc : Nat) (c d : Nat) : Bool :=
  match sc with
  | 0 => c == d
  | 1 => c / 16 == d / 16
  | 2 => c / 256 == d / 256
  | 3 => c / 4096 == d / 4096
  | _ => true

/-- Whether an access by context `q` to a sector with this shadow word is a conflict (R325). An engine passes `none`; it lies in the instances of the column
`home` (none for the encoders, which lie in no column's; R302). -/
def raceConflict (s : State) (q : Option Nat) (sh : Nat) (home : Option Nat := none) : Bool :=
  let wr := sh % 65536
  let sc := sh / 2 ^ 24 % 8
  wr != 0xFFFF && some wr != q && (s.ctx wr).ivl.toNat == sh / 65536 % 256 &&
    (sc == 0 || !(match q, home with
      | some c, _ => scopeHolds sc wr c
      | none, some k => (sc == 2 && wr / 256 == k) || (sc == 3 && wr / 4096 == k / 16) || decide (4 ≤ sc)
      | none, none => decide (4 ≤ sc)))

/-- Step 5 of R152: a conflict on a page whose race action is 0 raises the race fault. -/
def raceCheck (s : State) (c : Nat) (ref : Word) (accs : List Acc) : Except Stop Unit :=
  if accs.any fun a => match a.rdet with
    | some (w, rlog) => !rlog && !s.isBad w && raceConflict s (some c) (s.num w 4)
    | none => false
  then raise 0x10 ref else .ok ()

/-- The detail of a race record (R326): the shadow word, whose reserved bit 31 says that the access wrote, and above it the accessor. DESIGN CHOICE (log 100):
R326 names what the detail holds and no bits. -/
def raceDetail (sh who : Nat) (write : Bool) : Word := w64 (sh % 2 ^ 31 + (if write then 2 ^ 31 else 0) + who % 2 ^ 32 * 2 ^ 32)

/-- An engine's write leaves no thread writer in a shadow word (R324). -/
def clearWriter (s : State) (a : Nat) : State := s.setNum a 4 (s.num a 4 / 65536 * 65536 + 0xFFFF)

/-- The shadow words of an access, each sector once. -/
def shadowWords (accs : List Acc) : List (Nat × Word) :=
  (accs.filterMap fun a => a.rdet.map fun r => (r.1, a.va &&& ~~~0x3F)).eraseDups

/-- What a race check that did not fault leaves (R325, R326): conflicts logged, a write's identifier, interval and scope in the shadow, and the shadow
lines in L2 (R343). An uncorrectable shadow word tells of no conflict, and its write is discarded with a record (R157, R350). -/
def raceNote (s : State) (c : Nat) (accs : List Acc) (write : Bool) (sc : Nat) : State :=
  let s := (shadowWords accs).foldl (fun s p =>
    if s.isBad p.1 then if write then s.recordCtx c 0x41 p.2 0 else s else
    let sh := s.num p.1 4
    let s := if raceConflict s (some c) sh then
        s.recordCtx c 0x10 p.2 (raceDetail sh c write) else s
    if write then s.setNum p.1 4 (c + (s.ctx c).ivl.toNat * 65536 + sc * 2 ^ 24) else s) s
  accs.foldl (fun s a => touchShadow s a write (s.ctx c).arch.partition) s

/-- The whole address phase of a load (R152): the accesses, checked. -/
def loadPhase (s : State) (c : Nat) (ref : Word) (n align : Nat) (w : Want) (ls : List Label) : Except Stop (List Acc) := do
  let accs ← refAccess s c ref n align w
  pageSpaceCheck accs ls
  raceCheck s c ref accs
  .ok accs

/-- The whole address phase of a store: the accesses, and the label written beside each word. -/
def storePhase (s : State) (c : Nat) (ref : Word) (n align : Nat) (w : Want) (ls : List Label) : Except Stop (List Acc × Label) := do
  let accs ← refAccess s c ref n align w
  let l ← storeLabel s c ref accs ls
  raceCheck s c ref accs
  .ok (accs, l)

/-! ### What an access leaves in the cell's caches -/

/-- The hit of the product that a store has written in the cell's product cache (R155, R360). -/
def noteStore (t : State) (c : Nat) (accs : List Acc) (ls : List Label) : State := if accs.all fun a => a.lab.isNone then t else hitProduct t c ls

/-- The handle entry of a reference stays in the cell's handle cache, and its line in L2 where it was read from memory (R26, R338). -/
def noteHandle (s : State) (c : Nat) (ref : Word) : State :=
  let n := cellOf c
  match Tab.get? (s.cell n).hcache (refIdx ref), handleEntry s c (refIdx ref), translate s c (handleVa (s.ctx c).arch (refIdx ref)) 0 with
  | none, .ok e, .ok t =>
    let s := s.modCell n fun k => { k with hcache := Tab.put (k.hcache.drop (k.hcache.length - 31)) (refIdx ref) e }
    l2Touch s (physOf t (handleVa (s.ctx c).arch (refIdx ref))) (classOfPage 0 t.pte) (decide (pteCache t.pte < 2) && classOfPage 0 t.pte != 3) false
      (s.ctx c).arch.partition
  | _, _, _ => s

/-- The set of a column's translation cache that an entry lies in (R348: 256 sets of 16 ways). DESIGN CHOICE (log 80): the low 8 bits of its page number. -/
def tlbSet (e : TlbEntry) : Nat := e.va / e.size % 256
/-- A walk's result fills a column's translation cache, in place of the oldest of a full set (R348, log 80). -/
def fillColTlb (s : State) (col : Nat) (e : TlbEntry) : State :=
  s.modCol col fun k =>
    let rest := k.tlb.filter (· != e)
    { k with tlb := e :: ((rest.filter fun x => tlbSet x == tlbSet e).take 15 ++ rest.filter fun x => tlbSet x != tlbSet e) }
/-- It fills a cell's translation cache of 64 entries. -/
def fillCellTlb (s : State) (n : Nat) (e : TlbEntry) : State := s.modCell n fun k => { k with tlb := e :: (k.tlb.filter (· != e)).take 63 }

/-- A translation found in the column's cache fills the cell's (R348). -/
def noteVa (s : State) (c : Nat) (va : Nat) : State :=
  let part := BitVec.ofNat 6 (s.ctx c).arch.partition
  match tlbFind (s.cell (cellOf c)).tlb part va, tlbFind (s.col (colOf (cellOf c))).tlb part va with
  | none, some e => fillCellTlb s (cellOf c) e
  | _, _ => s

/-- Both, for every part of an access. -/
def noteAccess (s : State) (c : Nat) (ref : Word) (accs : List Acc) : State :=
  accs.foldl (fun s a => if a.addr < Config.spadBase then noteVa s c a.va.toNat else s) (noteHandle s c ref)

/-! ### Reads of units that lie in no column: the scheduler and the encoders -/

/-- A conflict on a sector that such a unit reads is logged, with a free word in place of a position, which the spec does not name (R325, R326, log 6). -/
def unitRace (note : State → Nat → Word → Word → State) (s : State) (p : Nat × Word) : State :=
  let sh := s.num p.1 4
  if !s.isBad p.1 && raceConflict s none sh then
    let (v, s) := s.free
    note s 0x10 p.2 (raceDetail sh v.toNat false)
  else s

/-- What the read of `n` bytes at a virtual address leaves: their lines, and those of their shadow words, in L2 (R338, R343), and logged conflicts (R325). `note`
writes a record of a code, an object and a detail. -/
def tableReads (note : State → Nat → Word → Word → State) (s : State) (part : BitVec 6) (va n : Nat) : State :=
  let accs := (wordPieces (n / 8 + 2) va n).filterMap fun p =>
    (walkTable s part (p.1 % 2 ^ 57)).map fun t => pageAcc ⟨0, 0, 0, 0⟩ 0 0 t (p.1 % 2 ^ 57) p.2
  let s := accs.foldl (fun s a => l2Touch s a.addr a.cls a.allocs false part.toNat) s
  let s := (shadowWords accs).foldl (unitRace note) s
  accs.foldl (fun s a => touchShadow s a false part.toNat) s

end Sys2Proof.Machine
end

