-- ==== Sys2Proof/Machine/Producers.lean ====
section
/-! DEFINITION. The producers of a tile (R213, R261): which registers a TM-format instruction names, which accepted instructions and follow-ons are
still to fill a tile, and what a producer leaves when it is done. -/

namespace Sys2Proof.Machine

/-- The registers that a TM-format instruction fills (R219, R222 to R224). -/
def matDests (i : Instr) : List RegId :=
  match i with
  | .mma d _ _ _ _ => [⟨.k, d.toNat⟩]
  | .mmaz d _ _ _ _ => [⟨.k, d.toNat⟩]
  | .tzero d => [⟨.k, d.toNat⟩]
  | .tcvt d _ => [⟨.k, d.toNat⟩]
  | .tadd d _ _ => [⟨.k, d.toNat⟩]
  | .tscale d _ _ => [⟨.k, d.toNat⟩]
  | .ttrans d _ => [⟨.k, d.toNat⟩]
  | .trowv d _ _ => [⟨.v, d.toNat⟩]
  | .tvrow d _ _ => [⟨.k, d.toNat⟩]
  | .tfact d _ b _ _ => [⟨.k, d.toNat⟩, ⟨.q, b.toNat⟩]
  | .tsolve d _ _ _ _ _ => [⟨.k, d.toNat⟩]
  | _ => []

/-- The sources of a TM-format instruction in field order, then its x register (R230). -/
def matSrcs (i : Instr) : List Src :=
  match i with
  | .mma d a b xn _ => [srcF .k a.toNat 0, srcF .k b.toNat 1, srcF .k d.toNat 2, srcF .x xn.toNat 3]
  | .mmaz _ a b xn _ => [srcF .k a.toNat 0, srcF .k b.toNat 1, srcF .x xn.toNat 3]
  | .tcvt _ a => [srcF .k a.toNat 0]
  | .tadd _ a b => [srcF .k a.toNat 0, srcF .k b.toNat 1]
  | .tscale _ a xn => [srcF .k a.toNat 0, srcF .x xn.toNat 3]
  | .ttrans _ a => [srcF .k a.toNat 0]
  | .trowv _ a xn => [srcF .k a.toNat 0, srcF .x xn.toNat 3]
  | .tvrow d a xn => [srcF .v a.toNat 0, srcF .k d.toNat 2, srcF .x xn.toNat 3]
  | .tfact _ a _ xn _ => [srcF .k a.toNat 0, srcF .x xn.toNat 3]
  | .tsolve _ a b _ _ _ => [srcF .k a.toNat 0, srcF .k b.toNat 1]
  | _ => []

/-- The x register that a TM-format instruction names. -/
def matX (i : Instr) : Option Nat := (matSrcs i).findSome? fun x => if x.r.file = .x then some x.r.n else none

/-- The tiles that a TM-format instruction names, as source or destination. -/
def matTiles (i : Instr) : List Nat :=
  ((matDests i ++ (matSrcs i).map (·.r)).filterMap fun r => if r.file = .k then some r.n else none).eraseDups

/-- Whether an operation of the matrix unit belongs to a strand and fills a register. -/
def MatOp.fills (o : MatOp) (c : Nat) (plc : Word) (d : RegId) : Bool := o.c == c && o.plc == plc && (matDests o.ins).contains d

/-- The accepted operations of a cell that are to fill a register of a strand. -/
def accepted (s : State) (c : Nat) (plc : Word) (d : RegId) : Bool := (s.cell (cellOf c)).matrix.any fun o => o.fills c plc d

/-- Every follow-on of a cell that its matrix unit has not accepted: of copies queued, running, and landed (R261). -/
def Cell.followOps (k : Cell) : List MatOp :=
  (k.cwait.filterMap fun p => p.follow) ++ (k.copies.filterMap fun (p : Nat × Copy) => p.2.follow) ++ k.follows.map (·.1)

/-- A follow-on not yet accepted is to fill a register of a strand. -/
def awaitsFollow (s : State) (c : Nat) (plc : Word) (d : RegId) : Bool := (s.cell (cellOf c)).followOps.any fun o => o.fills c plc d

/-- A strand has an operation that the matrix unit has accepted, or is still to be offered. -/
def hasMatOps (k : Cell) (c : Nat) (plc : Word) : Bool := (k.matrix ++ k.followOps).any fun o => o.c == c && o.plc == plc

/-- Applies a change to every operation of a strand that the matrix unit has accepted, or is still to be offered. -/
def modMatOps (s : State) (c : Nat) (plc : Word) (f : MatOp → MatOp) : State :=
  let g (o : MatOp) : MatOp := if o.c == c && o.plc == plc then f o else o
  if !hasMatOps (s.cell (cellOf c)) c plc then s
  else s.modCell (cellOf c) fun k => { k with
    matrix := k.matrix.map g
    follows := k.follows.map fun p => (g p.1, p.2)
    cwait := k.cwait.map fun p => { p with follow := p.follow.map g }
    copies := k.copies.map fun p => (p.1, { p.2 with follow := p.2.follow.map g }) }

/-- The tiles that an operation writes and that are not empty, as they stand before it marks them so: an operation that also reads its destination
takes the label and state from there (R213, R261). -/
def heldTiles (a : Arch) (i : Instr) : Tab (Reg (List Elem)) :=
  (matDests i).filterMap fun d => if d.file = .k ∧ (a.kr d.n).fe ≠ .empty then some (d.n, a.kr d.n) else none

/-- Before a tile is marked empty it is kept for the operations already accepted, or still to be offered, that have not taken their sources (R213). -/
def keepTile (s : State) (c n : Nat) : State :=
  let r := (s.ctx c).arch.kr n
  if r.fe = .empty then s
  else modMatOps s c (s.plc c) fun o => if (Tab.get? o.pre n).isNone then { o with pre := Tab.put o.pre n r } else o

/-- The key of a kept mask or x register. -/
def keptKey (f : RFile) (n : Nat) : Nat := if f = .q then n else 8 + n

/-- Before a register is marked empty it is kept for the operations that have not taken their sources (R213). -/
def keepReg (s : State) (c : Nat) (d : RegId) : State :=
  let a := (s.ctx c).arch
  let put {α : Type} (t : Tab (Reg α)) (n : Nat) (r : Reg α) : Tab (Reg α) := if (Tab.get? t n).isNone then Tab.put t n r else t
  match d.file with
  | .k => keepTile s c d.n
  | .g => s
  | .v => if (a.rmeta d).fe = .empty then s else modMatOps s c (s.plc c) fun o => { o with preV := put o.preV d.n (a.vr d.n) }
  | .q => if (a.rmeta d).fe = .empty then s else modMatOps s c (s.plc c) fun o => { o with preW := put o.preW (keptKey .q d.n) (a.qr d.n) }
  | .x => if (a.rmeta d).fe = .empty then s else modMatOps s c (s.plc c) fun o => { o with preW := put o.preW (keptKey .x d.n) (a.xr d.n) }

/-- A register other than a tile is filled: the operations that have not taken their sources read it as it stands now. -/
def dropKept (s : State) (c : Nat) (plc : Word) (d : RegId) : State :=
  match d.file with
  | .v => modMatOps s c plc fun o => { o with preV := Tab.del o.preV d.n }
  | .q => modMatOps s c plc fun o => { o with preW := Tab.del o.preW (keptKey .q d.n) }
  | .x => modMatOps s c plc fun o => { o with preW := Tab.del o.preW (keptKey .x d.n) }
  | _ => s

/-- A producer leaves a tile: full, or, while a later producer is still to fill it, empty, with what it left kept for the operations that read
it (R213, R261). -/
def leaveTile (s : State) (c : Nat) (plc : Word) (n : Nat) (r : Reg (List Elem)) : State :=
  let later := accepted s c plc ⟨.k, n⟩ || awaitsFollow s c plc ⟨.k, n⟩
  let s := modMatOps s c plc fun o =>
    { o with
      waits := o.waits.filter (· != n)
      pre := if later then Tab.put o.pre n r else Tab.del o.pre n }
  if later then s else s.modArchOf c plc fun a => a.setK n r

/-- An answer reaches its cell: the product cache, then the register, or the context whose instruction holds issue (R155). A tile that waited for it is left to
the operations after it (R261). -/
def deliverAnswer (s : State) (j : LabelJob) (res : PRes) (v : Word) (envs : List Word) : State :=
  let s := cacheAnswer s j res envs
  match j.dst with
  | some d =>
    if d.file = .k then match s.archOf j.c j.plc with
      | some a => leaveTile s j.c j.plc d.n ((a.kr d.n).withMeta (resMeta res j.pc))
      | none => s
    else s.modArchOf j.c j.plc fun a => fillAnswer a j d res v
  | none => match j.ask with
    | .product ls => if s.plc j.c = j.plc then s.modCtx j.c fun x => { x with labAns := some (ls, res) } else s
    | _ => s

/-- The label of a result formed with it, and its register state. Sources of two spaces, which only a follow-on can meet, leave it open (log 15). -/
def resultMeta (s : State) (c : Nat) (ls : List Label) (pc : Word) : Reg Unit × State :=
  if (spaceClash none ls).isSome then
    let (v, s) := s.free
    (fullMeta ⟨v.extractLsb' 24 12, v.extractLsb' 0 24⟩, s)
  else
    let r := productNow s (colOf (cellOf c)) ls
    (resMeta r.1 pc, r.2)

/-- A producer fills a tile with a value under the product of labels. -/
def fillTile (s : State) (c : Nat) (plc : Word) (n : Nat) (v : List Elem) (ls : List Label) (pc : Word) : State :=
  let r := resultMeta s c ls pc
  leaveTile r.2 c plc n ((Reg.of v).withMeta r.1)

end Sys2Proof.Machine
end

