-- ==== Sys2Proof/Machine/Caches.lean ====
section
/-! DEFINITION. Where bytes are on their way: the write-combining buffers (R307), the L1 (R306, R334), the lines of L2 with their classes, pins and
quarantine (R338, R339, R351), the service of a word's waiting requests at its home (R172), stores that go straight to a home (R160),
the return of a load's data (R157, R159), and the ordering actions release and acquire (R304, R305). -/

namespace Sys2Proof.Machine

/-! ### Writes at a home -/

/-- A scratchpad line that is written is pending shadow, and counts as a line of the context that wrote it (R379, R381). -/
def markShadow (s : State) (c : Nat) (a : Nat) : State :=
  if Config.spadBase ≤ a ∧ a < Config.spadFeBase then
    let s := s.modCell (spadCell a) fun k => { k with pendingShadow := (spadOff a / 64) :: k.pendingShadow.filter (· != spadOff a / 64) }
    let l := 16384 * spadCell a + spadOff a / 64
    s.modCtx c fun x => { x with dirtyLines := l :: x.dirtyLines.filter (· != l) }
  else s

/-- A write of a context arrives in scratchpad: its line is one of those that the images of points made after it was issued wait for (R379). -/
def joinImage (s : State) (c point a : Nat) : State :=
  let l := 16384 * spadCell a + spadOff a / 64
  let join (i : Image) : Image := if point < i.seq then { i with lines := l :: i.lines.filter (· != l) } else i
  if Config.spadBase ≤ a ∧ a < Config.spadFeBase then s.modCtx c fun x => { x with
    writing := x.writing.map join
    waiting := x.waiting.map join }
  else s

/-- Writes bytes and label words at their home. A store into an uncorrectable or quarantined line is discarded with a record, and so is the label word where
its line is one (R157, R350); one to a peer device leaves no trace here (log 2). -/
def homeWrite (s : State) (c : Nat) (va : Word) (bs : List (Nat × Byte)) (labs : List (Nat × BitVec 32)) : State :=
  match bs with
  | [] => s
  | (a, _) :: _ =>
    if Config.peerBase ≤ a then s
    else if s.isBad a then s.recordCtx c 0x41 va 0
    else
      let s := s.setBytes bs
      let s := labs.foldl (fun s p => if s.isBad p.1 then s.recordCtx c 0x41 va 0 else s.setNum p.1 4 p.2.toNat) s
      markShadow s c a

/-! ### The L1 (R306, R334) -/

/-- The bytes of a line that are dirty, with their addresses. -/
def dirtyBytes (x : L1Line) : List (Nat × Byte) := (x.bytes.filter fun p => p.2.2).map fun p => (64 * x.line + p.1, p.2.1)
/-- The label words of a line that are dirty. -/
def dirtyLabs (x : L1Line) : List (Nat × BitVec 32) := (x.labs.filter fun p => p.2.2.2).map fun p => (p.2.1, p.2.2.1)
/-- The line with everything clean. -/
def L1Line.clean (x : L1Line) : L1Line :=
  { x with bytes := x.bytes.map fun p => (p.1, p.2.1, false), labs := x.labs.map fun p => (p.1, p.2.1, p.2.2.1, false) }

/-- Removes a line from a cell's L1. -/
def l1Drop (s : State) (n line : Nat) : State := s.modCell n fun k => { k with l1 := k.l1.filter fun y => y.line != line }
/-- Writes a line's dirty bytes to its home slice; the line stays, clean (R306). The write-back of a line whose dirty bytes were lost writes the record
of a discarded store (R157, R336), and the line goes (log 73). -/
def l1Clean (s : State) (n : Nat) (line : Nat) : State :=
  match l1Find (s.cell n) line with
  | none => s
  | some x =>
    if x.lost then l1Drop (s.recordCtx (16 * n) 0x41 x.va 0) n line
    else
      let s := if (dirtyBytes x).isEmpty then s else touchWrite s (64 * line) x.cls (s.cell n).part.toNat (dirtyLabs x)
      let s := homeWrite s (16 * n) x.va (dirtyBytes x) (dirtyLabs x)
      s.modCell n fun k => { k with l1 := k.l1.map fun y => if y.line == line then y.clean else y }
/-- Removes a line, its dirty bytes written first. -/
def l1Evict (s : State) (n : Nat) (line : Nat) : State := l1Drop (l1Clean s n line) n line
/-- Writes every dirty byte of a cell's L1 to L2 (R304). -/
def l1CleanAll (s : State) (n : Nat) : State := ((s.cell n).l1.map (·.line)).foldl (fun s l => l1Clean s n l) s

/-- Puts a line in front of the L1, making room in its set of four (R334). -/
def l1Put (s : State) (n : Nat) (x : L1Line) : State :=
  let rest := (s.cell n).l1.filter fun y => y.line != x.line
  let set := rest.filter fun y => y.line % 256 == x.line % 256
  let s := if set.length < 4 then s else match set.getLast? with
    | some v => l1Evict s n v.line
    | none => s
  s.modCell n fun k => { k with l1 := x :: k.l1.filter fun y => y.line != x.line }

/-- A table with more entries put in. -/
def putAll {α : Type} (m : Tab α) (l : List (Nat × α)) : Tab α := l.foldl (fun m p => Tab.put m p.1 p.2) m

/-- Fetches the absent bytes (and label words) of an access's line from its home into the L1; a bypass access uses a copy but makes none, and an
uncorrectable line is not brought in (R157). -/
def l1Fetch (s : State) (n : Nat) (a : Acc) : State :=
  if a.cache ≠ 0 ∨ Config.spadBase ≤ a.addr then s
  else
    let line := a.addr / 64
    let old := l1Find (s.cell n) line
    if (old.isNone && a.cls == 3) || s.isBad a.addr then touchAcc s a false (s.cell n).part.toNat
    else
      let x : L1Line := old.getD ⟨line, a.va &&& ~~~0x3F, [], [], a.pageWr, a.wthru, a.cls, false⟩
      let miss := (List.range 64).filter fun o => (Tab.get? x.bytes o).isNone
      let bytes := putAll x.bytes (miss.map fun o => (o, s.byte (64 * line + o), false))
      let labs := match a.lab with
        | none => x.labs
        | some (_, la) =>
          let base := la - a.addr % 64 / 8 * 4
          putAll x.labs (((List.range 8).filter fun o => (Tab.get? x.labs o).isNone).map fun o =>
            (o, base + 4 * o, BitVec.ofNat 32 (s.num (base + 4 * o) 4), false))
      let s := if miss.isEmpty then s else touchAcc s a false (s.cell n).part.toNat
      l1Put s n { x with bytes := bytes, labs := labs }

/-- A home write's bytes go into the copy of the line that the issuing cell's L1 holds, and are left clean (R160). -/
def l1Update (s : State) (n : Nat) (bs : List (Nat × Byte)) (labs : List (Nat × BitVec 32)) : State :=
  s.modCell n fun k => { k with l1 := k.l1.map fun x =>
    { x with
      bytes := putAll x.bytes ((bs.filter fun p => p.1 / 64 == x.line).map fun p => (p.1 % 64, p.2, false))
      labs := x.labs.map fun q => match labs.find? fun p => p.1 == q.2.1 with
        | some p => (q.1, p.1, p.2, false)
        | none => q } }

/-! ### The write-combining buffer (R307) -/

/-- Drains one entry: into the L1 for a page of cache level L1+L2 (R334: a write-through page, or a bypass access that finds no copy, goes to
L2), to the home slice for L2 only. A copy whose dirty bytes were lost takes no store: it is discarded with a record (R157, R336). -/
def drainEntry (s : State) (c : Nat) (e : WcbEntry) : State :=
  let n := cellOf c
  let bs := e.bytes.map fun p => (64 * e.line + p.1, p.2)
  let labs := e.labs.map fun p => p.2
  let toHome (s : State) := homeWrite (touchWrite s (64 * e.line) e.cls (s.ctx c).arch.partition labs) c e.va bs labs
  if e.cache = 0 then
    let old := l1Find (s.cell n) e.line
    if e.wthru then l1Update (toHome s) n bs labs
    else if old.isNone && e.cls == 3 then toHome s
    else if old.any (·.lost) then s.recordCtx c 0x41 e.va 0
    else
      let x : L1Line := old.getD ⟨e.line, e.va, [], [], true, false, e.cls, false⟩
      l1Put s n { x with
        cls := e.cls
        bytes := putAll x.bytes (e.bytes.map fun p => (p.1, p.2, true))
        labs := putAll x.labs (e.labs.map fun p => (p.1, p.2.1, p.2.2, true)) }
  else toHome s

/-! ### Service at a word's home (R172) -/

/-- The label beside a word, as raw bits: of a labelled page, from its label word. -/
def wordLabel (s : State) (lab : Option (BitVec 12 × Nat)) : Label :=
  match lab with
  | some (sp, a) => ⟨sp, BitVec.ofNat 24 (s.num a 4)⟩
  | none => .top
/-- The label word of a store, if its page has labels. -/
def labelWord (lab : Option (BitVec 12 × Nat)) (l : Label) : List (Nat × BitVec 32) :=
  match lab with
  | some (_, a) => [(a, l.h.setWidth 32)]
  | none => []
/-- The bytes of the low `n` bytes of a value from an address. -/
def valueBytes (a n : Nat) (v : Nat) : List (Nat × Byte) := (List.range n).map fun i => (a + i, BitVec.ofNat 8 (v / 256 ^ i))

/-- A word written at its home, with the copy in the writer's L1 updated (R160). -/
def writeWordHome (s : State) (c : Nat) (va : Word) (a : Nat) (v : Word) (lab : List (Nat × BitVec 32)) : State :=
  l1Update (homeWrite s c va (valueBytes a 8 v.toNat) lab) (cellOf c) (valueBytes a 8 v.toNat) lab

/-- `serve` (R172): while the word's state lets it, the head reader is delivered the word (a TAKE empties it), or the head writer fills it. DESIGN CHOICE
(log 74): a PUT served at an uncorrectable line has its data discarded (R157) and still sets the word full. The fuel is the number of waiting requests. -/
def serveN : Nat → State → Nat → State
  | 0, s, _ => s
  | k + 1, s, w =>
    let h := s.home w
    if s.feFull w then match h.readers with
      | [] => s
      | r :: t =>
        let s := { s with deliveries := s.deliveries ++ [(Delivery.mk r (s.word w) (wordLabel s r.lab))] }
        let s := s.modHome w fun h => { h with readers := t }
        serveN k (if r.kind = .take then markShadow (s.setFe w false) r.c w else s) w
    else match h.writers with
      | [] => s
      | r :: t =>
        let s := writeWordHome s r.c r.va w r.data (labelWord r.lab r.dataLab)
        let s := s.modHome w fun h => { h with writers := t }
        serveN k (s.setFe w true) w
/-- Serves a word's waiting requests. -/
def serve (s : State) (w : Nat) : State := serveN ((s.home w).readers.length + (s.home w).writers.length) s w

/-! ### Stores and passes on their way (R160, R175, R180) -/

/-- A store that went straight to its home arrives there (R160, R175); the copy of its line in the writer's L1 takes the same bytes. A change of an
uncorrectable word's state is discarded as a store of it is (R157, R331). -/
def applyStore (s : State) (st : HomeStore) : State :=
  let a := st.acc.addr
  if Config.peerBase ≤ a then s else
  let s := touchAcc (joinImage s st.c st.point a) st.acc true (s.ctx st.c).arch.partition
  match st.kind with
  | .plain =>
    let s := homeWrite s st.c st.acc.va st.bytes st.labs
    if a < Config.spadBase then l1Update s (cellOf st.c) st.bytes st.labs else s
  | .sync => l1Update (homeWrite s st.c st.acc.va st.bytes st.labs) (cellOf st.c) st.bytes st.labs
  | .feset full => if s.isBad a || s.feBad a then s.recordCtx st.c 0x41 st.acc.va 0 else serve (markShadow (s.setFe a full) st.c a) a

/-- The stores of a context still on their way to addresses of a kind arrive, in order, but for those whose home they cannot reach (R384, R443). -/
def ackStoresTo (s : State) (c : Nat) (p : Nat → Bool) : State :=
  let mine (x : HomeStore) : Bool := x.c == c && ctxReaches s c x.acc.addr && p x.acc.addr
  (s.stores.filter mine).foldl applyStore { s with stores := s.stores.filter fun x => !mine x }

/-- The reservation of a word is passed to the head of its queue, whose LRW is served; with none waiting nobody holds it (R180). -/
def passOn (s : State) (w : Nat) : State :=
  match (s.home w).queue with
  | [] => s.modHome w fun h => { h with holder := none }
  | r :: t =>
    { s.modHome w fun h => { h with holder := some r, queue := t, since := s.cycles (homeCol w) } with
      deliveries := s.deliveries ++ [(Delivery.mk r (s.word w) (wordLabel s r.lab))] }

/-- Whether a request belongs to a strand. -/
def Req.of (r : Req) (c : Nat) (plc : Word) : Bool := r.c == c && r.plc == plc

/-- The partition of a strand, live or saved. -/
def strandPart (s : State) (c : Nat) (plc : Word) : Nat := ((s.archOf c plc).map Arch.partition).getD 0

/-- An SC stores and passes the reservation, an SCREL passes it; either is discarded when its strand no longer holds it (R180). Since requests of one
context to one word arrive in issue order (R171), the reservation that a strand holds is the one that its pass gives up. -/
def applyPass (s : State) (p : Pass) : State :=
  if !(s.home p.addr).holder.any fun r => r.of p.c p.plc then s
  else
    let part := strandPart s p.c p.plc
    let s := if p.store.isSome then joinImage s p.c p.point p.addr else s
    let s := if p.addr < Config.spadBase then l2Touch s p.addr p.cls p.alloc p.store.isSome part else s
    let s := match p.store.bind (·.2) with
      | some l => l2Touch s l.1 p.cls p.alloc true part
      | none => s
    passOn (match p.store with
      | some (v, l) => writeWordHome s p.c p.va p.addr v l.toList
      | none => s) p.addr

/-- The passes of a context still on their way to words of a kind arrive, in order, but for those whose home they cannot reach. -/
def ackPasses (s : State) (c : Nat) (p : Nat → Bool) : State :=
  let mine (x : Pass) : Bool := x.c == c && ctxReaches s c x.addr && p x.addr
  (s.passes.filter mine).foldl applyPass { s with passes := s.passes.filter fun x => !mine x }

/-- Everything of a context that is still on its way to addresses of a kind arrives. A pass holds back the later stores to its home, and was itself sent
after every earlier store had arrived (R180, R304), so passes come first. -/
def ackTo (s : State) (c : Nat) (p : Nat → Bool) : State := ackStoresTo (ackPasses s c p) c p

/-- Every store and pass of a context still on its way arrives, but for those whose home they cannot reach (R384, R443). -/
def ackStores (s : State) (c : Nat) : State := ackTo s c fun _ => true

/-- A store of a context, plain, synchronising or by SC, to an address of a kind is on its way to a home that it cannot reach, or stands in the buffer for one
(log 94). -/
def darkStore (s : State) (c : Nat) (p : Nat → Bool) : Bool :=
  (s.stores.any fun x => x.c == c && p x.acc.addr && !ctxReaches s c x.acc.addr)
  || (s.passes.any fun x => x.c == c && x.store.isSome && p x.addr && !ctxReaches s c x.addr)
  || (s.ctx c).wcb.any fun e => p (64 * e.line) && !ctxReaches s c (64 * e.line)

/-! ### Draining the write-combining buffer (R307) -/

/-- Drains the entry of a context's buffer at a place. The context's earlier stores to bytes of the line arrive before it (R156). -/
def wcbDrain (s : State) (c i : Nat) : State :=
  match (s.ctx c).wcb[i]? with
  | none => s
  | some e => drainEntry ((ackTo s c fun a => a / 64 == e.line).modCtx c fun x => { x with wcb := takeOut i x.wcb }) c e
/-- Drains every entry, the oldest first. -/
def wcbDrainAll (s : State) (c : Nat) : State := (List.range (s.ctx c).wcb.length).foldl (fun s _ => wcbDrain s c 0) s
/-- Drains the entry of a line, if there is one (R307). -/
def wcbDrainLine (s : State) (c line : Nat) : State :=
  match (s.ctx c).wcb.findIdx? fun e => e.line == line with
  | some i => wcbDrain s c i
  | none => s
/-- Drains the entries of pages of cache level L2 only, whose stores every release awaits at their homes (R304 step 4). -/
def wcbDrainL2 (s : State) (c : Nat) : State :=
  (((s.ctx c).wcb.filter fun e => e.cache != 0).map fun e => e.line).foldl (fun s l => wcbDrainLine s c l) s

/-- A plain store's bytes enter the buffer; with four entries in use the oldest drains first. The line's class is that of the latest store (R154). -/
def wcbAdd (s : State) (c : Nat) (a : Acc) (bs : List (Nat × Byte)) (lab : Option (Nat × BitVec 32)) : State :=
  let line := a.addr / 64
  let add (e : WcbEntry) : WcbEntry :=
    { e with
      cls := a.cls
      bytes := putAll e.bytes (bs.map fun p => (p.1 % 64, p.2))
      labs := match lab with
        | some l => Tab.put e.labs (a.addr % 64 / 8) l
        | none => e.labs }
  if (s.ctx c).wcb.any fun e => e.line == line then
    s.modCtx c fun x => { x with wcb := x.wcb.map fun e => if e.line == line then add e else e }
  else
    let s := if (s.ctx c).wcb.length < 4 then s else wcbDrain s c 0
    s.modCtx c fun x => { x with wcb := x.wcb ++ [add ⟨line, a.va &&& ~~~0x3F, a.cache, a.wthru, a.cls, [], []⟩] }

/-! ### Transaction barriers (R266 to R270) -/

/-- Wait-list entries in use at the bank or slice that is the home of an address (R333). -/
def waitUse (s : State) (a : Nat) : Nat :=
  (s.homes.map fun (p : Nat × Home) => if homeOf p.1 = homeOf a then p.2.readers.length + p.2.writers.length + p.2.queue.length + p.2.waiters.length else 0).foldl
    (· + ·) 0

/-- phase of a barrier's word 0. -/
def barPhase (w : Word) : Nat := fld w 0 4
/-- Pending arrivals. -/
def barArr (w : Word) : Nat := fld w 4 20
/-- Pending sectors. -/
def barSec (w : Word) : Int := sextInt (fld w 24 32) 32

/-- Word 0 of a barrier is written at its home. -/
def setBar (s : State) (c addr : Nat) (w : Word) : State := markShadow (s.setWord addr w) c addr

/-- The completion step (R267): with nothing pending the phase advances, the arrivals are reloaded, and the waiters whose phase has passed
are served. -/
def barComplete (s : State) (c addr : Nat) : State :=
  let w := s.word addr
  if barArr w = 0 ∧ barSec w = 0 then
    let w := putFld (putFld w 0 4 (barPhase w + 1)) 4 20 (fld (s.word (addr + 8)) 0 20)
    let s := setBar s c addr w
    let passed (x : BarWait) : Bool := x.ph.toNat != barPhase w
    let go := (s.home addr).waiters.filter passed
    { s.modHome addr fun h => { h with waiters := h.waiters.filter fun x => !passed x } with
      barRets := s.barRets ++ go.map fun x => (x, bool64 (bit w 63), true) }
  else s

/-- Adds to a barrier's sector count, clamped with a record (R267), and may set its error bit; then the completion step. -/
def barAddSec (s : State) (c addr : Nat) (n : Int) (err : Bool) : State :=
  let w := s.word addr
  let t := barSec w + n
  let v := max (-(2 ^ 31 : Int)) (min t (2 ^ 31 - 1))
  let s := if v = t then s else s.recordCtx c 0x52 (w64 (spadOff addr)) (wInt t)
  let w := putFld w 24 32 (v % (2 ^ 32 : Nat)).toNat
  barComplete (setBar s c addr (if err || v != t then putFld w 63 1 1 else w)) c addr

/-- One arrival at a barrier (R269). -/
def barArrive (s : State) (c addr : Nat) (ref : Word) : State :=
  let w := s.word addr
  if barArr w = 0 then (setBar s c addr (putFld w 63 1 1)).recordCtx c 0x52 ref (w64 (barPhase w))
  else barComplete (setBar s c addr (putFld w 4 20 (barArr w - 1))) c addr

/-- A waiter put into the list by its arrival stamp (R267). -/
def insBarWait (w : BarWait) : List BarWait → List BarWait
  | [] => [w]
  | x :: t => if w.arrival.getD 0 < x.arrival.getD 0 then w :: x :: t else x :: insBarWait w t

/-- A barrier request at its home (R269, R270). An update of an uncorrectable word is discarded with a record (R157), and a wait there returns at once with the
code of the data error fault, which its context takes (R331); a peer device's barrier shows nothing here but what a wait returns, which is a free value (log 2). -/
def applyBar (s : State) (r : BarReq) : State :=
  if Config.peerBase ≤ r.addr then match r.op with
    | .wait w =>
      let (v, s) := s.free
      { s with barRets := s.barRets ++ [(w, v &&& 1, true)] }
    | _ => s
  else match r.op with
  | .init n => if s.isBad r.addr then s.recordCtx r.c 0x41 r.ref 0 else joinImage (markShadow ((s.setWord r.addr (w64 (n.toNat * 16))).setWord (r.addr + 8) (w64 n.toNat)) r.c r.addr) r.c r.point r.addr
  | .expect n => if s.isBad r.addr then s.recordCtx r.c 0x41 r.ref 0 else barAddSec (joinImage s r.c r.point r.addr) r.c r.addr n.toInt false
  | .arrive => if s.isBad r.addr then s.recordCtx r.c 0x41 r.ref 0 else barArrive (joinImage s r.c r.point r.addr) r.c r.addr r.ref
  | .wait w =>
    let b := s.word r.addr
    if s.isBad r.addr then
      let (v, s) := s.free
      { s.recordCtx r.c 0x41 r.ref v with barRets := s.barRets ++ [(w, 0x18, false)] }
    else if barPhase b ≠ w.ph.toNat then { s with barRets := s.barRets ++ [(w, bool64 (bit b 63), true)] }
    else if w.lim = some 0 then { s with barRets := s.barRets ++ [(w, 2, false)] }
    else s.modHome r.addr fun h => { h with waiters := insBarWait w h.waiters }

/-- Whether a barrier request is an update. -/
def BarReq.updates (r : BarReq) : Bool :=
  match r.op with
  | .wait _ => false
  | _ => true

/-- A context's own barrier updates at addresses of a kind arrive, in order, before a later access of those bytes (R156). -/
def ackBars (s : State) (c : Nat) (p : Nat → Bool) : State :=
  let mine (r : BarReq) : Bool := r.c == c && r.updates && p r.addr && ctxReaches s c r.addr
  (s.barReqs.filter mine).foldl applyBar { s with barReqs := s.barReqs.filter fun r => !mine r }

/-! ### Reading -/

/-- The byte at an address that the write-combining buffer of a context holds, or else that its latest store on its way carries. -/
def ownByte (s : State) (c ad : Nat) : Option Byte :=
  match ((s.ctx c).wcb.find? fun e => e.line == ad / 64).bind fun e => Tab.get? e.bytes (ad % 64) with
  | some b => some b
  | none => (s.stores.reverse.filter fun (x : HomeStore) => x.c == c).findSome?
      (fun (x : HomeStore) => Option.map (fun (p : Nat × Byte) => p.2) (x.bytes.reverse.find? fun p => p.1 == ad))

/-- The byte at an address that the L1 gives an access: any it holds for a page of cache level L1+L2; a dirty one for every access, since it may be the
context's own latest store (R156). -/
def l1Byte (s : State) (c cache ad : Nat) : Option Byte :=
  match (l1Find (s.cell (cellOf c)) (ad / 64)).bind fun x => Tab.get? x.bytes (ad % 64) with
  | some b => if cache = 0 || b.2 then some b.1 else none
  | none => none

/-- One byte as a context's load reads it (R156, R307): from its own buffer, its own stores on their way, its cell's L1, or the home. -/
def loadByte (s : State) (c : Nat) (a : Acc) (i : Nat) : Byte :=
  match ownByte s c (a.addr + i) with
  | some b => b
  | none => match l1Byte s c a.cache (a.addr + i) with
    | some b => b
    | none => s.byte (a.addr + i)

/-- The label word at `la` beside the word an access lies in, where something nearer than its home gives it: the context's buffer, its stores on their way, its
cell's L1. -/
def ownLabel (s : State) (c : Nat) (a : Acc) (la : Nat) : Option (BitVec 32) :=
  let w := a.addr % 64 / 8
  match ((s.ctx c).wcb.find? fun e => e.line == a.addr / 64).bind fun e => Tab.get? e.labs w with
  | some l => some l.2
  | none => match (s.stores.reverse.filter fun (x : HomeStore) => x.c == c).findSome?
      (fun (x : HomeStore) => Option.map (fun (q : Nat × BitVec 32) => q.2) (x.labs.find? fun q => q.1 == la)) with
    | some l => some l
    | none => (if a.cache = 0 then (l1Find (s.cell (cellOf c)) (a.addr / 64)).bind fun x => Tab.get? x.labs w else none).map fun l => l.2.1

/-- The label of the word an access lies in, read the same way (R155). -/
def loadLabel (s : State) (c : Nat) (a : Acc) : Option Label :=
  a.lab.map fun p => ⟨p.1, ((ownLabel s c a p.2).getD (BitVec.ofNat 32 (s.num p.2 4))).setWidth 24⟩

/-- The bytes of an access; those of a peer device are free values (log 2). -/
def readAcc (s : State) (c : Nat) (a : Acc) : List Byte × State :=
  if Config.peerBase ≤ a.addr then
    let (v, s) := s.free
    ((List.range a.size).map fun i => BitVec.ofNat 8 (v.toNat / 256 ^ i), s)
  else ((List.range a.size).map fun i => loadByte s c a i, s)

/-- The bytes of several accesses, one after the other. -/
def readAccs (s : State) (c : Nat) : List Acc → List Byte × State
  | [] => ([], s)
  | a :: t =>
    let (b, s) := readAcc s c a
    let (bs, s) := readAccs s c t
    (b ++ bs, s)

/-- The distinct labels of the words that accesses cover. ⊤ and ⊥ belong to no space (R19), so those of two spaces are one label. -/
def accLabels (s : State) (c : Nat) (accs : List Acc) : List Label :=
  ((accs.filterMap (loadLabel s c)).map fun l => if l.proper then l else ⟨0, l.h⟩).eraseDups

/-! ### Loads in flight -/

/-- Two accesses share a byte. -/
def overlaps (a b : Acc) : Bool := decide (a.addr < b.addr + b.size) && decide (b.addr < a.addr + a.size)

/-- Whether some word that an access touches is uncorrectable. -/
def State.badIn (s : State) (a : Acc) : Bool :=
  (List.range ((a.addr + a.size - 1) / 8 - a.addr / 8 + 1)).any fun k => s.isBad (8 * (a.addr / 8 + k))

/-- An access reads the line of a cell's L1 whose dirty bytes were lost (R336). -/
def accLost (s : State) (c : Nat) (a : Acc) : Bool := a.cache == 0 && (l1Find (s.cell (cellOf c)) (a.addr / 64)).any (·.lost)

/-- The label word or the shadow word of an access is uncorrectable (R343, R350). -/
def besideBad (s : State) (c : Nat) (a : Acc) : Bool :=
  (a.lab.any fun p => (ownLabel s c a p.2).isNone && s.isBad p.2) || a.rdet.any fun p => s.isBad p.1

/-- Whether a load of these accesses meets an uncorrectable datum (R157): in the L1, at the home of a byte that nothing nearer gives, or in a label or shadow
word. -/
def accsBad (s : State) (c : Nat) (accs : List Acc) : Option Acc :=
  accs.find? fun a => decide (a.addr < Config.peerBase) && (accLost s c a || besideBad s c a ||
    s.badIn a && (List.range a.size).any fun i => (ownByte s c (a.addr + i)).isNone && (l1Byte s c a.cache (a.addr + i)).isNone)

/-- What meeting an uncorrectable datum leaves: in scratchpad an error record (R331, R352), of which the spec does not state the detail; the L1 line whose
bytes were lost goes, with a record (R336, log 73); a line of L2 is touched, which quarantines a dirty one (R351). -/
def meetBad (s : State) (c : Nat) (accs : List Acc) : State :=
  accs.foldl (fun s a =>
    if Config.peerBase ≤ a.addr then s
    else if Config.spadBase ≤ a.addr then
      if s.badIn a then
        let (v, s) := s.free
        s.recordCtx c 0x41 a.va v
      else s
    else if accLost s c a then l1Drop (s.recordCtx c 0x41 a.va 0) (cellOf c) (a.addr / 64)
    else
      let s := l2Touch s a.addr a.cls false false 0
      ((a.lab.map fun p => p.2).toList ++ (a.rdet.map fun p => p.1).toList).foldl (fun s w => if s.isBad w then l2Touch s w a.cls false false 0 else s) s) s

/-- The clean bytes and labels of a word that a cell's L1 holds are forgotten: a context of the cell has read the word at its home, and reads no older value
later (R310). -/
def l1Forget (s : State) (n : Nat) (a : Acc) : State :=
  let w (o : Nat) : Bool := decide (a.addr % 64 / 8 ≤ o) && decide (o ≤ (a.addr % 64 + a.size - 1) / 8)
  if Config.spadBase ≤ a.addr then s
  else s.modCell n fun k => { k with l1 := k.l1.map fun x =>
    if x.line == a.addr / 64 then { x with
      bytes := x.bytes.filter fun p => p.2.2 || !w (p.1 / 8)
      labs := x.labs.filter fun p => p.2.2.2 || !w p.1 }
    else x }

/-- The bytes of a vector register, byte 0 first. -/
def vecBytes (v : BitVec 512) : List Byte := (List.range 64).map fun i => v.extractLsb' (8 * i) 8
/-- The vector register of these bytes. -/
def bytesVec (bs : List Byte) : BitVec 512 := BitVec.ofNat 512 (leNat bs)
/-- A vector register with loaded bytes put in their places (R164). -/
def mergeLanes (old : BitVec 512) : List (Nat × Nat) → List Byte → BitVec 512
  | [], _ => old
  | (o, n) :: t, bs => mergeLanes ((List.range n).foldl (fun v i =>
      (v &&& ~~~((0xFF : BitVec 512) <<< (8 * (o + i)))) ||| ((bs.getD i 0).setWidth 512 <<< (8 * (o + i)))) old) t (bs.drop n)
/-- A vector register with 32-bit lanes replaced. -/
def setLanes32 (old : BitVec 512) (l : List (Nat × BitVec 32)) : BitVec 512 :=
  l.foldl (fun (v : BitVec 512) (p : Nat × BitVec 32) => (v &&& ~~~((0xFFFFFFFF : BitVec 512) <<< (32 * p.1))) ||| (p.2.setWidth 512 <<< (32 * p.1))) old

/-- The value a load fills its destination with. -/
def loadValue (a : Arch) (dst : RegId) (how : LoadHow) (bs : List Byte) : RV :=
  match how with
  | .scalar size signed => .w (extend (8 * size) signed (leNat bs))
  | .lanes at_ => .v (mergeLanes (a.vr dst.n).val at_ bs)
  | .fp32 bits => .v (setLanes32 (a.vr dst.n).val bits)
  | .fe => .w 0
  | .tile size => .k ((chunks size 256 bs).map fun x => .raw (BitVec.ofNat 32 (leNat x)))
  | .elems xs => .k xs

/-- acquire(s) (R305): the interval number advances (R324); at column scope and wider, the L1's dirty bytes go to L2 and the lines of
writable pages are dropped. -/
def acquire (s : State) (c : Nat) (sc : Nat) : State :=
  let s := s.modCtx c fun x => { x with ivl := x.ivl + 1 }
  if sc < 2 then s
  else (l1CleanAll s (cellOf c)).modCell (cellOf c) fun k => { k with l1 := k.l1.filter fun x => !x.pageWr }

/-- No register: a deferred fault that names it waits for a release, fence, point or the strand's retirement (R157). -/
def noReg : RegId := ⟨.g, 64⟩
/-- A fault for a later boundary (R157, R182). -/
def defer (s : State) (c : Nat) (d : Deferred) : State := s.modCtx c fun x => { x with deferred := x.deferred ++ [d] }

/-- The data of a load in flight returns (R157, R159, R160): the destination is filled with the bytes read now, the product of the register
labels and the labels of the words, and an LDA acquires. An uncorrectable datum leaves the destination as it was and defers the data
error fault. A load that reads past the L1 takes its line at the home, and so does FEQ (R171). DESIGN CHOICE (log 96): a destination that was faulted before a load
of uncorrectable data is left faulted again; R157 speaks of a full one. -/
def loadReturn (s : State) (c n : Nat) : State :=
  match (s.ctx c).pend[n]? with
  | some (.load dst accs how labs acq pc old) =>
    let s := s.modCtx c fun x => { x with pend := takeOut n x.pend }
    let s := dropKept s c (s.plc c) dst
    let s := ackPasses s c fun b => accs.any fun a => decide (a.addr < b + 8) && decide (b < a.addr + a.size)
    let atHome (a : Acc) : Bool := a.cache != 0 || how == .fe
    let fe (a : Acc) : Bool := how == .fe && s.feBad a.addr
    match (accsBad s c accs).or (accs.find? fe) with
    | some a =>
      let s := meetBad s c accs
      let s := if dst.file = .k then leaveTile s c (s.plc c) dst.n (((s.ctx c).arch.kr dst.n).withMeta old)
        else s.modArch c fun x => x.setMeta dst old
      defer s c ⟨⟨0x18, 0, a.va, 0⟩, some dst, none⟩
    | none =>
      let s := ackBars s c fun b => accs.any fun a => decide (a.addr < b + 16) && decide (b < a.addr + a.size)
      let s := accs.foldl (fun s a => if atHome a then touchAcc s a false (s.ctx c).arch.partition else l1Fetch s (cellOf c) a) s
      let labs := labs ++ accLabels s c accs
      let (bs, s) := readAccs s c accs
      let s := accs.foldl (fun s a => if a.cache = 0 then s else l1Forget s (cellOf c) a) s
      let w := (accs.head?.map fun a => a.addr).getD 0
      let v : RV := match how with
        | .fe => .w (if Config.peerBase ≤ w then (if (bs.getD 0 0).getLsbD 0 then 1 else 0) else if s.feFull w then 1 else 0)
        | _ => loadValue (s.ctx c).arch dst how bs
      let s := match acq with
        | some sc => acquire s c sc.code
        | none => s
      match v with
      | .k es => fillTile s c (s.plc c) dst.n es labs pc
      | _ => fillOf s c (s.plc c) dst v labs pc
  | _ => s

/-! ### Long accumulators (R66 to R70, R228) -/

/-- The accumulator's 640-bit value, signed (R66). -/
def accValue (s : State) (a : Nat) : Int := sextInt (s.num a 80) 640

/-- Performs an accumulator instruction's clearing or addition as one action: an addition writes the words that hold the addend's bits and those its carry
or borrow changes; a sum outside the range is kept modulo 2^640 with ovf set (R67, R68, R70). An addition to an uncorrectable accumulator is discarded with a
record, as a store is (R157). -/
def accPerform (s : State) (c : Nat) (op : AccOp) : State :=
  let s := joinImage (joinImage s c op.point op.dst) c op.point (op.dst + 87)
  if !op.zero && s.badIn (spadAcc op.va op.dst 88) then s.recordCtx c 0x41 op.va 0
  else if op.zero then (List.range 11).foldl (fun s w => homeWrite s c op.va (valueBytes (op.dst + 8 * w) 8 0) []) s
  else
    let delta := op.delta
    let sum := accValue s op.dst + delta
    let stat := if sum < intMin 640 true ∨ intMax 640 true < sum then op.stat ||| 8 else op.stat
    let old := s.num op.dst 80
    let new := wrapInt 640 sum
    let s := (List.range 10).foldl (fun s w =>
      let n := new / 2 ^ (64 * w) % 2 ^ 64
      if n = old / 2 ^ (64 * w) % 2 ^ 64 ∧ delta.natAbs / 2 ^ (64 * w) % 2 ^ 64 = 0 then s
      else homeWrite s c op.va (valueBytes (op.dst + 8 * w) 8 n) []) s
    if stat = 0 then s else homeWrite s c op.va (valueBytes (op.dst + 80) 8 (s.num (op.dst + 80) 8 ||| stat)) []

/-- The bytes of an accumulator as an access. -/
def accAcc (va : Word) (a : Nat) : Acc := spadAcc va a 88
/-- The accumulators an instruction touches. -/
def AccOp.accs (op : AccOp) : List Acc := accAcc op.va op.dst :: match op.src with
  | some a => [accAcc op.va a]
  | none => []

/-- What an ACCM has become when it has read its source: the addition that is left (R228). -/
def AccOp.read (op : AccOp) (s : State) : AccOp :=
  match op.src with
  | some a => { op with src := none, delta := accValue s a, stat := s.num (a + 80) 8 % 16 }
  | none => op

/-- An ACCM whose source is uncorrectable ends without its addition, with a record and the data error fault, which no register holds back (R157, R331). -/
def accSourceBad (s : State) (c : Nat) (op : AccOp) : Option State :=
  match op.src.filter fun a => s.badIn (accAcc op.va a) with
  | some a => some (defer (meetBad s c [accAcc op.va a]) c ⟨⟨0x18, 0, op.va, 0⟩, some noReg, none⟩)
  | none => none

/-- The next indivisible action of the outstanding accumulator instruction at a place of the list of operations in flight (R228): an ACCM reads its source;
everything else is performed on its accumulator. -/
def accAction (s : State) (c n : Nat) : State :=
  match (s.ctx c).pend[n]? with
  | some (.accum op) =>
    let done := s.modCtx c fun x => { x with pend := takeOut n x.pend }
    match accSourceBad done c op with
    | some t => t
    | none => if op.src.isSome then s.modCtx c fun x => { x with pend := updAt n (fun _ => .accum (op.read s)) x.pend } else accPerform done c op
  | _ => s

/-- The outstanding accumulator instruction at a place of the list of operations in flight is performed. -/
def accComplete (s : State) (c n : Nat) : State :=
  match (s.ctx c).pend[n]? with
  | some (.accum op) =>
    let done := s.modCtx c fun x => { x with pend := takeOut n x.pend }
    (accSourceBad done c op).getD (accPerform done c (op.read s))
  | _ => s

/-- Performs the load or accumulator instruction at a place of the list of operations in flight. -/
def performAt (s : State) (c n : Nat) : State :=
  match (s.ctx c).pend[n]? with
  | some (.accum _) => accComplete s c n
  | some (.load _ _ _ _ _ _ _) => loadReturn s c n
  | _ => s

/-- The accesses of an operation in flight. -/
def Pend.accs : Pend → List Acc
  | .load _ as_ _ _ _ _ _ => as_
  | .accum op => op.accs
  | _ => []

/-- The operations in flight that must be performed before accesses, each with the accesses that those after it and the given ones make: the ones
that share a byte with one of them (R156, R228). -/
def chained : List Pend → List Acc → List Bool × List Acc
  | [], accs => ([], accs)
  | p :: t, accs =>
    let r := chained t accs
    if p.accs.any fun a => r.2.any fun b => overlaps a b then (true :: r.1, p.accs ++ r.2) else (false :: r.1, r.2)
/-- The place of the first load or accumulator instruction in flight that must be performed before some accesses. -/
def overlapping (s : State) (c : Nat) (accs : List Acc) : Option Nat := (chained (s.ctx c).pend accs).1.findIdx? id
/-- Earlier loads and accumulator instructions of the context that an access's bytes touch are performed before it, in issue order (R156, R228). -/
def settleN : Nat → State → Nat → List Acc → State
  | 0, s, _, _ => s
  | k + 1, s, c, accs => match overlapping s c accs with
    | some n => settleN k (performAt s c n) c accs
    | none => s
/-- Earlier passes, barrier updates, loads and accumulator instructions of the context that an access's bytes touch are performed before it. -/
def settle (s : State) (c : Nat) (accs : List Acc) : State :=
  let s := ackPasses s c fun b => accs.any fun a => decide (a.addr < b + 8) && decide (b < a.addr + a.size)
  settleN (s.ctx c).pend.length (ackBars s c fun b => accs.any fun a => decide (a.addr < b + 16) && decide (b < a.addr + a.size)) c accs

/-- Every load and accumulator instruction in flight of a context is performed now, in issue order (R304 step 1). -/
def settleLoads : Nat → State → Nat → State
  | 0, s, _ => s
  | k + 1, s, c => match (s.ctx c).pend.findIdx? fun p => match p with
      | .load _ _ _ _ _ _ _ => true
      | .accum _ => true
      | _ => false with
    | some n => settleLoads k (performAt s c n) c
    | none => s

/-! ### Issuing loads and stores -/

/-- Later memory instructions wait for an earlier LDA, LDS, TAKE or LRW, for a PUT not yet queued, for a claim not yet returned, and for a
barrier wait (R160, R174, R179, R247, R271). -/
def memGate (s : State) (c : Nat) : Except Stop Unit :=
  if (s.ctx c).pend.any fun p => match p with
    | .load _ _ _ _ acq _ _ => acq.isSome
    | .wait .home _ _ _ => true
    | .wait .put _ _ _ => true
    | .wait .claim _ _ _ => true
    | .wait .bar _ _ _ => true
    | _ => false
  then waits else .ok ()

/-- A checked load leaves: its destination is marked empty and its data is on its way (R14, R159). -/
def startLoad (s : State) (c : Nat) (d : RegId) (accs : List Acc) (how : LoadHow) (labs : List Label) (acq : Option Scope) : State :=
  let old := (s.ctx c).arch.rmeta d
  (keepReg s c d).modCtx c fun x => { x with
    arch := markEmpty x.arch d labs
    pend := x.pend ++ [.load d accs how labs acq x.arch.pc old] }

/-- One part of a plain store (R307): into the write-combining buffer, or straight to its home from scratchpad and pages of cache level
none, behind the context's earlier stores to the line (R156). -/
def storePart (s : State) (c : Nat) (a : Acc) (bs : List (Nat × Byte)) (l : Label) : State :=
  let labs := labelWord a.lab l
  if Config.spadBase ≤ a.addr ∨ a.cache = 2 then
    let s := if a.addr < Config.spadBase then l1Clean (wcbDrainLine s c (a.addr / 64)) (cellOf c) (a.addr / 64) else s
    { s with stores := s.stores ++ [⟨c, .plain, a, bs, labs, 0, (s.ctx c).seq⟩] }
  else wcbAdd s c a bs labs.head?

/-- The parts of a plain store in order; `bs` holds the bytes of all of them, none where a disabled lane's byte stays. -/
def storeParts (s : State) (c : Nat) (l : Label) : List Acc → List (Option Byte) → State
  | [], _ => s
  | a :: t, bs =>
    storeParts (storePart s c a ((List.range a.size).filterMap fun i => (bs.getD i none).map fun b => (a.addr + i, b)) l) c l t (bs.drop a.size)

/-- A store that writes all 64 bytes of a scratchpad line takes it off the restore-error list (R387). -/
def clearErr (s : State) (accs : List Acc) (bs : List (Option Byte)) : State :=
  match accs with
  | [] => s
  | a :: _ =>
    if Config.spadBase ≤ a.addr ∧ a.addr < Config.spadFeBase ∧ a.addr % 64 = 0 ∧ bs.length = 64 ∧ bs.all Option.isSome then
      s.modCell (spadCell a.addr) fun k => { k with restoreErr := k.restoreErr.filter (· != spadOff a.addr / 64) }
    else s

/-- A plain store holds issue behind an earlier store of the context to its line whose home has no power, so that the two stay in order (R156). -/
def storeRoom (s : State) (c : Nat) (accs : List Acc) : Except Stop State :=
  if accs.any fun a => darkStore s c fun b => b / 64 == a.addr / 64 then waits else .ok s

/-- A checked plain store is performed: earlier loads of its bytes read first, the race shadow is written, and the bytes leave. -/
def doStore (s : State) (c : Nat) (accs : List Acc) (bs : List (Option Byte)) (l : Label) : State :=
  storeParts (clearErr (raceNote (settle s c accs) c accs true 0) accs bs) c l accs bs

/-- Before a request on a word leaves for its home, the context's own earlier stores to the word are there (R156, R307): the entry of its line
drains, the line's dirty bytes leave the L1, and the stores on their way arrive. -/
def prepWord (s : State) (c : Nat) (a : Acc) : State :=
  let s := if a.addr < Config.spadBase then l1Clean (wcbDrainLine s c (a.addr / 64)) (cellOf c) (a.addr / 64) else s
  ackStores (settle s c [a]) c

/-! ### Release (R304) -/

/-- Whether a release must wait: for a request at a home not yet served, or for a load whose data is uncorrectable and whose fault is not yet
deferred, or for a load, store or barrier update that cannot reach its home (R384, R443). -/
def releaseHeld (s : State) (c : Nat) : Bool :=
  darkStore s c (fun _ => true) || (s.barReqs.any fun r => r.c == c && r.updates && !ctxReaches s c r.addr)
  || (s.ctx c).pend.any fun p => match p with
    | .load _ accs _ _ _ _ _ => (accsBad s c accs).isSome || accs.any fun a => !ctxReaches s c a.addr
    | .wait .home _ _ _ => true
    | .wait .put _ _ _ => true
    | _ => false

/-- A release at column scope or wider waits while a dirty line of the L1 cannot reach its home (R304, R443). -/
def cleanHeld (s : State) (c sc : Nat) : Bool :=
  decide (2 ≤ sc) && (s.cell (cellOf c)).l1.any fun x => !((dirtyBytes x).isEmpty && (dirtyLabs x).isEmpty) && !ctxReaches s c (64 * x.line)

/-- What a release that need not wait brings about (R304): every store and pass on its way arrives; loads have their data; the buffer's entries of pages
of cache level L2 only drain, and at cell scope and wider all of them; at column scope and wider the L1's dirty bytes go to L2; the interval number
advances. -/
def releaseNow (s : State) (c : Nat) (sc : Nat) : State :=
  let s := settleLoads (s.ctx c).pend.length (ackBars (ackPasses s c fun _ => true) c fun _ => true) c
  let s := ackStores s c
  let s := if sc < 1 then wcbDrainL2 s c else wcbDrainAll s c
  let s := if sc < 2 then s else l1CleanAll s (cellOf c)
  s.modCtx c fun x => { x with ivl := x.ivl + 1 }

/-- A deferred data error or reservation hold fault is taken at a release, fence or point (R157). -/
def deferredFault (s : State) (c : Nat) : Except Stop Unit :=
  match (s.ctx c).deferred with
  | [] => .ok ()
  | d :: _ => .error (.trap d.trap)

/-- release(s) (R304): holds issue until it is complete; a deferred fault of the context is taken there (R157). -/
def release (s : State) (c : Nat) (sc : Nat) : Except Stop State := do
  deferredFault s c
  if releaseHeld s c || cleanHeld s c sc then waits else .ok (releaseNow s c sc)

end Sys2Proof.Machine
end

