-- ==== Sys2Proof/Machine/Issue.lean ====
section
/-! DEFINITION. Issuing an instruction: the checks before its own rule (R83, R84, R157), its end (the program counter moves on, a trap is taken, or
the slot idles after asking for what it waits for), and the shape shared by the instructions that compute a result from
register sources (R118). -/

namespace Sys2Proof.Machine

/-- The allotment of a file in a context mode (R11). -/
def allotment (m : CtxMode) (f : RFile) : Nat :=
  match f with
  | .g => 32
  | .v => match m with
    | .m16 => 16
    | .m8 => 32
    | .m4 => 64
  | .k => match m with
    | .m16 => 4
    | .m8 => 8
    | .m4 => 16
  | .q => 8
  | .x => 8

/-- Every register field names a register of the allotment (R12). -/
def allotOk (i : Instr) (m : CtxMode) : Bool := i.regs.all fun r => decide (r.2 < allotment m r.1)

/-- The registers an instruction reads or writes without naming them in a field of the allotment check: those of compact rows, whose 4-bit fields always
name a register (R78, R79), among them. -/
def implicitRegs (i : Instr) : List RegId :=
  match i with
  | .jal _ => [⟨.g, 31⟩]
  | .ldv _ _ _ masked _ _ => if masked then [⟨.q, 0⟩] else []
  | .stv _ _ _ _ masked _ _ => if masked then [⟨.q, 0⟩] else []
  | .vlds _ _ _ xn _ _ => [⟨.q, 0⟩, ⟨.x, xn.toNat⟩]
  | .vgath _ _ _ _ _ qn _ => [⟨.q, qn.toNat⟩]
  | .vscat _ _ _ _ _ qn _ => [⟨.q, qn.toNat⟩]
  | .loopl _ _ xn => [⟨.x, xn.toNat⟩]
  | .claim _ => [⟨.x, 4⟩, ⟨.x, 5⟩, ⟨.x, 6⟩, ⟨.x, 7⟩]
  | .claimw _ => [⟨.x, 4⟩, ⟨.x, 5⟩, ⟨.x, 6⟩, ⟨.x, 7⟩]
  | .fulfil _ _ _ => [⟨.x, 4⟩, ⟨.x, 5⟩, ⟨.x, 6⟩]
  | .abandon => [⟨.x, 4⟩, ⟨.x, 5⟩, ⟨.x, 6⟩]
  | .cldrop _ => [⟨.x, 4⟩, ⟨.x, 5⟩, ⟨.x, 6⟩]
  | .gath _ _ => [⟨.x, 0⟩, ⟨.x, 1⟩, ⟨.x, 2⟩, ⟨.x, 3⟩]
  | .cMov d a => [⟨.g, d.toNat⟩, ⟨.g, a.toNat⟩]
  | .cAdd d a => [⟨.g, d.toNat⟩, ⟨.g, a.toNat⟩]
  | .cSub d a => [⟨.g, d.toNat⟩, ⟨.g, a.toNat⟩]
  | .cAnd d a => [⟨.g, d.toNat⟩, ⟨.g, a.toNat⟩]
  | .cOr d a => [⟨.g, d.toNat⟩, ⟨.g, a.toNat⟩]
  | .cXor d a => [⟨.g, d.toNat⟩, ⟨.g, a.toNat⟩]
  | .cAddi d _ => [⟨.g, d.toNat⟩]
  | .cShli d _ => [⟨.g, d.toNat⟩]
  | .cLi d _ => [⟨.g, d.toNat⟩]
  | .cLd d a _ => [⟨.g, d.toNat⟩, ⟨.g, a.toNat⟩]
  | .cSt d a _ => [⟨.g, d.toNat⟩, ⟨.g, a.toNat⟩]
  | .cBz a _ => [⟨.g, a.toNat⟩]
  | .cBnz a _ => [⟨.g, a.toNat⟩]
  | .cJr a => [⟨.g, a.toNat⟩]
  | _ => []

/-- Whether an instruction reads or writes a register (R157). -/
def touches (i : Instr) (r : RegId) : Bool := (i.regs.any fun p => p.1 == r.file && p.2 == r.n) || (implicitRegs i).contains r

/-- Whether an instruction performs a release, is a fence, makes a point or retires the strand: every deferred fault is due at it (R157). -/
def settles (i : Instr) : Bool :=
  match i with
  | .str _ _ _ _ _ _ _ => true
  | .put _ _ _ _ _ _ _ => true
  | .putFullFault _ _ _ _ _ _ _ => true
  | .sc _ _ _ _ _ _ _ => true
  | .screl _ _ _ _ _ => true
  | .fence _ _ => true
  | .pfence _ => true
  | .ppoint => true
  | .nsignal _ _ => true
  | .signal _ _ => true
  | .slotret _ _ _ _ => true
  | .fulfil _ _ _ => true
  | .abandon => true
  | .nogood _ _ _ => true
  | .tbarr _ _ _ => true
  | .encpost _ _ _ _ _ => true
  | .strdone => true
  | _ => false

/-- The deferred fault that is due when `i` would issue (R157, R182). -/
def dueDeferred (x : Ctx) (i : Instr) : Option Deferred :=
  x.deferred.find? fun d => match d.reg with
    | none => true
    | some r => touches i r || settles i

/-- What the checks before an instruction's own rule find: a deferred fault (taken in place of the instruction's own, R157), a register
beyond the allotment, then the privilege level (R84). An instruction that holds issue has passed its boundary, and meets no fault that became due since
(R173, R182). -/
def preCheck (i : Instr) (s : State) (c : Nat) : Option Trap :=
  match if (s.ctx c).hold.isSome then none else dueDeferred (s.ctx c) i with
  | some d => some d.trap
  | none =>
    if !allotOk i (s.cell (cellOf c)).mode then some ⟨2, 0, i.image, 0⟩
    else if (s.ctx c).arch.pl < i.level then some ⟨3, 0, i.image, 0⟩
    else none

/-- A page walk at a tower's walkers for a context, or for the engines of a column, merged with one under way or waiting there for the page (R348). -/
def askWalks (s : State) (t : Nat) (p : BitVec 6) (va : Word) (ctxs cols : List Nat) : State :=
  let same (w : Walk) : Bool := w.tower == t && w.part == p && w.va.toNat / 4096 == va.toNat / 4096
  if s.walks.any same then
    { s with walks := s.walks.map fun w => if same w then { w with
      ctxs := w.ctxs ++ ctxs.filter fun x => !w.ctxs.contains x
      cols := w.cols ++ cols.filter fun x => !w.cols.contains x } else w }
  else { s with
    walks := s.walks ++ [⟨t, p, va, ctxs, s.stamp, cols⟩]
    stamp := s.stamp + 1 }

/-- A page walk for a context. -/
def askWalk (s : State) (c : Nat) (va : Word) : State := askWalks s (cellOf c / 256) (BitVec.ofNat 6 (s.ctx c).arch.partition) va [c] []

/-- A question to the Accord unit for an instruction that holds issue, asked once. -/
def askHeld (s : State) (c : Nat) (sp : BitVec 12) (ask : Ask) : State :=
  if s.labelJobs.any fun j => j.c == c && j.dst.isNone && j.ask == ask then s
  else { s with labelJobs := s.labelJobs ++ [⟨c, s.plc c, none, sp, ask, .asked, (s.ctx c).arch.pc, 0⟩] }

/-- The slot idles, having asked for what it waits for. -/
def idle (s : State) (c : Nat) (w : Todo) : State :=
  match w with
  | .nothing => s
  | .walk va => askWalk s c va
  | .product srcs => askHeld s c (srcs.head?.getD .top).sp (.product srcs)
  | .content l => askHeld s c l.sp (.content l)
  | .peer ref route =>
    if s.peerOut.contains (c, ref, route) then s
    else { s with peerOut := s.peerOut ++ [(c, ref, route)] }
  | .dark ref => s.modCtx c fun x => { x with peerWait := some ref }

/-- What a fetch or the read of a handle entry that met an uncorrectable datum at a virtual address leaves: a dirty line of L2 is quarantined (R351), and a line
of the L1 whose bytes were lost goes, with a record (R336). -/
def noteDatum (s : State) (c : Nat) (t : Trap) : State :=
  if t.code ≠ 0x18 then s
  else match translate s c (t.tval.toNat % 2 ^ 57) 0 with
    | .ok e =>
      let pa := physOf e (t.tval.toNat % 2 ^ 57)
      if s.isBad pa then l2Touch s pa 3 false false 0
      else if (l1Find (s.cell (cellOf c)) (pa / 64)).any (·.lost) then l1Drop (s.recordCtx c 0x41 t.tval 0) (cellOf c) (pa / 64)
      else s
    | .error _ => s

/-- How an instruction that stopped early ends. -/
def stopped (s : State) (c : Nat) (e : Stop) : Host.Outcome State Fault Refusal :=
  match e with
  | .trap t => .next (takeTrap (noteDatum s c t) c t false (s.ctx c).arch.pc)
  | .wait w => .next (idle s c w)
  | .fault f => .fault f

/-- The program counter moves past the instruction, and what its address phase held is let go. -/
def advance (i : Instr) (s : State) (c : Nat) : State :=
  s.modCtx c fun x => { x with
    arch := { x.arch with pc := x.arch.pc + w64 i.len }
    walkFault := none
    labAns := none
    hold := none
    peerWait := none
    peerAns := [] }

/-- A NOGOOD of the context is not complete: nothing issues (R240). -/
def heldBack (s : State) (c : Nat) : Bool :=
  (s.ctx c).pend.any fun p => match p with
    | .wait .all _ _ _ => true
    | _ => false

/-- Issues an instruction for the current context: the checks, then its own rule `body`, which says where the program counter goes. -/
def issue (i : Instr) (s : State) (body : State → Nat → Except Stop State) : Host.Outcome State Fault Refusal :=
  if heldBack s s.cur then .next s
  else match preCheck i s s.cur with
  | some t => .next (takeTrap s s.cur t false (s.ctx s.cur).arch.pc)
  | none => match body s s.cur with
    | .ok t => .next t
    | .error e => stopped s s.cur e

/-- Issues an instruction after which the program counter moves on. -/
def issueSeq (i : Instr) (s : State) (body : State → Nat → Except Stop State) : Host.Outcome State Fault Refusal :=
  issue i s fun s c => (body s c).map fun t => advance i t c

/-- The shape of an instruction that computes a value of a register from register sources (R118): the destination is not empty, the sources
are read, and the destination is filled with the value under the product of their labels; `f` also gives the flags it raises, for
`set_flags`. -/
def compute (s : State) (c : Nat) (d : RegId) (xs : List Src) (f : Arch → RV × BitVec 6) : Except Stop State := do
  let a := (s.ctx c).arch
  destReady a d
  readSrcs a xs
  let r := f a
  let t ← setFlags s c r.2
  .ok (fill t c d r.1 (srcLabels a xs))

/-- Marks a destination empty and starts an operation whose result fills it later (R14). -/
def startLong (s : State) (c : Nat) (p : Due → Pend) (r : Due) : State :=
  (keepReg s c r.dst).modCtx c fun x => { x with arch := markEmpty x.arch r.dst r.labs, pend := x.pend ++ [p r] }

/-- The result of a long operation is delivered (R14, R118). -/
def deliverDue (s : State) (c : Nat) (r : Due) : State := fillOf (dropKept s c (s.plc c) r.dst) c (s.plc c) r.dst r.val r.labs r.pc

/-- The innermost level of the loop stack when its loop-back step is due: control is at its body end, at the privilege level it was
entered at (R146, R148). DESIGN CHOICE (log 83): however control came to the end, by a register jump or call too. -/
def loopDue (a : Arch) : Option Level :=
  match a.loops with
  | [] => none
  | t :: _ => if t.stop = a.pc ∧ t.pl.toNat = a.pl then some t else none

/-- The loop-back step of the innermost level while one is due, from the inside outward; the state it leaves, and the fault it ends in if it
does. The fuel is the depth of the stack. -/
def loopBackN : Nat → State → Nat → State × Option Stop
  | 0, s, _ => (s, none)
  | k + 1, s, c =>
    let a := (s.ctx c).arch
    match loopDue a with
    | none => (s, none)
    | some t =>
      let rest := a.loops.tail
      let again : State := s.modArch c fun a => { a with loops := { t with p := if t.cond then t.p + 1 else t.p - 1 } :: rest, pc := t.start }
      let popped : State := s.modArch c fun a => { a with loops := rest }
      if !t.cond then if 1 < t.p then (again, none) else loopBackN k popped c
      else
        match readEach a [srcG t.c t.wc 0] with
        | .error e => (s, some e)
        | .ok _ => match viewTest s c [srcG t.c t.wc 0] with
          | .error e => (s, some e)
          | .ok _ =>
            let seen (u : State) : State := noteView u c a [srcG t.c t.wc 0]
            if gv a t.c ≠ 0 ∧ t.p + 1 < t.max then (seen again, none)
            else if gv a t.c ≠ 0 then
              (seen popped, some (.trap ⟨0x0A, BitVec.ofNat 4 a.loops.length, t.start, 0⟩))
            else loopBackN k (seen popped) c

/-- Whether a register of the context is empty (R186). -/
def Arch.anyEmpty (a : Arch) : Bool :=
  (a.g.any fun p => p.2.fe == .empty) || (a.v.any fun p => p.2.fe == .empty) || (a.k.any fun p => p.2.fe == .empty)
  || (a.q.any fun p => p.2.fe == .empty) || (a.x.any fun p => p.2.fe == .empty)

end Sys2Proof.Machine
end

