-- ==== Sys2Proof/Machine/Scalar.lean ====
section
/-! DEFINITION. Chapter 5, first part: integer arithmetic, shifts, bit counts, selection, comparison, and the reference instructions (R122 to
R138). Each meaning is a use of `binG`, `unG` or `immG`: the destination and sources under R15, R16 and R118, and a function of the
values that gives the result and the flags raised. -/

namespace Sys2Proof.Machine

/-- An instruction of two g sources. -/
def binG (s : State) (c : Nat) (d a b : BitVec 6) (wa wb : Bool) (f : Word → Word → Word × BitVec 6) : Except Stop State :=
  compute s c (gd d) [srcG a wa 0, srcG b wb 1] fun r => (.w (f (gv r a) (gv r b)).1, (f (gv r a) (gv r b)).2)
/-- An instruction of two g sources that sets no flag. -/
def bin0 (s : State) (c : Nat) (d a b : BitVec 6) (wa wb : Bool) (f : Word → Word → Word) : Except Stop State :=
  binG s c d a b wa wb fun x y => (f x y, 0)
/-- An instruction of one g source that sets no flag. -/
def unG (s : State) (c : Nat) (d a : BitVec 6) (wa : Bool) (f : Word → Word) : Except Stop State :=
  compute s c (gd d) [srcG a wa 0] fun r => (.w (f (gv r a)), 0)
/-- An instruction of two g sources that also reads its destination as if its wait bit were 1 (R133, R134). -/
def triG (s : State) (c : Nat) (d a b : BitVec 6) (wa wb : Bool) (f : Word → Word → Word → Word) : Except Stop State :=
  compute s c (gd d) [srcG a wa 0, srcG b wb 1, srcG d true 2] fun r => (.w (f (gv r a) (gv r b) (gv r d)), 0)

/-! ### The functions of the values -/

/-- ADD, SUB and MUL before shaping (R123). -/
def arith (op : Int → Int → Int) (wid : Width) (k : IntKind) (x y : Word) : Word × BitVec 6 :=
  shapeInt wid.bits k (op (readInt wid.bits k.signed x.toNat) (readInt wid.bits k.signed y.toNat))
/-- Bits [127:64] of the exact product (R124). -/
def mulHigh (signed : Bool) (x y : Word) : Word :=
  wInt ((readInt 64 signed x.toNat * readInt 64 signed y.toNat) / (2 ^ 64 : Nat))
/-- Shift right with copies of bit 63 (R130). -/
def sraW (x : Word) (n : Nat) : Word := x.sshiftRight n
/-- Rotation left (R130). -/
def rotlW (x : Word) (n : Nat) : Word := x.rotateLeft n
/-- Number of leading zero bits, 64 for zero (R130). -/
def clzN (x : Word) : Nat := ((List.range 64).find? fun i => x.getLsbD (63 - i)).getD 64
/-- Number of trailing zero bits, 64 for zero (R130). -/
def ctzN (x : Word) : Nat := ((List.range 64).find? fun i => x.getLsbD i).getD 64
/-- Number of one bits (R130). -/
def popcN (x : Word) : Nat := ((List.range 64).filter fun i => x.getLsbD i).length
/-- BFX (R133): position b[5:0], length b[13:8] + 1. -/
def bfxW (x b : Word) : Word := w64 (x.toNat / 2 ^ fld b 0 6 % 2 ^ (fld b 8 6 + 1))
/-- BFI (R133): the low bits of `x` replace a field of `d`; bits above 63 are dropped. -/
def bfiW (x b d : Word) : Word :=
  let m : Word := w64 ((2 ^ (fld b 8 6 + 1) - 1) * 2 ^ fld b 0 6)
  (d &&& ~~~m) ||| (w64 (x.toNat * 2 ^ fld b 0 6) &&& m)
/-- RMAKE (R138). -/
def rmakeW (a b : Word) : Word := w64 (fld a 0 24 * 2 ^ 40 + fld b 0 40)
/-- RSETF (R138). -/
def rsetfW (a b : Word) : Word := putFld a 54 10 (fld b 0 10)
/-- The sign-extended immediate. -/
def simm {n : Nat} (imm : BitVec n) : Word := imm.signExtend 64

/-! ### Meanings -/

/-- ADD (R123). -/
def execAdd (d a b : BitVec 6) (wa wb : Bool) (wid : Width) (k : IntKind) (s : State) : Host.Outcome State Fault Refusal :=
  issueSeq (.add d a b wa wb wid k) s fun s c => binG s c d a b wa wb (arith (· + ·) wid k)

/-- SUB (R123). -/
def execSub (d a b : BitVec 6) (wa wb : Bool) (wid : Width) (k : IntKind) (s : State) : Host.Outcome State Fault Refusal :=
  issueSeq (.sub d a b wa wb wid k) s fun s c => binG s c d a b wa wb (arith (· - ·) wid k)

/-- MUL (R123). -/
def execMul (d a b : BitVec 6) (wa wb : Bool) (wid : Width) (k : IntKind) (s : State) : Host.Outcome State Fault Refusal :=
  issueSeq (.mul d a b wa wb wid k) s fun s c => binG s c d a b wa wb (arith (· * ·) wid k)

/-- MULH (R124). -/
def execMulh (d a b : BitVec 6) (wa wb : Bool) (s : State) : Host.Outcome State Fault Refusal :=
  issueSeq (.mulh d a b wa wb) s fun s c => bin0 s c d a b wa wb (mulHigh true)

/-- MULHN (R124). -/
def execMulhn (d a b : BitVec 6) (wa wb : Bool) (s : State) : Host.Outcome State Fault Refusal :=
  issueSeq (.mulhn d a b wa wb) s fun s c => bin0 s c d a b wa wb (mulHigh false)

/-- The division instructions (R125): the corner cases of R42 set their flag at issue; then the destination is marked empty and holds the
result that it fills with when the divider is done. -/
def divide4 (s : State) (c : Nat) (d a b : BitVec 6) (wa wb : Bool) (wid : Width) (signed rem : Bool) : Except Stop State := do
  let r := (s.ctx c).arch
  destReady r (gd d)
  readSrcs r [srcG a wa 0, srcG b wb 1]
  let q := divide wid.bits signed (gv r a).toNat (gv r b).toNat
  let t ← setFlags s c q.2.2
  let v := extend wid.bits signed (wrapInt wid.bits (if rem then q.2.1 else q.1))
  .ok (startLong t c .div ⟨gd d, .w v, srcLabels r [srcG a wa 0, srcG b wb 1], r.pc⟩)

/-- DIV (R125). -/
def execDiv (d a b : BitVec 6) (wa wb : Bool) (wid : Width) (s : State) : Host.Outcome State Fault Refusal :=
  issueSeq (.div d a b wa wb wid) s fun s c => divide4 s c d a b wa wb wid true false

/-- DIVN (R125). -/
def execDivn (d a b : BitVec 6) (wa wb : Bool) (wid : Width) (s : State) : Host.Outcome State Fault Refusal :=
  issueSeq (.divn d a b wa wb wid) s fun s c => divide4 s c d a b wa wb wid false false

/-- REM (R125). -/
def execRem (d a b : BitVec 6) (wa wb : Bool) (wid : Width) (s : State) : Host.Outcome State Fault Refusal :=
  issueSeq (.rem d a b wa wb wid) s fun s c => divide4 s c d a b wa wb wid true true

/-- REMN (R125). -/
def execRemn (d a b : BitVec 6) (wa wb : Bool) (wid : Width) (s : State) : Host.Outcome State Fault Refusal :=
  issueSeq (.remn d a b wa wb wid) s fun s c => divide4 s c d a b wa wb wid false true

/-- AND (R126). -/
def execAnd (d a b : BitVec 6) (wa wb : Bool) (s : State) : Host.Outcome State Fault Refusal :=
  issueSeq (.and d a b wa wb) s fun s c => bin0 s c d a b wa wb (· &&& ·)

/-- OR (R126). -/
def execOr (d a b : BitVec 6) (wa wb : Bool) (s : State) : Host.Outcome State Fault Refusal :=
  issueSeq (.or d a b wa wb) s fun s c => bin0 s c d a b wa wb (· ||| ·)

/-- XOR (R126). -/
def execXor (d a b : BitVec 6) (wa wb : Bool) (s : State) : Host.Outcome State Fault Refusal :=
  issueSeq (.xor d a b wa wb) s fun s c => bin0 s c d a b wa wb (· ^^^ ·)

/-- MOV (R126). -/
def execMov (d a : BitVec 6) (wa : Bool) (s : State) : Host.Outcome State Fault Refusal :=
  issueSeq (.mov d a wa) s fun s c => unG s c d a wa id

/-- SHL (R130). -/
def execShl (d a b : BitVec 6) (wa wb : Bool) (s : State) : Host.Outcome State Fault Refusal :=
  issueSeq (.shl d a b wa wb) s fun s c => bin0 s c d a b wa wb fun x y => x <<< fld y 0 6

/-- SHR (R130). -/
def execShr (d a b : BitVec 6) (wa wb : Bool) (s : State) : Host.Outcome State Fault Refusal :=
  issueSeq (.shr d a b wa wb) s fun s c => bin0 s c d a b wa wb fun x y => x >>> fld y 0 6

/-- SRA (R130). -/
def execSra (d a b : BitVec 6) (wa wb : Bool) (s : State) : Host.Outcome State Fault Refusal :=
  issueSeq (.sra d a b wa wb) s fun s c => bin0 s c d a b wa wb fun x y => sraW x (fld y 0 6)

/-- ROTL (R130). -/
def execRotl (d a b : BitVec 6) (wa wb : Bool) (s : State) : Host.Outcome State Fault Refusal :=
  issueSeq (.rotl d a b wa wb) s fun s c => bin0 s c d a b wa wb fun x y => rotlW x (fld y 0 6)

/-- CLZ (R130). -/
def execClz (d a : BitVec 6) (wa : Bool) (s : State) : Host.Outcome State Fault Refusal :=
  issueSeq (.clz d a wa) s fun s c => unG s c d a wa fun x => w64 (clzN x)

/-- CTZ (R130). -/
def execCtz (d a : BitVec 6) (wa : Bool) (s : State) : Host.Outcome State Fault Refusal :=
  issueSeq (.ctz d a wa) s fun s c => unG s c d a wa fun x => w64 (ctzN x)

/-- POPC (R130). -/
def execPopc (d a : BitVec 6) (wa : Bool) (s : State) : Host.Outcome State Fault Refusal :=
  issueSeq (.popc d a wa) s fun s c => unG s c d a wa fun x => w64 (popcN x)

/-- MIN (R131). -/
def execMin (d a b : BitVec 6) (wa wb : Bool) (s : State) : Host.Outcome State Fault Refusal :=
  issueSeq (.min d a b wa wb) s fun s c => bin0 s c d a b wa wb fun x y => if x.toInt ≤ y.toInt then x else y

/-- MAX (R131). -/
def execMax (d a b : BitVec 6) (wa wb : Bool) (s : State) : Host.Outcome State Fault Refusal :=
  issueSeq (.max d a b wa wb) s fun s c => bin0 s c d a b wa wb fun x y => if x.toInt ≤ y.toInt then y else x

/-- MINN (R131). -/
def execMinn (d a b : BitVec 6) (wa wb : Bool) (s : State) : Host.Outcome State Fault Refusal :=
  issueSeq (.minn d a b wa wb) s fun s c => bin0 s c d a b wa wb fun x y => if x.toNat ≤ y.toNat then x else y

/-- MAXN (R131). -/
def execMaxn (d a b : BitVec 6) (wa wb : Bool) (s : State) : Host.Outcome State Fault Refusal :=
  issueSeq (.maxn d a b wa wb) s fun s c => bin0 s c d a b wa wb fun x y => if x.toNat ≤ y.toNat then y else x

/-- SEXT (R132): the field holds n − 1. -/
def execSext (d a : BitVec 6) (wa : Bool) (n : BitVec 6) (s : State) : Host.Outcome State Fault Refusal :=
  issueSeq (.sext d a wa n) s fun s c => unG s c d a wa fun x => extend (n.toNat + 1) true x.toNat

/-- ZEXT (R132): the field holds n − 1. -/
def execZext (d a : BitVec 6) (wa : Bool) (n : BitVec 6) (s : State) : Host.Outcome State Fault Refusal :=
  issueSeq (.zext d a wa n) s fun s c => unG s c d a wa fun x => extend (n.toNat + 1) false x.toNat

/-- BFX (R133). -/
def execBfx (d a b : BitVec 6) (wa wb : Bool) (s : State) : Host.Outcome State Fault Refusal :=
  issueSeq (.bfx d a b wa wb) s fun s c => bin0 s c d a b wa wb bfxW

/-- BFI (R133). -/
def execBfi (d a b : BitVec 6) (wa wb : Bool) (s : State) : Host.Outcome State Fault Refusal :=
  issueSeq (.bfi d a b wa wb) s fun s c => triG s c d a b wa wb bfiW

/-- SEL (R134). -/
def execSel (d a b : BitVec 6) (wa wb : Bool) (s : State) : Host.Outcome State Fault Refusal :=
  issueSeq (.sel d a b wa wb) s fun s c => triG s c d a b wa wb fun x y z => if z = 0 then y else x

/-- SLT (R135). -/
def execSlt (d a b : BitVec 6) (wa wb : Bool) (s : State) : Host.Outcome State Fault Refusal :=
  issueSeq (.slt d a b wa wb) s fun s c => bin0 s c d a b wa wb fun x y => bool64 (x.toInt < y.toInt)

/-- SLTN (R135). -/
def execSltn (d a b : BitVec 6) (wa wb : Bool) (s : State) : Host.Outcome State Fault Refusal :=
  issueSeq (.sltn d a b wa wb) s fun s c => bin0 s c d a b wa wb fun x y => bool64 (x.toNat < y.toNat)

/-- SEQ (R135). -/
def execSeq (d a b : BitVec 6) (wa wb : Bool) (s : State) : Host.Outcome State Fault Refusal :=
  issueSeq (.seq d a b wa wb) s fun s c => bin0 s c d a b wa wb fun x y => bool64 (x == y)

/-- HASH (R136). -/
def execHash (d a b : BitVec 6) (wa wb : Bool) (s : State) : Host.Outcome State Fault Refusal :=
  issueSeq (.hash d a b wa wb) s fun s c => bin0 s c d a b wa wb hashW

/-- ADDI (R127). -/
def execAddi (d a : BitVec 6) (wa : Bool) (imm : BitVec 11) (s : State) : Host.Outcome State Fault Refusal :=
  issueSeq (.addi d a wa imm) s fun s c => unG s c d a wa fun x => x + simm imm

/-- ANDI (R127). -/
def execAndi (d a : BitVec 6) (wa : Bool) (imm : BitVec 11) (s : State) : Host.Outcome State Fault Refusal :=
  issueSeq (.andi d a wa imm) s fun s c => unG s c d a wa fun x => x &&& simm imm

/-- ORI (R127). -/
def execOri (d a : BitVec 6) (wa : Bool) (imm : BitVec 11) (s : State) : Host.Outcome State Fault Refusal :=
  issueSeq (.ori d a wa imm) s fun s c => unG s c d a wa fun x => x ||| simm imm

/-- XORI (R127). -/
def execXori (d a : BitVec 6) (wa : Bool) (imm : BitVec 11) (s : State) : Host.Outcome State Fault Refusal :=
  issueSeq (.xori d a wa imm) s fun s c => unG s c d a wa fun x => x ^^^ simm imm

/-- SLTI (R135). -/
def execSlti (d a : BitVec 6) (wa : Bool) (imm : BitVec 11) (s : State) : Host.Outcome State Fault Refusal :=
  issueSeq (.slti d a wa imm) s fun s c => unG s c d a wa fun x => bool64 (x.toInt < (simm imm).toInt)

/-- SHLI (R130). -/
def execShli (d a : BitVec 6) (wa : Bool) (n : BitVec 6) (s : State) : Host.Outcome State Fault Refusal :=
  issueSeq (.shli d a wa n) s fun s c => unG s c d a wa fun x => x <<< n.toNat

/-- SHRI (R130). -/
def execShri (d a : BitVec 6) (wa : Bool) (n : BitVec 6) (s : State) : Host.Outcome State Fault Refusal :=
  issueSeq (.shri d a wa n) s fun s c => unG s c d a wa fun x => x >>> n.toNat

/-- SRAI (R130). -/
def execSrai (d a : BitVec 6) (wa : Bool) (n : BitVec 6) (s : State) : Host.Outcome State Fault Refusal :=
  issueSeq (.srai d a wa n) s fun s c => unG s c d a wa fun x => sraW x n.toNat

/-- ROTLI (R130). -/
def execRotli (d a : BitVec 6) (wa : Bool) (n : BitVec 6) (s : State) : Host.Outcome State Fault Refusal :=
  issueSeq (.rotli d a wa n) s fun s c => unG s c d a wa fun x => rotlW x n.toNat

/-- LI (R128). -/
def execLi (d : BitVec 6) (imm : BitVec 18) (s : State) : Host.Outcome State Fault Refusal :=
  issueSeq (.li d imm) s fun s c => compute s c (gd d) [] fun _ => (.w (simm imm), 0)

/-- LIH (R128): the old d is read as if its wait bit were 1. -/
def execLih (d : BitVec 6) (imm : BitVec 18) (s : State) : Host.Outcome State Fault Refusal :=
  issueSeq (.lih d imm) s fun s c => compute s c (gd d) [srcG d true 0] fun r => (.w ((gv r d <<< 18) ||| imm.setWidth 64), 0)

/-- RMAKE (R138). -/
def execRmake (d a b : BitVec 6) (wa wb : Bool) (s : State) : Host.Outcome State Fault Refusal :=
  issueSeq (.rmake d a b wa wb) s fun s c => bin0 s c d a b wa wb rmakeW

/-- RADD (R138). -/
def execRadd (d a b : BitVec 6) (wa wb : Bool) (s : State) : Host.Outcome State Fault Refusal :=
  issueSeq (.radd d a b wa wb) s fun s c => bin0 s c d a b wa wb fun x y => refAdd x y.toInt

/-- RSETF (R138). -/
def execRsetf (d a b : BitVec 6) (wa wb : Bool) (s : State) : Host.Outcome State Fault Refusal :=
  issueSeq (.rsetf d a b wa wb) s fun s c => bin0 s c d a b wa wb rsetfW

/-- ROFF (R138). -/
def execRoff (d a : BitVec 6) (wa : Bool) (s : State) : Host.Outcome State Fault Refusal :=
  issueSeq (.roff d a wa) s fun s c => unG s c d a wa fun x => w64 (fld x 0 40)

/-- RIDX (R138). -/
def execRidx (d a : BitVec 6) (wa : Bool) (s : State) : Host.Outcome State Fault Refusal :=
  issueSeq (.ridx d a wa) s fun s c => unG s c d a wa fun x => w64 (fld x 40 14)

/-- RADDI (R138). -/
def execRaddi (d a : BitVec 6) (wa : Bool) (imm : BitVec 11) (s : State) : Host.Outcome State Fault Refusal :=
  issueSeq (.raddi d a wa imm) s fun s c => unG s c d a wa fun x => refAdd x imm.toInt

end Sys2Proof.Machine
end

