-- ==== Sys2Proof/Machine/Control.lean ====
section
/-! DEFINITION. Chapter 5, second part: jumps, branches, hardware loops with their loop-back step, and the operand-extension registers but XLD (R139 to
R149). -/

namespace Sys2Proof.Machine

/-- Control goes to `t`; what an address phase or a view test held is let go. -/
def goto (s : State) (c : Nat) (t : Word) : State :=
  s.modCtx c fun x => { x with
    arch := { x.arch with pc := t }
    walkFault := none
    labAns := none
    hold := none
    peerWait := none
    peerAns := [] }

/-- Levels of the loop stack are popped from the innermost outward while the target lies outside their range [start, end] (R147); a level of
another privilege level is not acted on (R148). -/
def popTo (pl : Nat) (t : Word) : List Level → List Level
  | [] => []
  | u :: us => if u.pl.toNat = pl ∧ ¬(u.start ≤ t ∧ t ≤ u.stop) then popTo pl t us else u :: us

/-- A taken branch, J, or skip: the loop stack by the target, then the target (R145, R147). -/
def takeBranch (s : State) (c : Nat) (t : Word) : State :=
  goto (s.modArch c fun a => { a with loops := popTo a.pl t a.loops }) c t

/-- The target of a displacement in parcels (R73). -/
def target {n : Nat} (a : Arch) (disp : BitVec n) : Word := a.pc + wInt (2 * disp.toInt)

/-- A branch (R141, R142): each source is read and tested under VIEW; taken, control goes to the target. -/
def branchOn (i : Instr) (s : State) (c : Nat) (xs : List Src) (taken : Arch → Bool) (t : Arch → Word) : Except Stop State := do
  let a := (s.ctx c).arch
  readEach a xs
  viewTest s c xs
  .ok (noteView (if taken a then takeBranch s c (t a) else advance i s c) c a xs)

/-- A branch on two g registers. -/
def branch2 (i : Instr) (s : State) (c : Nat) (a b : BitVec 6) (wa wb : Bool) (disp : BitVec 10) (p : Word → Word → Bool) :
    Except Stop State :=
  branchOn i s c [srcG a wa 0, srcG b wb 1] (fun r => p (gv r a) (gv r b)) (fun r => target r disp)

/-- A branch on one g register. -/
def branch1 (i : Instr) (s : State) (c : Nat) (a : BitVec 6) (wa : Bool) (disp : BitVec 17) (p : Word → Bool) : Except Stop State :=
  branchOn i s c [srcG a wa 0] (fun r => p (gv r a)) (fun r => target r disp)

/-- A jump to a register's value, which links when `d` is given (R140): the target is tested under VIEW, an odd one is the alignment fault. -/
def jumpReg (i : Instr) (s : State) (c : Nat) (d : Option (BitVec 6)) (a : BitVec 6) (wa : Bool) : Except Stop State := do
  let r := (s.ctx c).arch
  match d with
    | some d => destReady r (gd d)
    | none => .ok ()
  readEach r [srcG a wa 0]
  viewTest s c [srcG a wa 0]
  let t := gv r a
  if t.getLsbD 0 then raise 0x16 t
  else
    let s := match d with
      | some d => fillTop s c (gd d) (.w (r.pc + w64 i.len))
      | none => s
    .ok (noteView (goto s c t) c r [srcG a wa 0])

/-- The body end of a loop instruction: its length in parcels after the instruction (R144). -/
def loopStop (a : Arch) (len : Nat) : Word := a.pc + 4 + w64 (2 * len)

/-- A level is pushed and the body begins (R145). -/
def pushLevel (s : State) (c : Nat) (len max : Nat) (cond : Bool) (p : Nat) (r : BitVec 6) (wc : Bool) : Except Stop State :=
  let a := (s.ctx c).arch
  let start := a.pc + 4
  if 4 ≤ a.loops.length then raise 0x0C start
  else .ok (goto (s.modArch c fun a =>
    { a with loops := ⟨start, loopStop a len, cond, max, p, r, wc, BitVec.ofNat 2 a.pl⟩ :: a.loops }) c start)

/-- A counted loop's entry once its count is read and tested (R145): a count of 0 skips the body as a taken branch does; one above the maximum is
the loop count fault. -/
def enterCounted (s : State) (c : Nat) (n len max : Nat) (r : BitVec 6) (wc : Bool) : Except Stop State :=
  if n = 0 then .ok (takeBranch s c (loopStop (s.ctx c).arch len))
  else if max < n then raise 0x0B (w64 n)
  else pushLevel s c len max false n r wc

/-- The maximum of codes m and e (R77). -/
def loopMax (m e : Nat) : Nat := (m + 1) * 2 ^ e

/-! ### The loop-back step (R146) -/

/-- LOOP_BACK (R146): control is at a body end. -/
def execLoopBack (c : Nat) (s : State) : Host.Outcome State Fault Refusal :=
  match loopBackN (s.ctx c).arch.loops.length s c with
  | (t, none) => .next t
  | (t, some e) => stopped t c e

/-! ### Meanings -/

/-- J (R140, R147). -/
def execJ (disp : BitVec 24) (s : State) : Host.Outcome State Fault Refusal :=
  issue (.j disp) s fun s c => .ok (takeBranch s c (target (s.ctx c).arch disp))

/-- JAL (R140): g31 is linked with the label ⊤; the loop stack stays. -/
def execJal (disp : BitVec 24) (s : State) : Host.Outcome State Fault Refusal :=
  issue (.jal disp) s fun s c => do
    let r := (s.ctx c).arch
    destReady r ⟨.g, 31⟩
    .ok (goto (fillTop s c ⟨.g, 31⟩ (.w (r.pc + 4))) c (target r disp))

/-- JR (R140). -/
def execJr (a : BitVec 6) (wa : Bool) (s : State) : Host.Outcome State Fault Refusal :=
  issue (.jr a wa) s fun s c => jumpReg (.jr a wa) s c none a wa

/-- JALR (R140): d = a jumps to the old value. -/
def execJalr (d a : BitVec 6) (wa : Bool) (s : State) : Host.Outcome State Fault Refusal :=
  issue (.jalr d a wa) s fun s c => jumpReg (.jalr d a wa) s c (some d) a wa

/-- BEQ (R141). -/
def execBeq (a b : BitVec 6) (wa wb : Bool) (disp : BitVec 10) (s : State) : Host.Outcome State Fault Refusal :=
  issue (.beq a b wa wb disp) s fun s c => branch2 (.beq a b wa wb disp) s c a b wa wb disp fun x y => x == y

/-- BNE (R141). -/
def execBne (a b : BitVec 6) (wa wb : Bool) (disp : BitVec 10) (s : State) : Host.Outcome State Fault Refusal :=
  issue (.bne a b wa wb disp) s fun s c => branch2 (.bne a b wa wb disp) s c a b wa wb disp fun x y => x != y

/-- BLT (R141). -/
def execBlt (a b : BitVec 6) (wa wb : Bool) (disp : BitVec 10) (s : State) : Host.Outcome State Fault Refusal :=
  issue (.blt a b wa wb disp) s fun s c => branch2 (.blt a b wa wb disp) s c a b wa wb disp fun x y => decide (x.toInt < y.toInt)

/-- BGE (R141). -/
def execBge (a b : BitVec 6) (wa wb : Bool) (disp : BitVec 10) (s : State) : Host.Outcome State Fault Refusal :=
  issue (.bge a b wa wb disp) s fun s c => branch2 (.bge a b wa wb disp) s c a b wa wb disp fun x y => decide (y.toInt ≤ x.toInt)

/-- BLTN (R141). -/
def execBltn (a b : BitVec 6) (wa wb : Bool) (disp : BitVec 10) (s : State) : Host.Outcome State Fault Refusal :=
  issue (.bltn a b wa wb disp) s fun s c => branch2 (.bltn a b wa wb disp) s c a b wa wb disp fun x y => decide (x.toNat < y.toNat)

/-- BGEN (R141). -/
def execBgen (a b : BitVec 6) (wa wb : Bool) (disp : BitVec 10) (s : State) : Host.Outcome State Fault Refusal :=
  issue (.bgen a b wa wb disp) s fun s c => branch2 (.bgen a b wa wb disp) s c a b wa wb disp fun x y => decide (y.toNat ≤ x.toNat)

/-- BZ (R141). -/
def execBz (a : BitVec 6) (wa : Bool) (disp : BitVec 17) (s : State) : Host.Outcome State Fault Refusal :=
  issue (.bz a wa disp) s fun s c => branch1 (.bz a wa disp) s c a wa disp fun x => x == 0

/-- BNZ (R141). -/
def execBnz (a : BitVec 6) (wa : Bool) (disp : BitVec 17) (s : State) : Host.Outcome State Fault Refusal :=
  issue (.bnz a wa disp) s fun s c => branch1 (.bnz a wa disp) s c a wa disp fun x => x != 0

/-- LOOP (R145). -/
def execLoop (r : BitVec 6) (wc : Bool) (len : BitVec 8) (m : BitVec 5) (e : BitVec 4) (s : State) : Host.Outcome State Fault Refusal :=
  issue (.loop r wc len m e) s fun s c => do
    let a := (s.ctx c).arch
    readEach a [srcG r wc 0]
    viewTest s c [srcG r wc 0]
    .ok (noteView (← enterCounted s c (gv a r).toNat len.toNat (loopMax m.toNat e.toNat) r wc) c a [srcG r wc 0])

/-- LOOPW (R145): the condition is not read at entry, and the body runs at least once. -/
def execLoopw (r : BitVec 6) (wc : Bool) (len : BitVec 8) (m : BitVec 5) (e : BitVec 4) (s : State) : Host.Outcome State Fault Refusal :=
  issue (.loopw r wc len m e) s fun s c => pushLevel s c len.toNat (loopMax m.toNat e.toNat) true 0 r wc

/-- LOOPL (R144, R145): length and maximum from xn; an invalid xn is illegal whatever the count. -/
def execLoopl (a : BitVec 6) (wa : Bool) (xn : BitVec 3) (s : State) : Host.Outcome State Fault Refusal :=
  issue (.loopl a wa xn) s fun s c => do
    let r := (s.ctx c).arch
    let xs := [srcG a wa 0, srcF .x xn.toNat 1]
    readEach r xs
    viewTest s c xs
    let v := (r.xr xn.toNat).val
    if fld v 0 8 = 0 ∨ fld v 17 47 ≠ 0 then raise 0x01 (Instr.loopl a wa xn).image
    else .ok (noteView (← enterCounted s c (gv r a).toNat (fld v 0 8) (loopMax (fld v 8 5) (fld v 13 4)) a wa) c r xs)

/-- NOP (R143). -/
def execNop (s : State) : Host.Outcome State Fault Refusal :=
  issueSeq (.nop) s fun s _ => .ok s

/-- XSET (R149). -/
def execXset (d a : BitVec 6) (wa : Bool) (s : State) : Host.Outcome State Fault Refusal :=
  issueSeq (.xset d a wa) s fun s c => compute s c ⟨.x, d.toNat⟩ [srcG a wa 0] fun r => (.w (gv r a), 0)

/-- XGET (R149): xn is read as if its wait bit were 1. -/
def execXget (d a : BitVec 6) (s : State) : Host.Outcome State Fault Refusal :=
  issueSeq (.xget d a) s fun s c => compute s c (gd d) [srcF .x a.toNat 0] fun r => (.w (r.xr a.toNat).val, 0)

/-- XLI (R149). -/
def execXli (d : BitVec 6) (imm : BitVec 18) (s : State) : Host.Outcome State Fault Refusal :=
  issueSeq (.xli d imm) s fun s c => compute s c ⟨.x, d.toNat⟩ [] fun _ => (.w (simm imm), 0)

end Sys2Proof.Machine
end

