-- ==== Sys2Proof/Machine/Float.lean ====
section
/-! DEFINITION. Floating point (R44 to R52): the formats, decoding a bit pattern to its exact value, rounding an exact value to a format, and
the exact operations with their special values. -/

namespace Sys2Proof.Machine

/-- A format (R44): widths of exponent and fraction, bias, and whether it has infinities. -/
structure Fmt where
  e : Nat
  f : Nat
  bias : Nat
  inf : Bool
deriving DecidableEq, Repr

/-- FP64. -/
def fmt64 : Fmt := ⟨11, 52, 1023, true⟩
/-- FP32. -/
def fmt32 : Fmt := ⟨8, 23, 127, true⟩
/-- FP16. -/
def fmt16 : Fmt := ⟨5, 10, 15, true⟩
/-- BF16. -/
def fmtB16 : Fmt := ⟨8, 7, 127, true⟩
/-- FP8 E5M2. -/
def fmtE5M2 : Fmt := ⟨5, 2, 15, true⟩
/-- FP8 E4M3. -/
def fmtE4M3 : Fmt := ⟨4, 3, 7, false⟩

namespace Fmt
/-- Bits of the format. -/
def bits (t : Fmt) : Nat := t.e + t.f + 1
/-- The all-ones exponent. -/
def emax (t : Fmt) : Nat := 2 ^ t.e - 1
/-- The sign bit in place. -/
def sign (t : Fmt) (neg : Bool) : Nat := if neg then 2 ^ (t.e + t.f) else 0
/-- The canonical NaN (R46). -/
def nan (t : Fmt) : Nat := if t.inf then t.emax * 2 ^ t.f + 2 ^ (t.f - 1) else t.emax * 2 ^ t.f + (2 ^ t.f - 1)
/-- An infinity. -/
def infinity (t : Fmt) (neg : Bool) : Nat := t.sign neg + t.emax * 2 ^ t.f
/-- The largest finite magnitude, encoded (R46). -/
def largest (t : Fmt) (neg : Bool) : Nat :=
  t.sign neg + (if t.inf then t.emax * 2 ^ t.f - 1 else t.emax * 2 ^ t.f + (2 ^ t.f - 2))
/-- The largest finite magnitude as a significand, and the weight of its last bit. -/
def largestVal (t : Fmt) : Nat × Int :=
  if t.inf then (2 ^ (t.f + 1) - 1, (t.emax : Int) - 1 - t.bias - t.f) else (2 ^ (t.f + 1) - 2, (t.emax : Int) - t.bias - t.f)
end Fmt

/-- The exact value of a bit pattern (R45). -/
def decodeFp (t : Fmt) (b : Nat) : Fp :=
  let neg := b / 2 ^ (t.e + t.f) % 2 == 1
  let e := b / 2 ^ t.f % 2 ^ t.e
  let f := b % 2 ^ t.f
  if e = 0 then if f = 0 then .zero neg else .fin neg f (1 - (t.bias : Int) - t.f)
  else if e = t.emax ∧ t.inf then if f = 0 then .inf neg else .nan
  else if e = t.emax ∧ ¬t.inf ∧ f = 2 ^ t.f - 1 then .nan
  else .fin neg (2 ^ t.f + f) ((e : Int) - t.bias - t.f)

/-- Number of bits of a natural number. -/
def bitLen (n : Nat) : Nat := if n = 0 then 0 else n.log2 + 1

/-- An exact result: a value, and whether the true value lies strictly between its magnitude and the next one in the last place (a
quotient or root that does not end). -/
structure Exact where
  x : Fp
  more : Bool
  flags : BitVec 6
deriving DecidableEq, Repr

/-- A value that is exact. -/
def exact (x : Fp) : Exact := ⟨x, false, 0⟩
/-- The canonical NaN of an invalid operation (R50). -/
def invalid : Exact := ⟨.nan, false, fNV⟩

/-- Whether a magnitude between m and m + 1 is rounded up, given how the discarded part compares with one half (R47). -/
def roundUp (mode : RMode) (neg : Bool) (m : Nat) (rest half2 : Nat) (more : Bool) : Bool :=
  let inexact := rest != 0 || more
  match mode with
  | .nearest => decide (half2 < 2 * rest) || (2 * rest == half2 && (more || m % 2 == 1))
  | .zero => false
  | .up => inexact && !neg
  | .down => inexact && neg

/-- What an overflow gives (R48), and its flags. -/
def overflowTo (t : Fmt) (mode : RMode) (neg : Bool) : Nat × BitVec 6 :=
  if !t.inf then (t.largest neg, fOF ||| fNX ||| fSAT)
  else
    let toInf := match mode with
      | .nearest => true
      | .zero => false
      | .up => !neg
      | .down => neg
    (if toInf then t.infinity neg else t.largest neg, fOF ||| fNX)

/-- Rounds (−1)^neg · m · 2^x, m > 0, to a format (R47 to R49): tininess before rounding. -/
def roundFin (t : Fmt) (mode : RMode) (neg : Bool) (m : Nat) (x : Int) (more : Bool) : Nat × BitVec 6 :=
  let lead := x + bitLen m - 1
  let emin : Int := 1 - t.bias
  let q := max lead emin - t.f
  let sh := (q - x).toNat
  let m0 := if q ≤ x then m * 2 ^ (x - q).toNat else m / 2 ^ sh
  let rest := if q ≤ x then 0 else m % 2 ^ sh
  let half2 := if q ≤ x then 1 else 2 ^ sh
  let inexact := rest != 0 || more
  let m1 := if roundUp mode neg m0 rest half2 more then m0 + 1 else m0
  let top := t.largestVal
  let outs := if q ≤ top.2 then decide (top.1 * 2 ^ (top.2 - q).toNat < m1) else decide (top.1 < m1 * 2 ^ (q - top.2).toNat)
  if outs && m1 != 0 then overflowTo t mode neg
  else
    let fl := (if inexact then fNX else 0) ||| (if inexact && decide (lead < emin) then fUF else 0)
    let bits :=
      if m1 < 2 ^ t.f then m1
      else if m1 < 2 ^ (t.f + 1) then (q + t.f + t.bias).toNat * 2 ^ t.f + (m1 - 2 ^ t.f)
      else (q + 1 + t.f + t.bias).toNat * 2 ^ t.f + (m1 / 2 - 2 ^ t.f)
    (t.sign neg + bits, fl)

/-- `round_to` (R47 to R49) of an exact result, with the flags of both. -/
def roundTo (t : Fmt) (mode : RMode) (r : Exact) : Nat × BitVec 6 :=
  match r.x with
  | .nan => (t.nan, r.flags)
  | .inf neg => if t.inf then (t.infinity neg, r.flags) else (t.largest neg, r.flags ||| fSAT)
  | .zero neg => (t.sign neg, r.flags)
  | .fin neg m x =>
    let b := roundFin t mode neg m x r.more
    (b.1, b.2 ||| r.flags)

namespace Fp
/-- The sign. -/
def neg : Fp → Bool
  | .zero n => n
  | .fin n _ _ => n
  | .inf n => n
  | .nan => false
/-- The value with its sign changed. -/
def negate : Fp → Fp
  | .zero n => .zero !n
  | .fin n m x => .fin (!n) m x
  | .inf n => .inf !n
  | .nan => .nan
/-- The magnitude. -/
def abs : Fp → Fp
  | .zero _ => .zero false
  | .fin _ m x => .fin false m x
  | .inf _ => .inf false
  | .nan => .nan
/-- The value times a power of two. -/
def scale (k : Int) : Fp → Fp
  | .zero n => .zero n
  | .fin n m x => .fin n m (x + k)
  | .inf n => .inf n
  | .nan => .nan
/-- NaN. -/
def isNan : Fp → Bool
  | .nan => true
  | _ => false
/-- A zero of either sign. -/
def isZero : Fp → Bool
  | .zero _ => true
  | _ => false
/-- An infinity. -/
def isInf : Fp → Bool
  | .inf _ => true
  | _ => false
/-- The signed significand at a weight not above the value's own. -/
def at_ (x : Fp) (w : Int) : Int :=
  match x with
  | .fin n m e => (if n then -1 else 1) * ((m * 2 ^ (e - w).toNat : Nat) : Int)
  | _ => 0
/-- The weight of the last bit; none for what is not finite and nonzero. -/
def weight : Fp → Option Int
  | .fin _ _ e => some e
  | _ => none
end Fp

/-- An integer at a weight as a value; a zero gets the given sign. -/
def ofScaled (v : Int) (w : Int) (zneg : Bool) : Fp :=
  if v = 0 then .zero zneg else .fin (decide (v < 0)) v.natAbs w

/-- The exact sum of any number of addends (R51, R62, R63): NaN if one is, NaN with NV when infinities of both signs meet, an infinity if
one is; an exact zero takes the addends' common sign when all are zeros of one sign, and otherwise − only in mode down. -/
def sumFp (mode : RMode) (xs : List Fp) : Exact :=
  if xs.any Fp.isNan then exact .nan
  else
    let infs := xs.filter Fp.isInf
    if infs.any Fp.neg && infs.any (fun x => !x.neg) then invalid
    else match infs with
      | i :: _ => exact i
      | [] =>
        let w := xs.foldl (fun m x => match x.weight with | some e => min m e | none => m) 0
        let v := xs.foldl (fun s x => s + x.at_ w) 0
        let zneg := if xs.all Fp.isZero && (xs.all Fp.neg || xs.all fun x => !x.neg) then xs.any Fp.neg else mode == .down
        exact (ofScaled v w zneg)

/-- The exact product (R50, R51). -/
def mulFp (a b : Fp) : Exact :=
  match a, b with
  | .nan, _ => exact .nan
  | _, .nan => exact .nan
  | .inf _, .zero _ => invalid
  | .zero _, .inf _ => invalid
  | .inf m, y => exact (.inf (m != y.neg))
  | x, .inf n => exact (.inf (x.neg != n))
  | .zero m, y => exact (.zero (m != y.neg))
  | x, .zero n => exact (.zero (x.neg != n))
  | .fin m i x, .fin n j y => exact (.fin (m != n) (i * j) (x + y))

/-- The exact sum of an addend and exact products outside the fused multiply-add and MMA (R50): a NaN input gives NaN with no flag; otherwise a product
0 × ∞ is invalid. -/
def sumProducts (mode : RMode) (cs : List Fp) (ps : List Exact) : Exact :=
  if cs.any Fp.isNan || ps.any fun p => p.x.isNan && p.flags == 0 then exact .nan
  else if ps.any fun p => p.flags != 0 then invalid
  else sumFp mode (cs ++ ps.map (·.x))

/-- a · b + c, fused (R47, R50): 0 × ∞ is invalid even when the addend is NaN. -/
def fmaFp (mode : RMode) (a b c : Fp) : Exact :=
  let p := mulFp a b
  if p.flags ≠ 0 then invalid else sumFp mode [p.x, c]

/-- The exact quotient (R50): `k` bits more than the operands' difference, and whether the division ends. -/
def divFp (a b : Fp) : Exact :=
  match a, b with
  | .nan, _ => exact .nan
  | _, .nan => exact .nan
  | .zero _, .zero _ => invalid
  | .inf _, .inf _ => invalid
  | .inf m, y => exact (.inf (m != y.neg))
  | x, .inf n => exact (.zero (x.neg != n))
  | .zero m, y => exact (.zero (m != y.neg))
  | .fin m _ _, .zero n => ⟨.inf (m != n), false, fDZ⟩
  | .fin m i x, .fin n j y =>
    let k := bitLen j + 60
    ⟨.fin (m != n) (i * 2 ^ k / j) (x - y - k), i * 2 ^ k % j != 0, 0⟩

/-- Integer square root by bits, from the bit `k` down. -/
def isqrt : Nat → Nat → Nat → Nat
  | 0, _, r => r
  | k + 1, n, r => isqrt k n (if (r + 2 ^ k) * (r + 2 ^ k) ≤ n then r + 2 ^ k else r)

/-- The square root (R50). -/
def sqrtFp (a : Fp) : Exact :=
  match a with
  | .nan => exact .nan
  | .zero n => exact (.zero n)
  | .inf n => if n then invalid else exact (.inf false)
  | .fin n m x =>
    if n then invalid
    else
      let sh := 130 + ((x - 130) % 2).toNat
      let v := m * 2 ^ sh
      let r := isqrt (bitLen v / 2 + 1) v 0
      ⟨.fin false r ((x - sh) / 2), r * r != v, 0⟩

/-- The reciprocal square root (R50): of a zero, an infinity of its sign with DZ (R200). -/
def rsqrtFp (a : Fp) : Exact :=
  match a with
  | .nan => exact .nan
  | .zero n => ⟨.inf n, false, fDZ⟩
  | .inf n => if n then invalid else exact (.zero false)
  | .fin n m x =>
    if n then invalid
    else
      -- 1 / sqrt(m · 2^x) = sqrt(2^(−x) / m)
      let k := 2 * bitLen m + 260
      let k := k + ((x + k) % 2).toNat
      let v := 2 ^ k / m
      let r := isqrt (bitLen v / 2 + 1) v 0
      ⟨.fin false r ((-x - k) / 2), r * r * m != 2 ^ k, 0⟩

/-- How two values compare; none when one is NaN. Zeros of both signs are equal. -/
def cmpFp (a b : Fp) : Option Ordering :=
  match a, b with
  | .nan, _ => none
  | _, .nan => none
  | .inf m, .inf n => some (if m = n then .eq else if m then .lt else .gt)
  | .inf m, _ => some (if m then .lt else .gt)
  | _, .inf n => some (if n then .gt else .lt)
  | x, y =>
    let w := min (x.weight.getD 0) (y.weight.getD 0)
    some (compare (x.at_ w) (y.at_ w))

/-- An exact value as an integer rounded by the mode, and whether it differs (R47, R52); 0 for what is not finite. -/
def roundInt (mode : RMode) (a : Fp) : Int × Bool :=
  match a with
  | .fin neg m x =>
    if 0 ≤ x then ((if neg then -1 else 1) * ((m * 2 ^ x.toNat : Nat) : Int), false)
    else
      let sh := (-x).toNat
      let q := m / 2 ^ sh
      let r := m % 2 ^ sh
      let q := if roundUp mode neg q r (2 ^ sh) false then q + 1 else q
      ((if neg then -1 else 1) * (q : Int), r != 0)
  | _ => (0, false)

/-- A conversion to an integer type of `n` bits (R52): NaN and values out of range set NV alone. -/
def fpToInt (n : Nat) (signed : Bool) (mode : RMode) (a : Fp) : Int × BitVec 6 :=
  match a with
  | .nan => (0, fNV)
  | .inf neg => (if neg then intMin n signed else intMax n signed, fNV)
  | _ =>
    let r := roundInt mode a
    if r.1 < intMin n signed then (intMin n signed, fNV)
    else if intMax n signed < r.1 then (intMax n signed, fNV)
    else (r.1, if r.2 then fNX else 0)

/-- An integer as an exact value. -/
def intFp (v : Int) : Fp := ofScaled v 0 false

end Sys2Proof.Machine
end

