-- ==== Sys2Proof/Machine/Efp8.lean ====
section
/-! DEFINITION. The block formats 0x07 to 0x09 (R53 to R60): block-scaled FP8, and EFP8 with its directory, headers, mantissa planes and token
streams. -/

namespace Sys2Proof.Machine

/-- Bytes read while an address phase decodes a block: the accesses made, for their labels and races. -/
abbrev Reads := List Acc

/-- `n` bytes at byte offset `o` from an entry's base, with their accesses. -/
def readAt (s : State) (c : Nat) (ref : Word) (w : Want) (e : HEntry) (o n : Nat) : Except Stop (List Byte × Reads) := do
  let accs ← locate s c ref o n w e
  .ok ((readAccs s c accs).1, accs)

/-! ### Block-scaled FP8 (R53, R54) -/

/-- Element `i` of a block-scaled object (R54): where its scale and its byte lie. -/
def blockAt (b i : Nat) : Nat × Nat := (i / 2 ^ b * (2 ^ b + 8), i / 2 ^ b * (2 ^ b + 8) + 8 + i % 2 ^ b)

/-- Ascending numbers as runs of consecutive ones: the first of each, and its length. -/
def runs : List Nat → List (Nat × Nat)
  | [] => []
  | j :: t => match runs t with
    | (k, n) :: r => if j + 1 = k then (j, n + 1) :: r else (j, 1) :: (k, n) :: r
    | [] => [(j, 1)]

/-- The bytes at ascending offsets from `o`, in order, with the accesses. -/
def readRuns (s : State) (c : Nat) (ref : Word) (w : Want) (e : HEntry) (o : Nat) (js : List Nat) : Except Stop (List Byte × Reads) := do
  let ps ← (runs js).mapM fun r => readAt s c ref w e (o + r.1) r.2
  .ok (ps.flatMap (·.1), ps.flatMap (·.2))

/-- The value of a scaled element (R54): a scale of 0xFF is NaN. -/
def scaledElem (t : Fmt) (scale elem : Byte) : Fp :=
  if scale = 0xFF then .nan else (decodeFp t elem.toNat).scale ((scale.toNat : Int) - 127)

/-- Elements `js` of block `k` of a block-scaled object. -/
def readScaled (s : State) (c : Nat) (ref : Word) (w : Want) (e : HEntry) (t : Fmt) (k : Nat) (js : List Nat) : Except Stop (List Fp × Reads) := do
  let p := blockAt (refLbl ref) (k * 2 ^ refLbl ref)
  let (sc, r1) ← readAt s c ref w e p.1 1
  let (bs, r2) ← readRuns s c ref w e p.2 js
  .ok (bs.map fun b => scaledElem t (sc.headD 0) b, r1 ++ r2)

/-! ### EFP8 (R55 to R60) -/

/-- A token of the exponent plane (R59). -/
inductive Token where
  | delta (k : Nat)
  | zero
  | esc
deriving DecidableEq, Repr

/-- The code tables (R59): length, code, token. -/
def codeTable (t : Nat) : List (Nat × Nat × Token) :=
  match t with
  | 0 => [(2, 0, .delta 0), (2, 1, .delta 1), (3, 4, .delta 2), (3, 5, .delta 3), (4, 12, .delta 4), (4, 13, .delta 5), (4, 14, .zero), (4, 15, .esc)]
  | 1 => [(1, 0, .delta 0), (2, 2, .delta 1), (4, 12, .delta 2), (4, 13, .delta 3), (4, 14, .zero), (5, 30, .delta 4), (6, 62, .delta 5), (6, 63, .esc)]
  | 2 => [(1, 0, .zero), (2, 2, .delta 0), (4, 12, .delta 1), (4, 13, .delta 2), (5, 28, .delta 3), (5, 29, .delta 4), (5, 30, .delta 5), (5, 31, .esc)]
  | _ => ((List.range 14).map fun k => (4, k, Token.delta k)) ++ [(4, 14, .zero), (4, 15, .esc)]

/-- The next token of a bit stream, read through `bit`; `len` and `code` are what has been read of it. -/
def nextToken (tbl : List (Nat × Nat × Token)) (bit : Nat → Except Stop Bool) : Nat → Nat → Nat → Nat → Except Stop (Token × Nat)
  | 0, pos, _, _ => .ok (.zero, pos)
  | k + 1, pos, len, code => do
    let b ← bit pos
    let code := 2 * code + (if b then 1 else 0)
    match tbl.find? fun e => e.1 == len + 1 && e.2.1 == code with
    | some e => .ok (e.2.2, pos + 1)
    | none => nextToken tbl bit k (pos + 1) (len + 1) code

/-- Bits `pos` to `pos + n − 1` of the stream, the first most significant. -/
def rawBits (bit : Nat → Except Stop Bool) : Nat → Nat → Nat → Except Stop Nat
  | 0, _, v => .ok v
  | n + 1, pos, v => do
    let b ← bit pos
    rawBits bit n (pos + 1) (2 * v + (if b then 1 else 0))

/-- The exponent of a token (R60), and the place after it in the stream: 0 for ZERO; a raw 6-bit exponent after ESC; a delta below the base. -/
def tokenExp (ref : Word) (base : Nat) (bit : Nat → Except Stop Bool) (t : Token) (pos : Nat) : Except Stop (Nat × Nat) :=
  match t with
  | .zero => .ok (0, pos)
  | .esc => do
    let v ← rawBits bit 6 pos 0
    if v = 0 then raise 0x1A ref else .ok (v, pos + 6)
  | .delta k => if base < k + 1 then raise 0x1A ref else .ok (base - k, pos)

/-- The exponents of `n` elements from the stream, and where it then stands. DESIGN CHOICE (log 75): a token that R60 refuses raises the format fault
also where its element is only passed over, on the way to one that is asked for. -/
def tokens (ref : Word) (tbl : List (Nat × Nat × Token)) (base : Nat) (bit : Nat → Except Stop Bool) :
    Nat → Nat → Except Stop (List Nat × Nat)
  | 0, pos => .ok ([], pos)
  | n + 1, pos => do
    let (t, p) ← nextToken tbl bit 8 pos 0 0
    let (e, p) ← tokenExp ref base bit t p
    let (es, p) ← tokens ref tbl base bit n p
    .ok (e :: es, p)

/-- The internal 10-bit form (R60). -/
def efp8Form (e nibble : Nat) : Nat := nibble / 8 % 2 * 512 + e * 8 + nibble % 8
/-- The value of the internal form (R60). -/
def efp8Value (x : Nat) : Fp :=
  if x / 8 % 64 = 0 then .zero (x / 512 % 2 == 1) else .fin (x / 512 % 2 == 1) (8 + x % 8) ((x / 8 % 64 : Nat) - 31 - 3 : Int)

/-- Bytes of the longest block of 2^b elements (R56, R59): header, nibbles, tokens of at most 12 bits, and padding. -/
def longestBlock (b : Nat) : Nat := (2 + 2 ^ (b - 1) + 12 * 2 ^ b / 8 + 7) / 8 * 8
/-- Where the region that a stream may not leave ends (R58). DESIGN CHOICE (log 14): R54 has the bound count elements and the spec gives the region's
bytes nowhere; it is taken to be what the directory and the longest blocks of that many elements fill. -/
def efp8End (e : HEntry) (b : Nat) : Nat :=
  let blocks := (e.bound + 2 ^ b - 1) / 2 ^ b
  e.bdir + (4 * blocks + 7) / 8 * 8 + blocks * longestBlock b

/-- What an address phase has of a block's elements: the elements, or the format fault that decoding them raises. Decoding follows the address phase (R165, R215
step 3), so that fault is raised after the phase's own. -/
abbrev Decoded := Except Stop (List Fp)

/-- A format fault of decoding, kept for later; every other fault stops the address phase. -/
def formatLater (accs : Reads) (r : Except Stop (List Fp × Reads)) : Except Stop (Decoded × Reads) :=
  match r with
  | .ok (xs, rs) => .ok (.ok xs, rs)
  | .error (.trap t) => if t.code = 0x1A then .ok (.error (.trap t), accs) else .error (.trap t)
  | .error e => .error e

/-- The elements of a block that is not all zero, from its header on. -/
def readPlanes (s : State) (c : Nat) (ref : Word) (w : Want) (e : HEntry) (blk h : Nat) (js : List Nat) : Except Stop (List Fp × Reads) := do
  let b := refLbl ref
  let nib := (js.map (· / 2)).eraseDups
  let (ms, r2) ← readRuns s c ref w e (blk + 2) nib
  let plane := blk + 2 + 2 ^ (b - 1)
  let bit (p : Nat) : Except Stop Bool :=
    if efp8End e b ≤ plane + p / 8 then raise 0x14 ref
    else do
      let (x, _) ← readAt s c ref w e (plane + p / 8) 1
      .ok ((x.headD 0).getLsbD (p % 8))
  let (es, last) ← tokens ref (codeTable (h / 64 % 4)) (h % 64) bit ((js.getLast?.map (· + 1)).getD 0) 0
  let (_, r3) ← readAt s c ref w e plane ((last + 7) / 8)
  .ok (js.map fun j => efp8Value (efp8Form (es.getD j 0) ((Tab.get (nib.zip ms) (j / 2) 0).toNat / 16 ^ (j % 2) % 16)), r2 ++ r3)

/-- Elements `js` of block `k` of an EFP8 object (R55 to R60). -/
def readEfp8 (s : State) (c : Nat) (ref : Word) (w : Want) (e : HEntry) (k : Nat) (js : List Nat) : Except Stop (Decoded × Reads) := do
  let (dw, r0) ← readAt s c ref w e (e.bdir + 4 * k) 4
  if leNat dw % 8 ≠ 0 then .ok (raise 0x1A ref, r0)
  else
    let blk := e.bdir + leNat dw
    let (hd, r1) ← readAt s c ref w e blk 2
    let h := leNat hd
    if h / 512 ≠ 0 ∨ (h % 64 = 0 ∧ h / 256 % 2 = 0) then .ok (raise 0x1A ref, r0 ++ r1)
    else if h / 256 % 2 = 1 then .ok (.ok (js.map fun _ => .zero false), r0 ++ r1)
    else do
      let (xs, rs) ← formatLater [] (readPlanes s c ref w e blk h js)
      .ok (xs, r0 ++ r1 ++ rs)

/-- The elements of ascending numbers `is` of an object of format 0x07 to 0x09, block by block. -/
def readBlock (s : State) (c : Nat) (ref : Word) (w : Want) (e : HEntry) (is : List Nat) : Except Stop (Decoded × Reads) := do
  let len := 2 ^ refLbl ref
  let ps : List (Decoded × Reads) ← ((is.map (· / len)).eraseDups).mapM fun k => do
    let js := (is.filter fun i => i / len == k).map (· % len)
    if refFmt ref = 0x09 then readEfp8 s c ref w e k js
    else
      let (xs, rs) ← readScaled s c ref w e (if refFmt ref = 0x07 then fmtE4M3 else fmtE5M2) k js
      return (Except.ok xs, rs)
  .ok ((ps.mapM fun (p : Decoded × Reads) => p.1).map fun l => l.flatMap id, ps.flatMap fun (p : Decoded × Reads) => p.2)

end Sys2Proof.Machine
end

