-- ==== Sys2Proof/Machine/Memory.lean ====
section
/-! DEFINITION. Chapter 6, first part: scalar and vector loads and stores, LDP, XLD and PREF (R151 to R169). -/

namespace Sys2Proof.Machine

/-- A block format is refused by every access but LDV and TLD (R153); `wantLoad` and `wantStore` refuse it in `readRef`. -/
def effOf (a : Arch) (r : BitVec 6) (disp : BitVec 5) (size : Nat) : Word := effRef (gv a r) disp size

/-- A checked load leaves, with what its address phase leaves in the caches and in the race record. -/
def launchLoad (s : State) (c : Nat) (d : RegId) (ref : Word) (accs : List Acc) (how : LoadHow) (labs : List Label) (acq : Option Scope) : State :=
  startLoad (raceNote (noteAccess s c ref accs) c accs false 0) c d accs how labs acq

/-- A scalar load into a g or x register (R159, R150): LDA when `acq` names a scope (R160). -/
def loadScalar (s : State) (c : Nat) (d : RegId) (a : BitVec 6) (wa : Bool) (disp : BitVec 5) (size : Nat) (signed : Bool) (hint : Hint)
    (acq : Option Scope) : Except Stop State := do
  let r := (s.ctx c).arch
  memGate s c
  destReady r d
  readSrcs r [srcG a wa 0]
  let ref := effOf r a disp size
  let ls := srcLabels r [srcG a wa 0]
  let accs ← loadPhase s c ref size size (wantLoad hint) ls
  let s := if acq.isSome then accs.foldl (fun s x => if x.addr < Config.spadBase then wcbDrainLine s c (x.addr / 64) else s) s else s
  .ok (launchLoad s c d ref accs (.scalar size signed) ls acq)

/-- The bytes of a value, all written. -/
def someBytes (n v : Nat) : List (Option Byte) := (List.range n).map fun i => some (BitVec.ofNat 8 (v / 256 ^ i))

/-- A scalar store (R159). -/
def storeScalar (s : State) (c : Nat) (d a : BitVec 6) (wa wd : Bool) (disp : BitVec 5) (size : Nat) (hint : Hint) : Except Stop State := do
  let r := (s.ctx c).arch
  memGate s c
  readSrcs r [srcG a wa 0, srcG d wd 2]
  let ref := effOf r a disp size
  let (accs, l) ← storePhase s c ref size size (wantStore hint) (srcLabels r [srcG a wa 0, srcG d wd 2])
  let s ← storeRoom s c accs
  .ok (noteStore (doStore (noteAccess s c ref accs) c accs (someBytes size (gv r d).toNat) l) c accs (srcLabels r [srcG a wa 0, srcG d wd 2]))

/-- A store that goes straight to its home after a release at its scope (R160): the line's buffer entry drains, the race shadow takes the scope,
and the store is on its way. -/
def syncStore (s : State) (c : Nat) (ref : Word) (accs : List Acc) (v : Word) (l : Label) (sc : Scope) : State :=
  let s := noteAccess s c ref accs
  let s := accs.foldl (fun s x => if x.addr < Config.spadBase then wcbDrainLine s c (x.addr / 64) else s) (settle s c accs)
  let s := raceNote s c accs true sc.code
  let bs := valueBytes 0 8 v.toNat
  { s with stores := s.stores ++ (go (s.ctx c).seq accs (bs.map (·.2))) }
where
  /-- One store for each part. -/
  go (point : Nat) : List Acc → List Byte → List HomeStore
  | [], _ => []
  | a :: t, bs => ⟨c, .sync, a, (List.range a.size).map fun i => (a.addr + i, bs.getD i 0), labelWord a.lab l, BitVec.ofNat 3 sc.code, point⟩ :: go point t (bs.drop a.size)

/-- STR (R160). -/
def storeRelease (s : State) (c : Nat) (d a : BitVec 6) (wa wd : Bool) (sc : Scope) (hint : Hint) (disp : BitVec 5) : Except Stop State := do
  let r := (s.ctx c).arch
  memGate s c
  readSrcs r [srcG a wa 0, srcG d wd 2]
  let ref := effOf r a disp 8
  let (accs, l) ← storePhase s c ref 8 8 (wantStore hint) (srcLabels r [srcG a wa 0, srcG d wd 2])
  let s ← release s c sc.code
  .ok (noteStore (syncStore s c ref accs (gv r d) l sc) c accs (srcLabels r [srcG a wa 0, srcG d wd 2]))

/-- LDP (R161): the window offset is register a plus disp; the checks of the window, then alignment. -/
def loadParam (s : State) (c : Nat) (d a : BitVec 6) (wa : Bool) (size : Nat) (signed : Bool) (disp : BitVec 5) : Except Stop State := do
  let r := (s.ctx c).arch
  memGate s c
  destReady r (gd d)
  readSrcs r [srcG a wa 0]
  let o := gv r a + wInt (disp.toInt * size)
  if !bit r.param 63 then raise 0x0E o
  else if fld r.param 0 12 < o.toNat + size - 1 then raise 0x0D o
  else if o.toNat % size ≠ 0 then raise 0x16 o
  else do
    let accs ← paramWindow s c o.toNat size o
    .ok (startLoad (accs.foldl (fun s a => noteVa s c a.va.toNat) s) c (gd d) accs (.scalar size signed) (srcLabels r [srcG a wa 0]) none)

/-! ### Vectors -/

/-- The lanes that a mask enables (R163). -/
def enabledLanes (n : Nat) (mask : Word) : List Nat := (List.range n).filter fun i => mask.getLsbD i
/-- Whether byte `b` of a register lies in an enabled lane of size `e`. -/
def laneByte (e : Nat) (mask : Word) (b : Nat) : Bool := mask.getLsbD (b / e)

/-- The label mix fault (R155, R20 rule 4): more than four distinct word labels. DESIGN CHOICE (log 98): labels are told apart by their handles, although two
handles may come to name equal contents after a nogood. -/
def mixCheck (ref : Word) (ws : List Label) : Except Stop Unit := if 4 < ws.length then raise 0x07 ref else .ok ()
/-- Accesses whose words' labels have been read in the address phase. -/
def labelsRead (accs : List Acc) : List Acc := accs.map fun a => { a with lab := none }

/-- An access with the place of its first byte in the register. -/
abbrev Placed := Nat × Acc

/-- Accesses that follow one another in the register from byte `o`. -/
def placeFrom : Nat → List Acc → List Placed
  | _, [] => []
  | o, a :: t => (o, a) :: placeFrom (o + a.size) t

/-- Steps 1 to 3 of the address phase of LDV and STV (R164): 64 bytes, or the enabled lanes of them, each lane on its own. DESIGN CHOICE (log 97): R152 and R164 do
not say which of two lanes' faults is met first; under a mask a lower lane passes steps 2 and 3 before a higher one is translated. -/
def vecAccess (s : State) (c : Nat) (ref : Word) (w : Want) (masked : Bool) (mask : Word) : Except Stop (List Placed) := do
  let e := elemSize (refFmt ref)
  if masked then
    let h ← readRefParts s c ref ((enabledLanes (64 / e) mask).map fun i => (i * e, e)) 64 w
    let ps ← (enabledLanes (64 / e) mask).mapM fun i => do
      let accs ← locate s c ref (refOff ref + i * e) e w h
      .ok (placeFrom (i * e) accs)
    .ok (ps.flatMap id)
  else do
    let h ← readRef s c ref 64 64 w
    let accs ← locate s c ref (refOff ref) 64 w h
    .ok (placeFrom 0 accs)

/-- The places of loaded bytes in the register. -/
def lanePlaces (ps : List Placed) : List (Nat × Nat) := ps.map fun p => (p.1, p.2.size)

/-- Stores to bytes of one aligned word leave together (R156): each access with the register bytes it stores, none for a byte between two lanes. -/
def wordStores : List Placed → List (Acc × List (Option Nat))
  | [] => []
  | (o, a) :: t =>
    let own := (List.range a.size).map fun i => some (o + i)
    match wordStores t with
    | (b, bs) :: r =>
      if a.addr / 8 = b.addr / 8 ∧ a.addr + a.size ≤ b.addr then
        ({ a with size := b.addr + b.size - a.addr }, own ++ List.replicate (b.addr - (a.addr + a.size)) none ++ bs) :: r
      else (a, own) :: (b, bs) :: r
    | [] => [(a, own)]

/-- The sources of LDV: the reference, and under a mask q0 and the old vd. -/
def ldvSrcs (d a : BitVec 6) (wa masked : Bool) : List Src :=
  srcG a wa 0 :: if masked then [srcF .v d.toNat 2, srcF .q 0 3] else []

/-- LDV through a block format (R165): 16 elements, rounded to FP32 lanes under STATUS.RM. The bound check covers all 16, and only enabled elements are read;
with none, the handle, format and alignment checks are made alone (R164). -/
def loadBlocks (s : State) (c : Nat) (d : BitVec 6) (ref : Word) (w : Want) (masked : Bool) (mask : Word) (ls : List Label) : Except Stop State := do
  let lanes := if masked then enabledLanes 16 mask else List.range 16
  let h ← if lanes.isEmpty then readRefParts s c ref [] 16 w else readRef s c ref 16 16 w
  if lanes.isEmpty then .ok (launchLoad s c ⟨.v, d.toNat⟩ ref [] (.lanes []) ls none)
  else do
    let (es, accs) ← readBlock s c ref w h (lanes.map (refOff ref + ·))
    pageSpaceCheck accs ls
    let ws := accLabels s c accs
    mixCheck ref ws
    raceCheck s c ref accs
    let xs ← es
    let rs := (lanes.zip xs).map fun p => (p.1, roundTo fmt32 (s.ctx c).arch.rm (exact p.2))
    let fl := rs.foldl (fun f r => f ||| r.2.2) 0
    let s ← if (accsBad s c accs).isSome then .ok s else setFlags s c fl
    .ok (launchLoad s c ⟨.v, d.toNat⟩ ref (labelsRead accs) (.fp32 (rs.map fun r => (r.1, BitVec.ofNat 32 r.2.1))) (ls ++ ws) none)

/-- LDV (R164, R165). -/
def loadVec (s : State) (c : Nat) (d a : BitVec 6) (wa masked : Bool) (hint : Hint) (disp : BitVec 5) : Except Stop State := do
  let r := (s.ctx c).arch
  memGate s c
  destReady r ⟨.v, d.toNat⟩
  readSrcs r (ldvSrcs d a wa masked)
  let ls := srcLabels r (ldvSrcs d a wa masked)
  let mask := (r.qr 0).val
  let w : Want := ⟨false, true, false, true, hint.code⟩
  let fmt := refFmt (gv r a)
  if blockFmt fmt then loadBlocks s c d (effOf r a disp 64) w masked mask ls
  else do
    let ref := effOf r a disp 64
    let ps ← vecAccess s c ref w masked mask
    let accs := ps.map (·.2)
    pageSpaceCheck accs ls
    let labs := accLabels s c accs
    mixCheck ref labs
    raceCheck s c ref accs
    .ok (launchLoad s c ⟨.v, d.toNat⟩ ref (labelsRead accs) (.lanes (lanePlaces ps)) (ls ++ labs) none)

/-- STV (R164): no byte of a disabled lane is written; the label written is the product of vd's and the reference's. -/
def storeVec (s : State) (c : Nat) (d a : BitVec 6) (wa wd masked : Bool) (hint : Hint) (disp : BitVec 5) : Except Stop State := do
  let r := (s.ctx c).arch
  memGate s c
  readSrcs r ([srcG a wa 0, srcF .v d.toNat 2 wd] ++ if masked then [srcF .q 0 3] else [])
  let mask := (r.qr 0).val
  let ref := effOf r a disp 64
  let ps ← vecAccess s c ref (wantStore hint) masked mask
  let l ← storeLabel s c ref (ps.map (·.2)) (srcLabels r [srcG a wa 0, srcF .v d.toNat 2 wd])
  raceCheck s c ref (ps.map (·.2))
  let bs := vecBytes (r.vr d.toNat).val
  let ws := wordStores ps
  let s ← storeRoom s c (ws.map (·.1))
  .ok (noteStore (doStore (noteAccess s c ref (ws.map (·.1))) c (ws.map (·.1)) (ws.flatMap fun p => p.2.map fun o => o.bind fun i => bs[i]?) l)
    c (ws.map (·.1)) (srcLabels r [srcG a wa 0, srcF .v d.toNat 2 wd]))

/-- A load of lanes at references of their own, in ascending order (R166, R167): each lane is checked as an access of its size. -/
def loadLanes (s : State) (c : Nat) (d : BitVec 6) (refs : List (Nat × Word)) (e : Nat) (w : Want) (ls : List Label) : Except Stop State := do
  let parts ← refs.mapM fun p => do
    let accs ← loadPhase s c p.2 e e w ls
    .ok (p.1, accs)
  let accs := parts.flatMap (·.2)
  let labs := accLabels s c accs
  let ref := (refs.head?.map (·.2)).getD 0
  mixCheck ref labs
  let s := (refs.zip parts).foldl (fun s p => noteAccess s c p.1.2 p.2.2) s
  .ok (startLoad (raceNote s c accs false 0) c ⟨.v, d.toNat⟩ (labelsRead accs) (.lanes (parts.map fun p => (p.1 * e, e))) (ls ++ labs) none)

/-- The sources of VLDS: the reference, the old vd, q0 and xn. -/
def vldsSrcs (d a : BitVec 6) (wa : Bool) (xn : BitVec 3) : List Src :=
  [srcG a wa 0, srcF .v d.toNat 2, srcF .x xn.toNat 3, srcF .q 0 4]

/-- VLDS (R166): lane i at the effective reference plus i·xn bytes. -/
def loadStride (s : State) (c : Nat) (d a : BitVec 6) (wa : Bool) (xn : BitVec 3) (hint : Hint) (disp : BitVec 5) : Except Stop State := do
  let r := (s.ctx c).arch
  memGate s c
  destReady r ⟨.v, d.toNat⟩
  readSrcs r (vldsSrcs d a wa xn)
  let e := elemSize (refFmt (gv r a))
  let ref := effOf r a disp e
  let st := (r.xr xn.toNat).val.toInt
  let refs := (enabledLanes (64 / e) (r.qr 0).val).map fun (i : Nat) => (i, refAdd ref ((i : Int) * st))
  loadLanes s c d refs e (wantLoad hint) (srcLabels r (vldsSrcs d a wa xn))

/-- Lane `i` of an index vector, as i32 or i64 (R167). -/
def laneIndex (v : BitVec 512) (wide : Bool) (i : Nat) : Int :=
  if wide then (v.extractLsb' (64 * i) 64).toInt else (v.extractLsb' (32 * i) 32).toInt
/-- The references of the enabled lanes of VGATH and VSCAT (R167). -/
def gatherRefs (ref : Word) (v : BitVec 512) (wide : Bool) (mask : Word) (e : Nat) : List (Nat × Word) :=
  (enabledLanes (64 / max e (if wide then 8 else 4)) mask).map fun i => (i, refAdd ref (laneIndex v wide i * e))
/-- The sources of VGATH and VSCAT: a, vb, vd, and the named q register. -/
def gatherSrcs (d a b : BitVec 6) (wa wb : Bool) (qn : BitVec 3) : List Src :=
  [srcG a wa 0, srcF .v b.toNat 1 wb, srcF .v d.toNat 2, srcF .q qn.toNat 3]

/-- VGATH (R167). -/
def loadGather (s : State) (c : Nat) (d a b : BitVec 6) (wa wb : Bool) (qn : BitVec 3) (wide : Bool) : Except Stop State := do
  let r := (s.ctx c).arch
  memGate s c
  destReady r ⟨.v, d.toNat⟩
  readSrcs r (gatherSrcs d a b wa wb qn)
  let ref := gv r a
  let e := elemSize (refFmt ref)
  loadLanes s c d (gatherRefs ref (r.vr b.toNat).val wide (r.qr qn.toNat).val e) e (wantLoad .dflt) (srcLabels r (gatherSrcs d a b wa wb qn))

/-- VSCAT (R168): every enabled lane passes its address phase before any is written; then they are written in ascending order. -/
def storeScatter (s : State) (c : Nat) (d a b : BitVec 6) (wa wb : Bool) (qn : BitVec 3) (wide : Bool) : Except Stop State := do
  let r := (s.ctx c).arch
  memGate s c
  readSrcs r (gatherSrcs d a b wa wb qn)
  let ref := gv r a
  let e := elemSize (refFmt ref)
  let refs := gatherRefs ref (r.vr b.toNat).val wide (r.qr qn.toNat).val e
  let ls := srcLabels r [srcG a wa 0, srcF .v b.toNat 1 wb, srcF .v d.toNat 2]
  let parts ← refs.mapM fun p => do
    let (accs, l) ← storePhase s c p.2 e e (wantStore .dflt) ls
    .ok (p.1, accs, l)
  let s ← storeRoom s c (parts.flatMap (·.2.1))
  let bs := vecBytes (r.vr d.toNat).val
  let s := (refs.zip parts).foldl (fun s p => noteAccess s c p.1.2 p.2.2.1) s
  .ok (noteStore (parts.foldl (fun s p => doStore s c p.2.1 ((bs.drop (p.1 * e)).take e |>.map some) p.2.2) s) c (parts.flatMap (·.2.1)) ls)

/-- PREF (R169): the address phase runs silently; a check that would fault cancels the prefetch, and so does a peer cell without power, whose scratchpad no
prefetch brings anywhere (R384). -/
def prefetchLine (s : State) (c : Nat) (a : BitVec 6) (wa l2only : Bool) (hint : Hint) (disp : BitVec 5) : Except Stop State := do
  let r := (s.ctx c).arch
  memGate s c
  readSrcs r [srcG a wa 0]
  let ref := effOf r a disp 64
  match loadPhase s c ref 1 1 ⟨false, false, false, false, hint.code⟩ (srcLabels r [srcG a wa 0]) with
    | .error (.wait (.dark _)) => .ok s
    | .error (.wait w) => .error (.wait w)
    | .error _ => .ok s
    | .ok accs => .ok (accs.foldl (fun s x =>
        if Config.spadBase ≤ x.addr ∨ x.cache = 2 then s
        else if l2only || x.cache == 1 then touchAcc s x false r.partition
        else l1Fetch s (cellOf c) x) (noteAccess s c ref accs))

/-! ### Meanings -/

/-- LD (R159). -/
def execLd (d a : BitVec 6) (wa : Bool) (sz : MemSize) (hint : Hint) (disp : BitVec 5) (s : State) : Host.Outcome State Fault Refusal :=
  issueSeq (.ld d a wa sz hint disp) s fun s c => loadScalar s c (gd d) a wa disp sz.bytes sz.signed hint none

/-- ST (R159). -/
def execSt (d a : BitVec 6) (wa wd : Bool) (sz : StSize) (hint : Hint) (disp : BitVec 5) (s : State) : Host.Outcome State Fault Refusal :=
  issueSeq (.st d a wa wd sz hint disp) s fun s c => storeScalar s c d a wa wd disp sz.bytes hint

/-- LDA (R160). -/
def execLda (d a : BitVec 6) (wa : Bool) (sc : Scope) (hint : Hint) (disp : BitVec 5) (s : State) : Host.Outcome State Fault Refusal :=
  issueSeq (.lda d a wa sc hint disp) s fun s c => loadScalar s c (gd d) a wa disp 8 false hint (some sc)

/-- STR (R160). -/
def execStr (d a : BitVec 6) (wa wd : Bool) (sc : Scope) (hint : Hint) (disp : BitVec 5) (s : State) : Host.Outcome State Fault Refusal :=
  issueSeq (.str d a wa wd sc hint disp) s fun s c => storeRelease s c d a wa wd sc hint disp

/-- LDP (R161). -/
def execLdp (d a : BitVec 6) (wa : Bool) (sz : MemSize) (disp : BitVec 5) (s : State) : Host.Outcome State Fault Refusal :=
  issueSeq (.ldp d a wa sz disp) s fun s c => loadParam s c d a wa sz.bytes sz.signed disp

/-- XLD (R150). -/
def execXld (d a : BitVec 6) (wa : Bool) (hint : Hint) (disp : BitVec 5) (s : State) : Host.Outcome State Fault Refusal :=
  issueSeq (.xld d a wa hint disp) s fun s c => loadScalar s c ⟨.x, d.toNat⟩ a wa disp 8 false hint none

/-- LDV (R164, R165). -/
def execLdv (d a : BitVec 6) (wa masked : Bool) (hint : Hint) (disp : BitVec 5) (s : State) : Host.Outcome State Fault Refusal :=
  issueSeq (.ldv d a wa masked hint disp) s fun s c => loadVec s c d a wa masked hint disp

/-- STV (R164). -/
def execStv (d a : BitVec 6) (wa wd masked : Bool) (hint : Hint) (disp : BitVec 5) (s : State) : Host.Outcome State Fault Refusal :=
  issueSeq (.stv d a wa wd masked hint disp) s fun s c => storeVec s c d a wa wd masked hint disp

/-- VLDS (R166). -/
def execVlds (d a : BitVec 6) (wa : Bool) (xn : BitVec 3) (hint : Hint) (disp : BitVec 5) (s : State) : Host.Outcome State Fault Refusal :=
  issueSeq (.vlds d a wa xn hint disp) s fun s c => loadStride s c d a wa xn hint disp

/-- VGATH (R167). -/
def execVgath (d a b : BitVec 6) (wa wb : Bool) (qn : BitVec 3) (idx : Bool) (s : State) : Host.Outcome State Fault Refusal :=
  issueSeq (.vgath d a b wa wb qn idx) s fun s c => loadGather s c d a b wa wb qn idx

/-- VSCAT (R168). -/
def execVscat (d a b : BitVec 6) (wa wb : Bool) (qn : BitVec 3) (idx : Bool) (s : State) : Host.Outcome State Fault Refusal :=
  issueSeq (.vscat d a b wa wb qn idx) s fun s c => storeScatter s c d a b wa wb qn idx

/-- PREF (R169). -/
def execPref (a : BitVec 6) (wa l2only : Bool) (hint : Hint) (disp : BitVec 5) (s : State) : Host.Outcome State Fault Refusal :=
  issueSeq (.pref a wa l2only hint disp) s fun s c => prefetchLine s c a wa l2only hint disp

end Sys2Proof.Machine
end

