-- ==== Sys2Proof/Machine/Persist.lean ====
section
/-! DEFINITION. Persistence points (R186, R377 to R379) and the requests that wait for one (R391). -/

namespace Sys2Proof.Machine

/-- A copy put into a list by its place in the launch order. -/
def insCopy (p : Option Nat × Copy) : List (Option Nat × Copy) → List (Option Nat × Copy)
  | [] => [p]
  | q :: t => if p.2.order < q.2.order then p :: q :: t else q :: insCopy p t

/-- The copies of a strand in flight in launch order: those that hold a slot, each with its slot, and the one that waits for it. -/
def copiesOf (s : State) (c : Nat) : List (Option Nat × Copy) :=
  let k := s.cell (cellOf c)
  (((k.copies.map fun (p : Nat × Copy) => (some p.1, p.2)) ++ k.cwait.map fun p => (none, p)).filter fun (p : Option Nat × Copy) =>
    p.2.c == c && p.2.plc == s.plc c && p.2.node.isNone).foldl (fun l p => insCopy p l) []

/-- The sectors of a copy that every barrier of it has been credited with: those counted, before a replay or since, without those still on their way. -/
def creditedOf (s : State) (n slot : Nat) (p : Copy) : Nat :=
  let mine := s.credits.filter fun r => r.slot == some (n, slot)
  let due (a : Nat) : Nat := ((mine.filter fun r => r.addr == a).map fun r => r.n).foldl (· + ·) 0
  max p.credited p.skip - ((mine.map fun r => due r.addr).foldl max 0)

/-- The copies of a strand in flight, as an image records them (R378), in launch order (R388), with the barrier's 16-byte-aligned bytes (log 37). DESIGN CHOICE (log 85): a copy that waits for a slot is recorded with
slot and generation 0. -/
def copyRecs (s : State) (c : Nat) : List CopyRec :=
  let n := cellOf c
  (copiesOf s c).map fun (p : Option Nat × Copy) =>
    let bar := p.2.snap.getD 5 0
    let a := spadAddr n (fld bar 0 20 / 16 * 16)
    let slot := p.1.getD 0
    ⟨p.2.snap, if p.1.isSome then fld p.2.tid 0 6 else 0, if p.1.isSome then p.2.tid.extractLsb' 6 2 else 0,
      if p.1.isSome then creditedOf s n slot p.2 else 0, p.2.mask, p.2.multi, if bit bar 20 then some (s.word a, s.word (a + 8)) else none⟩

/-- A persistence point whose resume address is the program counter (R186, R379): one image is written at a time; one made meanwhile is written
next, and the latest of several takes the place of the earlier ones. -/
def makePoint (s : State) (c : Nat) : State :=
  let x := s.ctx c
  let n := match x.writing with
    | some w => w.seq + 1
    | none => x.seq + 1
  let img : Image := ⟨n, x.arch.pc, s.tsc, x.strand.getD ⟨0, 0, 0, 0, 0, 0, 0, 0, 0, 0, false⟩, (s.cell (cellOf c)).mode, x.arch, copyRecs s c, x.dirtyLines, 0, true⟩
  let now := s.cycles (colOf (cellOf c))
  s.modCtx c fun x => match x.writing with
    | none => { x with writing := some img, seq := n, pointCycle := now }
    | some _ => { x with waiting := some img, seq := n, pointCycle := now }

/-- A committed instruction (R391): it holds issue until no register is empty; its request waits for a point that lies after it. -/
def commit (i : Instr) (s : State) (c : Nat) (r : Committed) : Except Stop State :=
  if (s.ctx c).arch.anyEmpty then waits
  else
    let t := makePoint (advance i s c) c
    .ok (t.modCtx c fun x => { x with committed := x.committed ++ [(x.seq, r)] })

/-- A scratchpad line, numbered over the device, is pending shadow (R381). -/
def linePending (s : State) (l : Nat) : Bool := (s.cell (l / 16384)).pendingShadow.contains (l % 16384)

/-- An address of this device's scratchpads. -/
def inSpad (a : Nat) : Bool := decide (Config.spadBase ≤ a) && decide (a < Config.spadFeBase)

/-- A write to scratchpad that contexts have issued is still on its way: a store, an SC's store, a barrier update, or an accumulator instruction. -/
def spadWriteDue (s : State) (mine : Nat → Bool) : Bool :=
  (s.stores.any fun st => mine st.c && inSpad st.acc.addr)
  || (s.passes.any fun x => mine x.c && x.store.isSome && inSpad x.addr)
  || (s.barReqs.any fun r => mine r.c && r.updates && inSpad r.addr)
  || s.ctxs.any fun p => mine p.1 && p.2.pend.any fun x => match x with
    | .accum _ => true
    | _ => false

/-- A write to scratchpad that a context issued before its point of a sequence number is still on its way (R186, R379). -/
def spadWriteBefore (s : State) (c seq : Nat) : Bool :=
  let before (p : Nat) : Bool := decide (p < seq)
  let acc (p : Pend) : Bool := match p with
    | .accum op => before op.point
    | _ => false
  (s.stores.any fun st => st.c == c && inSpad st.acc.addr && before st.point)
  || (s.passes.any fun x => x.c == c && x.store.isSome && inSpad x.addr && before x.point)
  || (s.barReqs.any fun r => r.c == c && r.updates && inSpad r.addr && before r.point) || (s.ctx c).pend.any acc

/-- Whether a line of the scratchpad that some context of a scope wrote is not yet durable (R187). -/
def linesPending (s : State) (c : Nat) (scope : PScope) : Bool :=
  let mine (d : Nat) : Bool := match scope with
    | .context => d == c
    | .cell => cellOf d == cellOf c
    | .column => colOf (cellOf d) == colOf (cellOf c)
  (s.ctxs.any fun p => mine p.1 && p.2.dirtyLines.any (linePending s)) || spadWriteDue s mine

end Sys2Proof.Machine
end

