-- ==== Sys2Proof/Machine/FullEmpty.lean ====
section
/-! DEFINITION. Chapter 6, second part: full/empty words, queued reservations, fences, persistence, and cache and fetch maintenance (R170 to
R193). -/

namespace Sys2Proof.Machine

/-- A full/empty or reservation access (R152: not through kinds 3 and 4). -/
def wantWord (write : Bool) (h : Hint) : Want := ⟨write, false, true, false, h.code⟩

/-- The word that a word access names: the aligned word of its first byte. -/
def wordAcc (accs : List Acc) : Acc :=
  match accs with
  | a :: _ => { a with addr := a.addr / 8 * 8, size := 8, lab := a.lab, va := a.va }
  | [] => spadAcc 0 Config.peerBase 8

/-- Requests of a context that are sent and not yet served, over all homes (R174). -/
def unserved (s : State) (c : Nat) : Nat :=
  let mine (l : List Req) : Nat := (l.filter fun r => r.c == c).length
  mine s.reqs + mine s.refused + mine s.kept + (s.homes.map fun p => mine p.2.readers + mine p.2.writers + mine p.2.queue).foldl (· + ·) 0

/-- A request to a word's home leaves, with the next arrival stamp. -/
def sendReq (s : State) (kind : ReqKind) (c : Nat) (a : Acc) (d : RegId) (sc : Scope) (data : Word) (refLab dataLab : Label) : State :=
  { s with
    reqs := s.reqs ++ [⟨kind, c, s.plc c, a.addr, a.ref, a.va, d, sc, data, refLab, dataLab, a.lab, s.stamp, (s.ctx c).arch.pc, none, a.cls, a.allocs⟩]
    stamp := s.stamp + 1 }

/-- The context notes that it waits for the request last sent (R174). -/
def noteWait (s : State) (c : Nat) (kind : WaitKind) (d : Option RegId) (old : Reg Unit) : State :=
  s.modCtx c fun x => { x with pend := x.pend ++ [.wait kind (s.stamp - 1) d old] }

/-- The address phase of a word access without a label of its own to write. -/
def wordPhase (s : State) (c : Nat) (ref : Word) (w : Want) (ls : List Label) : Except Stop Acc := do
  let accs ← loadPhase s c ref 8 8 w ls
  .ok (wordAcc accs)

/-- LDS, TAKE and LRW after their checks: d is empty, the request is on its way (R173, R179). -/
def launchWord (s : State) (c : Nat) (kind : ReqKind) (d : RegId) (ref : Word) (a : Acc) (sc : Scope) (lab : Label) : State :=
  let s := raceNote (prepWord (noteAccess s c ref [a]) c a) c [a] (kind == .take) sc.code
  let old := (s.ctx c).arch.rmeta d
  let s := s.modArch c fun x => markEmpty x d [lab]
  noteWait (sendReq s kind c a d sc 0 lab .top) c .home (some d) old

/-- LDS and TAKE (R173, R174). DESIGN CHOICE (log 77): R175 says which address phase FEQ and FESET make; the spec says it of no other. LDS, TAKE, LRW and SCREL
make theirs as reads here, and TAKE, which empties the word, counts as a write for the race shadow. -/
def readWord (s : State) (c : Nat) (kind : ReqKind) (d a : BitVec 6) (wa : Bool) (sc : Scope) (hint : Hint) (disp : BitVec 5) :
    Except Stop State := do
  let r := (s.ctx c).arch
  memGate s c
  if 16 ≤ unserved s c then waits
  destReady r (gd d)
  readSrcs r [srcG a wa 0]
  let ref := effOf r a disp 8
  let acc ← wordPhase s c ref (wantWord false hint) (srcLabels r [srcG a wa 0])
  .ok (launchWord s c kind (gd d) ref acc sc ((srcLabels r [srcG a wa 0]).headD .top))

/-- PUT up to its sending (R173): the label is checked and formed, the release is performed, and the request leaves. -/
def sendPut (s : State) (c : Nat) (kind : ReqKind) (d a : BitVec 6) (wa wd : Bool) (sc : Scope) (hint : Hint) (disp : BitVec 5) :
    Except Stop State := do
  let r := (s.ctx c).arch
  memGate s c
  if 16 ≤ unserved s c then waits
  readSrcs r [srcG a wa 0, srcG d wd 2]
  let ref := effOf r a disp 8
  let ls := srcLabels r [srcG a wa 0, srcG d wd 2]
  let (accs, l) ← storePhase s c ref 8 8 (wantWord true hint) ls
  let acc := wordAcc accs
  let s ← release s c sc.code
  let s := raceNote (prepWord (noteAccess s c ref accs) c acc) c [acc] true sc.code
  .ok (noteStore (sendReq s kind c acc ⟨.g, 0⟩ sc (gv r d) (ls.headD .top) l) c accs ls)

/-- An instruction that holds issue until a unit has answered: the first time `send` leaves the request; with the answer, `done` ends it. -/
def twoPhase (s : State) (c : Nat) (send : Except Stop State) (done : Word → Except Stop State) : Except Stop State :=
  match (s.ctx c).hold with
  | some ⟨_, some a⟩ => done a
  | some ⟨_, none⟩ => waits
  | none => do
    let t ← send
    .ok (t.modCtx c fun x => { x with hold := some ⟨x.arch.pc, none⟩ })

/-- An answer for an instruction that holds its context's issue (R247, R371). -/
def answerHold (s : State) (c : Nat) (plc : Word) (v : Word) : State :=
  onStrand s c plc fun s => s.modCtx c fun x => { x with hold := x.hold.map fun h => { h with ans := some v } }

/-- FEQ (R175): a read that fills d with the word's state. -/
def queryWord (s : State) (c : Nat) (d a : BitVec 6) (wa : Bool) (hint : Hint) (disp : BitVec 5) : Except Stop State := do
  let r := (s.ctx c).arch
  memGate s c
  destReady r (gd d)
  readSrcs r [srcG a wa 0]
  let ref := effOf r a disp 8
  let acc ← wordPhase s c ref (wantWord false hint) (srcLabels r [srcG a wa 0])
  let s := raceNote (prepWord (noteAccess s c ref [acc]) c acc) c [acc] false 0
  .ok (startLoad s c (gd d) [{ acc with lab := none }] .fe (srcLabels r [srcG a wa 0]) none)

/-- FESET (R175): the address phase of a write; the change is on its way to the home. -/
def setWordState (s : State) (c : Nat) (a : BitVec 6) (wa full : Bool) (hint : Hint) (disp : BitVec 5) : Except Stop State := do
  let r := (s.ctx c).arch
  memGate s c
  readSrcs r [srcG a wa 0]
  let ref := effOf r a disp 8
  let acc ← wordPhase s c ref (wantWord true hint) (srcLabels r [srcG a wa 0])
  let s := raceNote (prepWord (noteAccess s c ref [acc]) c acc) c [acc] true 0
  .ok { s with stores := s.stores ++ [⟨c, .feset full, acc, [], [], 0, (s.ctx c).seq⟩] }

/-- LRW (R179, R181). -/
def reserveWord (s : State) (c : Nat) (d a : BitVec 6) (wa : Bool) (sc : Scope) (hint : Hint) (disp : BitVec 5) : Except Stop State := do
  let r := (s.ctx c).arch
  memGate s c
  if 16 ≤ unserved s c then waits
  destReady r (gd d)
  readSrcs r [srcG a wa 0]
  let ref := effOf r a disp 8
  let acc ← wordPhase s c ref (wantWord false hint) (srcLabels r [srcG a wa 0])
  let held := (s.ctx c).resv
  if 4 ≤ held.length ∨ held.any (fun p => p.1 == acc.addr) then raise 0x0F ref 2
  else
    let s := s.modCtx c fun x => { x with resv := x.resv ++ [(acc.addr, false)] }
    .ok (launchWord s c .lrw (gd d) ref acc sc ((srcLabels r [srcG a wa 0]).headD .top))

/-- The context gives its reservation on a word up: the cell's record goes, and the pass is on its way to the home (R180). -/
def passWord (s : State) (c : Nat) (a : Acc) (store : Option (Word × Option (Nat × BitVec 32))) : State :=
  let s := s.modCtx c fun x => { x with resv := x.resv.filter fun p => p.1 != a.addr }
  { s with passes := s.passes ++ [⟨c, s.plc c, a.addr, a.va, store, a.cls, a.allocs, (s.ctx c).seq⟩] }

/-- SC (R180): the whole address phase, then the reservation. -/
def storeCond (s : State) (c : Nat) (d a : BitVec 6) (wa wd : Bool) (sc : Scope) (hint : Hint) (disp : BitVec 5) : Except Stop State := do
  let r := (s.ctx c).arch
  memGate s c
  readSrcs r [srcG a wa 0, srcG d wd 2]
  let ref := effOf r a disp 8
  let (accs, l) ← storePhase s c ref 8 8 (wantWord true hint) (srcLabels r [srcG a wa 0, srcG d wd 2])
  let acc := wordAcc accs
  if !(s.ctx c).resv.contains (acc.addr, true) then raise 0x0F ref 1
  else do
    let s ← release s c sc.code
    let s := raceNote (prepWord (noteAccess s c ref accs) c acc) c [acc] true sc.code
    .ok (noteStore (passWord s c acc (some (gv r d, (labelWord acc.lab l).head?))) c accs (srcLabels r [srcG a wa 0, srcG d wd 2]))

/-- SCREL (R180). -/
def dropReservation (s : State) (c : Nat) (a : BitVec 6) (wa : Bool) (sc : Scope) (hint : Hint) (disp : BitVec 5) : Except Stop State := do
  let r := (s.ctx c).arch
  memGate s c
  readSrcs r [srcG a wa 0]
  let ref := effOf r a disp 8
  let acc ← wordPhase s c ref (wantWord false hint) (srcLabels r [srcG a wa 0])
  if !(s.ctx c).resv.contains (acc.addr, true) then raise 0x0F ref 1
  else do
    let s ← release s c sc.code
    .ok (passWord (raceNote (prepWord (noteAccess s c ref [acc]) c acc) c [acc] false 0) c acc none)

/-- FENCE (R185): the buffer drains at every kind (R307); then the release, the acquire, or one after the other. -/
def fence (s : State) (c : Nat) (kind : FenceKind) (sc : Scope) : Except Stop State := do
  deferredFault s c
  if releaseHeld s c || cleanHeld s c sc.code then waits
  match kind with
    | .rel => .ok (releaseNow (wcbDrainAll s c) c sc.code)
    | .acq => .ok (acquire (wcbDrainAll (settleLoads (s.ctx c).pend.length s c) c) c sc.code)
    | .full => .ok (acquire (releaseNow (wcbDrainAll s c) c sc.code) c sc.code)

/-- PFENCE (R187). -/
def persistFence (s : State) (c : Nat) (sc : PScope) : Except Stop State := do
  deferredFault s c
  if (s.ctx c).writing.isSome || (s.ctx c).waiting.isSome || linesPending s c sc then waits else .ok s

/-! ### Maintenance (R190 to R193) -/

/-- The address phase of a line instruction: a read of one byte at the effective reference. -/
def linePhase (s : State) (c : Nat) (a : BitVec 6) (wa : Bool) (hint : Nat) (disp : BitVec 5) : Except Stop (Acc × State) := do
  let r := (s.ctx c).arch
  memGate s c
  readSrcs r [srcG a wa 0]
  let ref := effOf r a disp 64
  let accs ← loadPhase s c ref 1 1 ⟨false, false, false, false, hint⟩ (srcLabels r [srcG a wa 0])
  match accs with
    | x :: _ => .ok (x, raceNote (noteAccess s c ref accs) c accs false 0)
    | [] => waits

/-- The class stored with the line when it is written to L2 (R189). -/
def setLineClass (s : State) (n line : Nat) (cls : BitVec 2) : State :=
  s.modCell n fun k => { k with l1 := k.l1.map fun x => if x.line == line then { x with cls := cls } else x }

/-- The class of the line's entry in a context's buffer. -/
def setEntryClass (s : State) (c line : Nat) (cls : BitVec 2) : State :=
  s.modCtx c fun x => { x with wcb := x.wcb.map fun e => if e.line == line then { e with cls := cls } else e }

/-- DCLEAN, and DINVAL when `drop` (R190); scratchpad is only checked. -/
def cleanLine (s : State) (c : Nat) (a : BitVec 6) (wa : Bool) (hint : Hint) (disp : BitVec 5) (drop : Bool) : Except Stop State := do
  let (x, s) ← linePhase s c a wa hint.code disp
  if Config.spadBase ≤ x.addr then .ok s
  else
    let line := x.addr / 64
    let s := setLineClass (wcbDrainLine (setEntryClass s c line x.cls) c line) (cellOf c) line x.cls
    .ok (if drop then l1Evict s (cellOf c) line else l1Clean s (cellOf c) line)

/-- What ICINVAL and FETCHB wait for (R190): the buffer drains and the stores on their way arrive; one whose home has no power holds issue. -/
def drainStores (s : State) (c : Nat) : Except Stop State :=
  if darkStore s c fun _ => true then waits else .ok (wcbDrainAll (ackStores s c) c)

/-- ICINVAL of a line (R191). -/
def invalLine (s : State) (c : Nat) (a : BitVec 6) (wa : Bool) (disp : BitVec 5) : Except Stop State := do
  let (x, s) ← linePhase s c a wa 0 disp
  let s ← drainStores s c
  .ok (s.modCell (cellOf c) fun k => { k with icache := Tab.del k.icache (x.addr / 64) })

/-- Whether a pin is refused (R193): every way of the set pinned, or the partition's quota reached. -/
def pinRefused (s : State) (line part : Nat) : Bool :=
  decide (16 ≤ (s.l2.filter fun x => sameSet x.line line && x.pinned).length) ||
  decide ((s.part part).pinQuota ≤ (s.l2.filter fun x => x.pinned && x.part.toNat == part).length)

/-- A line that L2 holds takes the hint of an access that neither reads nor writes it (R76, R338). -/
def hintL2 (s : State) (c : Nat) (x : Acc) : State := l2Touch s x.addr x.cls false false (s.ctx c).arch.partition

/-- Pins a line, fetched first if absent; a refusal is counted and writes a record of the line (R193, R482). -/
def pinLine (s : State) (c : Nat) (x : Acc) : State :=
  let line := x.addr / 64
  let part := (s.ctx c).arch.partition
  if (s.l2.any fun y => y.line == line && y.pinned) then hintL2 s c x
  else if pinRefused s line part then
    ((hintL2 s c x).modSlice (sliceOf x.addr) fun k => { k with refusals := k.refusals + 1 }).recordUnit (stationOfCol (sliceCol (sliceOf x.addr)))
      (sliceOf x.addr % 2) part 0x4D (w64 (64 * line)) 0
  else
    let s := l2Touch s x.addr x.cls true false part
    { s with l2 := s.l2.map fun y => if y.line == line then { y with pinned := true, part := BitVec.ofNat 6 part } else y }

/-- CPIN (R193). -/
def pinInstr (s : State) (c : Nat) (a : BitVec 6) (wa : Bool) (hint : Hint) (disp : BitVec 5) (pin : Bool) : Except Stop State := do
  let (x, s) ← linePhase s c a wa hint.code disp
  if Config.spadBase ≤ x.addr then .ok s
  else
    let s := wcbDrainLine s c (x.addr / 64)
    .ok (if pin then pinLine s c x
      else { hintL2 s c x with l2 := (hintL2 s c x).l2.map fun y => if y.line == x.addr / 64 then { y with pinned := false } else y })

/-! ### Meanings -/

/-- LDS (R173). -/
def execLds (d a : BitVec 6) (wa : Bool) (sc : Scope) (hint : Hint) (disp : BitVec 5) (s : State) : Host.Outcome State Fault Refusal :=
  issueSeq (.lds d a wa sc hint disp) s fun s c => readWord s c .lds d a wa sc hint disp

/-- TAKE (R173). -/
def execTake (d a : BitVec 6) (wa : Bool) (sc : Scope) (hint : Hint) (disp : BitVec 5) (s : State) : Host.Outcome State Fault Refusal :=
  issueSeq (.take d a wa sc hint disp) s fun s c => readWord s c .take d a wa sc hint disp

/-- PUT (R173): queued at the home while the context goes on. -/
def execPut (d a : BitVec 6) (wa wd : Bool) (sc : Scope) (hint : Hint) (disp : BitVec 5) (s : State) : Host.Outcome State Fault Refusal :=
  issueSeq (.put d a wa wd sc hint disp) s fun s c => do
    let t ← sendPut s c .put d a wa wd sc hint disp
    .ok (noteWait t c .put none (fullMeta .top))

/-- PUT with full=fault (R173): nothing issues until the home has tested the word; a request that was abandoned or lost ends in its
fault (R446, R480). -/
def execPutFullFault (d a : BitVec 6) (wa wd : Bool) (sc : Scope) (hint : Hint) (disp : BitVec 5) (s : State) : Host.Outcome State Fault Refusal :=
  issue (.putFullFault d a wa wd sc hint disp) s fun s c => twoPhase s c (sendPut s c .putFault d a wa wd sc hint disp)
    fun ans => if ans = 0 then .ok (advance (.putFullFault d a wa wd sc hint disp) s c)
      else if ans = 1 then raise 0x1B (effOf (s.ctx c).arch a disp 8)
      else raise (fld ans 0 8) (effOf (s.ctx c).arch a disp 8) (fld ans 8 4)

/-- FEQ (R175). -/
def execFeq (d a : BitVec 6) (wa : Bool) (hint : Hint) (disp : BitVec 5) (s : State) : Host.Outcome State Fault Refusal :=
  issueSeq (.feq d a wa hint disp) s fun s c => queryWord s c d a wa hint disp

/-- FESET (R175). -/
def execFeset (a : BitVec 6) (wa full : Bool) (hint : Hint) (disp : BitVec 5) (s : State) : Host.Outcome State Fault Refusal :=
  issueSeq (.feset a wa full hint disp) s fun s c => setWordState s c a wa full hint disp

/-- LRW (R179). -/
def execLrw (d a : BitVec 6) (wa : Bool) (sc : Scope) (hint : Hint) (disp : BitVec 5) (s : State) : Host.Outcome State Fault Refusal :=
  issueSeq (.lrw d a wa sc hint disp) s fun s c => reserveWord s c d a wa sc hint disp

/-- SC (R180). -/
def execSc (d a : BitVec 6) (wa wd : Bool) (sc : Scope) (hint : Hint) (disp : BitVec 5) (s : State) : Host.Outcome State Fault Refusal :=
  issueSeq (.sc d a wa wd sc hint disp) s fun s c => storeCond s c d a wa wd sc hint disp

/-- SCREL (R180). -/
def execScrel (a : BitVec 6) (wa : Bool) (sc : Scope) (hint : Hint) (disp : BitVec 5) (s : State) : Host.Outcome State Fault Refusal :=
  issueSeq (.screl a wa sc hint disp) s fun s c => dropReservation s c a wa sc hint disp

/-- FENCE (R184, R185). -/
def execFence (kind : FenceKind) (sc : Scope) (s : State) : Host.Outcome State Fault Refusal :=
  issueSeq (.fence kind sc) s fun s c => fence s c kind sc

/-- PFENCE (R187). -/
def execPfence (sc : PScope) (s : State) : Host.Outcome State Fault Refusal :=
  issueSeq (.pfence sc) s fun s c => persistFence s c sc

/-- PPOINT (R186): the point lies between it and the next instruction. -/
def execPpoint (s : State) : Host.Outcome State Fault Refusal :=
  issue (.ppoint) s fun s c => do
    deferredFault s c
    if (s.ctx c).arch.anyEmpty then waits else .ok (makePoint (advance .ppoint s c) c)

/-- DCLEAN (R190). -/
def execDclean (a : BitVec 6) (wa : Bool) (hint : Hint) (disp : BitVec 5) (s : State) : Host.Outcome State Fault Refusal :=
  issueSeq (.dclean a wa hint disp) s fun s c => cleanLine s c a wa hint disp false

/-- DINVAL (R190). -/
def execDinval (a : BitVec 6) (wa : Bool) (hint : Hint) (disp : BitVec 5) (s : State) : Host.Outcome State Fault Refusal :=
  issueSeq (.dinval a wa hint disp) s fun s c => cleanLine s c a wa hint disp true

/-- ICINVAL of a line (R191). -/
def execIcinvalLine (a : BitVec 6) (wa : Bool) (disp : BitVec 5) (s : State) : Host.Outcome State Fault Refusal :=
  issueSeq (.icinvalLine a wa disp) s fun s c => invalLine s c a wa disp

/-- ICINVAL of the whole cell (R191). -/
def execIcinvalCell (s : State) : Host.Outcome State Fault Refusal :=
  issueSeq (.icinvalCell) s fun s c => do
    let s ← drainStores s c
    .ok (s.modCell (cellOf c) fun k => { k with icache := [] })

/-- FETCHB (R192). -/
def execFetchb (s : State) : Host.Outcome State Fault Refusal :=
  issueSeq (.fetchb) s fun s c => do
    let s ← drainStores s c
    .ok (s.modCtx c fun x => { x with fbuf := [] })

/-- CPIN, pin (R193). -/
def execCpinPin (a : BitVec 6) (wa : Bool) (hint : Hint) (disp : BitVec 5) (s : State) : Host.Outcome State Fault Refusal :=
  issueSeq (.cpinPin a wa hint disp) s fun s c => pinInstr s c a wa hint disp true

/-- CPIN, unpin (R193). -/
def execCpinUnpin (a : BitVec 6) (wa : Bool) (hint : Hint) (disp : BitVec 5) (s : State) : Host.Outcome State Fault Refusal :=
  issueSeq (.cpinUnpin a wa hint disp) s fun s c => pinInstr s c a wa hint disp false

end Sys2Proof.Machine
end

