-- ==== Sys2Proof/Machine/Labels.lean ====
section
/-! DEFINITION. Chapter 8, first part: the label instructions (R232 to R243), and the Accord units' own steps (R353 to R364). -/

namespace Sys2Proof.Machine

/-! ### Shared by the label instructions -/

/-- The space that SPACE selects. -/
def spaceNo (a : Arch) : BitVec 12 := a.space.extractLsb' 0 12

/-- SPACE.sv = 0, or a space that is not live or not the partition's, raises the label space fault (R31, R232, R366; that a space of another
partition does is DEDUCED, log 25); then a source label of another space does. -/
def spaceReady (s : State) (c : Nat) (xs : List Src) : Except Stop Unit :=
  let a := (s.ctx c).arch
  let sp := s.space (spaceNo a)
  if !bit a.space 63 || !sp.live || sp.owner.toNat != a.partition then raise 0x08 ((spaceNo a).setWidth 64)
  else match (srcLabels a xs).find? fun l => l.proper && l.sp != spaceNo a with
    | some l => raise 0x08 (l.sp.setWidth 64)
    | none => .ok ()

/-- The start of a label instruction with destination `d`: R16, R15, then the space. Among sources that can all be read, the fault of R232
reports the first label that is not of SPACE; rule 8 of R20 alone tells of a source that is still awaited. -/
def labelSrcs (s : State) (c : Nat) (d : RegId) (xs : List Src) : Except Stop Arch := do
  let a := (s.ctx c).arch
  destReady a d
  if xs.all fun x => (a.rmeta x.r).fe == .full then spaceReady s c xs else readSrcs a xs
  .ok a

/-- A word asked of the Accord unit, or formed in the cell when the label's content is known there (R238). -/
def inspect (s : State) (c : Nat) (d : RegId) (l : Label) (ask : Ask) (f : List Word → Word) : State :=
  match localContent (s.cell (cellOf c)).pcache l with
  | some envs => hitContent (fillTop s c d (.w (f envs))) c l
  | none => askFill s c d (.w 0) l.sp .top ask

/-- The register of a file that LGET and LSET name. -/
def fileReg (file : RFile) (n : BitVec 6) : RegId := ⟨file, n.toNat⟩
/-- The label that a word names (R235, R236). -/
def namedLabel (x : Word) : Label :=
  if x.extractLsb' 0 24 = 0 then .top else if x.extractLsb' 0 24 = 0xFFFFFF then .bot else ⟨x.extractLsb' 24 12, x.extractLsb' 0 24⟩
/-- The word that names a label (R235). -/
def labelName (l : Label) : Word := w64 (l.h.toNat + (if l.proper then l.sp.toNat * 2 ^ 24 else 0))

/-- LTAG (R234): ⊥ stays ⊥ and ⊤ tagged with the empty environment is ⊤, without the Accord unit. -/
def tagValue (s : State) (c : Nat) (d a b : BitVec 6) (wa wb : Bool) : Except Stop State := do
  let r ← labelSrcs s c (gd d) [srcG a wa 0, srcG b wb 1]
  let la := (r.gr a.toNat).lab
  let lb := (r.gr b.toNat).lab
  let v : RV := .w (gv r a)
  .ok (if la.isBot then fill s c (gd d) v [.bot, lb]
    else if la.isTop && gv r b == 0 then fill s c (gd d) v [.top, lb]
    else askFill s c (gd d) v (spaceNo r) ⟨spaceNo r, 1⟩ (.tag la (gv r b) lb))

/-- LGET (R235). -/
def getLabel (s : State) (c : Nat) (d a : BitVec 6) (wa : Bool) (file : RFile) : Except Stop State := do
  let x : Src := ⟨fileReg file a, wa, 0⟩
  let r ← labelSrcs s c (gd d) [x]
  let l := (r.rmeta x.r).lab
  .ok (inspect s c (gd d) l (.get l) fun envs => if envs.isEmpty then labelName .bot else labelName l)

/-- LSET (R236): the value stays; the label is checked against SPACE and the space's table. -/
def setLabel (s : State) (c : Nat) (d a : BitVec 6) (wa : Bool) (file : RFile) : Except Stop State := do
  let t := fileReg file d
  let xs : List Src := [srcG a wa 0, ⟨t, true, 2⟩]
  let r ← labelSrcs s c t xs
  let l := namedLabel (gv r a)
  let v := r.regVal t
  if !l.proper then .ok (if t.isG0 then s else s.modArch c fun x => x.setReg t v (fullMeta l))
  else if l.sp ≠ spaceNo r || (Tab.get? (s.space l.sp).entries l.h.toNat).isNone then raise 0x08 (l.sp.setWidth 64)
  else .ok (askFill s c t v l.sp l (.set l))

/-- LSEL (R239). -/
def selectLabelled (s : State) (c : Nat) (d a b : BitVec 6) (wa wb : Bool) : Except Stop State := do
  let r ← labelSrcs s c (gd d) [srcG a wa 0, srcG b wb 1]
  let la := (r.gr a.toNat).lab
  let lb := (r.gr b.toNat).lab
  match localContent (s.cell (cellOf c)).pcache la with
    | some envs => .ok (hitContent (if holdsIn envs r.view then fill s c (gd d) (.w (gv r a)) [la] else fill s c (gd d) (.w (gv r b)) [lb]) c la)
    | none => .ok (askFill s c (gd d) (.w (gv r a)) la.sp la (.sel la r.view (gv r b) lb))

/-- NOGOOD (R240): after the view test and the release the request leaves; d is empty and nothing else issues until it is complete. -/
def recordNogood (s : State) (c : Nat) (d a : BitVec 6) (wa : Bool) : Except Stop State := do
  let r ← labelSrcs s c (gd d) [srcG a wa 0]
  viewTest s c [srcG a wa 0]
  let old := r.rmeta (gd d)
  let s ← release s c Scope.device.code
  let s := s.modCtx c fun x => { x with
    arch := markEmpty x.arch (gd d) []
    pend := x.pend ++ [.wait .all s.stamp (some (gd d)) old] }
  .ok (noteView { s with
    nogoods := s.nogoods ++ [⟨c, s.plc c, gd d, spaceNo r, gv r a, none, 0, [], []⟩]
    stamp := s.stamp + 1 } c r [srcG a wa 0])

/-- No register awaits a label (R242). -/
def labelsDue (a : Arch) : Bool :=
  let due {α : Type} (t : Tab (Reg α)) : Bool := t.any fun p => p.2.fe == .empty && p.2.dueLab
  due a.g || due a.v || due a.k || due a.q || due a.x

/-- The nogoods of which another recorded one is a subset go (R243). -/
def dropImplied (x : Space) : Space := { x with ng := x.ng.filter fun p => !(x.ng.any fun g => g != p && p &&& g == g) }
/-- The entry of a handle is refiltered and moved to the bucket of its content (R364). -/
def refilterAt (h : Nat) (x : Space) : Space :=
  match Tab.get? x.entries h with
  | some e => { x with entries := Tab.put x.entries h (refilter x e) }
  | none => x

/-- LCOMPACT up to its request (R243): the space is checked, and the walk is asked of its home unit. -/
def askCompact (s : State) (c : Nat) (d a : BitVec 6) (wa : Bool) : Except Stop State := do
  let r := (s.ctx c).arch
  destReady r (gd d)
  readSrcs r [srcG a wa 0]
  let sp := (gv r a).extractLsb' 0 12
  let x := s.space sp
  if !x.live || x.owner.toNat != r.partition then raise 0x08 (sp.setWidth 64)
  else .ok { s with compacts := s.compacts ++ [⟨c, s.plc c, sp, 0⟩] }

/-! ### Meanings -/

/-- LTAG (R234). -/
def execLtag (d a b : BitVec 6) (wa wb : Bool) (s : State) : Host.Outcome State Fault Refusal :=
  issueSeq (.ltag d a b wa wb) s fun s c => tagValue s c d a b wa wb

/-- LGET (R235). -/
def execLget (d a : BitVec 6) (wa : Bool) (file : RFile) (s : State) : Host.Outcome State Fault Refusal :=
  issueSeq (.lget d a wa file) s fun s c => getLabel s c d a wa file

/-- LSET (R236). -/
def execLset (d a : BitVec 6) (wa : Bool) (file : RFile) (s : State) : Host.Outcome State Fault Refusal :=
  issueSeq (.lset d a wa file) s fun s c => setLabel s c d a wa file

/-- LPROD (R237). -/
def execLprod (d a b : BitVec 6) (wa wb : Bool) (s : State) : Host.Outcome State Fault Refusal :=
  issueSeq (.lprod d a b wa wb) s fun s c => do
    let r ← labelSrcs s c (gd d) [srcG a wa 0, srcG b wb 1]
    .ok (fill s c (gd d) (.w (gv r a)) (srcLabels r [srcG a wa 0, srcG b wb 1]))

/-- LHOLDS (R238). -/
def execLholds (d a b : BitVec 6) (wa wb : Bool) (s : State) : Host.Outcome State Fault Refusal :=
  issueSeq (.lholds d a b wa wb) s fun s c => do
    let r ← labelSrcs s c (gd d) [srcG a wa 0, srcG b wb 1]
    let l := (r.gr a.toNat).lab
    .ok (inspect s c (gd d) l (.holds l (gv r b)) fun envs => bool64 (holdsIn envs (gv r b)))

/-- LENV (R238). -/
def execLenv (d a b : BitVec 6) (wa wb : Bool) (s : State) : Host.Outcome State Fault Refusal :=
  issueSeq (.lenv d a b wa wb) s fun s c => do
    let r ← labelSrcs s c (gd d) [srcG a wa 0, srcG b wb 1]
    let l := (r.gr a.toNat).lab
    .ok (inspect s c (gd d) l (.env l (gv r b)) fun envs => envs.getD (gv r b).toNat 0)

/-- LCNT (R238). -/
def execLcnt (d a : BitVec 6) (wa : Bool) (s : State) : Host.Outcome State Fault Refusal :=
  issueSeq (.lcnt d a wa) s fun s c => do
    let r ← labelSrcs s c (gd d) [srcG a wa 0]
    let l := (r.gr a.toNat).lab
    .ok (inspect s c (gd d) l (.count l) fun envs => w64 envs.length)

/-- LSEL (R239). -/
def execLsel (d a b : BitVec 6) (wa wb : Bool) (s : State) : Host.Outcome State Fault Refusal :=
  issueSeq (.lsel d a b wa wb) s fun s c => selectLabelled s c d a b wa wb

/-- NOGOOD (R240). -/
def execNogood (d a : BitVec 6) (wa : Bool) (s : State) : Host.Outcome State Fault Refusal :=
  issueSeq (.nogood d a wa) s fun s c => recordNogood s c d a wa

/-- LSYNC (R242). -/
def execLsync (s : State) : Host.Outcome State Fault Refusal :=
  issueSeq (.lsync) s fun s c => if labelsDue (s.ctx c).arch then waits else .ok s

/-- LCOMPACT (R243, R364): issue is held until the home unit has walked the table; d then fills with the number of nogoods that remain. -/
def execLcompact (d a : BitVec 6) (wa : Bool) (s : State) : Host.Outcome State Fault Refusal :=
  issue (.lcompact d a wa) s fun s c => twoPhase s c (askCompact s c d a wa)
    fun ans => .ok (advance (.lcompact d a wa) (fillTop s c (gd d) (.w ans)) c)

/-! ### The Accord units' steps -/

/-- Whether a serving unit can take a request: its column's station has power. -/
def unitUp (s : State) (c : Nat) : Bool := (s.col (colOf (cellOf c))).stationPower

/-- Whether two outstanding requests ask the same of one unit, which evaluates them once (R362). -/
def sameAsk (j k : LabelJob) : Bool :=
  colOf (cellOf j.c) == colOf (cellOf k.c) && j.sp == k.sp && j.ask == k.ask && k.stage == .asked

/-- ACCORD_PRODUCT_REQUEST: a request, with those identical to it, is evaluated at the unit of the cell's column (R353, R358, R362). -/
def execAccordProductRequest (n : Nat) (s : State) : Host.Outcome State Fault Refusal :=
  match s.labelJobs[n]? with
  | some j =>
    if j.stage == .asked && unitUp s j.c then
      let u := colOf (cellOf j.c)
      let x := s.unitSpace u j.sp
      let e := evalAsk x j.sp j.ask
      let s := serveUnit s u j.sp e.2
      .next { s with labelJobs := s.labelJobs.map fun k => if sameAsk j k then { k with stage := e.1, gen := x.gen } else k }
    else .next s
  | none => .next s

/-- What follows an interned set: the answer, or, after the tag of LTAG, the product with the label of b (R234). -/
def afterIntern (j : LabelJob) (res : PRes) (envs : List Word) : LabelJob :=
  match j.ask, res with
  | .tag _ _ lb, .lab l =>
    if lb.isBot then { j with stage := .answered (.lab .bot) 0 envs }
    else if lb.isTop then { j with stage := .answered res 0 envs }
    else { j with ask := .product [l, lb], stage := .asked }
  | _, _ => { j with stage := .answered res 0 envs }

/-- INTERN: the home unit returns the lowest handle whose content equals the set, or allocates one, filtered under the generation of the evaluation
(R231, R241, R357). -/
def execIntern (n : Nat) (s : State) : Host.Outcome State Fault Refusal :=
  match s.labelJobs[n]? with
  | some j => match j.stage, homeUnit s j.sp with
    | .formed envs, some _ =>
      let (r, s) := internAt s j.sp j.gen envs
      .next { s with labelJobs := updAt n (fun j => afterIntern j r envs) s.labelJobs }
    | _, _ => .next s
  | none => .next s

/-- ENTRY_REWRITE: the home unit applies a rewrite only while the entry is older (R358). -/
def execEntryRewrite (n : Nat) (s : State) : Host.Outcome State Fault Refusal :=
  match s.rewrites[n]? with
  | some r =>
    let s := { s with rewrites := takeOut n s.rewrites }
    .next (s.modSpace r.sp fun x => match Tab.get? x.entries r.h with
      | some e => if e.fgen < r.gen then { x with entries := Tab.put x.entries r.h ⟨r.envs, r.gen, bucketOf x.tlog r.envs⟩ } else x
      | none => x)
  | none => .next s

/-- What LTAG still owes when its tag came to ⊤ or ⊥ without interning: the product with the label of b (R234). -/
def tagRest (j : LabelJob) (res : PRes) : Option LabelJob :=
  match j.ask, res with
  | .tag _ _ lb, .lab l => if l.proper || lb.isTop then none else some { j with stage := .answered (.lab (if l.isTop then lb else .bot)) 0 [], ask := .product [l, lb] }
  | _, _ => none

/-- LABEL_PRODUCT_ANSWER: an answer fills its register (R14, R118, R230, R360). -/
def execLabelProductAnswer (n : Nat) (s : State) : Host.Outcome State Fault Refusal :=
  match s.labelJobs[n]? with
  | some j => match j.stage with
    | .answered res v envs => match tagRest j res with
      | some k => .next { s with labelJobs := updAt n (fun _ => k) s.labelJobs }
      | none => .next (deliverAnswer { s with labelJobs := takeOut n s.labelJobs } j res v envs)
    | _ => .next s
  | none => .next s

/-- The next piece of an LCOMPACT at the home unit of its space (R243, R364): first the implied nogoods go; then one entry after the other, in handle
order, is refiltered; after the last, the context is answered with the number of nogoods that remain. Other requests of the space come between. -/
def compactStep (n : Nat) (s : State) : State :=
  match s.compacts[n]? with
  | none => s
  | some j =>
    let x := s.space j.sp
    let next (s : State) : State := { s with compacts := updAt n (fun j => { j with next := j.next + 1 }) s.compacts }
    if (homeUnit s j.sp).isNone then s
    else if j.next = 0 then next ((touchList s j.sp x).modSpace j.sp dropImplied)
    else if x.hwm < j.next then answerHold { s with compacts := takeOut n s.compacts } j.c j.plc (w64 x.ng.length)
    else next ((touchEntry s x j.next).modSpace j.sp (refilterAt j.next))

/-- A NOGOOD is complete: d fills with the result and the label ⊤, and the context goes on (R240). -/
def finishNogood (s : State) (g : Nogood) (v : Word) : State :=
  (s.modArchOf g.c g.plc fun a => a.setReg g.dst (.w v) (fullMeta .top)).modPendOf g.c g.plc fun ps => ps.filter fun p => match p with
    | .wait .all _ _ _ => false
    | _ => true

/-- The units that take part in a broadcast: those whose station has power. -/
def liveUnits (s : State) : List Nat := (List.range 64).filter fun u => (s.col u).stationPower

/-- The units that have a broadcast of a space still to acknowledge. -/
def unlearnt (s : State) (sp : BitVec 12) : List Nat :=
  ((s.nogoods.filter fun h => h.sp == sp && h.gen != 0).flatMap fun h => h.toLearn ++ h.toAck).eraseDups

/-- NOGOOD_APPEND: the home unit records the nogood, or says why not (R240). An append sent again after the loss of a home finds its nogood recorded; it
returns so, once every unit has learnt it; and one that a recorded nogood implies waits for the units that have that one's broadcast still to acknowledge (R241, R359). -/
def execNogoodAppend (n : Nat) (s : State) : Host.Outcome State Fault Refusal :=
  match s.nogoods[n]? with
  | some g =>
    let x := s.space g.sp
    if g.done.isSome || (homeUnit s g.sp).isNone then .next s
    else
      let gone := { s with nogoods := takeOut n s.nogoods }
      let full := decide (256 ≤ x.ng.length)
      if g.env = 0 then .next (finishNogood gone g (w64 (2 ^ 63 + 2)))
      else if g.gen ≠ 0 then .next { s with nogoods := updAt n (broadcast s (w64 (2 ^ 62 + x.gen)) g.gen) s.nogoods }
      else if full || decide (2 ^ 32 - 1 ≤ x.gen) then
        .next (finishNogood (gone.recordCtx g.c 0x55 (g.sp.setWidth 64) (if full then 1 else 2)) g (w64 (2 ^ 63 + 1)))
      else if x.ng.any fun p => g.env &&& p == p then
        let us := unlearnt s g.sp
        if us.isEmpty then .next (finishNogood gone g (w64 (2 ^ 62 + x.gen)))
        else .next { s with nogoods := updAt n (fun g => { g with done := some (w64 (2 ^ 62 + x.gen)), toAck := us }) s.nogoods }
      else
        let s := s.modSpace g.sp fun x => { x with gen := x.gen + 1, ng := x.ng ++ [g.env] }
        .next { s with nogoods := updAt n (broadcast s (w64 (x.gen + 1)) (x.gen + 1)) s.nogoods }
  | none => .next s
where
  /-- The new generation goes to every unit; the NOGOOD is to end with a value. -/
  broadcast (s : State) (v : Word) (gen : Nat) (g : Nogood) : Nogood :=
    { g with done := some v, gen := gen, toLearn := liveUnits s, toAck := liveUnits s }

/-- The broadcast of an earlier nogood of the space has not reached a unit yet: the home's broadcasts reach each unit in their order. -/
def learnsBefore (s : State) (g : Nogood) (unit : Nat) : Bool :=
  s.nogoods.any fun h => h.sp == g.sp && h.gen != 0 && decide (h.gen < g.gen) && (h.done.isNone || h.toLearn.contains unit)

/-- GENERATION_BROADCAST: a unit and the product caches of its column learn a space's new generation, and the unit its nogood (R361, R362). -/
def execGenerationBroadcast (n unit : Nat) (s : State) : Host.Outcome State Fault Refusal :=
  match s.nogoods[n]? with
  | some g =>
    if g.toLearn.contains unit && !learnsBefore s g unit then
      let s := s.learn unit g.sp g.env g.gen
      let s := (List.range 16).foldl (fun s i => s.modCell (16 * unit + i) fun k => { k with pcache := k.pcache.filter fun e => match e with
        | .product sp _ _ _ => sp != g.sp
        | .content sp _ _ => sp != g.sp }) s
      .next { s with nogoods := updAt n (fun g => { g with toLearn := g.toLearn.filter (· != unit) }) s.nogoods }
    else .next s
  | none => .next s

/-- NOGOOD_ACKNOWLEDGE: a unit that has learnt the generation acknowledges; the last one completes the NOGOOD (R240). A NOGOOD that recorded nothing waits for what the
unit has still to learn of its space (R241). -/
def execNogoodAcknowledge (n unit : Nat) (s : State) : Host.Outcome State Fault Refusal :=
  match s.nogoods[n]? with
  | some g =>
    let owes := g.gen == 0 && s.nogoods.any fun h => h.sp == g.sp && h.gen != 0 && h.toLearn.contains unit
    if g.toAck.contains unit && !g.toLearn.contains unit && !owes then
      let rest := g.toAck.filter (· != unit)
      match rest, g.done with
      | [], some v => .next (finishNogood { s with nogoods := takeOut n s.nogoods } g v)
      | _, _ => .next { s with nogoods := updAt n (fun g => { g with toAck := rest }) s.nogoods }
    else .next s
  | none => .next s

end Sys2Proof.Machine
end

