-- ==== Sys2Proof/Machine/Vector.lean ====
section
/-! DEFINITION. Chapter 7, first part: vector and mask instructions (R195 to R210). -/

namespace Sys2Proof.Machine

/-! ### Lanes and element types -/

/-- Lane `i` of width `w` bits (R195). -/
def lane (v : BitVec 512) (w i : Nat) : Nat := v.toNat / 2 ^ (w * i) % 2 ^ w
/-- The register with lane `i` of width `w` replaced. -/
def putLane (w : Nat) (v : BitVec 512) (p : Nat × Nat) : BitVec 512 :=
  (v &&& ~~~(BitVec.ofNat 512 ((2 ^ w - 1) * 2 ^ (w * p.1)))) ||| BitVec.ofNat 512 (p.2 % 2 ^ w * 2 ^ (w * p.1))

/-- A lane type: a floating-point format, or an integer of a width, signed or not. -/
inductive LaneTy where
  | fp (t : Fmt)
  | int (bits : Nat) (signed : Bool)
deriving DecidableEq, Repr

/-- Bits of a lane. -/
def LaneTy.bits : LaneTy → Nat
  | .fp t => t.bits
  | .int n _ => n
end Sys2Proof.Machine

namespace Sys2Proof

/-- The lane type of a VT (R80). -/
def VT.ty : VT → Machine.LaneTy
  | .fp64 => .fp Machine.fmt64
  | .fp32 => .fp Machine.fmt32
  | .fp16 => .fp Machine.fmt16
  | .bf16 => .fp Machine.fmtB16
  | .i64 => .int 64 true
  | .i32 => .int 32 true
  | .i16 => .int 16 true
  | .i8 => .int 8 true
/-- The format of a floating-point VT. -/
def FT.fmt : FT → Machine.Fmt
  | .fp64 => Machine.fmt64
  | .fp32 => Machine.fmt32
  | .fp16 => Machine.fmt16
  | .bf16 => Machine.fmtB16
/-- The lane type of a CT (R80). -/
def CT.ty : CT → Machine.LaneTy
  | .fp64 => .fp Machine.fmt64
  | .fp32 => .fp Machine.fmt32
  | .fp16 => .fp Machine.fmt16
  | .bf16 => .fp Machine.fmtB16
  | .i64 => .int 64 true
  | .i32 => .int 32 true
  | .i16 => .int 16 true
  | .i8 => .int 8 true
  | .n64 => .int 64 false
  | .n32 => .int 32 false
  | .n16 => .int 16 false
  | .n8 => .int 8 false
  | .e4m3 => .fp Machine.fmtE4M3
  | .e5m2 => .fp Machine.fmtE5M2

end Sys2Proof

namespace Sys2Proof.Machine

/-! ### Masked vector instructions -/

/-- The sources of a masked vector instruction (R196, R197): the named ones, the old destination when it is read or when a lane below N
stays as it is, and q0. -/
def maskedSrcs (r : Arch) (d : BitVec 6) (named : List Src) (readsOld : Bool) (n : Nat) : List Src :=
  let stays := (r.qr 0).fe == .full && (enabledLanes n (r.qr 0).val).length != n
  named ++ (if readsOld || stays then [srcF .v d.toNat 2] else []) ++ [srcF .q 0 3]

/-- A masked vector instruction: `f` gives the new content of an enabled lane and the flags it raises; `clear` is the register into which
the lanes are written when all of it is not the old content. A long one delivers its result later (R229). -/
def vecOp (s : State) (c : Nat) (d : BitVec 6) (named : List Src) (readsOld : Bool) (n w : Nat) (f : Arch → Nat → Nat × BitVec 6)
    (long : Bool := false) (keep : BitVec 512 := BitVec.allOnes 512) : Except Stop State := do
  let r := (s.ctx c).arch
  destReady r ⟨.v, d.toNat⟩
  readSrcs r (maskedSrcs r d named readsOld n)
  let ls := srcLabels r (maskedSrcs r d named readsOld n)
  let out := (enabledLanes n (r.qr 0).val).map fun i => (i, f r i)
  let t ← setFlags s c (out.foldl (fun x p => x ||| p.2.2) 0)
  let v := (out.map fun p => (p.1, p.2.1)).foldl (putLane w) ((r.vr d.toNat).val &&& keep)
  .ok (if long then startLong t c .vlong ⟨⟨.v, d.toNat⟩, .v v, ls, r.pc⟩ else fill t c ⟨.v, d.toNat⟩ (.v v) ls)

/-- The sources of an instruction of two vector registers. -/
def vv (a b : BitVec 6) (wa wb : Bool) : List Src := [srcF .v a.toNat 0 wa, srcF .v b.toNat 1 wb]
/-- Lane `i` of a register of width `w`. -/
def vlane (r : Arch) (n : BitVec 6) (w i : Nat) : Nat := lane (r.vr n.toNat).val w i

/-- A lane-by-lane instruction of two registers. -/
def vec2 (s : State) (c : Nat) (d a b : BitVec 6) (wa wb : Bool) (w : Nat) (f : RMode → Nat → Nat → Nat × BitVec 6) (long : Bool := false) :
    Except Stop State :=
  vecOp s c d (vv a b wa wb) false (512 / w) w (fun r i => f r.rm (vlane r a w i) (vlane r b w i)) long
/-- A lane-by-lane instruction of one register. -/
def vec1 (s : State) (c : Nat) (d a : BitVec 6) (wa : Bool) (w : Nat) (f : RMode → Nat → Nat × BitVec 6) (long : Bool := false) :
    Except Stop State :=
  vecOp s c d [srcF .v a.toNat 0 wa] false (512 / w) w (fun r i => f r.rm (vlane r a w i)) long
/-- A lane-by-lane instruction of two registers and the old destination. -/
def vec3 (s : State) (c : Nat) (d a b : BitVec 6) (wa wb : Bool) (w : Nat) (f : RMode → Nat → Nat → Nat → Nat × BitVec 6) : Except Stop State :=
  vecOp s c d (vv a b wa wb) true (512 / w) w (fun r i => f r.rm (vlane r a w i) (vlane r b w i) (vlane r d w i))

/-! ### Lane functions (R198, R200, R201, R204, R206) -/

/-- Addition, subtraction and multiplication of one lane: floating point rounded once, integers modulo 2^width. -/
def laneArith (t : LaneTy) (op : Int → Int → Int) (fop : RMode → Fp → Fp → Exact) (m : RMode) (x y : Nat) : Nat × BitVec 6 :=
  match t with
  | .fp t => roundTo t m (fop m (decodeFp t x) (decodeFp t y))
  | .int n _ => (wrapInt n (op (sextInt x n) (sextInt y n)), 0)
/-- a < b among values, −0 below +0; false when one is NaN. -/
def fpBelow (a b : Fp) : Bool := cmpFp a b == some .lt || (a.isZero && b.isZero && a.neg && !b.neg)
/-- VMIN and VMAX (R200). -/
def laneMinMax (t : LaneTy) (max : Bool) (x y : Nat) : Nat :=
  match t with
  | .fp t =>
    let u := decodeFp t x
    let v := decodeFp t y
    if u.isNan || v.isNan then t.nan else if fpBelow (if max then u else v) (if max then v else u) then y else x
  | .int n _ => if (if max then decide (sextInt x n < sextInt y n) else decide (sextInt y n < sextInt x n)) then y else x
/-- VABS and VNEG (R200). -/
def laneSign (t : LaneTy) (neg : Bool) (x : Nat) : Nat :=
  match t with
  | .fp t =>
    if (decodeFp t x).isNan then t.nan
    else if neg then x ^^^ t.sign true else x % 2 ^ (t.e + t.f)
  | .int n _ => if neg || decide (sextInt x n < 0) then wrapInt n (-(sextInt x n)) else x
/-- VCMP (R201). -/
def laneCmp (t : LaneTy) (k : Cond) (x y : Nat) : Bool :=
  match t with
  | .fp t =>
    let o := cmpFp (decodeFp t x) (decodeFp t y)
    match k with
    | .eq => o == some .eq
    | .ne => o != some .eq
    | .lt => o == some .lt
    | .le => o == some .lt || o == some .eq
    | .ltn => o == some .lt || o == none
    | .len => o != some .gt
    | .un => o == none
  | .int n _ =>
    match k with
    | .eq => x == y
    | .ne => x != y
    | .lt => decide (sextInt x n < sextInt y n)
    | .le => decide (sextInt x n ≤ sextInt y n)
    | .ltn => decide (x < y)
    | .len => decide (x ≤ y)
    | .un => false
/-- VSHL (R204). -/
def laneShl (w x y : Nat) : Nat := if w ≤ y then 0 else x * 2 ^ y % 2 ^ w
/-- VSHR, logical and arithmetic (R204). -/
def laneShr (w : Nat) (arith : Bool) (x y : Nat) : Nat :=
  if arith then wrapInt w (sextInt x w / (2 ^ min y w : Nat)) else if w ≤ y then 0 else x / 2 ^ y
/-- VCVT of one lane (R206). -/
def laneCvt (src dst : LaneTy) (m : RMode) (x : Nat) : Nat × BitVec 6 :=
  match src, dst with
  | .fp t, .fp u =>
    if t = u then (if (decodeFp t x).isNan then t.nan else x, 0) else roundTo u m (exact (decodeFp t x))
  | .fp t, .int n sg =>
    let r := fpToInt n sg m (decodeFp t x)
    (wrapInt n r.1, r.2)
  | .int n sg, .fp u => roundTo u m (exact (intFp (readInt n sg x)))
  | .int n sg, .int k sg' =>
    let r := saturate k sg' (readInt n sg x)
    (wrapInt k r.1, r.2)

/-- VCVT (R205, R206): N lanes, each read at the source size and written at the destination size; the bytes beyond them are zero. -/
def convertVec (s : State) (c : Nat) (d a : BitVec 6) (wa : Bool) (src dst : LaneTy) (rm : Option RMode) : Except Stop State :=
  let n := 512 / max src.bits dst.bits
  vecOp s c d [srcF .v a.toNat 0 wa] false n dst.bits (fun r i => laneCvt src dst (rm.getD r.rm) (vlane r a src.bits i)) false
    (BitVec.ofNat 512 (2 ^ (n * dst.bits) - 1))

/-- VCMP: the result mask (R201). -/
def compareVec (s : State) (c : Nat) (qd : BitVec 3) (k : Cond) (a b : BitVec 6) (wa wb : Bool) (t : LaneTy) : Except Stop State :=
  compute s c ⟨.q, qd.toNat⟩ (vv a b wa wb ++ [srcF .q 0 3]) fun r =>
    (.w ((enabledLanes (512 / t.bits) (r.qr 0).val).foldl (fun (m : Word) i =>
      if laneCmp t k (vlane r a t.bits i) (vlane r b t.bits i) then m ||| w64 (2 ^ i) else m) 0), 0)

/-- VSEL (R202). -/
def selectVec (s : State) (c : Nat) (d a b : BitVec 6) (wa wb : Bool) (qn : BitVec 3) : Except Stop State :=
  compute s c ⟨.v, d.toNat⟩ (vv a b wa wb ++ [srcF .q qn.toNat 3]) fun r =>
    (.v ((List.range 64).foldl (fun v j => putLane 8 v (j, if (r.qr qn.toNat).val.getLsbD j then vlane r a 8 j else vlane r b 8 j)) 0), 0)

/-- VEXT (R207). -/
def extractLane (s : State) (c : Nat) (d a b : BitVec 6) (wa wb : Bool) (w : Nat) : Except Stop State :=
  compute s c (gd d) [srcF .v a.toNat 0 wa, srcG b wb 1] fun r => (.w (w64 (vlane r a w ((gv r b).toNat % (512 / w)))), 0)

/-- VINS (R207). -/
def insertLane (s : State) (c : Nat) (d a b : BitVec 6) (wa wb : Bool) (w : Nat) : Except Stop State :=
  compute s c ⟨.v, d.toNat⟩ [srcG a wa 0, srcG b wb 1, srcF .v d.toNat 2, srcF .q 0 3] fun r =>
    let j := (gv r b).toNat % (512 / w)
    (.v (if (r.qr 0).val.getLsbD j then putLane w (r.vr d.toNat).val (j, (gv r a).toNat) else (r.vr d.toNat).val), 0)

/-! ### Reductions (R64, R65, R208) -/

/-- One level of the tree. -/
def treeLevel (node : Nat → Nat → Nat × BitVec 6) : List (Option Nat) → List (Option Nat) × BitVec 6
  | [] => ([], 0)
  | [x] => ([x], 0)
  | x :: y :: t =>
    let (r, fl) := treeLevel node t
    match x, y with
    | none, none => (none :: r, fl)
    | some u, none => (some u :: r, fl)
    | none, some v => (some v :: r, fl)
    | some u, some v => (some (node u v).1 :: r, (node u v).2 ||| fl)
/-- The tree of R64, level by level, with the flags of all its nodes. -/
def reduceTree (node : Nat → Nat → Nat × BitVec 6) : Nat → List (Option Nat) → Option Nat × BitVec 6
  | 0, ts => (ts.headD none, 0)
  | k + 1, ts => match ts with
    | [] => (none, 0)
    | [x] => (x, 0)
    | _ =>
      let l := treeLevel node ts
      let r := reduceTree node k l.1
      (r.1, l.2 ||| r.2)
/-- A NaN of a format is its canonical NaN (R46). -/
def canonNan (t : Fmt) (x : Nat) : Nat := if (decodeFp t x).isNan then t.nan else x
/-- The lanes of a register, absent where q0 does not enable them. -/
def maskedLanes (w : Nat) (mask : Word) (v : BitVec 512) : List (Option Nat) :=
  (List.range (512 / w)).map fun i => if mask.getLsbD i then some (lane v w i) else none

/-- VRED over floating-point lanes (R64, R65). -/
def redFp (t : Fmt) (op : RedOp) (m : RMode) (mask : Word) (v : BitVec 512) : Nat × BitVec 6 :=
  let node (x y : Nat) : Nat × BitVec 6 := match op with
    | .sum => roundTo t m (sumFp m [decodeFp t x, decodeFp t y])
    | .min => (laneMinMax (.fp t) false x y, 0)
    | .max => (laneMinMax (.fp t) true x y, 0)
  match reduceTree node 6 (maskedLanes t.bits mask v) with
  | (some x, fl) => (canonNan t x, fl)
  | (none, _) => (match op with | .sum => 0 | .min => t.nan | .max => t.nan, 0)
/-- VRED over integer lanes (R208). -/
def redInt (n : Nat) (op : RedOp) (mask : Word) (v : BitVec 512) : Word :=
  let xs := ((maskedLanes n mask v).filterMap id).map fun x => sextInt x n
  match op with
  | .sum => wInt (xs.foldl (· + ·) 0)
  | .min => wInt (xs.foldl min (intMax n true))
  | .max => wInt (xs.foldl max (intMin n true))
/-- Level 1 of VDOT (R64): pairs of present products, rounded once. -/
def dotPairs (t : Fmt) (m : RMode) : List (Option (Nat × Nat)) → List (Option Nat) × BitVec 6
  | x :: y :: r =>
    let ps := (([x, y].filterMap id).map fun p => mulFp (decodeFp t p.1) (decodeFp t p.2))
    let l := dotPairs t m r
    if ps.isEmpty then (none :: l.1, l.2)
    else
      let q := roundTo t m (sumProducts m [] ps)
      (some q.1 :: l.1, q.2 ||| l.2)
  | _ => ([], 0)
/-- VDOT over floating-point lanes (R64, R65). -/
def dotFp (t : Fmt) (m : RMode) (mask : Word) (u v : BitVec 512) : Nat × BitVec 6 :=
  let leaves := (List.range (512 / t.bits)).map fun i => if mask.getLsbD i then some (lane u t.bits i, lane v t.bits i) else none
  let l := dotPairs t m leaves
  let r := reduceTree (fun x y => roundTo t m (sumFp m [decodeFp t x, decodeFp t y])) 6 l.1
  match r.1 with
  | some x => (x, l.2 ||| r.2)
  | none => (0, 0)
/-- VDOT over integer lanes (R208). -/
def dotInt (n : Nat) (mask : Word) (u v : BitVec 512) : Word :=
  wInt ((enabledLanes (512 / n) mask).foldl (fun x i => x + sextInt (lane u n i) n * sextInt (lane v n i) n) 0)

/-- VRED and VDOT: the flags are raised at issue; gd is marked empty and fills later (R208). -/
def reduceOp (s : State) (c : Nat) (d : BitVec 6) (named : List Src) (f : Arch → Word × BitVec 6) : Except Stop State := do
  let r := (s.ctx c).arch
  destReady r (gd d)
  readSrcs r (named ++ [srcF .q 0 3])
  let t ← setFlags s c (f r).2
  .ok (startLong t c .vlong ⟨gd d, .w (f r).1, srcLabels r (named ++ [srcF .q 0 3]), r.pc⟩)

/-! ### Masks -/

/-- A mask instruction of two masks. -/
def mask2 (s : State) (c : Nat) (d a b : BitVec 6) (wa wb : Bool) (f : Word → Word → Word) : Except Stop State :=
  compute s c ⟨.q, d.toNat⟩ [srcF .q a.toNat 0 wa, srcF .q b.toNat 1 wb] fun r => (.w (f (r.qr a.toNat).val (r.qr b.toNat).val), 0)
/-- Bit j of the result is bit (j >> k) of the mask (R210). -/
def spreadMask (k : Nat) (m : Word) : Word := w64 ((List.range 64).foldl (fun v j => if m.getLsbD (j / 2 ^ k) then v + 2 ^ j else v) 0)
/-- MSET (R210). -/
def setMask (s : State) (c : Nat) (d a : BitVec 6) (wa : Bool) (mode : MsetMode) : Except Stop State :=
  let q (k : Nat) := compute s c ⟨.q, d.toNat⟩ [srcF .q a.toNat 0 wa] fun r => (.w (spreadMask k (r.qr a.toNat).val), 0)
  match mode with
  | .spread1 => q 0
  | .spread2 => q 1
  | .spread4 => q 2
  | .spread8 => q 3
  | .first => compute s c ⟨.q, d.toNat⟩ [srcG a wa 0] fun r => (.w (w64 (2 ^ min (gv r a).toNat 64 - 1)), 0)
  | .copy => compute s c ⟨.q, d.toNat⟩ [srcG a wa 0] fun r => (.w (gv r a), 0)

/-! ### Meanings -/

/-- VADD (R200). -/
def execVadd (d a b : BitVec 6) (wa wb : Bool) (t : VT) (s : State) : Host.Outcome State Fault Refusal :=
  issueSeq (.vadd d a b wa wb t) s fun s c => vec2 s c d a b wa wb t.ty.bits (laneArith t.ty (· + ·) fun m x y => sumFp m [x, y])

/-- VSUB (R200). -/
def execVsub (d a b : BitVec 6) (wa wb : Bool) (t : VT) (s : State) : Host.Outcome State Fault Refusal :=
  issueSeq (.vsub d a b wa wb t) s fun s c => vec2 s c d a b wa wb t.ty.bits (laneArith t.ty (· - ·) fun m x y => sumFp m [x, y.negate])

/-- VMUL (R200). -/
def execVmul (d a b : BitVec 6) (wa wb : Bool) (t : VT) (s : State) : Host.Outcome State Fault Refusal :=
  issueSeq (.vmul d a b wa wb t) s fun s c => vec2 s c d a b wa wb t.ty.bits (laneArith t.ty (· * ·) fun _ x y => mulFp x y)

/-- VDIV (R200). -/
def execVdiv (d a b : BitVec 6) (wa wb : Bool) (t : FT) (s : State) : Host.Outcome State Fault Refusal :=
  issueSeq (.vdiv d a b wa wb t) s fun s c => vec2 s c d a b wa wb t.fmt.bits (fun m x y => roundTo t.fmt m (divFp (decodeFp t.fmt x) (decodeFp t.fmt y))) true

/-- VFMA (R200): fused. -/
def execVfma (d a b : BitVec 6) (wa wb : Bool) (t : FT) (s : State) : Host.Outcome State Fault Refusal :=
  issueSeq (.vfma d a b wa wb t) s fun s c => vec3 s c d a b wa wb t.fmt.bits fun m x y z => roundTo t.fmt m (fmaFp m (decodeFp t.fmt x) (decodeFp t.fmt y) (decodeFp t.fmt z))

/-- VFMS (R200): d − a·b, fused. -/
def execVfms (d a b : BitVec 6) (wa wb : Bool) (t : FT) (s : State) : Host.Outcome State Fault Refusal :=
  issueSeq (.vfms d a b wa wb t) s fun s c => vec3 s c d a b wa wb t.fmt.bits fun m x y z =>
    roundTo t.fmt m (fmaFp m (decodeFp t.fmt x).negate (decodeFp t.fmt y) (decodeFp t.fmt z))

/-- VMIN (R200). -/
def execVmin (d a b : BitVec 6) (wa wb : Bool) (t : VT) (s : State) : Host.Outcome State Fault Refusal :=
  issueSeq (.vmin d a b wa wb t) s fun s c => vec2 s c d a b wa wb t.ty.bits fun _ x y => (laneMinMax t.ty false x y, 0)

/-- VMAX (R200). -/
def execVmax (d a b : BitVec 6) (wa wb : Bool) (t : VT) (s : State) : Host.Outcome State Fault Refusal :=
  issueSeq (.vmax d a b wa wb t) s fun s c => vec2 s c d a b wa wb t.ty.bits fun _ x y => (laneMinMax t.ty true x y, 0)

/-- VSQRT (R200). -/
def execVsqrt (d a : BitVec 6) (wa : Bool) (t : FT) (s : State) : Host.Outcome State Fault Refusal :=
  issueSeq (.vsqrt d a wa t) s fun s c => vec1 s c d a wa t.fmt.bits (fun m x => roundTo t.fmt m (sqrtFp (decodeFp t.fmt x))) true

/-- VRCP (R200). -/
def execVrcp (d a : BitVec 6) (wa : Bool) (t : FT) (s : State) : Host.Outcome State Fault Refusal :=
  issueSeq (.vrcp d a wa t) s fun s c => vec1 s c d a wa t.fmt.bits (fun m x => roundTo t.fmt m (divFp (.fin false 1 0) (decodeFp t.fmt x))) true

/-- VRSQ (R200). -/
def execVrsq (d a : BitVec 6) (wa : Bool) (t : FT) (s : State) : Host.Outcome State Fault Refusal :=
  issueSeq (.vrsq d a wa t) s fun s c => vec1 s c d a wa t.fmt.bits (fun m x => roundTo t.fmt m (rsqrtFp (decodeFp t.fmt x))) true

/-- VABS (R200). -/
def execVabs (d a : BitVec 6) (wa : Bool) (t : VT) (s : State) : Host.Outcome State Fault Refusal :=
  issueSeq (.vabs d a wa t) s fun s c => vec1 s c d a wa t.ty.bits fun _ x => (laneSign t.ty false x, 0)

/-- VNEG (R200). -/
def execVneg (d a : BitVec 6) (wa : Bool) (t : VT) (s : State) : Host.Outcome State Fault Refusal :=
  issueSeq (.vneg d a wa t) s fun s c => vec1 s c d a wa t.ty.bits fun _ x => (laneSign t.ty true x, 0)

/-- VCMP (R201). -/
def execVcmp (qd : BitVec 3) (cond : Cond) (a b : BitVec 6) (wa wb : Bool) (t : VT) (s : State) : Host.Outcome State Fault Refusal :=
  issueSeq (.vcmp qd cond a b wa wb t) s fun s c => compareVec s c qd cond a b wa wb t.ty

/-- VSEL (R202). -/
def execVsel (d a b : BitVec 6) (wa wb : Bool) (qn : BitVec 3) (s : State) : Host.Outcome State Fault Refusal :=
  issueSeq (.vsel d a b wa wb qn) s fun s c => selectVec s c d a b wa wb qn

/-- VAND (R203). -/
def execVand (d a b : BitVec 6) (wa wb : Bool) (s : State) : Host.Outcome State Fault Refusal :=
  issueSeq (.vand d a b wa wb) s fun s c => vec2 s c d a b wa wb 8 fun _ x y => (x &&& y, 0)

/-- VOR (R203). -/
def execVor (d a b : BitVec 6) (wa wb : Bool) (s : State) : Host.Outcome State Fault Refusal :=
  issueSeq (.vor d a b wa wb) s fun s c => vec2 s c d a b wa wb 8 fun _ x y => (x ||| y, 0)

/-- VXOR (R203). -/
def execVxor (d a b : BitVec 6) (wa wb : Bool) (s : State) : Host.Outcome State Fault Refusal :=
  issueSeq (.vxor d a b wa wb) s fun s c => vec2 s c d a b wa wb 8 fun _ x y => (x ^^^ y, 0)

/-- VSHL (R204). -/
def execVshl (d a b : BitVec 6) (wa wb : Bool) (wid : Width) (s : State) : Host.Outcome State Fault Refusal :=
  issueSeq (.vshl d a b wa wb wid) s fun s c => vec2 s c d a b wa wb wid.bits fun _ x y => (laneShl wid.bits x y, 0)

/-- VSHR, logical (R204). -/
def execVshr (d a b : BitVec 6) (wa wb : Bool) (wid : Width) (s : State) : Host.Outcome State Fault Refusal :=
  issueSeq (.vshr d a b wa wb wid) s fun s c => vec2 s c d a b wa wb wid.bits fun _ x y => (laneShr wid.bits false x y, 0)

/-- VSHR, arithmetic (R204). -/
def execVshrArith (d a b : BitVec 6) (wa wb : Bool) (wid : Width) (s : State) : Host.Outcome State Fault Refusal :=
  issueSeq (.vshrArith d a b wa wb wid) s fun s c => vec2 s c d a b wa wb wid.bits fun _ x y => (laneShr wid.bits true x y, 0)

/-- VCVT (R205, R206). -/
def execVcvt (d a : BitVec 6) (wa : Bool) (src dst : CT) (rm : Option RMode) (s : State) : Host.Outcome State Fault Refusal :=
  issueSeq (.vcvt d a wa src dst rm) s fun s c => convertVec s c d a wa src.ty dst.ty rm

/-- VBCAST (R207). -/
def execVbcast (d a : BitVec 6) (wa : Bool) (wid : Width) (s : State) : Host.Outcome State Fault Refusal :=
  issueSeq (.vbcast d a wa wid) s fun s c => vecOp s c d [srcG a wa 0] false (512 / wid.bits) wid.bits fun r _ => ((gv r a).toNat, 0)

/-- VEXT (R207). -/
def execVext (d a b : BitVec 6) (wa wb : Bool) (wid : Width) (s : State) : Host.Outcome State Fault Refusal :=
  issueSeq (.vext d a b wa wb wid) s fun s c => extractLane s c d a b wa wb wid.bits

/-- VINS (R207). -/
def execVins (d a b : BitVec 6) (wa wb : Bool) (wid : Width) (s : State) : Host.Outcome State Fault Refusal :=
  issueSeq (.vins d a b wa wb wid) s fun s c => insertLane s c d a b wa wb wid.bits

/-- VPERM (R207). -/
def execVperm (d a b : BitVec 6) (wa wb : Bool) (wid : Width) (s : State) : Host.Outcome State Fault Refusal :=
  issueSeq (.vperm d a b wa wb wid) s fun s c => vecOp s c d (vv a b wa wb) false (512 / wid.bits) wid.bits fun r i =>
    (vlane r a wid.bits (vlane r b wid.bits i % (512 / wid.bits)), 0)

/-- VRED (R208). -/
def execVred (d a : BitVec 6) (wa : Bool) (op : RedOp) (t : VT) (s : State) : Host.Outcome State Fault Refusal :=
  issueSeq (.vred d a wa op t) s fun s c => reduceOp s c d [srcF .v a.toNat 0 wa] fun r => match t.ty with
    | .fp u =>
      let x := redFp u op r.rm (r.qr 0).val (r.vr a.toNat).val
      (w64 x.1, x.2)
    | .int n _ => (redInt n op (r.qr 0).val (r.vr a.toNat).val, 0)

/-- VDOT (R208). -/
def execVdot (d a b : BitVec 6) (wa wb : Bool) (t : VT) (s : State) : Host.Outcome State Fault Refusal :=
  issueSeq (.vdot d a b wa wb t) s fun s c => reduceOp s c d (vv a b wa wb) fun r => match t.ty with
    | .fp u =>
      let x := dotFp u r.rm (r.qr 0).val (r.vr a.toNat).val (r.vr b.toNat).val
      (w64 x.1, x.2)
    | .int n _ => (dotInt n (r.qr 0).val (r.vr a.toNat).val (r.vr b.toNat).val, 0)

/-- MAND (R209). -/
def execMand (d a b : BitVec 6) (wa wb : Bool) (s : State) : Host.Outcome State Fault Refusal :=
  issueSeq (.mand d a b wa wb) s fun s c => mask2 s c d a b wa wb (· &&& ·)

/-- MOR (R209). -/
def execMor (d a b : BitVec 6) (wa wb : Bool) (s : State) : Host.Outcome State Fault Refusal :=
  issueSeq (.mor d a b wa wb) s fun s c => mask2 s c d a b wa wb (· ||| ·)

/-- MXOR (R209). -/
def execMxor (d a b : BitVec 6) (wa wb : Bool) (s : State) : Host.Outcome State Fault Refusal :=
  issueSeq (.mxor d a b wa wb) s fun s c => mask2 s c d a b wa wb (· ^^^ ·)

/-- MNOT (R209). -/
def execMnot (d a : BitVec 6) (wa : Bool) (s : State) : Host.Outcome State Fault Refusal :=
  issueSeq (.mnot d a wa) s fun s c => compute s c ⟨.q, d.toNat⟩ [srcF .q a.toNat 0 wa] fun r => (.w (~~~(r.qr a.toNat).val), 0)

/-- MPOP (R209). -/
def execMpop (d a : BitVec 6) (wa : Bool) (s : State) : Host.Outcome State Fault Refusal :=
  issueSeq (.mpop d a wa) s fun s c => compute s c (gd d) [srcF .q a.toNat 0 wa] fun r => (.w (w64 (popcN (r.qr a.toNat).val)), 0)

/-- MSET (R210). -/
def execMset (d a : BitVec 6) (wa : Bool) (mode : MsetMode) (s : State) : Host.Outcome State Fault Refusal :=
  issueSeq (.mset d a wa mode) s fun s c => setMask s c d a wa mode

end Sys2Proof.Machine
end

