-- ==== Sys2Proof/Machine/Tile.lean ====
section
/-! DEFINITION. Chapter 7, second part: tile registers, the matrix unit and its steps, and TRANGE (R211 to R224). -/

namespace Sys2Proof.Machine

/-! ### Tiles (R211, R212) -/

/-- TCFGn; 0x3FC2 at reset (R30). -/
def tcfg (a : Arch) (n : Nat) : Word := Tab.get a.tcfg n 0x3FC2
/-- Format code of a TCFG value. -/
def cfgFmt (w : Word) : Nat := fld w 0 6
/-- Rows of a TCFG value. -/
def cfgRows (w : Word) : Nat := fld w 6 4 + 1
/-- Columns of a TCFG value. -/
def cfgCols (w : Word) : Nat := fld w 10 4 + 1
/-- Element type of a tile format (R211). -/
def tileTy (fmt : Nat) : LaneTy :=
  match fmt with
  | 0x03 => .fp fmt16
  | 0x04 => .fp fmtB16
  | 0x05 => .fp fmtE4M3
  | 0x06 => .fp fmtE5M2
  | 0x0A => .int 8 true
  | 0x0B => .int 8 false
  | 0x0E => .int 32 true
  | _ => .fp fmt32
/-- Element type of a TCFG value. -/
def cfgTy (w : Word) : LaneTy := tileTy (cfgFmt w)
/-- Element size in bytes. -/
def cfgSize (w : Word) : Nat := (cfgTy w).bits / 8

/-- Element (r, c) of a tile of this many columns (R211: row-major). -/
def elemAt (t : List Elem) (cols r c : Nat) : Elem := t.getD (r * cols + c) (.raw 0)
/-- A whole tile from its elements. -/
def tileOf (rows cols : Nat) (f : Nat → Nat → Elem) : List Elem :=
  (List.range (rows * cols)).map fun i => f (i / cols) (i % cols)
/-- An element as an exact value (R212). -/
def elemFp (t : LaneTy) (e : Elem) : Fp :=
  match e, t with
  | .val x, _ => x
  | .raw b, .fp u => decodeFp u b.toNat
  | .raw b, .int n sg => intFp (readInt n sg b.toNat)
/-- An element as an integer of its type. -/
def elemInt (t : LaneTy) (e : Elem) : Int :=
  match e, t with
  | .raw b, .int n sg => readInt n sg b.toNat
  | _, _ => 0
/-- An element's bits in its memory format: one of an FP8 tile is rounded, which makes a NaN canonical (R46, R216, R222). -/
def elemBits (t : LaneTy) (m : RMode) (e : Elem) : Nat × BitVec 6 :=
  match e, t with
  | .raw b, .fp u => if u.bits = 8 then roundTo u m (exact (decodeFp u b.toNat)) else (b.toNat, 0)
  | .raw b, .int _ _ => (b.toNat, 0)
  | .val x, .fp u => roundTo u m (exact x)
  | .val _, .int _ _ => (0, 0)
/-- An element of raw bits. -/
def rawElem (n : Nat) : Elem := .raw (BitVec.ofNat 32 n)

/-- Elements each computed with flags, and all the flags. -/
def collect (l : List (Nat × BitVec 6)) : List Elem × BitVec 6 := (l.map fun p => rawElem p.1, l.foldl (fun f p => f ||| p.2) 0)

/-! ### Tile loads and stores (R214 to R216) -/

/-- The signed row stride of a tile access word. -/
def tileStride (x : Word) : Int := (x.extractLsb' 0 32).toInt
/-- Whether an integer is a multiple of a size. -/
def multipleOf (x : Int) (n : Nat) : Bool := x % (n : Int) == 0

/-- The rows of a TLD through a block format: the whole address phase of every element (R215 step 1), and what decoding them gives (step 3). -/
def tileBlocks (s : State) (c : Nat) (ref : Word) (st : Int) (rows cols : Nat) (w : Want) (ls : List Label) : Except Stop (Decoded × List Acc) := do
  let parts : List (Decoded × List Acc) ← (List.range rows).mapM fun (r : Nat) => do
    let rr := refAdd ref (r * st)
    let h ← readRef s c rr cols 1 w
    let (xs, accs) ← readBlock s c rr w h ((List.range cols).map (refOff rr + ·))
    pageSpaceCheck accs ls
    raceCheck s c rr accs
    .ok (xs, accs)
  .ok ((parts.mapM fun (p : Decoded × List Acc) => p.1).map fun l => l.flatMap id, parts.flatMap fun (p : Decoded × List Acc) => p.2)

/-- TLD (R215). -/
def loadTile (s : State) (c : Nat) (d a : BitVec 6) (wa : Bool) (xn : BitVec 3) (hint : Hint) (disp : BitVec 5) : Except Stop State := do
  let r := (s.ctx c).arch
  let xs := [srcG a wa 0, srcF .x xn.toNat 3]
  memGate s c
  destReady r ⟨.k, d.toNat⟩
  readSrcs r xs
  let cfg := tcfg r d.toNat
  let ref := effRef (gv r a) disp 8
  let st := tileStride (r.xr xn.toNat).val
  let ls := srcLabels r xs
  let size := cfgSize cfg
  if blockFmt (refFmt ref) then do
    let w : Want := ⟨false, true, false, true, hint.code⟩
    let (xs, accs) ← tileBlocks s c ref st (cfgRows cfg) (cfgCols cfg) w ls
    if refOff ref % size ≠ 0 || !multipleOf st size then raise 0x16 ref
    if cfgFmt cfg ≠ 0x05 ∧ cfgFmt cfg ≠ 0x06 then raise 0x1A ref
    if refOff ref % 16 ≠ 0 || !multipleOf st 16 then raise 0x16 ref
    let es ← xs
    let ws := accLabels s c accs
    mixCheck ref ws
    .ok (launchLoad s c ⟨.k, d.toNat⟩ ref (labelsRead accs) (.elems (es.map .val)) (ls ++ ws) none)
  else do
    let parts ← (List.range (cfgRows cfg)).mapM fun (i : Nat) =>
      loadPhase s c (refAdd ref (i * st)) (cfgCols cfg * size) 1 (wantLoad hint) ls
    let accs := parts.flatMap id
    if refOff ref % size ≠ 0 || !multipleOf st size then raise 0x16 ref
    let ws := accLabels s c accs
    mixCheck ref ws
    .ok (launchLoad s c ⟨.k, d.toNat⟩ ref (labelsRead accs) (.tile size) (ls ++ ws) none)

/-- The elements that a tile access word enables (R216). -/
def enabledElems (x : Word) (rows cols : Nat) : List (Nat × Nat) :=
  (List.range rows).flatMap fun r => (List.range cols).filterMap fun c => if bit x (32 + r) && bit x (48 + c) then some (r, c) else none

/-- TST (R216): every enabled element passes its address phase before any is written. -/
def storeTile (s : State) (c : Nat) (d a : BitVec 6) (wa : Bool) (xn : BitVec 3) (hint : Hint) (disp : BitVec 5) : Except Stop State := do
  let r := (s.ctx c).arch
  let xs := [srcG a wa 0, srcF .k d.toNat 2, srcF .x xn.toNat 3]
  memGate s c
  readSrcs r xs
  let cfg := tcfg r d.toNat
  let ref := effRef (gv r a) disp 8
  let x := (r.xr xn.toNat).val
  let size := cfgSize cfg
  let ls := srcLabels r xs
  if blockFmt (refFmt ref) then do
    let _ ← readRef s c ref 0 1 (wantStore hint)
    raise 0x1A ref
  let parts ← (enabledElems x (cfgRows cfg) (cfgCols cfg)).mapM fun (p : Nat × Nat) => do
    let (accs, l) ← storePhase s c (refAdd ref (p.1 * tileStride x + (p.2 * size : Nat))) size size (wantStore hint) ls
    .ok (p, accs, l)
  let out := parts.map fun p => (p, elemBits (cfgTy cfg) r.rm (elemAt (r.kr d.toNat).val (cfgCols cfg) p.1.1 p.1.2))
  let t ← setFlags s c (out.foldl (fun f p => f ||| p.2.2) 0)
  let t ← storeRoom t c (out.flatMap fun p => p.1.2.1)
  .ok (noteStore (out.foldl (fun s p => doStore (noteAccess s c ref p.1.2.1) c p.1.2.1 (someBytes size p.2.1) p.1.2.2) t) c (out.flatMap fun p => p.1.2.1) ls)

/-! ### The checks of TM-format instructions (R218 to R224) -/

/-- The family of a source format of MMA (R219). -/
def mmaClass (fmt : Nat) : Option Nat :=
  match fmt with
  | 0x05 => some 0
  | 0x06 => some 0
  | 0x03 => some 1
  | 0x04 => some 2
  | 0x02 => some 3
  | 0x0A => some 4
  | 0x0B => some 4
  | _ => none
/-- Two tiles have one shape. -/
def sameShape (a b : Word) : Bool := fld a 6 8 == fld b 6 8
/-- A square FP32 tile. -/
def squareFp32 (a : Word) : Bool := cfgFmt a == 2 && cfgRows a == cfgCols a
/-- The first check that fails reports its tile's TCFG value. -/
def firstBad (l : List (Bool × Word)) : Option Word := (l.find? fun p => !p.1).map (·.2)

/-- The checks of MMA and MMAZ in order (R219). -/
def mmaCheck (cd ca cb : Word) (acc16 : Bool) : Option Word :=
  firstBad
    [((mmaClass (cfgFmt ca)).isSome, ca),
     (mmaClass (cfgFmt cb) == mmaClass (cfgFmt ca), cb),
     (if mmaClass (cfgFmt ca) == some 4 then !acc16 && cfgFmt cd == 0x0E else cfgFmt cd == if acc16 then 3 else 2, cd),
     (cfgRows ca == cfgRows cd, ca), (cfgCols ca == cfgRows cb, cb), (cfgCols cb == cfgCols cd, cb)]

/-- The shape and format checks of a TM-format instruction (R218, R219, R222 to R224): the TCFG value reported when one fails. -/
def matCheck (i : Instr) (cfg : Nat → Word) (x : Word) : Option Word :=
  match i with
  | .mma d a b _ acc16 => mmaCheck (cfg d.toNat) (cfg a.toNat) (cfg b.toNat) acc16
  | .mmaz d a b _ acc16 => mmaCheck (cfg d.toNat) (cfg a.toNat) (cfg b.toNat) acc16
  | .tcvt d a => firstBad [(sameShape (cfg d.toNat) (cfg a.toNat), cfg a.toNat)]
  | .tadd d a b =>
    firstBad [(fld (cfg d.toNat) 0 14 == fld (cfg a.toNat) 0 14, cfg a.toNat), (fld (cfg d.toNat) 0 14 == fld (cfg b.toNat) 0 14, cfg b.toNat)]
  | .tscale d a _ => firstBad [(fld (cfg d.toNat) 0 14 == fld (cfg a.toNat) 0 14, cfg a.toNat)]
  | .ttrans d a =>
    firstBad [(cfgRows (cfg d.toNat) == cfgCols (cfg a.toNat) && cfgCols (cfg d.toNat) == cfgRows (cfg a.toNat)
      && cfgFmt (cfg d.toNat) == cfgFmt (cfg a.toNat), cfg a.toNat)]
  | .trowv _ a _ => firstBad [(decide (fld x 0 4 < cfgRows (cfg a.toNat)), cfg a.toNat)]
  | .tvrow d _ _ => firstBad [(decide (fld x 0 4 < cfgRows (cfg d.toNat)), cfg d.toNat)]
  | .tfact d a _ _ _ =>
    firstBad [(squareFp32 (cfg d.toNat), cfg d.toNat), (squareFp32 (cfg a.toNat), cfg a.toNat), (sameShape (cfg d.toNat) (cfg a.toNat), cfg a.toNat)]
  | .tsolve d a b _ _ right =>
    firstBad [(cfgFmt (cfg d.toNat) == 2, cfg d.toNat), (squareFp32 (cfg a.toNat), cfg a.toNat), (cfgFmt (cfg b.toNat) == 2, cfg b.toNat),
      ((if right then cfgCols (cfg d.toNat) else cfgRows (cfg d.toNat)) == cfgRows (cfg a.toNat), cfg a.toNat),
      (sameShape (cfg d.toNat) (cfg b.toNat), cfg b.toNat)]
  | _ => none

/-- The cost of a TM-format instruction in cycles (R217). -/
def matCost (i : Instr) (cfg : Nat → Word) : Nat :=
  let mmaCost (a : BitVec 6) : Nat := match mmaClass (cfgFmt (cfg a.toNat)) with
    | some 0 => 2
    | some 4 => 2
    | some 3 => 16
    | _ => 4
  match i with
  | .mma _ a _ _ _ => mmaCost a
  | .mmaz _ a _ _ _ => mmaCost a
  | .tzero _ => 2
  | .tsolve _ _ _ _ _ _ => 128
  | .tfact _ _ _ _ _ => 256
  | _ => 4

/-! ### Acceptance (R16, R213, R217) -/

/-- A tile that an accepted instruction of the strand is still to fill, and no follow-on. -/
def tileQueued (s : State) (c : Nat) (n : Nat) : Bool :=
  accepted s c (s.plc c) ⟨.k, n⟩ && !awaitsFollow s c (s.plc c) ⟨.k, n⟩

/-- A register other than a tile that an accepted instruction of the strand is still to fill, and no follow-on: it does not hold back another TM-format
instruction that writes it (R16). -/
def destQueued (s : State) (c : Nat) (d : RegId) : Bool :=
  d.file != .k && accepted s c (s.plc c) d && !awaitsFollow s c (s.plc c) d

/-- The registers as a TM-format instruction reads them: a tile that an accepted instruction is still to fill counts as full, and its label
stands for the space of that instruction's product (R213). -/
def matView (s : State) (c : Nat) (a : Arch) (tiles : List Nat) : Arch :=
  tiles.foldl (fun a n => if (a.kr n).fe = .empty ∧ tileQueued s c n then a.setMeta ⟨.k, n⟩ (fullMeta (a.kr n).lab) else a) a

/-- Whether the matrix unit of a context's cell accepts one more instruction of a cost (R217). -/
def unitAccepts (s : State) (c : Nat) (cost : Nat) : Bool :=
  let q := (s.cell (cellOf c)).matrix
  decide ((q.filter fun o => o.c == c && o.plc == s.plc c).length < 4) && decide ((q.map (·.cost)).foldl (· + ·) 0 + cost ≤ 512)

/-- The operation that an instruction becomes: the rounding mode and tile configurations are read now (R211, R220). -/
def matOp (s : State) (c : Nat) (i : Instr) (xval : Option (Reg Word)) (waits : List Nat) (order : Nat) : MatOp :=
  let a := (s.ctx c).arch
  { ins := i
    c := c
    plc := s.plc c
    rm := a.rm
    cfgs := (matTiles i).map fun n => (n, tcfg a n)
    cost := matCost i (tcfg a)
    pc := a.pc
    xval := xval
    srcs := none
    pre := []
    waits := waits
    order := order
    preV := []
    preW := [] }

/-- A TM-format instruction is issued (R213, R217, R218): the checks, acceptance, and its destinations marked empty. -/
def issueMatrix (i : Instr) (s : State) (c : Nat) : Except Stop State := do
  let a := (s.ctx c).arch
  let v := matView s c a (matTiles i)
  let _ ← (matDests i).mapM fun d => if destQueued s c d then .ok () else destReady v d
  readSrcs v (matSrcs i)
  match matCheck i (tcfg a) ((matX i).elim 0 fun n => (a.xr n).val) with
    | some w => raise 0x1C w
    | none => .ok ()
  if !unitAccepts s c (matCost i (tcfg a)) then waits
  let ls := srcLabels v (matSrcs i)
  let op := { matOp s c i none [] 0 with pre := heldTiles a i }
  let s := (matDests i).foldl (fun s d => keepReg s c d) s
  let s := s.modArch c fun a => (matDests i).foldl (fun a d => markEmpty a d ls) a
  .ok (s.modCell (cellOf c) fun k => { k with matrix := k.matrix ++ [op] })

/-! ### What the unit computes -/

/-- The sources of an operation and the tile configurations read at issue. -/
structure MatIn where
  srcs : MSrcs
  cfg : Nat → Word
  rm : RMode

namespace MatIn
/-- The value of a tile. -/
def tile (m : MatIn) (n : BitVec 6) : List Elem := (Tab.get m.srcs.k n.toNat (.of [])).val
/-- The value of an x register. -/
def x (m : MatIn) (n : BitVec 3) : Word := (Tab.get m.srcs.x n.toNat (.of 0)).val
/-- The value of a vector register. -/
def vec (m : MatIn) (n : BitVec 6) : BitVec 512 := (Tab.get m.srcs.v n.toNat (.of 0)).val
/-- The configuration of a tile. -/
def cf (m : MatIn) (n : BitVec 6) : Word := m.cfg n.toNat
end MatIn

/-- One unmasked element of a floating-point MMA (R61 to R63): NV for a product ∞ × 0 and for infinities of both signs, whatever else is NaN. -/
def mmaElem (u : Fmt) (rm : RMode) (c : Fp) (ps : List Exact) : Nat × BitVec 6 :=
  let infs := (c :: ps.map (·.x)).filter Fp.isInf
  if (ps.any fun p => p.flags != 0) || (infs.any Fp.neg && infs.any fun x => !x.neg) then (u.nan, fNV)
  else roundTo u rm (sumFp rm (c :: ps.map (·.x)))

/-- MMA and MMAZ (R220). -/
def mmaTile (m : MatIn) (d a b : BitVec 6) (xn : BitVec 3) (acc16 zero : Bool) : List Elem × BitVec 6 :=
  let x := m.x xn
  let ta := cfgTy (m.cf a)
  let tb := cfgTy (m.cf b)
  let cols := cfgCols (m.cf d)
  let ks := (List.range (cfgCols (m.cf a))).filter fun k => bit x k
  let A (i k : Nat) := elemAt (m.tile a) (cfgCols (m.cf a)) i k
  let B (k j : Nat) := elemAt (m.tile b) (cfgCols (m.cf b)) k j
  let C (i j : Nat) := elemAt (m.tile d) cols i j
  let u := if acc16 then fmt16 else fmt32
  let cell (i j : Nat) : Elem × BitVec 6 :=
    if !(bit x (32 + i) && bit x (48 + j)) then (if zero then .raw 0 else C i j, 0)
    else if mmaClass (cfgFmt (m.cf a)) == some 4 then
      let c0 := if zero then 0 else elemInt (.int 32 true) (C i j)
      (rawElem (wrapInt 32 (ks.foldl (fun s k => s + elemInt ta (A i k) * elemInt tb (B k j)) c0)), 0)
    else
      let c0 : Fp := if zero then .zero true else elemFp (.fp u) (C i j)
      let r := mmaElem u m.rm c0 (ks.map fun k => mulFp (elemFp ta (A i k)) (elemFp tb (B k j)))
      (rawElem r.1, r.2)
  let out := (List.range (cfgRows (m.cf d) * cols)).map fun e => cell (e / cols) (e % cols)
  (out.map (·.1), out.foldl (fun f p => f ||| p.2) 0)

/-- A conversion of one element (R206, R212). -/
def cvtElem (src dst : LaneTy) (rm : RMode) (e : Elem) : Nat × BitVec 6 :=
  match e, dst with
  | .raw b, _ => laneCvt src dst rm b.toNat
  | .val x, .fp u => roundTo u rm (exact x)
  | .val x, .int n sg =>
    let r := fpToInt n sg rm x
    (wrapInt n r.1, r.2)

/-- Addition of two elements (R222). -/
def addElem (t : LaneTy) (rm : RMode) (x y : Elem) : Nat × BitVec 6 :=
  match t with
  | .fp u => roundTo u rm (sumFp rm [elemFp t x, elemFp t y])
  | .int n _ => (wrapInt n (elemInt t x + elemInt t y), 0)
/-- An element scaled by the x register (R222). -/
def scaleElem (t : LaneTy) (rm : RMode) (x : Word) (e : Elem) : Nat × BitVec 6 :=
  match t with
  | .fp u => roundTo u rm (mulFp (elemFp t e) (decodeFp fmt32 (fld x 0 32)))
  | .int n _ => (wrapInt n (elemInt t e * x.toInt), 0)

/-- A matrix of FP32 bit patterns with the flags raised so far. -/
structure FMat where
  n : Nat
  a : List Nat
  fl : BitVec 6
deriving DecidableEq, Repr

namespace FMat
/-- The pattern at (i, j) in rows of `n`. -/
def at_ (m : FMat) (i j : Nat) : Nat := m.a.getD (i * m.n + j) 0
/-- The value at (i, j). -/
def val (m : FMat) (i j : Nat) : Fp := decodeFp fmt32 (m.at_ i j)
/-- A rounded result written at (i, j). -/
def put (m : FMat) (i j : Nat) (r : Nat × BitVec 6) : FMat := { m with a := updAt (i * m.n + j) (fun _ => r.1) m.a, fl := m.fl ||| r.2 }
end FMat

/-- The pivot of column k (R223), and whether it is flagged. -/
def pivot (chol : Bool) (th rho p : Nat) : Nat × Bool :=
  let v := decodeFp fmt32 p
  let below := cmpFp (if chol then v else v.abs) (decodeFp fmt32 th) == some .lt
  if v.isNan || below then
    (canonNan fmt32 (rho % 2 ^ 31 + if chol then 0 else p / 2 ^ 31 * 2 ^ 31), true)
  else (p, false)

/-- One column of TFACT (R223). DESIGN CHOICE (log 105): its fused update raises the flags of a fused multiply-add, so that a product of zero and infinity is invalid also
beside a NaN addend; R50 names VFMA and VFMS alone. -/
def factStep (chol : Bool) (rm : RMode) (th rho : Nat) (st : FMat × Word) (k : Nat) : FMat × Word :=
  let m := st.1
  let pv := pivot chol th rho (m.at_ k k)
  let f := if pv.2 then st.2 ||| w64 (2 ^ k) else st.2
  let m := m.put k k (if chol then roundTo fmt32 rm (sqrtFp (decodeFp fmt32 pv.1)) else (pv.1, 0))
  let rows := (List.range m.n).filter fun i => decide (k < i)
  let m := rows.foldl (fun m i => m.put i k (roundTo fmt32 rm (divFp (m.val i k) (m.val k k)))) m
  let m := rows.foldl (fun m i => rows.foldl (fun m j =>
    if chol && decide (i < j) then m
    else m.put i j (roundTo fmt32 rm (fmaFp rm (m.val i k).negate (if chol then m.val j k else m.val k j) (m.val i j)))) m) m
  (m, f)

/-- TFACT (R223): the factor, the pivot flags, and the flags raised. -/
def factTile (m : MatIn) (a : BitVec 6) (xn : BitVec 3) (chol : Bool) : List Elem × Word × BitVec 6 :=
  let n := cfgRows (m.cf a)
  let x := m.x xn
  let t : FMat := ⟨n, (List.range (n * n)).map fun i => (elemBits (.fp fmt32) m.rm ((m.tile a).getD i (.raw 0))).1, 0⟩
  let r := (List.range n).foldl (factStep chol m.rm (fld x 0 32) (fld x 32 32)) (t, 0)
  (tileOf n n fun i j => if chol && decide (i < j) then .raw 0 else rawElem (r.1.at_ i j), r.2, r.1.fl)

/-- TSOLVE (R224): each element of X in its order of substitution. -/
def solveTile (m : MatIn) (d a b : BitVec 6) (upper unit right : Bool) : List Elem × BitVec 6 :=
  let n := cfgRows (m.cf a)
  let cols := cfgCols (m.cf d)
  let other := if right then cfgRows (m.cf d) else cols
  let T (i j : Nat) : Fp := elemFp (.fp fmt32) (elemAt (m.tile a) n i j)
  -- the order along the triangle's side: ascending for lower with right = 0 and upper with right = 1
  let up := upper == right
  let order := if up then List.range n else (List.range n).reverse
  let step (q : Nat) (x : FMat) (i : Nat) : FMat :=
    let done := if up then (List.range n).filter fun k => decide (k < i) else (List.range n).filter fun k => decide (i < k)
    let (r, c) := if right then (q, i) else (i, q)
    let terms := done.map fun k => mulFp (if right then x.val q k else T i k).negate (if right then T k i else x.val k q)
    let rhs := elemFp (.fp fmt32) (elemAt (m.tile b) cols r c)
    let y := roundTo fmt32 m.rm (sumProducts m.rm [rhs] terms)
    let z := if unit then (y.1, 0) else roundTo fmt32 m.rm (divFp (decodeFp fmt32 y.1) (T i i))
    x.put r c (z.1, y.2 ||| z.2)
  let x := (List.range other).foldl (fun x q => order.foldl (step q) x) ⟨cols, List.replicate (cfgRows (m.cf d) * cols) 0, 0⟩
  (x.a.map rawElem, x.fl)

/-- What a TM-format instruction writes, in the order of `matDests`, and the flags it raises (R219 to R224). -/
def matResult (i : Instr) (m : MatIn) : List RV × BitVec 6 :=
  match i with
  | .mma d a b xn acc16 => let r := mmaTile m d a b xn acc16 false; ([.k r.1], r.2)
  | .mmaz d a b xn acc16 => let r := mmaTile m d a b xn acc16 true; ([.k r.1], r.2)
  | .tzero _ => ([.k []], 0)
  | .tcvt d a =>
    let r := collect ((List.range (cfgRows (m.cf d) * cfgCols (m.cf d))).map fun e =>
      cvtElem (cfgTy (m.cf a)) (cfgTy (m.cf d)) m.rm ((m.tile a).getD e (.raw 0)))
    ([.k r.1], r.2)
  | .tadd d a b =>
    let r := collect ((List.range (cfgRows (m.cf d) * cfgCols (m.cf d))).map fun e =>
      addElem (cfgTy (m.cf d)) m.rm ((m.tile a).getD e (.raw 0)) ((m.tile b).getD e (.raw 0)))
    ([.k r.1], r.2)
  | .tscale d a xn =>
    let r := collect ((List.range (cfgRows (m.cf d) * cfgCols (m.cf d))).map fun e =>
      scaleElem (cfgTy (m.cf d)) m.rm (m.x xn) ((m.tile a).getD e (.raw 0)))
    ([.k r.1], r.2)
  | .ttrans d a =>
    let r := collect ((List.range (cfgRows (m.cf d) * cfgCols (m.cf d))).map fun e =>
      elemBits (cfgTy (m.cf d)) m.rm (elemAt (m.tile a) (cfgCols (m.cf a)) (e % cfgCols (m.cf d)) (e / cfgCols (m.cf d))))
    ([.k r.1], r.2)
  | .trowv _ a xn =>
    let t := cfgTy (m.cf a)
    let r := fld (m.x xn) 0 4
    let es := (List.range (cfgCols (m.cf a))).map fun c => (c, elemBits t m.rm (elemAt (m.tile a) (cfgCols (m.cf a)) r c))
    ([.v (es.foldl (fun v p => putLane t.bits v (p.1, p.2.1)) 0)], es.foldl (fun f p => f ||| p.2.2) 0)
  | .tvrow d a xn =>
    let cols := cfgCols (m.cf d)
    let t := cfgTy (m.cf d)
    let r := fld (m.x xn) 0 4
    ([.k (tileOf (cfgRows (m.cf d)) cols fun i j => if i = r then rawElem (lane (m.vec a) t.bits j) else elemAt (m.tile d) cols i j)], 0)
  | .tfact _ a _ xn chol => let r := factTile m a xn chol; ([.k r.1, .w r.2.1], r.2.2)
  | .tsolve d a b upper unit right => let r := solveTile m d a b upper unit right; ([.k r.1], r.2)
  | _ => ([], 0)

/-! ### The unit's steps -/

/-- The sources of an operation as they stand: one that a later instruction holds empty is read as it was before (R213, R261). DESIGN CHOICE (log 99): R213 does not
say how an empty register stands. -/
def takeSrcs (o : MatOp) (a : Arch) : MSrcs :=
  let rs := (matSrcs o.ins).map (·.r)
  let pick (f : RFile) : List Nat := (rs.filter fun r => r.file == f).map (·.n)
  { k := (pick .k).map fun n => (n, Tab.get o.pre n (a.kr n))
    v := (pick .v).map fun n => (n, Tab.get o.preV n (a.vr n))
    q := (pick .q).map fun n => (n, Tab.get o.preW (keptKey .q n) (a.qr n))
    x := (pick .x).map fun n => (n, o.xval.getD (Tab.get o.preW (keptKey .x n) (a.xr n))) }

/-- A source of an operation, no tile, has its value and waits for its label alone: the unit starts the operation when the label is there. -/
def srcsAwait (o : MatOp) (a : Arch) : Bool :=
  (matSrcs o.ins).any fun x => x.r.file != .k && (a.rmeta x.r).fe == .empty && (a.rmeta x.r).dueLab && !(a.rmeta x.r).dueData

/-- The state and label of a source that an operation took. -/
def MSrcs.rmeta (m : MSrcs) (r : RegId) : Reg Unit :=
  match r.file with
  | .k => (m.k.find? fun p => p.1 == r.n).elim (fullMeta .top) fun p => p.2.meta
  | .v => (m.v.find? fun p => p.1 == r.n).elim (fullMeta .top) fun p => p.2.meta
  | .q => (m.q.find? fun p => p.1 == r.n).elim (fullMeta .top) fun p => p.2.meta
  | .x => (m.x.find? fun p => p.1 == r.n).elim (fullMeta .top) fun p => p.2.meta
  | .g => fullMeta .top

/-- A register of a strand is written by the matrix unit; one that a later accepted instruction is still to fill stays empty (R16). -/
def leaveReg (s : State) (o : MatOp) (d : RegId) (v : RV) (m : Reg Unit) : State :=
  match v with
  | .k es => leaveTile s o.c o.plc d.n ((Reg.of es).withMeta m)
  | _ => if accepted s o.c o.plc d then s else (dropKept s o.c o.plc d).modArchOf o.c o.plc fun a => a.setReg d v m

/-- The completion of an operation with the sources it took (R213, R218): its destinations fill, faulted when a source tile was left faulted, and
its flags are ORed into STATUS.FLG. -/
def finishMat (s : State) (o : MatOp) (m : MSrcs) : State :=
  let xs := (matSrcs o.ins).map fun x => m.rmeta x.r
  let r := matResult o.ins ⟨m, fun n => Tab.get o.cfgs n 0x3FC2, o.rm⟩
  let q : Reg Unit × State := match xs.find? fun (x : Reg Unit) => x.fe == .faulted with
    | some x => (x, s)
    | none => resultMeta s o.c (xs.map fun (x : Reg Unit) => x.lab) o.pc
  let s := ((matDests o.ins).zip r.1).foldl (fun (s : State) (p : RegId × RV) => leaveReg s o p.1 p.2 q.1) q.2
  s.modArchOf o.c o.plc fun a => a.orFlags r.2

/-- TRANGE (R221): bit i of the mask is 1 when ga + i < gb as i64. -/
def rangeMask (a b : Word) : Nat := (List.range 16).foldl (fun (m i : Nat) => if a.toInt + (i : Int) < b.toInt then m + 2 ^ i else m) 0
end Sys2Proof.Machine

namespace Sys2Proof

/-- Where TRANGE puts its mask (R221). -/
def Dim.place : Dim → Nat
  | .rows => 32
  | .columns => 48
  | .depth => 0

end Sys2Proof

namespace Sys2Proof.Machine

/-! ### Meanings -/

/-- MMA (R219, R220). -/
def execMma (d a b : BitVec 6) (xn : BitVec 3) (acc16 : Bool) (s : State) : Host.Outcome State Fault Refusal :=
  issueSeq (.mma d a b xn acc16) s fun s c => issueMatrix (.mma d a b xn acc16) s c

/-- MMAZ (R219, R220). -/
def execMmaz (d a b : BitVec 6) (xn : BitVec 3) (acc16 : Bool) (s : State) : Host.Outcome State Fault Refusal :=
  issueSeq (.mmaz d a b xn acc16) s fun s c => issueMatrix (.mmaz d a b xn acc16) s c

/-- TZERO (R222). -/
def execTzero (d : BitVec 6) (s : State) : Host.Outcome State Fault Refusal :=
  issueSeq (.tzero d) s fun s c => issueMatrix (.tzero d) s c

/-- TCVT (R222). -/
def execTcvt (d a : BitVec 6) (s : State) : Host.Outcome State Fault Refusal :=
  issueSeq (.tcvt d a) s fun s c => issueMatrix (.tcvt d a) s c

/-- TADD (R222). -/
def execTadd (d a b : BitVec 6) (s : State) : Host.Outcome State Fault Refusal :=
  issueSeq (.tadd d a b) s fun s c => issueMatrix (.tadd d a b) s c

/-- TSCALE (R222). -/
def execTscale (d a : BitVec 6) (xn : BitVec 3) (s : State) : Host.Outcome State Fault Refusal :=
  issueSeq (.tscale d a xn) s fun s c => issueMatrix (.tscale d a xn) s c

/-- TTRANS (R222). -/
def execTtrans (d a : BitVec 6) (s : State) : Host.Outcome State Fault Refusal :=
  issueSeq (.ttrans d a) s fun s c => issueMatrix (.ttrans d a) s c

/-- TROWV (R222). -/
def execTrowv (d a : BitVec 6) (xn : BitVec 3) (s : State) : Host.Outcome State Fault Refusal :=
  issueSeq (.trowv d a xn) s fun s c => issueMatrix (.trowv d a xn) s c

/-- TVROW (R222). -/
def execTvrow (d a : BitVec 6) (xn : BitVec 3) (s : State) : Host.Outcome State Fault Refusal :=
  issueSeq (.tvrow d a xn) s fun s c => issueMatrix (.tvrow d a xn) s c

/-- TFACT (R223). -/
def execTfact (d a b : BitVec 6) (xn : BitVec 3) (chol : Bool) (s : State) : Host.Outcome State Fault Refusal :=
  issueSeq (.tfact d a b xn chol) s fun s c => issueMatrix (.tfact d a b xn chol) s c

/-- TSOLVE (R224). -/
def execTsolve (d a b : BitVec 6) (upper unit right : Bool) (s : State) : Host.Outcome State Fault Refusal :=
  issueSeq (.tsolve d a b upper unit right) s fun s c => issueMatrix (.tsolve d a b upper unit right) s c

/-- TLD (R215). -/
def execTld (d a : BitVec 6) (wa : Bool) (xn : BitVec 3) (hint : Hint) (disp : BitVec 5) (s : State) : Host.Outcome State Fault Refusal :=
  issueSeq (.tld d a wa xn hint disp) s fun s c => loadTile s c d a wa xn hint disp

/-- TST (R216). -/
def execTst (d a : BitVec 6) (wa : Bool) (xn : BitVec 3) (hint : Hint) (disp : BitVec 5) (s : State) : Host.Outcome State Fault Refusal :=
  issueSeq (.tst d a wa xn hint disp) s fun s c => storeTile s c d a wa xn hint disp

/-- TRANGE (R221). -/
def execTrange (d a b : BitVec 6) (wa wb : Bool) (dim : Dim) (s : State) : Host.Outcome State Fault Refusal :=
  issueSeq (.trange d a b wa wb dim) s fun s c => compute s c ⟨.x, d.toNat⟩ [srcG a wa 0, srcG b wb 1, srcF .x d.toNat 2] fun r =>
    (.w (putFld (r.xr d.toNat).val dim.place 16 (rangeMask (gv r a) (gv r b))), 0)

/-- MATRIX_INSTRUCTION_START: the oldest accepted instruction takes its sources as they stand (R213); one of a strand that is gone is dropped. -/
def execMatrixInstructionStart (cell : Nat) (s : State) : Host.Outcome State Fault Refusal :=
  match (s.cell cell).matrix with
  | o :: t =>
    if o.srcs.isSome then .next s
    else match s.archOf o.c o.plc with
      | some a => if srcsAwait o a then .next s else .next (s.modCell cell fun k => { k with matrix := { o with srcs := some (takeSrcs o a) } :: t })
      | none => .next (s.modCell cell fun k => { k with matrix := t })
  | [] => .next s

/-- MATRIX_INSTRUCTION_COMPLETE: the started instruction fills its destinations (R213, R217, R218). -/
def execMatrixInstructionComplete (cell : Nat) (s : State) : Host.Outcome State Fault Refusal :=
  match (s.cell cell).matrix with
  | o :: t => match o.srcs with
    | some m => .next (finishMat (s.modCell cell fun k => { k with matrix := t }) o m)
    | none => .next s
  | [] => .next s

/-- Every earlier producer of an operation's tiles has been accepted, or has filled its tile (R261). -/
def followReady (s : State) (cell : Nat) (o : MatOp) : Bool :=
  o.waits.isEmpty && !((s.cell cell).followOps.any fun p => p.c == o.c && p.plc == o.plc && decide (p.order < o.order)
    && (matDests p.ins).any fun d => d.file == .k && (matTiles o.ins).contains d.n)

/-- A follow-on whose copy stopped: each destination fills unchanged, with the label ⊥ (R261). -/
def dropFollow (s : State) (o : MatOp) : State :=
  (matDests o.ins).foldl (fun s d =>
    let a := (s.archOf o.c o.plc).getD .reset
    let v := match d.file with
      | .k => .k (Tab.get o.pre d.n (a.kr d.n)).val
      | _ => a.regVal d
    leaveReg s o d v (fullMeta .bot)) s

/-- FOLLOW_ON_OFFER: a follow-on whose copy has landed is accepted by the matrix unit, or, its copy stopped, leaves its destinations
unchanged (R217, R261). -/
def execFollowOnOffer (cell n : Nat) (s : State) : Host.Outcome State Fault Refusal :=
  match (s.cell cell).follows[n]? with
  | some (o, stopped) =>
    let gone := s.modCell cell fun k => { k with follows := takeOut n k.follows }
    if !followReady s cell o then .next s
    else if stopped then
      if (matDests o.ins).any fun d => accepted s o.c o.plc d then .next s else .next (dropFollow gone o)
    else if ((s.cell cell).matrix.filter fun p => p.c == o.c && p.plc == o.plc).length < 4
        ∧ ((s.cell cell).matrix.map (·.cost)).foldl (· + ·) 0 + o.cost ≤ 512 then
      .next (gone.modCell cell fun k => { k with matrix := k.matrix ++ [o] })
    else .next s
  | none => .next s

end Sys2Proof.Machine
end

