-- ==== Sys2Proof/Machine/Accum.lean ====
section
/-! DEFINITION. Chapter 7, third part: the long accumulator's instructions (R225 to R228), and the completion of long operations (R125, R208,
R228, R229). -/

namespace Sys2Proof.Machine

/-- The address phase of an accumulator (R226): 88 bytes aligned to 8, as a read or a read and a write; then the entry must be of kind 1. DESIGN CHOICE (log 28): R226 checks the
offset alone, and through a base that is no multiple of 8 the accumulator is the 88 bytes from base and offset, unrounded. -/
def accPhase (s : State) (c : Nat) (ref : Word) (read write : Bool) : Except Stop Acc := do
  let rd ← if read then refAccess s c ref 88 8 ⟨false, false, false, false, 0⟩ else .ok []
  let wr ← if write then refAccess s c ref 88 8 ⟨true, false, false, false, 0⟩ else .ok []
  let e ← handleEntry s c (refIdx ref)
  if e.kind ≠ 1 then raise 0x15 ref
  else match rd ++ wr with
    | a :: _ => .ok a
    | [] => waits

/-- The start of an accumulator instruction: the memory holds, at most 8 outstanding (R228), and the sources. -/
def accStart (s : State) (c : Nat) (xs : List Src) : Except Stop Arch := do
  let r := (s.ctx c).arch
  memGate s c
  if 8 ≤ ((s.ctx c).pend.filter fun p => match p with
    | .accum _ => true
    | _ => false).length then waits
  readSrcs r xs
  .ok r

/-- An accumulator instruction leaves: the context's earlier stores, and its barrier updates of the same words, have arrived, and it is performed before anything
later of the context on the same words (R228). -/
def accLeave (s : State) (c : Nat) (ref : Word) (op : AccOp) : State :=
  let s := ackBars (ackStores (noteHandle s c ref) c) c fun b => op.accs.any fun a => decide (a.addr < b + 16) && decide (b < a.addr + a.size)
  s.modCtx c fun x => { x with pend := x.pend ++ [.accum op] }

/-- What adding an exact value does (R67): the addend in units of 2^−320, or a status bit. -/
def accTerm (x : Fp) : Int × Nat :=
  match x with
  | .nan => (0, 1)
  | .inf neg => (0, if neg then 4 else 2)
  | .zero _ => (0, 0)
  | .fin neg m e => ((if neg then -1 else 1) * ((m * 2 ^ (e + 320).toNat : Nat) : Int), 0)
end Sys2Proof.Machine

namespace Sys2Proof

/-- The type of an ACCW operand (R225). -/
def AccIn.ty : AccIn → Machine.LaneTy
  | .fp32 => .fp Machine.fmt32
  | .fp16 => .fp Machine.fmt16
  | .bf16 => .fp Machine.fmtB16
  | .e4m3 => .fp Machine.fmtE4M3
  | .e5m2 => .fp Machine.fmtE5M2
  | .i8 => .int 8 true
  | .i16 => .int 16 true
  | .i32 => .int 32 true
  | .i64 => .int 64 true
  | .n8 => .int 8 false
  | .n16 => .int 16 false
  | .n32 => .int 32 false
  | .n64 => .int 64 false

end Sys2Proof

namespace Sys2Proof.Machine

/-- The exact value of an operand. -/
def operandFp (t : LaneTy) (x : Word) : Fp :=
  match t with
  | .fp u => decodeFp u (fld x 0 u.bits)
  | .int n sg => intFp (readInt n sg x.toNat)

/-- ACCZ, ACCW and ACCWP (R226, R227): the labels follow the store rules. -/
def accStore (s : State) (c : Nat) (ref : Word) (xs : List Src) (zero : Bool) (x : Fp) : Except Stop State := do
  let a ← accPhase s c ref true true
  let _ ← storeLabel s c ref [a] (srcLabels (s.ctx c).arch xs)
  .ok (noteStore (accLeave s c ref ⟨a.addr, zero, none, (accTerm x).1, (accTerm x).2, ref, (s.ctx c).seq⟩) c [a] (srcLabels (s.ctx c).arch xs))

/-- ACCM (R226, R228). -/
def accMerge (s : State) (c : Nat) (a b : BitVec 6) (wa wb : Bool) : Except Stop State := do
  let xs := [srcG a wa 0, srcG b wb 1]
  let r ← accStart s c xs
  let dst ← accPhase s c (gv r a) true true
  let src ← accPhase s c (gv r b) true false
  if dst.addr ≠ src.addr ∧ overlaps (accAcc 0 dst.addr) (accAcc 0 src.addr) then raise 0x16 (gv r b)
  let _ ← storeLabel s c (gv r a) [dst] (srcLabels r xs)
  .ok (noteStore (accLeave (noteHandle s c (gv r b)) c (gv r a) ⟨dst.addr, false, some src.addr, 0, 0, gv r a, (s.ctx c).seq⟩) c [dst] (srcLabels r xs))

/-- The value of an accumulator rounded to a format, and its flags (R69): the rows of the rule from the top. -/
def accRound (u : Fmt) (m : RMode) (v : Int) (st : Nat) : Nat × BitVec 6 :=
  if st % 2 = 1 then (u.nan, 0)
  else if st / 2 % 4 = 3 then (u.nan, fNV)
  else if st / 2 % 2 = 1 then (u.infinity false, 0)
  else if st / 4 % 2 = 1 then (u.infinity true, 0)
  else if st / 8 % 2 = 1 then (u.nan, fNV)
  else roundTo u m (exact (ofScaled v (-320) false))

/-- ACCR (R226 to R228): the accumulator is read at issue, after the context's earlier instructions on its words; a flag that is enabled
traps with gd unchanged; gd is marked empty and fills later. An uncorrectable word defers the data error fault (R157). -/
def accRead (s : State) (c : Nat) (d a : BitVec 6) (wa : Bool) (u : Fmt) : Except Stop State := do
  let xs := [srcG a wa 0]
  let r := (s.ctx c).arch
  memGate s c
  destReady r (gd d)
  readSrcs r xs
  let ref := gv r a
  let x ← accPhase s c ref true false
  let s := ackStores (settle (noteHandle s c ref) c [accAcc ref x.addr]) c
  match accsBad s c [accAcc ref x.addr] with
    | some y => .ok (defer (meetBad s c [y]) c ⟨⟨0x18, 0, y.va, 0⟩, some (gd d), none⟩)
    | none => do
      let q := accRound u r.rm (accValue s x.addr) (s.num (x.addr + 80) 8)
      let s ← setFlags s c q.2
      .ok (startLong s c .acc ⟨gd d, .w (w64 q.1), srcLabels r xs, r.pc⟩)

/-! ### Meanings -/

/-- ACCZ (R227). -/
def execAccz (a : BitVec 6) (wa : Bool) (s : State) : Host.Outcome State Fault Refusal :=
  issueSeq (.accz a wa) s fun s c => do
    let r ← accStart s c [srcG a wa 0]
    accStore s c (gv r a) [srcG a wa 0] true (.zero false)

/-- ACCWP (R67, R227). -/
def execAccwp (d a b : BitVec 6) (wa wb : Bool) (s : State) : Host.Outcome State Fault Refusal :=
  issueSeq (.accwp d a b wa wb) s fun s c => do
    let xs := [srcG a wa 0, srcG b wb 1, srcG d true 2]
    let r ← accStart s c xs
    accStore s c (gv r d) xs false (mulFp (operandFp (.fp fmt32) (gv r a)) (operandFp (.fp fmt32) (gv r b))).x

/-- ACCR to FP32 (R69, R227). -/
def execAccr (d a : BitVec 6) (wa : Bool) (s : State) : Host.Outcome State Fault Refusal :=
  issueSeq (.accr d a wa) s fun s c => accRead s c d a wa fmt32

/-- ACCR to FP64 (R69, R227). -/
def execAccrFp64 (d a : BitVec 6) (wa : Bool) (s : State) : Host.Outcome State Fault Refusal :=
  issueSeq (.accrFp64 d a wa) s fun s c => accRead s c d a wa fmt64

/-- ACCM (R70, R227). -/
def execAccm (a b : BitVec 6) (wa wb : Bool) (s : State) : Host.Outcome State Fault Refusal :=
  issueSeq (.accm a b wa wb) s fun s c => accMerge s c a b wa wb

/-- ACCW (R67, R227). -/
def execAccw (a b : BitVec 6) (wa wb : Bool) (ty : AccIn) (s : State) : Host.Outcome State Fault Refusal :=
  issueSeq (.accw a b wa wb ty) s fun s c => do
    let xs := [srcG a wa 0, srcG b wb 1]
    let r ← accStart s c xs
    accStore s c (gv r a) xs false (operandFp ty.ty (gv r b))

/-! ### Completions -/

/-- Removes an operation in flight. -/
def dropPend (s : State) (c n : Nat) : State := s.modCtx c fun x => { x with pend := takeOut n x.pend }

/-- DIVIDE_COMPLETE: the divider's result fills its register (R125). -/
def execDivideComplete (c n : Nat) (s : State) : Host.Outcome State Fault Refusal :=
  match (s.ctx c).pend[n]? with
  | some (.div r) => .next (deliverDue (dropPend s c n) c r)
  | _ => .next s

/-- VECTOR_LONG_COMPLETE: a long vector operation or reduction fills its register (R208, R229). -/
def execVectorLongComplete (c n : Nat) (s : State) : Host.Outcome State Fault Refusal :=
  match (s.ctx c).pend[n]? with
  | some (.vlong r) => .next (deliverDue (dropPend s c n) c r)
  | _ => .next s

/-- ACCUMULATOR_COMPLETE: an outstanding accumulator instruction is performed as one action, an ACCM as two, or an ACCR fills its register (R228). -/
def execAccumulatorComplete (c n : Nat) (s : State) : Host.Outcome State Fault Refusal :=
  match (s.ctx c).pend[n]? with
  | some (.acc r) => .next (deliverDue (dropPend s c n) c r)
  | some (.accum op) =>
    if ((s.ctx c).pend.take n).any fun p => p.accs.any fun a => op.accs.any fun b => overlaps a b then .next s
    else .next (accAction s c n)
  | _ => .next s

end Sys2Proof.Machine
end

