-- ==== Sys2Proof/Machine/Claims.lean ====
section
/-! DEFINITION. Chapter 8, second part: claims (R244 to R252), and the steps of the Alembic partitions (R367 to R374). -/

namespace Sys2Proof.Machine

/-! ### Names, partitions and sets (R245, R367) -/

/-- The name that x4, x5 and x6 give in the context's partition. -/
def claimName (a : Arch) : CName :=
  ⟨BitVec.ofNat 6 a.partition, (a.xr 4).val, (a.xr 5).val, (a.xr 6).val.extractLsb' 0 32⟩

/-- The key of a name. -/
def nameKey (n : CName) : Word := hashW (hashW n.func n.arg) (w64 (n.part.toNat * 2 ^ 32 + n.ver.toNat))
/-- The Alembic partition of a name: a set bit of the tenant's allowed mask. -/
def namePart (s : State) (n : CName) : Nat :=
  let bits := (List.range 64).filter fun i => (s.part n.part.toNat).am.getLsbD i
  bits.getD (fld (nameKey n) 32 32 % bits.length) 0
/-- The set of a name. -/
def nameSet (n : CName) : Nat := fld (nameKey n) 0 12

/-- The entry of a name. -/
def findClaim (s : State) (n : CName) : Option Claim := s.claims.find? fun e => e.name == n
/-- Whether a strand is the maker of an entry. -/
def Claim.madeBy (e : Claim) (c : Nat) (plc : Word) : Bool := !e.done && e.maker == c && e.makerPlc == plc
/-- The state with an entry put first, as the most recently used. -/
def touchClaim (s : State) (e : Claim) : State := { s with claims := e :: s.claims.filter fun x => !(x.name == e.name) }

/-- The done entry of a full set that makes room (R250): the least recently used of class bypass, then short-lived, default, long-lived. -/
def claimVictim (es : List Claim) : Option Claim :=
  let last (k : BitVec 2) : Option Claim := (es.filter fun e => e.done && e.cls == k).getLast?
  (last 3).orElse fun _ => (last 1).orElse fun _ => (last 0).orElse fun _ => last 2

/-- The entry of a new maker is created, when its set has or makes room (R246). -/
def createClaim (s : State) (r : ClaimReq) : Option State :=
  let p := namePart s r.name
  let st := nameSet r.name
  let es := s.claims.filter fun e => e.p == p && e.set == st
  let new : Claim := ⟨p, st, r.name, false, r.c, r.plc, [], 0, 0⟩
  if es.length < 16 then some { s with claims := new :: s.claims }
  else (claimVictim es).map fun v => { s with claims := new :: s.claims.filter fun e => !(e == v) }

/-- What CLAIM would return for a name at this moment, or 5 without an entry (R251). -/
def stateCode (s : State) (n : CName) : Nat :=
  match findClaim s n with
  | some e => if e.done then 2 else 1
  | none => 5

/-- A return to a claim is on its way (R246, R247). -/
def claimReturn (s : State) (r : ClaimReq) (code : Word) (ref : Word) (acq : Bool) : State :=
  { s with claimRets := s.claimRets ++ [⟨r.c, r.plc, code, ref, acq, if r.kind = .cldrop then some r.dst else none⟩] }

/-! ### The instructions -/

/-- The implicit sources x4, x5 and x6. -/
def nameSrcs : List Src := [srcF .x 4 3, srcF .x 5 4, srcF .x 6 5]

/-- A claim request leaves for its partition. -/
def sendClaim (s : State) (c : Nat) (kind : ClaimKind) (d : RegId) : State :=
  let a := (s.ctx c).arch
  { s with claimReqs := s.claimReqs ++ [⟨kind, c, s.plc c, claimName a, d, srcLabels a nameSrcs, a.pc, 0⟩] }

/-- The destinations of a claim are empty, and the context waits for its return (R246, R247). -/
def awaitClaim (s : State) (c : Nat) (d : RegId) : State :=
  let a := (s.ctx c).arch
  let ls := srcLabels a nameSrcs
  let old := a.rmeta d
  let s := (keepReg s c ⟨.x, 7⟩).modCtx c fun x => { x with
    arch := markEmpty (markEmpty x.arch d ls) ⟨.x, 7⟩ ls
    pend := x.pend ++ [.wait .claim 0 (some d) old] }
  { s with claimOuts := s.claimOuts ++ [⟨c, s.plc c, d, true, ls, a.pc⟩] }

/-- The start of a claim instruction with destination `d`: it waits for an earlier claim (R247). -/
def claimStart (s : State) (c : Nat) (ds : List RegId) : Except Stop Unit := do
  let a := (s.ctx c).arch
  memGate s c
  let _ ← ds.mapM fun d => destReady a d
  readSrcs a nameSrcs

/-- CLAIM (R246). -/
def claimName1 (s : State) (c : Nat) (d : RegId) : Except Stop State := do
  claimStart s c [d, ⟨.x, 7⟩]
  .ok (awaitClaim (sendClaim s c .claim d) c d)

/-- FULFIL and ABANDON up to their sending (R248, R249, R371, R391): the release, no register empty, and a point after the instruction; the
request leaves once a point is complete. -/
def commitHeld (i : Instr) (s : State) (c : Nat) (r : Committed) : Except Stop State := do
  let s ← release s c Scope.device.code
  if (s.ctx c).arch.anyEmpty then waits
  let pc := (s.ctx c).arch.pc
  let t := (makePoint (advance i s c) c).modArch c fun a => { a with pc := pc }
  .ok (t.modCtx c fun x => { x with committed := x.committed ++ [(x.seq, r)] })

/-- The end of an instruction that held for its partition's answer: 0 when the caller was the maker, otherwise the code of the claim state
fault (R251, R371). -/
def heldEnd (i : Instr) (s : State) (c : Nat) (ans : Word) : Except Stop State :=
  if ans = 0 then .ok (advance i s c) else raise 0x1D ans

/-! ### Meanings -/

/-- CLAIM (R246). -/
def execClaim (d : BitVec 6) (s : State) : Host.Outcome State Fault Refusal :=
  issueSeq (.claim d) s fun s c => claimName1 s c (gd d)

/-- CLAIMW (R247): issue is held until the partition has acted; a caller that is the maker takes the claim state fault. -/
def execClaimw (d : BitVec 6) (s : State) : Host.Outcome State Fault Refusal :=
  issue (.claimw d) s fun s c => twoPhase s c (do
      claimStart s c [gd d, ⟨.x, 7⟩]
      .ok (sendClaim s c .claimw (gd d)))
    fun ans => if ans = 0 then .ok (advance (.claimw d) (awaitClaim s c (gd d)) c) else raise 0x1D 0

/-- FULFIL (R248, R251). -/
def execFulfil (a : BitVec 6) (wa : Bool) (cls : Hint) (s : State) : Host.Outcome State Fault Refusal :=
  issue (.fulfil a wa cls) s fun s c => twoPhase s c (do
      let r := (s.ctx c).arch
      memGate s c
      readSrcs r (srcG a wa 0 :: nameSrcs)
      if !(r.gr a.toNat).lab.isTop then raise 0x09 (gv r a)
      else commitHeld (.fulfil a wa cls) s c (.fulfil (gv r a) (BitVec.ofNat 2 cls.code)))
    (heldEnd (.fulfil a wa cls) s c)

/-- ABANDON (R249, R251). -/
def execAbandon (s : State) : Host.Outcome State Fault Refusal :=
  issue (.abandon) s fun s c => twoPhase s c (do
      memGate s c
      readSrcs (s.ctx c).arch nameSrcs
      commitHeld .abandon s c .abandon)
    (heldEnd .abandon s c)

/-- CLDROP's destination is empty until it returns; nothing else waits for that (R249). -/
def awaitDrop (s : State) (c : Nat) (d : RegId) : State :=
  let a := (s.ctx c).arch
  let ls := srcLabels a nameSrcs
  let old := a.rmeta d
  let s := s.modCtx c fun x => { x with
    arch := markEmpty x.arch d ls
    pend := x.pend ++ [.wait .free s.stamp (some d) old] }
  { s with
    claimOuts := s.claimOuts ++ [⟨c, s.plc c, d, false, ls, a.pc⟩]
    stamp := s.stamp + 1 }

/-- CLDROP (R249). -/
def execCldrop (d : BitVec 6) (s : State) : Host.Outcome State Fault Refusal :=
  issueSeq (.cldrop d) s fun s c => do
    claimStart s c [gd d]
    .ok (awaitDrop (sendClaim s c .cldrop (gd d)) c (gd d))

/-! ### The partitions' steps -/

/-- The partition of a request has power. -/
def partUp (s : State) (r : ClaimReq) : Bool := (s.col (namePart s r.name)).stationPower

/-- A request is acted on and gone. -/
def acted (s : State) (n : Nat) : State := { s with claimReqs := takeOut n s.claimReqs }

/-- A CLAIM, or a CLAIMW of a name without another maker, creates an entry, returns a result, or finds no room (R246, R247). -/
def claimOrMake (s : State) (r : ClaimReq) (makerAcq : Bool) : State :=
  match findClaim s r.name with
  | some e => if e.done then claimReturn (touchClaim s e) r 2 e.result true else claimReturn s r (if e.madeBy r.c r.plc then 0 else 1) 0 false
  | none => match createClaim s r with
    | some t => claimReturn t r 0 0 makerAcq
    | none => claimReturn s r 3 0 false

/-- Waiter records of a partition in use (R247). -/
def waitersOf (s : State) (p : Nat) : Nat := ((s.claims.filter fun e => e.p == p).map fun e => e.waiters.length).foldl (· + ·) 0

/-- A waiter put into the list by its arrival stamp (R176, R247). -/
def insWaiter (w : CWaiter) : List CWaiter → List CWaiter
  | [] => [w]
  | x :: t => if w.stamp < x.stamp then w :: x :: t else x :: insWaiter w t

/-- A CLAIMW that a partition refused waits with a stamp before this one (R176, R247). -/
def claimBefore (s : State) (p stamp : Nat) : Bool :=
  s.claimReqs.any fun x => x.kind == .claimw && x.stamp != 0 && decide (x.stamp < stamp) && namePart s x.name == p

/-- A CLAIMW on a making entry of another maker parks, or, with every waiter record in use or an earlier one refused, is refused and keeps its stamp
(R247, R369). -/
def parkClaim (s : State) (n : Nat) (r : ClaimReq) (e : Claim) : State :=
  let stamp := if r.stamp = 0 then s.stamp + 1 else r.stamp
  let s := { s with stamp := max s.stamp stamp }
  if 512 ≤ waitersOf s e.p ∨ claimBefore s e.p stamp then { s with claimReqs := updAt n (fun r => { r with stamp := stamp }) s.claimReqs }
  else
    let s := { acted s n with claims := s.claims.map fun x => if x == e then { x with waiters := insWaiter ⟨r.c, r.plc, stamp⟩ x.waiters } else x }
    answerHold s r.c r.plc 0

/-- ALEMBIC_CLAIM_ARRIVAL: a CLAIM or CLAIMW at its partition (R246, R247, R370). -/
def execAlembicClaimArrival (n : Nat) (s : State) : Host.Outcome State Fault Refusal :=
  match s.claimReqs[n]? with
  | some r => match r.kind with
    | .claim => .next (if partUp s r then claimOrMake (acted s n) r false else claimReturn (acted s n) r 3 0 false)
    | .claimw =>
      if !partUp s r then .next (answerHold (claimReturn (acted s n) r 3 0 false) r.c r.plc 0)
      else match findClaim s r.name with
        | some e =>
          if e.done then .next (answerHold (claimOrMake (acted s n) r true) r.c r.plc 0)
          else if e.madeBy r.c r.plc then .next (answerHold (acted s n) r.c r.plc 1)
          else .next (parkClaim s n r e)
        | none => .next (answerHold (claimOrMake (acted s n) r true) r.c r.plc 0)
    | _ => .next s
  | none => .next s

/-- A FULFIL by the maker: the entry is done and its waiters are served in order; of class bypass, it is then removed (R248). -/
def fulfilClaim (s : State) (e : Claim) (ref : Word) (cls : BitVec 2) : State :=
  let s := { s with
    claimRets := s.claimRets ++ e.waiters.map fun w => ⟨w.c, w.plc, 2, ref, true, none⟩
    claims := s.claims.map fun x => if x == e then { e with done := true, waiters := [], result := ref, cls := cls } else x }
  if cls = 3 then { s with claims := s.claims.filter fun x => !(x.name == e.name) } else s

/-- A maker's own request changes its entry in one step; anyone else's changes nothing, and is told what CLAIM would return (R251, R370, R371). -/
def asMaker (s : State) (r : ClaimReq) (f : State → Claim → State) : State :=
  if !partUp s r then answerHold s r.c r.plc 5
  else match findClaim s r.name with
    | some e => if e.madeBy r.c r.plc then answerHold (f s e) r.c r.plc 0 else answerHold s r.c r.plc (w64 (stateCode s r.name))
    | none => answerHold s r.c r.plc 5

/-- A FULFIL or an ABANDON is acted on at its partition (R248, R249). -/
def makerRequest (s : State) (r : ClaimReq) : State :=
  match r.kind with
  | .fulfil ref cls => asMaker s r fun s e => fulfilClaim s e ref cls
  | .abandon => asMaker s r State.handover
  | _ => s

/-- The FULFIL or ABANDON of a strand that has left its cell is acted on: a request to stop the strand is served after the answer (R371). -/
def settleClaims (s : State) (c : Nat) (plc : Word) : State :=
  let mine (r : ClaimReq) : Bool := r.c == c && r.plc == plc && match r.kind with
    | .fulfil _ _ => true
    | .abandon => true
    | _ => false
  (s.claimReqs.filter mine).foldl makerRequest { s with claimReqs := s.claimReqs.filter fun r => !mine r }

/-- ALEMBIC_FULFIL_ARRIVAL: a FULFIL at its partition (R248, R251, R371). -/
def execAlembicFulfilArrival (n : Nat) (s : State) : Host.Outcome State Fault Refusal :=
  match s.claimReqs[n]? with
  | some r => match r.kind with
    | .fulfil _ _ => .next (makerRequest (acted s n) r)
    | _ => .next s
  | none => .next s

/-- ALEMBIC_ABANDON_ARRIVAL: an ABANDON at its partition (R249, R251). -/
def execAlembicAbandonArrival (n : Nat) (s : State) : Host.Outcome State Fault Refusal :=
  match s.claimReqs[n]? with
  | some r => match r.kind with
    | .abandon => .next (makerRequest (acted s n) r)
    | _ => .next s
  | none => .next s

/-- ALEMBIC_CLDROP_ARRIVAL: a CLDROP at its partition (R249). -/
def execAlembicCldropArrival (n : Nat) (s : State) : Host.Outcome State Fault Refusal :=
  match s.claimReqs[n]? with
  | some r => match r.kind with
    | .cldrop =>
      let t := acted s n
      if !partUp s r then .next (claimReturn t r 0 0 false)
      else match findClaim s r.name with
        | some e =>
          if e.done then .next (claimReturn { t with claims := t.claims.filter fun x => !(x == e) } r 1 0 false)
          else .next (claimReturn t r 2 0 false)
        | none => .next (claimReturn t r 0 0 false)
    | _ => .next s
  | none => .next s

/-- The wait of a claim instruction is over: of a CLDROP by its register, otherwise of the CLAIM or CLAIMW. -/
def endClaimWait (drop : Option RegId) (ps : List Pend) : List Pend := ps.filter fun p => match p with
  | .wait .claim _ _ _ => drop.isSome
  | .wait .free _ d _ => drop.isNone || d != drop
  | _ => true

/-- Whether a return answers what a context waits for. -/
def ClaimRet.answers (r : ClaimRet) (o : ClaimOut) : Bool :=
  o.c == r.c && o.plc == r.plc && match r.drop with
    | some d => !o.x7 && o.dst == d
    | none => o.x7

/-- CLAIM_RETURN: a return fills d and x7, live or saved, after its acquire (R246, R247, R312, R374). The return of a CLAIMW that still holds issue comes
after the instruction's end. -/
def execClaimReturn (n : Nat) (s : State) : Host.Outcome State Fault Refusal :=
  match s.claimRets[n]? with
  | some r => match s.claimOuts.find? r.answers with
    | some o =>
      let s := { s with
        claimRets := takeOut n s.claimRets
        claimOuts := s.claimOuts.filter fun x => !(x == o) }
      let s := if r.acq then onStrand s r.c r.plc fun s => acquire s r.c Scope.device.code else s
      let s := s.modPendOf r.c r.plc (endClaimWait r.drop)
      let s := fillOf s r.c r.plc o.dst (.w r.code) o.labs o.pc
      .next (if o.x7 then fillOf (dropKept s r.c r.plc ⟨.x, 7⟩) r.c r.plc ⟨.x, 7⟩ (.w r.ref) o.labs o.pc else s)
    | none =>
      if ((s.ctx r.c).hold.isSome && s.plc r.c == r.plc) || (s.ctx r.c).save.any (fun v => v.hold.isSome && v.strand.plc == r.plc) then .next s
      else .next { s with claimRets := takeOut n s.claimRets }
  | none => .next s

end Sys2Proof.Machine
end

