-- ==== Sys2Proof/Machine/Engines.lean ====
section
/-! DEFINITION. Chapter 9, first part: the instructions of the copy engine, the multicast counters, the transaction barriers, the gather engine
and the encoders (R254 to R275). -/

namespace Sys2Proof.Machine

/-- Later memory, barrier and engine instructions wait for a TBWAIT or TBTIME that has not returned (R271). -/
def barGate (s : State) (c : Nat) : Except Stop Unit :=
  if (s.ctx c).pend.any fun p => match p with
    | .wait .bar _ _ _ => true
    | _ => false
  then waits else .ok ()

/-- An engine operand (R40: no parameter window). -/
def wantEngine (write block : Bool) : Want := ⟨write, false, false, block, 0⟩

/-! ### Launch clean (R308) -/

/-- The lines of a footprint of rows: of an entry of kind 0 or 3 its physical lines, where an address without a translation is the engine's to meet; of kind 1
or 2 those of the scratchpad. -/
def footLines (s : State) (c : Nat) (e : HEntry) (rows : List Int) (n : Nat) : List Nat :=
  let part := BitVec.ofNat 6 (s.ctx c).arch.partition
  let line (va : Nat) : Option Nat :=
    if e.kind = 1 then some (spadAddr (cellOf c) va / 64)
    else if e.kind = 2 then some (spadAddr e.tcell va / 64)
    else (walkTable s part va).map fun t => physOf t va / 64
  (rows.flatMap fun (o : Int) => (List.range (n / 64 + 2)).filterMap fun (i : Nat) =>
    line (((e.base : Int) + o + 64 * (i : Int)) % (2 ^ 57 : Nat)).toNat).eraseDups

/-- A PUT of a strand to one of these lines has not reached its home (R308 step 3). -/
def putOnWay (s : State) (c : Nat) (lines : List Nat) : Bool :=
  (s.reqs ++ s.refused ++ s.kept).any fun r => r.c == c && r.plc == s.plc c && r.kind == .put && lines.contains (r.addr / 64)

/-- A dirty line of the cell's L1 among these cannot reach its slice (R308 step 2, R443). -/
def dirtyHeld (s : State) (c : Nat) (lines : List Nat) : Bool :=
  (s.cell (cellOf c)).l1.any fun x => lines.contains x.line && !((dirtyBytes x).isEmpty && (dirtyLabs x).isEmpty) && !ctxReaches s c (64 * x.line)

/-- The launch clean of these lines: the context's loads, passes, barrier updates and accumulator instructions there are performed, its buffer entries for
them drain, the dirty bytes of the cell's L1 in them are written to L2, its stores on their way arrive, and its interval number advances. It holds issue
while such a store, a PUT or a dirty line cannot reach its home. -/
def launchClean (s : State) (c : Nat) (lines : List Nat) : Except Stop State :=
  if (darkStore s c fun a => lines.contains (a / 64)) || putOnWay s c lines || dirtyHeld s c lines then waits
  else
    let s := settle s c (lines.map fun l => spadAcc 0 (64 * l) 64)
    let s := lines.foldl (fun s l => l1Clean (wcbDrainLine s c l) (cellOf c) l) s
    .ok ((ackStores s c).modCtx c fun x => { x with ivl := x.ivl + 1 })

/-! ### Copies (R257 to R261) -/

/-- The shape of a copy: extents, strides of source and destination. -/
structure Shape where
  d0 : Nat
  d1 : Nat
  d2 : Nat
  ss1 : Int
  ds1 : Int
  ss2 : Int
  ds2 : Int
deriving DecidableEq, Repr

/-- The shape that CPSHAPE, CPSTR0 and CPSTR1 give (R30): a d1 or d2 of 0 is read as 1. -/
def copyShape (shape str0 str1 : Word) : Shape :=
  ⟨fld shape 0 24, max 1 (fld shape 24 16), max 1 (fld shape 40 16),
    sextInt (fld str0 0 32) 32, sextInt (fld str0 32 32) 32, sextInt (fld str1 0 32) 32, sextInt (fld str1 32 32) 32⟩

namespace Shape
/-- Bytes moved. -/
def total (h : Shape) : Nat := h.d0 * h.d1 * h.d2
/-- Offset of row (i, j) under two strides. -/
def row (s1 s2 : Int) (i j : Nat) : Int := (i : Int) * s1 + (j : Int) * s2
/-- The offsets of every row, in the order of R397. -/
def rows (h : Shape) (s1 s2 : Int) : List Int := (List.range h.d2).flatMap fun j => (List.range h.d1).map fun i => row s1 s2 i j
/-- The lowest byte's offset from the reference's. -/
def low (h : Shape) (s1 s2 : Int) : Int := min 0 (((h.d1 : Int) - 1) * s1) + min 0 (((h.d2 : Int) - 1) * s2)
/-- The highest byte's offset from the reference's. -/
def high (h : Shape) (s1 s2 : Int) : Int := max 0 (((h.d1 : Int) - 1) * s1) + max 0 (((h.d2 : Int) - 1) * s2) + h.d0 - 1
end Shape

/-- The number of blocks, the directory length and the block bound of an EFP8 encode (R400). -/
def encodeSize (src dst : Word) (d0 : Nat) : Nat × Nat × Nat :=
  let b := refLbl dst
  let nb := (d0 + 2 ^ b * elemSize (refFmt src) - 1) / (2 ^ b * elemSize (refFmt src))
  (nb, 8 * ((nb + 1) / 2), (2 + 2 ^ (b - 1) + (10 * 2 ^ b + 7) / 8 + 7) / 8 * 8)

/-- A reference names a block-scaled object. -/
def scaledRef (ref : Word) : Bool := refFmt ref == 7 || refFmt ref == 8
/-- The byte offset at which a copy's footprint begins: off, or, where off counts the elements of a block-scaled object (R54), the byte of that element, and for
the first element of a block the block's start. DESIGN CHOICE (log 90): R257 speaks of bytes from off alone, and the start of a block is what lets a copy move its
scale. -/
def copyOff (ref : Word) : Nat :=
  let b := 2 ^ refLbl ref
  if scaledRef ref then refOff ref / b * (b + 8) + (if refOff ref % b = 0 then 0 else 8 + refOff ref % b) else refOff ref
/-- What the bound check compares the bytes of a footprint with: the bound, or, where that counts the elements of an EFP8 object, whose bytes are as many as their
codes need, the end of its region (R54, R58, log 90). -/
def boundEnd (ref : Word) (e : HEntry) : Nat := if refFmt ref = 9 then efp8End e (refLbl ref) else e.bound
/-- The offset that the bound check compares for a byte of a footprint: its own, or that of its block's element (R54, log 90). -/
def boundOff (ref : Word) (o : Int) : Int :=
  let b : Int := (2 ^ refLbl ref : Nat)
  if scaledRef ref then o / (b + 8) * b + max 0 (o % (b + 8) - 8) else o

/-- `read_ref` for one byte at a signed offset from an entry's base, as CPGO checks its footprints (R257). A fault
reports the reference of that byte (DEDUCED, log 29). -/
def byteCheck (s : State) (c : Nat) (ref : Word) (o : Int) (w : Want) : Except Stop HEntry := do
  let e ← handleEntry s c (refIdx ref)
  let fmt := refFmt ref
  let at_ := refAdd ref (boundOff ref o - refOff ref)
  if !e.valid || decide (4 < e.kind) || e.reserved then raise 0x13 at_
  else if decide (0x11 < fmt) || (blockFmt fmt && (decide (refLbl ref < 4) || decide (8 < refLbl ref) || !w.block)) then raise 0x1A at_
  else if o < 0 ∨ (boundEnd ref e : Int) < boundOff ref o + 1 then raise 0x14 at_
  else if (!w.write && !e.rd) || (w.write && !e.wr) || e.kind == 4 then raise 0x15 at_
  else if e.kind = 1 then
    if ((s.cell (cellOf c)).spadSize : Int) < e.base + o + 1 then raise 0x14 at_ else .ok e
  else if e.kind = 2 then do
    let away ← checkPeer s c at_ e
    if ((if away then 0x100000 else (s.cell e.tcell).spadSize : Nat) : Int) < e.base + o + 1 then raise 0x14 at_ else .ok e
  else .ok e

/-- Both ends of a footprint: its lowest and then its highest byte. -/
def spanCheck (s : State) (c : Nat) (ref : Word) (lo hi : Int) (w : Want) : Except Stop HEntry := do
  let _ ← byteCheck s c ref lo w
  byteCheck s c ref hi w

/-- The TM-format majors (R257). -/
def followMajor (ins : Nat) : Bool := [0x6E, 0x6F, 0x72, 0x74, 0x75].contains (ins % 256 / 2) && ins % 2 == 1

/-- Tiles that a producer other than a TM-format instruction or a follow-on is still to fill: a load, or the answer to an LSET. -/
def lateTile (s : State) (c n : Nat) : Bool :=
  (s.ctx c).pend.any (fun p => match p with
    | .load d _ _ _ _ _ _ => d == ⟨.k, n⟩
    | _ => false)
  || s.labelJobs.any fun j => j.c == c && j.plc == s.plc c && j.dst == some ⟨.k, n⟩

/-- The checks of CPGO on CPFOLLOW.ins, and the operation it becomes (R257, R261): the decode fault that issuing it would raise, and the illegal instruction fault
where there is none; its x register is read now. -/
def followOp (s : State) (c : Nat) (ins : Nat) : Except Stop MatOp := do
  let a := (s.ctx c).arch
  match decode ins with
  | .error _ => raise 0x01 (w64 ins)
  | .ok i =>
    if !allotOk i (s.cell (cellOf c)).mode then raise 0x02 (w64 ins)
    if a.pl < i.level then raise 0x03 (w64 ins)
    if !followMajor ins then raise 0x01 (w64 ins)
    readSrcs a ((matSrcs i).filter fun x => x.r.file == .x)
    match matCheck i (tcfg a) ((matX i).elim 0 fun n => (a.xr n).val) with
      | some w => raise 0x1C w
      | none => .ok ()
    let op := matOp s c i ((matX i).map fun n => a.xr n) ((matTiles i).filter (lateTile s c)) (s.cell (cellOf c)).copyOrder
    .ok { op with pre := heldTiles a i }

/-- The destinations of a follow-on are empty; they are kept for the operations before it (R213, R261). -/
def emptyDests (s : State) (c : Nat) (ds : List RegId) : State :=
  let s := ds.foldl (fun s d => keepReg s c d) s
  s.modArch c fun a => ds.foldl (fun a d => markEmpty a d []) a

/-- The seven staging registers (R257). -/
def staging (a : Arch) : List Word := [a.cpsrc, a.cpdst, a.cpshape, a.cpstr0, a.cpstr1, a.cpbar, a.cpfollow]

/-- The job of a strand, live or saved. -/
def jobOf (s : State) (c : Nat) (plc : Word) : Option Nat :=
  if liveStrand s c plc then (s.ctx c).strand.map fun t => t.job else ((s.ctx c).save.filter fun v => v.strand.plc == plc).map fun v => v.strand.job

/-- A receiver of a launch that is skipped (R263): of another partition, or without a strand of the launch's job. -/
def skipsReceiver (s : State) (part : BitVec 6) (job : Option Nat) (c : Nat) : Bool :=
  (s.cell c).part != part ||
  !((List.range 16).any fun i =>
    let x := s.ctx (16 * c + i)
    (x.strand.any fun t => some t.job == job) || (x.save.any fun v => some v.strand.job == job))

/-- The receivers of a mask that a launch skips. -/
def skippedMask (s : State) (n : Nat) (part : BitVec 6) (job : Option Nat) (m : BitVec 16) : BitVec 16 :=
  (List.range 16).foldl (fun (v : BitVec 16) i => if m.getLsbD i && skipsReceiver s part job (n / 16 * 16 + i) then v ||| (1 <<< i) else v) 0

/-- CPGO and CPMC (R257, R262): the checks in order, the launch clean, and the job queued to the cell's copy engine. A context has at most one job
that waits for a slot (R258). A receiver that the launch skips keeps its slot (R263). -/
def launchCopy (s : State) (c : Nat) (d : RegId) (multi : Option (BitVec 16)) : Except Stop State := do
  let a := (s.ctx c).arch
  let n := cellOf c
  if (s.cell n).cwait.any fun p => p.c == c && p.plc == s.plc c then waits
  if multi.any fun m => (List.range 16).any fun i => m.getLsbD i && Tab.get (s.cell n).slots i 0 == 0 then waits
  let mode := fld a.cpshape 56 2
  if 1 < mode then raise 0x01 a.cpshape
  let h := copyShape a.cpshape a.cpstr0 a.cpstr1
  let off (r : Word) : Int := (copyOff r : Nat)
  let src ← if h.d0 = 0 then Except.ok (none : Option HEntry)
    else some <$> spanCheck s c a.cpsrc (off a.cpsrc + h.low h.ss1 h.ss2) (off a.cpsrc + h.high h.ss1 h.ss2) (wantEngine false true)
  let dst ← if h.d0 = 0 then (if multi.isSome then some <$> handleEntry s c (refIdx a.cpdst) else Except.ok (none : Option HEntry))
    else if mode = 1 then do
      let e ← handleEntry s c (refIdx a.cpdst)
      let (nb, dl, w) := encodeSize a.cpsrc a.cpdst h.d0
      some <$> spanCheck s c a.cpdst e.bdir ((e.bdir : Int) + dl + nb * w - 1) (wantEngine true true)
    else if refFmt a.cpdst = 9 then raise 0x1A a.cpdst
    else some <$> spanCheck s c a.cpdst (off a.cpdst + h.low h.ds1 h.ds2) (off a.cpdst + h.high h.ds1 h.ds2) (wantEngine true true)
  if multi.isSome && dst.any fun e => e.kind != 1 then raise 0x15 a.cpdst
  if bit a.cpbar 20 && decide ((s.cell n).spadSize < fld a.cpbar 0 20 + 16) then raise 0x14 a.cpbar
  let follow ← if bit a.cpfollow 32 then some <$> followOp s c (fld a.cpfollow 0 32) else Except.ok (none : Option MatOp)
  let lines := match src with
    | some e => footLines s c e ((h.rows h.ss1 h.ss2).map fun o => off a.cpsrc + o) h.d0
    | none => []
  let s ← launchClean s c lines
  let s := emptyDests s c (d :: follow.elim [] fun o => matDests o.ins)
  let skip := skippedMask s n (BitVec.ofNat 6 a.partition) (jobOf s c (s.plc c)) (multi.getD 0)
  let job : Copy := { c := c, plc := s.plc c, part := BitVec.ofNat 6 a.partition, snap := staging a, src := src, dst := dst, multi := multi.isSome,
                      mask := multi.getD 0, order := (s.cell n).copyOrder, reg := some d, tid := 0, pos := 0, credited := 0, skip := 0,
                      ended := false, out := 0, skipped := skip, follow := follow, replay := false, node := none, parts := [] }
  .ok (s.modCell n fun k => { k with
    cwait := k.cwait ++ [job]
    copyOrder := k.copyOrder + 1
    slots := match multi with
      | some m => (List.range 16).foldl (fun t i => if m.getLsbD i && !skip.getLsbD i then Tab.put t i (Tab.get t i 0 - 1) else t) k.slots
      | none => k.slots })

/-- CPMC (R262, R263): a mask of 0 launches nothing. -/
def multicast (s : State) (c : Nat) (d a : BitVec 6) (wa : Bool) : Except Stop State := do
  let r := (s.ctx c).arch
  barGate s c
  destReady r (gd d)
  readSrcs r [srcG a wa 0]
  let mask := (gv r a).extractLsb' 0 16
  if mask = 0 then .ok (fillTop s c (gd d) (.w 0x100)) else launchCopy s c (gd d) (some mask)

/-! ### Transaction barriers (R266 to R271) -/

/-- The barrier that a reference names (R266, R268): 16 bytes of own or peer scratchpad. The offset in the reference is a multiple of 16; the
barrier lies at a 16-byte-aligned scratchpad offset, so a handle base that is no multiple of 16 names the aligned 16 bytes its address lies in
(DEDUCED, log 28). -/
def barrierAt (s : State) (c : Nat) (ref : Word) (write : Bool) : Except Stop Nat := do
  let w := wantEngine write false
  let e ← readRef s c ref 16 1 w
  if e.kind ≠ 1 ∧ e.kind ≠ 2 then raise 0x15 ref
  if refOff ref % 16 ≠ 0 then raise 0x16 ref
  let accs ← locate s c ref (refOff ref) 16 w e
  .ok ((accs.head?.map fun x => x.addr).getD 0 / 16 * 16)

/-- A barrier request leaves, behind the context's earlier accesses to the record (R156). -/
def sendBar (s : State) (c : Nat) (ref : Word) (addr : Nat) (op : BarOp) : State :=
  let s := ackStores (settle (noteHandle s c ref) c [spadAcc ref addr 16]) c
  { s with barReqs := s.barReqs ++ [⟨c, addr, ref, op, (s.ctx c).seq⟩] }

/-- TBINIT and TBEXP (R269). -/
def barUpdate (s : State) (c : Nat) (a b : BitVec 6) (wa wb : Bool) (op : Word → BarOp) : Except Stop State := do
  let r := (s.ctx c).arch
  barGate s c
  readSrcs r [srcG a wa 0, srcG b wb 1]
  viewTest s c [srcG a wa 0]
  let addr ← barrierAt s c (gv r a) true
  .ok (noteView (sendBar s c (gv r a) addr (op (gv r b))) c r [srcG a wa 0])

/-- TBARR (R269): the release, then one arrival. -/
def barArrival (s : State) (c : Nat) (a : BitVec 6) (wa : Bool) (sc : Scope) : Except Stop State := do
  let r := (s.ctx c).arch
  barGate s c
  readSrcs r [srcG a wa 0]
  viewTest s c [srcG a wa 0]
  let addr ← barrierAt s c (gv r a) true
  let s ← release s c sc.code
  .ok (noteView (sendBar s c (gv r a) addr .arrive) c r [srcG a wa 0])

/-- TBWAIT and TBTIME (R270): d is empty, and the wait queues at the home; a reserved scope is illegal. -/
def barWait (i : Instr) (s : State) (c : Nat) (d a b : BitVec 6) (wa wb timed : Bool) : Except Stop State := do
  let r := (s.ctx c).arch
  barGate s c
  destReady r (gd d)
  readSrcs r [srcG a wa 0, srcG b wb 1]
  viewTest s c [srcG a wa 0]
  match Scope.ofCode (fld (gv r b) 4 3) with
  | .error _ => raise 0x01 i.image
  | .ok sc =>
    let addr ← barrierAt s c (gv r a) false
    let old := r.rmeta (gd d)
    let w : BarWait := ⟨c, s.plc c, gd d, (gv r b).extractLsb' 0 4, sc, s.tsc, if timed then some (fld (gv r b) 8 56) else none, s.stamp, gv r a, none, r.pc⟩
    let s := s.modCtx c fun x => { x with
      arch := markEmpty x.arch (gd d) []
      pend := x.pend ++ [.wait .bar s.stamp (some (gd d)) old] }
    .ok (noteView (sendBar { s with stamp := s.stamp + 1 } c (gv r a) addr (.wait w)) c r [srcG a wa 0])

/-! ### Gathers (R272, R273) and encoder frames (R275) -/

/-- The implicit sources of GATH. -/
def gathSrcs (d : BitVec 6) : List Src := [srcG d true 2, srcF .x 0 3, srcF .x 1 4, srcF .x 2 5, srcF .x 3 6]

/-- count, rowb and iw of a gather's shape word. -/
def gatherShape (x2 : Word) : Nat × Nat × Nat := (fld x2 0 32, fld x2 32 16, fld x2 48 8)

/-- The range checks on a gather's shape word (R272). -/
def gatherShapeOk (x2 : Word) : Bool :=
  let (_, rowb, iw) := gatherShape x2
  rowb % 8 == 0 && decide (8 ≤ rowb) && (iw == 4 || iw == 8) && fld x2 56 8 == 0

/-- The address phase of a region that an engine is to read or write (R254, R273); a conflict that does not fault is logged (R326). -/
def regionPhase (s : State) (c : Nat) (ref : Word) (n align : Nat) (w : Want) (l : Label) : Except Stop (HEntry × List Acc) := do
  let e ← readRef s c ref n align w
  let accs ← locate s c ref (refOff ref) n w e
  pageSpaceCheck accs [l]
  raceCheck s c ref accs
  .ok (e, accs)

/-- The handle and read permission checks of R39 alone, and the alignment of the offset, as GATH makes them on its table (R273). -/
def tableCheck (s : State) (c : Nat) (ref : Word) : Except Stop HEntry := do
  let e ← handleEntry s c (refIdx ref)
  if !e.valid || decide (4 < e.kind) || e.reserved then raise 0x13 ref
  else if !e.rd || e.kind == 4 then raise 0x15 ref
  else if refOff ref % 8 ≠ 0 then raise 0x16 ref
  else .ok e

/-- GATH (R272, R273). -/
def launchGather (s : State) (c : Nat) (d : BitVec 6) (hint : Hint) : Except Stop State := do
  let a := (s.ctx c).arch
  let n := cellOf c
  barGate s c
  readSrcs a (gathSrcs d)
  viewTest s c (gathSrcs d)
  let bar ← barrierAt s c (gv a d) true
  let x0 := (a.xr 0).val
  let x1 := (a.xr 1).val
  let x2 := (a.xr 2).val
  let x3 := (a.xr 3).val
  if !gatherShapeOk x2 then raise 0x1A x2
  let (count, rowb, iw) := gatherShape x2
  let (e0, as0) ← regionPhase s c x0 (count * iw) iw (wantEngine false false) (a.xr 0).lab
  let (e3, as3) ← regionPhase s c x3 (count * rowb) 8 (wantEngine true false) (a.xr 3).lab
  let e1 ← tableCheck s c x1
  let noted (s : State) : State := raceNote (raceNote s c as0 false 0) c as3 true 0
  if count = 0 then .ok (noteView (noted s) c a (gathSrcs d))
  else
    if 16 ≤ ((s.col (colOf n)).gathers.filter fun g => g.cell == n).length then waits
    let s ← launchClean (noteView (noted s) c a (gathSrcs d)) c (footLines s c e0 [(refOff x0 : Int)] (count * iw))
    .ok (({ s with stamp := s.stamp + 1 } : State).modCol (colOf n) fun k => { k with
      gathers := k.gathers ++ [{ cell := n, c := c, plc := s.plc c, part := BitVec.ofNat 6 a.partition, x0 := x0, x1 := x1, x2 := x2, x3 := x3,
                                 e0 := e0, e1 := e1, e3 := e3, hint := BitVec.ofNat 2 hint.code, bar := bar, ref := gv a d, idx := [], moved := 0,
                                 credited := 0, node := none, parts := [], gid := s.stamp }] })

/-- The sources of ENCPOST. -/
def encSrcs (a b : BitVec 6) (wa wb : Bool) : List Src := [srcG a wa 0, srcG b wb 1, srcF .x 0 3, srcF .x 1 4]

/-- ENCPOST (R275): the checks, the release, and the frame offered to its stream. -/
def postFrame (s : State) (c : Nat) (d a b : BitVec 6) (wa wb : Bool) : Except Stop State := do
  let r := (s.ctx c).arch
  barGate s c
  destReady r (gd d)
  readSrcs r (encSrcs a b wa wb)
  viewTest s c [srcG a wa 0, srcF .x 0 3, srcF .x 1 4]
  let (e, as_) ← regionPhase s c (gv r a) 1 1 (wantEngine false false) (r.gr a.toNat).lab
  let bar ← barrierAt s c (r.xr 1).val true
  let s ← release (raceNote s c as_ false 0) c Scope.device.code
  let f : Frame := { stream := fld (gv r b) 0 10, part := BitVec.ofNat 6 r.partition, ref := gv r a,
                     va := if e.kind = 0 then some ((e.base + refOff (gv r a)) % 2 ^ 57) else none, pts := (r.xr 0).val,
                     bar := some (bar, (r.xr 1).val), c := c, dst := some ⟨gd d, .w 0, [], r.pc⟩, plc := s.plc c, node := none }
  .ok (noteView { s.modArch c fun x => markEmpty x (gd d) [] with frames := s.frames ++ [f] } c r [srcG a wa 0, srcF .x 0 3, srcF .x 1 4])

/-! ### Meanings -/

/-- CPGO (R257). -/
def execCpgo (d : BitVec 6) (s : State) : Host.Outcome State Fault Refusal :=
  issueSeq (.cpgo d) s fun s c => (do barGate s c; destReady (s.ctx c).arch (gd d); launchCopy s c (gd d) none)

/-- CPMC (R262). -/
def execCpmc (d a : BitVec 6) (wa : Bool) (s : State) : Host.Outcome State Fault Refusal :=
  issueSeq (.cpmc d a wa) s fun s c => multicast s c d a wa

/-- SLOTRET (R264): the release, then a committed request to the sender's cell. -/
def execSlotret (a b : BitVec 6) (wa wb : Bool) (s : State) : Host.Outcome State Fault Refusal :=
  issue (.slotret a b wa wb) s fun s c => do
    let r := (s.ctx c).arch
    barGate s c
    readSrcs r [srcG a wa 0, srcG b wb 1]
    let s ← release s c Scope.column.code
    commit (.slotret a b wa wb) s c (.slotret (cellOf c / 16 * 16 + fld (gv r a) 0 4) c (gv r b))

/-- SLOTQ (R265). -/
def execSlotq (d a : BitVec 6) (wa : Bool) (s : State) : Host.Outcome State Fault Refusal :=
  issueSeq (.slotq d a wa) s fun s c => do
    barGate s c
    compute s c (gd d) [srcG a wa 0] fun r => (.w ((Tab.get (s.cell (cellOf c)).slots (fld (gv r a) 0 4) 0).setWidth 64), 0)

/-- TBINIT (R269). -/
def execTbinit (a b : BitVec 6) (wa wb : Bool) (s : State) : Host.Outcome State Fault Refusal :=
  issueSeq (.tbinit a b wa wb) s fun s c => barUpdate s c a b wa wb fun v => .init (v.extractLsb' 0 20)

/-- TBEXP (R269). -/
def execTbexp (a b : BitVec 6) (wa wb : Bool) (s : State) : Host.Outcome State Fault Refusal :=
  issueSeq (.tbexp a b wa wb) s fun s c => barUpdate s c a b wa wb fun v => .expect (v.extractLsb' 0 32)

/-- TBARR (R269). -/
def execTbarr (a : BitVec 6) (wa : Bool) (sc : Scope) (s : State) : Host.Outcome State Fault Refusal :=
  issueSeq (.tbarr a wa sc) s fun s c => barArrival s c a wa sc

/-- TBWAIT (R270). -/
def execTbwait (d a b : BitVec 6) (wa wb : Bool) (s : State) : Host.Outcome State Fault Refusal :=
  issueSeq (.tbwait d a b wa wb) s fun s c => barWait (.tbwait d a b wa wb) s c d a b wa wb false

/-- TBTIME (R270). -/
def execTbtime (d a b : BitVec 6) (wa wb : Bool) (s : State) : Host.Outcome State Fault Refusal :=
  issueSeq (.tbtime d a b wa wb) s fun s c => barWait (.tbtime d a b wa wb) s c d a b wa wb true

/-- ENCPOST (R275). -/
def execEncpost (d a b : BitVec 6) (wa wb : Bool) (s : State) : Host.Outcome State Fault Refusal :=
  issueSeq (.encpost d a b wa wb) s fun s c => postFrame s c d a b wa wb

/-- GATH (R272). -/
def execGath (d : BitVec 6) (hint : Hint) (s : State) : Host.Outcome State Fault Refusal :=
  issueSeq (.gath d hint) s fun s c => launchGather s c d hint

end Sys2Proof.Machine
end

