-- ==== Sys2Proof/Machine/Sched.lean ====
section
/-! DEFINITION. Chapter 9, second part, and chapter 19 as far as an instruction reaches it: reservations and requests of a strand that ends, nodes and
graphs and their completion (R417 to R421), retirement (R278), cancelling (R432), and the scheduling instructions (R276 to
R279). -/

namespace Sys2Proof.Machine

/-! ### The requests and reservations of a strand that ends (R177, R182) -/

/-- A record charged to a strand's partition. -/
def recordStrand (s : State) (c : Nat) (part : BitVec 6) (code : Nat) (obj det : Word) : State :=
  s.record ⟨s.tsc, 0, BitVec.ofNat 14 c, BitVec.ofNat 8 code, Config.severity code, part, obj, det⟩

/-- Reservations of a strand are passed on as if by SCREL. -/
def passAll (s : State) (c : Nat) (plc : Word) : State :=
  ((s.homes.filter fun (p : Nat × Home) => p.2.holder.any fun r => r.of c plc).map fun (p : Nat × Home) => p.1).foldl passOn s

/-- Its queued requests are removed; the value of a TAKE that was served and not delivered is discarded with a record. -/
def removeRequests (s : State) (c : Nat) (plc : Word) (part : BitVec 6) : State :=
  let keep (l : List Req) : List Req := l.filter fun r => !r.of c plc
  let mine (w : BarWait) : Bool := w.c == c && w.plc == plc
  let lost := s.deliveries.filter fun d => d.req.of c plc && d.req.kind == .take
  let s := { s with
    reqs := keep s.reqs
    refused := keep s.refused
    kept := keep s.kept
    notices := keep s.notices
    deliveries := s.deliveries.filter fun d => !d.req.of c plc
    barReqs := s.barReqs.filter fun r => match r.op with
      | .wait w => !mine w
      | _ => true
    barRets := s.barRets.filter fun p => !mine p.1
    homes := s.homes.map fun p => (p.1, { p.2 with
      readers := keep p.2.readers
      writers := keep p.2.writers
      queue := keep p.2.queue
      waiters := p.2.waiters.filter fun w => !mine w }) }
  lost.foldl (fun (s : State) (d : Delivery) => recordStrand s c part 0x54 d.req.va d.val) s

/-- Both image slots of a context are emptied when a strand of it ends, and no image of that strand is written any more (R380). -/
def clearImages (s : State) (c : Nat) (plc : Word) : State :=
  let other (i : Image) : Bool := i.strand.plc != plc
  { s with images := Tab.put s.images c (none, none) }.modCtx c fun x => { x with
    writing := x.writing.filter other
    waiting := x.waiting.filter other }

/-! ### Jobs, graphs and nodes -/

/-- Job `j`. -/
def findJob (s : State) (j : Nat) : Option Job := s.jobs.find? fun x => x.id == j
/-- Changes job `j`. -/
def modJob (s : State) (j : Nat) (f : Job → Job) : State := { s with jobs := s.jobs.map fun x => if x.id == j then f x else x }
/-- Changes a graph of a job. -/
def modGraph (s : State) (j g : Nat) (f : Graph → Graph) : State := modJob s j fun x => { x with graphs := updAt g f x.graphs }
/-- Changes a node of a graph. -/
def modNode (s : State) (r : NodeRef) (f : Node → Node) : State := modGraph s r.job r.graph fun x => { x with nodes := updAt r.node f x.nodes }
/-- A graph of a job. -/
def findGraph (s : State) (j g : Nat) : Option Graph := (findJob s j).bind fun x => x.graphs[g]?
/-- A node of a graph in progress. -/
def findNode (s : State) (r : NodeRef) : Option Node := (findGraph s r.job r.graph).bind fun x => if x.done then none else x.nodes[r.node]?

/-- The aligned word that holds a virtual address of a partition, as the scheduler reads it (R413); none when it cannot be read. -/
def partAligned (s : State) (part : BitVec 6) (va : Nat) : Option Word :=
  (walkTable s part (va % 2 ^ 57)).bind fun t =>
    let pa := physOf t (va % 2 ^ 57)
    if !pteRd t.pte || noMemory pa || s.isBad pa then none else some (s.word (pa / 8 * 8))
/-- The eight bytes from a virtual address. -/
def partWord (s : State) (part : BitVec 6) (va : Nat) : Option Word :=
  if va % 8 = 0 then partAligned s part va
  else (partAligned s part va).bind fun (lo : Word) => (partAligned s part (va + 8)).map fun (hi : Word) => lo >>> (8 * (va % 8)) ||| hi <<< (64 - 8 * (va % 8))
/-- The byte at a virtual address. -/
def partByte (s : State) (part : BitVec 6) (va : Nat) : Option Nat := (partAligned s part va).map fun w => fld w (8 * (va % 8)) 8
/-- `n` words from a virtual address. -/
def partWords (s : State) (part : BitVec 6) (va n : Nat) : Option (List Word) := (List.range n).mapM fun i => partWord s part (va + 8 * i)

/-- A graph error record (R416, R463, R482). DESIGN CHOICE (log 18): its detail holds the node index in its low half and the field or reason in its high half;
one that no rule numbers is free. -/
def graphRecord (s : State) (part : BitVec 6) (obj : Word) (node reason : Option Nat := none) : State :=
  let (det, s) := s.free
  s.recordSched part.toNat 0x4A obj (w64 (node.getD (det.toNat % 2 ^ 32) + reason.getD (det.toNat / 2 ^ 32) * 2 ^ 32))

/-- A graph error: the record, and the job is to complete with st = 2 (R416, R417). -/
def graphError (s : State) (j : Nat) (obj : Word) (node reason : Option Nat := none) : State :=
  match findJob s j with
  | some x => modJob (graphRecord s x.part obj node reason) j fun x => { x with graphErr := true }
  | none => s

/-- The scheduler's read of `n` bytes leaves their lines in L2 (R338, R343), and its race checks, which log every conflict (R325, R326). -/
def schedReads (s : State) (part : BitVec 6) (va n : Nat) : State :=
  tableReads (fun s code obj det => s.recordSched part.toNat code obj det) s part va n

/-- The completion word (R417). -/
def completionWord (st why col : Nat) : Word := w64 (1 + st * 16 + why * 256 + col * 2 ^ 16)

/-- A job ends with a status (R417): its completion word is written and vector 1 of the partition raised, or, when it cannot be written, a record
says so. -/
def endJob (s : State) (j st why col : Nat) : State :=
  match findJob s j with
  | none => s
  | some x =>
    let s := modJob s j fun x => { x with done := true }
    let va := x.cword.toNat
    match walkTable s x.part (va % 2 ^ 57) with
    | some t =>
      let pa := physOf t (va % 2 ^ 57)
      if va % 8 ≠ 0 ∨ !pteWr t.pte ∨ noMemory pa ∨ s.isBad pa then
        s.recordSched x.part.toNat 0x4A x.va (w64 (x.jid.toNat + st * 2 ^ 32))
      else
        let a := pageAcc ⟨0, 0, 0, 0⟩ 0 0 t (va % 2 ^ 57) 8
        let s := touchShadow (touchAcc s a true x.part.toNat) a true x.part.toNat
        let s := (shadowWords [a]).foldl (fun s p => clearWriter s p.1) s
        let s := s.setWord pa (completionWord st why col)
        let s := if pteLab t.pte then s.setNum (ptePa t.pte + t.size + (pa - ptePa t.pte) / 8 * 4) 4 0 else s
        s.raiseVector (16 * x.part.toNat + 1)
    | none => s.recordSched x.part.toNat 0x4A x.va (w64 (x.jid.toNat + st * 2 ^ 32))

/-- A job whose last phase's graphs are all complete ends (R417). -/
def progress (s : State) (j : Nat) : State :=
  match findJob s j with
  | some x =>
    if !x.done && x.contract.isNone && x.phase == x.nph && x.graphs.all (·.done) then endJob s j (if x.graphErr then 2 else 0) 0 0 else s
  | none => s

/-! ### Budgets and deadlines of contracts (R431) -/

/-- The TSC of release `n`. -/
def releaseTime (k : Contract) (n : Nat) : Nat := k.first.toNat + n * k.period

/-- The release that is missed now: its graph is not complete at its deadline, and the miss is not yet reported. -/
def missDue (s : State) (x : Job) (k : Contract) : Option Nat :=
  k.running.filter fun n => !(x.graphs.all fun g => g.done) && k.missed != some n && decide (releaseTime k n + k.deadline ≤ s.tsc.toNat)

/-- A miss of release `n` is reported: a record, the counter, and the deadline interrupt of the notify context. -/
def missDeadline (s : State) (x : Job) (k : Contract) (n : Nat) : State :=
  let s := s.recordSched x.part.toNat 0x48 (w64 x.jid.toNat) (w64 n)
  let s := modJob s x.id fun y => { y with contract := some { k with
    misses := k.misses + 1
    missed := some n } }
  let v := w64 (x.jid.toNat + n % 2 ^ 32 * 2 ^ 32)
  if (s.ctx k.notify.toNat).strand.isSome then s.modCtx k.notify.toNat fun y => { y with dlIrq := some v } else s

/-- The miss of a job's contract that is due is reported. -/
def noteMiss (s : State) (j : Nat) : State :=
  match findJob s j with
  | some x => (x.contract.bind fun k => (missDue s x k).map (missDeadline s x k)).getD s
  | none => s

/-- Ticks a strand has been resident. -/
def resident (s : State) (t : Strand) : Nat := t.used + (s.tsc.toNat - t.since)

/-- A strand that ends after more ticks than its budget, with no overrun reported, is reported now. -/
def noteOverrun (s : State) (t : Strand) (ticks : Nat) : State :=
  match (findJob s t.job).bind fun x => x.contract.map fun k => (x, k) with
  | some (x, k) => if t.overrun || decide (ticks ≤ k.budget) then s
    else s.recordSched x.part.toNat 0x49 (w64 x.jid.toNat) (w64 (k.running.getD 0))
  | none => s

/-! ### The completion of nodes (R419, R420) -/

/-- A node that is finished, run or not. -/
def Node.finished (x : Node) : Bool := x.st == .complete || x.st == .skipped

/-- The nodes of a loop's body (R415 word 4). -/
def Node.bodyOf (x : Node) (i : Nat) : Bool :=
  x.kind == 6 && decide (fld (x.words.getD 4 0) 0 16 ≤ i) && decide (i ≤ fld (x.words.getD 4 0) 16 16)

/-- The body nodes of a loop node that is finished run no more. -/
def closeBody (x : Node) (ns : List Node) : List Node :=
  (ns.zip (List.range ns.length)).map fun (p : Node × Nat) => if x.bodyOf p.2 && p.1.st != .complete then { p.1 with st := .skipped } else p.1

/-- Decrements of pred counts, run or skip, in order (R419, R420): a node whose count reaches 0 by skips alone is skipped, and gives a skip decrement to each
of its successors. The fuel bounds their number. -/
def spread : Nat → List Node → List (Nat × Bool) → List Node
  | 0, ns, _ => ns
  | _, ns, [] => ns
  | k + 1, ns, (i, run) :: t => match ns[i]? with
    | none => spread k ns t
    | some x =>
      let y : Node := { x with pred := x.pred - 1, ran := x.ran || run }
      if x.st = .waiting ∧ x.pred = 1 ∧ !y.ran then
        spread k (closeBody x (updAt i (fun _ => { y with st := .skipped }) ns)) (t ++ x.sets.flatten.map fun m => (m, false))
      else spread k (updAt i (fun _ => y) ns) t

/-- The decrements that a completed node gives. -/
def decrements (x : Node) : List (Nat × Bool) :=
  (x.sets.zip (List.range x.sets.length)).flatMap fun (p : List Nat × Nat) => p.1.map fun m => (m, x.taken == some p.2)

/-- A node completes (R419): its successors get their decrements, and the graph is complete when every node is. A miss that is due by then is reported
first (R431). -/
def completeNode (s : State) (r : NodeRef) : State :=
  let s := noteMiss s r.job
  match findGraph s r.job r.graph, findNode s r with
  | some g, some x =>
    let ns := closeBody x (updAt r.node (fun y => { y with st := .complete }) g.nodes)
    let edges := (ns.map fun (y : Node) => y.sets.flatten.length).foldl (· + ·) 0
    let ns := spread (2 * edges + 1) ns (decrements x)
    let s := modGraph s r.job r.graph fun g => { g with nodes := ns, done := ns.all Node.finished }
    progress s r.job
  | _, _ => s

/-! ### The end of a strand (R278, R432) -/

/-- A strand counts as complete in its launch. -/
def strandOver (s : State) (t : Strand) : State := modNode s ⟨t.job, t.graph, t.node⟩ fun x => { x with left := x.left - 1 }

/-- A context holds no strand any more. -/
def freeCtx (s : State) (c : Nat) : State :=
  s.modCtx c fun x => { x with
    arch := { x.arch with sig := none }
    run := if x.run = .dark then .dark else .free
    strand := none
    devIrq := none
    dlIrq := none
    pend := []
    wcb := []
    fbuf := []
    deferred := []
    walkFault := none
    labAns := none
    hold := none
    resv := []
    writing := none
    waiting := none
    committed := []
    again := []
    peerWait := none
    peerAns := [] }

/-- An LCOMPACT of a strand stops; what it has done stays (R243). -/
def dropCompact (s : State) (c : Nat) (plc : Word) : State := { s with compacts := s.compacts.filter fun j => !(j.c == c && j.plc == plc) }

/-- The steps of R278 after the release: a request to stop waits for the answer to a FULFIL or ABANDON (R371); the strand's waiter records go (R374), its
maker claims are handed over, reservations passed on, queued requests removed, the image slots emptied (R380), and the launch's counter decremented. -/
def leaveStrand (s : State) (c : Nat) (t : Strand) : State :=
  let s := ((settleClaims s c t.plc).dropClaims c t.plc).handoverAll c t.plc
  let s := removeRequests (passAll s c t.plc) c t.plc t.part
  let s := s.modCtx c fun x => { x with served := x.served.filter fun v => v.plc != t.plc }
  strandOver (clearImages (dropCompact (noteOverrun s t (if liveStrand s c t.plc then resident s t else t.used)) c t.plc) c t.plc) t

/-- The copies, gathers and frames that a strand launched and that are not complete (R411): a gather until its last sectors are credited, a frame until its
arrival reaches its barrier. -/
def strandJobs (s : State) (c : Nat) (plc : Word) : Nat :=
  let k := s.cell (cellOf c)
  let copy (p : Copy) : Bool := p.c == c && p.plc == plc
  let gathers := (s.col (colOf (cellOf c))).gathers.filter fun g => g.c == c && g.plc == plc
  let frame (f : Frame) : Bool := f.c == c && f.plc == plc
  (k.cwait.filter copy).length + (k.copies.filter fun (p : Nat × Copy) => copy p.2).length
  + gathers.length + ((s.credits.filter fun r => r.own == some (c, plc)).filterMap fun r => r.gid.filter fun i => !gathers.any fun g => g.gid == i).eraseDups.length
  + (s.credits.filter fun r => r.arrive && r.own == some (c, plc)).length
  + (s.frames.filter frame).length + ((s.streams.flatMap fun (p : Nat × List Frame) => p.2).filter frame).length
  + (s.encs.filter fun (p : Nat × Enc) => frame p.2.frame && !p.2.read).length

/-- What STRDONE waits for (R278): copies, gathers and their credits, accumulator instructions, follow-ons, stores, passes, and committed requests. -/
def strandBusy (s : State) (c : Nat) (plc : Word) : Bool :=
  let k := s.cell (cellOf c)
  (k.cwait.any fun p => p.c == c && p.plc == plc) || (k.copies.any fun (p : Nat × Copy) => p.2.c == c && p.2.plc == plc)
  || ((s.col (colOf (cellOf c))).gathers.any fun g => g.c == c && g.plc == plc) || (s.credits.any fun r => r.own == some (c, plc))
  || (k.follows.any fun p => p.1.c == c && p.1.plc == plc) || (k.matrix.any fun o => o.c == c && o.plc == plc)
  || ((s.ctx c).pend.any fun p => match p with
    | .accum _ => true
    | .acc _ => true
    | _ => false)
  || (s.stores.any fun x => x.c == c) || (s.passes.any fun x => x.c == c) || (s.barReqs.any fun r => r.c == c && r.updates)
  || !(s.ctx c).committed.isEmpty || !(s.ctx c).again.isEmpty

/-- A strand retires (R278). -/
def retire (s : State) (c : Nat) : State :=
  match (s.ctx c).strand with
  | some t => freeCtx (leaveStrand s c t) c
  | none => freeCtx s c

/-- The operations that the drain completes (R433): updates of accumulators, with the earlier loads of their words, in issue order (R228); then divisions,
long vector operations and reads of accumulators. -/
def drainPend (s : State) (c : Nat) : State :=
  let accs := (s.ctx c).pend.flatMap fun p => match p with
    | .accum op => op.accs
    | _ => []
  let s := settleN (s.ctx c).pend.length s c accs
  let ps := (s.ctx c).pend
  let s := s.modCtx c fun x => { x with pend := x.pend.filter fun p => match p with
    | .load _ _ _ _ _ _ _ => true
    | .wait _ _ _ _ => true
    | _ => false }
  ps.foldl (fun s p => match p with
    | .div r => deliverDue s c r
    | .vlong r => deliverDue s c r
    | .acc r => deliverDue s c r
    | _ => s) s

/-- The follow-ons of a strand are not run (R432). -/
def dropFollows (s : State) (c : Nat) (plc : Word) : State :=
  let mine (o : MatOp) : Bool := o.c == c && o.plc == plc
  s.modCell (cellOf c) fun k => { k with
    follows := k.follows.filter fun p => !mine p.1
    cwait := k.cwait.map fun p => { p with follow := p.follow.filter fun o => !mine o }
    copies := k.copies.map fun p => (p.1, { p.2 with follow := p.2.follow.filter fun o => !mine o }) }

/-- A cancelled strand is stopped, live or saved (R432): its operations in flight and its buffer drain (R433), its image is discarded, and no release is
performed. -/
def stopStrand (s : State) (c : Nat) (plc : Word) : State :=
  match (s.ctx c).strand with
  | some t =>
    if t.plc = plc then
      let s := dropFollows (ackStores (wcbDrainAll (drainPend s c) c) c) c plc
      freeCtx (leaveStrand s c t) c
    else stopSaved s c plc
  | none => stopSaved s c plc
where
  /-- The same for a strand in the context's save area. -/
  stopSaved (s : State) (c : Nat) (plc : Word) : State :=
    match (s.ctx c).save with
    | some v =>
      if v.strand.plc = plc then (leaveStrand (dropFollows s c plc) c v.strand).modCtx c fun x => { x with save := none } else s
    | none => s

/-- The strands, live or saved, that satisfy a test: context and placement number. -/
def strandsThat (s : State) (p : Strand → Bool) : List (Nat × Word) :=
  s.ctxs.flatMap fun (q : Nat × Ctx) =>
    (q.2.strand.toList ++ (q.2.save.map fun v => v.strand).toList).filterMap fun t => if p t then some (q.1, t.plc) else none

/-- Stops every strand that satisfies a test. -/
def stopAll (s : State) (p : Strand → Bool) : State := (strandsThat s p).foldl (fun (s : State) (q : Nat × Word) => stopStrand s q.1 q.2) s

/-- Whether a strand is of a node. -/
def Strand.of (t : Strand) (r : NodeRef) : Bool := t.job == r.job && t.graph == r.graph && t.node == r.node

/-- A cancelled launch (R432): unplaced strands are dropped, placed ones stopped, and the node completes with skip decrements. -/
def cancelLaunch (s : State) (r : NodeRef) : State :=
  completeNode (modNode (stopAll s fun t => t.of r) r fun x => { x with next := x.total, left := 0, decided := true, taken := none }) r

/-- A cancelled graph completes (R432). -/
def cancelGraph (s : State) (j g : Nat) : State :=
  let s := noteMiss s j
  modGraph (stopAll s fun t => t.job == j && t.graph == g) j g fun x => { x with done := true }

/-- A cancelled job ends with st = 1 (R432). -/
def cancelJob (s : State) (j : Nat) : State :=
  endJob (modJob (stopAll (noteMiss s j) fun t => t.job == j) j fun x => { x with graphs := x.graphs.map fun g => { g with done := true } }) j 1 0 0

/-- The job identifier in a descriptor (R413). -/
def jidOf (w0 : Word) : BitVec 32 := w0.extractLsb' 16 32

/-- The place in a partition's submission queue of a job not yet taken (R279). -/
def queuedJob (s : State) (part : Nat) (jid : Word) : Option Nat :=
  (s.part part).queue.findIdx? fun va => (partWord s (BitVec.ofNat 6 part) va.toNat).any fun w => (jidOf w).toNat == jid.toNat

/-- A queued job is dropped, and ends with st = 1. -/
def dropQueued (s : State) (part n : Nat) : State :=
  let va := (s.part part).queue.getD n 0
  let s := s.modPart part fun p => { p with queue := takeOut n p.queue }
  match partWords s (BitVec.ofNat 6 part) va.toNat 8 with
  | some w =>
    let x : Job := ⟨s.jobSeq, BitVec.ofNat 6 part, va, jidOf (w.getD 0 0), 0, 0, w.getD 3 0, 0, [], false, none, false⟩
    endJob { s with jobs := s.jobs ++ [x], jobSeq := s.jobSeq + 1 } s.jobSeq 1 0 0
  | none => s

/-- A job of a partition by its identifier: a live one, else one that has ended. -/
def jobNamed (s : State) (part : Nat) (jid : Word) : Option Job :=
  let mine (x : Job) : Bool := x.part.toNat == part && x.jid.toNat == jid.toNat
  (s.jobs.find? fun x => mine x && !x.done).orElse fun _ => s.jobs.find? fun x => mine x

/-- CANCEL (R279, R432): what d is to receive, and what is stopped. -/
def cancelObject (s : State) (c : Nat) (t : Strand) (lvl : Lvl) (a : Word) : Word × State :=
  if a ≠ 0 then
    if lvl ≠ .job then (2, s)
    else match jobNamed s t.part.toNat a with
      | some x => if x.done then (1, s) else (0, cancelJob s x.id)
      | none => match queuedJob s t.part.toNat a with
        | some n => (0, dropQueued s t.part.toNat n)
        | none => (2, s)
  else match lvl with
    | .strand => (0, stopStrand s c t.plc)
    | .launch => (0, cancelLaunch s ⟨t.job, t.graph, t.node⟩)
    | .graph => (0, progress (cancelGraph s t.job t.graph) t.job)
    | .phase => (0, cancelJob s t.job)
    | .job => (0, cancelJob s t.job)

/-- The phases of a job not yet complete. -/
def Job.phasesLeft (x : Job) : Nat := if x.done then 0 else x.nph - (if x.graphs.all (·.done) then x.phase else x.phase - 1)

/-- The completion counter of an object (R279, R411). -/
def counter (s : State) (c : Nat) (t : Strand) (lvl : Lvl) (a : Word) : Word :=
  if a ≠ 0 then
    if lvl ≠ .job then BitVec.allOnes 64
    else match jobNamed s t.part.toNat a with
      | some x => w64 x.phasesLeft
      | none => match (queuedJob s t.part.toNat a).bind fun n => partWord s t.part (((s.part t.part.toNat).queue.getD n 0).toNat + 16) with
        | some w => w64 (fld w 0 16)
        | none => BitVec.allOnes 64
  else match lvl with
    | .strand => w64 (strandJobs s c t.plc)
    | .launch => match findNode s ⟨t.job, t.graph, t.node⟩ with
      | some x => w64 x.left
      | none => BitVec.allOnes 64
    | .graph => match findGraph s t.job t.graph with
      | some g => w64 (g.nodes.filter fun x => !x.finished).length
      | none => BitVec.allOnes 64
    | .phase => match findJob s t.job with
      | some x => w64 (x.graphs.filter fun g => !g.done).length
      | none => BitVec.allOnes 64
    | .job => match findJob s t.job with
      | some x => w64 x.phasesLeft
      | none => BitVec.allOnes 64

/-- The strand that issues. -/
def strandOf (s : State) (c : Nat) : Strand := (s.ctx c).strand.getD ⟨0, 0, 0, 0, 0, 0, BitVec.ofNat 6 (s.ctx c).arch.partition, 0, 0, 0, false⟩

/-- CANCEL and CNTQ (R279): d is empty, and the scheduler's answer fills it later. -/
def askSched (s : State) (c : Nat) (d a : BitVec 6) (wa : Bool) (lvl : Lvl) (cancel : Bool) : Except Stop State := do
  let r := (s.ctx c).arch
  destReady r (gd d)
  readSrcs r [srcG a wa 0]
  let t := strandOf s c
  let s := s.modArch c fun x => markEmpty x (gd d) []
  let ans (v : Option Word) : Answer := ⟨c, s.plc c, gd d, r.pc, v, t, lvl, gv r a⟩
  if cancel then
    let (v, u) := cancelObject s c t lvl (gv r a)
    .ok { u with answers := u.answers ++ [ans (some v)] }
  else .ok { s with answers := s.answers ++ [ans none] }

/-! ### Meanings -/

/-- NSIGNAL (R277): the release, then a committed decrement. -/
def execNsignal (a : BitVec 6) (wa : Bool) (s : State) : Host.Outcome State Fault Refusal :=
  issue (.nsignal a wa) s fun s c => do
    let r := (s.ctx c).arch
    readSrcs r [srcG a wa 0]
    let s ← release s c Scope.device.code
    let t := strandOf s c
    commit (.nsignal a wa) s c (.nsignal t.job t.graph (fld (gv r a) 0 16))

/-- STRDONE (R278). -/
def execStrdone (s : State) : Host.Outcome State Fault Refusal :=
  issue (.strdone) s fun s c => do
    let s ← release s c Scope.device.code
    if strandBusy s c (s.plc c) then waits else .ok (retire s c)

/-- CANCEL (R279, R432). -/
def execCancel (d a : BitVec 6) (wa : Bool) (lvl : Lvl) (s : State) : Host.Outcome State Fault Refusal :=
  issueSeq (.cancel d a wa lvl) s fun s c => askSched s c d a wa lvl true

/-- CNTQ (R279). -/
def execCntq (d a : BitVec 6) (wa : Bool) (lvl : Lvl) (s : State) : Host.Outcome State Fault Refusal :=
  issueSeq (.cntq d a wa lvl) s fun s c => askSched s c d a wa lvl false

/-- SCHEDULER_ANSWER: an answer of the scheduler fills d, live or saved (R279, R434). -/
def execSchedulerAnswer (n : Nat) (s : State) : Host.Outcome State Fault Refusal :=
  match s.answers[n]? with
  | some a =>
    let v := a.val.getD (counter s a.c a.strand a.lvl a.obj)
    .next (fillOf { s with answers := takeOut n s.answers } a.c a.plc a.dst (.w v) [] a.pc)
  | none => .next s

/-- NSIGNAL_ARRIVAL: a decrement of a node's signal count, or a signal dropped with a record (R277, R418). -/
def execNsignalArrival (n : Nat) (s : State) : Host.Outcome State Fault Refusal :=
  match s.nsignals[n]? with
  | some (j, g, m, _) =>
    if ((s.nsignals.take n).any fun (p : Nat × Nat × Nat × Nat) => p.1 == j && p.2.1 == g) then .next s
    else
      let s := { s with nsignals := takeOut n s.nsignals }
      match findNode s ⟨j, g, m⟩ with
      | some x =>
        if (x.st = .waiting ∨ x.st = .held) ∧ 0 < x.sig then .next (modNode s ⟨j, g, m⟩ fun x => { x with sig := x.sig - 1 })
        else .next (graphError s j x.va (some m))
      | none => .next (graphError s j ((findGraph s j g).elim 0 fun g => g.va + w64 (128 * m)) (some m))
  | none => .next s

end Sys2Proof.Machine
end

