-- ==== Sys2Proof/Machine/System.lean ====
section
/-! DEFINITION. Chapter 9, third part: control registers (R27 to R32, R281), traps and their return (R282, R283), SIGNAL, REPART, and the
invalidations (R284 to R286). -/

namespace Sys2Proof.Machine

/-! ### Reading and writing control registers -/

/-- CTXID (R30): 16 times the exposed cell number, and the context. -/
def ctxidOf (c : Nat) : Word := w64 c
/-- CELLID (R30). -/
def cellidOf (s : State) (c : Nat) : Word := w64 (cellOf c + (s.cell (cellOf c)).phys * 1024)
/-- STATUS as it reads: LD is the depth of the loop stack (R30). -/
def statusOf (a : Arch) : Word := putFld a.status 21 3 a.loops.length

/-- The bits of these fields of a register; the reserved ones read zero (R281). -/
def keepFields (fs : List (Nat × Nat)) (v : Word) : Word := fs.foldl (fun w p => putFld w p.1 p.2 (fld v p.1 p.2)) 0

/-- The value of a control register (R27, R29, R281): a strand's HTBASE, PARAM and SPACE come from its launch's descriptor, and their reserved bits read zero. -/
def crValue (s : State) (c : Nat) (cr : Cr) : Word :=
  let a := (s.ctx c).arch
  match cr with
  | .status => statusOf a
  | .tvec => (a.bank a.pl).tvec
  | .tcause => (a.bank a.pl).tcause
  | .tpc => (a.bank a.pl).tpc
  | .tval => (a.bank a.pl).tval
  | .space => keepFields [(0, 12), (63, 1)] a.space
  | .view => a.view
  | .lninfo => a.lninfo
  | .ggr => a.ggr
  | .htbase => keepFields [(12, 45)] a.htbase
  | .param => keepFields [(0, 57), (63, 1)] a.param
  | .cpsrc => a.cpsrc
  | .cpdst => a.cpdst
  | .cpshape => a.cpshape
  | .cpstr0 => a.cpstr0
  | .cpstr1 => a.cpstr1
  | .cpbar => a.cpbar
  | .cpfollow => a.cpfollow
  | .slotinit => a.slotinit
  | .ctxid => ctxidOf c
  | .cellid => cellidOf s c
  | .part => a.part
  | .spadsize => w64 (s.cell (cellOf c)).spadSize
  | .shadowiv => a.shadowiv
  | .tsc => s.tsc
  | .tcfg0 => tcfg a 0
  | .tcfg1 => tcfg a 1
  | .tcfg2 => tcfg a 2
  | .tcfg3 => tcfg a 3
  | .tcfg4 => tcfg a 4
  | .tcfg5 => tcfg a 5
  | .tcfg6 => tcfg a 6
  | .tcfg7 => tcfg a 7
  | .tcfg8 => tcfg a 8
  | .tcfg9 => tcfg a 9
  | .tcfg10 => tcfg a 10
  | .tcfg11 => tcfg a 11
  | .tcfg12 => tcfg a 12
  | .tcfg13 => tcfg a 13
  | .tcfg14 => tcfg a 14
  | .tcfg15 => tcfg a 15

/-- Time passes before TSC is read (R281, log 4). -/
def passTime (s : State) (cr : Cr) : State :=
  match cr with
  | .tsc => { s with tsc := s.tsc + (Config.tscAdvance s.tick).setWidth 64, tick := s.tick + 1 }
  | _ => s

/-- The bits of a control register's value that are not reserved (R30), as a list of fields: lowest bit and width. -/
def crFields (cr : WCr) : List (Nat × Nat) :=
  match cr with
  | .tvec => [(0, 57)]
  | .tcause => [(0, 12), (63, 1)]
  | .htbase => [(12, 45)]
  | .param => [(0, 57), (63, 1)]
  | .cpshape => [(0, 58)]
  | .cpbar => [(0, 25)]
  | .cpfollow => [(0, 33)]
  | .part => [(0, 6)]
  | .tpc => [(0, 64)]
  | .tval => [(0, 64)]
  | .view => [(0, 64)]
  | .cpsrc => [(0, 64)]
  | .cpdst => [(0, 64)]
  | .cpstr0 => [(0, 64)]
  | .cpstr1 => [(0, 64)]
  | .shadowiv => [(0, 64)]

/-- A value has a nonzero bit outside these fields. -/
def reservedSet (fs : List (Nat × Nat)) (v : Word) : Bool := fs.foldl (fun (v : Word) (p : Nat × Nat) => putFld v p.1 p.2 0) v != 0

/-- Writes a control register of the plain row; bit 0 of TVEC is ignored (R30). -/
def putCr (a : Arch) (cr : WCr) (v : Word) : Arch :=
  let b := a.bank a.pl
  match cr with
  | .tvec => a.setBank a.pl { b with tvec := putFld v 0 1 0 }
  | .tcause => a.setBank a.pl { b with tcause := v }
  | .tpc => a.setBank a.pl { b with tpc := v }
  | .tval => a.setBank a.pl { b with tval := v }
  | .view => { a with view := v }
  | .htbase => { a with htbase := v }
  | .param => { a with param := v }
  | .cpsrc => { a with cpsrc := v }
  | .cpdst => { a with cpdst := v }
  | .cpshape => { a with cpshape := v }
  | .cpstr0 => { a with cpstr0 := v }
  | .cpstr1 => { a with cpstr1 := v }
  | .cpbar => { a with cpbar := v }
  | .cpfollow => { a with cpfollow := v }
  | .part => { a with part := v }
  | .shadowiv => { a with shadowiv := v }

/-- The start of every MTCR (R75, R281): `a` is read as if its wait bit were 1, its label is tested under VIEW, and reserved bits must be zero. -/
def mtcrStart (i : Instr) (s : State) (c : Nat) (a : BitVec 6) (fs : List (Nat × Nat)) : Except Stop Word := do
  let r := (s.ctx c).arch
  readSrcs r [srcG a true 0]
  viewTest s c [srcG a true 0]
  if reservedSet fs (gv r a) then raise 0x01 i.image else .ok (gv r a)

/-- STATUS after an MTCR (R30): PL and LD stay. -/
def newStatus (old v : Word) : Word := putFld (putFld v 0 2 (fld old 0 2)) 21 3 0
/-- A value changes a field of STATUS that only a supervisor may write: IE, PIE, PPL or TN (R30). -/
def changesSup (old v : Word) : Bool := fld old 4 4 != fld v 4 4 || bit old 20 != bit v 20

/-- MTCR to STATUS (R30, R281). -/
def writeStatus (i : Instr) (s : State) (c : Nat) (a : BitVec 6) : Except Stop State := do
  let v ← mtcrStart i s c a [(0, 24)]
  let r := (s.ctx c).arch
  if r.pl = 0 ∧ changesSup r.status v then raise 0x03 i.image
  .ok (noteView (s.modArch c fun r => { r with status := newStatus r.status v }) c r [srcG a true 0])

/-- MTCR to SPACE (R31): a space that the partition does not own is refused. DESIGN CHOICE (log 93): so is one that is not live and whose descriptor still names
the partition as its owner. -/
def writeSpace (i : Instr) (s : State) (c : Nat) (a : BitVec 6) : Except Stop State := do
  let v ← mtcrStart i s c a [(0, 12), (63, 1)]
  let x := s.space (v.extractLsb' 0 12)
  if bit v 63 ∧ !(x.live && x.owner.toNat == (s.ctx c).arch.partition) then raise 0x08 (w64 (fld v 0 12))
  .ok (noteView (s.modArch c fun r => { r with space := v }) c (s.ctx c).arch [srcG a true 0])

/-- MTCR to SLOTINIT (R30, R263): it also sets the counter of the receiver it names. -/
def writeSlotinit (i : Instr) (s : State) (c : Nat) (a : BitVec 6) : Except Stop State := do
  let v ← mtcrStart i s c a [(0, 4), (8, 8)]
  .ok (noteView ((s.modArch c fun r => { r with slotinit := v }).modCell (cellOf c) fun k => { k with slots := Tab.put k.slots (fld v 0 4) (v.extractLsb' 8 8) })
    c (s.ctx c).arch [srcG a true 0])

/-- A tile configuration that R31 accepts. -/
def tcfgOk (v : Word) : Bool :=
  [0x02, 0x03, 0x04, 0x05, 0x06, 0x0A, 0x0B, 0x0E].contains (cfgFmt v) && decide (cfgRows v * cfgCols v * cfgSize v ≤ 1024)

/-- MTCR to TCFGn (R31, R211): checked before any wait; then, once the tile is full, its elements are zero and its label ⊤. -/
def writeTcfg (i : Instr) (s : State) (c : Nat) (n : BitVec 4) (a : BitVec 6) : Except Stop State := do
  let v ← mtcrStart i s c a [(0, 14)]
  if !tcfgOk v then raise 0x1C v
  destReady (s.ctx c).arch ⟨.k, n.toNat⟩
  .ok (noteView (s.modArch c fun r => ({ r with tcfg := Tab.put r.tcfg n.toNat v }).setK n.toNat (.of [])) c (s.ctx c).arch [srcG a true 0])

/-! ### ERET (R283) -/

/-- ERET: PPL must be a level not above the current one, and TPC even. -/
def returnTrap (i : Instr) (s : State) (c : Nat) : Except Stop State :=
  let a := (s.ctx c).arch
  let ppl := fld a.status 6 2
  let t := (a.bank a.pl).tpc
  if ppl = 2 ∨ a.pl < ppl then raise 0x03 i.image
  else if bit t 0 then raise 0x16 t
  else .ok (s.modArch c leaveTrap)

/-! ### REPART (R285) -/

/-- The cell is quiescent: no other context holds a strand, and nothing of the cell is outstanding. -/
def quiescent (s : State) (n c : Nat) : Bool :=
  let k := s.cell n
  ((List.range 16).all fun i => 16 * n + i == c || ((s.ctx (16 * n + i)).strand.isNone && (s.ctx (16 * n + i)).save.isNone))
  && k.cwait.isEmpty && k.copies.isEmpty && k.follows.isEmpty && k.matrix.isEmpty && !((s.col (colOf n)).gathers.any fun g => g.cell == n)
  && !((s.ctx c).pend.any fun p => match p with
    | .accum _ => true
    | .acc _ => true
    | _ => false)

/-- The status of REPART, the first that applies in the order 2, 3, 1. -/
def repartStatus (s : State) (c : Nat) (m : CtxMode) : Nat :=
  if c % 16 ≠ 0 then 2 else if (s.cell (cellOf c)).mode = m then 3 else if quiescent s (cellOf c) c then 0 else 1

/-- The registers that remain when the mode changes: those of both allotments; the others are full, zero and ⊤, and their configurations as at
reset. -/
def keepRegs (a : Arch) (old new : CtxMode) : Arch :=
  let nv := min (allotment old .v) (allotment new .v)
  let nk := min (allotment old .k) (allotment new .k)
  { a with
    v := a.v.filter fun p => decide (p.1 < nv)
    k := a.k.filter fun p => decide (p.1 < nk)
    tcfg := a.tcfg.filter fun p => decide (p.1 < nk) }

/-- REPART (R285). -/
def repartition (s : State) (c : Nat) (a : BitVec 6) (m : CtxMode) : Except Stop State := do
  destReady (s.ctx c).arch (gd a)
  let st := repartStatus s c m
  let old := (s.cell (cellOf c)).mode
  let s := if st = 0 then (s.modArch c fun r => keepRegs r old m).modCell (cellOf c) fun k => { k with mode := m } else s
  .ok (fillTop s c (gd a) (.w (w64 st)))

/-! ### Invalidations (R286) -/

/-- A source of the SYS format (R75). -/
def sysSrc (s : State) (c : Nat) (a : BitVec 6) : Except Stop Word := do
  readSrcs (s.ctx c).arch [srcG a true 0]
  .ok (gv (s.ctx c).arch a)

/-- A cached translation of a partition covers a page, or `all` is asked. -/
def covers (part : BitVec 6) (va : Nat) (all : Bool) (e : TlbEntry) : Bool :=
  e.part == part && (all || (decide (e.va ≤ va) && decide (va < e.va + e.size)))

/-- TLBINV (R286): page walks under way are discarded. -/
def tlbInval (s : State) (c : Nat) (va : Word) (area : TlbArea) : State :=
  let part := BitVec.ofNat 6 (s.ctx c).arch.partition
  let a := va.toNat % 2 ^ 57
  let all := area == .allPart
  let drop (t : List TlbEntry) : List TlbEntry := t.filter fun e => !covers part a all e
  let s := { s with walks := s.walks.filter fun w => !(w.part == part && (all || w.va.toNat / 4096 == a / 4096)) }
  match area with
  | .pageCell => s.modCell (cellOf c) fun k => { k with tlb := drop k.tlb }
  | _ => { s with
    cells := s.cells.map fun p => (p.1, { p.2 with tlb := drop p.2.tlb })
    cols := s.cols.map fun p => (p.1, { p.2 with tlb := drop p.2.tlb }) }

/-! ### Meanings -/

/-- MFCR (R281). -/
def execMfcr (d : BitVec 6) (cr : Cr) (s : State) : Host.Outcome State Fault Refusal :=
  issueSeq (.mfcr d cr) s fun s c => do
    destReady (s.ctx c).arch (gd d)
    let s := passTime s cr
    .ok (fillTop s c (gd d) (.w (crValue s c cr)))

/-- MTCR (R281). -/
def execMtcr (cr : WCr) (a : BitVec 6) (s : State) : Host.Outcome State Fault Refusal :=
  issueSeq (.mtcr cr a) s fun s c => do
    let v ← mtcrStart (.mtcr cr a) s c a (crFields cr)
    .ok (noteView (s.modArch c fun r => putCr r cr v) c (s.ctx c).arch [srcG a true 0])

/-- MTCR to STATUS (R30). -/
def execMtcrStatus (a : BitVec 6) (s : State) : Host.Outcome State Fault Refusal :=
  issueSeq (.mtcrStatus a) s fun s c => writeStatus (.mtcrStatus a) s c a

/-- MTCR to SPACE (R31). -/
def execMtcrSpace (a : BitVec 6) (s : State) : Host.Outcome State Fault Refusal :=
  issueSeq (.mtcrSpace a) s fun s c => writeSpace (.mtcrSpace a) s c a

/-- MTCR to SLOTINIT (R263). -/
def execMtcrSlotinit (a : BitVec 6) (s : State) : Host.Outcome State Fault Refusal :=
  issueSeq (.mtcrSlotinit a) s fun s c => writeSlotinit (.mtcrSlotinit a) s c a

/-- MTCR to TCFGn (R31). -/
def execMtcrTcfg (n : BitVec 4) (a : BitVec 6) (s : State) : Host.Outcome State Fault Refusal :=
  issueSeq (.mtcrTcfg n a) s fun s c => writeTcfg (.mtcrTcfg n a) s c n a

/-- TRAP (R282): it takes the trap. -/
def execTrap (imm : BitVec 12) (s : State) : Host.Outcome State Fault Refusal :=
  issue (.trap imm) s fun _ _ => raise 0x20 (imm.setWidth 64)

/-- ERET (R283). -/
def execEret (s : State) : Host.Outcome State Fault Refusal :=
  issue (.eret) s fun s c => returnTrap .eret s c

/-- SIGNAL (R284): the release, then a committed request. -/
def execSignal (a : BitVec 6) (info : BitVec 12) (s : State) : Host.Outcome State Fault Refusal :=
  issue (.signal a info) s fun s c => do
    let v ← sysSrc s c a
    let s ← release s c Scope.device.code
    commit (.signal a info) s c (.signal ⟨v, info.setWidth 64, c, BitVec.ofNat 6 (s.ctx c).arch.partition⟩)

/-- REPART (R285). -/
def execRepart (a : BitVec 6) (mode : CtxMode) (s : State) : Host.Outcome State Fault Refusal :=
  issueSeq (.repart a mode) s fun s c => repartition s c a mode

/-- TLBINV (R286). -/
def execTlbinv (a : BitVec 6) (area : TlbArea) (s : State) : Host.Outcome State Fault Refusal :=
  issueSeq (.tlbinv a area) s fun s c => (do .ok (tlbInval s c (← sysSrc s c a) area))

/-- HINVAL (R286). -/
def execHinval (a : BitVec 6) (all : Bool) (s : State) : Host.Outcome State Fault Refusal :=
  issueSeq (.hinval a all) s fun s c => do
    let v ← sysSrc s c a
    .ok (s.modCell (cellOf c) fun k => { k with hcache := if all then [] else Tab.del k.hcache (fld v 0 14) })

/-- ROUTESET (R286). -/
def execRouteset (a : BitVec 6) (idx : BitVec 8) (s : State) : Host.Outcome State Fault Refusal :=
  issueSeq (.routeset a idx) s fun s c => do
    let v ← sysSrc s c a
    .ok (s.modCell (cellOf c) fun k => { k with routes := Tab.put k.routes idx.toNat v })

/-- ROUTEINV (R286). -/
def execRouteinv (idx : BitVec 8) (all : Bool) (s : State) : Host.Outcome State Fault Refusal :=
  issueSeq (.routeinv idx all) s fun s c => .ok (s.modCell (cellOf c) fun k => { k with routes := if all then [] else Tab.del k.routes idx.toNat })

end Sys2Proof.Machine
end

