-- ==== Sys2Proof/Machine/Compact.lean ====
section
/-! DEFINITION. Chapter 3: the compact instructions (R78, R79), each with the effect of the 32-bit form that it stands for. -/

namespace Sys2Proof.Machine

/-- The register that a 4-bit field names (R78). -/
def cr4 (n : BitVec 4) : BitVec 6 := n.setWidth 6

/-- C.MOV: MOV d, a (R79). -/
def execCMov (d a : BitVec 4) (s : State) : Host.Outcome State Fault Refusal :=
  issueSeq (.cMov d a) s fun s c => unG s c (cr4 d) (cr4 a) true id

/-- C.ADD: ADD d, d, a (R79). -/
def execCAdd (d a : BitVec 4) (s : State) : Host.Outcome State Fault Refusal :=
  issueSeq (.cAdd d a) s fun s c => binG s c (cr4 d) (cr4 d) (cr4 a) true true (arith (· + ·) .w64 .wrapI)

/-- C.SUB: SUB d, d, a (R79). -/
def execCSub (d a : BitVec 4) (s : State) : Host.Outcome State Fault Refusal :=
  issueSeq (.cSub d a) s fun s c => binG s c (cr4 d) (cr4 d) (cr4 a) true true (arith (· - ·) .w64 .wrapI)

/-- C.AND: AND d, d, a (R79). -/
def execCAnd (d a : BitVec 4) (s : State) : Host.Outcome State Fault Refusal :=
  issueSeq (.cAnd d a) s fun s c => bin0 s c (cr4 d) (cr4 d) (cr4 a) true true (· &&& ·)

/-- C.OR: OR d, d, a (R79). -/
def execCOr (d a : BitVec 4) (s : State) : Host.Outcome State Fault Refusal :=
  issueSeq (.cOr d a) s fun s c => bin0 s c (cr4 d) (cr4 d) (cr4 a) true true (· ||| ·)

/-- C.XOR: XOR d, d, a (R79). -/
def execCXor (d a : BitVec 4) (s : State) : Host.Outcome State Fault Refusal :=
  issueSeq (.cXor d a) s fun s c => bin0 s c (cr4 d) (cr4 d) (cr4 a) true true (· ^^^ ·)

/-- C.ADDI: ADDI d, d, imm7 (R79). -/
def execCAddi (d : BitVec 4) (imm : BitVec 7) (s : State) : Host.Outcome State Fault Refusal :=
  issueSeq (.cAddi d imm) s fun s c => unG s c (cr4 d) (cr4 d) true fun x => x + simm imm

/-- C.SHLI: SHLI d, d, amount (R79). -/
def execCShli (d : BitVec 4) (sh : BitVec 6) (s : State) : Host.Outcome State Fault Refusal :=
  issueSeq (.cShli d sh) s fun s c => unG s c (cr4 d) (cr4 d) true fun x => x <<< sh.toNat

/-- C.LI: LI d, imm7 (R79). -/
def execCLi (d : BitVec 4) (imm : BitVec 7) (s : State) : Host.Outcome State Fault Refusal :=
  issueSeq (.cLi d imm) s fun s c => compute s c (gd (cr4 d)) [] fun _ => (.w (simm imm), 0)

/-- C.LD: LD d, [a, 8·disp3], word (R79). -/
def execCLd (d a : BitVec 4) (disp : BitVec 3) (s : State) : Host.Outcome State Fault Refusal :=
  issueSeq (.cLd d a disp) s fun s c => loadScalar s c (gd (cr4 d)) (cr4 a) true (disp.setWidth 5) 8 false .dflt none

/-- C.ST: ST d, [a, 8·disp3], word (R79). -/
def execCSt (d a : BitVec 4) (disp : BitVec 3) (s : State) : Host.Outcome State Fault Refusal :=
  issueSeq (.cSt d a disp) s fun s c => storeScalar s c (cr4 d) (cr4 a) true true (disp.setWidth 5) 8 .dflt

/-- C.BZ: BZ a, disp (R79). -/
def execCBz (a : BitVec 4) (disp : BitVec 7) (s : State) : Host.Outcome State Fault Refusal :=
  issue (.cBz a disp) s fun s c => branch1 (.cBz a disp) s c (cr4 a) true (disp.signExtend 17) fun x => x == 0

/-- C.BNZ: BNZ a, disp (R79). -/
def execCBnz (a : BitVec 4) (disp : BitVec 7) (s : State) : Host.Outcome State Fault Refusal :=
  issue (.cBnz a disp) s fun s c => branch1 (.cBnz a disp) s c (cr4 a) true (disp.signExtend 17) fun x => x != 0

/-- C.J: J disp (R79). -/
def execCJ (disp : BitVec 11) (s : State) : Host.Outcome State Fault Refusal :=
  issue (.cJ disp) s fun s c => .ok (takeBranch s c (target (s.ctx c).arch disp))

/-- C.JR: JR a (R79). -/
def execCJr (a : BitVec 4) (s : State) : Host.Outcome State Fault Refusal :=
  issue (.cJr a) s fun s c => jumpReg (.cJr a) s c none (cr4 a) true

end Sys2Proof.Machine
end

