-- ==== Sys2Proof/Machine/Fetch.lean ====
section
/-! DEFINITION. Fetching an instruction (R71, R72, R192, R335): the context's fetch buffer, the cell's instruction cache, the line's home; and what
happens at an instruction boundary before the next instruction issues (R36, R146, R188). -/

namespace Sys2Proof.Machine

/-- The 16 bits at byte offset `o` of a line. -/
def lineParcel (l : BitVec 512) (o : Nat) : BitVec 16 := l.extractLsb' (8 * o) 16
/-- The line at a physical address as its home holds it. -/
def homeLine (s : State) (pa : Nat) : BitVec 512 := BitVec.ofNat 512 (s.num (pa / 64 * 64) 64)
/-- The instruction-cache line of a physical address: the cell's copy, or what a refill brings (R335). -/
def icacheLine (s : State) (n pa : Nat) : BitVec 512 := (Tab.get? (s.cell n).icache (pa / 64)).getD (homeLine s pa)

/-- A fetch finds its line in the cell's instruction cache of 128 sets of 4 ways, or fills it from L2 (R335, R338). Which line of a full set goes is a free
value (log 5). -/
def icacheFill (s : State) (n : Nat) (a : Acc) : State :=
  let line := a.addr / 64
  if (Tab.get? (s.cell n).icache line).isSome then s
  else
    let l := homeLine s a.addr
    let s := touchAcc s a false (s.cell n).part.toNat
    let set := (s.cell n).icache.filter fun (p : Nat × BitVec 512) => p.1 % 128 == line % 128
    if set.length < 4 then s.modCell n fun k => { k with icache := Tab.put k.icache line l }
    else
      let (v, s) := s.free
      let out := (set.map fun (p : Nat × BitVec 512) => p.1).getD (v.toNat % 4) line
      s.modCell n fun k => { k with icache := Tab.put (Tab.del k.icache out) line l }

/-- Where a parcel is fetched from: translation with the execute permission, and the datum's condition (R72, R335); a miss waits for a home that
it cannot reach (R443). -/
def fetchAddr (s : State) (c va : Nat) : Except Stop Acc := do
  let t ← translate s c va (w64 va)
  let pa := physOf t va
  if !pteExec t.pte then raise 0x15 (w64 va)
  else if noMemory pa then .error (.fault .noSuchAddress)
  else if (Tab.get? (s.cell (cellOf c)).icache (pa / 64)).isNone && s.isBad pa then raise 0x18 (w64 va)
  else if (Tab.get? (s.cell (cellOf c)).icache (pa / 64)).isNone && !ctxReaches s c pa then waits
  else .ok { addr := pa, size := 2, ref := w64 va, va := w64 va, cache := pteCache t.pte, wthru := pteWthru t.pte, cls := BitVec.ofNat 2 (pteRet t.pte)
             pageWr := pteWr t.pte, lab := none, rdet := none, host := decide (Config.hostBase ≤ pa) }

/-- One parcel, and the state after it is fetched. A parcel that the buffer holds may be used although the cache now holds another (R192, log
5). -/
def fetchParcel (s : State) (c va : Nat) : Except Stop (BitVec 16 × State) :=
  let old := Tab.get? (s.ctx c).fbuf va
  match fetchAddr s c va, old with
  | .ok a, none => .ok (lineParcel (icacheLine s (cellOf c) a.addr) (a.addr % 64), icacheFill s (cellOf c) a)
  | .ok a, some p =>
    let q := lineParcel (icacheLine s (cellOf c) a.addr) (a.addr % 64)
    if p = q then .ok (p, s)
    else .ok (if Config.staleParcel s.tick then p else q, { s with tick := s.tick + 1 })
  | .error _, some p => .ok (p, s)
  | .error e, none => .error e

/-- The two parcels of an aligned sword, both from the buffer or both from the cache, so that no 32-bit instruction in one is a mixture of two images
(R301). -/
def fetchSword (s : State) (c va : Nat) : Except Stop ((BitVec 16 × BitVec 16) × State) :=
  let old := match Tab.get? (s.ctx c).fbuf va, Tab.get? (s.ctx c).fbuf (va + 2) with
    | some p, some q => some (p, q)
    | _, _ => none
  match fetchAddr s c va, old with
  | .ok a, none =>
    let l := icacheLine s (cellOf c) a.addr
    .ok ((lineParcel l (a.addr % 64), lineParcel l (a.addr % 64 + 2)), icacheFill s (cellOf c) a)
  | .ok a, some o =>
    let l := icacheLine s (cellOf c) a.addr
    let n := (lineParcel l (a.addr % 64), lineParcel l (a.addr % 64 + 2))
    if o = n then .ok (o, s)
    else .ok (if Config.staleParcel s.tick then o else n, { s with tick := s.tick + 1 })
  | .error _, some o => .ok (o, s)
  | .error e, none => .error e

/-- The other parcel of an aligned sword. -/
def swordMate (p : Nat) : Nat := if p % 4 = 0 then p + 2 else p - 2

/-- The parcels from `lo` up to `hi`, all of one line, that the buffer does not hold, from the instruction cache. -/
def bufferLine (s : State) (c lo hi : Nat) : State :=
  match fetchAddr s c lo with
  | .error _ => s
  | .ok a =>
    let l := icacheLine s (cellOf c) a.addr
    let old := (s.ctx c).fbuf
    let new := ((List.range ((hi - lo) / 2)).map fun i => (lo + 2 * i, lineParcel l (a.addr % 64 + 2 * i))).filter fun p => (Tab.get? old p.1).isNone
    if new.isEmpty then s else (icacheFill s (cellOf c) a).modCtx c fun x => { x with fbuf := putAll old new }

/-- The parcels at most 16 ahead of `va` that are not there yet, into the buffer (R192), by whole swords, so that the two parcels of a sword ahead are of one
image (R301). DESIGN CHOICE (log 5): at every issue the buffer is filled that far, across a line's end too, as far as translation lets it. -/
def prefetch (s : State) (c va : Nat) : State :=
  let hi := (va + 2 * Config.fetchAhead) / 4 * 4
  let mid := min hi (va / 64 * 64 + 64)
  let whole (f : Tab (BitVec 16)) (p : Nat) : Bool := decide (swordMate p < va) || (Tab.get? f (swordMate p)).isSome
  let s := s.modCtx c fun x => { x with fbuf := x.fbuf.filter fun p => decide (va ≤ p.1) && decide (p.1 < hi) && whole x.fbuf p.1 }
  let s := bufferLine s c va mid
  if mid < hi then bufferLine s c mid hi else s

/-- The instruction at the program counter as a number: a parcel, or two (R71, R72). -/
def fetchWord (s : State) (c : Nat) : Except Stop (Nat × State) := do
  let va := (s.ctx c).arch.pc.toNat % 2 ^ 57
  if va % 4 = 0 then
    let (p, s) ← fetchSword s c va
    .ok (if p.1.toNat % 2 = 0 then p.1.toNat else p.1.toNat + p.2.toNat * 65536, prefetch s c va)
  else
    let (p, s) ← fetchParcel s c va
    if p.toNat % 2 = 0 then .ok (p.toNat, prefetch s c va)
    else
      let (q, s) ← fetchParcel s c ((va + 2) % 2 ^ 57)
      .ok (p.toNat + q.toNat * 65536, prefetch s c va)

/-- A 32-bit instruction across the body end of a level that is acted on (R77, R144, R148), whichever level of the stack it is. -/
def crossesEnd (a : Arch) (w : Nat) : Bool := w % 2 == 1 && a.loops.any fun t => t.stop == a.pc + 2 && t.pl.toNat == a.pl

/-- The interrupt that is taken next, when interrupts are enabled (R36): device, deadline miss, SIGNAL. -/
def pendingIrq (x : Ctx) : Option (Nat × Word) :=
  if !x.arch.ie then none
  else match x.devIrq, x.dlIrq, x.arch.sig with
    | some v, _, _ => some (2, v)
    | none, some v, _ => some (3, v)
    | none, none, some v => some (1, v)
    | none, none, none => none

/-- An automatic persistence point is due (R188): SHADOWIV cycles since the last point, and no register empty. -/
def autoPointDue (s : State) (c : Nat) : Bool :=
  let x := s.ctx c
  x.arch.shadowiv != 0 && !x.arch.anyEmpty && decide (x.pointCycle + x.arch.shadowiv.toNat ≤ s.cycles (colOf (cellOf c)))

/-- A deferred fault that names a register is due at this boundary, because of the instruction that stands there or of an automatic point: it goes before
an interrupt (R36, R157). -/
def faultFirst (s : State) (c : Nat) : Bool :=
  let x := s.ctx c
  !x.deferred.isEmpty && (autoPointDue s c || ((loopDue x.arch).isNone && match fetchWord s c with
    | .ok (w, _) => match decode w with
      | .ok i => (dueDeferred x i).isSome
      | .error _ => false
    | .error _ => false))

/-- A loop-back step is due and need not wait for its condition: it is made, or faults, before an interrupt is taken, whose TPC names the next
instruction to issue (R36, R146). -/
def loopSteps (s : State) (c : Nat) : Bool :=
  (loopDue (s.ctx c).arch).isSome && match (loopBackN (s.ctx c).arch.loops.length s c).2 with
    | some (.wait _) => false
    | _ => true

/-- What happens next at a context's boundary. -/
inductive Boundary where
  /-- An event of the context. -/
  | event (i : Instr)
  /-- The fetched instruction, in the state after the fetch. -/
  | run (i : Instr) (s : State)
  /-- The fetch or the decoder stops. -/
  | stop (e : Stop) (s : State)
deriving DecidableEq, Repr

/-- The order of R36 at a boundary: a fault due there, an interrupt, unless a loop-back step is made first, an automatic point (which R188 puts before a
loop-back step), a loop-back step, and then the instruction at the program counter. -/
def boundary (s : State) (c : Nat) : Boundary :=
  let x := s.ctx c
  if x.hold.isNone && x.deferred.any fun d => d.reg.isNone then .event (.deferredDataErrorFault c)
  else if x.hold.isNone && (pendingIrq x).isSome && !faultFirst s c && !loopSteps s c then .event (.interruptTaken c)
  else if x.hold.isNone && autoPointDue s c then .event (.automaticPersistencePoint c)
  else if (loopDue x.arch).isSome then .event (.loopBack c)
  else match fetchWord s c with
    | .error e => .stop e s
    | .ok (w, t) =>
      match decode w with
      | .ok i => if crossesEnd x.arch w then .stop (.trap ⟨1, 0, w64 w, 0⟩) t else .run i t
      | .error _ => .stop (.trap ⟨1, 0, w64 w, 0⟩) t

/-- The context that owns the cell's next slot (R8). -/
def slotOwner (k : Cell) : Nat := k.slot % k.mode.contexts
/-- The cell moves on to its next slot. -/
def nextSlot (s : State) (n : Nat) : State := s.modCell n fun k => { k with slot := (k.slot + 1) % 16 }
/-- Whether a context may issue. -/
def canIssue (s : State) (c : Nat) : Bool := (s.ctx c).run == .running
/-- The cells with a context that may issue, each once. -/
def busyCells (s : State) : List Nat := ((s.ctxs.filter fun p => p.2.run == .running).map fun p => cellOf p.1).eraseDups

end Sys2Proof.Machine
end

