-- ==== Sys2Proof/Machine/Crypto.lean ====
section
/-! DEFINITION. The standards that R116 and R475 name: SHA-512, MGF1 with it, and the verification of an RSA-4096 signature (RSASSA-PSS, 64-byte salt). Byte `i` of a
digest is bits [8i + 7 : 8i] of its word. -/

namespace Sys2Proof.Machine

/-! ### Numbers and bytes -/

/-- The number that bytes give, the first the most significant. -/
def natOfBytes (bs : List Byte) : Nat := bs.foldl (fun v b => 256 * v + b.toNat) 0
/-- The last `n` bytes of a number, the most significant first. -/
def bytesOfNat (n v : Nat) : List Byte := ((List.range n).map fun i => BitVec.ofNat 8 (v / 256 ^ i)).reverse
/-- The bytes of a digest. -/
def digestBytes (d : BitVec 512) : List Byte := (List.range 64).map fun i => d.extractLsb' (8 * i) 8
/-- A list in pieces of `k`; the first argument is their number. -/
def pieces {α : Type} (k : Nat) : Nat → List α → List (List α)
  | 0, _ => []
  | n + 1, l => l.take k :: pieces k n (l.drop k)

/-! ### SHA-512 -/

/-- The greatest number below `lo + 2 ^ bits` whose `k`-th power is at most `v`. -/
def rootFrom (k v : Nat) : Nat → Nat → Nat
  | 0, lo => lo
  | bits + 1, lo => rootFrom k v bits (if (lo + 2 ^ bits) ^ k ≤ v then lo + 2 ^ bits else lo)
/-- The first 64 bits of the fractional part of the `k`-th root of a small number. -/
def rootBits (k p : Nat) : BitVec 64 := BitVec.ofNat 64 (rootFrom k (p * 2 ^ (64 * k)) 70 0)
/-- No smaller number but 1 divides a number. -/
def isPrime (n : Nat) : Bool := decide (2 ≤ n) && (List.range n).all fun d => decide (d < 2) || n % d != 0
/-- The first 80 prime numbers. -/
def primes : List Nat := (List.range 410).filter isPrime
/-- The constants of the 80 rounds, from the cube roots of the primes. -/
def shaKeys : List (BitVec 64) := primes.map (rootBits 3)
/-- The hash value at the start, from the square roots of the first eight. -/
def shaStart : List (BitVec 64) := (primes.take 8).map (rootBits 2)

/-- The next word of a message schedule whose latest word comes first. -/
def nextSched (w : List (BitVec 64)) : BitVec 64 :=
  let small (x : BitVec 64) (a b c : Nat) := x.rotateRight a ^^^ x.rotateRight b ^^^ (x >>> c)
  small (w.getD 1 0) 19 61 6 + w.getD 6 0 + small (w.getD 14 0) 1 8 7 + w.getD 15 0
/-- So many further words of a message schedule. -/
def growSched : Nat → List (BitVec 64) → List (BitVec 64)
  | 0, w => w
  | n + 1, w => growSched n (nextSched w :: w)

/-- One round, with its constant and word. -/
def shaRound (v : List (BitVec 64)) (kw : BitVec 64 × BitVec 64) : List (BitVec 64) :=
  match v with
  | [a, b, c, d, e, f, g, h] =>
    let big (x : BitVec 64) (i j k : Nat) := x.rotateRight i ^^^ x.rotateRight j ^^^ x.rotateRight k
    let t := h + big e 14 18 41 + (e &&& f ^^^ ~~~e &&& g) + kw.1 + kw.2
    [t + big a 28 34 39 + (a &&& b ^^^ a &&& c ^^^ b &&& c), a, b, c, d + t, e, f, g]
  | _ => v

/-- A block of 128 bytes is taken into the hash value. -/
def shaBlock (keys h : List (BitVec 64)) (block : List Byte) : List (BitVec 64) :=
  let w := (pieces 8 16 block).map fun p => BitVec.ofNat 64 (natOfBytes p)
  let out := (keys.zip (growSched 64 w.reverse).reverse).foldl shaRound h
  (h.zip out).map fun p => p.1 + p.2

/-- A message padded to whole blocks, with its length in bits at the end. -/
def shaPad (bs : List Byte) : List Byte :=
  bs ++ 0x80#8 :: List.replicate ((239 - bs.length % 128) % 128) 0 ++ bytesOfNat 16 (8 * bs.length)

/-- SHA-512 of a byte string (R116). -/
def sha512 (bs : List Byte) : BitVec 512 :=
  let m := shaPad bs
  let h := (pieces 128 (m.length / 128) m).foldl (shaBlock shaKeys) shaStart
  BitVec.ofNat 512 (natOfBytes (h.flatMap fun w => bytesOfNat 8 w.toNat).reverse)

/-! ### RSASSA-PSS (R116) -/

/-- MGF1 with SHA-512: `n` bytes made of a seed. -/
def mgf1 (seed : List Byte) (n : Nat) : List Byte :=
  ((List.range ((n + 63) / 64)).flatMap fun i => digestBytes (sha512 (seed ++ bytesOfNat 4 i))).take n

/-- A power of a number modulo another; the first argument bounds the bits of the exponent. -/
def powMod : Nat → Nat → Nat → Nat → Nat
  | 0, _, _, m => 1 % m
  | k + 1, b, e, m =>
    let r := powMod k (b * b % m) (e / 2) m
    if e % 2 = 1 then r * b % m else r

/-- An encoded message of 512 bytes fits a digest: trailer, clear first bit, padding, and the hash over the salt of 64 bytes. -/
def pssFits (digest : BitVec 512) (em : List Byte) : Bool :=
  let h := (em.drop 447).take 64
  let mask := mgf1 h 447
  let db := ((em.take 447).zip mask).map fun p => p.1 ^^^ p.2
  let top := (db.getD 0 0) &&& 0x7F
  let salt := db.drop 383
  em.getLast? == some 0xBC && (em.getD 0 0).toNat < 128
    && top == 0 && ((db.take 382).drop 1).all (· == 0) && db.getD 382 0 == 1
    && digestBytes (sha512 (List.replicate 8 0 ++ digestBytes digest ++ salt)) == h

/-- The signature of 512 bytes over a digest verifies under an RSA-4096 key of modulus and exponent. -/
def pssVerify (key : Nat × Nat) (digest : BitVec 512) (sig : List Byte) : Bool :=
  let s := natOfBytes sig
  decide (2 ^ 4095 ≤ key.1) && decide (key.1 < 2 ^ 4096) && sig.length == 512 && decide (s < key.1)
    && pssFits digest (bytesOfNat 512 (powMod (key.2.log2 + 1) s key.2 key.1))

end Sys2Proof.Machine
end

