-- ==== Sys2Proof/Machine/Flacon.lean ====
section
/-! DEFINITION. What the Flacon layer holds, byte for byte (R375 to R378, R435): save images, copy records and images with their CRC-64, shadow regions, and
the segments of a whole-device checkpoint with their digests (R394). -/

namespace Sys2Proof.Machine

/-- The bytes of a word, lowest first. -/
def wordBytes (w : Word) : List Byte := (List.range 8).map fun i => w.extractLsb' (8 * i) 8
/-- The bytes of words in order. -/
def wordsBytes (ws : List Word) : List Byte := ws.flatMap wordBytes
/-- A list brought to a length with zeros. -/
def padTo (n : Nat) (bs : List Byte) : List Byte := bs ++ List.replicate (n - bs.length) 0

/-! ### The save image (R435) -/

/-- The meta word of a register. -/
def metaWord (m : Reg Unit) : Word :=
  let fe := match m.fe with
    | .full => 0
    | .empty => 1
    | .faulted => 2
  w64 (m.lab.h.toNat + m.lab.sp.toNat * 2 ^ 24 + fe * 2 ^ 36 + m.det.toNat * 2 ^ 38)

/-- The value slot of a word register: the producing instruction's address when it is faulted. -/
def slotWord (r : Reg Word) : Word := if r.fe = .faulted then r.prod else r.val

/-- The 32 bits of a tile's element in a save image. DESIGN CHOICE (log 85): the spec lays out no element of a k register's 1,024 bytes; a plain element
stands as its bits, and an exact value (R212) as sign, kind, exponent and mantissa. -/
def elemImage : Elem → Nat
  | .raw b => b.toNat
  | .val (.zero n) => (if n then 2 ^ 31 else 0)
  | .val (.fin n m x) =>
    let e := x + m.log2
    let f := if m.log2 ≤ 3 then m * 2 ^ (3 - m.log2) else m / 2 ^ (m.log2 - 3)
    (if n then 2 ^ 31 else 0) + 2 ^ 29 + (e + 256).toNat % 512 * 8 + f % 8
  | .val (.inf n) => (if n then 2 ^ 31 else 0) + 2 ^ 30
  | .val .nan => 2 ^ 30 + 2 ^ 29

/-- The value slot of a v register. -/
def vecSlot (r : Reg (BitVec 512)) : List Byte :=
  if r.fe = .faulted then padTo 64 (wordBytes r.prod) else (List.range 64).map fun i => r.val.extractLsb' (8 * i) 8
/-- The value slot of a k register. -/
def tileSlot (r : Reg (List Elem)) : List Byte :=
  padTo 1024 (if r.fe = .faulted then wordBytes r.prod
    else (r.val.take 256).flatMap fun x => (List.range 4).map fun i => BitVec.ofNat 8 (elemImage x / 256 ^ i))

/-- The four words of a loop stack level. -/
def levelWords (l : Option Level) : List Word :=
  match l with
  | none => [0, 0, 0, 0]
  | some l => [l.start, l.stop, w64 l.p, w64 (l.max % 2 ^ 32 + (if l.cond then 2 ^ 32 else 0) + l.c.toNat * 2 ^ 33 + (if l.wc then 2 ^ 39 else 0)
      + l.pl.toNat * 2 ^ 40 + 2 ^ 42)]

/-- A trap bank's words. -/
def Bank.words (b : Bank) : List Word := [b.tvec, b.tcause, b.tpc, b.tval]

/-- A context's save image in a mode, with the placement number and the TSC of the save. -/
def saveBytes (m : CtxMode) (a : Arch) (plc tsc : Word) : List Byte :=
  let nv := allotment m .v
  let nk := allotment m .k
  wordsBytes ([a.pc, statusOf a, if a.sig.isSome then 1 else 0, a.sig.getD 0, plc, tsc, 0, 0] ++ a.sup.words ++ a.mon.words
    ++ [a.space, a.view, a.lninfo, a.ggr, a.htbase, a.param, a.cpsrc, a.cpdst, a.cpshape, a.cpstr0, a.cpstr1, a.cpbar, a.cpfollow, a.slotinit,
        a.shadowiv, a.part]
    ++ (List.range 16).map (tcfg a)
    ++ (List.range 4).flatMap (fun i => levelWords a.loops.reverse[i]?)
    ++ (List.range 32).map (fun n => slotWord (a.gr n)) ++ (List.range 32).map (fun n => metaWord (a.gr n).meta)
    ++ (List.range 8).map (fun n => slotWord (a.xr n)) ++ (List.range 8).map (fun n => metaWord (a.xr n).meta)
    ++ (List.range 8).map (fun n => slotWord (a.qr n)) ++ (List.range 8).map fun n => metaWord (a.qr n).meta)
  ++ padTo 512 (wordsBytes ((List.range nv).map fun n => metaWord (a.vr n).meta))
  ++ padTo 256 (wordsBytes ((List.range nk).map fun n => metaWord (a.kr n).meta))
  ++ (List.range nv).flatMap (fun n => vecSlot (a.vr n)) ++ (List.range nk).flatMap fun n => tileSlot (a.kr n)

/-- The bytes of a context's save area in a mode (R435). -/
def Saved.bytes (v : Saved) (m : CtxMode) : List Byte := saveBytes m v.arch v.strand.plc v.tsc

/-! ### Images (R377, R378) -/

/-- The ten words of a copy record. -/
def CopyRec.words (r : CopyRec) : List Word :=
  (List.range 7).map (fun i => r.snap.getD i 0)
  ++ [w64 (r.slot % 64 + r.gen.toNat * 2 ^ 6 + r.done % 2 ^ 32 * 2 ^ 8 + (if r.multi then r.mask.toNat * 2 ^ 40 else 0)),
      (r.bar.getD (0, 0)).1, (r.bar.getD (0, 0)).2]

namespace Image

/-- Its body: the save image, and the copy records. -/
def body (i : Image) : List Byte := saveBytes i.mode i.arch i.strand.plc i.tsc ++ wordsBytes (i.copies.flatMap CopyRec.words)

/-- The mode field of a header. -/
def modeCode (i : Image) : Nat :=
  match i.mode with
  | .m16 => 0
  | .m8 => 1
  | .m4 => 2

/-- Words 0 to 6 of the header of context `c`'s image. -/
def header (i : Image) (c : Nat) : List Word :=
  [w64 i.seq, w64 (c % 16 + c / 16 * 2 ^ 4 + i.modeCode * 2 ^ 14 + i.copies.length * 2 ^ 16), i.tsc, w64 (fld i.rpc 0 57), w64 i.body.length, i.strand.plc, 0]

end Image

/-- One byte enters a CRC-64 of the ECMA-182 polynomial. DESIGN CHOICE (log 85): the most significant bit first. -/
def crcByte (c : Word) (b : Byte) : Word :=
  (List.range 8).foldl (fun (c : Word) _ => if c.getLsbD 63 then (c <<< 1) ^^^ 0x42F0E1EBA9EA3693 else c <<< 1) (c ^^^ (b.setWidth 64 <<< 56))
/-- The CRC-64 of R377: initial value and final XOR all ones. -/
def crc64 (bs : List Byte) : Word := ~~~(bs.foldl crcByte (BitVec.allOnes 64))

namespace Image

/-- The CRC of word 7. -/
def crcOf (i : Image) (c : Nat) : Word := crc64 (wordsBytes (i.header c) ++ i.body)
/-- The image as it is written: with its CRC. -/
def sealed (i : Image) (c : Nat) : Image := { i with crc := i.crcOf c }
/-- The bytes of the slot. -/
def slotBytes (i : Image) (c : Nat) : List Byte := wordsBytes (i.header c ++ [i.crc]) ++ i.body
/-- A slot is valid (R386): not empty, its CRC matches, and every unit of it can be corrected. -/
def ok (i : Image) (c : Nat) : Bool := i.valid && i.seq != 0 && i.crc == i.crcOf c

end Image

/-! ### Regions and segments (R375, R394) -/

/-- The bytes of a context area in 16-, 8- or 4-context mode (R332). -/
def areaSize (m : CtxMode) : Nat := 24576 * 16 / m.contexts

/-- An image slot region of a cell: one area for each context. -/
def slotRegion (images : Nat → Option Image) (m : CtxMode) (n : Nat) : List Byte :=
  (List.range m.contexts).flatMap fun i => padTo (areaSize m) ((images (16 * n + i)).elim [] fun x => x.slotBytes (16 * n + i))

/-- A shadow region: the copies of the lines of 17 banks, then their records. -/
def shadowRegion (t : Tab Shadow) : List Byte :=
  (List.range 17408).flatMap (fun l => (List.range 64).map fun i => ((Tab.get? t l).elim 0 fun x => x.data).extractLsb' (8 * i) 8)
  ++ (List.range 17408).flatMap fun l => wordBytes ((Tab.get? t l).elim 0 fun x => w64 (x.stamp.toNat + x.fe.toNat * 2 ^ 32))

namespace Checkpoint

/-- The bytes of a cell's scratchpad and of its full/empty bits. -/
def spad (k : Checkpoint) (n : Nat) : List Byte :=
  (List.range 0x100000).map (fun o => Memory.read k.mem (spadAddr n o)) ++ (List.range 0x4000).map fun o => Memory.read k.mem ((feAt (spadAddr n (64 * o))).1)

/-- The Flacon regions of a column: of each cell the image slots A and B and the shadow copies X and Y, then the column record. -/
def flacon (k : Checkpoint) (col : Nat) : List Byte :=
  let slots (n : Nat) : List Byte :=
    slotRegion (fun c => (Tab.get k.images c (none, none)).1) (Tab.get k.modes n .m16) n ++ slotRegion (fun c => (Tab.get k.images c (none, none)).2) (Tab.get k.modes n .m16) n
  ((List.range 16).map fun i => 16 * col + i).flatMap (fun n => slots n ++ shadowRegion (Tab.get k.shadows n ([], [])).1 ++ shadowRegion (Tab.get k.shadows n ([], [])).2)
  ++ Config.columnRecord (Tab.get k.logs col []) ((List.range 16).map fun i => Tab.get k.errs (16 * col + i) []) [Tab.get k.quars (2 * col) [], Tab.get k.quars (2 * col + 1) []]

/-- A segment of these bytes. -/
def segment (k : Checkpoint) (kind unit : Nat) (bs : List Byte) : Segment := ⟨kind, unit, 0, bs.length, k.tsc, sha512 bs⟩

/-- The headers of the segments in their order (R393, R394): DRAM, the scratchpads, the Flacon regions, and the end. DESIGN CHOICE (log 86): one segment for the whole
of a unit. -/
def segments (k : Checkpoint) : List Segment :=
  k.segment 1 0 ((List.range Config.dramSize).map (Memory.read k.mem))
  :: (List.range 1024).map (fun n => k.segment 2 n (k.spad n))
  ++ (List.range 64).map (fun col => k.segment 3 col (k.flacon col))
  ++ [k.segment 4 0 []]

end Checkpoint

end Sys2Proof.Machine
end

