-- ==== Sys2Proof/Machine/CtxSteps.lean ====
section
/-! DEFINITION. The steps that the units around a context take (events of chapters 1, 6, 9, 14, 15 and 17): interrupts, returns of loads, page
walks, requests at the homes of words and their results, write-backs, the scrub, points, images and shadow copies. -/

namespace Sys2Proof.Machine

/-! ### Interrupts and deferred faults (R36, R157, R284) -/

/-- A context is at a boundary at which it may take an event: it runs, and no instruction holds its issue. -/
def atBoundary (s : State) (c : Nat) : Bool := canIssue s c && (s.ctx c).hold.isNone

/-- The interrupt taken is no longer pending. -/
def clearIrq (x : Ctx) (code : Nat) : Ctx :=
  match code with
  | 1 => { x with arch := { x.arch with sig := none } }
  | 2 => { x with devIrq := none }
  | _ => { x with dlIrq := none }

/-- A SIGNAL reaches its target: it merges into the one pending, or a record names a target that cannot receive it (R284). -/
def signalArrives (s : State) (r : SignalReq) : State :=
  let c := r.tgt.toNat % 2 ^ 14
  match (s.ctx c).strand with
  | some t =>
    if t.part = r.part then s.modArch c fun a => { a with sig := some (a.sig.getD 0 ||| r.info) }
    else recordStrand s r.c r.part 0x56 r.tgt r.info
  | none => recordStrand s r.c r.part 0x56 r.tgt r.info

/-! ### Page walks (R348) -/

/-- A walk's result fills the column's cache and the cell's of a context that asked. -/
def fillTlb (e : TlbEntry) (s : State) (c : Nat) : State := fillCellTlb (fillColTlb s (colOf (cellOf c)) e) (cellOf c) e

/-- A walk that faulted: the context that waits takes the fault when it issues again (R347, R350). -/
def failWalk (w : Walk) (cause : BitVec 8) (s : State) (c : Nat) : State :=
  if BitVec.ofNat 6 (s.ctx c).arch.partition = w.part then s.modCtx c fun x => { x with walkFault := some (w.va, cause) } else s

/-- A walk has one of its tower's 16 walkers: they go to walks in the order of their stamps (R348). -/
def hasWalker (s : State) (n : Nat) (w : Walk) : Bool := decide (((s.walks.take n).filter fun x => x.tower == w.tower).length < 16)

/-- The table reads of a walk, each a read of L2 (R338, R348). -/
def touchWalk (s : State) (part : BitVec 6) (va : Nat) : State :=
  (walkReads s va 5 (s.part part.toNat).root).foldl (fun s a => l2Touch s a 0 true false part.toNat) s

/-! ### Requests at the homes of words (R171 to R182, R480) -/

/-- A request put into a sequence by its arrival stamp (R171, R176). -/
def insReq (r : Req) : List Req → List Req
  | [] => [r]
  | x :: t => if r.arrival.getD 0 < x.arrival.getD 0 then r :: x :: t else x :: insReq r t

/-- The wait of a request at a home is over (R174). -/
def endWait (stamp : Nat) (ps : List Pend) : List Pend := ps.filter fun p => match p with
  | .wait .claim _ _ _ => true
  | .wait _ st _ _ => st != stamp
  | _ => true

/-- A request's access to its word's line at the home, and to the line of its label word (R338, R343). -/
def touchReq (s : State) (r : Req) : State :=
  if Config.spadBase ≤ r.addr then s
  else
    let write := r.kind == .put || r.kind == .putFault
    let s := l2Touch s r.addr r.cls r.alloc write (strandPart s r.c r.plc)
    match r.lab with
    | some (_, la) => l2Touch s la r.cls r.alloc write (strandPart s r.c r.plc)
    | none => s

/-- A request at a word whose full/empty bit is uncorrectable: a reader is answered, and takes the data error fault; a writer's data is discarded with a record
(R157, R350). -/
def stateBad (s : State) (r : Req) : State :=
  match r.kind with
  | .put => (s.modPendOf r.c r.plc (endWait r.stamp)).recordCtx r.c 0x41 r.va 0
  | .putFault => answerHold (s.recordCtx r.c 0x41 r.va 0) r.c r.plc 0
  | _ => { s with deliveries := s.deliveries ++ [⟨r, 0, .top⟩] }

/-- A request joins its word's sequence (R171 to R173, R179): the home serves what the word's state lets it. -/
def takeIn (s : State) (r : Req) : State :=
  let s := touchReq s r
  if r.kind != .lrw && s.feBad r.addr then stateBad s r
  else match r.kind with
  | .lds => serve (s.modHome r.addr fun h => { h with readers := insReq r h.readers }) r.addr
  | .take => serve (s.modHome r.addr fun h => { h with readers := insReq r h.readers }) r.addr
  | .put => serve ((s.modPendOf r.c r.plc (endWait r.stamp)).modHome r.addr fun h => { h with writers := insReq r h.writers }) r.addr
  | .putFault =>
    if s.feFull r.addr then answerHold s r.c r.plc 1
    else answerHold (serve ((writeWordHome s r.c r.va r.addr r.data (labelWord r.lab r.dataLab)).setFe r.addr true) r.addr) r.c r.plc 0
  | .lrw =>
    let s := s.modHome r.addr fun h => { h with queue := insReq r h.queue }
    if (s.home r.addr).holder.isNone then passOn s r.addr else s

/-- A request at a word of a peer device (log 2): what the device answers is a free value. -/
def peerRequest (s : State) (r : Req) : State :=
  let (v, s) := s.free
  match r.kind with
  | .put => s.modPendOf r.c r.plc (endWait r.stamp)
  | .putFault => answerHold s r.c r.plc (v &&& 1)
  | _ => { s with deliveries := s.deliveries ++ [⟨r, v, .top⟩] }

/-- A request, or a barrier wait, that the bank or slice of an address refused waits with a stamp before this one (R176, R333). -/
def refusedBefore (s : State) (a stamp : Nat) : Bool :=
  (s.refused.any fun x => homeOf x.addr == homeOf a && decide (x.arrival.getD 0 < stamp))
  || s.barReqs.any fun r => homeOf r.addr == homeOf a && match r.op with
    | .wait w => w.arrival.any fun t => decide (t < stamp)
    | _ => false

/-- A request arrives at its home: it is kept by its cell while the home has no power (R480), refused while the wait list is full or an
earlier refused request waits (R176), and otherwise admitted. -/
def arriveHome (s : State) (r : Req) : State :=
  if Config.peerBase ≤ r.addr then peerRequest s r
  else
    let q := { r with arrival := some (r.arrival.getD s.stamp) }
    let s := { s with stamp := s.stamp + 1 }
    if !homeUp s r.addr then { s with kept := s.kept ++ [q] }
    else if Config.waitEntries ≤ waitUse s r.addr ∨ refusedBefore s r.addr (q.arrival.getD 0) then { s with refused := s.refused ++ [q] }
    else takeIn s q

/-- A request, an SC or an SCREL of the same context to the same word that was issued earlier is still on its way (R171). The context issues no request
to a word while its SC to it waits behind one, so every pass on its way is an earlier one. -/
def overtaken (s : State) (n : Nat) (r : Req) : Bool :=
  ((s.reqs.take n).any fun x => x.c == r.c && x.addr == r.addr) || s.passes.any fun x => x.c == r.c && x.addr == r.addr

/-- A request on its way arrives. -/
def arrival (s : State) (n : Nat) (lrw : Bool) : State :=
  match s.reqs[n]? with
  | some r => if (r.kind == .lrw) != lrw || overtaken s n r then s
    else if r.addr < Config.peerBase ∧ homeUp s r.addr ∧ !ctxReaches s r.c r.addr then holdAccess s r.c r.addr
    else arriveHome { s with reqs := takeOut n s.reqs } r
  | none => s

/-- The state and label of a register before the request that waits. -/
def oldOf (ps : List Pend) (stamp : Nat) : Reg Unit :=
  (ps.findSome? fun p => match p with
    | .wait .claim _ _ _ => none
    | .wait _ st _ old => if st = stamp then some old else none
    | _ => none).getD (fullMeta .top)

/-- The word of a request as an access, past every L1. -/
def reqAcc (r : Req) : Acc := ⟨r.addr, 8, r.ref, r.va, 2, false, r.cls, true, r.lab, none, false⟩

/-- A served result reaches its context (R173, R179): the acquire, then d under the product of the labels; an LRW's reservation is held. An
uncorrectable word leaves d as it was and defers the data error fault (R157). The cell's L1 keeps no older copy of the word (R310). -/
def takeDelivery (s : State) (d : Delivery) : State :=
  let r := d.req
  let old := oldOf (s.ctx r.c).pend r.stamp
  let s := s.modCtx r.c fun x => { x with
    pend := endWait r.stamp x.pend
    resv := if r.kind = .lrw then x.resv.map fun p => if p.1 = r.addr then (p.1, true) else p else x.resv
    served := if r.kind = .lds then x.served else x.served ++ [⟨r.plc, x.seq, r.va, d.val⟩] }
  if r.addr < Config.peerBase ∧ (s.isBad r.addr || s.feBad r.addr || r.lab.any fun p => s.isBad p.2) then
    let s := meetBad s r.c [reqAcc r]
    defer (s.modArch r.c fun a => a.setMeta r.dst old) r.c ⟨⟨0x18, 0, r.va, 0⟩, some r.dst, none⟩
  else fillOf (acquire (l1Forget s (cellOf r.c) (reqAcc r)) r.c r.scope.code) r.c r.plc r.dst (.w d.val) [r.refLab, d.lab] r.pc

/-- The strand has given up the reservation that a notice names, and has one of a later LRW on the word: still queued, held at the home, or lost in its turn
(R180, R181). -/
def reservedAgain (s : State) (r : Req) : Bool :=
  (s.ctx r.c).resv.contains (r.addr, false) || ((s.home r.addr).holder.any fun h => h.of r.c r.plc)
  || s.notices.any fun n => n.of r.c r.plc && n.addr == r.addr && n.stamp != r.stamp

/-- The holder's reservation is gone, and it takes the reservation hold fault at its next boundary (R182). -/
def loseReservation (s : State) (r : Req) : State :=
  let lost : Deferred := ⟨⟨0x0F, 0, r.ref, 0⟩, none, none⟩
  let f (s : State) : State := s.modCtx r.c fun x => { x with
    resv := if reservedAgain s r then x.resv else x.resv.filter fun p => p.1 != r.addr
    deferred := x.deferred ++ [lost] }
  if liveStrand s r.c r.plc then f s else if savedStrand s r.c r.plc then withSaved s r.c f else s

/-- The waits with a limit, over all homes, with their barriers (R270). -/
def timedWaits (s : State) : List (Nat × BarWait) :=
  s.homes.flatMap fun (p : Nat × Home) => (p.2.waiters.filter fun w => w.lim.isSome).map fun w => (p.1, w)

/-- A barrier wait returns (R270): the acquire if it was served, then d with the label ⊤; or the data error fault (R331). -/
def takeBarRet (s : State) (w : BarWait) (v : Word) (acq : Bool) : State :=
  let s := if acq then acquire s w.c w.scope.code else s
  if v = 0x18 then
    let old := oldOf (s.ctx w.c).pend w.stamp
    defer (s.modCtx w.c fun x => { x with
      pend := endWait w.stamp x.pend
      arch := x.arch.setMeta w.dst old }) w.c ⟨⟨0x18, 0, w.ref, 0⟩, some w.dst, none⟩
  else fillOf (s.modCtx w.c fun x => { x with pend := endWait w.stamp x.pend }) w.c w.plc w.dst (.w v) [] 0

/-! ### Errors (R344, R467) -/

/-- The station of a DRAM stack (R341, R436). -/
def stackStation (stack : Nat) : Nat := 19 * (stack / 2) + 16 + stack % 2

/-- How many units have storage of a kind. -/
def unitsOf (k : Config.Storage) : Nat :=
  match k with
  | .dram => 8
  | .l2 => 128
  | .sliceWait => 128
  | .l1 => 1024
  | .icache => 1024
  | .registers => 1024
  | .spad => 1024
  | .bankWait => 1024
  | .flacon => 1024

/-- A record of a unit's storage (R463): of a stack's station, of a slice, or, for what lies in a cell, of its context 0 (log 91). -/
def recordStorage (s : State) (k : Config.Storage) (u code : Nat) (obj det : Word) : State :=
  match k with
  | .dram => s.recordUnit (stackStation u) 5 63 code obj det
  | .l2 => s.recordUnit (stationOfCol (sliceCol u)) (u % 2) 63 code obj det
  | .sliceWait => s.recordUnit (stationOfCol (sliceCol u)) (u % 2) 63 code obj det
  | _ => s.record ⟨s.tsc, 0, BitVec.ofNat 14 (16 * u), BitVec.ofNat 8 code, Config.severity code, 63, obj, det⟩

/-- A corrected error of a unit's storage is counted; a counter that reaches the firmware's threshold within one window writes a record and restarts, and a
unit whose lifetime count passes the firmware's limit writes another, once (R467). -/
def countError (s : State) (k : Config.Storage) (u : Nat) : State :=
  let key := u * 16 + k.ctorIdx
  let e := Tab.get s.errCounts key ⟨0, s.tsc, 0⟩
  let e : ErrCount := if s.errWindow ≤ (s.tsc - e.since).toNat then { e with n := 0, since := s.tsc } else e
  let (obj, s) := s.free
  let (det, s) := s.free
  let s := if e.life = Config.wearLimit then recordStorage s k u 0x50 obj det else s
  let full := decide (s.errThreshold ≤ e.n + 1)
  let s := if full then recordStorage s k u 0x40 obj det else s
  { s with errCounts := Tab.put s.errCounts key { e with n := if full then 0 else e.n + 1, life := e.life + 1 } }

/-! ### Images and shadows (R379, R381, R391) -/

/-- The sequence number of an image slot; an empty one has 0. -/
def slotSeq (i : Option Image) : Nat := (i.map fun x => x.seq).getD 0

/-- An image goes, with its CRC, into the slot that holds the older one (R377, R379). -/
def storeImage (s : State) (c : Nat) (i : Image) : State :=
  let p := Tab.get s.images c (none, none)
  let i := i.sealed c
  { s with images := Tab.put s.images c (if slotSeq p.1 ≤ slotSeq p.2 then (some i, p.2) else (p.1, some i)) }

/-- A committed request leaves its cell (R391). -/
def sendCommitted (c : Nat) (s : State) (r : Committed) : State :=
  match r with
  | .nsignal j g n => { s with nsignals := s.nsignals ++ [(j, g, n, c)] }
  | .signal q => { s with signals := s.signals ++ [q] }
  | .slotret snd b n => { s with slotRets := s.slotRets ++ [(snd, b, n)] }
  | .fulfil ref cls => sendClaim s c (.fulfil ref cls) ⟨.g, 0⟩
  | .abandon => sendClaim s c .abandon ⟨.g, 0⟩

/-- The requests that waited for a point up to `seq` leave. -/
def sendUpTo (s : State) (c seq : Nat) : State :=
  let due := (s.ctx c).committed.filter fun p => decide (p.1 ≤ seq)
  let s := s.modCtx c fun x => { x with committed := x.committed.filter fun p => !decide (p.1 ≤ seq) }
  (due.map fun p => p.2).foldl (sendCommitted c) s

/-- Stamp `a` is newer than stamp `b` (R381). -/
def newer (a b : BitVec 32) : Bool := let d := (a - b).toNat; decide (1 ≤ d) && decide (d < 2 ^ 31)

/-- A line's contents as a shadow copy. -/
def shadowOf (s : State) (n l : Nat) (stamp : BitVec 32) : Shadow :=
  ⟨BitVec.ofNat 512 (s.num (spadAddr n (64 * l)) 64), s.byte (feAt (spadAddr n (64 * l))).1, stamp, true⟩

/-- Copies a pending line to the shadow copy whose stamp is older, with the stamp of the newer plus 1. -/
def copyShadow (s : State) (n l : Nat) : State :=
  let k := s.cell n
  let toY := match Tab.get? k.shadowX l, Tab.get? k.shadowY l with
    | none, _ => false
    | some _, none => true
    | some x, some y => newer x.stamp y.stamp
  let stamp : BitVec 32 := ((Tab.get? (if toY then k.shadowX else k.shadowY) l).elim 0 fun x => x.stamp) + 1
  let s := s.modCell n fun k => { k with
    pendingShadow := k.pendingShadow.filter (· != l)
    shadowX := if toY then k.shadowX else Tab.put k.shadowX l (shadowOf s n l stamp)
    shadowY := if toY then Tab.put k.shadowY l (shadowOf s n l stamp) else k.shadowY }
  { s with ctxs := s.ctxs.map fun (p : Nat × Ctx) => (p.1, { p.2 with dirtyLines := p.2.dirtyLines.filter (· != 16384 * n + l) }) }

/-- SLOTRET at the sender's cell: the counter for the receiver rises, up to 255 (R264). -/
def addSlots (s : State) (snd c : Nat) (n : Word) : State :=
  let i := cellOf c % 16
  let t := (Tab.get (s.cell snd).slots i 0).toNat + n.toNat
  let s := s.modCell snd fun k => { k with slots := Tab.put k.slots i (BitVec.ofNat 8 (min t 255)) }
  if 255 < t then s.recordCtx c 0x52 (w64 snd) (w64 (cellOf c)) else s

/-! ### Stores and barrier requests on their way -/

/-- A store issued earlier by the same context to the same home, an SC among them, is still on its way (R307). -/
def storeBehind (s : State) (n : Nat) (st : HomeStore) : Bool :=
  ((s.stores.take n).any fun x => x.c == st.c && homeOf x.acc.addr == homeOf st.acc.addr)
  || s.passes.any fun x => x.c == st.c && homeOf x.addr == homeOf st.acc.addr

/-- A pass issued earlier by the same context to the same home is still on its way. -/
def passBehind (s : State) (n : Nat) (p : Pass) : Bool := (s.passes.take n).any fun x => x.c == p.c && homeOf x.addr == homeOf p.addr

/-- A barrier request of the same context to the same barrier issued earlier is still on its way. -/
def barBehind (s : State) (n : Nat) (r : BarReq) : Bool := (s.barReqs.take n).any fun x => x.c == r.c && x.addr == r.addr

/-- An operation of a context's list is a load that reaches its homes (R384, R443), and that no earlier one in flight touching its bytes holds back
(R156). -/
def loadMayReturn (s : State) (part c : Nat) (ps : List Pend) (n : Nat) : Bool :=
  match ps[n]? with
  | some (.load _ accs _ _ _ _ _) => (accs.all fun a => reaches s part (cellOf c) a.addr) && !(ps.take n).any fun p => p.accs.any fun a => accs.any fun b => overlaps a b
  | _ => false

/-! ### Events -/

/-- INTERRUPT_TAKEN: the first pending interrupt in the order of R36, unless a fault or a loop-back step is due at the boundary; a SIGNAL acquires first (R284). -/
def execInterruptTaken (c : Nat) (s : State) : Host.Outcome State Fault Refusal :=
  if !atBoundary s c || faultFirst s c || loopSteps s c then .next s
  else match pendingIrq (s.ctx c) with
    | some (code, v) =>
      let s := s.modCtx c fun x => clearIrq x code
      let s := if code = 1 then acquire s c Scope.device.code else s
      .next (takeTrap s c ⟨BitVec.ofNat 8 code, 0, v, 0⟩ true (s.ctx c).arch.pc)
    | none => .next s

/-- SIGNAL_ARRIVAL (R284); one for a context without power waits. -/
def execSignalArrival (n : Nat) (s : State) : Host.Outcome State Fault Refusal :=
  match s.signals[n]? with
  | some r => .next (if (s.ctx (r.tgt.toNat % 2 ^ 14)).run == .dark then s else signalArrives { s with signals := takeOut n s.signals } r)
  | none => .next s

/-- LOAD_DATA_RETURN: the data of a load of a running strand (R157, R159); one that a failing system route holds is recorded (R443). -/
def execLoadDataReturn (c n : Nat) (s : State) : Host.Outcome State Fault Refusal :=
  .next (if loadMayReturn s (s.ctx c).arch.partition c (s.ctx c).pend n then loadReturn s c n
    else ((((s.ctx c).pend[n]?.map Pend.accs).getD []).map fun a => a.addr).foldl (fun s a => holdAccess s c a) s)

/-- DEFERRED_DATA_ERROR_FAULT: a fault due at the next boundary whichever instruction stands there (R157, R182). One that names a
register is taken by `preCheck` and `deferredFault`. -/
def execDeferredDataErrorFault (c : Nat) (s : State) : Host.Outcome State Fault Refusal :=
  if !atBoundary s c then .next s
  else match (s.ctx c).deferred.find? fun d => d.reg.isNone with
    | some d => .next (takeTrap s c d.trap false (s.ctx c).arch.pc)
    | none => .next s

/-- PAGE_WALK_COMPLETE (R345 to R348). -/
def execPageWalkComplete (n : Nat) (s : State) : Host.Outcome State Fault Refusal :=
  match s.walks[n]? with
  | some w =>
    if !hasWalker s n w then .next s
    else
      let r := walkPart s w.part (w.va.toNat % 2 ^ 57)
      let s := touchWalk { s with walks := takeOut n s.walks } w.part (w.va.toNat % 2 ^ 57)
      .next (match r with
        | .ok t => w.cols.foldl (fun s n => fillColTlb s n t) (w.ctxs.foldl (fillTlb t) s)
        | .error k => w.ctxs.foldl (failWalk w k) s)
  | none => .next s

/-- HOME_REQUEST_ARRIVAL: an LDS, TAKE or PUT at its word's home (R171 to R173, R176). -/
def execHomeRequestArrival (n : Nat) (s : State) : Host.Outcome State Fault Refusal :=
  .next (arrival s n false)

/-- REFUSED_REQUEST_RETRY: with room again, the refused request with the earliest stamp is admitted (R176). -/
def execRefusedRequestRetry (n : Nat) (s : State) : Host.Outcome State Fault Refusal :=
  match s.refused[n]? with
  | some r =>
    if !homeUp s r.addr then .next { s with
      refused := takeOut n s.refused
      kept := s.kept ++ [r] }
    else if Config.waitEntries ≤ waitUse s r.addr ∨ refusedBefore s r.addr (r.arrival.getD 0) then .next s
    else .next (takeIn { s with refused := takeOut n s.refused } r)
  | none => .next s

/-- SERVICE_DELIVERY: a served LDS, TAKE or LRW reaches its running strand (R173, R179); one for a saved strand is a deferred delivery. -/
def execServiceDelivery (n : Nat) (s : State) : Host.Outcome State Fault Refusal :=
  match s.deliveries[n]? with
  | some d =>
    let t := { s with deliveries := takeOut n s.deliveries }
    if liveStrand s d.req.c d.req.plc then .next (takeDelivery t d)
    else .next (if savedStrand s d.req.c d.req.plc then s else t)
  | none => .next s

/-- RESERVATION_REQUEST_ARRIVAL: an LRW joins its word's queue, and is served when nobody holds the reservation (R179). -/
def execReservationRequestArrival (n : Nat) (s : State) : Host.Outcome State Fault Refusal :=
  .next (arrival s n true)

/-- RESERVATION_PASS_ARRIVAL: an SC stores and passes the reservation, an SCREL passes it; either is discarded when its context no longer
holds it (R180). -/
def execReservationPassArrival (n : Nat) (s : State) : Host.Outcome State Fault Refusal :=
  match s.passes[n]? with
  | some p =>
    if !ctxReaches s p.c p.addr || passBehind s n p then .next (holdAccess s p.c p.addr) else .next (applyPass { s with passes := takeOut n s.passes } p)
  | none => .next s

/-- HOLD_LIMIT_EXPIRY: a reservation held too long is passed on, and a notice leaves for the holder (R182). -/
def execHoldLimitExpiry (w : Nat) (s : State) : Host.Outcome State Fault Refusal :=
  match (s.home w).holder with
  | some r =>
    if (s.part (strandPart s r.c r.plc)).holdLimit < s.cycles (homeCol w) - (s.home w).since then
      .next { passOn s w with notices := s.notices ++ [r] }
    else .next s
  | none => .next s

/-- RESERVATION_HOLD_NOTICE (R182): it follows the delivery of the LRW. -/
def execReservationHoldNotice (n : Nat) (s : State) : Host.Outcome State Fault Refusal :=
  match s.notices[n]? with
  | some r =>
    if s.deliveries.any fun d => d.req.stamp == r.stamp then .next s
    else .next (loseReservation { s with notices := takeOut n s.notices } r)
  | none => .next s

/-- WCB_DRAIN: an entry drains, in any order (R307), unless its route holds it (R443). -/
def execWcbDrain (c n : Nat) (s : State) : Host.Outcome State Fault Refusal :=
  .next (match (s.ctx c).wcb[n]? with
    | some e => if ctxReaches s c (64 * e.line) then wcbDrain s c n else holdAccess s c (64 * e.line)
    | none => s)

/-- L1_WRITE_BACK: a dirty line is written back, unless its route holds it (R443), or a clean one evicted, at any time (R306). -/
def execL1WriteBack (cell line : Nat) (evict : Bool) (s : State) : Host.Outcome State Fault Refusal :=
  if evict then
    .next (match l1Find (s.cell cell) line with
      | some x => if (dirtyBytes x).isEmpty && (dirtyLabs x).isEmpty then l1Evict s cell line else s
      | none => s)
  else .next (if reaches s (s.cell cell).part.toNat cell (64 * line) then l1Clean s cell line
    else noteRoute (fun s route k => s.record ⟨s.tsc, 0, BitVec.ofNat 14 (16 * cell), 0x58, Config.severity 0x58, (s.cell cell).part, route, k⟩) s (s.cell cell).part.toNat (stationOf cell)
      (stationOfCol (homeCol (64 * line))))

/-- SCRUB of a line of a stack: an uncorrectable error is recorded; whether a corrected one is found is free (R344, R467). -/
def execScrub (stack line : Nat) (s : State) : Host.Outcome State Fault Refusal :=
  if Config.dramSize ≤ 64 * line ∨ stackOf (64 * line) ≠ stack then .next s
  else
    let (v, s) := s.free
    if s.bad.contains line then .next (s.recordUnit (stackStation stack) 5 63 0x41 (w64 (64 * line)) v)
    else .next (if bit v 0 then countError s .dram stack else s)

/-- AUTOMATIC_PERSISTENCE_POINT (R188); a deferred fault is taken at a point (R157). -/
def execAutomaticPersistencePoint (c : Nat) (s : State) : Host.Outcome State Fault Refusal :=
  if !(atBoundary s c && autoPointDue s c) then .next s
  else match (s.ctx c).deferred with
    | d :: _ => .next (takeTrap s c d.trap false (s.ctx c).arch.pc)
    | [] => .next (makePoint s c)

/-- IMAGE_COMPLETE: the point's image and the lines written before it are durable, with every write issued before it (R186); the requests that waited for it leave
(R379, R391). -/
def execImageComplete (c : Nat) (s : State) : Host.Outcome State Fault Refusal :=
  match (s.ctx c).writing with
  | some i =>
    if i.lines.any (linePending s) || spadWriteBefore s c i.seq then .next s
    else
      let s := (storeImage s c i).modCtx c fun x => { x with
        writing := x.waiting
        waiting := none
        served := x.served.filter fun v => v.plc != i.strand.plc || decide (i.seq ≤ v.seq) }
      let s := sendUpTo s c i.seq
      .next (withSaved s c fun t => sendUpTo t c i.seq)
  | none => .next s

/-- SHADOW_LINE_COPY (R381). -/
def execShadowLineCopy (cell line : Nat) (s : State) : Host.Outcome State Fault Refusal :=
  .next (if (s.cell cell).pendingShadow.contains line && (s.col (colOf cell)).cellPower then copyShadow s cell line else s)

/-- SLOT_RETURN_ARRIVAL (R264); a sender without power counts from 0 again (R376). -/
def execSlotReturnArrival (n : Nat) (s : State) : Host.Outcome State Fault Refusal :=
  match s.slotRets[n]? with
  | some (snd, c, v) =>
    let t := { s with slotRets := takeOut n s.slotRets }
    .next (if (s.col (colOf snd)).cellPower then addSlots t snd c v else t)
  | none => .next s

/-- STORE_ARRIVAL_AT_HOME: stores of one context reach one home in issue order (R160, R304, R307). -/
def execStoreArrivalAtHome (n : Nat) (s : State) : Host.Outcome State Fault Refusal :=
  match s.stores[n]? with
  | some st =>
    if storeBehind s n st || !ctxReaches s st.c st.acc.addr then .next (holdAccess s st.c st.acc.addr)
    else .next (applyStore { s with stores := takeOut n s.stores } st)
  | none => .next s

/-- A barrier request with the stamp of its first arrival at the home: an update needs none (R176, R267). -/
def BarReq.arrive (r : BarReq) (stamp : Nat) : BarReq :=
  match r.op with
  | .wait w => { r with op := .wait { w with arrival := some (w.arrival.getD stamp) } }
  | _ => r

/-- The arrival stamp of a wait. -/
def BarReq.stampOf (r : BarReq) : Nat :=
  match r.op with
  | .wait w => w.arrival.getD 0
  | _ => 0

/-- BARRIER_REQUEST_ARRIVAL (R267, R269, R270); a wait is refused, and keeps its stamp, while the list is full or an earlier refused request waits (R176,
R333). -/
def execBarrierRequestArrival (n : Nat) (s : State) : Host.Outcome State Fault Refusal :=
  match s.barReqs[n]? with
  | some r =>
    if barBehind s n r || !ctxReaches s r.c r.addr then .next (holdAccess s r.c r.addr)
    else
      let q := r.arrive s.stamp
      let s := if r.updates then s else { s with stamp := s.stamp + 1 }
      if !r.updates && decide (r.addr < Config.peerBase) && (decide (Config.waitEntries ≤ waitUse s r.addr) || refusedBefore s r.addr q.stampOf) then
        .next { s with barReqs := updAt n (fun _ => q) s.barReqs }
      else .next (applyBar { s with barReqs := takeOut n s.barReqs } q)
  | none => .next s

/-- BARRIER_WAIT_RETURN to a running strand (R270); one for a saved strand is a deferred delivery. -/
def execBarrierWaitReturn (n : Nat) (s : State) : Host.Outcome State Fault Refusal :=
  match s.barRets[n]? with
  | some (w, v, acq) =>
    let t := { s with barRets := takeOut n s.barRets }
    if liveStrand s w.c w.plc then .next (takeBarRet t w v acq)
    else .next (if savedStrand s w.c w.plc then s else t)
  | none => .next s

/-- TBTIME_LIMIT_EXPIRY: the limit is reached first, and d is to receive 2 (R270, R271). -/
def execTbtimeLimitExpiry (n : Nat) (s : State) : Host.Outcome State Fault Refusal :=
  match (timedWaits s)[n]? with
  | some (a, w) =>
    if w.lim.getD 0 ≤ (s.tsc - w.t0).toNat then
      .next { s.modHome a fun h => { h with waiters := h.waiters.filter fun x => x.stamp != w.stamp } with
        barRets := s.barRets ++ [(w, 2, false)] }
    else .next s
  | none => .next s

/-- INSTRUCTION_CACHE_EVICTION (R335). -/
def execInstructionCacheEviction (cell line : Nat) (s : State) : Host.Outcome State Fault Refusal :=
  .next (s.modCell cell fun k => { k with icache := Tab.del k.icache line })

/-- HANDLE_CACHE_EVICTION (R26). -/
def execHandleCacheEviction (cell idx : Nat) (s : State) : Host.Outcome State Fault Refusal :=
  .next (s.modCell cell fun k => { k with hcache := Tab.del k.hcache idx })

/-- DEFERRED_DELIVERY: the data of a load, the result of a request or the return of a wait enters the save image (R177, R271, R434). -/
def execDeferredDelivery (c n : Nat) (s : State) : Host.Outcome State Fault Refusal :=
  match (s.ctx c).save with
  | none => .next s
  | some v =>
    if n < v.pend.length then .next (if loadMayReturn s v.arch.partition c v.pend n then withSaved s c fun t => loadReturn t c n else s)
    else
      let ds := s.deliveries.filter fun d => d.req.of c v.strand.plc
      let bs := s.barRets.filter fun (p : BarWait × Word × Bool) => p.1.c == c && p.1.plc == v.strand.plc
      match ds[n - v.pend.length]?, bs[n - v.pend.length - ds.length]? with
      | some d, _ => .next (withSaved { s with deliveries := s.deliveries.filter (· != d) } c fun t => takeDelivery t d)
      | none, some b =>
        if n < v.pend.length + ds.length then .next s
        else .next (withSaved { s with barRets := s.barRets.filter (· != b) } c fun t => takeBarRet t b.1 b.2.1 b.2.2)
      | none, none => .next s

end Sys2Proof.Machine
end

