-- ==== Sys2Proof/Machine/EngineSteps.lean ====
section
/-! DEFINITION. The steps of the engines (chapter 18, with R255, R258 to R263, R274, R275 and R322 to R326): copies, multicasts and EFP8 encodes a
line or block at a time, credits, gathers, and the video encoders. -/

namespace Sys2Proof.Machine

/-! ### An engine's accesses -/

/-- For whom an engine moves bytes: the cell whose engine or handle table it is, the context its writes count for, the partition, the object its
records name, and the station when the gather engine moves. -/
structure Mover where
  cell : Nat
  c : Nat
  part : BitVec 6
  obj : Word
  station : Option Nat
deriving DecidableEq, Repr

/-- An error record of an engine (R463, R482). -/
def Mover.note (m : Mover) (s : State) (code : Nat) (obj det : Word) : State :=
  match m.station with
  | some st => s.recordUnit st 4 m.part.toNat code obj det
  | none => recordStrand s m.c m.part code obj det

/-- The route by which an engine reaches a peer entry's cell (R25, R442, R443): whether it leaves the device; none when no route that the entry may use passes the
checks. -/
def peerPath (s : State) (cell part : Nat) (e : HEntry) : Option Bool :=
  let path (seg : Nat) : Option Bool :=
    let r := (segRoute (s.cell cell) seg).1
    if (routeCheck s part (stationOf cell) (stationOf e.tcell) r).isNone then some (routePort r).isSome else none
  if colOf e.tcell = colOf cell then some false
  else (path (fld e.w3 0 16)).orElse fun _ => if bit e.w3 32 then path (fld e.w3 16 16) else none

/-- The translation an engine uses: the column's cache, or a walk (R348). -/
def engTlb (s : State) (cell : Nat) (part : BitVec 6) (va : Nat) : Option TlbEntry :=
  (tlbFind (s.col (colOf cell)).tlb part va).orElse fun _ => walkTable s part va

/-- One part of an engine's access to a page, if translation and permissions allow it. -/
def engPage (s : State) (m : Mover) (ref : Word) (e : HEntry) (hint : Nat) (write : Bool) (va n : Nat) : Option Acc :=
  (engTlb s m.cell m.part va).bind fun t =>
    let a := pageAcc e ref hint t va n
    if (if write then !pteWr t.pte else !pteRd t.pte) || (pteLab t.pte && !e.lab) || (pteRdet t.pte && !e.rdet) || noMemory a.addr then none else some a

/-- The bytes at a signed offset from an entry's base, as an engine reaches them; none when they lie beyond a scratchpad (R327), or translation or a permission
fails (R259). DESIGN CHOICE (log 101): so also when no route to a peer passes (R443), which R259 does not name. -/
def engAccs (s : State) (m : Mover) (ref : Word) (e : HEntry) (hint : Nat) (write : Bool) (o : Int) (n : Nat) : Option (List Acc) :=
  let a := (((e.base : Int) + o) % (2 ^ 57 : Nat)).toNat
  if e.kind = 1 then
    if (s.cell m.cell).spadSize < a + n then none
    else some ((wordPieces (n / 8 + 2) a n).map fun p => spadAcc (w64 p.1) (spadAddr m.cell p.1) p.2)
  else if e.kind = 2 then
    (peerPath s m.cell m.part.toNat e).bind fun away =>
      if (if away then 0x100000 else (s.cell e.tcell).spadSize) < a + n then none
      else some ((wordPieces (n / 8 + 2) a n).map fun p => spadAcc (w64 p.1) ((if away then Config.peerBase else Config.spadBase) + e.tcell * 0x100000 + p.1) p.2)
  else (wordPieces (n / 8 + 2) a n).mapM fun p => engPage s m ref e hint write p.1 p.2

/-- A packet of an engine for the home of an address, when its system route holds it (R443). -/
def Mover.holdAccess (m : Mover) (s : State) (a : Nat) : State :=
  if Config.spadBase ≤ a then s
  else noteRoute (fun s route n => m.note s 0x58 route n) s m.part.toNat (stationOf m.cell) (stationOfCol (homeCol a))
/-- What of an engine's accesses stands in the way of a piece of its work: an access that cannot reach its home (R384), or whose system route fails (R443). -/
def accUp (s : State) (m : Mover) (a : Acc) : Bool := reaches s m.part.toNat m.cell a.addr
/-- An access of an engine misses its column's translation cache (R348). -/
def engMiss (s : State) (m : Mover) (a : Acc) : Bool := decide (a.addr < Config.spadBase) && (tlbFind (s.col (colOf m.cell)).tlb m.part a.va.toNat).isNone
/-- The state in which an engine waits with these accesses, if it has to: for the walks of those that miss its column's cache (R348), or for them to reach their
homes, where a failing route is recorded. -/
def Mover.waitAt (m : Mover) (s : State) (accs : List Acc) : Option State :=
  match accs.filter (engMiss s m) with
  | [] => if accs.all (accUp s m) then none else some (accs.foldl (fun s a => m.holdAccess s a.addr) s)
  | as_ => some (as_.foldl (fun s a => askWalks s (m.cell / 256) m.part a.va [] [colOf m.cell]) s)

/-- A conflict on a sector that an engine reads is logged (R325, R326); copy and gather engines lie in their column and tower (R302). An uncorrectable shadow word
tells of none (R350). -/
def engRace (m : Mover) (s : State) (p : Nat × Word) : State :=
  let sh := s.num p.1 4
  if !s.isBad p.1 && raceConflict s none sh (some (colOf m.cell)) then m.note s 0x10 p.2 (raceDetail sh m.obj.toNat false) else s

/-- An engine's read: each byte with the label of its word, and the lines in L2; none when a datum is uncorrectable, of which L2 quarantines a dirty line (R259,
R351). Bytes of a peer device are free (log 2). -/
def engRead (s : State) (m : Mover) (accs : List Acc) : Option (List (Byte × Label)) × State :=
  let bad := accs.any fun a => decide (a.addr < Config.peerBase) && s.badIn a
  let s := accs.foldl (fun s a => touchAcc s a false m.part.toNat) s
  if bad then (none, s)
  else
    let s := (shadowWords accs).foldl (engRace m) s
    let s := accs.foldl (fun s a => touchShadow s a false m.part.toNat) s
    let (v, s) := if accs.any fun a => decide (Config.peerBase ≤ a.addr) then s.free else (0, s)
    (some (accs.flatMap fun a => (List.range a.size).map fun i =>
      (if Config.peerBase ≤ a.addr then BitVec.ofNat 8 (v.toNat / 256 ^ (i % 8)) else s.byte (a.addr + i), wordLabel s a.lab)), s)

/-- Words that a job has written in part, with the labels of the pieces, by offset from the destination entry's base. -/
abbrev Parts := List (Int × List Label)
/-- A job has written all of the word at an offset; `w` tells which bytes it has written. -/
def wholeWord (w : Int → Bool) (o : Int) : Bool := (List.range 8).all fun i => w (o + (i : Int))
/-- The labels of the earlier pieces of a word that a write completes: it turns the written bytes from `before` into `after` (R255). -/
def restOf (ps : Parts) (before after : Int → Bool) (o : Int) : Option (List Label) :=
  if wholeWord after o && !wholeWord before o then some ((ps.find? fun p => p.1 == o).elim [] fun p => p.2) else none
/-- The pieces of words that stand after a write of bytes at an offset from an entry's base. -/
def addParts (after : Int → Bool) (base : Nat) (o : Int) (bs : List (Byte × List Label)) (ps : Parts) : Parts :=
  (numbered bs).foldl (fun (ps : Parts) (b : (Byte × List Label) × Nat) =>
    let k := o + (b.2 : Int)
    let w := k - ((base : Int) + k) % 8
    let rest := ps.filter fun p => p.1 != w
    if (decide (o ≤ w) && decide (w + 8 ≤ o + bs.length)) || wholeWord after w then rest
    else (w, (((ps.find? fun p => p.1 == w).elim [] fun p => p.2) ++ b.1.2).eraseDups) :: rest) ps

/-- The label an engine writes beside one word (R255): the product of the labels of the words its bytes come from: those of this piece with those of the
pieces before it when the job has then written the whole word, and with the one the word held when not; none where the line is to stay unwritten. -/
def engLabel (s : State) (m : Mover) (rest : Option (List Label)) (a : Acc) (ls : List Label) : Option Label × State :=
  let ls := (if a.size < 8 then (match rest with
    | some r => r ++ ls
    | none => ls ++ [wordLabel s a.lab]) else ls).eraseDups
  if (spaceClash none ls).isSome then (none, s)
  else match a.lab with
    | none => (if ls.all Label.isTop then some .top else none, s)
    | some (sp, _) =>
      if ls.any fun l => l.proper && l.sp != sp then (none, s)
      else match productNow s (colOf m.cell) ls with
        | (.lab l, s) => (some l, s)
        | (.past _, s) => (none, s)

/-- The labels of the words of one line from an offset, in order; none when the line stays unwritten. -/
def engLabels (s : State) (m : Mover) (rest : Int → Option (List Label)) : Int → List Acc → List (Byte × List Label) → Option (List (Nat × BitVec 32)) × State
  | _, [], _ => (some [], s)
  | o, a :: t, bs =>
    let (l, s) := engLabel s m (rest (o - (a.addr % 8 : Nat))) a ((bs.take a.size).flatMap fun p => p.2)
    let (r, s) := engLabels s m rest (o + a.size) t (bs.drop a.size)
    (match l, r with
      | some l, some ls => some (labelWord a.lab l ++ ls)
      | _, _ => none, s)

/-- An engine's write of bytes that lie in one line, at an offset from its entry's base (R255, R324, R387, R398): the answer says whether it was written. -/
def engLine (s : State) (m : Mover) (rest : Int → Option (List Label)) (o : Int) (accs : List Acc) (bs : List (Byte × List Label)) : Bool × State :=
  let (labs, s) := engLabels s m rest o accs bs
  match labs with
  | none => (false, m.note s 0x4B m.obj ((accs.head?.map fun a => a.va).getD 0))
  | some labs =>
    let at_ := (accs.flatMap fun a => (List.range a.size).map fun i => a.addr + i).zip (bs.map fun p => p.1)
    let s := (shadowWords accs).foldl (fun s p => clearWriter s p.1) s
    let s := accs.foldl (fun s a => touchShadow (touchAcc s a true m.part.toNat) a true m.part.toNat) s
    let s := clearErr s accs (bs.map fun p => some p.1)
    (true, homeWrite s m.c ((accs.head?.map fun a => a.va).getD 0) at_ labs)

/-- What an engine's write came to: the state, whether every line was written, and the address at which it met a failure. -/
structure Put where
  s : State
  ok : Bool
  stop : Option Word
deriving DecidableEq, Repr

/-- An engine's write of any number of bytes, a line at a time; the fuel bounds the lines. -/
def engPut (m : Mover) (ref : Word) (e : HEntry) (hint : Nat) (rest : Int → Option (List Label)) : Nat → State → Int → List (Byte × List Label) → Put
  | 0, s, _, _ => ⟨s, true, none⟩
  | k + 1, s, o, bs =>
    if bs.isEmpty then ⟨s, true, none⟩
    else
      let a := (((e.base : Int) + o) % (2 ^ 57 : Nat)).toNat
      let n := 64 - a % 64
      match engAccs s m ref e hint true o (min n bs.length) with
      | none => ⟨s, true, some (w64 a)⟩
      | some accs =>
        let (ok, s) := engLine s m rest o accs (bs.take n)
        let r := engPut m ref e hint rest k s (o + n) (bs.drop n)
        { r with ok := ok && r.ok }

/-! ### Copies (R396 to R399) -/

namespace Copy
/-- The shape. -/
def shape (p : Copy) : Shape := copyShape (p.snap.getD 2 0) (p.snap.getD 3 0) (p.snap.getD 4 0)
/-- EFP8 encode mode. -/
def encode (p : Copy) : Bool := fld (p.snap.getD 2 0) 56 2 == 1
/-- Source and destination references, and CPBAR. -/
def srcRef (p : Copy) : Word := p.snap.getD 0 0
/-- See `srcRef`. -/
def dstRef (p : Copy) : Word := p.snap.getD 1 0
/-- See `srcRef`. -/
def bar (p : Copy) : Word := p.snap.getD 5 0
/-- Bytes it counts its sectors over (R260). -/
def total (p : Copy) : Nat := if p.encode then p.shape.d0 else p.shape.total
/-- The indices (j, i, k) of its byte `q` (R397). -/
def place (p : Copy) (q : Nat) : Nat × Nat × Nat := (q / (p.shape.d0 * p.shape.d1), q / p.shape.d0 % p.shape.d1, q % p.shape.d0)
/-- The offset of its byte `q` from the source entry's base. -/
def srcOff (p : Copy) (q : Nat) : Int := (copyOff p.srcRef : Int) + Shape.row p.shape.ss1 p.shape.ss2 (p.place q).2.1 (p.place q).1 + (p.place q).2.2
/-- The same for the destination. -/
def dstOff (p : Copy) (q : Nat) : Int := (copyOff p.dstRef : Int) + Shape.row p.shape.ds1 p.shape.ds2 (p.place q).2.1 (p.place q).1 + (p.place q).2.2
/-- The place in its order of the first byte that it writes at an offset from the destination entry's base, if it writes one. -/
def placeOf (p : Copy) (o : Int) : Option Nat :=
  let rows := (p.shape.rows p.shape.ds1 p.shape.ds2).zip (List.range (p.shape.d1 * p.shape.d2))
  rows.findSome? fun (x : Int × Nat) =>
    let k := o - copyOff p.dstRef - x.1
    if 0 ≤ k ∧ k < p.shape.d0 then some (x.2 * p.shape.d0 + k.toNat) else none
/-- It has written the byte at an offset once it has come to byte `pos`. -/
def wrote (p : Copy) (pos : Nat) (o : Int) : Bool := (p.placeOf o).any fun q => decide (q < pos)
/-- Byte `i` of those that its next line writes: bytes 1 to 7 of a block of a block-scaled object are zero (R53). -/
def byteOut (p : Copy) (b : Byte) (i : Nat) : Byte :=
  let k := (p.dstOff p.pos + i) % ((2 ^ refLbl p.dstRef + 8 : Nat) : Int)
  if scaledRef p.dstRef ∧ 1 ≤ k ∧ k ≤ 7 then 0 else b
/-- The cells it writes to: its own, or the receivers not skipped (R262). -/
def targets (p : Copy) (n : Nat) : List Nat :=
  if p.multi then ((List.range 16).filter fun i => p.mask.getLsbD i && !p.skipped.getLsbD i).map fun i => n / 16 * 16 + i else [n]
/-- On whose behalf it moves. -/
def mover (p : Copy) (n : Nat) : Mover := ⟨n, p.c, p.part, p.tid, none⟩
end Copy

/-- Replaces the job of a slot. -/
def setCopy (s : State) (n slot : Nat) (p : Copy) : State := s.modCell n fun k => { k with copies := Tab.put k.copies slot p }

/-- A slot frees once its job is over and fully credited; its generation advances, but not for a replayed copy (R258, R388). -/
def freeSlot (s : State) (n slot : Nat) : State :=
  match Tab.get? (s.cell n).copies slot with
  | some p =>
    if p.ended && !(s.credits.any fun r => r.slot == some (n, slot)) then s.modCell n fun k => { k with
      copies := Tab.del k.copies slot
      gens := if p.replay then k.gens else Tab.put k.gens slot (Tab.get k.gens slot 0 + 1) }
    else s
  | none => s

/-- Sectors up to a total of `upto` are to be subtracted from each barrier that the job credits (R260, R388, R399). -/
def creditUpTo (s : State) (n slot : Nat) (p : Copy) (upto : Nat) (err : Bool) : State :=
  let k := upto - max p.credited p.skip
  if !bit p.bar 20 ∨ (k = 0 ∧ !err) then s
  else { s with credits := s.credits ++ (p.targets n).map fun c =>
    ⟨spadAddr c (fld p.bar 0 20 / 16 * 16), k, err, false, some (p.c, p.plc), some (n, slot), none⟩ }

/-- Sectors of a number of bytes. -/
def sectors (b : Nat) : Nat := (b + 63) / 64

/-- The follow-on of a job that is over waits to be offered, or, the job stopped, to leave its tiles (R261). -/
def landFollow (s : State) (n : Nat) (p : Copy) (stopped : Bool) : State :=
  match p.follow with
  | some o => s.modCell n fun k => { k with follows := k.follows ++ [(o, stopped)] }
  | none => s

/-- A copy stops (R259): a record, the remaining sectors credited with the error, and its follow-on not run. -/
def stopCopy (s : State) (n slot : Nat) (p : Copy) (det : Word) : State :=
  let s := (p.mover n).note s 0x4B p.tid det
  let s := creditUpTo s n slot p (sectors p.total) true
  freeSlot (setCopy (landFollow s n p true) n slot { p with
    ended := true
    follow := none
    credited := sectors p.total }) n slot

/-- A job has moved on to byte `pos`: sectors are credited, and at its last byte it is over. -/
def moveOn (s : State) (n slot : Nat) (p : Copy) (pos : Nat) (err : Bool) : State :=
  let fin := decide (p.total ≤ pos)
  let upto := if fin then sectors p.total else pos / 64
  let s := creditUpTo s n slot p upto err
  let s := if fin then landFollow s n p false else s
  freeSlot (setCopy s n slot { p with
    pos := pos
    credited := max upto p.credited
    ended := fin
    follow := if fin then none else p.follow }) n slot

/-- The lines that a job's byte `q` lies in, read or written (R322). -/
def linesOf (s : State) (n : Nat) (p : Copy) (write : Bool) (q : Nat) : List Nat :=
  if write then match p.dst with
    | some e => (p.targets n).flatMap fun c =>
      ((engAccs s { (p.mover n) with cell := c } p.dstRef e 0 true (if p.encode then (e.bdir : Int) + q else p.dstOff q) 1).getD []).map fun a => a.addr / 64
    | none => []
  else match p.src with
    | some e => ((engAccs s (p.mover n) p.srcRef e 0 false (p.srcOff q) 1).getD []).map fun a => a.addr / 64
    | none => []

/-- The bytes of a job's write footprint (R322): an encode's whole region. -/
def Copy.writes (p : Copy) : Nat :=
  if p.encode then
    let (nb, d, w) := encodeSize p.srcRef p.dstRef p.shape.d0
    d + nb * w
  else p.total

/-- An earlier job in flight still has to write (or to read) one of these lines. -/
def stillTo (s : State) (n : Nat) (p : Copy) (write : Bool) (lines : List Nat) : Bool :=
  let hi := if write then p.writes else p.total
  let lo := if write && p.encode then 0 else p.pos
  !p.ended && (List.range (hi - lo)).any fun q => (linesOf s n p write (lo + q)).any lines.contains

/-- R322 holds a job's next line back. -/
def heldCopy (s : State) (n : Nat) (p : Copy) (reads writes : List Nat) : Bool :=
  (s.cell n).copies.any fun (q : Nat × Copy) => decide (q.2.order < p.order) && (stillTo s n q.2 true (reads ++ writes) || stillTo s n q.2 false writes)

/-- The bytes that the next line of a copy moves: to the end of its row or of the destination line. -/
def runLength (p : Copy) (e : HEntry) : Nat :=
  min (p.shape.d0 - (p.place p.pos).2.2) (64 - (((e.base : Int) + p.dstOff p.pos) % 64).toNat)

/-- R322 holds back the next `k` bytes of a copy. -/
def copyHeld (s : State) (n : Nat) (p : Copy) (k : Nat) : Bool :=
  heldCopy s n p ((List.range k).flatMap fun i => linesOf s n p false (p.pos + i)) ((List.range k).flatMap fun i => linesOf s n p true (p.pos + i))

/-- R322 holds back the next block of an encode, of `k` source bytes. -/
def encodeHeld (s : State) (n : Nat) (p : Copy) (k : Nat) : Bool :=
  heldCopy s n p ((List.range k).flatMap fun i => linesOf s n p false (p.pos + i)) ((List.range p.writes).flatMap (linesOf s n p true))

/-- A job that is not over, and whose next line R322 does not hold back (R396). -/
def copyReady (s : State) (n : Nat) (p : Copy) : Bool :=
  !p.ended && !(if p.encode then encodeHeld s n p (2 ^ refLbl p.dstRef * elemSize (refFmt p.srcRef)) else copyHeld s n p (p.dst.elim 0 (runLength p)))

/-- The slot whose line the engine moves next (R396): it takes one line from each job in turn, in ascending slot order. -/
def nextCopy (s : State) (n : Nat) : Option Nat :=
  let k := s.cell n
  let ready := (k.copies.filter fun (q : Nat × Copy) => copyReady s n q.2).map fun (q : Nat × Copy) => q.1
  (ready.find? fun i => decide (k.copyTurn < i)).orElse fun _ => ready.head?

/-- A line written to every receiver; the answers are put together. -/
def putAllTargets (m : Mover) (ref : Word) (e : HEntry) (hint : Nat) (rest : Int → Option (List Label)) (o : Int) (bs : List (Byte × List Label)) (s : State) : List Nat → Put
  | [] => ⟨s, true, none⟩
  | c :: t =>
    let r := engPut { m with cell := c } ref e hint rest (bs.length / 64 + 2) s o bs
    let u := putAllTargets m ref e hint rest o bs r.s t
    ⟨u.s, r.ok && u.ok, r.stop.orElse fun _ => u.stop⟩

/-- COPY_LINE of a copy or multicast (R397, R398). -/
def copyRun (s : State) (n slot : Nat) (p : Copy) : State :=
  match p.src, p.dst with
  | some e, some f =>
    let k := runLength p f
    let m := p.mover n
    match engAccs s m p.srcRef e (fld p.bar 21 2) false (p.srcOff p.pos) k, engAccs s m p.dstRef f (fld p.bar 23 2) true (p.dstOff p.pos) k with
    | some as_, some ds => match m.waitAt s (as_ ++ ds) with
      | some t => t
      | none =>
        if copyHeld s n p k then s
        else match engRead s m as_ with
          | (none, t) => stopCopy t n slot p (w64 (((e.base : Int) + p.srcOff p.pos) % (2 ^ 57 : Nat)).toNat)
          | (some bs, t) =>
            let out := (numbered bs).map fun (b : (Byte × Label) × Nat) => (p.byteOut b.1.1 b.2, [b.1.2])
            let after := p.wrote (p.pos + k)
            let r := putAllTargets m p.dstRef f (fld p.bar 23 2) (restOf p.parts (p.wrote p.pos) after) (p.dstOff p.pos) out t (p.targets n)
            match r.stop with
            | some va => stopCopy r.s n slot p va
            | none => moveOn r.s n slot { p with parts := addParts after f.base (p.dstOff p.pos) out p.parts } (p.pos + k) (!r.ok)
    | none, _ => stopCopy s n slot p (w64 (((e.base : Int) + p.srcOff p.pos) % (2 ^ 57 : Nat)).toNat)
    | some _, none => stopCopy s n slot p (w64 (((f.base : Int) + p.dstOff p.pos) % (2 ^ 57 : Nat)).toNat)
  | _, _ => stopCopy s n slot p 0

/-! ### EFP8 encode (R400 to R402) -/

/-- The floating-point format of a plain source that may be encoded (R400). -/
def encFmt (fmt : Nat) : Option Fmt :=
  match fmt with
  | 2 => some fmt32
  | 3 => some fmt16
  | 4 => some fmtB16
  | 5 => some fmtE4M3
  | 6 => some fmtE5M2
  | _ => none

/-- A converted element (R401): sign, exponent (0 for a zero), mantissa, and whether it is an error. -/
structure EfpElem where
  neg : Bool
  e : Nat
  m : Nat
  err : Bool
deriving DecidableEq, Repr

/-- A significand rounded to four bits, nearest-even, with the weight of its last bit. -/
def round4 (m : Nat) (x : Int) : Nat × Int :=
  let l := bitLen m
  if l ≤ 4 then (m * 2 ^ (4 - l), x - ((4 - l : Nat) : Int))
  else
    let k := l - 4
    let q := m / 2 ^ k
    let r := m % 2 ^ k
    let q := if 2 ^ k < 2 * r ∨ (2 * r = 2 ^ k ∧ q % 2 = 1) then q + 1 else q
    if q = 16 then (8, x + k + 1) else (q, x + k)

/-- One element of a block (R401). -/
def efpElem (x : Fp) : EfpElem :=
  match x with
  | .nan => ⟨false, 0, 0, true⟩
  | .inf n => ⟨n, 63, 7, true⟩
  | .zero n => ⟨n, 0, 0, false⟩
  | .fin n m w =>
    let r := round4 m w
    let e := r.2 + 3 + 31
    if 63 < e then ⟨n, 63, 7, true⟩
    else if 1 ≤ e then ⟨n, e.toNat, r.1 - 8, false⟩
    else if (2 : Int) ^ (w + 31).toNat * m > 2 ^ (-(w + 31)).toNat then ⟨n, 1, 0, false⟩
    else ⟨n, 0, 0, false⟩

/-- The bits of a code or raw number, the first read being the most significant (R58). -/
def codeBits (len v : Nat) : List Bool := (List.range len).map fun i => v.testBit (len - 1 - i)

/-- The token bits of an element under a table (R402). -/
def tokenBits (tbl : List (Nat × Nat × Token)) (base : Nat) (x : EfpElem) : List Bool :=
  let code (t : Token) : Option (List Bool) := (tbl.find? fun q => q.2.2 == t).map fun q => codeBits q.1 q.2.1
  if x.e = 0 then (code .zero).getD []
  else (code (.delta (base - x.e))).getD ((code .esc).getD [] ++ codeBits 6 x.e)

/-- Bits packed into bytes, bit 0 first (R58). -/
def packBits (bs : List Bool) : List Byte :=
  (List.range ((bs.length + 7) / 8)).map fun i =>
    (List.range 8).foldl (fun (v : Byte) j => if bs.getD (8 * i + j) false then v ||| (1 <<< j) else v) 0

/-- Bytes padded with zeros to a multiple of 8. -/
def pad8 (bs : List Byte) : List Byte := bs ++ List.replicate ((8 - bs.length % 8) % 8) 0

/-- The table with the fewest token bits, the lowest number on a tie (R402). -/
def bestTable (base : Nat) (xs : List EfpElem) : Nat :=
  let cost (t : Nat) : Nat := (xs.flatMap (tokenBits (codeTable t) base)).length
  (List.range 4).foldl (fun b t => if cost t < cost b then t else b) 0

/-- A block (R402). -/
def efpBlock (xs : List EfpElem) : List Byte :=
  if xs.all fun x => x.e == 0 && !x.neg then [0, 1, 0, 0, 0, 0, 0, 0]
  else
    let top := (xs.map fun x => x.e).foldl max 0
    let base := if top = 0 then 1 else top
    let t := bestTable base xs
    let nib (i : Nat) : Nat := match xs[i]? with
      | some x => (if x.neg then 8 else 0) + x.m
      | none => 0
    pad8 ([BitVec.ofNat 8 (base + 64 * t), 0]
      ++ (List.range ((xs.length + 1) / 2)).map (fun j => BitVec.ofNat 8 (nib (2 * j) + 16 * nib (2 * j + 1)))
      ++ packBits (xs.flatMap (tokenBits (codeTable t) base)))

/-- The conditions of R400 on an encode job. -/
def encodeOk (p : Copy) : Bool :=
  (encFmt (refFmt p.srcRef)).isSome && refFmt p.dstRef == 9 && refOff p.dstRef == 0 && p.shape.d1 == 1 && p.shape.d2 == 1
  && p.shape.d0 % (2 ^ refLbl p.dstRef * elemSize (refFmt p.srcRef)) == 0

/-- The elements of a block that cannot be encoded are recorded (R401). -/
def noteElems (m : Mover) (s : State) (first : Nat) (xs : List EfpElem) : State :=
  (xs.zip (List.range xs.length)).foldl (fun s (p : EfpElem × Nat) => if p.1.err then m.note s 0x4B m.obj (w64 (first + p.2)) else s) s

/-- The bytes that an encode has written, by offset from the destination entry's base: `dirs` bytes of its directory and `out` of its blocks. -/
def encWrote (f : HEntry) (d dirs out : Nat) (o : Int) : Bool :=
  let x := o - (f.bdir : Int)
  (decide (0 ≤ x) && decide (x < dirs)) || (decide ((d : Int) ≤ x) && decide (x < d + out))

/-- COPY_LINE of an encode: one block, its directory word, and, after the last, the directory's padding (R402), at every receiver (R403). Every word of a block
carries the labels of the block's source words. -/
def encodeBlock (s : State) (n slot : Nat) (p : Copy) : State :=
  match p.src, p.dst, encFmt (refFmt p.srcRef) with
  | some e, some f, some t =>
    let es := elemSize (refFmt p.srcRef)
    let k := 2 ^ refLbl p.dstRef * es
    let m := p.mover n
    let (nb, d, w) := encodeSize p.srcRef p.dstRef p.shape.d0
    let at_ := w64 (((e.base : Int) + p.srcOff p.pos) % (2 ^ 57 : Nat)).toNat
    if !encodeOk p then stopCopy s n slot p at_
    else match engAccs s m p.srcRef e (fld p.bar 21 2) false (p.srcOff p.pos) k with
      | none => stopCopy s n slot p at_
      | some as_ =>
        let blk := p.pos / k
        let o1 : Int := (f.bdir : Int) + d + p.out
        let o2 : Int := (f.bdir : Int) + 4 * blk
        let ds := (engAccs s m p.dstRef f 0 true o1 w).getD [] ++ (engAccs s m p.dstRef f 0 true o2 8).getD []
        match m.waitAt s (as_ ++ ds) with
        | some u => u
        | none =>
          if encodeHeld s n p k then s
          else match engRead s m as_ with
            | (none, u) => stopCopy u n slot p at_
            | (some bs, u) =>
              let xs := (chunks es (k / es) (bs.map fun b => b.1)).map fun x => efpElem (decodeFp t (leNat x))
              let ls := (bs.map fun b => b.2).eraseDups
              let out := (efpBlock xs).map fun b => (b, ls)
              let dir (v : Nat) : List (Byte × List Label) := (List.range 4).map fun i => (BitVec.ofNat 8 (v / 256 ^ i), [])
              let u := noteElems m u (blk * (k / es)) xs
              let w0 := encWrote f d (4 * blk) p.out
              let w1 := encWrote f d (4 * blk) (p.out + out.length)
              let w2 := encWrote f d (4 * blk + 4) (p.out + out.length)
              let put (ps : Parts) (before after : Int → Bool) (s : State) (o : Int) (bs : List (Byte × List Label)) : Put × Parts :=
                (putAllTargets m p.dstRef f (fld p.bar 23 2) (restOf ps before after) o bs s (p.targets n), addParts after f.base o bs ps)
              let r1 := put p.parts w0 w1 u o1 out
              let r2 := put r1.2 w1 w2 r1.1.s o2 (dir (d + p.out))
              let r3 := if blk + 1 = nb ∧ nb % 2 = 1 then put r2.2 w2 (encWrote f d d (p.out + out.length)) r2.1.s ((f.bdir : Int) + 4 * nb) (dir 0)
                else (⟨r2.1.s, true, none⟩, r2.2)
              match r1.1.stop.orElse (fun _ => r2.1.stop.orElse fun _ => r3.1.stop) with
              | some va => stopCopy r3.1.s n slot p va
              | none => moveOn r3.1.s n slot { p with
                  out := p.out + out.length
                  parts := r3.2 } (p.pos + k) (xs.any (fun x => x.err) || !(r1.1.ok && r2.1.ok && r3.1.ok))
  | _, _, _ => stopCopy s n slot p 0

/-- A receiver that has lost power is skipped from the next line on, with a record (R403). -/
def dropReceivers (s : State) (n slot : Nat) (p : Copy) : State × Copy :=
  let lost := if p.multi then (p.targets n).filter fun c => !(s.col (colOf c)).cellPower else []
  lost.foldl (fun (q : State × Copy) c =>
    let x := { q.2 with skipped := q.2.skipped ||| (1 <<< (c % 16)) }
    (setCopy ((p.mover n).note q.1 0x56 p.tid (w64 c)) n slot x, x)) (s, p)

/-- The receivers that a launch skips are recorded once it has its transfer identifier (R263). -/
def noteSkipped (s : State) (n : Nat) (p : Copy) : State :=
  ((List.range 16).filter fun i => p.skipped.getLsbD i).foldl (fun s i => (p.mover n).note s 0x56 p.tid (w64 (n / 16 * 16 + i))) s

/-- The lowest free copy slot (R258). -/
def freeCopySlot (k : Cell) : Option Nat := (List.range 64).find? fun i => (Tab.get? k.copies i).isNone

/-! ### Gathers (R274, R404 to R406) -/

namespace Gather
/-- count, rowb, iw. -/
def count (g : Gather) : Nat := fld g.x2 0 32
/-- See `count`. -/
def rowb (g : Gather) : Nat := fld g.x2 32 16
/-- See `count`. -/
def iw (g : Gather) : Nat := fld g.x2 48 8
/-- The next row to move. -/
def row (g : Gather) : Nat := g.moved / g.rowb
/-- On whose behalf it moves at a position, which its records name (R326, R482). -/
def moverAt (g : Gather) (col p : Nat) : Mover := ⟨g.cell, g.c, g.part, w64 p, some (stationOfCol col)⟩
/-- The same at the row it has come to. -/
def mover (g : Gather) (col : Nat) : Mover := g.moverAt col g.row
end Gather

/-- Replaces the gather at a place of a column's list. -/
def setGather (s : State) (col n : Nat) (f : Gather → Gather) : State := s.modCol col fun k => { k with gathers := updAt n f k.gathers }
/-- Removes it. -/
def dropGather (s : State) (col n : Nat) : State := s.modCol col fun k => { k with gathers := takeOut n k.gathers }

/-- A gather's credits up to a number of sectors (R260). -/
def creditGather (s : State) (g : Gather) (upto : Nat) (err : Bool) : State :=
  if upto ≤ g.credited ∧ !err then s
  else { s with credits := s.credits ++ [⟨g.bar, upto - g.credited, err, false, some (g.c, g.plc), none, some g.gid⟩] }

/-- A gather stops (R259, R405): a record of the position, the error and the remaining sectors credited, rows not yet written untouched. -/
def stopGather (s : State) (col n : Nat) (g : Gather) : State :=
  let s := (g.mover col).note s 0x4B g.ref (w64 g.row)
  dropGather (creditGather s g (sectors (g.count * g.rowb)) true) col n

/-- The lines of a byte range that an engine would reach. -/
def rangeLines (s : State) (m : Mover) (ref : Word) (e : HEntry) (write : Bool) (o n : Nat) : List Nat :=
  ((List.range (n / 64 + 2)).flatMap fun i =>
    ((engAccs s m ref e 0 write (o + min (64 * i) (n - 1)) 1).getD []).map fun a => a.addr / 64).eraseDups

/-- What a gather still has to write, and to read: its index list, and the whole table region (R322). -/
def gatherWrites (s : State) (col : Nat) (g : Gather) : List Nat :=
  rangeLines s (g.mover col) g.x3 g.e3 true (refOff g.x3 + g.moved) (g.count * g.rowb - g.moved)
/-- See `gatherWrites`. -/
def gatherReads (s : State) (col : Nat) (g : Gather) : List Nat :=
  rangeLines s (g.mover col) g.x0 g.e0 false (refOff g.x0 + g.idx.length * g.iw) (g.count * g.iw - g.idx.length * g.iw)
  ++ rangeLines s (g.mover col) g.x1 g.e1 false (refOff g.x1) (g.e1.bound - refOff g.x1)

/-- R322 holds a gather's next access back. -/
def heldGather (s : State) (col n : Nat) (reads writes : List Nat) : Bool :=
  ((s.col col).gathers.take n).any fun k =>
    (gatherWrites s col k).any (fun l => reads.contains l || writes.contains l) || (gatherReads s col k).any writes.contains

/-- The next line of an index list (R274, R404): read as bypass accesses. -/
def readIndices (s : State) (col n : Nat) (g : Gather) : State :=
  let o := refOff g.x0 + g.idx.length * g.iw
  let k := min (g.count - g.idx.length) ((64 - (g.e0.base + o) % 64 + g.iw - 1) / g.iw)
  let m := g.moverAt col g.idx.length
  if k = 0 ∨ heldGather s col n (rangeLines s m g.x0 g.e0 false o (k * g.iw)) [] then s
  else match engAccs s m g.x0 g.e0 3 false o (k * g.iw) with
    | none => stopGather s col n g
    | some as_ => match m.waitAt s as_ with
      | some t => t
      | none => match engRead s m as_ with
        | (none, t) => stopGather t col n g
        | (some bs, t) => setGather t col n fun g => { g with idx := g.idx ++ (chunks g.iw k (bs.map fun b => b.1)).map leNat }

/-- Where row `p` of a gather takes its bytes from. -/
inductive RowSrc where
  | skip
  | zero
  | table (v : Nat)
  | again (q : Nat)
deriving DecidableEq, Repr

/-- The source of a row (R274, R405): untouched, zero-filled beyond the table, a repeat of the first position of its index, or the table. -/
def rowSrc (g : Gather) (p : Nat) : RowSrc :=
  let v := g.idx.getD p 0
  if v = 2 ^ (8 * g.iw) - 1 then .skip
  else if g.e1.bound < refOff g.x1 + (v + 1) * g.rowb then .zero
  else match (g.idx.take p).findIdx? (· == v) with
    | some q => .again q
    | none => .table v

/-- A gather has written the byte at an offset from its destination entry's base once it has come to row `r`: rows that stay untouched it has not. -/
def Gather.wrote (g : Gather) (r : Nat) (o : Int) : Bool :=
  let k := o - (refOff g.x3 : Int)
  let q := (k / g.rowb).toNat
  decide (0 ≤ k) && decide (q < r) && g.idx.getD q 0 != 2 ^ (8 * g.iw) - 1

/-- A gather's engine writes its row. -/
def putRow (s : State) (m : Mover) (g : Gather) (dst : Nat) (bs : List (Byte × List Label)) : Put × Parts :=
  let after := g.wrote (g.row + 1)
  (engPut m g.x3 g.e3 g.hint.toNat (restOf g.parts (g.wrote g.row) after) (g.rowb / 64 + 2) s dst bs, addParts after g.e3.base dst bs g.parts)

/-- A gather's row has been moved. -/
def nextRow (s : State) (col n : Nat) (err : Bool) : State :=
  match (s.col col).gathers[n]? with
  | some g =>
    let moved := g.moved + g.rowb
    let fin := decide (g.count ≤ moved / g.rowb)
    let upto := if fin then sectors (g.count * g.rowb) else moved / 64
    let s := creditGather s g upto err
    if fin then dropGather s col n else setGather s col n fun g => { g with
      moved := moved
      credited := max upto g.credited }
  | none => s

/-- GATHER_ROW_MOVE of a row whose bytes come from memory. -/
def moveRow (s : State) (col n : Nat) (g : Gather) (ref : Word) (e : HEntry) (o : Nat) : State :=
  let m := g.mover col
  let dst := refOff g.x3 + g.row * g.rowb
  if heldGather s col n (rangeLines s m ref e false o g.rowb) (rangeLines s m g.x3 g.e3 true dst g.rowb) then s
  else match engAccs s m ref e g.hint.toNat false o g.rowb, engAccs s m g.x3 g.e3 g.hint.toNat true dst g.rowb with
    | some as_, some ds => match m.waitAt s (as_ ++ ds) with
      | some t => t
      | none => match engRead s m as_ with
        | (none, t) => stopGather t col n g
        | (some bs, t) =>
          let (r, ps) := putRow t m g dst (bs.map fun b => (b.1, [b.2]))
          if r.stop.isSome then stopGather r.s col n g else nextRow (setGather r.s col n fun g => { g with parts := ps }) col n (!r.ok)
    | _, _ => stopGather s col n g

/-- A row beyond the table is zero-filled, with a record of its position (R274). -/
def zeroRow (s : State) (col n : Nat) (g : Gather) : State :=
  let m := g.mover col
  let dst := refOff g.x3 + g.row * g.rowb
  if heldGather s col n [] (rangeLines s m g.x3 g.e3 true dst g.rowb) then s
  else match m.waitAt s ((engAccs s m g.x3 g.e3 g.hint.toNat true dst g.rowb).getD []) with
    | some t => t
    | none =>
      let (r, ps) := putRow (m.note s 0x4B g.ref (w64 g.row)) m g dst (List.replicate g.rowb (0, []))
      if r.stop.isSome then stopGather r.s col n g else nextRow (setGather r.s col n fun g => { g with parts := ps }) col n true

/-- The distinct index values of a gather that the engine's directory holds (R405). -/
def directoryOf (g : Gather) : Nat := ((g.idx.take g.row).filter fun v => !(v == 2 ^ (8 * g.iw) - 1)).eraseDups.length
/-- The directory of a column and its pool are exhausted (R405, log 23). -/
def directoryFull (s : State) (col : Nat) : Bool :=
  let n := ((s.col col).gathers.take 8).foldl (fun n g => n + directoryOf g) 0
  decide (8192 ≤ n) && decide (8192 + Config.poolEntries ≤ n)

/-- One row of a gather. -/
def gatherRow (s : State) (col n : Nat) (g : Gather) : State :=
  if g.idx.length ≤ g.row ∨ g.count ≤ g.row then s
  else match rowSrc g g.row with
    | .skip => nextRow s col n false
    | .zero => zeroRow s col n g
    | .table v => if directoryFull s col then stopGather s col n g else moveRow s col n g g.x1 g.e1 (refOff g.x1 + v * g.rowb)
    | .again q => moveRow s col n g g.x3 g.e3 (refOff g.x3 + q * g.rowb)

/-! ### Encoders (R407 to R410) -/

/-- A stream's descriptor. -/
def streamWords (s : State) (st : Nat) : List Word := (List.range 8).map fun i => s.word (s.strdesc + 64 * st + 8 * i)

/-- A descriptor within its limits (R407); another counts as not configured. -/
def streamOk (w : List Word) : Bool :=
  let f (i lo n : Nat) : Nat := fld (w.getD i 0) lo n
  f 0 0 1 == 1 && f 0 7 2 != 3 && decide (1 ≤ f 0 14 4) && decide (f 0 14 4 ≤ 8) && f 0 18 46 == 0
  && decide (64 ≤ f 1 0 16) && decide (f 1 0 16 ≤ 4096) && f 1 0 16 % 8 == 0
  && decide (64 ≤ f 1 16 16) && decide (f 1 16 16 ≤ 2304) && f 1 16 16 % 8 == 0
  && f 1 32 24 % 64 == 0 && f 1 56 8 == 0 && f 2 40 24 == 0 && f 4 0 32 % 64 == 0
  && f 5 48 16 == 0 && w.getD 6 0 == 0 && w.getD 7 0 == 0

/-- The status of a frame offered to its stream (R275). -/
def frameStatus (s : State) (f : Frame) : Word :=
  let w := streamWords s f.stream
  if !streamOk w || fld (w.getD 0 0) 1 6 != f.part.toNat then 2
  else if fld (w.getD 0 0) 14 4 ≤ (Tab.get s.streams f.stream []).length then 1 else 0

/-- An encode node is decided: status 1 or 2 is a graph error (R410, R419). -/
def encodeNodeDone (s : State) (r : NodeRef) (st : Word) : State :=
  let s := modNode s r fun x => { x with
    decided := true
    taken := some 0 }
  if st = 0 then s else graphError s r.job ((findNode s r).elim 0 fun x => x.va) (some r.node)

/-- A frame is offered: queued when its status is 0, and the status reaches d or the node. -/
def offerFrame (s : State) (f : Frame) : State :=
  let st := frameStatus s f
  let s := if st = 0 then { s with streams := Tab.put s.streams f.stream (Tab.get s.streams f.stream [] ++ [f]) } else s
  match f.dst, f.node with
  | some d, _ => fillOf s f.c f.plc d.dst (.w st) [] d.pc
  | none, some r => encodeNodeDone s r st
  | none, none => s

/-- The stream whose head an encoder starts next (R408): the earliest presentation TSC, then the lower stream number. -/
def nextStream (s : State) (enc : Nat) : Option (Nat × Frame) :=
  ((s.streams.filter fun (p : Nat × List Frame) => fld ((streamWords s p.1).getD 0 0) 9 5 == enc).filterMap fun (p : Nat × List Frame) =>
    p.2.head?.map fun f => (p.1, f)).foldl (fun (b : Option (Nat × Frame)) (q : Nat × Frame) => match b with
      | none => some q
      | some x => if q.2.pts.toNat < x.2.pts.toNat then some q else some x) none

/-- Bytes of global memory as an encoder reads them (R408). DESIGN CHOICE (log 80): R348 gives it no cache, and it goes through the page tables at once. -/
def encRead (s : State) (part : BitVec 6) (va n : Nat) : Option (List Byte) :=
  (List.range n).mapM fun i =>
    let a := (va + i) % 2 ^ 57
    (walkTable s part a).bind fun t =>
      let pa := physOf t a
      if !pteRd t.pte || noMemory pa || s.isBad pa then none else some (s.byte pa)

/-- A record of an encoder, unit 6 of its tower's I/O station (R407, R463). -/
def encNote (s : State) (enc : Nat) (part : BitVec 6) (code : Nat) (obj det : Word) : State :=
  s.recordUnit (19 * (enc / 8) + 18) 6 part.toNat code obj det

/-- The read of `n` bytes by a unit that lies in no column, with their lines in L2 (R338, R343) and its race checks (R325). -/
def encReads (s : State) (enc : Nat) (part : BitVec 6) (va n : Nat) : State :=
  tableReads (fun s code obj det => encNote s enc part code obj det) s part va n

/-- Where the pages of `n` bytes that an encoder reads have their homes, one address a word. -/
def encPlaces (s : State) (part : BitVec 6) (va n : Nat) : List Nat :=
  (wordPieces (n / 8 + 2) va n).filterMap fun p => (walkTable s part p.1).map fun t => physOf t p.1
/-- The words of a frame's two planes (R407). -/
def framePlaces (s : State) (f : Frame) : List Nat :=
  let w := streamWords s f.stream
  let h := fld (w.getD 1 0) 16 16
  let pitch := fld (w.getD 1 0) 32 24
  match f.va with
  | none => []
  | some va => encPlaces s f.part va (pitch * h) ++ encPlaces s f.part (va + fld (w.getD 2 0) 0 40) (pitch * (h / 2))
/-- A word that an encoder cannot reach: its home has no power, or the system route from the I/O station fails (R442, R443). -/
def encHeld (s : State) (enc : Nat) (part : BitVec 6) (a : Nat) : Bool :=
  !homeUp s a || (sysCheck s part.toNat (19 * (enc / 8) + 18) (stationOfCol (homeCol a))).isSome

/-- What reading a frame's two planes leaves: their lines in L2, and the race checks (R325, R338, R407). -/
def frameReads (s : State) (enc : Nat) (f : Frame) : State :=
  let w := streamWords s f.stream
  let h := fld (w.getD 1 0) 16 16
  let pitch := fld (w.getD 1 0) 32 24
  match f.va with
  | none => s
  | some va => encReads (encReads s enc f.part va (pitch * h)) enc f.part (va + fld (w.getD 2 0) 0 40) (pitch * (h / 2))

/-- A frame's luma and chroma planes (R407). -/
def frameBytes (s : State) (f : Frame) : Option (List Byte) :=
  let w := streamWords s f.stream
  let h := fld (w.getD 1 0) 16 16
  let pitch := fld (w.getD 1 0) 32 24
  f.va.bind fun va => (encRead s f.part va (pitch * h)).bind fun y =>
    (encRead s f.part (va + fld (w.getD 2 0) 0 40) (pitch * (h / 2))).map fun c => y ++ c

/-- The handle entry that a reference names in a partition's loader handle table (R115). -/
def partEntry (s : State) (part : BitVec 6) (ref : Word) : Option HEntry :=
  (s.part part.toNat).ltable.bind fun base =>
    (partWords s part (fld base 12 45 * 4096 + 32 * refIdx ref) 4).bind fun w =>
      let e : HEntry := ⟨w.getD 0 0, w.getD 1 0, w.getD 2 0, w.getD 3 0⟩
      if !e.valid || decide (4 < e.kind) || e.reserved then none else some e

/-- Writes bytes to an encoder's output ring. -/
def ringPut (s : State) (f : Frame) (ref : Word) (e : HEntry) (o : Nat) (bs : List Byte) : Put :=
  engPut ⟨cellOf f.c, f.c, f.part, ref, none⟩ ref e 0 (fun _ => none) (bs.length / 64 + 2) s ((refOff ref : Int) + o) (bs.map fun b => (b, []))

/-- A frame's record in the output ring (R409). -/
def frameRecord (x : Enc) (key late : Bool) (tend : Word) (bs : List Byte) : List Byte :=
  let b (p : Bool) (n : Nat) : Nat := if p then 2 ^ n else 0
  wordBytes (w64 (bs.length + x.frame.stream * 2 ^ 32 + b key 42 + b late 43 + b x.failed 44)) ++ wordBytes x.frame.pts ++ wordBytes x.tstart
    ++ wordBytes tend ++ pad8 bs

/-- The record is written and the tail advanced once the ring has room, and a late or failed frame is recorded (R409). A ring that cannot be reached
takes no record. -/
def writeFrame (s : State) (enc : Nat) (x : Enc) (tend : Word) : State :=
  let f := x.frame
  let w := streamWords s f.stream
  let n := Tab.get s.frameCount f.stream 0
  let gop := fld (w.getD 5 0) 32 16
  let key := n == 0 || (gop != 0 && n % gop == 0)
  let late := decide (f.pts.toNat + fld (w.getD 4 0) 32 32 < tend.toNat)
  let rec_ := frameRecord x key late tend (if x.failed then [] else Config.bitstream (w.take 6) x.data key)
  let size := fld (w.getD 4 0) 0 32 - 64
  let ref := w.getD 3 0
  let done (s : State) : State :=
    let s := if late || x.failed then encNote s enc f.part 0x4C (w64 f.stream) f.pts else s
    { s with
      frameCount := Tab.put s.frameCount f.stream (n + 1)
      encs := Tab.del s.encs enc }
  match partEntry s f.part ref with
  | none => done s
  | some e =>
    match partWord s f.part (e.base + refOff ref), partWord s f.part (e.base + refOff ref + 8) with
    | some tail, some head =>
      let s := encReads s enc f.part (e.base + refOff ref) 16
      if size < (tail - head).toNat + rec_.length then s
      else
        let o := tail.toNat % size
        let r := ringPut s f ref e (64 + o) (rec_.take (size - o))
        let r := ringPut r.s f ref e 64 (rec_.drop (size - o))
        done (ringPut r.s f ref e 0 (wordBytes (tail + w64 rec_.length))).s
    | _, _ => done s

/-! ### Events -/

/-- COPY_SLOT_ALLOCATION: the oldest waiting job takes the lowest free slot; its transfer identifier fills d (R258), the receivers that a multicast skips are
recorded (R263), and an encode that breaks R400 stops. -/
def execCopySlotAllocation (cell : Nat) (s : State) : Host.Outcome State Fault Refusal :=
  match (s.cell cell).cwait, freeCopySlot (s.cell cell) with
  | p :: t, some i =>
    if !(s.col (colOf cell)).cellPower then .next s else
    let tid := w64 (i + 64 * (Tab.get (s.cell cell).gens i 0).toNat)
    let p := { p with tid := tid }
    let s := s.modCell cell fun k => { k with
      cwait := t
      copies := Tab.put k.copies i p }
    let s := match p.reg with
      | some d => fillOf s p.c p.plc d (.w tid) [] 0
      | none => s
    let s := noteSkipped s cell p
    .next (if p.encode ∧ !encodeOk p then stopCopy s cell i p 0 else if p.total = 0 then moveOn s cell i p 0 false else s)
  | _, _ => .next s

/-- COPY_LINE: the next line, or encoded block, of a held job (R396 to R403). -/
def execCopyLine (cell slot : Nat) (s : State) : Host.Outcome State Fault Refusal :=
  match Tab.get? (s.cell cell).copies slot with
  | some p =>
    if p.ended || !(s.col (colOf cell)).cellPower then .next s
    else
      let (s, p) := dropReceivers (s.modCell cell fun k => { k with copyTurn := slot }) cell slot p
      .next (if p.encode then encodeBlock s cell slot p else copyRun s cell slot p)
  | none => .next s

/-- BARRIER_CREDIT: sectors, or an encoder's arrival, reach a barrier (R260, R267, R275); a copy slot may free (R258). -/
def execBarrierCredit (n : Nat) (s : State) : Host.Outcome State Fault Refusal :=
  match s.credits[n]? with
  | some r =>
    let t := { s with credits := takeOut n s.credits }
    let c := (r.own.map fun p => p.1).getD 0
    let u := if Config.peerBase ≤ r.addr ∨ !homeUp s r.addr then t
      else if s.isBad r.addr then t.recordCtx c 0x41 (w64 (spadOff r.addr)) 0
      else if r.arrive then barArrive t c r.addr (w64 (spadOff r.addr))
      else barAddSec t c r.addr (-(r.n : Int)) r.err
    .next (match r.slot with
      | some (k, i) => freeSlot u k i
      | none => u)
  | none => .next s

/-- GATHER_INDEX_READ: the next index line of one of the eight active gathers (R274, R404). -/
def execGatherIndexRead (col n : Nat) (s : State) : Host.Outcome State Fault Refusal :=
  match (s.col col).gathers[n]? with
  | some g => .next (if 8 ≤ n ∨ !(s.col col).stationPower then s else readIndices s col n g)
  | none => .next s

/-- GATHER_ROW_MOVE: the next row of a gather (R274, R404 to R406). -/
def execGatherRowMove (col n : Nat) (s : State) : Host.Outcome State Fault Refusal :=
  match (s.col col).gathers[n]? with
  | some g => .next (if 8 ≤ n ∨ !(s.col col).stationPower then s else gatherRow s col n g)
  | none => .next s

/-- FRAME_OFFER: a frame is queued to its stream, or its status says why not (R275, R407, R410). -/
def execFrameOffer (n : Nat) (s : State) : Host.Outcome State Fault Refusal :=
  match s.frames[n]? with
  | some f =>
    if (s.frames.take n).any fun x => x.stream == f.stream then .next s
    else .next (offerFrame { s with frames := takeOut n s.frames } f)
  | none => .next s

/-- ENCODER_FRAME_START: a free encoder takes the earliest stream head (R408). -/
def execEncoderFrameStart (enc : Nat) (s : State) : Host.Outcome State Fault Refusal :=
  match Tab.get? s.encs enc, nextStream s enc with
  | none, some (st, f) => .next { s with
      streams := Tab.put s.streams st ((Tab.get s.streams st []).drop 1)
      encs := Tab.put s.encs enc ⟨f, s.tsc, false, false, [], none⟩ }
  | _, _ => .next s

/-- ENCODER_FRAME_READ_DONE: the frame is read, with its race checks, and one arrival leaves for its barrier (R275, R325, R408); a
failing route holds it (R443). -/
def execEncoderFrameReadDone (enc : Nat) (s : State) : Host.Outcome State Fault Refusal :=
  match Tab.get? s.encs enc with
  | some x =>
    if x.read then .next s
    else match (framePlaces s x.frame).find? (encHeld s enc x.frame.part) with
    | some a => .next (noteRoute (fun s route k => encNote s enc x.frame.part 0x58 route k) s x.frame.part.toNat (19 * (enc / 8) + 18) (stationOfCol (homeCol a)))
    | none =>
      let d := frameBytes s x.frame
      let y : Enc := { x with
        read := true
        failed := d.isNone
        data := d.getD [] }
      let s := { s with encs := Tab.put s.encs enc y }
      let s := frameReads s enc x.frame
      .next (match x.frame.bar with
        | some (a, _) => { s with credits := s.credits ++ [⟨a, 0, false, true, some (x.frame.c, x.frame.plc), none, none⟩] }
        | none => s)
  | none => .next s

/-- ENCODER_RECORD_WRITE: the encode ends, which stamps the TSC, and its record is written, at once or when the ring has room (R408, R409). -/
def execEncoderRecordWrite (enc : Nat) (s : State) : Host.Outcome State Fault Refusal :=
  match Tab.get? s.encs enc with
  | some x =>
    if !x.read then .next s
    else
      let tend := x.tend.getD s.tsc
      .next (writeFrame { s with encs := Tab.put s.encs enc { x with tend := some tend } } enc x tend)
  | none => .next s

end Sys2Proof.Machine
end

