-- ==== Sys2Proof/Machine/Jobs.lean ====
section
/-! DEFINITION. The scheduler's walk (R411 to R421, R427, R428, R430, R431, R453): submissions, jobs, phases, graphs and their nodes, contracts and
their releases. -/

namespace Sys2Proof.Machine

/-! ### Jobs (R413, R416, R428, R453) -/

/-- A field of a descriptor's word. -/
def dfld (w : List Word) (i lo n : Nat) : Nat := fld (w.getD i 0) lo n

/-- The rules on the fields of a descriptor, each with the field it is about: 64 times its word, and its lowest bit (R416, log 18). -/
abbrev Checks := List (Nat × Bool)
/-- The first field that breaks its rule. -/
def firstWrong (l : Checks) : Option Nat := (l.find? fun p => !p.2).map fun p => p.1
/-- Words of a descriptor from `i` on are zero. -/
def zeroFrom (w : List Word) (i : Nat) : Checks := ((List.range w.length).drop i).map fun k => (64 * k, w.getD k 0 == 0)
/-- `n` bits of word `i` from bit `lo` are zero. -/
def zeroAt (w : List Word) (i lo n : Nat) : Nat × Bool := (64 * i + lo, dfld w i lo n == 0)
/-- A field that is at least 1. -/
def someAt (w : List Word) (i lo n : Nat) : Nat × Bool := (64 * i + lo, decide (1 ≤ dfld w i lo n))

/-- The rules of R413 on a job descriptor. -/
def jobChecks (w : List Word) : Checks :=
  [(0, decide (dfld w 0 0 8 ≤ 1)), zeroAt w 0 8 8, zeroAt w 0 48 16]
  ++ (if dfld w 0 0 8 = 0 then [zeroAt w 1 0 4, zeroAt w 1 57 7, someAt w 2 0 16, zeroAt w 2 16 48, zeroAt w 4 0 64]
    else [zeroAt w 1 0 64, zeroAt w 2 0 64, zeroAt w 4 0 7, zeroAt w 4 57 7])
  ++ [zeroAt w 3 0 3, zeroAt w 3 57 7] ++ zeroFrom w 5
/-- A job descriptor that keeps R413. -/
def jobOk (w : List Word) : Bool := (firstWrong (jobChecks w)).isNone

/-- Slots that a reserved context of a contract's mode costs (R428). -/
def slotCost (mode : Nat) : Nat := if mode = 0 then 1 else if mode = 1 then 2 else 4
/-- Slots that the admitted contracts reserve on a column. -/
def reserved (s : State) (col : Nat) : Nat :=
  ((s.jobs.filter fun j => !j.done).map fun j => (j.contract.map fun k => k.ctxs.getD col 0 * slotCost k.mode).getD 0).foldl (· + ·) 0

/-- A contract from its descriptor (R427). -/
def contractOf (w : List Word) : Contract where
  ovr := dfld w 0 0 1 == 1
  mode := dfld w 0 1 2
  period := dfld w 1 0 40
  budget := dfld w 2 0 40
  deadline := dfld w 3 0 40
  first := w.getD 4 0
  graph := w.getD 5 0
  notify := BitVec.ofNat 14 (dfld w 6 0 14)
  ctxs := (List.range 64).map fun c => dfld w (8 + c / 8) (8 * (c % 8)) 8
  release := 0
  misses := 0
  missed := none
  running := none

/-- Check 1 of R428. -/
def contractFields (w : List Word) : Bool :=
  dfld w 0 3 61 == 0 && dfld w 1 40 24 == 0 && dfld w 2 40 24 == 0 && dfld w 3 40 24 == 0 && dfld w 5 57 7 == 0 && dfld w 6 14 50 == 0
  && w.getD 7 0 == 0 && dfld w 0 1 2 != 3 && decide (10000 ≤ dfld w 1 0 40) && decide (dfld w 1 0 40 ≤ 1000000000) && decide (1 ≤ dfld w 2 0 40)
/-- Check 2. -/
def contractTimes (k : Contract) : Bool := decide (k.budget + 4000 ≤ k.deadline) && decide (k.deadline ≤ k.period)
/-- Check 3: the first column on which the sum would pass 224. -/
def contractColumn (s : State) (k : Contract) : Option Nat :=
  (List.range 64).find? fun c => decide (224 < reserved s c + k.ctxs.getD c 0 * slotCost k.mode)

/-- A contract job is admitted, or ends refused (R428). -/
def admitContract (s : State) (x : Job) (w : Option (List Word)) : State :=
  let s := { s with jobs := s.jobs ++ [x] }
  match w with
  | none => endJob s x.id 3 3 0
  | some w =>
    let k := contractOf w
    if !contractFields w then endJob s x.id 3 3 0
    else if !contractTimes k then endJob s x.id 3 2 0
    else match contractColumn s k with
      | some c => endJob s x.id 3 1 c
      | none => modJob s x.id fun x => { x with contract := some k }

/-- The scheduler takes a queued job (R413): a job-level descriptor fault ends it with st = 4, or, unreadable, with its record alone. -/
def startJob (s : State) (part : BitVec 6) (va : Word) : State :=
  let s := schedReads s part va.toNat 64
  match partWords s part va.toNat 8 with
  | none => graphRecord s part va
  | some w =>
    let jid := jidOf (w.getD 0 0)
    let x : Job := ⟨s.jobSeq, part, va, jid, w.getD 1 0, dfld w 2 0 16, w.getD 3 0, 0, [], false, none, false⟩
    let s := { s with jobSeq := s.jobSeq + 1 }
    let twice := s.jobs.any fun j => !j.done && j.part == part && j.jid == jid
    match (firstWrong (jobChecks w)).orElse fun _ => if twice then some 16 else none with
    | some f => endJob { graphRecord s part va none (some f) with jobs := s.jobs ++ [{ x with nph := 0 }] } x.id 4 0 0
    | none =>
      if dfld w 0 0 8 = 1 then admitContract (schedReads s part (dfld w 4 0 57) 128) x (partWords s part (dfld w 4 0 57) 16)
      else { s with jobs := s.jobs ++ [x] }

/-! ### Graphs (R414, R415, R418, R421) -/

/-- Successor entry `i` of an array of 16-bit node indices. -/
def succAt (s : State) (part : BitVec 6) (succ i : Nat) : Option Nat :=
  (partByte s part (succ + 2 * i)).bind fun lo => (partByte s part (succ + 2 * i + 1)).map fun hi => lo + 256 * hi

/-- The number of successor sets of a kind (R415). -/
def setsOk (kind n : Nat) : Bool := if kind = 5 then n == 2 else if kind = 7 then decide (1 ≤ n) && decide (n ≤ 8) else n == 1

/-- The rules of R415 on words 0 to 2 of a node of a graph of `nn` nodes, with the graph's successor array. -/
def headChecks (w : List Word) (nn : Nat) (succ : List Nat) : Checks :=
  let sets := dfld w 0 8 8
  let mine := (succ.drop (dfld w 1 0 32)).take (dfld w 1 32 16)
  [(0, decide (1 ≤ dfld w 0 0 4) && decide (dfld w 0 0 4 ≤ 7))]
  ++ (if dfld w 0 0 4 = 1 then [(5, decide (dfld w 0 5 2 ≤ 1))] else [zeroAt w 0 4 3])
  ++ [zeroAt w 0 7 1, (8, setsOk (dfld w 0 0 4) sets), zeroAt w 0 48 16, (64, decide (dfld w 1 0 32 + dfld w 1 32 16 ≤ succ.length)), zeroAt w 1 48 16,
      (128, ((List.range sets).map fun i => dfld w 2 (8 * i) 8).foldl (· + ·) 0 == dfld w 1 32 16), (128 + 8 * sets, dfld w 2 (8 * sets) 64 == 0),
      (64, mine.all fun i => decide (i < nn))]

/-- The successor sets, one after another (R415). -/
def cutSets : List Nat → List Nat → List (List Nat)
  | [], _ => []
  | n :: t, l => l.take n :: cutSets t (l.drop n)

/-- The successor sets that words 1 and 2 of a node cut from its graph's successor array. -/
def setsOf (w : List Word) (succ : List Nat) : List (List Nat) :=
  cutSets ((List.range (dfld w 0 8 8)).map fun k => dfld w 2 (8 * k) 8) (succ.drop (dfld w 1 0 32))

/-- A node as its graph starts, from the words read then (R418). -/
def startNode (va : Nat) (succ : List Nat) (w : List Word) : Node :=
  { va := w64 va, kind := dfld w 0 0 4, pred := dfld w 0 16 16, sig := dfld w 0 32 16, ran := false, st := .waiting, sets := setsOf w succ, words := w,
    next := 0, total := 0, left := 0, ready := 0, decided := false, taken := none, body := none, stalled := false }

/-- First and last node of a loop's body. -/
def Node.bodyEnds (x : Node) : Nat × Nat := (dfld x.words 4 0 16, dfld x.words 4 16 16)

/-- A node with an edge that joins a loop's body and a node outside it (R421). -/
def crossEdge (ns : List Node) : Option Nat :=
  let at_ := ns.zip (List.range ns.length)
  (at_.find? fun (p : Node × Nat) => ns.any fun l => l.kind == 6 && p.1.sets.flatten.any fun m => l.bodyOf p.2 != l.bodyOf m).map fun p => p.2

/-- A loop node whose body is no range of the graph's nodes, and the field that is wrong. -/
def badBody (ns : List Node) : Option (Nat × Nat) :=
  (ns.zip (List.range ns.length)).findSome? fun (p : Node × Nat) =>
    if p.1.kind ≠ 6 then none
    else if ns.length ≤ p.1.bodyEnds.2 then some (p.2, 64 * 4 + 16)
    else if p.1.bodyEnds.2 < p.1.bodyEnds.1 then some (p.2, 64 * 4) else none

/-- A structural fault of a graph (R418, R421): the node, and the field. -/
def structureFault (ns : List Node) : Option (Nat × Nat) := (badBody ns).orElse fun _ => (crossEdge ns).map fun i => (i, 64)

/-- The loop with the smallest body that holds node `i`. -/
def bodyFor (ns : List Node) (i : Nat) : Option Nat :=
  ((ns.zip (List.range ns.length)).filter fun (p : Node × Nat) => p.1.bodyOf i).foldl (fun (b : Option Nat) (p : Node × Nat) => match b with
    | none => some p.2
    | some q =>
      let len (x : Node) : Nat := x.bodyEnds.2 - x.bodyEnds.1
      if (ns[q]?.map len).getD 0 ≤ len p.1 then some q else some p.2) none

/-- The bodies of a graph's loops: each node knows the smallest that holds it, and one that it does not know yet holds the node (R421). -/
def setBodies (ns : List Node) : List Node :=
  (ns.zip (List.range ns.length)).map fun (p : Node × Nat) => match bodyFor ns p.2 with
    | some b => if p.1.body = some b then p.1 else { p.1 with
      body := some b
      st := if p.1.st = .waiting then .held else p.1.st }
    | none => { p.1 with
      body := none
      st := if p.1.st = .held then .waiting else p.1.st }

/-- A descriptor fault (R416): the descriptor's address, the node's index, and the field. -/
structure DescFault where
  va : Word
  node : Option Nat
  field : Option Nat
deriving DecidableEq, Repr

/-- A graph that starts (R418): the successor array and words 0 to 2 of its nodes are read, and the structure is checked; nodes of loop bodies are held. A fault
leaves the graph complete. DESIGN CHOICE (log 18): a wrong entry of the successor array is named at its node, and an array that cannot be read by its address. -/
def startGraph (s : State) (part : BitVec 6) (entry : Nat) : Graph × Option DescFault :=
  let bad (f : DescFault) : Graph × Option DescFault := (⟨f.va, [], true, []⟩, some f)
  match partWords s part entry 4 with
  | none => bad ⟨w64 entry, none, none⟩
  | some w =>
    let nodes := dfld w 0 0 57
    let nn := dfld w 1 0 16
    let va (i : Nat) : Nat := nodes + 128 * i
    if nodes % 128 ≠ 0 then bad ⟨w64 entry, none, some 0⟩
    else if nn = 0 then bad ⟨w64 entry, none, some 64⟩
    else match (List.range (dfld w 3 0 32)).mapM (succAt s part (dfld w 2 0 57)) with
      | none => bad ⟨w64 (dfld w 2 0 57), none, none⟩
      | some succ =>
        match (List.range nn).find? fun i => (partWords s part (va i) 5).isNone with
        | some i => bad ⟨w64 (va i), some i, none⟩
        | none =>
          let ws := (List.range nn).map fun i => (partWords s part (va i) 5).getD []
          let ns := (numbered ws).map fun (p : List Word × Nat) => startNode (va p.2) succ p.1
          let wrong := ((numbered ws).findSome? fun (p : List Word × Nat) => (firstWrong (headChecks p.1 nn succ)).map fun f => (p.2, f)).orElse
            fun _ => structureFault ns
          match wrong with
          | some (i, f) => bad ⟨w64 (va i), some i, some f⟩
          | none => (⟨w64 nodes, setBodies ns, false, succ⟩, none)

/-- What the reads of a graph that starts leave (R325, R338). -/
def graphReads (s : State) (part : BitVec 6) (entry : Nat) : State :=
  let s := schedReads s part entry 32
  match partWords s part entry 4 with
  | none => s
  | some w =>
    let s := schedReads s part (dfld w 2 0 57) (2 * dfld w 3 0 32)
    (List.range (dfld w 1 0 16)).foldl (fun s i => schedReads s part (dfld w 0 0 57 + 128 * i) 24) s

/-- The graphs of a phase start together (R411, R418). -/
def startGraphs (s : State) (j : Nat) (part : BitVec 6) (entries : List Nat) : State :=
  let s := entries.foldl (fun s e => graphReads s part e) s
  let gs := entries.map (startGraph s part)
  let s := modJob s j fun x => { x with graphs := gs.map fun g => g.1 }
  (gs.filterMap fun g => g.2).foldl (fun s f => graphError s j f.va f.node f.field) s

/-- Engine work of a job's nodes still goes on (R319). -/
def jobEngines (s : State) (j : Nat) : Bool :=
  let mine (r : Option NodeRef) : Bool := r.any fun r => r.job == j
  (s.cells.any fun (p : Nat × Cell) => (p.2.cwait.any fun k => mine k.node) || p.2.copies.any fun (q : Nat × Copy) => mine q.2.node)
  || (s.cols.any fun (p : Nat × Column) => p.2.gathers.any fun g => mine g.node) || (s.frames.any fun f => mine f.node)

/-- A phase starts (R319, R414); a fault in its entry ends the job with st = 4 (R416). -/
def startPhase (s : State) (x : Job) : State :=
  let at_ := x.ptab.toNat + 16 * x.phase
  let s := schedReads s x.part at_ 16
  match partWords s x.part at_ 2 with
  | none => endJob (graphRecord s x.part (w64 at_)) x.id 4 0 0
  | some w =>
    if dfld w 1 0 16 = 0 then endJob (graphRecord s x.part (w64 at_) none (some 64)) x.id 4 0 0
    else
      let s := modJob s x.id fun x => { x with phase := x.phase + 1 }
      progress (startGraphs s x.id x.part ((List.range (dfld w 1 0 16)).map fun i => dfld w 0 0 57 + 32 * i)) x.id

/-! ### Nodes (R415, R418, R421, R426) -/

/-- A fault in a node's descriptor cancels its graph (R416). -/
def nodeFault (s : State) (r : NodeRef) (va : Word) (field : Option Nat := none) : State :=
  progress (cancelGraph (graphError s r.job va (some r.node) field) r.job r.graph) r.job

/-- The rules of R415 on words 3 to 15 of a node. -/
def nodeChecks (w : List Word) : Checks :=
  match dfld w 0 0 4 with
  | 1 => [zeroAt w 3 0 1, zeroAt w 3 57 7, someAt w 4 0 16, someAt w 4 16 16, someAt w 4 32 16, zeroAt w 4 52 12, zeroAt w 9 40 24, zeroAt w 11 10 6,
      zeroAt w 11 26 38, zeroAt w 13 0 1, zeroAt w 13 57 7] ++ zeroFrom w 14
  | 2 => [zeroAt w 9 32 1, zeroAt w 10 10 54] ++ zeroFrom w 11
  | 3 => zeroAt w 7 2 62 :: zeroFrom w 9
  | 4 => zeroAt w 4 10 54 :: zeroFrom w 7
  | 5 => [zeroAt w 3 0 3, zeroAt w 3 57 7] ++ zeroFrom w 4
  | 6 => [zeroAt w 3 0 3, zeroAt w 3 57 7, zeroAt w 4 32 32, zeroAt w 5 32 32, someAt w 5 0 32] ++ zeroFrom w 6
  | 7 => [zeroAt w 3 0 3, zeroAt w 3 57 7] ++ zeroFrom w 4
  | _ => [(0, false)]

/-- A job's launches are top-note when it runs under a contract (R425). -/
def launchNote (x : Job) (n : Node) : Nat := if x.contract.isSome then 2 else dfld n.words 0 5 2
/-- The mode a launch's cells must be in: of its contract, or of its node; none is any (R422, R430). -/
def launchMode (x : Job) (n : Node) : Option CtxMode :=
  let of (k : Nat) : Option CtxMode := if k = 0 then some .m16 else if k = 1 then some .m8 else if k = 2 then some .m4 else none
  match x.contract with
  | some k => of k.mode
  | none => if dfld n.words 4 48 2 = 0 then none else of (dfld n.words 4 48 2 - 1)

/-- A cell that a launch may use: in its range and of its partition (R422). -/
def inRange (s : State) (x : Job) (n : Node) (cell : Nat) : Bool :=
  decide (dfld n.words 11 0 10 ≤ cell) && decide (cell ≤ dfld n.words 11 16 10) && (s.cell cell).part == x.part
/-- Its mode is the launch's. -/
def modeFits (s : State) (x : Job) (n : Node) (cell : Nat) : Bool := (launchMode x n).all fun m => m == (s.cell cell).mode
/-- A column is above its dispatch threshold (R429, R469). -/
def aboveThreshold (k : Column) : Bool := decide (1 ≤ k.level) || k.hot

/-- The contexts of a column, lowest cell and context first. -/
def columnCtxs (s : State) (col : Nat) : List Nat :=
  (List.range 16).flatMap fun i => (List.range (s.cell (16 * col + i)).mode.contexts).map fun k => 16 * (16 * col + i) + k

/-- The contexts of a column left after removing, from the highest-numbered cell down, the slots that contracts reserve (R426). -/
def shareAfter (s : State) : Nat → List Nat → List Nat
  | 0, l => l
  | _, [] => []
  | need + 1, c :: t => shareAfter s (need + 1 - 16 / (s.cell (cellOf c)).mode.contexts) t

/-- A column's share of a co-resident launch (R426): the contexts eligible for it, those apart that the slots of contracts take. -/
def columnShare (s : State) (x : Job) (n : Node) (col : Nat) : Nat :=
  (shareAfter s (reserved s col) ((columnCtxs s col).filter fun c => inRange s x n (cellOf c) && modeFits s x n (cellOf c)).reverse).length

/-- A co-resident launch's capacity (R426). -/
def capacity (s : State) (x : Job) (n : Node) : Nat := ((List.range 64).map (columnShare s x n)).foldl (· + ·) 0

/-- The reason for which a launch is rejected (R426): 2 when its range holds cells of its partition and none of them is in its mode, 1 otherwise. -/
def rejectReason (s : State) (x : Job) (n : Node) : Nat :=
  let cells := (List.range 1024).filter (inRange s x n)
  if !cells.isEmpty && !cells.any (modeFits s x n) then 2 else 1

/-- A launch becomes ready, or is rejected (R426): a rejected one completes with a graph error and skip decrements. -/
def readyLaunch (s : State) (r : NodeRef) (x : Job) (n : Node) : State :=
  let total := dfld n.words 4 0 16 * dfld n.words 4 16 16 * dfld n.words 4 32 16
  if dfld n.words 0 4 1 = 1 ∧ capacity s x n < total then
    modNode (graphError s r.job n.va (some r.node) (some (rejectReason s x n))) r fun _ => { n with
      st := .running
      decided := true
      taken := none }
  else modNode s r fun _ => { n with
    st := .ready
    total := total
    left := total
    next := 0
    ready := s.tsc.toNat }

/-- A unit that works for a node at a cell. -/
def nodeMover (part : BitVec 6) (cell : Nat) : Mover := ⟨cell, 16 * cell, part, 0, none⟩

/-- The checks of a peer entry for a node's unit: a route passes and, on this device, the target strand lives (R25, R444); a cell without power is met by the engine,
which waits for it (R384). -/
def nodePeerOk (s : State) (part : BitVec 6) (cell : Nat) (e : HEntry) : Bool :=
  e.kind != 2 || (peerPath s cell part.toNat e).any fun away => away || !(s.col (colOf e.tcell)).cellPower || peerLive s e.tcell e.w2

/-- The entry that a node's reference names, if an access of `len` bytes at offset `o` passes `read_ref` (R39, R415). -/
def nodeRefOk (s : State) (part : BitVec 6) (cell : Nat) (ref : Word) (o : Int) (len align : Nat) (write block : Bool) : Option HEntry :=
  (partEntry s part ref).bind fun e =>
    let fmt := refFmt ref
    if decide (0x11 < fmt) || (blockFmt fmt && (decide (refLbl ref < 4) || decide (8 < refLbl ref) || !block)) || decide (o < 0)
        || decide ((e.bound : Int) < o + len) || (if write then !e.wr else !e.rd) || e.kind == 4 || o % align != 0 || !nodePeerOk s part cell e then none
    else some e

/-- The same with the rest of the address phase: translation, the permission of the pages, and the size of a scratchpad (R152, R254). The races of the region are
logged by the engine, whose accesses they are (R326). -/
def nodeRegion (s : State) (part : BitVec 6) (cell : Nat) (ref : Word) (len align : Nat) (write : Bool) : Option HEntry :=
  (nodeRefOk s part cell ref (refOff ref) len align write false).bind fun e =>
    (engAccs s (nodeMover part cell) ref e 0 write (refOff ref) len).map fun _ => e

/-- The barrier that a node's reference names, for a unit of a cell (R268): on a 16-byte-aligned offset (log 28). -/
def nodeBarrier (s : State) (part : BitVec 6) (cell : Nat) (ref : Word) : Option Nat :=
  (nodeRefOk s part cell ref (refOff ref) 16 16 true false).bind fun e =>
    if e.kind ≠ 1 ∧ e.kind ≠ 2 then none
    else (engAccs s (nodeMover part cell) ref e 0 true (refOff ref) 16).bind fun as_ => as_.head?.map fun a => a.addr / 16 * 16

/-- A node whose checks fail completes with a graph error, as an encode node's status does (R410). -/
def failNode (s : State) (r : NodeRef) (n : Node) : State :=
  modNode (graphError s r.job n.va (some r.node)) r fun _ => { n with
    st := .running
    decided := true
    taken := some 0 }

/-- The strand number that engine work of a node carries: no placement has it (R412). -/
def nodePlc : Word := BitVec.allOnes 64

/-- The entry that a byte of a copy node's footprint passes its checks with, as CPGO's would (R257, R415). -/
def nodeByteOk (s : State) (part : BitVec 6) (cell : Nat) (ref : Word) (o : Int) (write : Bool) : Option HEntry :=
  (partEntry s part ref).bind fun e =>
    let fmt := refFmt ref
    let room (n : Nat) : Bool := decide (e.base + o + 1 ≤ (n : Int))
    if decide (0x11 < fmt) || (blockFmt fmt && (decide (refLbl ref < 4) || decide (8 < refLbl ref))) || decide (o < 0)
        || decide ((boundEnd ref e : Int) < boundOff ref o + 1) || (if write then !e.wr else !e.rd) || e.kind == 4
        || (e.kind == 1 && !room (s.cell cell).spadSize) || !nodePeerOk s part cell e
        || (e.kind == 2 && !room (if peerPath s cell part.toNat e = some true then 0x100000 else (s.cell e.tcell).spadSize)) then none
    else some e

/-- A copy node queues its job to its cell's engine (R415). -/
def readyCopy (s : State) (r : NodeRef) (x : Job) (n : Node) : State :=
  let cell := dfld n.words 10 0 10
  let snap := (n.words.drop 3).take 7
  let src := snap.getD 0 0
  let dst := snap.getD 1 0
  let shape := snap.getD 2 0
  let bar := snap.getD 5 0
  let h := copyShape shape (snap.getD 3 0) (snap.getD 4 0)
  let lo (ref : Word) (a b : Int) : Int := (copyOff ref : Int) + h.low a b
  let hi (ref : Word) (a b : Int) : Int := (copyOff ref : Int) + h.high a b
  let both (ref : Word) (l k : Int) (w : Bool) : Option HEntry :=
    (nodeByteOk s x.part cell ref l w).bind fun _ => nodeByteOk s x.part cell ref k w
  let se := both src (lo src h.ss1 h.ss2) (hi src h.ss1 h.ss2) false
  let de := if fld shape 56 2 = 1 then
      (partEntry s x.part dst).bind fun e =>
        let (nb, d, w) := encodeSize src dst h.d0
        both dst e.bdir ((e.bdir : Int) + d + nb * w - 1) true
    else if refFmt dst = 9 then none else both dst (lo dst h.ds1 h.ds2) (hi dst h.ds1 h.ds2) true
  if decide (1 < fld shape 56 2) || (h.d0 != 0 && (se.isNone || de.isNone)) || (bit bar 20 && decide ((s.cell cell).spadSize < fld bar 0 20 + 16)) then
    failNode s r n
  else
    let job : Copy := { c := 16 * cell, plc := nodePlc, part := x.part, snap := snap, src := se, dst := de, multi := false, mask := 0,
                        order := (s.cell cell).copyOrder, reg := none, tid := 0, pos := 0, credited := 0, skip := 0, ended := false, out := 0,
                        skipped := 0, follow := none, replay := false, node := some r, parts := [] }
    modNode (s.modCell cell fun k => { k with
      cwait := k.cwait ++ [job]
      copyOrder := k.copyOrder + 1 }) r fun _ => { n with st := .running }

/-- A gather node queues its job to the engine of a column; the node names no cell, so the one whose share it takes is free (log 18). While 16 gathers of it are
queued the node stays ready, with the descriptor that was read (R273, R418). -/
def readyGather (s : State) (r : NodeRef) (x : Job) (n : Node) : State :=
  let cell := Config.pick s.tick % 1024
  let s := { s with tick := s.tick + 1 }
  let w (i : Nat) : Word := n.words.getD (3 + i) 0
  let (count, rowb, iw) := gatherShape (w 2)
  match nodeBarrier s x.part cell (w 5), nodeRegion s x.part cell (w 0) (count * iw) iw false, nodeRefOk s x.part cell (w 1) (refOff (w 1)) 0 8 false false,
      nodeRegion s x.part cell (w 3) (count * rowb) 8 true with
  | some bar, some e0, some e1, some e3 =>
    if !gatherShapeOk (w 2) then failNode s r n
    else if count = 0 then modNode s r fun _ => { n with
      st := .running
      decided := true
      taken := some 0 }
    else if 16 ≤ ((s.col (colOf cell)).gathers.filter fun g => g.cell == cell).length then modNode s r fun _ => { n with st := .ready }
    else
      let g : Gather := { cell := cell, c := 16 * cell, plc := nodePlc, part := x.part, x0 := w 0, x1 := w 1, x2 := w 2, x3 := w 3, e0 := e0, e1 := e1,
                          e3 := e3, hint := BitVec.ofNat 2 (w 4).toNat, bar := bar, ref := w 5, idx := [], moved := 0, credited := 0, node := some r,
                          parts := [], gid := s.stamp }
      modNode (({ s with stamp := s.stamp + 1 } : State).modCol (colOf cell) fun k => { k with gathers := k.gathers ++ [g] }) r fun _ => { n with
        st := .running
        total := s.stamp }
  | _, _, _, _ => failNode s r n

/-- An encode node posts its frame as ENCPOST does (R410). -/
def readyEncode (s : State) (r : NodeRef) (x : Job) (n : Node) : State :=
  let cell := Config.pick s.tick % 1024
  let s := { s with tick := s.tick + 1 }
  let ref := n.words.getD 3 0
  let bref := n.words.getD 6 0
  match nodeRegion s x.part cell ref 1 1 false, nodeBarrier s x.part cell bref with
  | some e, some bar =>
    let f : Frame := { stream := dfld n.words 4 0 10, part := x.part, ref := ref, va := if e.kind = 0 then some ((e.base + refOff ref) % 2 ^ 57) else none,
                       pts := n.words.getD 5 0, bar := some (bar, bref), c := 16 * cell, dst := none, plc := nodePlc, node := some r }
    modNode { s with frames := s.frames ++ [f] } r fun _ => { n with st := .running }
  | _, _ => failNode s r n

/-- The nodes of a loop's body start an iteration with the counts their descriptors now give (R421); none when one cannot be read. -/
def resetBody (s : State) (part : BitVec 6) (l : Node) (li : Nat) (ns : List Node) : Option (List Node) :=
  (ns.zip (List.range ns.length)).mapM fun (p : Node × Nat) =>
    if !l.bodyOf p.2 then some p.1
    else (partWord s part p.1.va.toNat).map fun w => { p.1 with
      pred := fld w 16 16
      sig := fld w 32 16
      ran := false
      st := if p.1.body = some li then .waiting else .held
      next := 0
      decided := false
      taken := none }

/-- What those reads leave (R325, R338). -/
def bodyReads (s : State) (part : BitVec 6) (l : Node) (ns : List Node) : State :=
  (numbered ns).foldl (fun s (p : Node × Nat) => if l.bodyOf p.2 then schedReads s part p.1.va.toNat 8 else s) s

/-- A deciding read (R421): a conditional or switch takes its set; a loop starts an iteration or exits. -/
def decideNode (s : State) (r : NodeRef) (x : Job) (n : Node) : State :=
  let done (s : State) (t : Option Nat) : State := modNode s r fun _ => { n with
    st := .running
    decided := true
    taken := t }
  let s := schedReads s x.part (dfld n.words 3 0 57) 8
  match partWord s x.part (dfld n.words 3 0 57) with
  | none => nodeFault s r n.va
  | some v =>
    if n.kind = 5 then done s (some (if v = 0 then 1 else 0))
    else if n.kind = 7 then
      if v.toNat < n.sets.length then done s (some v.toNat) else done (graphError s r.job n.va (some r.node)) none
    else if v = 0 then done s (some 0)
    else if dfld n.words 5 0 32 ≤ n.next then done (graphError s r.job n.va (some r.node)) (some 0)
    else match (findGraph s r.job r.graph).bind fun g => resetBody s x.part n r.node g.nodes with
      | none => nodeFault s r n.va
      | some ns => modNode (bodyReads (modGraph s r.job r.graph fun g => { g with nodes := ns }) x.part n ns) r fun _ => { n with
        st := .running
        next := n.next + 1 }

/-- A node that is ready runs by the words its read at readiness found. -/
def runNode (s : State) (r : NodeRef) (x : Job) (n : Node) : State :=
  match n.kind with
  | 1 => readyLaunch s r x n
  | 2 => readyCopy s r x n
  | 3 => readyGather s r x n
  | 4 => readyEncode s r x n
  | _ => decideNode s r x n

/-- A node whose counts have reached 0 is read whole, once, checked, and runs by what that read finds (R418): its successor sets are cut anew from the array as it
was read when the graph started. -/
def readyNode (s : State) (r : NodeRef) (x : Job) (g : Graph) (n : Node) : State :=
  let s := schedReads s x.part n.va.toNat 128
  match partWords s x.part n.va.toNat 16 with
  | none => nodeFault s r n.va
  | some w =>
    let n : Node := { n with
      words := w
      kind := dfld w 0 0 4
      sets := setsOf w g.succ }
    match firstWrong (headChecks w g.nodes.length g.succ ++ nodeChecks w) with
    | some f => nodeFault s r n.va (some f)
    | none =>
      let ns := updAt r.node (fun _ => n) g.nodes
      match structureFault ns with
      | some (i, f) => nodeFault s r ((ns[i]?).elim n.va fun y => y.va) (some f)
      | none => runNode (modGraph s r.job r.graph fun g => { g with nodes := setBodies ns }) r x { n with body := bodyFor ns r.node }

/-- A running node has nothing left to do (R419), a loop apart. -/
def nodeDone (s : State) (r : NodeRef) (n : Node) : Bool :=
  let mine (q : Option NodeRef) : Bool := q == some r
  n.decided ||
  match n.kind with
  | 1 => n.next == n.total && n.left == 0
  | 2 => !(s.cells.any fun (p : Nat × Cell) => (p.2.cwait.any fun k => mine k.node) || p.2.copies.any fun (q : Nat × Copy) => mine q.2.node)
  | 3 => !(s.cols.any fun (p : Nat × Column) => p.2.gathers.any fun g => mine g.node) && !(s.credits.any fun k => k.gid == some n.total)
  | _ => false

/-- Every node of a loop's body is complete or skipped. -/
def bodyOver (n : Node) (ns : List Node) : Bool :=
  (ns.zip (List.range ns.length)).all fun (p : Node × Nat) => !n.bodyOf p.2 || p.1.finished

/-- A running node that is done completes, taking its set; a loop whose body is over reads its word again first (R419, R421). -/
def finishNode (s : State) (r : NodeRef) (x : Job) (n : Node) : State :=
  if nodeDone s r n then
    completeNode (if n.decided then s else modNode s r fun y => { y with
      decided := true
      taken := some 0 }) r
  else if n.kind = 6 ∧ bodyOver n ((findGraph s r.job r.graph).elim [] fun g => g.nodes) then
    let s := decideNode s r x n
    match findNode s r with
    | some y => if y.decided then completeNode s r else s
    | none => s
  else s

/-! ### Contracts (R430, R431) -/

/-- A release starts the contract's graph afresh, or is skipped while the last one still runs (R430). -/
def releaseContract (s : State) (x : Job) (k : Contract) : State :=
  if x.graphs.all fun g => g.done then
    startGraphs (modJob s x.id fun y => { y with contract := some { k with
      release := k.release + 1
      running := some k.release } }) x.id x.part [dfld [k.graph] 0 0 57]
  else (modJob s x.id fun y => { y with contract := some { k with release := k.release + 1 } }).recordSched x.part.toNat 0x48 (w64 x.jid.toNat)
    (w64 k.release)

/-! ### Events -/

/-- JOB_SUBMISSION: a write to a partition's JSUB (R453). -/
def execJobSubmission (part : BitVec 6) (v : Word) (s : State) : Host.Outcome State Fault Refusal :=
  let p := s.part part.toNat
  if 64 ≤ p.queue.length ∨ fld v 0 6 ≠ 0 then
    .next ((s.modPart part.toNat fun p => { p with ovf := true }).recordSched part.toNat 0x57 (w64 (4096 * part.toNat)) v)
  else .next (s.modPart part.toNat fun p => { p with
    queue := p.queue ++ [v &&& (2 ^ 57 - 1)]
    acc := p.acc + 1 })

/-- JCLR (R453). -/
def execJclr (part : BitVec 6) (v : Word) (s : State) : Host.Outcome State Fault Refusal :=
  .next (if bit v 7 then s.modPart part.toNat fun p => { p with ovf := false } else s)

/-- JOB_START: the scheduler takes the oldest queued job (R413, R416, R428, R453). -/
def execJobStart (part : BitVec 6) (s : State) : Host.Outcome State Fault Refusal :=
  match (s.part part.toNat).queue with
  | va :: t => .next (startJob (s.modPart part.toNat fun p => { p with queue := t }) part va)
  | [] => .next s

/-- PHASE_START: the next phase, once the last is complete (R319, R414, R418). -/
def execPhaseStart (job : Nat) (s : State) : Host.Outcome State Fault Refusal :=
  match findJob s job with
  | some x =>
    if !x.done && x.contract.isNone && decide (x.phase < x.nph) && x.graphs.all (fun g => g.done) && !jobEngines s job then .next (startPhase s x)
    else .next s
  | none => .next s

/-- NODE_READY (R415, R418, R421, R426); a gather node that found its engine full tries again (R273). -/
def execNodeReady (job g n : Nat) (s : State) : Host.Outcome State Fault Refusal :=
  match findJob s job, findGraph s job g, findNode s ⟨job, g, n⟩ with
  | some x, some y, some z =>
    if x.done then .next s
    else if z.st = .waiting ∧ z.pred = 0 ∧ z.sig = 0 then .next (readyNode s ⟨job, g, n⟩ x y z)
    else if z.st = .ready ∧ z.kind = 3 then .next (readyGather s ⟨job, g, n⟩ x z)
    else .next s
  | _, _, _ => .next s

/-- NODE_COMPLETE (R417, R419 to R421). -/
def execNodeComplete (job g n : Nat) (s : State) : Host.Outcome State Fault Refusal :=
  match findJob s job, findNode s ⟨job, g, n⟩ with
  | some x, some y => if !x.done && y.st == .running then .next (finishNode s ⟨job, g, n⟩ x y) else .next s
  | _, _ => .next s

/-- CONTRACT_RELEASE (R430); a miss that is due by then is reported first. -/
def execContractRelease (job : Nat) (s : State) : Host.Outcome State Fault Refusal :=
  match findJob s job with
  | some x => match x.contract with
    | some k =>
      if x.done || decide (s.tsc.toNat < releaseTime k k.release) then .next s
      else match missDue s x k with
        | some n => .next (missDeadline s x k n)
        | none => .next (releaseContract s x k)
    | none => .next s
  | none => .next s

/-- BUDGET_OVERRUN: a strand of a release was resident longer than its budget (R431). -/
def execBudgetOverrun (c : Nat) (s : State) : Host.Outcome State Fault Refusal :=
  match (s.ctx c).strand with
  | some t => match (findJob s t.job).bind fun x => x.contract.map fun k => (x, k) with
    | some (x, k) =>
      if t.overrun || (s.ctx c).run == .dark || decide (resident s t ≤ k.budget) then .next s
      else
        let u : Strand := { t with
          overrun := true
          note := if k.ovr then 1 else t.note }
        .next ((s.recordSched x.part.toNat 0x49 (w64 x.jid.toNat) (w64 (k.running.getD 0))).modCtx c fun y => { y with strand := some u })
    | none => .next s
  | none => .next s

/-- DEADLINE_MISS (R431). -/
def execDeadlineMiss (job : Nat) (s : State) : Host.Outcome State Fault Refusal :=
  match findJob s job with
  | some x => match x.contract with
    | some k => if x.done then .next s else .next ((missDue s x k).elim s (missDeadline s x k))
    | none => .next s
  | none => .next s

end Sys2Proof.Machine
end

