-- ==== Sys2Proof/Machine/Placing.lean ====
section
/-! DEFINITION. Placing strands on contexts, and taking contexts from them (R422 to R426, R429, R433 to R435). -/

namespace Sys2Proof.Machine

/-! ### Which launch gets a free context (R422, R425, R426) -/

/-- A claimant of a context: note, readiness TSC, partition and node index, in the order of R422. -/
structure Rank where
  note : Nat
  ready : Nat
  part : Nat
  node : Nat
deriving DecidableEq, Repr

/-- Whether one claimant goes before another. -/
def Rank.before (a b : Rank) : Bool :=
  if a.note ≠ b.note then decide (b.note < a.note)
  else if a.ready ≠ b.ready then decide (a.ready < b.ready)
  else if a.part ≠ b.part then decide (a.part < b.part)
  else decide (a.node < b.node)

/-- A ready launch with strands to place. -/
structure Ready where
  ref : NodeRef
  job : Job
  node : Node
deriving DecidableEq, Repr

namespace Ready
/-- Its rank among claimants. -/
def rank (l : Ready) : Rank := ⟨launchNote l.job l.node, l.node.ready, l.job.part.toNat, l.ref.node⟩
/-- It demands co-residency. -/
def cores (l : Ready) : Bool := dfld l.node.words 0 4 1 == 1
end Ready

/-- The code of a launch belongs to a file whose load is in progress, or has failed: no strand of it is launched (R116, R117). -/
def loadHeld (s : State) (j : Job) (n : Node) : Bool :=
  let va := dfld n.words 3 0 57
  s.loads.any fun l => l.part == j.part && l.code.any fun p => decide (p.1 ≤ va) && decide (va < p.1 + p.2)

/-- The ready launches of all jobs. -/
def readyLaunches (s : State) : List Ready :=
  (s.jobs.filter fun j => !j.done).flatMap fun j =>
    (numbered j.graphs).flatMap fun (g : Graph × Nat) =>
      if g.1.done then []
      else (numbered g.1.nodes).filterMap fun (n : Node × Nat) =>
        if n.1.st = .ready ∧ n.1.next < n.1.total ∧ !loadHeld s j n.1 then some ⟨⟨j.id, g.2, n.2⟩, j, n.1⟩ else none

/-- A context is eligible for a launch, its column's threshold apart (R422). -/
def fits (s : State) (l : Ready) (c : Nat) : Bool :=
  inRange s l.job l.node (cellOf c) && modeFits s l.job l.node (cellOf c) && decide (c % 16 < (s.cell (cellOf c)).mode.contexts)
  && (s.col (colOf (cellOf c))).cellPower

/-- Eligible, with the threshold (R422, R429). -/
def eligible (s : State) (l : Ready) (c : Nat) : Bool :=
  fits s l c && (!aboveThreshold (s.col (colOf (cellOf c))) || launchNote l.job l.node == 2)

/-- A context holds no strand and may be given one. -/
def freeCtxAt (s : State) (c : Nat) : Bool := (s.ctx c).run == .free && (s.ctx c).strand.isNone

/-- A strand of a co-resident launch. -/
def coresStrand (s : State) (t : Strand) : Bool :=
  (findNode s ⟨t.job, t.graph, t.node⟩).any fun n => dfld n.words 0 4 1 == 1

/-- A pre-empted strand of a co-resident launch waits on this column (R426). -/
def coresSaved (s : State) (col : Nat) : Bool := (columnCtxs s col).any fun c => (s.ctx c).save.any fun v => coresStrand s v.strand

/-- The rank of the strand saved on a context (R425). -/
def savedRank (s : State) (c : Nat) : Option Rank :=
  (s.ctx c).save.map fun v => ⟨v.strand.note.toNat, v.strand.ready, v.strand.part.toNat, v.strand.node⟩

/-- A waiting co-resident launch keeps a context from a claimant of its note or below that became ready after it (R426). -/
def keptBy (s : State) (ls : List Ready) (c : Nat) (k : Rank) : Bool :=
  ls.any fun l => l.cores && eligible s l c && decide (k.note ≤ l.rank.note) && decide (l.rank.ready < k.ready)

/-- The saved strand of a context goes before a claimant. -/
def savedFirst (s : State) (c : Nat) (k : Rank) : Bool := (savedRank s c).any fun r => r.before k

/-- A launch may be given a context (R422, R425, R426). -/
def mayTake (s : State) (ls : List Ready) (c : Nat) (l : Ready) : Bool :=
  eligible s l c && !keptBy s ls c l.rank && !savedFirst s c l.rank
  && (l.rank.note == 2 || !coresSaved s (colOf (cellOf c)))

/-- The first of claimants. -/
def firstOf (ls : List Ready) : Option Ready :=
  ls.foldl (fun (b : Option Ready) l => match b with
    | none => some l
    | some x => if l.rank.before x.rank then some l else some x) none

/-- The launch that a free context goes to. -/
def chosen (s : State) (ls : List Ready) (c : Nat) : Option Ready :=
  if freeCtxAt s c then firstOf (ls.filter fun l => !l.cores && mayTake s ls c l) else none

/-- The columns in the order of the rotation, after the column of the last placement (R422). -/
def rotationFrom (last : Nat) : List Nat := (List.range 64).map fun i => (last + 1 + i) % 64
/-- The columns in the order of the rotation now. -/
def rotation (s : State) : List Nat := rotationFrom s.lastCol

/-- The context that is placed next, and its launch. -/
def nextPlace (s : State) : Option (Nat × Ready) :=
  match readyLaunches s with
  | [] => none
  | ls => if !s.dispatch then none
    else (rotation s).findSome? fun col => (columnCtxs s col).findSome? fun c => (chosen s ls c).map fun l => (c, l)

/-! ### Starting a strand (R17, R313, R380, R423) -/

/-- The registers at a strand's start (R17, R423). -/
def startArch (old : Arch) (x : Job) (n : Node) (note : Nat) (rank : Nat) : Arch :=
  let xe := dfld n.words 4 0 16
  let ye := dfld n.words 4 16 16
  let g30 := n.words.getD 8 0
  { Arch.reset with
    pc := w64 (dfld n.words 3 0 57)
    status := w64 (2 ^ 4 + dfld n.words 4 50 2 * 4)
    sup := ⟨n.words.getD 13 0, 0, 0, 0⟩
    mon := old.mon
    space := n.words.getD 7 0
    lninfo := w64 (fld (n.words.getD 4 0) 0 48 + dfld n.words 0 4 1 * 2 ^ 48 + note * 2 ^ 49)
    ggr := w64 (rank % xe + rank / xe % ye * 2 ^ 16 + rank / (xe * ye) * 2 ^ 32 + rank % 2 ^ 16 * 2 ^ 48)
    htbase := n.words.getD 6 0
    param := n.words.getD 5 0
    shadowiv := n.words.getD 12 0
    part := x.part.setWidth 64
    g := [(30, .of (putFld g30 0 40 (fld g30 0 40 + rank * dfld n.words 9 0 40))), (31, .of (n.words.getD 10 0))] }

/-- A strand takes a free context: its registers, the acquire of R313, and its first point (R380). -/
def beginStrand (s : State) (c : Nat) (t : Strand) (a : Arch) : State :=
  let s := (freeCtx s c).modCtx c fun x => { x with
    arch := a
    run := .running
    strand := some t
    writing := (s.ctx c).writing
    waiting := (s.ctx c).waiting }
  makePoint (acquire s c Scope.device.code) c

/-- The next rank of a launch is placed on a context (R412, R422, R423). -/
def placeStrand (s : State) (l : Ready) (c : Nat) : State :=
  match findNode s l.ref with
  | some n =>
    let note := launchNote l.job n
    let t : Strand := ⟨s.placements + 1, l.ref.job, l.ref.graph, l.ref.node, n.next, BitVec.ofNat 2 note, l.job.part, n.ready, 0, s.tsc.toNat, false⟩
    let s := { s with
      placements := s.placements + 1
      lastCol := colOf (cellOf c) }
    let s := modNode s l.ref fun n => { n with
      next := n.next + 1
      st := if n.next + 1 = n.total then .running else n.st }
    beginStrand s c t (startArch (s.ctx c).arch l.job n note n.next)
  | none => s

/-- A free context that a co-resident launch may take. -/
def coresFits (s : State) (ls : List Ready) (l : Ready) (c : Nat) : Bool :=
  freeCtxAt s c && mayTake s ls c l && !((chosen s ls c).any fun k => k.rank.before l.rank)

/-- The next free contexts that a co-resident launch takes after those taken, whose last lies in column `last`: each by the rotation that starts after the column of
the one before it, of a column no more than its share, so that the slots left still cover the reservations (R422, R426). -/
def coresPick (s : State) (ls : List Ready) (l : Ready) : Nat → Nat → List Nat → List Nat
  | 0, _, taken => taken.reverse
  | k + 1, last, taken =>
    let next (col : Nat) : Option Nat :=
      if columnShare s l.job l.node col ≤ (taken.filter fun c => colOf (cellOf c) == col).length then none
      else (columnCtxs s col).find? fun c => coresFits s ls l c && !taken.contains c
    match (rotationFrom last).findSome? next with
    | some c => coresPick s ls l k (colOf (cellOf c)) (c :: taken)
    | none => taken.reverse

/-- The contexts of a co-resident launch's strands, in rank order; fewer than its strands while not all can be placed. -/
def coresPlaces (s : State) (l : Ready) : List Nat := coresPick s (readyLaunches s) l l.node.total s.lastCol []

/-! ### Pre-emption (R425, R433) -/

/-- A context that a top launch may take from a heart or base strand: its save area is empty. -/
def victim (s : State) (l : Ready) (c : Nat) : Bool :=
  fits s l c && (s.ctx c).save.isNone && (s.ctx c).strand.any fun t => t.note.toNat < 2

/-- The victim among contexts: base before heart, and then the latest placement (R425). -/
def worst (s : State) (cs : List Nat) : Option Nat :=
  let key (c : Nat) : Nat × Nat := ((s.ctx c).strand.elim (0, 0) fun t => (t.note.toNat, t.plc.toNat))
  cs.foldl (fun (b : Option Nat) c => match b with
    | none => some c
    | some d => if (key c).1 < (key d).1 ∨ ((key c).1 = (key d).1 ∧ (key d).2 < (key c).2) then some c else some d) none

/-- The context that a top launch takes: some launch has no free eligible context. -/
def preemptible (s : State) : Option Nat :=
  match (readyLaunches s).filter fun l => l.rank.note == 2 with
  | [] => none
  | ls =>
    let all := (List.range 64).flatMap (columnCtxs s)
    ls.findSome? fun l => if all.any (fun c => freeCtxAt s c && eligible s l c) then none else worst s (all.filter (victim s l))

/-- A committed instruction whose request has not left (R391, R433). -/
def unsent (x : Ctx) : Bool := (x.committed.getLast?).any fun p => p.1 == x.seq

/-- An LCOMPACT of the strand on a context is in progress. -/
def compacting (s : State) (c : Nat) : Bool := s.compacts.any fun j => j.c == c && j.plc == s.plc c

/-- A FULFIL or ABANDON of the strand on a context has left, and is not acted on yet (R371). -/
def makerSent (s : State) (c : Nat) : Bool :=
  s.claimReqs.any fun r => r.c == c && r.plc == s.plc c && match r.kind with
    | .fulfil _ _ => true
    | .abandon => true
    | _ => false

/-- A context may be saved now: no accepted matrix instruction (R229), and no FULFIL or ABANDON whose answer has not come (R253, R371). Another instruction that holds
issue for an answer keeps its request, whose answer comes into the save image (R177, R253, R433); an LCOMPACT is abandoned at once (R243). -/
def maySave (s : State) (c : Nat) : Bool :=
  !((s.cell (cellOf c)).matrix.any fun o => o.c == c && o.plc == s.plc c) && !makerSent s c

/-- An LCOMPACT in progress is abandoned, and issues again after the restore (R243, R253). -/
def abandonCompact (s : State) (c : Nat) : State :=
  if compacting s c then (dropCompact s c (s.plc c)).modCtx c fun x => { x with hold := none } else s

/-- The committed instruction issued last has not been followed by another instruction: its point is the one made last, and resumes where the strand is. -/
def lastCommitted (x : Ctx) : Bool :=
  unsent x && (x.writing.toList ++ x.waiting.toList).any fun i => i.seq == x.seq && i.rpc == (if x.hold.isSome then x.arch.pc + 4 else x.arch.pc)

/-- Committed instructions whose points are not complete are abandoned: their points and requests are gone, and they issue again (R433): the one issued last when the
strand goes on, at its own address; those before it, which the strand has passed, before anything else. DESIGN CHOICE (log 102): R433 speaks of one instruction. -/
def abandonCommitted (s : State) (c : Nat) : State :=
  let x := s.ctx c
  match x.committed with
  | [] => s
  | (n, _) :: _ =>
    let last := lastCommitted x
    let early (i : Image) : Bool := decide (i.seq < n)
    s.modCtx c fun x => { x with
      arch := { x.arch with pc := if last && x.hold.isNone then x.arch.pc - 4 else x.arch.pc }
      committed := []
      again := x.again ++ (if last then x.committed.dropLast else x.committed).map fun p => p.2
      writing := x.writing.filter early
      waiting := x.waiting.filter early
      hold := if last then none else x.hold }

/-- A committed instruction that was abandoned issues again, once no register is empty: its release, its point, and its request (R391, R433). -/
def issueAgain (s : State) (c : Nat) : State :=
  match (s.ctx c).again with
  | [] => s
  | r :: t =>
    let sc := match r with
      | .slotret _ _ _ => Scope.column
      | _ => Scope.device
    match if (s.ctx c).arch.anyEmpty then waits else release s c sc.code with
    | .ok u => (makePoint u c).modCtx c fun x => { x with
      again := t
      committed := x.committed ++ [(x.seq, r)] }
    | .error _ => s

/-- A context's strand goes into its save area, and the context is free (R433 to R435). A save that holds no deferred delivery is a point
(R380). -/
def saveCtx (s : State) (c : Nat) : State :=
  let s := drainPend (abandonCompact (abandonCommitted s c) c) c
  let s := ackStores (wcbDrainAll s c) c
  let x := s.ctx c
  let s := if x.pend.isEmpty && !x.arch.anyEmpty && x.hold.isNone && x.again.isEmpty then makePoint s c else s
  let x := s.ctx c
  match x.strand with
  | none => s
  | some t =>
    let v : Saved := ⟨x.arch, { t with used := resident s t }, x.pend, x.hold, x.resv, x.deferred, x.committed, x.devIrq, x.dlIrq, x.again, s.tsc, false, false⟩
    (freeCtx s c).modCtx c fun y => { y with
      save := some v
      writing := x.writing
      waiting := x.waiting }

/-- The strand in the save area takes its context again (R434); one that a resume left at its start makes its point (R481). -/
def restoreCtx (s : State) (c : Nat) : State :=
  match (s.ctx c).save with
  | none => s
  | some v =>
    let s := s.modCtx c fun x => { x with
      arch := v.arch
      run := .running
      strand := some { v.strand with since := s.tsc.toNat }
      pend := v.pend
      hold := v.hold
      resv := v.resv
      deferred := v.deferred
      committed := v.committed
      again := v.again
      devIrq := v.devIrq
      dlIrq := v.dlIrq
      save := none }
    if v.start then makePoint (acquire s c Scope.device.code) c else s

/-- The saved strand of a context may have it back (R425, R426): no launch goes before it. -/
def mayRestore (s : State) (c : Nat) : Bool :=
  match savedRank s c with
  | none => false
  | some r =>
    let ls := readyLaunches s
    s.dispatch && freeCtxAt s c && !((s.ctx c).save.any fun v => v.halted) && (s.col (colOf (cellOf c))).cellPower && !keptBy s ls c r
    && !(ls.any fun l => !l.cores && mayTake s ls c l && l.rank.before r)
    && (r.note == 2 || !coresSaved s (colOf (cellOf c)) || (s.ctx c).save.any fun v => coresStrand s v.strand)

/-- Every column that a heart launch could use has been above its threshold for 1 ms (R429). -/
def stallDue (s : State) (l : Ready) : Bool :=
  let cols := (List.range 64).filter fun col => (columnCtxs s col).any (fits s l)
  l.rank.note == 1 && !l.node.stalled && !cols.isEmpty
  && cols.all fun col => aboveThreshold (s.col col) && decide (1000000 ≤ (s.tsc - (s.col col).above).toNat)

/-! ### Events -/

/-- STRAND_PLACEMENT: the next strand is placed on a context (R422 to R424). -/
def execStrandPlacement (c : Nat) (s : State) : Host.Outcome State Fault Refusal :=
  match nextPlace s with
  | some (d, l) => .next (if d = c then placeStrand s l c else s)
  | none => .next s

/-- CO_RESIDENT_PLACEMENT: every strand of the launch is placed in one step (R426). -/
def execCoResidentPlacement (job g n : Nat) (s : State) : Host.Outcome State Fault Refusal :=
  match (readyLaunches s).find? fun l => l.ref == ⟨job, g, n⟩ with
  | some l =>
    let cs := coresPlaces s l
    if s.dispatch && l.cores && decide (l.node.total ≤ cs.length) then .next ((cs.take l.node.total).foldl (fun s c => placeStrand s l c) s)
    else .next s
  | none => .next s

/-- DISPATCH_STALL: one record for an episode (R429). -/
def execDispatchStall (job g n : Nat) (s : State) : Host.Outcome State Fault Refusal :=
  match (readyLaunches s).find? fun l => l.ref == ⟨job, g, n⟩ with
  | some l =>
    if stallDue s l then
      .next ((modNode s l.ref fun x => { x with stalled := true }).recordSched l.job.part.toNat 0x47 l.node.va 0)
    else .next s
  | none => .next s

/-- PRE_EMPTION: a top launch takes the context of a heart or base strand (R425, R433). -/
def execPreEmption (c : Nat) (s : State) : Host.Outcome State Fault Refusal :=
  .next (if preemptible s = some c ∧ maySave s c then saveCtx s c else s)

/-- RESTORE (R425, R434). -/
def execRestore (c : Nat) (s : State) : Host.Outcome State Fault Refusal :=
  .next (if mayRestore s c then restoreCtx s c else s)

end Sys2Proof.Machine
end

