-- ==== Sys2Proof/Machine/Power.lean ====
section
/-! DEFINITION. Losing power and resuming (chapter 17): what a cell loss and a station loss destroy (R376, R382 to R384, R480), the report to the
Alembic (R372), and the resume of a column from its images and shadow lines (R385 to R389, R481). -/

namespace Sys2Proof.Machine

/-- A context lies in a column. -/
def inCol (col c : Nat) : Bool := colOf (cellOf c) == col
/-- The contexts of a column that hold anything. -/
def colCtxs (s : State) (col : Nat) : List Nat := (s.ctxs.filter fun (p : Nat × Ctx) => inCol col p.1).map fun (p : Nat × Ctx) => p.1
/-- An address lies in the scratchpad of a column's cells. -/
def spadOfCol (col a : Nat) : Bool := decide (Config.spadBase ≤ a) && decide (a < Config.spadFeBase) && homeCol a == col
/-- The home of an address goes with a column's loss: its scratchpad, and in a station loss its slices. -/
def lostHome (station : Bool) (col a : Nat) : Bool := spadOfCol col a || (station && decide (a < Config.spadBase) && homeCol a == col)

/-! ### A loss (R376, R382, R384, R480) -/

/-- An image that was being written may leave its slot torn (R386): whether it had begun is free. -/
def tearImage (s : State) (c : Nat) : State :=
  if (s.ctx c).writing.isNone then s
  else
    let (v, s) := s.free
    let p := Tab.get s.images c (none, none)
    let torn (i : Option Image) : Option Image := i.map fun x => { x with valid := x.valid && !bit v 0 }
    { s with images := Tab.put s.images c (if slotSeq p.1 ≤ slotSeq p.2 then (torn p.1, p.2) else (p.1, torn p.2)) }

/-- The record of a value served to a lost context after its resume point (R384). -/
def recordServed (c : Nat) (s : State) (v : Served) : State := recordStrand s c (BitVec.ofNat 6 (strandPart s c v.plc)) 0x54 v.va v.val

/-- The records of every TAKE and LRW served to a context after its resume point, those not yet delivered included. -/
def recordAllServed (s : State) (c : Nat) : State :=
  ((s.ctx c).served ++ (s.deliveries.filter fun (d : Delivery) => d.req.c == c && d.req.kind != ReqKind.lds).map fun (d : Delivery) => Served.mk d.req.plc 0 d.req.va d.val).foldl
    (recordServed c) s

/-- A context without power: its strand keeps its name, and nothing else of it is left (R384). -/
def darken (s : State) (x : Ctx) : Ctx :=
  { x with
    arch := { x.arch with sig := none }
    run := if x.run = .free then .free else .dark
    strand := x.strand.map fun t => { t with
      used := resident s t
      since := s.tsc.toNat }
    devIrq := none
    dlIrq := none
    pend := []
    wcb := []
    fbuf := []
    deferred := []
    walkFault := none
    labAns := none
    hold := none
    resv := []
    writing := none
    waiting := none
    dirtyLines := []
    committed := []
    again := []
    save := x.save.map fun v => { v with
      pend := []
      hold := none
      resv := []
      deferred := []
      committed := []
      devIrq := none
      dlIrq := none
      again := [] }
    peerWait := none
    peerAns := []
    served := [] }

/-- The wait lists and reservations of the lost homes are gone: requests of contexts elsewhere are kept by their cells, waits are on their way again,
and holders get a notice (R480). -/
def loseHomes (s : State) (station : Bool) (col : Nat) : State :=
  let gone := s.homes.filter fun (p : Nat × Home) => lostHome station col p.1
  let others (l : List Req) : List Req := l.filter fun r => !inCol col r.c
  { s with
    homes := s.homes.filter fun (p : Nat × Home) => !lostHome station col p.1
    kept := s.kept ++ gone.flatMap fun (p : Nat × Home) => others (p.2.readers ++ p.2.writers ++ p.2.queue)
    notices := s.notices ++ gone.flatMap fun (p : Nat × Home) => others p.2.holder.toList
    barReqs := s.barReqs ++ gone.flatMap fun (p : Nat × Home) => (p.2.waiters.filter fun w => !inCol col w.c).map fun w => ⟨w.c, p.1, w.ref, .wait w, 0⟩ }

/-- Everything of a column's contexts that is queued or on its way elsewhere (R384), or lies on its way to a lost home; what they posted that goes on
without them names no strand any more. -/
def purge (s : State) (station : Bool) (col : Nat) : State :=
  let keep (l : List Req) : List Req := l.filter fun r => !inCol col r.c
  let frame (f : Frame) : Frame := if inCol col f.c ∧ f.node.isNone then { f with plc := 0, dst := none } else f
  { s with
    reqs := keep s.reqs
    refused := keep s.refused
    kept := keep s.kept
    notices := keep s.notices
    deliveries := s.deliveries.filter fun d => !inCol col d.req.c
    stores := s.stores.filter fun x => !(inCol col x.c && lostHome station col x.acc.addr)
    barReqs := s.barReqs.filter fun r => !(inCol col r.c && (!r.updates || lostHome station col r.addr))
    barRets := s.barRets.filter fun (p : BarWait × Word × Bool) => !inCol col p.1.c
    labelJobs := s.labelJobs.filter fun j => !inCol col j.c
    nogoods := s.nogoods.map fun g => if inCol col g.c then { g with plc := 0 } else g
    compacts := s.compacts.filter fun j => !inCol col j.c
    claimOuts := s.claimOuts.filter fun o => !inCol col o.c
    answers := s.answers.filter fun a => !inCol col a.c
    walks := (s.walks.map fun w => { w with
      ctxs := w.ctxs.filter fun c => !inCol col c
      cols := w.cols.filter (· != col) }).filter fun w => !(w.ctxs.isEmpty && w.cols.isEmpty)
    peerOut := s.peerOut.filter fun p => !inCol col p.1
    credits := (s.credits.filter fun k => !lostHome station col k.addr).map fun k => { k with
      own := k.own.filter fun p => !inCol col p.1
      slot := k.slot.filter fun p => colOf p.1 != col }
    frames := s.frames.map frame
    streams := s.streams.map fun (p : Nat × List Frame) => (p.1, p.2.map frame)
    encs := s.encs.map fun (p : Nat × Enc) => (p.1, { p.2 with frame := frame p.2.frame })
    homes := s.homes.map fun (p : Nat × Home) => (p.1, { p.2 with
      readers := keep p.2.readers
      writers := keep p.2.writers
      queue := keep p.2.queue
      waiters := p.2.waiters.filter fun w => !inCol col w.c }) }

/-- The reservations of a column's contexts at the homes that are left are passed on as if by SCREL (R384). -/
def passLost (s : State) (col : Nat) : State :=
  ((s.homes.filter fun (p : Nat × Home) => p.2.holder.any fun r => inCol col r.c).map fun (p : Nat × Home) => p.1).foldl passOn s

/-- A peer entry's route from a cell leaves the device, whatever the state of the fabric (R441, R442). -/
def peerAbroad (s : State) (cell : Nat) (e : HEntry) : Bool := colOf e.tcell != colOf cell && (routePort (segRoute (s.cell cell) (fld e.w3 0 16)).1).isSome

/-- A gather that a loss stops (R406): its engine goes, or its destination or barrier lies in a cell that goes. -/
def gatherLost (s : State) (station : Bool) (col k : Nat) (g : Gather) : Bool :=
  (station && k == col) || spadOfCol col g.bar || (g.e3.kind == 1 && colOf g.cell == col)
  || (g.e3.kind == 2 && colOf g.e3.tcell == col && !peerAbroad s g.cell g.e3)

/-- The gathers of column `k` that the loss of column `col` stops; a barrier that still has power receives err and the remaining credits. The others
of lost contexts name no strand any more. -/
def stopGathers (station : Bool) (col : Nat) (s : State) (k : Nat) : State :=
  let gone := gatherLost s station col k
  let s := ((s.col k).gathers.filter gone).foldl (fun s g =>
    let s := (g.mover k).note s 0x4B g.ref (w64 g.row)
    if reachesHome s g.bar then creditGather s g (sectors (g.count * g.rowb)) true else s) s
  s.modCol k fun x => { x with
    gathers := (x.gathers.filter fun g => !gone g).map fun g => if inCol col g.c ∧ g.node.isNone then { g with plc := 0 } else g }

/-- A cell without power (R376): the copies of its strands are gone; those of copy nodes start again. -/
def darkCell (k : Cell) : Cell :=
  { k with
    l1 := []
    icache := []
    hcache := []
    tlb := []
    pcache := []
    routes := []
    slots := []
    copies := []
    cwait := ((k.copies.map (fun (p : Nat × Copy) => p.2) ++ k.cwait).filter fun p => p.node.isSome).map fun p => { p with
      pos := 0
      ended := false
      out := 0
      skip := max p.credited p.skip
      follow := none }
    follows := []
    matrix := []
    pendingShadow := [] }

/-- What a claim request is answered when its partition has no power (R246 to R249, R373). -/
def denyClaim (s : State) (r : ClaimReq) : State :=
  match r.kind with
  | .claim => claimReturn s r 3 0 false
  | .claimw => answerHold (claimReturn s r 3 0 false) r.c r.plc 0
  | .fulfil _ _ => answerHold s r.c r.plc 5
  | .abandon => answerHold s r.c r.plc 5
  | .cldrop => claimReturn s r 0 0 false

/-- A partition that loses power (R373): waiters and outstanding requests are answered, and its table is empty. -/
def losePartition (s : State) (p : Nat) : State :=
  let mine (r : ClaimReq) : Bool := namePart s r.name == p
  let rets := (s.claims.filter fun e => e.p == p).flatMap fun e => e.waiters.map fun (w : CWaiter) => ClaimRet.mk w.c w.plc 3 0 false none
  (s.claimReqs.filter mine).foldl denyClaim { s with
    claims := s.claims.filter fun e => e.p != p
    claimReqs := s.claimReqs.filter fun r => !mine r
    claimRets := s.claimRets ++ rets }

/-- An L2 line leaves its way when its slice loses power or goes out of service: written back, or, when it cannot be corrected, quarantined (R351, R382). DESIGN
CHOICE (log 60): one that the quarantine table has no room for stays uncorrectable, in DRAM. -/
def flushL2 (s : State) (l : L2Line) : State :=
  if l.dirty && s.badL2.contains l.line then
    let s := quarantine s l.line
    if inL2 s l.line then { l2Leave s l with bad := addLines [l.line] s.bad } else s
  else l2Leave s l

/-- The lines of a column's two slices. -/
def linesOfCol (s : State) (col : Nat) : List L2Line := s.l2.filter fun x => sliceCol (sliceOf (64 * x.line)) == col

/-- A NOGOOD that a lost unit takes part in: the home's own is sent again to the next home, which finds it if it was recorded, and a broadcast waits for the
unit no more (R353, R359). -/
def rehomeNogoods (s : State) (col : Nat) (homes : List Bool) : State :=
  let gs := (s.nogoods.zip homes).map fun (p : Nogood × Bool) =>
    if p.2 then { p.1 with
      done := none
      toLearn := []
      toAck := [] }
    else { p.1 with
      toLearn := p.1.toLearn.filter (· != col)
      toAck := p.1.toAck.filter (· != col) }
  let isOver (g : Nogood) : Bool := g.done.isSome && g.toLearn.isEmpty && g.toAck.isEmpty
  (gs.filter isOver).foldl (fun s g => finishNogood s g (g.done.getD 0)) { s with nogoods := gs.filter fun g => !isOver g }

/-- What goes with the station: its slices, its Accord unit and its Alembic partition (R353, R373, R382). -/
def loseStation (s : State) (col : Nat) : State :=
  let homes := s.nogoods.map fun g => homeUnit s g.sp == some col
  let s := s.modCol col fun k => { k with
    stationPower := false
    tlb := []
    gens := []
    lists := []
    ecache := [] }
  let s := { s with
    stations := Tab.put s.stations (stationOfCol col) 2
    mapStale := true }
  rehomeNogoods (losePartition ((linesOfCol s col).foldl flushL2 s) col) col homes

/-- A loss of power: of a column's core die, SRAM cap and Flacon layer, and with `station` of its station too (R382). -/
def lose (station : Bool) (col : Nat) (s : State) : State :=
  let cs := colCtxs s col
  let s := cs.foldl (fun s c => tearImage (recordAllServed s c) c) s
  let s := s.modCol col fun k => { k with
    cellPower := false
    tlb := []
    reported := false
    powerLog := k.powerLog ++ [(s.tsc, station)] }
  let s := if station then loseStation s col else s
  let s := passLost (purge (loseHomes s station col) station col) col
  let s := (List.range 64).foldl (stopGathers station col) s
  let s := (List.range 16).foldl (fun s i => s.modCell (16 * col + i) darkCell) s
  let s := cs.foldl (fun s c => s.modCtx c (darken s)) s
  let s := { s with ctxs := s.ctxs.map fun (p : Nat × Ctx) => (p.1, { p.2 with dirtyLines := p.2.dirtyLines.filter fun l => l / 16384 / 16 != col }) }
  let (v, s) := s.free
  s.recordUnit (stationOfCol col) 7 63 0x4E (w64 col) v

/-- The power controller's report to every Alembic partition (R372): waiters of the column are removed, then its makers' entries are handed over; its
FULFILs and ABANDONs on their way are discarded with a record. -/
def reportLoss (s : State) (col : Nat) : State :=
  let here (e : Claim) : Claim := { e with waiters := e.waiters.filter fun w => !inCol col w.c }
  let s := { s with claims := s.claims.map here }
  let s := (s.claims.filter fun (e : Claim) => !e.done && inCol col e.maker).foldl State.handover s
  let late (r : ClaimReq) : Option Nat := match r.kind with
    | .fulfil _ _ => some 2
    | .abandon => some 3
    | _ => none
  let s := (s.claimReqs.filter fun r => inCol col r.c).foldl (fun s r => match late r with
    | some k =>
      let p := namePart s r.name
      s.recordUnit (stationOfCol p) 3 r.name.part.toNat 0x53 (w64 (r.name.part.toNat * 2 ^ 16 + nameSet r.name)) (w64 k)
    | none => s) s
  { s.modCol col fun k => { k with reported := true } with
    claimReqs := s.claimReqs.filter fun r => !inCol col r.c
    claimRets := s.claimRets.filter fun r => !inCol col r.c }

/-! ### A resume (R385 to R389, R480, R481) -/

/-- A range of a cell's scratchpad is zero and full (R329). -/
def zeroSpad (s : State) (n o size : Nat) : State :=
  let f := (feAt (spadAddr n o)).1
  { s with mem := dropRange (dropRange s.mem (spadAddr n o) (spadAddr n o + size)) f (f + size / 64) }

/-- The copy of a line that is loaded, and whether the line is entered in the restore-error list (R387). -/
def pickShadow (x y : Option Shadow) : Option Shadow × Bool :=
  match x, y with
  | none, none => (none, false)
  | some a, none => if a.good then (some a, false) else (none, true)
  | none, some b => if b.good then (some b, false) else (none, true)
  | some a, some b =>
    let (n, o) := if newer a.stamp b.stamp then (a, b) else (b, a)
    if n.good then (some n, false) else if o.good then (some o, true) else (none, true)

/-- Loads one line of a cell whose scratchpad is zero and full (R387). -/
def loadLine (n : Nat) (s : State) (l : Nat) : State :=
  let k := s.cell n
  let p := pickShadow (Tab.get? k.shadowX l) (Tab.get? k.shadowY l)
  let s := match p.1 with
    | some x => (s.setNum (spadAddr n (64 * l)) 64 x.data.toNat).setByte (feAt (spadAddr n (64 * l))).1 x.fe
    | none => s
  if p.2 then
    (s.modCell n fun k => { k with restoreErr := k.restoreErr ++ [l].filter fun x => !k.restoreErr.contains x }).recordUnit (stationOf n) 7 63 0x4F
      (w64 (64 * l)) 0
  else s

/-- A cell's scratchpad is loaded from its shadow copies. -/
def loadSpad (s : State) (n : Nat) : State :=
  let k := s.cell n
  let ls := (k.shadowX.map fun (p : Nat × Shadow) => p.1) ++ (k.shadowY.map fun (p : Nat × Shadow) => p.1).filter fun l => (Tab.get? k.shadowX l).isNone
  ls.foldl (loadLine n) (zeroSpad s n 0 0x100000)

/-- Of two slots, the valid image with the greater sequence number (R386). -/
def pickImage (c : Nat) (a b : Option Image) : Option Image :=
  match a.filter fun i => i.ok c, b.filter fun i => i.ok c with
  | some x, some y => some (if y.seq < x.seq then x else y)
  | some x, none => some x
  | none, y => y

/-- A handle entry of a strand's table as a replay reads it. -/
def tableEntry (s : State) (part : BitVec 6) (a : Arch) (ref : Word) : Option HEntry :=
  (partWords s part (handleVa a (refIdx ref)) 4).map fun w => ⟨w.getD 0 0, w.getD 1 0, w.getD 2 0, w.getD 3 0⟩

/-- A copy record is queued again (R388): its barrier bytes are written back, and the copy runs in full, credits only the sectors beyond `done`, and uses
no slot. -/
def replayCopy (c : Nat) (t : Strand) (a : Arch) (s : State) (r : CopyRec) : State :=
  let n := cellOf c
  let cells := if r.multi then (List.range 16).filterMap fun i => if r.mask.getLsbD i then some (n / 16 * 16 + i) else none else [n]
  let o := fld (r.snap.getD 5 0) 0 20 / 16 * 16
  let s := match r.bar with
    | some (x, y) =>
      if x = 0 ∧ y = 0 then s
      else cells.foldl (fun s k => markShadow ((s.setWord (spadAddr k o) x).setWord (spadAddr k o + 8) y) c (spadAddr k o)) s
    | none => s
  let k := s.cell n
  let key := 64 + k.copyOrder
  let p : Copy := {
    c := c
    plc := t.plc
    part := t.part
    snap := r.snap
    src := tableEntry s t.part a (r.snap.getD 0 0)
    dst := tableEntry s t.part a (r.snap.getD 1 0)
    multi := r.multi
    mask := r.mask
    order := k.copyOrder
    reg := none
    tid := w64 (r.slot + 64 * r.gen.toNat)
    pos := 0
    credited := 0
    skip := r.done
    ended := false
    out := 0
    skipped := 0
    follow := none
    replay := true
    node := none
    parts := [] }
  let s := s.modCell n fun k => { k with
    copyOrder := k.copyOrder + 1
    copies := Tab.put k.copies key p }
  if p.total = 0 then moveOn s n key p 0 false else s

/-- How a column resumes: from a loss or from a checkpoint, and the cell that a spare has adopted, if one has. -/
structure Resume where
  ckpt : Bool
  spare : Option Nat
deriving DecidableEq, Repr

/-- The TVAL of the resume interrupt (R389). -/
def resumeTval (s : State) (how : Resume) (c : Nat) (bar : Bool) : Word :=
  let b (p : Bool) (v : Nat) : Nat := if p then v else 0
  w64 (b (!how.ckpt) 1 + b (how.spare == some (cellOf c)) 2 + b how.ckpt 4 + b bar 8 + b (!(s.cell (cellOf c)).restoreErr.isEmpty) 16)

/-- What a strand resumes with: registers from its image, or those of its start (R481), its copies, and whether no image of it is valid although
one of its slots is not empty (R386): it is then held halted, with a record. -/
structure Revival where
  arch : Option Arch
  copies : List CopyRec
  start : Bool
  lost : Bool
deriving DecidableEq, Repr

/-- The registers of a strand's start (R423, R481). -/
def startState (s : State) (c : Nat) (t : Strand) : Option Arch :=
  match findJob s t.job, findNode s ⟨t.job, t.graph, t.node⟩ with
  | some x, some n => some (startArch (s.ctx c).arch x n (launchNote x n) t.rank)
  | _, _ => none

/-- See `Revival`. -/
def revive (s : State) (c : Nat) (t : Strand) : Revival :=
  let p := Tab.get s.images c (none, none)
  let own (i : Option Image) : Option Image := i.filter fun x => x.strand.plc == t.plc
  match pickImage c (own p.1) (own p.2) with
  | some i => ⟨some i.arch, i.copies, false, false⟩
  | none => if (own p.1).isSome || (own p.2).isSome then ⟨none, [], false, true⟩ else ⟨startState s c t, [], true, false⟩

/-- The record of a context none of whose image slots is valid (R386). -/
def noImage (s : State) (c : Nat) : State := s.recordFw 63 0x5A (w64 (cellOf c)) (w64 (c % 16))

/-- A strand takes its context again (R385, R386, R481). -/
def reviveLive (how : Resume) (s : State) (c : Nat) (t : Strand) : State :=
  let r := revive s c t
  let t := { t with since := s.tsc.toNat }
  let base := (freeCtx s c).modCtx c fun x => { x with run := .free }
  match r.arch with
  | none =>
    if r.lost then noImage (base.modCtx c fun x => { x with run := .halted, strand := some t }) c else base
  | some a =>
    let s := if r.start then beginStrand base c t a else base.modCtx c fun x => { x with
      arch := a
      run := .running
      strand := some t
      pointCycle := s.cycles (colOf (cellOf c)) }
    let bar := r.copies.any fun k => k.bar.any fun b => b.1 != 0 || b.2 != 0
    let s := r.copies.foldl (replayCopy c t a) s
    s.modCtx c fun x => { x with devIrq := some (resumeTval s how c bar) }

/-- A strand that stays in the save area has the state it resumed with there; its point is made when it takes its context (R481), and one without a valid image
is held halted there (R386). -/
def reviveSaved (how : Resume) (s : State) (c : Nat) (t : Strand) : State :=
  let r := revive s c t
  match r.arch with
  | none =>
    if r.lost then noImage (s.modCtx c fun x => { x with save := some ⟨.reset, t, [], none, [], [], [], none, none, [], s.tsc, false, true⟩ }) c
    else s.modCtx c fun x => { x with save := none }
  | some a =>
    let bar := r.copies.any fun k => k.bar.any fun b => b.1 != 0 || b.2 != 0
    let s := r.copies.foldl (replayCopy c t a) s
    s.modCtx c fun x => { x with save := some ⟨a, t, [], none, [], [], [], some (resumeTval s how c bar), none, [], s.tsc, r.start, false⟩ }

/-- The strands that resume on a context: the one whose image is chosen first (R386). -/
def strandsToResume (s : State) (how : Resume) (c : Nat) : List Strand :=
  let p := Tab.get s.images c (none, none)
  let ts := (s.ctx c).strand.toList ++ ((s.ctx c).save.map fun v => v.strand).toList
  match pickImage c p.1 p.2 with
  | some i =>
    if how.ckpt then [i.strand]
    else (ts.filter fun t => t.plc == i.strand.plc) ++ ts.filter fun t => t.plc != i.strand.plc
  | none => if how.ckpt then [] else ts

/-- The strand that a checkpoint's slots name, none of them valid (R386). -/
def spoiltStrand (s : State) (c : Nat) : Option Strand :=
  let p := Tab.get s.images c (none, none)
  ((p.1.filter fun i => i.seq != 0).orElse fun _ => p.2.filter fun i => i.seq != 0).map fun i => i.strand

/-- A context resumes (R385 steps 1 and 4 to 6). -/
def resumeCtx (how : Resume) (s : State) (c : Nat) : State :=
  match strandsToResume s how c with
  | [] =>
    let s := (freeCtx s c).modCtx c fun x => { x with
      run := .free
      save := none }
    match how.ckpt, spoiltStrand s c with
    | true, some t => noImage (s.modCtx c fun x => { x with run := .halted, strand := some t }) c
    | _, _ => s
  | t :: ts =>
    let s := reviveLive how (s.modCtx c fun x => { x with save := none }) c t
    match ts with
    | [] => s
    | u :: _ => reviveSaved how s c u

/-- Power returns to a column, and its cells resume (R385); requests that were kept for it are on their way again (R480). -/
def resumeColumn (how : Resume) (s : State) (col : Nat) : State :=
  let s := (s.noteCycles col).modCol col fun k => { k with
    cellPower := true
    stationPower := true
    gens := if k.stationPower then k.gens else s.spaces.map fun (p : Nat × Space) => (p.1, p.2.gen) }
  let s := if s.station (stationOfCol col) = 2 then { s with
      stations := Tab.put s.stations (stationOfCol col) 0
      mapStale := true }
    else s
  let s := { s with badWords := s.badWords.filter fun w => !spadOfCol col (8 * w) }
  let s := ((List.range 16).map fun i => 16 * col + i).foldl loadSpad s
  let held := (s.images.map fun (p : Nat × (Option Image × Option Image)) => p.1).filter fun c => inCol col c && !(colCtxs s col).contains c
  let s := (colCtxs s col ++ held).foldl (resumeCtx how) s
  let back (r : Req) : Bool := homeUp s r.addr
  let s := { s with
    reqs := s.reqs ++ s.kept.filter back
    kept := s.kept.filter fun r => !back r }
  let (v, s) := s.free
  s.recordUnit (stationOfCol col) 7 63 0x4E (w64 col) v

/-! ### A loss that waits (R383) -/

/-- Every strand of a column that runs may be saved, or its context needs none. -/
def mayPrepare (s : State) (col : Nat) : Bool := (colCtxs s col).all fun c => (s.ctx c).strand.isNone || (s.ctx c).run != .running || maySave s c

/-- The images of a context are durable, and the requests that waited for them leave (R379, R391). -/
def finishImages (s : State) (c : Nat) : State :=
  let x := s.ctx c
  let is := x.writing.toList ++ x.waiting.toList
  let s := is.foldl (fun s i => storeImage s c i) (s.modCtx c fun x => { x with
    writing := none
    waiting := none
    served := x.served.filter fun v => is.all fun i => v.plc != i.strand.plc || decide (i.seq ≤ v.seq) })
  let seq := (is.map fun i => i.seq).foldl max 0
  let s := sendUpTo s c seq
  withSaved s c fun t => sendUpTo t c seq

/-- Every pending shadow line of a cell is durable (R383). -/
def finishShadows (s : State) (n : Nat) : State := (s.cell n).pendingShadow.foldl (fun s l => copyShadow s n l) s

/-- Pre-empts every context of a column and waits until its images and shadow lines are durable (R383); a context whose save area is taken makes a
point instead. -/
def prepareColumn (s : State) (col : Nat) : State :=
  let cs := colCtxs s col
  let s := cs.foldl (fun s c =>
    if (s.ctx c).run != .running then s
    else if (s.ctx c).save.isNone then saveCtx s c
    else
      let s := drainPend (ackStores (wcbDrainAll s c) c) c
      if (s.ctx c).arch.anyEmpty || (s.ctx c).hold.isSome then s else makePoint s c) s
  let s := ((List.range 16).map fun i => 16 * col + i).foldl finishShadows s
  cs.foldl finishImages s

/-! ### Requests that end in a fault (R384, R446, R480) -/

/-- A load in flight ends: its destination is as it was, and a fault is due (R157). -/
def loadFails (s : State) (c n : Nat) (t : Trap) : State :=
  match (s.ctx c).pend[n]? with
  | some (.load dst _ _ _ _ _ old) =>
    let s := s.modCtx c fun x => { x with pend := takeOut n x.pend }
    let s := if dst.file = .k then leaveTile s c (s.plc c) dst.n (((s.ctx c).arch.kr dst.n).withMeta old)
      else s.modArch c fun x => x.setMeta dst old
    defer s c ⟨t, some dst, none⟩
  | _ => s

/-- A request ends: its destination is as it was, and a fault is due, whose TPC may have an address of its own (R157, R333, R480); an instruction that
holds issue ends in it. -/
def requestFails (t : Trap) (tpc : Option Word) (s : State) (r : Req) : State :=
  onStrand s r.c r.plc fun s => match r.kind with
    | .putFault => answerHold s r.c r.plc (w64 (t.code.toNat + t.det.toNat * 256))
    | .put => defer (s.modCtx r.c fun x => { x with pend := endWait r.stamp x.pend }) r.c ⟨t, some noReg, tpc⟩
    | _ =>
      let old := oldOf (s.ctx r.c).pend r.stamp
      let s := s.modCtx r.c fun x => { x with
        pend := endWait r.stamp x.pend
        resv := if r.kind = .lrw then x.resv.filter fun p => p.1 != r.addr else x.resv
        arch := x.arch.setMeta r.dst old }
      defer s r.c ⟨t, some r.dst, tpc⟩

/-- A barrier wait ends in the same way. -/
def waitFails (t : Trap) (tpc : Option Word) (s : State) (w : BarWait) : State :=
  onStrand s w.c w.plc fun s =>
    let old := oldOf (s.ctx w.c).pend w.stamp
    let s := s.modCtx w.c fun x => { x with
      pend := endWait w.stamp x.pend
      arch := x.arch.setMeta w.dst old }
    defer s w.c ⟨t, some w.dst, tpc⟩

/-- The target of a peer reference has no power (R384). -/
def peerDark (s : State) (c : Nat) (ref : Word) : Bool :=
  match handleEntry s c (refIdx ref) with
  | .ok e => !(s.col (colOf e.tcell)).cellPower
  | .error _ => false

/-- An address in a scratchpad whose cell has no power. -/
def spadDark (s : State) (a : Nat) : Bool := decide (Config.spadBase ≤ a) && decide (a < Config.spadFeBase) && !homeUp s a

/-- The next bytes of a copy that lie in another cell's scratchpad without power. -/
def darkCopy (s : State) (n : Nat) (p : Copy) : Option Word :=
  let one (e : Option HEntry) (ref : Word) (write : Bool) (o : Int) : List Acc := (e.bind fun e => engAccs s (p.mover n) ref e 0 write o 1).getD []
  if p.ended then none
  else ((one p.src p.srcRef false (p.srcOff p.pos) ++ one p.dst p.dstRef true (p.dstOff p.pos)).find? fun a => spadDark s a.addr).map fun a => a.va

/-- A gather whose index list or table lies in another cell's scratchpad without power. -/
def darkGather (s : State) (g : Gather) : Bool :=
  let dark (e : HEntry) : Bool := e.kind == 2 && !peerAbroad s g.cell e && !(s.col (colOf e.tcell)).cellPower
  dark g.e0 || dark g.e1

/-- A copy or a gather of a context that waits for such a cell stops (R259, R384). -/
def engineTimeout (s : State) (c : Nat) : State :=
  let n := cellOf c
  match (s.cell n).copies.findSome? fun (p : Nat × Copy) => if p.2.c == c then (darkCopy s n p.2).map fun v => (p, v) else none with
  | some ((slot, p), va) => stopCopy s n slot p va
  | none => match (s.col (colOf n)).gathers.findIdx? fun g => g.c == c && darkGather s g with
    | some i => ((s.col (colOf n)).gathers[i]?).elim s fun g => stopGather s (colOf n) i g
    | none => s

/-- A peer access that waits for a cell without power ends in the peer gone fault (R384): one in its address phase precisely, a load, store or barrier
update on its way at the boundaries of R157; a copy or gather that waits stops. -/
def peerTimeout (s : State) (c : Nat) : State :=
  let gone (ref : Word) : Trap := ⟨0x12, 0, ref, 0⟩
  match (s.ctx c).peerWait with
  | some ref => if canIssue s c && peerDark s c ref then takeTrap s c (gone ref) false (s.ctx c).arch.pc else s
  | none =>
    match (s.ctx c).pend.findIdx? fun p => match p with
      | .load _ accs _ _ _ _ _ => accs.any fun a => spadDark s a.addr
      | _ => false with
    | some n =>
      let ref := (((s.ctx c).pend[n]?.map Pend.accs).getD []).head?.elim 0 fun a => a.ref
      loadFails s c n (gone ref)
    | none => match s.stores.findIdx? fun x => x.c == c && spadDark s x.acc.addr with
      | some n =>
        let ref := s.stores[n]?.elim 0 fun x => x.acc.ref
        defer { s with stores := takeOut n s.stores } c ⟨gone ref, some noReg, none⟩
      | none => match s.barReqs.findIdx? fun r => r.c == c && r.updates && spadDark s r.addr with
        | some n =>
          let ref := s.barReqs[n]?.elim 0 fun r => r.ref
          defer { s with barReqs := takeOut n s.barReqs } c ⟨gone ref, some noReg, none⟩
        | none => engineTimeout s c

/-- The cell abandons the requests that it keeps for a column without power (R480). -/
def abandonKept (s : State) (cell col : Nat) : State :=
  let gone (ref : Word) : Trap := ⟨0x12, 0, ref, 0⟩
  let mine (r : Req) : Bool := cellOf r.c == cell && spadOfCol col r.addr
  let wait (r : BarReq) : Option BarWait := match r.op with
    | .wait w => if cellOf r.c = cell ∧ spadOfCol col r.addr then some w else none
    | _ => none
  let rs := s.kept.filter mine
  let ws := s.barReqs.filterMap wait
  let s := { s with
    kept := s.kept.filter fun r => !mine r
    barReqs := s.barReqs.filter fun r => (wait r).isNone }
  ws.foldl (fun s w => waitFails (gone w.ref) none s w) (rs.foldl (fun s r => requestFails (gone r.ref) none s r) s)

/-! ### Events -/

/-- CELL_LOSS (R382, R383): power goes at the next instruction boundary of every context. -/
def execCellLoss (col : Nat) (s : State) : Host.Outcome State Fault Refusal :=
  .next (if col < 64 ∧ (s.col col).cellPower then lose false col s else s)

/-- STATION_LOSS (R382). -/
def execStationLoss (col : Nat) (s : State) : Host.Outcome State Fault Refusal :=
  .next (if col < 64 ∧ (s.col col).stationPower then lose true col s else s)

/-- LOSS_REPORT (R372). -/
def execLossReport (col : Nat) (s : State) : Host.Outcome State Fault Refusal :=
  .next (if (s.col col).cellPower || (s.col col).reported then s else reportLoss s col)

/-- COLUMN_RESUME (R385), after the loss has been reported. -/
def execColumnResume (col : Nat) (s : State) : Host.Outcome State Fault Refusal :=
  .next (if (s.col col).cellPower || !(s.col col).reported then s else resumeColumn ⟨false, none⟩ s col)

/-- PEER_ACCESS_TIMEOUT (R384): 10 ms have passed. -/
def execPeerAccessTimeout (c : Nat) (s : State) : Host.Outcome State Fault Refusal :=
  .next (peerTimeout s c)

/-- REQUEST_ABANDON_TIMEOUT (R480): 10 ms after the loss the column has not resumed. -/
def execRequestAbandonTimeout (cell col : Nat) (s : State) : Host.Outcome State Fault Refusal :=
  .next (if (s.col col).cellPower then s else abandonKept s cell col)

end Sys2Proof.Machine
end

