-- ==== Sys2Proof/Machine/Sillage.lean ====
section
/-! DEFINITION. The Sillage map (R341, R342, R448, R449): its words in device memory, and its updates. -/

namespace Sys2Proof.Machine

/-! ### The words of the map (R448) -/

/-- A column's spares: the spare cell, and the physical cells whose spare bank is in use. -/
def mapSpare (s : State) (col : Nat) : Word :=
  let used := (List.range 16).foldl (fun m i =>
    let k := s.cell (16 * col + i)
    if k.banks < 17 then m + 2 ^ (1 + k.phys) else m) 0
  w64 ((if s.spareUsed.contains col then 0 else 1) + used)

/-- The words of the map. -/
def mapWords (s : State) : List Word :=
  headerWords s.mapSeq s.strdesc s.fw ++ (List.range 76).map (fun n => stationWord n (s.station n)) ++ (List.range 24).flatMap (fun l => loopWords l (s.loop l))
    ++ (List.range 8).flatMap (fun p => portWords p (s.port p)) ++ (List.range 64).map (mapSpare s)

/-- Words written to device memory from an address. -/
def putList (s : State) (a : Nat) (ws : List Word) : State := (numbered ws).foldl (fun s p => s.setWord (a + 8 * p.2) p.1) s

/-- The map, and the system route table that it names, as they stand (R442, R448). Firmware's own stores leave the lines of L2 as they are (log 66). -/
def writeMap (s : State) : State :=
  putList (putList s s.fw.map (mapWords s)) s.fw.sysrt ((List.range (76 * 76)).map fun i => s.sysRoute (i / 76) (i % 76))

/-! ### Updates (R449) -/

/-- The contexts that hold a strand of a partition. -/
def ctxsOfPart (s : State) (p : Nat) : List Nat :=
  (s.ctxs.filter fun (x : Nat × Ctx) => x.2.strand.any fun u => u.part == BitVec.ofNat 6 p).map fun (x : Nat × Ctx) => x.1

/-- A map update is signalled to a partition's supervisor context with info 0x5A (R449): which of its contexts that is, the spec does not say, and a
free value picks it (log 24). -/
def signalMap (s : State) (p : Nat) : State :=
  let cs := ctxsOfPart s p
  if cs.isEmpty then s
  else
    let (v, s) := s.free
    let c := cs.getD (v.toNat % cs.length) 0
    { s with signals := s.signals ++ [⟨w64 c, 0x5A, c, BitVec.ofNat 6 p⟩] }

/-- The words of the map and of the system route table that differ from what memory holds, the sequence number apart. -/
def mapChanges (s : State) : List (Nat × Word) :=
  ((numbered (mapWords s)).map (fun (p : Word × Nat) => (s.fw.map + 8 * p.2, p.1))
    ++ (List.range (76 * 76)).map fun i => (s.fw.sysrt + 8 * i, s.sysRoute (i / 76) (i % 76))).filter fun p => p.1 != s.fw.map + 8 && s.word p.1 != p.2

/-- The sequence number advances. -/
def mapSeqUp (s : State) : State := { s with mapSeq := s.mapSeq + 1 }.setWord (s.fw.map + 8) (w64 (s.mapSeq + 1))

/-- The next of firmware's stores of an update of the map (R449): the odd sequence number, each changed word, and the even one; then every partition's supervisor
context is signalled, and vector 2 of every partition is raised. -/
def mapStep (s : State) : State :=
  match s.mapNext with
  | none => if s.mapStale then { mapSeqUp s with mapStale := false, mapNext := some (mapChanges s) } else s
  | some ((a, w) :: t) => { s.setWord a w with mapNext := some t }
  | some [] =>
    let s := (List.range 64).foldl signalMap { mapSeqUp s with mapNext := none }
    (List.range 64).foldl (fun s p => s.raiseVector (16 * p + 2)) s

/-- What the map shows has changed; firmware updates it afterwards (R446, R449). -/
def mapUpdate (s : State) : State := { s with mapStale := true }

/-- The read-only entry of kind 0 for the map at handle 16,383 of a partition's handle table, with the address at which firmware maps it there (R448). -/
def putMapHandle (s : State) (part : BitVec 6) (table : Word) (va : Nat) : State :=
  match walkTable s part ((fld table 12 45 * 4096 + 32 * 16383) % 2 ^ 57) with
  | some t => putList s (physOf t ((fld table 12 45 * 4096 + 32 * 16383) % 2 ^ 57)) [w64 (va % 2 ^ 57), w64 (mapSize + 3 * 2 ^ 42), 0, 0]
  | none => s

end Sys2Proof.Machine
end

