-- ==== Sys2Proof/Machine/Links.lean ====
section
/-! DEFINITION. Failures of the fabric, the device-link ports and the host link (R439, R444, R446, R449 to R454). -/

namespace Sys2Proof.Machine

/-- A record of an event for which the spec names neither code, object nor detail: they are free values, the code one of those that R464 assigns to events
(log 21). -/
def recordFree (s : State) (st u : Nat) : State :=
  let (k, s) := s.free
  let (o, s) := s.free
  let (d, s) := s.free
  s.recordUnit st u 63 (0x40 + k.toNat % 0x1B) o d

/-- A loop is marked in every station (R446). -/
def setLoop (s : State) (l : Nat) (f : LoopSt → LoopSt) : State := { s with loops := Tab.put s.loops l (f (s.loop l)) }

/-! ### Requests lost on a failed loop (R446) -/

/-- Some loop, station or port has failed. -/
def someFailed (s : State) : Bool :=
  (s.loops.any fun (p : Nat × LoopSt) => p.2.st == 1) || (s.stations.any fun (p : Nat × Nat) => p.2 != 0) || s.ports.any fun (p : Nat × Nat) => p.2 == 1

/-- A request to an address leaves the context's station. -/
def leavesStation (c a : Nat) : Bool := decide (Config.peerBase ≤ a) || homeCol a != colOf (cellOf c)

/-- A lost request is sent again: the first route of its handle entry, which carried it, fails now, and its second one passes. One lost on the second route fails
there too, so nothing is sent more than once again. -/
def resends (s : State) (c : Nat) (ref : Word) : Bool :=
  match handleEntry s c (refIdx ref) with
  | .ok e => e.kind == 2 && bit e.w3 32 && (peerRoute s c e (fld e.w3 0 16)).1.isSome && (peerRoute s c e (fld e.w3 16 16)).1.isNone
  | .error _ => false

/-- The route fault of a lost request. -/
def lostTrap (ref : Word) : Trap := ⟨0x11, 8, ref, 0⟩

/-- A lost load: sent again, or its route fault is due (R446). -/
def loseLoad (s : State) (c n : Nat) : State :=
  match (s.ctx c).pend[n]? with
  | some (.load _ accs _ _ _ _ _) => match accs.find? fun a => leavesStation c a.addr with
    | some a => if resends s c a.ref then s else loadFails s c n (lostTrap a.ref)
    | none => s
  | _ => s

/-- A lost request of a context to the home of a word, by its place among the context's: a PUT counts as a store. -/
def loseRequest (s : State) (c n : Nat) : State :=
  match (s.reqs.filter fun r => r.c == c && leavesStation c r.addr)[n]? with
  | some r =>
    if resends s c r.ref then s
    else
      let t := { s with reqs := s.reqs.filter fun x => x.stamp != r.stamp }
      if r.kind = .put then (t.modPendOf r.c r.plc (endWait r.stamp)).recordCtx c 0x58 r.ref 8 else requestFails (lostTrap r.ref) none t r
  | none => s

/-- A lost store of a context is discarded with a record. -/
def loseStore (s : State) (c n : Nat) : State :=
  match s.stores[n]? with
  | some x =>
    if x.c ≠ c ∨ !leavesStation c x.acc.addr ∨ resends s c x.acc.ref then s
    else { s with stores := takeOut n s.stores }.recordCtx c 0x58 x.acc.ref 8
  | none => s

/-- A lost barrier request: a wait ends in the route fault, an update is discarded with a record. -/
def loseBarrier (s : State) (c n : Nat) : State :=
  match s.barReqs[n]? with
  | some r =>
    if r.c ≠ c ∨ !leavesStation c r.addr ∨ resends s c r.ref then s
    else
      let t := { s with barReqs := takeOut n s.barReqs }
      match r.op with
      | .wait w => waitFails (lostTrap r.ref) none t w
      | _ => t.recordCtx c 0x58 r.ref 8
  | none => s

/-! ### Events -/

/-- BUBBLE_STARVATION: an entrant has waited 512 fabric cycles; every other station of the loop holds one extra bubble (R439). -/
def execBubbleStarvation (station lp : Nat) (s : State) : Host.Outcome State Fault Refusal :=
  .next (if (s.loop lp).order.contains station then
      { s with bubbles := ((s.loop lp).order.filter (· != station)).foldl (fun m x => Tab.put m (76 * lp + x) 1) s.bubbles }
    else s)

/-- LOST_REQUEST_TIMEOUT: the `n`-th of a context's loads, then of its requests, of the stores and of the barrier requests on their way was lost on a failed
loop and has timed out (R446). -/
def execLostRequestTimeout (c n : Nat) (s : State) : Host.Outcome State Fault Refusal :=
  let l := (s.ctx c).pend.length
  let r := (s.reqs.filter fun r => r.c == c && leavesStation c r.addr).length
  .next (if !someFailed s then s
    else if n < l then loseLoad s c n
    else if n < l + r then loseRequest s c (n - l)
    else if n < l + r + s.stores.length then loseStore s c (n - l - r)
    else loseBarrier s c (n - l - r - s.stores.length))

/-- LOOP_FAILURE: a loop or a station is marked failed in every station, with a record, and the map is updated (R446, R449, R463). -/
def execLoopFailure (isStation : Bool) (n : Nat) (s : State) : Host.Outcome State Fault Refusal :=
  if isStation then
    .next (if n < 76 then mapUpdate (recordFree { s with stations := Tab.put s.stations n 1 } n 5) else s)
  else .next (if n < 24 then mapUpdate (recordFree (setLoop s n fun x => { x with st := 1 }) ((s.loop n).order.headD 0) 5) else s)

/-- PORT_DOWN (R450). -/
def execPortDown (port : Nat) (s : State) : Host.Outcome State Fault Refusal :=
  .next (if port < 8 then mapUpdate (recordFree { s with ports := Tab.put s.ports port 1 } (portStation port) 8) else s)

/-- PORT_UP (R448). -/
def execPortUp (port : Nat) (s : State) : Host.Outcome State Fault Refusal :=
  .next (if port < 8 ∧ s.port port ≠ 0 then mapUpdate { s with ports := Tab.put s.ports port 0 } else s)

/-- What a peer device finds of a route, by a free value: it passes, a check of R443 fails, or the target is gone; a route that would enter a third port goes no
further than that, and is refused there under check 1 (R444, R450). -/
def peerFinds (route v : Word) : Word :=
  let a := v.toNat % 9
  if 2 < ((usedSegs route).filterMap segPort).length ∧ (a = 0 ∨ a = 8) then 1 else if a = 8 then 0x12 else w64 a

/-- PEER_ARRIVAL_CHECK: the peer device's port answers the address phase that waits for it (R444, R450). -/
def execPeerArrivalCheck (n : Nat) (s : State) : Host.Outcome State Fault Refusal :=
  match s.peerOut[n]? with
  | some (c, ref, route) =>
    let (v, s) := s.free
    .next ({ s with peerOut := takeOut n s.peerOut }.modCtx c fun x => { x with peerAns := x.peerAns ++ [((ref, route), peerFinds route v)] })
  | none => .next s

/-- HOST_CXL_MEM_ACCESS: a word of device DRAM read or written by the host at its home slice (R452), a
read's contents going to the host; a store into an uncorrectable line is discarded with
a record (R157). -/
def execHostCxlMemAccess (addr : Nat) (write : Bool) (v : Word) (s : State) : Host.Outcome State Fault Refusal :=
  let a := addr / 8 * 8
  if Config.dramSize ≤ a ∨ !homeUp s a then .next s
  else
    let s := l2Touch s a 0 true write 63
    .next (if !write then { s with hostRead := s.word a }
      else if s.isBad a then s.recordUnit (stationOfCol (sliceCol (sliceOf a))) (sliceOf a % 2) 63 0x41 (w64 a) 0
      else rereadSpaces (s.setWord a v) a)

/-- HOST_SNOOP: the L2 copy of a line of host memory is invalidated or written back (R451). -/
def execHostSnoop (line : Nat) (inval : Bool) (s : State) : Host.Outcome State Fault Refusal :=
  if 64 * line < Config.hostBase then .next s
  else if inval then .next { s with l2 := s.l2.filter fun x => x.line != line }
  else .next { s with l2 := s.l2.map fun x => if x.line == line then { x with dirty := false } else x }

/-- MSIX_VECTOR_UNMASK: a message held pending is sent (R454). -/
def execMsixVectorUnmask (v : Nat) (s : State) : Host.Outcome State Fault Refusal :=
  let x := Tab.get s.vecs v ⟨false, false, 0⟩
  .next (if v < 1040 then { s with vecs := Tab.put s.vecs v ⟨false, false, if x.pending then x.sent + 1 else x.sent⟩ } else s)

end Sys2Proof.Machine
end

