-- ==== Sys2Proof/Machine/Firmware.lean ====
section
/-! DEFINITION. The column's temperature and clock (R466 to R471), the firmware mailbox and its commands (R331, R351, R392 to R395, R437, R472, R474),
and the start of the device (R475, R477). -/

namespace Sys2Proof.Machine

/-- A record whose code the spec gives, and whose object and detail it does not: those are free values (log 21). -/
def recordCode (s : State) (st u code : Nat) : State :=
  let (o, s) := s.free
  let (d, s) := s.free
  s.recordUnit st u 63 code o d

/-! ### Temperature (R468, R469) -/

/-- The readings of the sensors that are not marked. -/
def validReadings (marked : List Nat) (ts : List Int) : List Int :=
  (numbered ts).filterMap fun (p : Int × Nat) => if marked.contains p.2 then none else some p.1

/-- The column temperature in two-hundredths of a degree (R468). -/
def columnTemp (marked : List Nat) (ts : List Int) : Option Int :=
  match validReadings marked ts with
  | [a, b, c] => some (2 * max (min a b) (min (max a b) c))
  | [a, b] => some (a + b)
  | [a] => some (2 * (a + 1000))
  | _ => none

/-- The sample that lies 16 ms back. -/
def oldSample (s : State) (k : Column) : Option Sample := k.samples.find? fun x => decide (16000000 ≤ (s.tsc - x.tsc).toNat)

/-- The samples of the last 16 ms, with the one that lies 16 ms back. -/
def recentSamples (s : State) (k : Column) : List Sample :=
  (k.samples.takeWhile fun x => decide ((s.tsc - x.tsc).toNat < 16000000)) ++ (oldSample s k).toList

/-- A sensor does not move while the power does (R468). -/
def stuck (s : State) (k : Column) (i : Nat) (t : Int) (mw : Nat) : Bool :=
  match oldSample s k with
  | none => false
  | some o =>
    let rs := (recentSamples s k).map fun x => x.ts.getD i t
    let hi := rs.foldl max t
    let lo := rs.foldl min t
    decide (hi - lo < 25) && mw != o.mw && decide (o.mw ≤ 5 * (if mw < o.mw then o.mw - mw else mw - o.mw))

/-- A sensor is faulty (R468). -/
def faulty (s : State) (k : Column) (i : Nat) (t : Int) (mw : Nat) : Bool := decide (t < -4000) || decide (15000 < t) || stuck s k i t mw

/-- Where a thermal level begins, in two-hundredths of a degree (R469). -/
def levelEntry (l : Nat) : Int :=
  match l with
  | 0 => -100000
  | 1 => 19000
  | 2 => 21000
  | _ => 23000

/-- The level a temperature selects. -/
def levelOf (t : Int) : Nat := if levelEntry 3 ≤ t then 3 else if levelEntry 2 ≤ t then 2 else if levelEntry 1 ≤ t then 1 else 0

/-- Levels fall one after the other, each once T is 3 °C below its entry value (R469); the fuel is the number of levels. -/
def fallLevel : Nat → Nat → Int → Nat
  | 0, l, _ => l
  | k + 1, l, t => if l ≠ 0 ∧ t + 600 ≤ levelEntry l then fallLevel k (l - 1) t else l

/-- The level after a sample. -/
def nextLevel (l : Nat) (t : Int) : Nat := if l ≤ levelOf t then levelOf t else fallLevel 3 l t

/-- The clock ceiling of a level in MHz (R469). -/
def levelClock (l : Nat) : Nat :=
  match l with
  | 0 => 4000
  | 1 => 4000
  | 2 => 3000
  | _ => 0

/-- The lowest of the ceilings that the level, R468 and the caps set (R469). -/
def clockOf (k : Column) (deviceCap : Nat) : Nat :=
  let noSensor := k.temp.isNone && !k.samples.isEmpty
  min (min (levelClock k.level) (if noSensor then 1000 else 4000))
    (min (if k.cap = 0 then 4000 else Config.capClock k.cap) (if deviceCap = 0 then 4000 else Config.deviceCapClock deviceCap))

/-- Mean power above 54 W, or above 90 % of a cap (R469). -/
def hotNow (s : State) (k : Column) (total : Nat) : Bool :=
  decide (54000 < k.mw) || (k.cap != 0 && decide (900 * k.cap < k.mw)) || (s.deviceCap != 0 && decide (900 * s.deviceCap < total))

/-- The power of all columns. -/
def totalPower (s : State) : Nat := (s.cols.map fun (p : Nat × Column) => p.2.mw).foldl (· + ·) 0

/-- A column's threshold and clock from its latest figures. -/
def setLimits (s : State) (col : Nat) : State :=
  let s := s.noteCycles col
  let k := s.col col
  let u := { k with hot := hotNow s k (totalPower s) }
  s.modCol col fun _ => { u with
    above := if aboveThreshold u && !aboveThreshold k then s.tsc else k.above
    clock := clockOf u s.deviceCap }

/-- A dispatch stall's episode ends once some column that the launch could use is not above its threshold (R429). -/
def endStalls (s : State) : State :=
  let free (l : Ready) : Bool := (List.range 64).any fun col => !aboveThreshold (s.col col) && (columnCtxs s col).any (fits s l)
  ((readyLaunches s).filter fun l => l.node.stalled && free l).foldl (fun s l => modNode s l.ref fun x => { x with stalled := false }) s

/-- The temperature, level and clock that readings give; level 3 removes the column's power at once (R383, R469). -/
def judge (s : State) (col : Nat) (ts : List Int) : State :=
  let k := s.col col
  let t := columnTemp k.marked ts
  let l := match t with
    | some t => nextLevel k.level t
    | none => k.level
  let was := aboveThreshold k
  let s := s.modCol col fun k => { k with
    temp := t
    level := l }
  let s := setLimits s col
  let s := if aboveThreshold (s.col col) && !was then s.modCol col fun k => { k with above := s.tsc } else s
  let s := endStalls (if l = k.level then s else recordCode s (stationOfCol col) 7 0x46)
  if l = 3 ∧ (s.col col).cellPower then lose false col s else s

/-- A sample (R468, R469): sensors found faulty are marked with a record each. -/
def sample (s : State) (col : Nat) (ts : List Int) (mw : Nat) : State :=
  let k := s.col col
  let bad := ((numbered ts).filter fun (p : Int × Nat) => !k.marked.contains p.2 && faulty s k p.2 p.1 mw).map fun (p : Int × Nat) => p.2
  let s := bad.foldl (fun s _ => recordCode s (stationOfCol col) 7 0x44) s
  judge (s.modCol col fun k => { k with
    marked := k.marked ++ bad
    samples := ⟨s.tsc, ts, mw⟩ :: recentSamples s k
    mw := mw }) col ts

/-! ### The mailbox (R474) -/

/-- What performing a command gives: the status it ends with, and the state; no status while it has to wait. -/
abbrev Performed := Option Nat × State

/-- The command is refused with a record. -/
def refuse (s : State) : Performed :=
  let (k, s) := s.free
  let (o, s) := s.free
  let (d, s) := s.free
  (some 1, s.recordFw 63 (0x40 + k.toNat % 0x1B) o d)

/-- A substitution writes a record and updates the map (R472). -/
def substituted (s : State) (st u : Nat) : Performed := (some 0, mapUpdate (recordFree s st u))

/-- The spare cell of a column is adopted (R392): a column with power is first lost as R383 says, and the column resumes with the spare in the place of the
cell. -/
def adoptCell (s : State) (cell : Nat) : Performed :=
  let col := colOf cell
  if 1024 ≤ cell then (some 2, s)
  else if s.spareUsed.contains col || !(s.col col).stationPower then refuse s
  else if (s.col col).cellPower && !mayPrepare s col then (none, s)
  else
    let s := if (s.col col).cellPower then lose false col (prepareColumn s col) else s
    let s := if (s.col col).reported then s else reportLoss s col
    let s := { s with spareUsed := s.spareUsed ++ [col] }.modCell cell fun k => { k with
      phys := 16
      banks := 17
      failedBanks := [] }
    substituted (resumeColumn ⟨false, some cell⟩ s col) (stationOfCol col) 7

/-- Some context of a cell holds a strand, live or saved. -/
def cellHolds (s : State) (n : Nat) : Bool := s.ctxs.any fun (p : Nat × Ctx) => cellOf p.1 == n && (p.2.strand.isSome || p.2.save.isSome)

/-- The failed banks of a cell are repaired (R330, R331): the words of the affected logical banks are zero and full, and their lines pending shadow (R381). -/
def repairCell (s : State) (n : Nat) : Performed :=
  if 1024 ≤ n then (some 2, s)
  else if cellHolds s n then refuse s
  else
    let bs := (s.cell n).failedBanks
    if bs.isEmpty then (some 0, s)
    else
      let s := bs.foldl (fun s b => zeroSpad s n (b * 0x10000) 0x10000) s
      let ls := bs.flatMap fun b => (List.range 1024).map (1024 * b + ·)
      let s := { s with badWords := s.badWords.filter fun w => !(spadCell (8 * w) == n && bs.contains (spadOff (8 * w) / 0x10000)) }
      substituted (s.modCell n fun k => { k with
        banks := k.banks - bs.length
        failedBanks := []
        pendingShadow := addLines ls k.pendingShadow }) (stationOf n) 7

/-- A spare loop takes the station order of a failed one (R437). -/
def commission (s : State) (spare failed : Nat) : Performed :=
  if spare < 20 ∨ 24 ≤ spare ∨ 24 ≤ failed then (some 2, s)
  else if (s.loop spare).st ≠ 2 ∨ (s.loop failed).st ≠ 1 then refuse s
  else substituted (setLoop s spare fun x => { x with
    st := 0
    order := (s.loop failed).order }) ((s.loop failed).order.headD 0) 5

/-- The lines of a slice. -/
def linesOfSlice (s : State) (n : Nat) : List L2Line := s.l2.filter fun x => sliceOf (64 * x.line) == n

/-- A dirty line is written back and stays, unless its slice holds its write-backs; one that cannot be corrected is quarantined (R338, R351). -/
def cleanL2 (s : State) (l : L2Line) : State :=
  if !l.dirty || (s.slice (sliceOf (64 * l.line))).held then s
  else if s.badL2.contains l.line then quarantine s l.line
  else { s with
    l2 := s.l2.map fun x => if x.line == l.line then { x with dirty := false } else x
    bad := s.bad.filter (· != l.line) }

/-- A slice's spare way group is brought in (R472), its lines written back first. -/
def substituteWays (s : State) (n : Nat) : Performed :=
  if 128 ≤ n then (some 2, s)
  else if (s.slice n).wayGroup || (linesOfSlice s n).any (·.pinned) then refuse s
  else
    let s := (linesOfSlice s n).foldl cleanL2 s
    if (linesOfSlice s n).any (·.dirty) then refuse s
    else substituted (s.modSlice n fun x => { x with wayGroup := true }) (stationOfCol (sliceCol n)) (n % 2)

/-- The label words of a line of a labelled page (R343), as the page tables map it. -/
def lineLabels (s : State) (line : Nat) : List Nat :=
  ((pagesOver s (64 * line)).filterMap fun p =>
    if pteLab p.1 then some (ptePa p.1 + p.2 + (64 * line - ptePa p.1) / 2) else none).eraseDups

/-- The release of a quarantine entry: the line has zero data, ⊤ labels and full bits in DRAM (R351), also where firmware's bring-up had left words. -/
def releaseLine (s : State) (n line : Nat) : Performed :=
  if 128 ≤ n ∨ !(s.slice n).quar.contains line then (some 2, s)
  else
    let a := 64 * line
    let t := (lineLabels s line).foldl (fun s l => s.setNum l 32 0) ((s.setNum a 64 0).setByte (feAt a).1 0xFF)
    (some 0, { t with
      bad := s.bad.filter (· != line) }.modSlice n fun x => { x with
        quar := x.quar.filter (· != line)
        held := false })

/-- A sensor's marking is cleared (R468); the latest sample is judged again. -/
def clearMarking (s : State) (col sensor : Nat) : Performed :=
  if 64 ≤ col ∨ 3 ≤ sensor then (some 2, s)
  else
    let s := s.modCol col fun k => { k with marked := k.marked.filter (· != sensor) }
    (some 0, match (s.col col).samples with
      | x :: _ => judge s col x.ts
      | [] => s)

/-- Columns whose cap leaves no clock lose their power as R383 says. -/
def capLosses (s : State) (cols : List Nat) : Option State :=
  let out := cols.filter fun c => (s.col c).cellPower && (s.col c).clock == 0 && decide ((s.col c).level < 3)
  if out.all (mayPrepare s) then some (out.foldl (fun s c => lose false c (prepareColumn s c)) s) else none

/-- A power cap of a column or, as 0xFF, of the device (R469, R474); 0 watts takes it away. -/
def setCap (s : State) (col watts : Nat) : Performed :=
  let done (t : Option State) : Performed := t.elim (none, s) fun t => (some 0, t)
  if col = 0xFF then done (capLosses (endStalls ((List.range 64).foldl setLimits { s with deviceCap := watts })) (List.range 64))
  else if 64 ≤ col then (some 2, s)
  else done (capLosses (endStalls (setLimits (s.modCol col fun k => { k with cap := watts }) col)) [col])

/-- No engine has work (R393 step 2). -/
def enginesIdle (s : State) : Bool :=
  s.cells.all (fun (p : Nat × Cell) => p.2.copies.isEmpty && p.2.cwait.isEmpty) && s.cols.all (fun (p : Nat × Column) => p.2.gathers.isEmpty)
  && s.frames.isEmpty && s.encs.isEmpty && s.streams.all fun (p : Nat × List Frame) => p.2.isEmpty

/-- What the segments of a checkpoint of the device's state hold (R393 step 4): DRAM, the scratchpads and the Flacon regions, with the TSC at which the command began (R394). -/
def plainCheckpoint (s : State) : Checkpoint where
  segs := []
  mem := s.mem.filter fun p => decide (p.1 < Config.dramSize) || (decide (Config.spadBase ≤ p.1) && decide (p.1 < Config.peerBase))
  images := s.images
  shadows := s.cells.map fun (p : Nat × Cell) => (p.1, p.2.shadowX, p.2.shadowY)
  modes := s.cells.map fun (p : Nat × Cell) => (p.1, p.2.mode)
  spaces := s.spaces
  logs := s.cols.map fun (p : Nat × Column) => (p.1, p.2.powerLog)
  errs := s.cells.map fun (p : Nat × Cell) => (p.1, p.2.restoreErr)
  quars := s.slices.map fun (p : Nat × Slice) => (p.1, p.2.quar)
  tsc := s.mailbox.since

/-- A checkpoint with the headers of its segments (R394). -/
def checkpointOf (s : State) : Checkpoint := { plainCheckpoint s with segs := (plainCheckpoint s).segments }

/-- The running strands of a column whose contexts' save areas are free, and that may be saved now, are saved. -/
def saveReady (s : State) (col : Nat) : State :=
  (colCtxs s col).foldl (fun s c =>
    if (s.ctx c).strand.isSome && (s.ctx c).run == .running && (s.ctx c).save.isNone && maySave s c then saveCtx s c else s) s

/-- A whole-device checkpoint (R393). Dispatch stops and strands are pre-empted as they can be saved, and the command waits for the others and for the engines; then
every image and shadow line is durable, and every dirty L2 line is written back. Afterwards dispatch goes on, or stays stopped. DESIGN CHOICE (log 62): with a
slice that holds its write-backs (R351) the dirty lines cannot all be written back, and the command is refused. -/
def checkpointAll (s : State) (stay : Bool) : Performed :=
  let cols := (List.range 64).filter fun c => (s.col c).cellPower
  let s := cols.foldl saveReady { s with dispatch := false }
  if !(cols.all (mayPrepare s) && enginesIdle s) then (none, s)
  else
    let s := cols.foldl prepareColumn s
    let s := s.l2.foldl cleanL2 s
    if s.l2.any (·.dirty) then refuse { s with dispatch := true }
    else (some 0, { s with
      checkpoint := some (checkpointOf s)
      dispatch := !stay })

/-- Every column's power goes, and its loss is reported. -/
def loseAll (s : State) : State :=
  (List.range 64).foldl (fun s c =>
    let s := if (s.col c).stationPower then lose true c s else s
    if (s.col c).reported then s else reportLoss s c) s

/-- A warm start (R477): every column resumes, the Alembic is empty, and nothing is on its way. -/
def warmStart (how : Resume) (s : State) : State :=
  let s := { s with
    claims := []
    claimReqs := []
    claimRets := []
    claimOuts := []
    walks := []
    frames := []
    streams := []
    encs := []
    credits := []
    stores := []
    passes := []
    barReqs := []
    notices := []
    labelJobs := []
    rewrites := []
    nogoods := []
    compacts := []
    l2 := []
    mailbox := { s.mailbox with
      busy := false
      result := none } }
  (List.range 64).foldl (resumeColumn how) s

/-- A cell's shadow copies and context mode as a checkpoint holds them. -/
def checkpointCell (k : Checkpoint) (s : State) (n : Nat) : State :=
  let p := Tab.get k.shadows n ([], [])
  s.modCell n fun x => { x with
    shadowX := p.1
    shadowY := p.2
    mode := Tab.get k.modes n .m16
    restoreErr := Tab.get k.errs n [] }

/-- A column's power-down log as a checkpoint holds it (R375); its cycles go on from the restored TSC. -/
def checkpointCol (k : Checkpoint) (s : State) (n : Nat) : State :=
  s.modCol n fun x => { x with
    powerLog := Tab.get k.logs n []
    cyclesAt := s.tsc }

/-- A slice's quarantine table as a checkpoint holds it (R375). -/
def checkpointSlice (k : Checkpoint) (s : State) (n : Nat) : State :=
  s.modSlice n fun x => { x with
    quar := Tab.get k.quars n []
    held := false }

/-- A checkpoint is restored (R395): the segments are written back, and each digest is checked; one that does not match refuses the whole restore. `good`
says that the host sends the bytes that it was sent. -/
def restoreAll (s : State) (good : Bool) : Performed :=
  match s.checkpoint with
  | none => (some 2, s)
  | some k =>
    if !good || k.segs != k.segments then refuse s
    else
      let s := loseAll s
      let s := { s with
        mem := (k.mem.filter fun p => decide (p.1 < Config.dramSize))
          ++ (s.mem.filter fun p => decide (Config.dramSize ≤ p.1) && decide (p.1 < Config.spadBase))
          ++ k.mem.filter fun p => decide (Config.spadBase ≤ p.1)
        images := k.images
        spaces := k.spaces
        bad := []
        tsc := if s.tsc.toNat < k.tsc.toNat then k.tsc else s.tsc
        dispatch := true }
      let s := ((s.cells.map fun (p : Nat × Cell) => p.1) ++ k.shadows.map fun (p : Nat × (Tab Shadow × Tab Shadow)) => p.1).foldl (checkpointCell k) s
      let s := (List.range 128).foldl (checkpointSlice k) ((List.range 64).foldl (checkpointCol k) s)
      (some 0, warmStart ⟨true, none⟩ s)

/-- A column is powered down, after R383's wait, or up (R474, R385). -/
def powerOf (s : State) (col : Nat) (up station : Bool) : Performed :=
  let k := s.col col
  if 64 ≤ col then (some 2, s)
  else if up then
    if k.cellPower then (some 0, s)
    else (some 0, resumeColumn ⟨false, none⟩ (if k.reported then s else reportLoss s col) col)
  else if !k.cellPower && !(station && k.stationPower) then (some 0, s)
  else if k.cellPower && !mayPrepare s col then (none, s)
  else (some 0, lose station col (if k.cellPower then prepareColumn s col else s))

/-- A slice is taken out of service (R351): its hold ends, its lines are written back or quarantined, and it holds no copies from then on. -/
def retireSlice (s : State) (n : Nat) : Performed :=
  if 128 ≤ n then (some 2, s)
  else (some 0, ((linesOfSlice s n).foldl flushL2 s).modSlice n fun x => { x with
    retired := true
    held := false })

/-! ### Bring-up (R475, R477) -/

/-- A measured item is extended into the attestation value (R475). -/
def measure (s : State) (digest : BitVec 512) : State :=
  { s with
    attestA := sha512 (digestBytes s.attestA ++ digestBytes digest)
    attestLog := s.attestLog ++ [digest] }

/-- The tests of bring-up mark the units that they find failed (R475): a station, a loop, a port, or one bank of a cell's scratchpad; which these are is free
(log 103). -/
def markFailed (s : State) (u : Config.Unit) : State :=
  match u with
  | .station n => if n < 76 then { s with stations := Tab.put s.stations n 1 } else s
  | .loop n => if n < 24 then setLoop s n fun x => { x with st := 1 } else s
  | .port n => if n < 8 then { s with ports := Tab.put s.ports n 1 } else s
  | .bank n => if n < 1024 then s.modCell n fun k => { k with banks := k.banks - 1 } else s

/-- Every unit that the tests find failed is marked, and the map is written. -/
def bringUp (s : State) : State :=
  let us := Config.failedUnits s.tick
  writeMap (us.foldl markFailed { s with tick := s.tick + 1 })

/-- The device after a cold start, host memory, the host's checkpoint and the fuses as they were. -/
def coldState (s : State) : State :=
  { State.reset with
    agenda := s.agenda
    tick := s.tick
    mem := s.mem.filter fun p => decide (Config.hostBase ≤ p.1) && decide (p.1 < Config.paEnd)
    recs := []
    parts := []
    vecs := []
    checkpoint := s.checkpoint
    fuses := s.fuses }

/-! ### Droop (R471) -/

/-- The supply falls: cycles are stretched from now on. -/
def droopBegins (s : State) (col : Nat) : State :=
  if (s.col col).droop then s
  else (s.noteCycles col).modCol col fun k => { k with
    droop := true
    droopSince := s.tsc
    droopNoted := false }

/-- A stretch that has lasted more than 1 µs writes its one record. -/
def droopLong (s : State) (col : Nat) : State :=
  let k := s.col col
  if k.droop && !k.droopNoted && decide (1000 < (s.tsc - k.droopSince).toNat) then
    recordCode (s.modCol col fun k => { k with droopNoted := true }) (stationOfCol col) 7 0x45
  else s

/-- The supply has recovered; a stretch that was longer than 1 µs has its record by then. -/
def droopEnds (s : State) (col : Nat) : State := ((droopLong s col).noteCycles col).modCol col fun k => { k with droop := false }

/-! ### Events -/

/-- TEMPERATURE_SAMPLE (R468, R469). -/
def execTemperatureSample (col : Nat) (t0 t1 t2 : Int) (mw : Nat) (s : State) : Host.Outcome State Fault Refusal :=
  .next (if col < 64 then sample s col [t0, t1, t2] mw else s)

/-- DROOP_STRETCH: cycles are stretched until the supply recovers (R471). -/
def execDroopStretch (col : Nat) (s : State) : Host.Outcome State Fault Refusal :=
  .next (if col < 64 then droopBegins s col else s)

/-- DROOP_STRETCH_LONG: a stretch has lasted more than 1 µs (R471). -/
def execDroopStretchLong (col : Nat) (s : State) : Host.Outcome State Fault Refusal :=
  .next (droopLong s col)

/-- SUPPLY_RECOVERY (R471). -/
def execSupplyRecovery (col : Nat) (s : State) : Host.Outcome State Fault Refusal :=
  .next (if col < 64 then droopEnds s col else s)

/-- POWER_ON (R475, R477): the boot ROM verifies the firmware against an unrevoked key; a failure halts the device,
with no record queue. Firmware then takes the warm start, or
the cold one with a record, and writes the Sillage map. -/
def execPowerOn (warm : Bool) (key digest : BitVec 512) (sig : List Byte) (s : State) : Host.Outcome State Fault Refusal :=
  if !(s.fuses.contains (key, false) && pssVerify (Config.bootKey key) digest sig) then
    let (v, s) := s.free
    .next { loseAll s with
      recs := []
      booted := false
      halted := some v }
  else if warm then
    let s := { warmStart ⟨false, none⟩ (loseAll s) with
      booted := true
      halted := none
      attestA := 0
      attestLog := [] }
    .next (bringUp (measure s digest))
  else
    let (o, s) := s.free
    .next (bringUp (measure ((coldState s).recordFw 63 0x4E o 0) digest))

/-! ### The mailbox's commands (R474) -/

/-- Argument `i` as a number. -/
def argOf (args : List Word) (i : Nat) : Nat := (args.getD i 0).toNat
/-- Argument `i` as a choice of two. -/
def flagOf (args : List Word) (i : Nat) : Bool := args.getD i 0 != 0
/-- A choice as an argument. -/
def ofFlag (b : Bool) : Word := if b then 1 else 0

/-- A command of the table of R474 is performed with its arguments; any other op gives status 2. -/
def perform (op : BitVec 8) (args : List Word) (s : State) : Performed :=
  match op.toNat with
  | 0x01 => adoptCell s (argOf args 0)
  | 0x02 => repairCell s (argOf args 0)
  | 0x03 => commission s (argOf args 0) (argOf args 1)
  | 0x04 => substituteWays s (argOf args 0)
  | 0x05 => releaseLine s (argOf args 0) (argOf args 1)
  | 0x06 => clearMarking s (argOf args 0) (argOf args 1)
  | 0x07 => setCap s (argOf args 0) (argOf args 1)
  | 0x08 => checkpointAll s (flagOf args 0)
  | 0x09 => restoreAll s (flagOf args 0)
  | 0x0A => powerOf s (argOf args 0) (flagOf args 1) (flagOf args 2)
  | 0x0B => retireSlice s (argOf args 0)
  | _ => (some 2, s)

/-- A write of a command to the mailbox: discarded with a record while one is in progress; otherwise it is performed, and its completion will clear busy. One that
has to wait stays in progress, and is taken up again until it can be performed. -/
def command (op : BitVec 8) (args : List Word) (s : State) : Host.Outcome State Fault Refusal :=
  if s.mailbox.busy then .next (s.recordFw 63 0x57 0x4000 (op.setWidth 64))
  else
    let m : Mailbox := ⟨op, true, s.mailbox.status, args, none, s.tsc⟩
    let (r, t) := perform op args { s with mailbox := m }
    .next { t with mailbox := { m with result := r.map (BitVec.ofNat 8) } }

/-- ADOPT_SPARE_CELL, command 0x01 (R392). -/
def execAdoptSpareCell (cell : Nat) (s : State) : Host.Outcome State Fault Refusal := command 0x01 [w64 cell] s

/-- REPAIR_BANKS, command 0x02 (R331). -/
def execRepairBanks (cell : Nat) (s : State) : Host.Outcome State Fault Refusal := command 0x02 [w64 cell] s

/-- COMMISSION_SPARE_LOOP, command 0x03 (R437). -/
def execCommissionSpareLoop (spare failed : Nat) (s : State) : Host.Outcome State Fault Refusal := command 0x03 [w64 spare, w64 failed] s

/-- SUBSTITUTE_L2_WAY_GROUP, command 0x04 (R472). -/
def execSubstituteL2WayGroup (slice : Nat) (s : State) : Host.Outcome State Fault Refusal := command 0x04 [w64 slice] s

/-- RELEASE_QUARANTINE_ENTRY, command 0x05 (R351). -/
def execReleaseQuarantineEntry (slice line : Nat) (s : State) : Host.Outcome State Fault Refusal := command 0x05 [w64 slice, w64 line] s

/-- CLEAR_SENSOR_MARKING, command 0x06 (R468). -/
def execClearSensorMarking (col sensor : Nat) (s : State) : Host.Outcome State Fault Refusal := command 0x06 [w64 col, w64 sensor] s

/-- SET_POWER_CAP, command 0x07 (R469, R383). -/
def execSetPowerCap (col watts : Nat) (s : State) : Host.Outcome State Fault Refusal := command 0x07 [w64 col, w64 watts] s

/-- TAKE_CHECKPOINT, command 0x08 (R393). -/
def execTakeCheckpoint (stay : Bool) (s : State) : Host.Outcome State Fault Refusal := command 0x08 [ofFlag stay] s

/-- RESTORE_CHECKPOINT, command 0x09 (R395). -/
def execRestoreCheckpoint (good : Bool) (s : State) : Host.Outcome State Fault Refusal := command 0x09 [ofFlag good] s

/-- POWER_COLUMN, command 0x0A (R383, R474); a third argument says whether the station goes too. -/
def execPowerColumn (col : Nat) (up station : Bool) (s : State) : Host.Outcome State Fault Refusal := command 0x0A [w64 col, ofFlag up, ofFlag station] s

/-- TAKE_SLICE_OUT_OF_SERVICE, command 0x0B (R351). -/
def execTakeSliceOutOfService (slice : Nat) (s : State) : Host.Outcome State Fault Refusal := command 0x0B [w64 slice] s

/-- INVALID_MAILBOX_COMMAND: any other op gives status 2 (R474). -/
def execInvalidMailboxCommand (op : BitVec 8) (s : State) : Host.Outcome State Fault Refusal :=
  if 0x01 ≤ op.toNat ∧ op.toNat ≤ 0x0B then .next s else command op [] s

/-- MAILBOX_COMPLETION: busy clears, status is set, and vector 1,024 rises (R474); a command that had to wait is first taken up again. -/
def execMailboxCompletion (s : State) : Host.Outcome State Fault Refusal :=
  let m := s.mailbox
  if !m.busy then .next s
  else
    let (r, t) := match m.result with
      | some r => (some r.toNat, s)
      | none => perform m.op m.args s
    match r with
    | some r => .next ({ t with mailbox := { m with
        busy := false
        status := BitVec.ofNat 8 r
        result := none } }.raiseVector 1024)
    | none => .next { t with mailbox := m }

/-- ATTESTATION_REQUEST: A, the log and the host's nonce, signed with the device's identity key (R475). -/
def execAttestationRequest (nonce : BitVec 512) (s : State) : Host.Outcome State Fault Refusal :=
  .next { s with attestOut := Config.deviceSign s.attestA s.attestLog nonce }

end Sys2Proof.Machine
end

