-- ==== Sys2Proof/Machine/Load.lean ====
section
/-! DEFINITION. Loading a KOF file (R104 to R111, R115 to R117, R476): the checks of a whole file, what the loader writes, and the receipt of an image
by a cell. -/

namespace Sys2Proof.Machine

/-! ### Reading a file (R104 to R112) -/

/-- The little-endian number of `n` bytes at offset `o`. -/
def fileNum (f : List Byte) (o n : Nat) : Nat := leNat ((f.drop o).take n)

/-- `n` bytes at offset `o`. -/
def fileBytes (f : List Byte) (o n : Nat) : List Byte := (f.drop o).take n

/-- A section: its table entry's fields (R106). -/
structure KSec where
  no : Nat
  type : Nat
  img : Nat
  attr : Nat
  off : Nat
  fsz : Nat
  msz : Nat
  algn : Nat
  name : Nat
  res : Nat
  link : Nat
  vaddr : Nat
deriving DecidableEq, Repr

/-- Section `i` of a file. -/
def kSec (f : List Byte) (i : Nat) : KSec :=
  let o := fileNum f 16 8 + 48 * i
  ⟨i, fileNum f o 2, fileNum f (o + 2) 2, fileNum f (o + 4) 4, fileNum f (o + 8) 8, fileNum f (o + 16) 8, fileNum f (o + 24) 8,
    fileNum f (o + 36) 1, fileNum f (o + 32) 4, fileNum f (o + 37) 1, fileNum f (o + 38) 2, fileNum f (o + 40) 8⟩

/-- The sections after the null entry. -/
def kSecs (f : List Byte) : List KSec := ((List.range (fileNum f 8 2)).drop 1).map (kSec f)
/-- The section of a type that the file holds once. -/
def theSec (f : List Byte) (t : Nat) : KSec := ((kSecs f).find? fun x => x.type == t).getD ⟨0, 0, 0, 0, 0, 0, 0, 0, 0, 0, 0, 0⟩
/-- The entries of `n` bytes of a section: their file offsets. -/
def entriesOf (x : KSec) (n : Nat) : List Nat := (List.range (x.fsz / n)).map fun i => x.off + n * i
/-- The number of images. -/
def kImages (f : List Byte) : Nat := fileNum f 10 2
/-- The file offset of an image's table entry. -/
def imgAt (f : List Byte) (i : Nat) : Nat := (theSec f 9).off + 32 * i

/-- A placement: first and last cell, image (R110). -/
structure KPlace where
  first : Nat
  last : Nat
  img : Nat
deriving DecidableEq, Repr

/-- The placements of a file. -/
def kPlaces (f : List Byte) : List KPlace := (entriesOf (theSec f 10) 8).map fun o => ⟨fileNum f o 2, fileNum f (o + 2) 2, fileNum f (o + 4) 2⟩
/-- The boot tree of a file (R111). -/
def kBoot (f : List Byte) : List LoadCell :=
  (entriesOf (theSec f 11) 8).map fun o =>
    ⟨fileNum f o 2, if fileNum f (o + 2) 2 = 0xFFFF then none else some (fileNum f (o + 2) 2), fileNum f (o + 4) 2, .waits⟩
/-- The sections of an image, in table order. -/
def secsOf (f : List Byte) (i : Nat) : List KSec := (kSecs f).filter fun x => x.img == i
/-- The entries of 8 bytes of the placement table or the boot tree that name an image, as bytes. -/
def namedEntries (f : List Byte) (x : KSec) (i : Nat) : List Byte :=
  ((entriesOf x 8).filter fun o => fileNum f (o + 4) 2 == i).flatMap fun o => fileBytes f o 8
/-- What an image's digest is taken over (R116): its table entry; of each of its sections the table entry and the body; and the placement and boot tree entries
that name it. -/
def digestInput (f : List Byte) (i : Nat) : List Byte :=
  fileBytes f (imgAt f i) 32
  ++ (secsOf f i).flatMap (fun x => fileBytes f (fileNum f 16 8 + 48 * x.no) 48 ++ fileBytes f x.off x.fsz)
  ++ namedEntries f (theSec f 10) i ++ namedEntries f (theSec f 11) i
/-- A handle record's entry at a file offset (R24). -/
def recordAt (f : List Byte) (o : Nat) : HEntry := ⟨w64 (fileNum f o 8), w64 (fileNum f (o + 8) 8), w64 (fileNum f (o + 16) 8), w64 (fileNum f (o + 24) 8)⟩

/-- The digest that the measurement section gives an image (R116). -/
def kDigest (f : List Byte) (i : Nat) : Option (BitVec 512) :=
  ((entriesOf (theSec f 12) 72).find? fun o => fileNum f o 2 == i).map fun o => BitVec.ofNat 512 (fileNum f (o + 8) 64)

/-! ### The checks of a whole file (R117) -/

/-- Two ranges share a number. -/
def meets (a n b m : Nat) : Bool := n != 0 && m != 0 && decide (a < b + m) && decide (b < a + n)

/-- Every pair of a list, in order, satisfies a test. -/
def pairsOk {α : Type} (p : α → α → Bool) : List α → Bool
  | [] => true
  | a :: t => t.all (p a) && pairsOk p t

/-- R105, with the size that R104 demands. -/
def headerOk (f : List Byte) : Bool :=
  decide (64 ≤ f.length) && fileBytes f 0 4 == [0x4B, 0x4F, 0x46, 0x01] && fileNum f 4 2 == 1 && fileNum f 6 2 == 64
  && decide (1 ≤ fileNum f 8 2) && decide (kImages f ≤ 1024) && bit (w64 (fileNum f 12 4)) 0 && fileNum f 24 8 == f.length

/-- R104: reserved fields, those of attributes and handle records among them, bodies inside the file at multiples of 8, and none over another. -/
def containerOk (f : List Byte) : Bool :=
  decide (fileNum f 12 4 < 4) && fileNum f 32 32 == 0 && decide (fileNum f 16 8 + 48 * fileNum f 8 2 ≤ f.length)
  && (kSecs f).all (fun x => x.res == 0 && x.off % 8 == 0 && decide (x.off + x.fsz ≤ f.length) && decide (x.attr < 2 ^ 14))
  && ((kSecs f).filter fun x => x.type == 8).all (fun x => (entriesOf x 32).all fun o => !(recordAt f o).reserved)
  && pairsOk (fun a b => !meets a.off a.fsz b.off b.fsz) (kSecs f)

/-- A name is an offset in a string section (R106, R109, R112). A file that holds no string section names nothing, with offset 0 (DEDUCED, log 87). -/
def nameOk (f : List Byte) (n : Nat) : Bool := n == 0 || (kSecs f).any fun x => x.type == 7 && decide (n < x.fsz)

/-- R106: a symbol section links to its string section, and nothing else to anything. -/
def sectionsOk (f : List Byte) : Bool :=
  fileNum f (fileNum f 16 8) 48 == 0
  && (kSecs f).all fun x => decide (1 ≤ x.algn) && decide (x.algn ≤ 12) && decide (x.fsz ≤ x.msz) && (x.type != 4 || x.fsz == 0)
    && x.vaddr % 2 ^ x.algn == 0 && nameOk f x.name
    && (if x.type = 5 then (kSecs f).any fun y => y.no == x.link && y.type == 7 else x.link == 0)

/-- R107; the names of a string section end in a zero byte. -/
def typesOk (f : List Byte) : Bool :=
  let count (t : Nat) : Nat := ((kSecs f).filter fun x => x.type == t).length
  (kSecs f).all (fun x => decide (1 ≤ x.type) && decide (x.type ≤ 13) && x.type != 6
    && (if x.type ≤ 4 ∨ x.type = 8 then decide (x.img < kImages f) else x.img == 0xFFFF))
  && [9, 10, 11, 12].all (fun t => count t == 1) && count 13 == (if bit (w64 (fileNum f 12 4)) 1 then 1 else 0)
  && ((kSecs f).filter fun x => x.type == 7).all fun x => x.fsz == 0 || fileNum f (x.off + x.fsz - 1) 1 == 0

/-- R108. -/
def attrOk (a : Nat) : Bool :=
  let w := w64 a
  fld w 0 2 != 3 && decide (fld w 11 3 ≤ 4) && decide (a < 2 ^ 14) && !(bit w 9 && bit w 6)

/-- The page size that a section asks for (R108). -/
def secPage (a : Nat) : Nat :=
  match fld (w64 a) 11 3 with
  | 0 => 0x1000
  | 1 => 0x10000
  | 2 => 0x200000
  | 3 => 0x4000000
  | _ => 0x40000000

/-- R109. DESIGN CHOICE (log 88): of a mode only its value is checked; no placed cell's context mode is compared with it, since R109 states no such check and
each launch node states the mode it needs. -/
def imagesOk (f : List Byte) : Bool :=
  (theSec f 9).fsz == 32 * kImages f && (List.range (kImages f)).all fun i =>
    let o := imgAt f i
    let e := fileNum f (o + 4) 4
    nameOk f (fileNum f o 4) && [0, 4, 8, 16].contains (fileNum f (o + 8) 1) && fileNum f (o + 9) 7 == 0 && fileNum f (o + 24) 8 == 0
    && fileNum f (o + 20) 4 == (secsOf f i).length
    && (secsOf f i).any fun x => x.type == 1 && decide (x.vaddr ≤ e) && decide (e < x.vaddr + x.msz)

/-- R110. -/
def placesOk (f : List Byte) : Bool :=
  (theSec f 10).fsz % 8 == 0 && (entriesOf (theSec f 10) 8).all (fun o => fileNum f (o + 6) 2 == 0)
  && (kPlaces f).all (fun p => decide (p.first ≤ p.last) && decide (p.last ≤ 1023) && decide (p.img < kImages f))
  && pairsOk (fun a b => decide (a.last < b.first) || decide (b.last < a.first)) (kPlaces f)

/-- The cells of the placements, each with its image. -/
def placedCells (f : List Byte) : List (Nat × Nat) :=
  (kPlaces f).flatMap fun p => (List.range (p.last + 1 - p.first)).map fun i => (p.first + i, p.img)

/-- Every entry's parent stands before it, with its image. -/
def parentsFirst : List LoadCell → List LoadCell → Bool
  | _, [] => true
  | seen, x :: t => (match x.parent with
    | none => true
    | some p => seen.any fun y => y.cell == p && y.img == x.img) && parentsFirst (seen ++ [x]) t

/-- R111. -/
def bootOk (f : List Byte) : Bool :=
  let bs := kBoot f
  (theSec f 11).fsz % 8 == 0 && (entriesOf (theSec f 11) 8).all (fun o => fileNum f (o + 6) 2 == 0)
  && bs.length == (placedCells f).length && (placedCells f).all (fun p => (bs.filter fun b => b.cell == p.1 && b.img == p.2).length == 1)
  && parentsFirst [] bs && bs.all fun b => decide ((bs.filter fun x => x.parent == some b.cell).length ≤ 4)

/-- R112: entries of 24 bytes, each with a name, a binding and a kind within their ranges, and a section of the file or an absolute value; no symbol of a
linked file is undefined. -/
def symbolsOk (f : List Byte) : Bool :=
  ((kSecs f).filter fun x => x.type == 5).all fun x => x.fsz % 24 == 0 && (entriesOf x 24).all fun o =>
    let sec := fileNum f (o + 4) 2
    nameOk f (fileNum f o 4) && decide (fileNum f (o + 6) 1 ≤ 2) && decide (fileNum f (o + 7) 1 ≤ 3)
    && sec != 0 && (sec == 0xFFFF || decide (sec < fileNum f 8 2))
    && (fileNum f (o + 7) 1 != 3 || (kSecs f).any fun y => y.no == sec && y.type == 8)

/-- The handle numbers of a record section (R112, R115): the values of the symbols of kind 3 that name it, in order (log 22). -/
def handleNumbers (f : List Byte) (x : KSec) : List Nat :=
  ((kSecs f).filter fun y => y.type == 5).flatMap fun y => (entriesOf y 24).filterMap fun o =>
    if fileNum f (o + 7) 1 = 3 ∧ fileNum f (o + 4) 2 = x.no then some (fileNum f (o + 8) 8) else none

/-- A handle record to be written: its number and the file offset of its 32 bytes. -/
def handleRecords (f : List Byte) : List (Nat × Nat) :=
  ((kSecs f).filter fun x => x.type == 8).flatMap fun x => (handleNumbers f x).zip (entriesOf x 32)

/-- The address of a slot of a partition's loader handle table. -/
def slotVa (base : Word) (n : Nat) : Nat := fld base 12 45 * 4096 + 32 * n

/-- What a handle record may hold (R115): a kind other than peer, a valid entry with words 2 and 3 zero, and a base within its kind's range. -/
def recordOk (e : HEntry) : Bool :=
  [0, 1, 3, 4].contains e.kind && e.valid && e.w2 == 0 && e.w3 == 0
  && (e.kind != 1 || decide (e.base ≤ 0xFFFFF)) && (e.kind != 4 || decide (e.base ≤ 4095))

/-- R115: a table is registered, the records are as they may be, the slots are free and can be written, and no number comes twice.
DESIGN CHOICE (log 106): a slot that cannot be read, or lies on a page that is not writable, refuses the file as well. -/
def handlesOk (s : State) (part : BitVec 6) (f : List Byte) : Bool :=
  let rs := handleRecords f
  (s.part part.toNat).ltable.isSome && rs.all (fun r => recordOk (recordAt f r.2))
  && ((kSecs f).filter fun x => x.type == 8).all (fun x => x.fsz == 32 * (handleNumbers f x).length)
  && pairsOk (fun (a b : Nat × Nat) => a.1 != b.1) rs
  && rs.all fun r => decide (r.1 < 16384) && match (s.part part.toNat).ltable with
    | none => false
    | some base => ((partWord s part (slotVa base r.1 + 8)).any fun w => !bit w 42)
        && (walkTable s part (slotVa base r.1)).any fun t => pteWr t.pte

/-- The measurement and signature sections (R116): sizes, reserved bytes, and one entry for each image. -/
def measuresOk (f : List Byte) : Bool :=
  (theSec f 12).fsz == 72 * kImages f && (entriesOf (theSec f 12) 72).all (fun o => fileNum f (o + 2) 6 == 0)
  && (List.range (kImages f)).all (fun i => (kDigest f i).isSome)
  && ((kSecs f).filter fun x => x.type == 13).all fun x => x.fsz == 520

/-- The measurement section's digest (R116, R476). -/
def measurement (f : List Byte) : BitVec 512 := sha512 (fileBytes f (theSec f 12).off (theSec f 12).fsz)

/-- The file's key verifies its measurement (R116, R476); a file without a signature names no key, and does not verify. -/
def keyOk (f : List Byte) : Bool :=
  match (kSecs f).find? fun x => x.type == 13 with
  | some x => pssVerify (Config.publicKey (BitVec.ofNat 64 (fileNum f x.off 8))) (measurement f) (fileBytes f (x.off + 8) 512)
  | none => false

/-- The cells whose scratchpad is smaller than their image requires (R117). -/
def tooSmall (s : State) (f : List Byte) : List Nat :=
  ((placedCells f).filter fun (p : Nat × Nat) => decide ((s.cell p.1).spadSize < fileNum f (imgAt f p.2 + 16) 4)).map fun (p : Nat × Nat) => p.1

/-- The pages that a file's sections lie on: 4 KiB pieces, each with its section (R108). -/
def kPages (f : List Byte) : List (Nat × KSec) :=
  ((kSecs f).filter fun x => x.type ≤ 4).flatMap fun x =>
    (List.range ((x.vaddr % 4096 + x.msz + 4095) / 4096)).map fun i => (x.vaddr / 4096 * 4096 + 4096 * i, x)

/-- Every page is mapped, at the size that its section asks for, in the partition's tables (R108, log 22). DESIGN CHOICE (log 106): it is mapped onto memory of the
device; a page of host memory refuses the file. -/
def pagesOk (s : State) (part : BitVec 6) (f : List Byte) : Bool :=
  (kPages f).all fun (p : Nat × KSec) => (walkTable s part (p.1 % 2 ^ 57)).any fun t =>
    t.size == secPage p.2.attr && decide (physOf t (p.1 % 2 ^ 57) + 4096 ≤ Config.dramSize)

/-- A cell is held by a load still in progress (R117). -/
def heldCells (s : State) (f : List Byte) : List Nat :=
  (kBoot f).filterMap fun b => if s.loads.any fun l => !l.failed && l.cells.any fun c => c.cell == b.cell then some b.cell else none

/-- The rule number of the first check that fails, and the cells it names (R117). DESIGN CHOICE (log 89): the checks are made in this order, and the record names
the first that fails; the spec gives no order. -/
def loadCheck (s : State) (part : BitVec 6) (f : List Byte) : Option (Nat × List Nat) :=
  if !headerOk f then some (105, [])
  else if !containerOk f then some (104, [])
  else if !sectionsOk f then some (106, [])
  else if !typesOk f then some (107, [])
  else if !((kSecs f).filter fun x => x.type ≤ 4).all (fun x => attrOk x.attr) then some (108, [])
  else if !imagesOk f then some (109, [])
  else if !placesOk f then some (110, [])
  else if !bootOk f then some (111, [])
  else if !symbolsOk f then some (112, [])
  else if !handlesOk s part f then some (115, [])
  else if !measuresOk f then some (116, [])
  else if !(tooSmall s f).isEmpty then some (117, tooSmall s f)
  else if !(heldCells s f).isEmpty then some (117, heldCells s f)
  else if !pagesOk s part f then some (108, [])
  else none

/-! ### What the loader writes (R108, R115, R117) -/

/-- The physical address of the leaf entry that maps an address of a partition, from a table at level `l` (the first argument is `l + 1`). -/
def leafFrom (s : State) (va : Nat) : Nat → Nat → Nat
  | 0, base => base
  | l + 1, base =>
    let idx := va / 2 ^ (12 + 9 * l) % 512
    let grp := if l = 0 then 16 else if l = 1 then 32 else 1
    let first := base + 8 * (idx / grp * grp)
    let own := base + 8 * idx
    if bit (s.word first) 0 && bit (s.word first) 1 && bit (s.word first) 2 then first
    else if bit (s.word own) 1 then own
    else leafFrom s va l (ptePa (s.word own))

/-- A leaf entry with the attributes of a section (R108, R345): readable, which no bit of attr says (DESIGN CHOICE, log 106), and cache level, policy, compression, class, labels, race detection,
execution and writing as the section says. DESIGN CHOICE (log 88): an attribute names no label space, and the entry's lsp stays what the partition's tables
give it. -/
def withAttr (e : Word) (a : Nat) : Word :=
  let w := w64 a
  let e := putFld (putFld (putFld e 3 1 1) 4 1 (fld w 10 1)) 5 1 (fld w 9 1)
  let e := putFld (putFld (putFld e 6 2 (fld w 0 2)) 8 1 (fld w 2 1)) 9 1 (fld w 3 1)
  putFld (putFld (putFld (putFld e 10 2 (fld w 4 2)) 48 1 (fld w 6 1)) 49 1 (fld w 7 1)) 50 1 (fld w 8 1)

/-- A page takes its section's attributes; its labels are ⊤, and its shadow words name no writer (R324, R343). -/
def setPage (part : BitVec 6) (s : State) (p : Nat × KSec) : State :=
  let va := p.1 % 2 ^ 57
  match walkTable s part va with
  | none => s
  | some t =>
    let at_ := leafFrom s va 5 (s.part part.toNat).root
    let s := s.setWord at_ (withAttr (s.word at_) p.2.attr)
    let w := w64 p.2.attr
    let base := ptePa t.pte + t.size
    let labs := if bit w 6 then t.size / 2 else 0
    let n := labs + if bit w 7 then t.size / 16 else 0
    let s := { s with mem := dropRange s.mem base (base + n) }
    if bit w 7 then (List.range (t.size / 64)).foldl (fun s q => s.setNum (base + labs + 4 * q) 4 0xFFFF) s else s

/-- Bytes at a virtual address of a partition, through its tables. DESIGN CHOICE (log 106): bytes for a page that its new attributes put out of reach, a labelled one whose
space is not a live one of the partition, are dropped. -/
def putVirtual (s : State) (part : BitVec 6) (va : Nat) (bs : List Byte) : State :=
  s.setBytes ((numbered bs).filterMap fun (p : Byte × Nat) =>
    (walkTable s part ((va + p.2) % 2 ^ 57)).map fun t => (physOf t ((va + p.2) % 2 ^ 57), p.1))

/-- A section's contents are written, its excess zero (R106). -/
def putSection (part : BitVec 6) (f : List Byte) (s : State) (x : KSec) : State :=
  putVirtual s part x.vaddr (fileBytes f x.off x.fsz ++ List.replicate (x.msz - x.fsz) 0)

/-- A handle record is written to its slot (R115). -/
def putHandle (part : BitVec 6) (f : List Byte) (base : Word) (s : State) (r : Nat × Nat) : State :=
  putVirtual s part (slotVa base r.1) (fileBytes f r.2 32)

/-- A load that passed its checks. DESIGN CHOICE (log 106): of two sections that lie on one page, the attributes of the later in the section table stay. -/
def beginLoad (s : State) (part : BitVec 6) (f : List Byte) : State :=
  let s := measure s (measurement f)
  let s := (kPages f).foldl (setPage part) s
  let s := ((kSecs f).filter fun x => x.type ≤ 4).foldl (putSection part f) s
  let s := match (s.part part.toNat).ltable with
    | some base => (handleRecords f).foldl (putHandle part f base) s
    | none => s
  let code := ((kSecs f).filter fun x => x.type == 1).map fun x => (x.vaddr, x.msz)
  let l : Load := {
    part := part
    code := code
    digests := (List.range (kImages f)).filterMap fun i => (kDigest f i).map fun d => (i, d)
    inputs := (List.range (kImages f)).map fun i => (i, digestInput f i)
    cells := kBoot f
    failed := false }
  let gone (x : Load) : Bool := x.failed && x.part == part && x.code.any fun a => code.any fun b => meets a.1 a.2 b.1 b.2
  let s := { s with loads := s.loads.filter fun x => !gone x }
  if l.cells.isEmpty then s else { s with loads := s.loads ++ [l] }

/-- The lowest number of a list, or 0xFFFF. -/
def lowest (l : List Nat) : Nat := l.foldl min 0xFFFF

/-! ### The receipt of an image (R116, R117) -/

/-- The cells below a failed one are not sent the image. -/
def cutBelow (l : List LoadCell) : List LoadCell :=
  l.foldl (fun done x => done ++ [match x.parent with
    | some p => if x.st == .waits && done.any (fun y => y.cell == p && (y.st == .failed || y.st == .cut)) then { x with st := .cut } else x
    | none => x]) []

/-- A cell may receive now: it waits, and its parent has verified the image. -/
def receives (l : Load) (cell : Nat) : Option LoadCell :=
  l.cells.find? fun x => x.cell == cell && x.st == .waits && match x.parent with
    | none => true
    | some p => l.cells.any fun y => y.cell == p && y.st == .verified

/-- A load whose cells are all settled is over; one with a failure is reported, naming the lowest failing cell, and its code is launched no more until a later
load takes its place (R117). -/
def endLoad (s : State) (n : Nat) (l : Load) : State :=
  if l.cells.any fun x => x.st == .waits then { s with loads := updAt n (fun _ => l) s.loads }
  else
    let bad := (l.cells.filter fun x => x.st == .failed).map fun x => x.cell
    if bad.isEmpty then { s with loads := takeOut n s.loads }
    else { s with loads := updAt n (fun _ => { l with failed := true }) s.loads }.recordFw 63 0x59 (w64 (lowest bad)) 116

/-! ### Events -/

/-- FILE_LOAD (R117, R476): the whole file is checked, then its key; a failure writes a record and nothing else. DESIGN CHOICE (log 89): the record of a refused load,
as of a failed one, is charged to the device, partition 63; the spec names no partition. -/
def execFileLoad (part : BitVec 6) (file : List Byte) (s : State) : Host.Outcome State Fault Refusal :=
  match loadCheck s part file with
  | some (r, cells) => .next (s.recordFw 63 0x59 (w64 (lowest cells)) (w64 r))
  | none =>
    if keyOk file then .next (beginLoad s part file)
    else
      let (v, s) := s.free
      .next (s.recordFw 63 0x51 0xFFFF v)

/-- What a cell receives of an image: the bytes that it is sent, with errors on the way XORed in. -/
def receivedBytes (sent errs : List Byte) : List Byte := (numbered sent).map fun (p : Byte × Nat) => p.1 ^^^ errs.getD p.2 0

/-- IMAGE_RECEIPT (R116, R117): the cell compares the digest of what it received, with these errors on the way, with the measurement. -/
def execImageReceipt (cell : Nat) (errs : List Byte) (s : State) : Host.Outcome State Fault Refusal :=
  match s.loads.findIdx? fun l => (receives l cell).isSome with
  | none => .next s
  | some n => match s.loads[n]? with
    | none => .next s
    | some l => match receives l cell with
      | none => .next s
      | some x =>
        let d := sha512 (receivedBytes (Tab.get l.inputs x.img []) errs)
        let good := Tab.get? l.digests x.img == some d
        let mark (y : LoadCell) : LoadCell := if y.cell = cell then { y with st := if good then .verified else .failed } else y
        let l := { l with cells := cutBelow (l.cells.map mark) }
        let s := if good then { s with received := Tab.put s.received cell d } else s.recordFw 63 0x51 (w64 cell) (w64 x.img)
        .next (endLoad s n l)

end Sys2Proof.Machine
end

