-- ==== Sys2Proof/Machine/Dispatch.lean ====
section
/-! DEFINITION. One arm per instruction: the direct call of its meaning. -/

namespace Sys2Proof.Machine

/-- What instruction or step `i` does in state `s`. -/
def exec (i : Instr) (s : State) : Host.Outcome State Fault Refusal :=
  match i with
  | .add d a b wa wb wid k => Sys2Proof.Machine.execAdd d a b wa wb wid k s
  | .sub d a b wa wb wid k => Sys2Proof.Machine.execSub d a b wa wb wid k s
  | .mul d a b wa wb wid k => Sys2Proof.Machine.execMul d a b wa wb wid k s
  | .mulh d a b wa wb => Sys2Proof.Machine.execMulh d a b wa wb s
  | .mulhn d a b wa wb => Sys2Proof.Machine.execMulhn d a b wa wb s
  | .div d a b wa wb wid => Sys2Proof.Machine.execDiv d a b wa wb wid s
  | .divn d a b wa wb wid => Sys2Proof.Machine.execDivn d a b wa wb wid s
  | .rem d a b wa wb wid => Sys2Proof.Machine.execRem d a b wa wb wid s
  | .remn d a b wa wb wid => Sys2Proof.Machine.execRemn d a b wa wb wid s
  | .and d a b wa wb => Sys2Proof.Machine.execAnd d a b wa wb s
  | .or d a b wa wb => Sys2Proof.Machine.execOr d a b wa wb s
  | .xor d a b wa wb => Sys2Proof.Machine.execXor d a b wa wb s
  | .mov d a wa => Sys2Proof.Machine.execMov d a wa s
  | .shl d a b wa wb => Sys2Proof.Machine.execShl d a b wa wb s
  | .shr d a b wa wb => Sys2Proof.Machine.execShr d a b wa wb s
  | .sra d a b wa wb => Sys2Proof.Machine.execSra d a b wa wb s
  | .rotl d a b wa wb => Sys2Proof.Machine.execRotl d a b wa wb s
  | .clz d a wa => Sys2Proof.Machine.execClz d a wa s
  | .ctz d a wa => Sys2Proof.Machine.execCtz d a wa s
  | .popc d a wa => Sys2Proof.Machine.execPopc d a wa s
  | .min d a b wa wb => Sys2Proof.Machine.execMin d a b wa wb s
  | .max d a b wa wb => Sys2Proof.Machine.execMax d a b wa wb s
  | .minn d a b wa wb => Sys2Proof.Machine.execMinn d a b wa wb s
  | .maxn d a b wa wb => Sys2Proof.Machine.execMaxn d a b wa wb s
  | .sext d a wa n => Sys2Proof.Machine.execSext d a wa n s
  | .zext d a wa n => Sys2Proof.Machine.execZext d a wa n s
  | .bfx d a b wa wb => Sys2Proof.Machine.execBfx d a b wa wb s
  | .bfi d a b wa wb => Sys2Proof.Machine.execBfi d a b wa wb s
  | .sel d a b wa wb => Sys2Proof.Machine.execSel d a b wa wb s
  | .slt d a b wa wb => Sys2Proof.Machine.execSlt d a b wa wb s
  | .sltn d a b wa wb => Sys2Proof.Machine.execSltn d a b wa wb s
  | .seq d a b wa wb => Sys2Proof.Machine.execSeq d a b wa wb s
  | .hash d a b wa wb => Sys2Proof.Machine.execHash d a b wa wb s
  | .addi d a wa imm => Sys2Proof.Machine.execAddi d a wa imm s
  | .andi d a wa imm => Sys2Proof.Machine.execAndi d a wa imm s
  | .ori d a wa imm => Sys2Proof.Machine.execOri d a wa imm s
  | .xori d a wa imm => Sys2Proof.Machine.execXori d a wa imm s
  | .slti d a wa imm => Sys2Proof.Machine.execSlti d a wa imm s
  | .shli d a wa sh => Sys2Proof.Machine.execShli d a wa sh s
  | .shri d a wa sh => Sys2Proof.Machine.execShri d a wa sh s
  | .srai d a wa sh => Sys2Proof.Machine.execSrai d a wa sh s
  | .rotli d a wa sh => Sys2Proof.Machine.execRotli d a wa sh s
  | .li d imm => Sys2Proof.Machine.execLi d imm s
  | .lih d imm => Sys2Proof.Machine.execLih d imm s
  | .rmake d a b wa wb => Sys2Proof.Machine.execRmake d a b wa wb s
  | .radd d a b wa wb => Sys2Proof.Machine.execRadd d a b wa wb s
  | .rsetf d a b wa wb => Sys2Proof.Machine.execRsetf d a b wa wb s
  | .roff d a wa => Sys2Proof.Machine.execRoff d a wa s
  | .ridx d a wa => Sys2Proof.Machine.execRidx d a wa s
  | .raddi d a wa imm => Sys2Proof.Machine.execRaddi d a wa imm s
  | .j disp => Sys2Proof.Machine.execJ disp s
  | .jal disp => Sys2Proof.Machine.execJal disp s
  | .jr a wa => Sys2Proof.Machine.execJr a wa s
  | .jalr d a wa => Sys2Proof.Machine.execJalr d a wa s
  | .beq a b wa wb disp => Sys2Proof.Machine.execBeq a b wa wb disp s
  | .bne a b wa wb disp => Sys2Proof.Machine.execBne a b wa wb disp s
  | .blt a b wa wb disp => Sys2Proof.Machine.execBlt a b wa wb disp s
  | .bge a b wa wb disp => Sys2Proof.Machine.execBge a b wa wb disp s
  | .bltn a b wa wb disp => Sys2Proof.Machine.execBltn a b wa wb disp s
  | .bgen a b wa wb disp => Sys2Proof.Machine.execBgen a b wa wb disp s
  | .bz a wa disp => Sys2Proof.Machine.execBz a wa disp s
  | .bnz a wa disp => Sys2Proof.Machine.execBnz a wa disp s
  | .loop c wc len m e => Sys2Proof.Machine.execLoop c wc len m e s
  | .loopw c wc len m e => Sys2Proof.Machine.execLoopw c wc len m e s
  | .loopl a wa xn => Sys2Proof.Machine.execLoopl a wa xn s
  | .nop => Sys2Proof.Machine.execNop s
  | .xset d a wa => Sys2Proof.Machine.execXset d a wa s
  | .xget d a => Sys2Proof.Machine.execXget d a s
  | .xld d a wa hint disp => Sys2Proof.Machine.execXld d a wa hint disp s
  | .xli d imm => Sys2Proof.Machine.execXli d imm s
  | .ld d a wa sz hint disp => Sys2Proof.Machine.execLd d a wa sz hint disp s
  | .st d a wa wd sz hint disp => Sys2Proof.Machine.execSt d a wa wd sz hint disp s
  | .lda d a wa sc hint disp => Sys2Proof.Machine.execLda d a wa sc hint disp s
  | .str d a wa wd sc hint disp => Sys2Proof.Machine.execStr d a wa wd sc hint disp s
  | .ldv d a wa masked hint disp => Sys2Proof.Machine.execLdv d a wa masked hint disp s
  | .stv d a wa wd masked hint disp => Sys2Proof.Machine.execStv d a wa wd masked hint disp s
  | .vlds d a wa xn hint disp => Sys2Proof.Machine.execVlds d a wa xn hint disp s
  | .vgath d a b wa wb qn idx => Sys2Proof.Machine.execVgath d a b wa wb qn idx s
  | .vscat d a b wa wb qn idx => Sys2Proof.Machine.execVscat d a b wa wb qn idx s
  | .ldp d a wa sz disp => Sys2Proof.Machine.execLdp d a wa sz disp s
  | .pref a wa l2only hint disp => Sys2Proof.Machine.execPref a wa l2only hint disp s
  | .lds d a wa sc hint disp => Sys2Proof.Machine.execLds d a wa sc hint disp s
  | .take d a wa sc hint disp => Sys2Proof.Machine.execTake d a wa sc hint disp s
  | .put d a wa wd sc hint disp => Sys2Proof.Machine.execPut d a wa wd sc hint disp s
  | .putFullFault d a wa wd sc hint disp => Sys2Proof.Machine.execPutFullFault d a wa wd sc hint disp s
  | .feq d a wa hint disp => Sys2Proof.Machine.execFeq d a wa hint disp s
  | .feset a wa full hint disp => Sys2Proof.Machine.execFeset a wa full hint disp s
  | .lrw d a wa sc hint disp => Sys2Proof.Machine.execLrw d a wa sc hint disp s
  | .sc d a wa wd sc hint disp => Sys2Proof.Machine.execSc d a wa wd sc hint disp s
  | .screl a wa sc hint disp => Sys2Proof.Machine.execScrel a wa sc hint disp s
  | .fence kind sc => Sys2Proof.Machine.execFence kind sc s
  | .pfence sc => Sys2Proof.Machine.execPfence sc s
  | .ppoint => Sys2Proof.Machine.execPpoint s
  | .dclean a wa hint disp => Sys2Proof.Machine.execDclean a wa hint disp s
  | .dinval a wa hint disp => Sys2Proof.Machine.execDinval a wa hint disp s
  | .icinvalLine a wa disp => Sys2Proof.Machine.execIcinvalLine a wa disp s
  | .icinvalCell => Sys2Proof.Machine.execIcinvalCell s
  | .fetchb => Sys2Proof.Machine.execFetchb s
  | .cpinPin a wa hint disp => Sys2Proof.Machine.execCpinPin a wa hint disp s
  | .cpinUnpin a wa hint disp => Sys2Proof.Machine.execCpinUnpin a wa hint disp s
  | .vadd d a b wa wb t => Sys2Proof.Machine.execVadd d a b wa wb t s
  | .vsub d a b wa wb t => Sys2Proof.Machine.execVsub d a b wa wb t s
  | .vmul d a b wa wb t => Sys2Proof.Machine.execVmul d a b wa wb t s
  | .vdiv d a b wa wb t => Sys2Proof.Machine.execVdiv d a b wa wb t s
  | .vfma d a b wa wb t => Sys2Proof.Machine.execVfma d a b wa wb t s
  | .vfms d a b wa wb t => Sys2Proof.Machine.execVfms d a b wa wb t s
  | .vmin d a b wa wb t => Sys2Proof.Machine.execVmin d a b wa wb t s
  | .vmax d a b wa wb t => Sys2Proof.Machine.execVmax d a b wa wb t s
  | .vsqrt d a wa t => Sys2Proof.Machine.execVsqrt d a wa t s
  | .vrcp d a wa t => Sys2Proof.Machine.execVrcp d a wa t s
  | .vrsq d a wa t => Sys2Proof.Machine.execVrsq d a wa t s
  | .vabs d a wa t => Sys2Proof.Machine.execVabs d a wa t s
  | .vneg d a wa t => Sys2Proof.Machine.execVneg d a wa t s
  | .vcmp qd cond a b wa wb t => Sys2Proof.Machine.execVcmp qd cond a b wa wb t s
  | .vsel d a b wa wb qn => Sys2Proof.Machine.execVsel d a b wa wb qn s
  | .vand d a b wa wb => Sys2Proof.Machine.execVand d a b wa wb s
  | .vor d a b wa wb => Sys2Proof.Machine.execVor d a b wa wb s
  | .vxor d a b wa wb => Sys2Proof.Machine.execVxor d a b wa wb s
  | .vshl d a b wa wb wid => Sys2Proof.Machine.execVshl d a b wa wb wid s
  | .vshr d a b wa wb wid => Sys2Proof.Machine.execVshr d a b wa wb wid s
  | .vshrArith d a b wa wb wid => Sys2Proof.Machine.execVshrArith d a b wa wb wid s
  | .vcvt d a wa src dst rm => Sys2Proof.Machine.execVcvt d a wa src dst rm s
  | .vbcast d a wa wid => Sys2Proof.Machine.execVbcast d a wa wid s
  | .vext d a b wa wb wid => Sys2Proof.Machine.execVext d a b wa wb wid s
  | .vins d a b wa wb wid => Sys2Proof.Machine.execVins d a b wa wb wid s
  | .vperm d a b wa wb wid => Sys2Proof.Machine.execVperm d a b wa wb wid s
  | .vred d a wa op t => Sys2Proof.Machine.execVred d a wa op t s
  | .vdot d a b wa wb t => Sys2Proof.Machine.execVdot d a b wa wb t s
  | .mand d a b wa wb => Sys2Proof.Machine.execMand d a b wa wb s
  | .mor d a b wa wb => Sys2Proof.Machine.execMor d a b wa wb s
  | .mxor d a b wa wb => Sys2Proof.Machine.execMxor d a b wa wb s
  | .mnot d a wa => Sys2Proof.Machine.execMnot d a wa s
  | .mpop d a wa => Sys2Proof.Machine.execMpop d a wa s
  | .mset d a wa mode => Sys2Proof.Machine.execMset d a wa mode s
  | .mma d a b xn acc16 => Sys2Proof.Machine.execMma d a b xn acc16 s
  | .mmaz d a b xn acc16 => Sys2Proof.Machine.execMmaz d a b xn acc16 s
  | .tld d a wa xn hint disp => Sys2Proof.Machine.execTld d a wa xn hint disp s
  | .tst d a wa xn hint disp => Sys2Proof.Machine.execTst d a wa xn hint disp s
  | .tzero d => Sys2Proof.Machine.execTzero d s
  | .tcvt d a => Sys2Proof.Machine.execTcvt d a s
  | .tadd d a b => Sys2Proof.Machine.execTadd d a b s
  | .tscale d a xn => Sys2Proof.Machine.execTscale d a xn s
  | .ttrans d a => Sys2Proof.Machine.execTtrans d a s
  | .trowv d a xn => Sys2Proof.Machine.execTrowv d a xn s
  | .tvrow d a xn => Sys2Proof.Machine.execTvrow d a xn s
  | .trange d a b wa wb dim => Sys2Proof.Machine.execTrange d a b wa wb dim s
  | .tfact d a b xn chol => Sys2Proof.Machine.execTfact d a b xn chol s
  | .tsolve d a b upper unit right => Sys2Proof.Machine.execTsolve d a b upper unit right s
  | .accz a wa => Sys2Proof.Machine.execAccz a wa s
  | .accwp d a b wa wb => Sys2Proof.Machine.execAccwp d a b wa wb s
  | .accr d a wa => Sys2Proof.Machine.execAccr d a wa s
  | .accrFp64 d a wa => Sys2Proof.Machine.execAccrFp64 d a wa s
  | .accm a b wa wb => Sys2Proof.Machine.execAccm a b wa wb s
  | .accw a b wa wb ty => Sys2Proof.Machine.execAccw a b wa wb ty s
  | .ltag d a b wa wb => Sys2Proof.Machine.execLtag d a b wa wb s
  | .lget d a wa file => Sys2Proof.Machine.execLget d a wa file s
  | .lset d a wa file => Sys2Proof.Machine.execLset d a wa file s
  | .lprod d a b wa wb => Sys2Proof.Machine.execLprod d a b wa wb s
  | .lholds d a b wa wb => Sys2Proof.Machine.execLholds d a b wa wb s
  | .lenv d a b wa wb => Sys2Proof.Machine.execLenv d a b wa wb s
  | .lcnt d a wa => Sys2Proof.Machine.execLcnt d a wa s
  | .lsel d a b wa wb => Sys2Proof.Machine.execLsel d a b wa wb s
  | .nogood d a wa => Sys2Proof.Machine.execNogood d a wa s
  | .lsync => Sys2Proof.Machine.execLsync s
  | .lcompact d a wa => Sys2Proof.Machine.execLcompact d a wa s
  | .claim d => Sys2Proof.Machine.execClaim d s
  | .claimw d => Sys2Proof.Machine.execClaimw d s
  | .fulfil a wa cls => Sys2Proof.Machine.execFulfil a wa cls s
  | .abandon => Sys2Proof.Machine.execAbandon s
  | .cldrop d => Sys2Proof.Machine.execCldrop d s
  | .cpgo d => Sys2Proof.Machine.execCpgo d s
  | .cpmc d a wa => Sys2Proof.Machine.execCpmc d a wa s
  | .slotret a b wa wb => Sys2Proof.Machine.execSlotret a b wa wb s
  | .slotq d a wa => Sys2Proof.Machine.execSlotq d a wa s
  | .tbinit a b wa wb => Sys2Proof.Machine.execTbinit a b wa wb s
  | .tbexp a b wa wb => Sys2Proof.Machine.execTbexp a b wa wb s
  | .tbarr a wa sc => Sys2Proof.Machine.execTbarr a wa sc s
  | .tbwait d a b wa wb => Sys2Proof.Machine.execTbwait d a b wa wb s
  | .tbtime d a b wa wb => Sys2Proof.Machine.execTbtime d a b wa wb s
  | .encpost d a b wa wb => Sys2Proof.Machine.execEncpost d a b wa wb s
  | .gath d hint => Sys2Proof.Machine.execGath d hint s
  | .nsignal a wa => Sys2Proof.Machine.execNsignal a wa s
  | .strdone => Sys2Proof.Machine.execStrdone s
  | .cancel d a wa lvl => Sys2Proof.Machine.execCancel d a wa lvl s
  | .cntq d a wa lvl => Sys2Proof.Machine.execCntq d a wa lvl s
  | .mfcr d cr => Sys2Proof.Machine.execMfcr d cr s
  | .mtcr cr a => Sys2Proof.Machine.execMtcr cr a s
  | .mtcrStatus a => Sys2Proof.Machine.execMtcrStatus a s
  | .mtcrSpace a => Sys2Proof.Machine.execMtcrSpace a s
  | .mtcrSlotinit a => Sys2Proof.Machine.execMtcrSlotinit a s
  | .mtcrTcfg n a => Sys2Proof.Machine.execMtcrTcfg n a s
  | .trap imm => Sys2Proof.Machine.execTrap imm s
  | .eret => Sys2Proof.Machine.execEret s
  | .signal a info => Sys2Proof.Machine.execSignal a info s
  | .repart a mode => Sys2Proof.Machine.execRepart a mode s
  | .tlbinv a area => Sys2Proof.Machine.execTlbinv a area s
  | .hinval a all => Sys2Proof.Machine.execHinval a all s
  | .routeset a idx => Sys2Proof.Machine.execRouteset a idx s
  | .routeinv idx all => Sys2Proof.Machine.execRouteinv idx all s
  | .cMov d a => Sys2Proof.Machine.execCMov d a s
  | .cAdd d a => Sys2Proof.Machine.execCAdd d a s
  | .cSub d a => Sys2Proof.Machine.execCSub d a s
  | .cAnd d a => Sys2Proof.Machine.execCAnd d a s
  | .cOr d a => Sys2Proof.Machine.execCOr d a s
  | .cXor d a => Sys2Proof.Machine.execCXor d a s
  | .cAddi d imm => Sys2Proof.Machine.execCAddi d imm s
  | .cShli d sh => Sys2Proof.Machine.execCShli d sh s
  | .cLi d imm => Sys2Proof.Machine.execCLi d imm s
  | .cLd d a disp => Sys2Proof.Machine.execCLd d a disp s
  | .cSt d a disp => Sys2Proof.Machine.execCSt d a disp s
  | .cBz a disp => Sys2Proof.Machine.execCBz a disp s
  | .cBnz a disp => Sys2Proof.Machine.execCBnz a disp s
  | .cJ disp => Sys2Proof.Machine.execCJ disp s
  | .cJr a => Sys2Proof.Machine.execCJr a s
  | .interruptTaken c => Sys2Proof.Machine.execInterruptTaken c s
  | .signalArrival n => Sys2Proof.Machine.execSignalArrival n s
  | .loopBack c => Sys2Proof.Machine.execLoopBack c s
  | .labelProductAnswer n => Sys2Proof.Machine.execLabelProductAnswer n s
  | .divideComplete c n => Sys2Proof.Machine.execDivideComplete c n s
  | .loadDataReturn c n => Sys2Proof.Machine.execLoadDataReturn c n s
  | .deferredDataErrorFault c => Sys2Proof.Machine.execDeferredDataErrorFault c s
  | .vectorLongComplete c n => Sys2Proof.Machine.execVectorLongComplete c n s
  | .matrixInstructionStart cell => Sys2Proof.Machine.execMatrixInstructionStart cell s
  | .matrixInstructionComplete cell => Sys2Proof.Machine.execMatrixInstructionComplete cell s
  | .followOnOffer cell n => Sys2Proof.Machine.execFollowOnOffer cell n s
  | .accumulatorComplete c n => Sys2Proof.Machine.execAccumulatorComplete c n s
  | .pageWalkComplete n => Sys2Proof.Machine.execPageWalkComplete n s
  | .homeRequestArrival n => Sys2Proof.Machine.execHomeRequestArrival n s
  | .refusedRequestRetry n => Sys2Proof.Machine.execRefusedRequestRetry n s
  | .serviceDelivery n => Sys2Proof.Machine.execServiceDelivery n s
  | .reservationRequestArrival n => Sys2Proof.Machine.execReservationRequestArrival n s
  | .reservationPassArrival n => Sys2Proof.Machine.execReservationPassArrival n s
  | .holdLimitExpiry w => Sys2Proof.Machine.execHoldLimitExpiry w s
  | .reservationHoldNotice n => Sys2Proof.Machine.execReservationHoldNotice n s
  | .wcbDrain c n => Sys2Proof.Machine.execWcbDrain c n s
  | .l1WriteBack cell line evict => Sys2Proof.Machine.execL1WriteBack cell line evict s
  | .scrub stack line => Sys2Proof.Machine.execScrub stack line s
  | .automaticPersistencePoint c => Sys2Proof.Machine.execAutomaticPersistencePoint c s
  | .imageComplete c => Sys2Proof.Machine.execImageComplete c s
  | .shadowLineCopy cell line => Sys2Proof.Machine.execShadowLineCopy cell line s
  | .cellLoss col => Sys2Proof.Machine.execCellLoss col s
  | .stationLoss col => Sys2Proof.Machine.execStationLoss col s
  | .lossReport col => Sys2Proof.Machine.execLossReport col s
  | .columnResume col => Sys2Proof.Machine.execColumnResume col s
  | .peerAccessTimeout c => Sys2Proof.Machine.execPeerAccessTimeout c s
  | .requestAbandonTimeout cell col => Sys2Proof.Machine.execRequestAbandonTimeout cell col s
  | .alembicClaimArrival n => Sys2Proof.Machine.execAlembicClaimArrival n s
  | .alembicFulfilArrival n => Sys2Proof.Machine.execAlembicFulfilArrival n s
  | .alembicAbandonArrival n => Sys2Proof.Machine.execAlembicAbandonArrival n s
  | .alembicCldropArrival n => Sys2Proof.Machine.execAlembicCldropArrival n s
  | .claimReturn n => Sys2Proof.Machine.execClaimReturn n s
  | .accordProductRequest n => Sys2Proof.Machine.execAccordProductRequest n s
  | .intern n => Sys2Proof.Machine.execIntern n s
  | .entryRewrite n => Sys2Proof.Machine.execEntryRewrite n s
  | .nogoodAppend n => Sys2Proof.Machine.execNogoodAppend n s
  | .generationBroadcast n unit => Sys2Proof.Machine.execGenerationBroadcast n unit s
  | .nogoodAcknowledge n unit => Sys2Proof.Machine.execNogoodAcknowledge n unit s
  | .copySlotAllocation cell => Sys2Proof.Machine.execCopySlotAllocation cell s
  | .slotReturnArrival n => Sys2Proof.Machine.execSlotReturnArrival n s
  | .copyLine cell slot => Sys2Proof.Machine.execCopyLine cell slot s
  | .barrierCredit n => Sys2Proof.Machine.execBarrierCredit n s
  | .barrierWaitReturn n => Sys2Proof.Machine.execBarrierWaitReturn n s
  | .tbtimeLimitExpiry n => Sys2Proof.Machine.execTbtimeLimitExpiry n s
  | .gatherIndexRead col n => Sys2Proof.Machine.execGatherIndexRead col n s
  | .gatherRowMove col n => Sys2Proof.Machine.execGatherRowMove col n s
  | .encoderFrameStart enc => Sys2Proof.Machine.execEncoderFrameStart enc s
  | .encoderFrameReadDone enc => Sys2Proof.Machine.execEncoderFrameReadDone enc s
  | .encoderRecordWrite enc => Sys2Proof.Machine.execEncoderRecordWrite enc s
  | .jobSubmission part v => Sys2Proof.Machine.execJobSubmission part v s
  | .jclr part v => Sys2Proof.Machine.execJclr part v s
  | .jobStart part => Sys2Proof.Machine.execJobStart part s
  | .phaseStart job => Sys2Proof.Machine.execPhaseStart job s
  | .nodeReady job g n => Sys2Proof.Machine.execNodeReady job g n s
  | .nodeComplete job g n => Sys2Proof.Machine.execNodeComplete job g n s
  | .nsignalArrival n => Sys2Proof.Machine.execNsignalArrival n s
  | .strandPlacement c => Sys2Proof.Machine.execStrandPlacement c s
  | .coResidentPlacement job g n => Sys2Proof.Machine.execCoResidentPlacement job g n s
  | .contractRelease job => Sys2Proof.Machine.execContractRelease job s
  | .budgetOverrun c => Sys2Proof.Machine.execBudgetOverrun c s
  | .deadlineMiss job => Sys2Proof.Machine.execDeadlineMiss job s
  | .dispatchStall job g n => Sys2Proof.Machine.execDispatchStall job g n s
  | .preEmption c => Sys2Proof.Machine.execPreEmption c s
  | .restore c => Sys2Proof.Machine.execRestore c s
  | .deferredDelivery c n => Sys2Proof.Machine.execDeferredDelivery c n s
  | .bubbleStarvation station lp => Sys2Proof.Machine.execBubbleStarvation station lp s
  | .lostRequestTimeout c n => Sys2Proof.Machine.execLostRequestTimeout c n s
  | .loopFailure isStation n => Sys2Proof.Machine.execLoopFailure isStation n s
  | .portDown port => Sys2Proof.Machine.execPortDown port s
  | .peerArrivalCheck n => Sys2Proof.Machine.execPeerArrivalCheck n s
  | .hostCxlMemAccess addr write v => Sys2Proof.Machine.execHostCxlMemAccess addr write v s
  | .hostSnoop line inval => Sys2Proof.Machine.execHostSnoop line inval s
  | .temperatureSample col t0 t1 t2 mw => Sys2Proof.Machine.execTemperatureSample col t0 t1 t2 mw s
  | .droopStretch col => Sys2Proof.Machine.execDroopStretch col s
  | .droopStretchLong col => Sys2Proof.Machine.execDroopStretchLong col s
  | .powerOn warm key digest sig => Sys2Proof.Machine.execPowerOn warm key digest sig s
  | .fileLoad part file => Sys2Proof.Machine.execFileLoad part file s
  | .imageReceipt cell bytes => Sys2Proof.Machine.execImageReceipt cell bytes s
  | .adoptSpareCell cell => Sys2Proof.Machine.execAdoptSpareCell cell s
  | .repairBanks cell => Sys2Proof.Machine.execRepairBanks cell s
  | .commissionSpareLoop spare failed => Sys2Proof.Machine.execCommissionSpareLoop spare failed s
  | .substituteL2WayGroup slice => Sys2Proof.Machine.execSubstituteL2WayGroup slice s
  | .releaseQuarantineEntry slice line => Sys2Proof.Machine.execReleaseQuarantineEntry slice line s
  | .clearSensorMarking col sensor => Sys2Proof.Machine.execClearSensorMarking col sensor s
  | .setPowerCap col watts => Sys2Proof.Machine.execSetPowerCap col watts s
  | .takeCheckpoint stay => Sys2Proof.Machine.execTakeCheckpoint stay s
  | .restoreCheckpoint good => Sys2Proof.Machine.execRestoreCheckpoint good s
  | .powerColumn col up station => Sys2Proof.Machine.execPowerColumn col up station s
  | .takeSliceOutOfService slice => Sys2Proof.Machine.execTakeSliceOutOfService slice s
  | .mailboxCompletion => Sys2Proof.Machine.execMailboxCompletion s
  | .instructionCacheEviction cell line => Sys2Proof.Machine.execInstructionCacheEviction cell line s
  | .handleCacheEviction cell idx => Sys2Proof.Machine.execHandleCacheEviction cell idx s
  | .storeArrivalAtHome n => Sys2Proof.Machine.execStoreArrivalAtHome n s
  | .barrierRequestArrival n => Sys2Proof.Machine.execBarrierRequestArrival n s
  | .schedulerAnswer n => Sys2Proof.Machine.execSchedulerAnswer n s
  | .frameOffer n => Sys2Proof.Machine.execFrameOffer n s
  | .supplyRecovery col => Sys2Proof.Machine.execSupplyRecovery col s
  | .portUp port => Sys2Proof.Machine.execPortUp port s
  | .msixVectorUnmask v => Sys2Proof.Machine.execMsixVectorUnmask v s
  | .invalidMailboxCommand op => Sys2Proof.Machine.execInvalidMailboxCommand op s
  | .attestationRequest nonce => Sys2Proof.Machine.execAttestationRequest nonce s

end Sys2Proof.Machine
end

