-- ==== Sys2Proof/Machine/Outer.lean ====
section
/-! DEFINITION. What comes from outside the machine's own steps (log 78): errors of storage (R331, R333, R336, R340, R344, R350 to R352) and what monitor
firmware does (R115, R193, R345, R365, R407, R437, R442, R448, R465). -/

namespace Sys2Proof.Machine

/-! ### Lines of DRAM and L2 (R340, R344, R350, R351) -/

/-- Some page that holds a physical address is compressible. -/
def compressible (s : State) (pa : Nat) : Bool := (pagesOver s pa).any fun p => bit p.1 9

/-- The lines that an error of a line makes uncorrectable: on a compressible page those of its compressed group, up to 4 adjacent lines, and which those are is
free (R340, log 6). -/
def groupLines (s : State) (line : Nat) : List Nat × State :=
  if compressible s (64 * line) then
    let (v, s) := s.free
    let o := line % 4
    let lo := min o (fld v 0 2)
    let hi := max o (fld v 2 2)
    ((List.range (hi - lo + 1)).map fun i => line - o + lo + i, s)
  else ([line], s)

/-- L2 holds a line dirty. -/
def dirtyL2 (s : State) (line : Nat) : Bool := s.l2.any fun x => x.line == line && x.dirty

/-- An uncorrectable error of a line of DRAM, and of the lines of its compressed group: an access that reads DRAM, an engine or the scrub finds it (R157, R340,
R344, R350). -/
def dramError (s : State) (line : Nat) : State :=
  let (ls, s) := groupLines s line
  { s with bad := addLines ls s.bad }

/-- A clean line of L2 is fetched again from DRAM (R350); one that is uncorrectable there is lost from L2. -/
def refetchL2 (s : State) (line : Nat) : State :=
  if s.bad.contains line then { s with l2 := s.l2.filter fun x => x.line != line } else s

/-- An error of a line of L2: a clean line is fetched again, and what corrects is corrected, and counted (R350); otherwise the line, with the lines of its
compressed group that L2 holds, is uncorrectable there (R340), and a dirty one is quarantined when it is read or evicted (R351). -/
def l2Error (s : State) (line : Nat) (corrects : Bool) : State :=
  if !inL2 s line then s
  else if !dirtyL2 s line then refetchL2 (countError s .l2 (sliceOf (64 * line))) line
  else if corrects then countError s .l2 (sliceOf (64 * line))
  else
    let (ls, s) := groupLines s line
    { s with badL2 := addLines (ls.filter (inL2 s)) s.badL2 }

/-! ### A cell's caches (R336) -/

/-- What is left of a line in which a clean word had a parity error: its clean words are fetched from L2 again at their next use. -/
def L1Line.dirtyOnly (x : L1Line) : L1Line :=
  { x with bytes := x.bytes.filter fun p => p.2.2, labs := x.labs.filter fun p => p.2.2.2 }
/-- What is left of a line whose dirty bytes are lost. -/
def L1Line.cleanOnly (x : L1Line) : L1Line :=
  { x with
    bytes := x.bytes.filter fun p => !p.2.2
    labs := x.labs.filter fun p => !p.2.2.2
    lost := true }

/-- A line of a cell's L1 changes. -/
def modL1 (s : State) (n line : Nat) (f : L1Line → L1Line) : State :=
  s.modCell n fun k => { k with l1 := k.l1.map fun x => if x.line == line then f x else x }

/-- A parity error of a clean word of the L1. -/
def l1CleanError (s : State) (n line : Nat) : State :=
  if (l1Find (s.cell n) line).isSome then countError (modL1 s n line L1Line.dirtyOnly) .l1 n else s

/-- An error of a dirty word of the L1: corrected and counted, or the line's dirty bytes are lost, for the access or the write-back that meets it. -/
def l1DirtyError (s : State) (n line : Nat) (corrects : Bool) : State :=
  if (l1Find (s.cell n) line).any fun x => !(dirtyBytes x).isEmpty then
    if corrects then countError s .l1 n else modL1 s n line L1Line.cleanOnly
  else s

/-- A parity error of a line of the instruction cache, which is fetched from L2 again at its next use. -/
def icacheError (s : State) (n line : Nat) : State :=
  if (Tab.get? (s.cell n).icache line).isSome then countError (s.modCell n fun k => { k with icache := Tab.del k.icache line }) .icache n else s

/-! ### Wait lists (R333) -/

/-- What a destroyed entry's record says of its request's kind (R482): the spec gives the kinds no numbers (log 92). -/
def ReqKind.number (k : ReqKind) : Nat :=
  match k with
  | .lds => 0
  | .take => 1
  | .put => 2
  | .putFault => 2
  | .lrw => 3

/-- The record of a destroyed entry names the word (R333, R482). -/
def waitRecord (s : State) (word kind c : Nat) (plc : Word) : State :=
  let part := strandPart s c plc
  if Config.spadBase ≤ word then recordStrand s c (BitVec.ofNat 6 part) 0x41 (w64 (spadOff word)) (w64 kind)
  else s.recordUnit (stationOfCol (sliceCol (sliceOf word))) (sliceOf word % 2) part 0x41 (w64 word) (w64 kind)

/-- A request's entry is destroyed: its context takes the data error fault, with TPC after the request. -/
def destroyRequest (s : State) (word : Nat) (r : Req) : State :=
  requestFails ⟨0x18, 0, r.va, 0⟩ (some (r.pc + 4)) (waitRecord s word r.kind.number r.c r.plc) r
/-- The same for a barrier wait. -/
def destroyWait (s : State) (word : Nat) (w : BarWait) : State :=
  waitFails ⟨0x18, 0, w.ref, 0⟩ (some (w.pc + 4)) (waitRecord s word 4 w.c w.plc) w

/-- An uncorrectable error of the `n`-th wait-list entry of a word: readers, writers, reservation queue and barrier waiters, in this order. -/
def waitError (s : State) (word n : Nat) : State :=
  let h := s.home word
  let nq := n - h.readers.length - h.writers.length
  if n < h.readers.length then
    (h.readers[n]?).elim s fun r => destroyRequest (s.modHome word fun h => { h with readers := takeOut n h.readers }) word r
  else if n < h.readers.length + h.writers.length then
    let n := n - h.readers.length
    (h.writers[n]?).elim s fun r => destroyRequest (s.modHome word fun h => { h with writers := takeOut n h.writers }) word r
  else if nq < h.queue.length then
    (h.queue[nq]?).elim s fun r => destroyRequest (s.modHome word fun h => { h with queue := takeOut nq h.queue }) word r
  else
    let n := nq - h.queue.length
    (h.waiters[n]?).elim s fun w => destroyWait (s.modHome word fun h => { h with waiters := takeOut n h.waiters }) word w

/-! ### Register files and scratchpad (R331, R352) -/

/-- An uncorrectable error of a context's registers halts it, with a record whose object the spec does not give (R34, R352). -/
def registerError (s : State) (c : Nat) : State :=
  if canIssue s c then
    let (v, s) := s.free
    haltContext s c 0x41 v
  else s

/-- A scratchpad word cannot be corrected. -/
def spadError (s : State) (word : Nat) : State :=
  if Config.spadBase ≤ 8 * word ∧ 8 * word < Config.spadBase + 1024 * 0x100000 then { s with badWords := word :: s.badWords.filter (· != word) } else s

/-- A mapped bank is found failed while in use (R331). -/
def bankError (s : State) (n bank : Nat) : State :=
  if n < 1024 ∧ bank * 0x10000 < (s.cell n).spadSize ∧ !(s.cell n).failedBanks.contains bank then
    s.modCell n fun k => { k with failedBanks := k.failedBanks ++ [bank] }
  else s

/-! ### The Flacon layer (R352, R386, R387) -/

/-- A shadow copy of a line fails BCH: a resume loads the other, or none. -/
def shadowError (s : State) (n line : Nat) (second : Bool) : State :=
  let spoilt (t : Tab Shadow) : Tab Shadow := t.map fun (p : Nat × Shadow) => if p.1 == line then (p.1, { p.2 with good := false }) else p
  s.modCell n fun k => if second then { k with shadowY := spoilt k.shadowY } else { k with shadowX := spoilt k.shadowX }

/-- An image slot fails BCH and is not valid. -/
def imageError (s : State) (c : Nat) (second : Bool) : State :=
  let p := Tab.get s.images c (none, none)
  let spoilt (i : Option Image) : Option Image := i.map fun x => { x with valid := false }
  { s with images := Tab.put s.images c (if second then (p.1, spoilt p.2) else (spoilt p.1, p.2)) }

/-! ### Tearing a partition down (R193, R365) -/

/-- The table entries at and below a table at level `l` (the first argument is `l + 1`) that map labelled pages. -/
def labelledLeaves (s : State) : Nat → Nat → List Nat
  | 0, _ => []
  | l + 1, base => (List.range 512).flatMap fun i =>
    let e := s.word (base + 8 * i)
    if !bit e 0 then []
    else if bit e 1 then if pteLab e then [base + 8 * i] else []
    else labelledLeaves s l (ptePa e)

/-- A strand, a job or an engine still works for a partition. -/
def partBusy (s : State) (part : BitVec 6) : Bool :=
  (s.ctxs.any fun (p : Nat × Ctx) => (p.2.strand.any fun t => t.part == part) || p.2.save.any fun v => v.strand.part == part)
  || (s.jobs.any fun j => j.part == part && !j.done) || !(s.part part.toNat).queue.isEmpty
  || (s.cells.any fun (p : Nat × Cell) => (p.2.copies.any fun (q : Nat × Copy) => q.2.part == part) || p.2.cwait.any fun q => q.part == part)
  || (s.cols.any fun (p : Nat × Column) => p.2.gathers.any fun g => g.part == part)

/-- Firmware tears a partition down, once nothing works for it: its labelled pages are freed, its spaces go, the pins of its lines are removed (R193), and no cache
keeps a translation of it (log 78). -/
def tearDown (s : State) (part : BitVec 6) : State :=
  if partBusy s part then s
  else
    let s := (labelledLeaves s 5 (s.part part.toNat).root).foldl (fun s a => s.setWord a 0) s
    let mine := (s.spaces.filter fun (p : Nat × Space) => p.2.live && p.2.owner == part).map fun (p : Nat × Space) => p.1
    let s := mine.foldl (fun s sp => destroySpace s (BitVec.ofNat 12 sp)) s
    { s with
      l2 := s.l2.map fun x => if x.part == part then { x with pinned := false } else x
      cols := s.cols.map fun (p : Nat × Column) => (p.1, { p.2 with tlb := p.2.tlb.filter fun e => e.part != part })
      cells := s.cells.map fun (p : Nat × Cell) => (p.1, { p.2 with tlb := p.2.tlb.filter fun e => e.part != part }) }

/-! ### What firmware sets (R115, R345, R407, R437, R442, R448, R465) -/

/-- Firmware sets what it keeps for a partition, and installs the map's handle in its table (R448). The mask AM stays while the tenant holds a claim entry
(R367). -/
def setPart (s : State) (part : BitVec 6) (f : Part → Part) (mapVa : Nat) : State :=
  let s := s.modPart part.toNat f
  match (s.part part.toNat).ltable with
  | some table => putMapHandle s part table mapVa
  | none => s

/-! ### The host and peer devices (R439, R444, R448, R450, R451, R453, R454, R474) -/

/-- A register of BAR0's mailbox as the host reads it (R474): word 0, or an argument. -/
def bar0Word (s : State) (off : Nat) : Word :=
  let m := s.mailbox
  if off = 0x4000 then w64 (m.op.toNat + (if m.busy then 256 else 0) + m.status.toNat * 2 ^ 16)
  else if 0x4008 ≤ off ∧ off < 0x4028 ∧ off % 8 = 0 then m.args.getD ((off - 0x4008) / 8) 0 else 0

/-- A register of a partition's page of BAR2 as the host reads it (R453): JSTAT, or zero. -/
def bar2Word (s : State) (off : Nat) : Word :=
  let p := s.part (off / 4096)
  if off < 64 * 4096 ∧ off % 4096 = 0x08 then w64 (64 - p.queue.length + (if p.ovf then 128 else 0) + p.acc.toNat * 2 ^ 8) else 0

/-- A host store to its own memory: its home slice has no copy afterwards (R451). -/
def hostWrite (s : State) (addr : Nat) (v : Word) : State :=
  if Config.hostBase ≤ addr ∧ addr < Config.paEnd ∧ addr % 8 = 0 then { s with l2 := s.l2.filter fun x => x.line != addr / 64 }.setWord addr v else s

/-- A peer device's store of a word to a scratchpad arrives, for the strand that its handle entry names (R24, R444, R450); one that finds the strand gone was
refused there, and one to an uncorrectable line is discarded with a record (R157). -/
def peerWrite (s : State) (cell off : Nat) (gen v : Word) : State :=
  let a := spadAddr cell (8 * off)
  if 1024 ≤ cell ∨ (s.cell cell).spadSize < 8 * off + 8 ∨ !(s.col (colOf cell)).cellPower ∨ !peerLive s cell gen then s
  else if s.isBad a then s.recordUnit (stationOf cell) 8 63 0x41 (w64 (8 * off)) 0
  else (s.setWord a v).modCell cell fun k => { k with pendingShadow := addLines [off / 8] k.pendingShadow }

/-- The entrant of a station is in: the loop's other stations give their extra bubbles back (R439). -/
def dropBubbles (s : State) (loop : Nat) : State :=
  { s with bubbles := (s.loop loop).order.foldl (fun m x => Tab.del m (76 * loop + x)) s.bubbles }

/-! ### The step -/

/-- What has come up takes effect. -/
def strike (s : State) (o : Config.Outer) : State :=
  match o with
  | .dram line => if Config.dramSize ≤ 64 * line then s else dramError s line
  | .l1Clean cell line => l1CleanError s cell line
  | .l1Dirty cell line corrects => l1DirtyError s cell line corrects
  | .icache cell line => icacheError s cell line
  | .l2 line corrects => l2Error s line corrects
  | .waitEntry word n => waitError s word n
  | .register c => registerError s c
  | .spadWord word => spadError s word
  | .bank cell bank => bankError s cell bank
  | .corrected kind unit => if unit < unitsOf kind then countError s kind unit else s
  | .shadow cell line second => shadowError s cell line second
  | .image c second => imageError s c second
  | .createSpace part sp tbase tlog ibase => createSpace s part sp tbase tlog ibase
  | .tearDown part => tearDown s part
  | .setPart part root am stations hold pins ring ringSize table mapVa => setPart s part (fun p => { p with
      root := root
      am := if s.claims.any (fun e => e.name.part == part) || s.claimReqs.any (fun r => r.name.part == part) then p.am else am
      stations := stations
      holdLimit := hold
      pinQuota := pins
      ring := ring
      ringSize := ringSize
      ltable := table }) mapVa
  | .setRank loop rank => if loop < 24 ∧ 1 ≤ rank ∧ rank ≤ 254 then mapUpdate (setLoop s loop fun x => { x with rank := rank }) else s
  | .setRoute src dst route => if src < 76 ∧ dst < 76 then mapUpdate { s with
      sysroutes := Tab.put s.sysroutes (76 * src + dst) route
      heldRoutes := s.heldRoutes.filter (· != (src, dst)) } else s
  | .maskVector v => if v < 1040 then { s with vecs := Tab.put s.vecs v { Tab.get s.vecs v ⟨false, false, 0⟩ with masked := true } } else s
  | .firmwareEvent v => if 1027 ≤ v ∧ v < 1040 then s.raiseVector v else s
  | .hostStore addr v => hostWrite s addr v
  | .bar0Read off => { s with hostRead := bar0Word s off }
  | .bar2Read off => { s with hostRead := bar2Word s off }
  | .dvsecRead => { s with hostRead := w64 s.fw.map }
  | .bar2Write _ _ => s
  | .peerStore cell off gen v => peerWrite s cell off gen v
  | .entrantIn loop _ => dropBubbles s loop
  | .setErrors threshold window => { s with
      errThreshold := threshold
      errWindow := window }
  | .setStream stream words => if stream < 1024 then { putList s (s.strdesc + 64 * stream) (words.take 8) with frameCount := Tab.put s.frameCount stream 0 } else s

/-- The `n`-th of what has come up outside takes effect. -/
def outerStep (n : Nat) (s : State) : State :=
  match s.outer[n]? with
  | some o => strike { s with outer := takeOut n s.outer } o
  | none => s

end Sys2Proof.Machine
end

