-- ==== Sys2Proof/Machine/Pending.lean ====
section
/-! DEFINITION. The steps of the device's own units that may happen next, read off the lists of the state (log 1), with what has come up outside (log 78). What
else only the outside world or the passing of time brings about comes from the agenda. -/

namespace Sys2Proof.Machine

/-- A step of one of the device's units, named as `Instr` names it. -/
inductive Ev where
  | signalArrival (n : Nat)
  | labelProductAnswer (n : Nat)
  | divideComplete (c n : Nat)
  | loadDataReturn (c n : Nat)
  | vectorLongComplete (c n : Nat)
  | matrixInstructionStart (cell : Nat)
  | matrixInstructionComplete (cell : Nat)
  | followOnOffer (cell n : Nat)
  | accumulatorComplete (c n : Nat)
  | pageWalkComplete (n : Nat)
  | homeRequestArrival (n : Nat)
  | refusedRequestRetry (n : Nat)
  | serviceDelivery (n : Nat)
  | reservationRequestArrival (n : Nat)
  | reservationPassArrival (n : Nat)
  | holdLimitExpiry (w : Nat)
  | reservationHoldNotice (n : Nat)
  | wcbDrain (c n : Nat)
  | l1WriteBack (cell line : Nat) (evict : Bool)
  | imageComplete (c : Nat)
  | shadowLineCopy (cell line : Nat)
  | lossReport (col : Nat)
  | alembicClaimArrival (n : Nat)
  | alembicFulfilArrival (n : Nat)
  | alembicAbandonArrival (n : Nat)
  | alembicCldropArrival (n : Nat)
  | claimReturn (n : Nat)
  | accordProductRequest (n : Nat)
  | intern (n : Nat)
  | entryRewrite (n : Nat)
  | nogoodAppend (n : Nat)
  | generationBroadcast (n unit : Nat)
  | nogoodAcknowledge (n unit : Nat)
  | copySlotAllocation (cell : Nat)
  | slotReturnArrival (n : Nat)
  | copyLine (cell slot : Nat)
  | barrierCredit (n : Nat)
  | barrierWaitReturn (n : Nat)
  | tbtimeLimitExpiry (n : Nat)
  | gatherIndexRead (col n : Nat)
  | gatherRowMove (col n : Nat)
  | encoderFrameStart (enc : Nat)
  | encoderFrameReadDone (enc : Nat)
  | encoderRecordWrite (enc : Nat)
  | jobStart (part : BitVec 6)
  | phaseStart (job : Nat)
  | nodeReady (job g n : Nat)
  | nodeComplete (job g n : Nat)
  | nsignalArrival (n : Nat)
  | strandPlacement (c : Nat)
  | coResidentPlacement (job g n : Nat)
  | contractRelease (job : Nat)
  | budgetOverrun (c : Nat)
  | deadlineMiss (job : Nat)
  | dispatchStall (job g n : Nat)
  | preEmption (c : Nat)
  | restore (c : Nat)
  | deferredDelivery (c n : Nat)
  | peerArrivalCheck (n : Nat)
  | mailboxCompletion
  | instructionCacheEviction (cell line : Nat)
  | handleCacheEviction (cell idx : Nat)
  | storeArrivalAtHome (n : Nat)
  | barrierRequestArrival (n : Nat)
  | schedulerAnswer (n : Nat)
  | frameOffer (n : Nat)
  /-- The next step of an LCOMPACT at its home unit (R364), and what has come up outside (log 78). -/
  | compact (n : Nat)
  | outer (n : Nat)
  /-- The next of firmware's stores of an update of the Sillage map (R446, R449). -/
  | mapWrite
deriving DecidableEq, Repr

/-- A packet whose arrival a step is: the context that a record of it names, or the station and unit, with its partition and its two stations. -/
structure Packet where
  source : Nat ⊕ (Nat × Nat)
  part : Nat
  src : Nat
  dst : Nat

/-- A packet of a context. -/
def ctxPacket (s : State) (c src dst : Nat) : Packet := ⟨.inl c, (s.ctx c).arch.partition, src, dst⟩

/-- The scheduler's station. DESIGN CHOICE (log 104): the spec gives it none; here it is the I/O station of tower 0. -/
def schedStation : Nat := 18
/-- The station of a tower's page walkers. DESIGN CHOICE (log 104): the spec gives them none; here it is the I/O station of the tower. -/
def walkerStation (tower : Nat) : Nat := 19 * tower + 18

/-- The table reads of a walk, from the walkers' station (R348, R442); its record names the first context that waits for it, or a waiting column's engine. -/
def walkPackets (s : State) (w : Walk) : List Packet :=
  let src : Nat ⊕ (Nat × Nat) := match w.ctxs with
    | c :: _ => .inl c
    | [] => .inr (stationOfCol (w.cols.headD 0), 4)
  (walkReads s (w.va.toNat % 2 ^ 57) 5 (s.part w.part.toNat).root).flatMap fun a =>
    (legs s (walkerStation w.tower) a).map fun p => ⟨src, w.part.toNat, p.1, p.2⟩

/-- The packets whose arrival a step is, which system routes carry (R442): those of the Accord, the Alembic, the scheduler, page walks, SIGNAL and SLOTRET. An answer
goes back the way its request came (R440). -/
def Ev.packets (e : Ev) (s : State) : List Packet :=
  let here (c : Nat) := stationOf (cellOf c)
  let toPart (n : Nat) := (s.claimReqs[n]?).elim [] fun r => if partUp s r then [ctxPacket s r.c (here r.c) (stationOfCol (namePart s r.name))] else []
  let withHome (sp : BitVec 12) (f : Nat → Packet) := (homeUnit s sp).elim [] fun h => [f (stationOfCol h)]
  match e with
  | .alembicClaimArrival n => toPart n
  | .alembicFulfilArrival n => toPart n
  | .alembicAbandonArrival n => toPart n
  | .alembicCldropArrival n => toPart n
  | .intern n => (s.labelJobs[n]?).elim [] fun j => withHome j.sp fun h => ctxPacket s j.c (here j.c) h
  | .nogoodAppend n => (s.nogoods[n]?).elim [] fun g => withHome g.sp fun h => ctxPacket s g.c (here g.c) h
  | .generationBroadcast n unit => (s.nogoods[n]?).elim [] fun g => withHome g.sp fun h => ctxPacket s g.c h (stationOfCol unit)
  | .nogoodAcknowledge n unit => (s.nogoods[n]?).elim [] fun g => withHome g.sp fun h => ctxPacket s g.c (stationOfCol unit) h
  | .entryRewrite n => (s.rewrites[n]?).elim [] fun r => withHome r.sp fun h =>
    ⟨.inr (stationOfCol r.unit, 2), (s.space r.sp).owner.toNat, stationOfCol r.unit, h⟩
  | .nsignalArrival n => (s.nsignals[n]?).elim [] fun p => [ctxPacket s p.2.2.2 (here p.2.2.2) schedStation]
  | .schedulerAnswer n => (s.answers[n]?).elim [] fun a => [ctxPacket s a.c (here a.c) schedStation]
  | .signalArrival n => (s.signals[n]?).elim [] fun q => [ctxPacket s q.c (here q.c) (here (q.tgt.toNat % 16384))]
  | .slotReturnArrival n => (s.slotRets[n]?).elim [] fun p => [ctxPacket s p.2.1 (here p.2.1) (stationOf p.1)]
  | .pageWalkComplete n => (s.walks[n]?).elim [] (walkPackets s)
  | _ => []

/-- A unit's step, but for the arrival of a packet whose route holds it. -/
def Ev.act (e : Ev) (s : State) : Host.Outcome State Fault Refusal :=
  match e with
  | .signalArrival n => execSignalArrival n s
  | .labelProductAnswer n => execLabelProductAnswer n s
  | .divideComplete c n => execDivideComplete c n s
  | .loadDataReturn c n => execLoadDataReturn c n s
  | .vectorLongComplete c n => execVectorLongComplete c n s
  | .matrixInstructionStart cell => execMatrixInstructionStart cell s
  | .matrixInstructionComplete cell => execMatrixInstructionComplete cell s
  | .followOnOffer cell n => execFollowOnOffer cell n s
  | .accumulatorComplete c n => execAccumulatorComplete c n s
  | .pageWalkComplete n => execPageWalkComplete n s
  | .homeRequestArrival n => execHomeRequestArrival n s
  | .refusedRequestRetry n => execRefusedRequestRetry n s
  | .serviceDelivery n => execServiceDelivery n s
  | .reservationRequestArrival n => execReservationRequestArrival n s
  | .reservationPassArrival n => execReservationPassArrival n s
  | .holdLimitExpiry w => execHoldLimitExpiry w s
  | .reservationHoldNotice n => execReservationHoldNotice n s
  | .wcbDrain c n => execWcbDrain c n s
  | .l1WriteBack cell line evict => execL1WriteBack cell line evict s
  | .imageComplete c => execImageComplete c s
  | .shadowLineCopy cell line => execShadowLineCopy cell line s
  | .lossReport col => execLossReport col s
  | .alembicClaimArrival n => execAlembicClaimArrival n s
  | .alembicFulfilArrival n => execAlembicFulfilArrival n s
  | .alembicAbandonArrival n => execAlembicAbandonArrival n s
  | .alembicCldropArrival n => execAlembicCldropArrival n s
  | .claimReturn n => execClaimReturn n s
  | .accordProductRequest n => execAccordProductRequest n s
  | .intern n => execIntern n s
  | .entryRewrite n => execEntryRewrite n s
  | .nogoodAppend n => execNogoodAppend n s
  | .generationBroadcast n unit => execGenerationBroadcast n unit s
  | .nogoodAcknowledge n unit => execNogoodAcknowledge n unit s
  | .copySlotAllocation cell => execCopySlotAllocation cell s
  | .slotReturnArrival n => execSlotReturnArrival n s
  | .copyLine cell slot => execCopyLine cell slot s
  | .barrierCredit n => execBarrierCredit n s
  | .barrierWaitReturn n => execBarrierWaitReturn n s
  | .tbtimeLimitExpiry n => execTbtimeLimitExpiry n s
  | .gatherIndexRead col n => execGatherIndexRead col n s
  | .gatherRowMove col n => execGatherRowMove col n s
  | .encoderFrameStart enc => execEncoderFrameStart enc s
  | .encoderFrameReadDone enc => execEncoderFrameReadDone enc s
  | .encoderRecordWrite enc => execEncoderRecordWrite enc s
  | .jobStart part => execJobStart part s
  | .phaseStart job => execPhaseStart job s
  | .nodeReady job g n => execNodeReady job g n s
  | .nodeComplete job g n => execNodeComplete job g n s
  | .nsignalArrival n => execNsignalArrival n s
  | .strandPlacement c => execStrandPlacement c s
  | .coResidentPlacement job g n => execCoResidentPlacement job g n s
  | .contractRelease job => execContractRelease job s
  | .budgetOverrun c => execBudgetOverrun c s
  | .deadlineMiss job => execDeadlineMiss job s
  | .dispatchStall job g n => execDispatchStall job g n s
  | .preEmption c => execPreEmption c s
  | .restore c => execRestore c s
  | .deferredDelivery c n => execDeferredDelivery c n s
  | .peerArrivalCheck n => execPeerArrivalCheck n s
  | .mailboxCompletion => execMailboxCompletion s
  | .instructionCacheEviction cell line => execInstructionCacheEviction cell line s
  | .handleCacheEviction cell idx => execHandleCacheEviction cell idx s
  | .storeArrivalAtHome n => execStoreArrivalAtHome n s
  | .barrierRequestArrival n => execBarrierRequestArrival n s
  | .schedulerAnswer n => execSchedulerAnswer n s
  | .frameOffer n => execFrameOffer n s
  | .compact n => .next (compactStep n s)
  | .outer n => .next (outerStep n s)
  | .mapWrite => .next (mapStep s)

/-- The record of a packet held at its source (R443). -/
def Packet.note (p : Packet) (s : State) (route n : Word) : State :=
  match p.source with
  | .inl c => s.recordCtx c 0x58 route n
  | .inr (st, u) => s.recordUnit st u p.part 0x58 route n

/-- A unit's step; a packet whose system route fails waits at its source, with a record (R443). -/
def Ev.run (e : Ev) (s : State) : Host.Outcome State Fault Refusal :=
  match (e.packets s).find? fun p => (sysCheck s p.part p.src p.dst).isSome with
  | none => e.act s
  | some p => .next (noteRoute p.note s p.part p.src p.dst)

/-- One step for each place of a list. -/
def eachOf {α : Type} (l : List α) (f : Nat → Ev) : List Ev := (List.range l.length).map f

/-- Operations in flight of a context that may complete, its buffer's drains, its image, and its budget. -/
def pendingCtx (c : Nat) (x : Ctx) : List Ev :=
  ((numbered x.pend).filterMap fun (p : Pend × Nat) => match p.1 with
    | .load _ _ _ _ _ _ _ => some (Ev.loadDataReturn c p.2)
    | .div _ => some (Ev.divideComplete c p.2)
    | .vlong _ => some (Ev.vectorLongComplete c p.2)
    | .acc _ => some (Ev.accumulatorComplete c p.2)
    | .accum _ => some (Ev.accumulatorComplete c p.2)
    | .wait _ _ _ _ => none)
  ++ eachOf x.wcb (Ev.wcbDrain c)
  ++ (if x.writing.isSome then [Ev.imageComplete c] else [])
  ++ (if x.save.isSome then [Ev.restore c] else [])

/-- Overruns, and deliveries into save images. -/
def pendingStrand (s : State) (c : Nat) (x : Ctx) : List Ev :=
  (if x.strand.any fun t => (findJob s t.job).any fun j => j.contract.isSome then [Ev.budgetOverrun c] else [])
  ++ match x.save with
    | none => []
    | some v => (List.range (v.pend.length + s.deliveries.length + s.barRets.length)).map fun n => Ev.deferredDelivery c n

/-- The steps of a cell's units: matrix unit, copy engine with the job whose turn it is (R396), shadow writers, caches. -/
def pendingCell (s : State) (n : Nat) (k : Cell) : List Ev :=
  (if k.matrix.isEmpty then [] else [Ev.matrixInstructionStart n, Ev.matrixInstructionComplete n])
  ++ eachOf k.follows (Ev.followOnOffer n)
  ++ (if k.cwait.isEmpty then [] else [Ev.copySlotAllocation n])
  ++ ((nextCopy s n).map fun i => Ev.copyLine n i).toList
  ++ (k.pendingShadow.map fun l => Ev.shadowLineCopy n l)
  ++ (k.l1.flatMap fun x => [Ev.l1WriteBack n x.line false, Ev.l1WriteBack n x.line true])
  ++ (k.icache.map fun (p : Nat × BitVec 512) => Ev.instructionCacheEviction n p.1)
  ++ k.hcache.map fun (p : Nat × HEntry) => Ev.handleCacheEviction n p.1

/-- The steps of a column's gather engine, and the report of its loss. -/
def pendingCol (n : Nat) (k : Column) : List Ev :=
  eachOf k.gathers (Ev.gatherIndexRead n) ++ eachOf k.gathers (Ev.gatherRowMove n)
  ++ if k.reported then [] else [Ev.lossReport n]

/-- Arrivals at homes and their answers. -/
def pendingHomes (s : State) : List Ev :=
  ((numbered s.reqs).map fun (p : Req × Nat) => if p.1.kind = .lrw then Ev.reservationRequestArrival p.2 else Ev.homeRequestArrival p.2)
  ++ eachOf s.refused Ev.refusedRequestRetry ++ eachOf s.deliveries Ev.serviceDelivery ++ eachOf s.passes Ev.reservationPassArrival
  ++ eachOf s.notices Ev.reservationHoldNotice ++ eachOf s.stores Ev.storeArrivalAtHome ++ eachOf s.barReqs Ev.barrierRequestArrival
  ++ eachOf s.barRets Ev.barrierWaitReturn ++ eachOf (timedWaits s) Ev.tbtimeLimitExpiry ++ eachOf s.credits Ev.barrierCredit
  ++ (s.homes.filterMap fun (p : Nat × Home) => if p.2.holder.isSome then some (Ev.holdLimitExpiry p.1) else none)

/-- The steps of the Accord and the Alembic. -/
def pendingLabels (s : State) : List Ev :=
  ((numbered s.labelJobs).map fun (p : LabelJob × Nat) => match p.1.stage with
    | .asked => Ev.accordProductRequest p.2
    | .formed _ => Ev.intern p.2
    | .answered _ _ _ => Ev.labelProductAnswer p.2)
  ++ eachOf s.rewrites Ev.entryRewrite ++ eachOf s.compacts Ev.compact
  ++ ((numbered s.nogoods).flatMap fun (p : Nogood × Nat) => if p.1.done.isNone then [Ev.nogoodAppend p.2]
    else (p.1.toLearn.map fun u => Ev.generationBroadcast p.2 u) ++ p.1.toAck.map fun u => Ev.nogoodAcknowledge p.2 u)
  ++ ((numbered s.claimReqs).map fun (p : ClaimReq × Nat) => match p.1.kind with
    | .claim => Ev.alembicClaimArrival p.2
    | .claimw => Ev.alembicClaimArrival p.2
    | .fulfil _ _ => Ev.alembicFulfilArrival p.2
    | .abandon => Ev.alembicAbandonArrival p.2
    | .cldrop => Ev.alembicCldropArrival p.2)
  ++ eachOf s.claimRets Ev.claimReturn

/-- The steps of one job. -/
def pendingJob (x : Job) : List Ev :=
  if x.done then []
  else (if x.contract.isSome then [Ev.contractRelease x.id, Ev.deadlineMiss x.id] else [Ev.phaseStart x.id])
    ++ (numbered x.graphs).flatMap fun (g : Graph × Nat) => if g.1.done then []
      else (numbered g.1.nodes).flatMap fun (n : Node × Nat) => match n.1.st with
        | .waiting => [Ev.nodeReady x.id g.2 n.2]
        | .ready => if n.1.kind = 3 then [Ev.nodeReady x.id g.2 n.2] else [Ev.coResidentPlacement x.id g.2 n.2, Ev.dispatchStall x.id g.2 n.2]
        | .running => [Ev.nodeComplete x.id g.2 n.2]
        | _ => []

/-- The steps of the scheduler and the encoders. -/
def pendingJobs (s : State) : List Ev :=
  (s.parts.filterMap fun (p : Nat × Part) => if p.2.queue.isEmpty then none else some (Ev.jobStart (BitVec.ofNat 6 p.1)))
  ++ s.jobs.flatMap pendingJob
  ++ ((nextPlace s).map fun (p : Nat × Ready) => Ev.strandPlacement p.1).toList
  ++ ((preemptible s).map fun c => Ev.preEmption c).toList
  ++ eachOf s.nsignals Ev.nsignalArrival ++ eachOf s.signals Ev.signalArrival ++ eachOf s.answers Ev.schedulerAnswer
  ++ eachOf s.slotRets Ev.slotReturnArrival ++ eachOf s.frames Ev.frameOffer
  ++ (if s.streams.all fun (p : Nat × List Frame) => p.2.isEmpty then [] else (List.range 32).map fun e => Ev.encoderFrameStart e)
  ++ s.encs.flatMap fun (p : Nat × Enc) => [Ev.encoderFrameReadDone p.1, Ev.encoderRecordWrite p.1]

/-- The steps of units that may happen next. -/
def pending (s : State) : List Ev :=
  (s.ctxs.flatMap fun (p : Nat × Ctx) => pendingCtx p.1 p.2 ++ pendingStrand s p.1 p.2)
  ++ (s.cells.flatMap fun (p : Nat × Cell) => pendingCell s p.1 p.2)
  ++ (s.cols.flatMap fun (p : Nat × Column) => pendingCol p.1 p.2)
  ++ pendingHomes s ++ pendingLabels s ++ pendingJobs s
  ++ eachOf s.outer Ev.outer ++ eachOf s.walks Ev.pageWalkComplete ++ eachOf s.peerOut Ev.peerArrivalCheck
  ++ (if s.mapStale || s.mapNext.isSome then [Ev.mapWrite] else []) ++ if s.mailbox.busy then [Ev.mailboxCompletion] else []

end Sys2Proof.Machine
end

