-- ==== Sys2Proof/Machine/Step.lean ====
section
/-! DEFINITION. One step of the device, and the state in which a given instruction is the next to run. -/

namespace Sys2Proof.Machine

/-- The cell takes its next slot: its owner's boundary, or an idle slot (R8, R9). -/
def stepCell (s : State) (n : Nat) : Host.Outcome State Fault Refusal :=
  let c := 16 * n + slotOwner (s.cell n)
  let s := { nextSlot s n with cur := c }
  if !canIssue s c then .next s
  else if !(s.ctx c).again.isEmpty then .next (issueAgain s c)
  else match boundary s c with
    | .event i => exec i s
    | .run i t => exec i t
    | .stop e t => stopped t c e

/-- Time passes with a step that is not of the agenda (log 4), something may come up outside (log 78), and the next free choice is made by its number
(log 3). -/
def elapse (o : Host.Outcome State Fault Refusal) : Host.Outcome State Fault Refusal :=
  match o with
  | .next s => .next { s with
      tick := s.tick + 1
      tsc := s.tsc + (Config.tscAdvance s.tick).setWidth 64
      outer := s.outer ++ (Config.outer s.tick).toList }
  | .fault f => .fault f
  | .refused r => .refused r

/-- Whether an instruction is the start of a device (R475); a device that halted at boot takes no other step. -/
def starts (i : Instr) : Bool :=
  match i with
  | .powerOn _ _ _ _ => true
  | _ => false

/-- The next step: the head of the agenda; otherwise, when only cells can go on and there is one, that cell's slot; otherwise one of the pending
steps and slots, chosen freely (log 1, log 3). With nothing to do the device stays as it is. -/
def step (s : State) : Host.Outcome State Fault Refusal :=
  match s.agenda with
  | i :: t => if s.halted.isSome && !starts i then .next { s with agenda := t } else exec i { s with agenda := t }
  | [] =>
    match pending s, busyCells s with
    | [], [] => .next s
    | [], [n] => elapse (stepCell s n)
    | evs, cells =>
      let k := Config.pick s.tick % (evs.length + cells.length)
      match evs[k]?, cells[k - evs.length]? with
      | some e, _ => elapse (e.run { s with tick := s.tick + 1 })
      | none, some n => elapse (stepCell { s with tick := s.tick + 1 } n)
      | none, none => .next s

/-- `s` with an instruction where the next step fetches: context 0 of cell 0 holds a strand and owns the next slot, its program counter's page is
mapped onto the physical page at 0x100000, executable, and the instruction's bytes (zeros above `nbits`) are there. -/
def State.withFetchWord (s : State) (nbits w : Nat) : State :=
  let va := (s.ctx 0).arch.pc.toNat % 2 ^ 57
  let pa := 0x100000 + va % 4096
  let part := BitVec.ofNat 6 (s.ctx 0).arch.partition
  let pte := w64 (0x3B + 0x100000)
  let s := { s with agenda := [] }
  let s := s.modCtx 0 fun x => { x with
    run := .running
    strand := some ⟨1, 0, 0, 0, 0, 0, part, 0, 0, 0, false⟩
    fbuf := [] }
  let s := s.modCell 0 fun k => { k with
    slot := 0
    icache := []
    tlb := ⟨part, va / 4096 * 4096, 4096, pte⟩ :: k.tlb }
  s.setNum pa 4 (w % 2 ^ nbits)

end Sys2Proof.Machine
end

