-- ==== Sys2Proof/Certificates/Slice0/Obligations.lean ====
section
/-! DEFINITION. The statements for the provers, made from the numbered rules of the spec, with the words they share. -/

namespace Sys2Proof.Spec

open Sys2Proof.Machine

/-! ### Words shared by the statements -/

/-- The registers of the context that issues. -/
def me (s : State) : Arch := (s.ctx s.cur).arch
/-- The current context may issue `i`: no NOGOOD holds it back, and the checks made before the instruction's own rule pass (R83, R84, R157, R240). -/
def MayIssue (i : Instr) (s : State) : Prop := heldBack s s.cur = false ∧ preCheck i s s.cur = none
/-- Every source is full, and no two of them carry different label spaces (R15, R20 rule 8). -/
def Readable (a : Arch) (xs : List Src) : Prop := (∀ x ∈ xs, (a.rmeta x.r).fe = .full) ∧ spaceClash none (srcLabels a xs) = none
/-- The destination is not empty (R16). -/
def Writable (a : Arch) (d : RegId) : Prop := (a.rmeta d).fe ≠ .empty
/-- The labels of the sources hold under VIEW as far as the cell knows them (R142). -/
def ViewHolds (s : State) (xs : List Src) : Prop := viewTest s s.cur xs = .ok ()

/-- No error queue has a ring in memory (R465). -/
def NoRings (s : State) : Prop := ∀ p, (s.part p).ringSize = 0

/-- What a scalar instruction does with registers: where its result goes, its sources in field order, and its result. -/
structure Rule where
  dst : RegId
  srcs : List Src
  val : Word
deriving DecidableEq, Repr

/-- The number of elements at the front of a list of bits that are clear, taken from a word by place. -/
def zerosFrom (p : Nat → Bool) : Nat := ((List.range 64).takeWhile fun i => !p i).length

/-- The rules of the instructions of chapter 5 that compute one word of registers and set no flag (R124, R126 to R128, R130 to R136, R138,
R149), and of their compact forms (R79). -/
def scalarRule (a : Arch) : Instr → Option Rule
  | .mulh d x y wx wy => some ⟨gd d, [srcG x wx 0, srcG y wy 1],
      ((gv a x).signExtend 128 * (gv a y).signExtend 128).extractLsb' 64 64⟩
  | .mulhn d x y wx wy => some ⟨gd d, [srcG x wx 0, srcG y wy 1],
      ((gv a x).setWidth 128 * (gv a y).setWidth 128).extractLsb' 64 64⟩
  | .and d x y wx wy => some ⟨gd d, [srcG x wx 0, srcG y wy 1], gv a x &&& gv a y⟩
  | .or d x y wx wy => some ⟨gd d, [srcG x wx 0, srcG y wy 1], gv a x ||| gv a y⟩
  | .xor d x y wx wy => some ⟨gd d, [srcG x wx 0, srcG y wy 1], gv a x ^^^ gv a y⟩
  | .mov d x wx => some ⟨gd d, [srcG x wx 0], gv a x⟩
  | .shl d x y wx wy => some ⟨gd d, [srcG x wx 0, srcG y wy 1], gv a x <<< ((gv a y).setWidth 6).toNat⟩
  | .shr d x y wx wy => some ⟨gd d, [srcG x wx 0, srcG y wy 1], gv a x >>> ((gv a y).setWidth 6).toNat⟩
  | .sra d x y wx wy => some ⟨gd d, [srcG x wx 0, srcG y wy 1], (gv a x).sshiftRight ((gv a y).setWidth 6).toNat⟩
  | .rotl d x y wx wy => some ⟨gd d, [srcG x wx 0, srcG y wy 1],
      gv a x <<< ((gv a y).setWidth 6).toNat ||| gv a x >>> (64 - ((gv a y).setWidth 6).toNat)⟩
  | .clz d x wx => some ⟨gd d, [srcG x wx 0], BitVec.ofNat 64 (zerosFrom fun i => (gv a x).getMsbD i)⟩
  | .ctz d x wx => some ⟨gd d, [srcG x wx 0], BitVec.ofNat 64 (zerosFrom fun i => (gv a x).getLsbD i)⟩
  | .popc d x wx => some ⟨gd d, [srcG x wx 0], BitVec.ofNat 64 ((List.range 64).countP fun i => (gv a x).getLsbD i)⟩
  | .min d x y wx wy => some ⟨gd d, [srcG x wx 0, srcG y wy 1], if (gv a y).slt (gv a x) then gv a y else gv a x⟩
  | .max d x y wx wy => some ⟨gd d, [srcG x wx 0, srcG y wy 1], if (gv a x).slt (gv a y) then gv a y else gv a x⟩
  | .minn d x y wx wy => some ⟨gd d, [srcG x wx 0, srcG y wy 1], if gv a y < gv a x then gv a y else gv a x⟩
  | .maxn d x y wx wy => some ⟨gd d, [srcG x wx 0, srcG y wy 1], if gv a x < gv a y then gv a y else gv a x⟩
  | .sext d x wx n => some ⟨gd d, [srcG x wx 0], ((gv a x).setWidth (n.toNat + 1)).signExtend 64⟩
  | .zext d x wx n => some ⟨gd d, [srcG x wx 0], ((gv a x).setWidth (n.toNat + 1)).setWidth 64⟩
  | .bfx d x y wx wy => some ⟨gd d, [srcG x wx 0, srcG y wy 1],
      ((gv a x >>> ((gv a y).setWidth 6).toNat).setWidth (((gv a y).extractLsb' 8 6).toNat + 1)).setWidth 64⟩
  | .bfi d x y wx wy => some ⟨gd d, [srcG x wx 0, srcG y wy 1, srcG d true 2],
      let p := ((gv a y).setWidth 6).toNat
      let m : Word := (BitVec.allOnes (((gv a y).extractLsb' 8 6).toNat + 1)).setWidth 64 <<< p
      (gv a d &&& ~~~m) ||| (gv a x <<< p &&& m)⟩
  | .sel d x y wx wy => some ⟨gd d, [srcG x wx 0, srcG y wy 1, srcG d true 2], if gv a d ≠ 0 then gv a x else gv a y⟩
  | .slt d x y wx wy => some ⟨gd d, [srcG x wx 0, srcG y wy 1], if (gv a x).slt (gv a y) then 1 else 0⟩
  | .sltn d x y wx wy => some ⟨gd d, [srcG x wx 0, srcG y wy 1], if gv a x < gv a y then 1 else 0⟩
  | .seq d x y wx wy => some ⟨gd d, [srcG x wx 0, srcG y wy 1], if gv a x = gv a y then 1 else 0⟩
  | .hash d x y wx wy => some ⟨gd d, [srcG x wx 0, srcG y wy 1],
      let h := gv a x ^^^ gv a y * 0x9E3779B97F4A7C15
      let h := (h ^^^ h >>> 31) * 0xBF58476D1CE4E5B9
      let h := (h ^^^ h >>> 27) * 0x94D049BB133111EB
      h ^^^ h >>> 33⟩
  | .addi d x wx imm => some ⟨gd d, [srcG x wx 0], gv a x + imm.signExtend 64⟩
  | .andi d x wx imm => some ⟨gd d, [srcG x wx 0], gv a x &&& imm.signExtend 64⟩
  | .ori d x wx imm => some ⟨gd d, [srcG x wx 0], gv a x ||| imm.signExtend 64⟩
  | .xori d x wx imm => some ⟨gd d, [srcG x wx 0], gv a x ^^^ imm.signExtend 64⟩
  | .slti d x wx imm => some ⟨gd d, [srcG x wx 0], if (gv a x).slt (imm.signExtend 64) then 1 else 0⟩
  | .shli d x wx n => some ⟨gd d, [srcG x wx 0], gv a x <<< n.toNat⟩
  | .shri d x wx n => some ⟨gd d, [srcG x wx 0], gv a x >>> n.toNat⟩
  | .srai d x wx n => some ⟨gd d, [srcG x wx 0], (gv a x).sshiftRight n.toNat⟩
  | .rotli d x wx n => some ⟨gd d, [srcG x wx 0], gv a x <<< n.toNat ||| gv a x >>> (64 - n.toNat)⟩
  | .li d imm => some ⟨gd d, [], imm.signExtend 64⟩
  | .lih d imm => some ⟨gd d, [srcG d true 0], (gv a d).extractLsb' 0 46 ++ imm⟩
  | .rmake d x y wx wy => some ⟨gd d, [srcG x wx 0, srcG y wy 1], (gv a x).extractLsb' 0 24 ++ (gv a y).extractLsb' 0 40⟩
  | .radd d x y wx wy => some ⟨gd d, [srcG x wx 0, srcG y wy 1],
      (gv a x).extractLsb' 40 24 ++ ((gv a x).extractLsb' 0 40 + (gv a y).extractLsb' 0 40)⟩
  | .raddi d x wx imm => some ⟨gd d, [srcG x wx 0],
      (gv a x).extractLsb' 40 24 ++ ((gv a x).extractLsb' 0 40 + imm.signExtend 40)⟩
  | .rsetf d x y wx wy => some ⟨gd d, [srcG x wx 0, srcG y wy 1], (gv a y).extractLsb' 0 10 ++ (gv a x).extractLsb' 0 54⟩
  | .roff d x wx => some ⟨gd d, [srcG x wx 0], ((gv a x).extractLsb' 0 40).setWidth 64⟩
  | .ridx d x wx => some ⟨gd d, [srcG x wx 0], ((gv a x).extractLsb' 40 14).setWidth 64⟩
  | .xset d x wx => some ⟨⟨.x, d.toNat⟩, [srcG x wx 0], gv a x⟩
  | .xget d x => some ⟨gd d, [srcF .x x.toNat 0], (a.xr x.toNat).val⟩
  | .xli d imm => some ⟨⟨.x, d.toNat⟩, [], imm.signExtend 64⟩
  | .cMov d x => some ⟨gd (cr4 d), [srcG (cr4 x) true 0], gv a (cr4 x)⟩
  | .cAdd d x => some ⟨gd (cr4 d), [srcG (cr4 d) true 0, srcG (cr4 x) true 1], gv a (cr4 d) + gv a (cr4 x)⟩
  | .cSub d x => some ⟨gd (cr4 d), [srcG (cr4 d) true 0, srcG (cr4 x) true 1], gv a (cr4 d) - gv a (cr4 x)⟩
  | .cAnd d x => some ⟨gd (cr4 d), [srcG (cr4 d) true 0, srcG (cr4 x) true 1], gv a (cr4 d) &&& gv a (cr4 x)⟩
  | .cOr d x => some ⟨gd (cr4 d), [srcG (cr4 d) true 0, srcG (cr4 x) true 1], gv a (cr4 d) ||| gv a (cr4 x)⟩
  | .cXor d x => some ⟨gd (cr4 d), [srcG (cr4 d) true 0, srcG (cr4 x) true 1], gv a (cr4 d) ^^^ gv a (cr4 x)⟩
  | .cAddi d imm => some ⟨gd (cr4 d), [srcG (cr4 d) true 0], gv a (cr4 d) + imm.signExtend 64⟩
  | .cShli d n => some ⟨gd (cr4 d), [srcG (cr4 d) true 0], gv a (cr4 d) <<< n.toNat⟩
  | .cLi d imm => some ⟨gd (cr4 d), [], imm.signExtend 64⟩
  | _ => none

/-- The exact result of ADD, SUB or MUL (R123): operands read as `n`-bit integers of the kind's signedness. -/
def exactArith (a : Arch) : Instr → Option (RegId × List Src × Nat × IntKind × Int)
  | .add d x y wx wy w k => some (gd d, [srcG x wx 0, srcG y wy 1], w.bits, k, rd w k x + rd w k y)
  | .sub d x y wx wy w k => some (gd d, [srcG x wx 0, srcG y wy 1], w.bits, k, rd w k x - rd w k y)
  | .mul d x y wx wy w k => some (gd d, [srcG x wx 0, srcG y wy 1], w.bits, k, rd w k x * rd w k y)
  | _ => none
where
  /-- An operand. -/
  rd (w : Width) (k : IntKind) (x : BitVec 6) : Int :=
    if k.signed then ((gv a x).setWidth w.bits).toInt else (((gv a x).setWidth w.bits).toNat : Int)

/-- The least and the greatest integer of `n` bits (R43). -/
def lowest (n : Nat) (signed : Bool) : Int := if signed then -(2 ^ (n - 1) : Int) else 0
/-- See `lowest`. -/
def highest (n : Nat) (signed : Bool) : Int := if signed then 2 ^ (n - 1) - 1 else 2 ^ n - 1

/-- The result of R123 for an exact result `t`: clamped by a saturating kind, else its low `n` bits; then extended by the kind's signedness. -/
def shaped (n : Nat) (k : IntKind) (t : Int) : Word :=
  let u := if k.saturating then max (lowest n k.signed) (min (highest n k.signed) t) else t
  if k.signed then (BitVec.ofInt n u).signExtend 64 else (BitVec.ofInt n u).setWidth 64
/-- The flags of R123: SAT when a saturating kind changed the result. -/
def shapedFlags (n : Nat) (k : IntKind) (t : Int) : BitVec 6 :=
  if k.saturating ∧ (t < lowest n k.signed ∨ highest n k.signed < t) then fSAT else 0

end Sys2Proof.Spec

open Sys2Proof Sys2Proof.Machine Sys2Proof.Spec

/-- R124, R126 to R128, R130 to R136, R138, R149: the instruction fills its destination with the value of its rule under the label product of
all its sources, sets no flag, and the program counter moves on. -/
def Obligations.ScalarResult : Prop :=
  ∀ (s : State) (i : Instr) (r : Rule), MayIssue i s → scalarRule (me s) i = some r → Readable (me s) r.srcs →
    Writable (me s) r.dst →
    ∃ t, exec i s = .next t ∧ t = advance i (fill s s.cur r.dst (.w r.val) (srcLabels (me s) r.srcs)) s.cur

/-- R123: ADD, SUB and MUL shape their exact result by type; SAT is set when a saturating kind changed it.
R121: where the saturation flag is enabled, the arithmetic fault is taken: TVAL is the flags raised, which stay ORed into STATUS.FLG. -/
def Obligations.ArithmeticResult : Prop :=
  (∀ (s : State) (i : Instr) (d : RegId) (xs : List Src) (n : Nat) (k : IntKind) (x : Int), MayIssue i s →
    exactArith (me s) i = some (d, xs, n, k, x) → Readable (me s) xs → Writable (me s) d → shapedFlags n k x &&& (me s).en = 0 →
    exec i s = .next (advance i (fill (if shapedFlags n k x = 0 then s else s.modArch s.cur fun a => a.orFlags (shapedFlags n k x))
      s.cur d (.w (shaped n k x)) (srcLabels (me s) xs)) s.cur)) ∧
  (∀ (s : State) (i : Instr) (d : RegId) (xs : List Src) (n : Nat) (k : IntKind) (x : Int), MayIssue i s →
    exactArith (me s) i = some (d, xs, n, k, x) → Readable (me s) xs → Writable (me s) d → shapedFlags n k x &&& (me s).en ≠ 0 →
    exec i s = .next (takeTrap s s.cur ⟨0x19, 0, (shapedFlags n k x).setWidth 64, shapedFlags n k x⟩ false (me s).pc) ∧
    ((me s).pl = 0 → (me s).tn = false → ∃ t, exec i s = .next t ∧ (me t).sup.tval = (shapedFlags n k x).setWidth 64 ∧
      (me t).sup.tpc = (me s).pc ∧ (me t).flg = (me s).flg ||| shapedFlags n k x ∧ (me t).g = (me s).g))

namespace Sys2Proof.Spec

/-- Quotients and remainders of R42: destination, sources, the value delivered, and the flag of the corner cases. -/
def divRule (a : Arch) : Instr → Option (RegId × List Src × Word × BitVec 6)
  | .div d x y wx wy w => some (gd d, [srcG x wx 0, srcG y wy 1],
      (if op w y = 0 then BitVec.allOnes w.bits else (op w x).sdiv (op w y)).signExtend 64,
      if op w y = 0 then fDZ else if op w x = BitVec.intMin w.bits ∧ op w y = BitVec.allOnes w.bits then fOF else 0)
  | .rem d x y wx wy w => some (gd d, [srcG x wx 0, srcG y wy 1],
      (if op w y = 0 then op w x else (op w x).srem (op w y)).signExtend 64,
      if op w y = 0 then fDZ else if op w x = BitVec.intMin w.bits ∧ op w y = BitVec.allOnes w.bits then fOF else 0)
  | .divn d x y wx wy w => some (gd d, [srcG x wx 0, srcG y wy 1],
      (if op w y = 0 then BitVec.allOnes w.bits else op w x / op w y).setWidth 64, if op w y = 0 then fDZ else 0)
  | .remn d x y wx wy w => some (gd d, [srcG x wx 0, srcG y wy 1],
      (if op w y = 0 then op w x else op w x % op w y).setWidth 64, if op w y = 0 then fDZ else 0)
  | _ => none
where
  /-- An operand's low bits. -/
  op (w : Width) (x : BitVec 6) : BitVec w.bits := (gv a x).setWidth w.bits

/-- The cells are as they were, but for the order of use in their product caches, which hits change (R360). -/
def SameCells (s t : State) : Prop := ∀ n, ∃ p, t.cell n = { s.cell n with pcache := p } ∧ ∀ e, e ∈ p ↔ e ∈ (s.cell n).pcache
/-- From `s` to `t` only the contexts changed, and of these only the current one; hits in the product caches apart. -/
def OnlyMe (s t : State) : Prop := t = { s with ctxs := t.ctxs, cells := t.cells } ∧ SameCells s t ∧ ∀ c, c ≠ s.cur → t.ctx c = s.ctx c

/-- What a branch does: its sources, whether it is taken, and its target (R141, R79). -/
def branchRule (a : Arch) : Instr → Option (List Src × Bool × Word)
  | .beq x y wx wy t => some ([srcG x wx 0, srcG y wy 1], gv a x == gv a y, dest t)
  | .bne x y wx wy t => some ([srcG x wx 0, srcG y wy 1], gv a x != gv a y, dest t)
  | .blt x y wx wy t => some ([srcG x wx 0, srcG y wy 1], (gv a x).slt (gv a y), dest t)
  | .bge x y wx wy t => some ([srcG x wx 0, srcG y wy 1], !(gv a x).slt (gv a y), dest t)
  | .bltn x y wx wy t => some ([srcG x wx 0, srcG y wy 1], decide (gv a x < gv a y), dest t)
  | .bgen x y wx wy t => some ([srcG x wx 0, srcG y wy 1], decide (gv a y ≤ gv a x), dest t)
  | .bz x wx t => some ([srcG x wx 0], gv a x == 0, dest t)
  | .bnz x wx t => some ([srcG x wx 0], gv a x != 0, dest t)
  | .cBz x t => some ([srcG (cr4 x) true 0], gv a (cr4 x) == 0, dest t)
  | .cBnz x t => some ([srcG (cr4 x) true 0], gv a (cr4 x) != 0, dest t)
  | .j t => some ([], true, dest t)
  | .cJ t => some ([], true, dest t)
  | _ => none
where
  /-- Twice the displacement beyond the instruction (R73). -/
  dest {n : Nat} (d : BitVec n) : Word := a.pc + (d.signExtend 64 + d.signExtend 64)

/-- The loop stack after control is sent to `t` (R147, R148). -/
def loopsAt (a : Arch) (t : Word) : List Level :=
  a.loops.dropWhile fun u => u.pl.toNat == a.pl && !(decide (u.start ≤ t) && decide (t ≤ u.stop))

/-- The jumps through a register (R140): the link register, the target register with its wait bit, and the link value. -/
def jumpRule (a : Arch) : Instr → Option (Option (BitVec 6) × BitVec 6 × Bool × Word)
  | .jr x wx => some (none, x, wx, 0)
  | .jalr d x wx => some (some d, x, wx, a.pc + 4)
  | .cJr x => some (none, cr4 x, true, 0)
  | _ => none

/-- The counted loops (R144, R145): the sources read, the count, the body length and the maximum. -/
def countedRule (a : Arch) : Instr → Option (List Src × Word × Nat × Nat)
  | .loop r w len m e => some ([srcG r w 0], gv a r, len.toNat, (m.toNat + 1) * 2 ^ e.toNat)
  | .loopl r w x =>
    let v := (a.xr x.toNat).val
    if v.extractLsb' 0 8 = 0 ∨ v.extractLsb' 17 47 ≠ 0 then none
    else some ([srcG r w 0, srcF .x x.toNat 1], gv a r, (v.extractLsb' 0 8).toNat,
      ((v.extractLsb' 8 5).toNat + 1) * 2 ^ (v.extractLsb' 13 4).toNat)
  | _ => none

/-- The count register of a loop instruction with its wait bit. -/
def loopReg : Instr → Option (BitVec 6 × Bool)
  | .loop r w _ _ _ => some (r, w)
  | .loopl r w _ => some (r, w)
  | .loopw r w _ _ _ => some (r, w)
  | _ => none

/-- The labels of sources whose space is known: of those that are full, and of those still awaited under wait bit 1 (R20 rule 8). -/
def knownLabels (a : Arch) (xs : List Src) : List Label :=
  (xs.filter fun x => (a.rmeta x.r).fe == .full || (a.rmeta x.r).fe == .empty && x.w).map fun x => (a.rmeta x.r).lab

/-- An instruction, rather than an event. -/
def Encoded (i : Instr) : Prop := (encode i).isSome = true

end Sys2Proof.Spec

/-- R118, R11, R360: a scalar instruction that completes changes nothing but its destination register, the program counter, the order of use in the cell's product
cache, and, where the Accord unit must form the product, the requests to it; g0 as destination leaves every register as it was. -/
def Obligations.ScalarFrame : Prop :=
  ∀ (s t : State) (i : Instr) (r : Rule), MayIssue i s → scalarRule (me s) i = some r → Readable (me s) r.srcs →
    Writable (me s) r.dst → exec i s = .next t →
    (∀ a, t.byte a = s.byte a) ∧ t = { s with ctxs := t.ctxs, labelJobs := t.labelJobs, cells := t.cells } ∧ SameCells s t ∧ (∀ c, c ≠ s.cur → t.ctx c = s.ctx c) ∧
    me t = { me s with pc := (me t).pc, g := (me t).g, x := (me t).x } ∧ (me t).pc = (me s).pc + BitVec.ofNat 64 i.len ∧
    (∀ q, q ≠ r.dst → (me t).rmeta q = (me s).rmeta q ∧ (me t).regVal q = (me s).regVal q) ∧
    (r.dst = ⟨.g, 0⟩ → ∀ q, (me t).rmeta q = (me s).rmeta q ∧ (me t).regVal q = (me s).regVal q)

/-- R15, R16, R20 rule 8: while its destination is empty, or its first source that is not full is awaited under wait bit 1, a scalar instruction changes
nothing, unless the spaces known of its sources differ; such a source under wait bit 0 is the empty register fault, and a faulted one the label
overflow fault.
R20 rule 8: two sources in different label spaces raise the label space fault, whose TVAL is the offending space. -/
def Obligations.SourcesWaitOrFault : Prop :=
  (∀ (s : State) (i : Instr) (r : Rule) (xs ys : List Src) (x : Src), MayIssue i s → scalarRule (me s) i = some r →
    ((me s).rmeta r.dst).fe = .empty ∧ exec i s = .next s ∨
    (((me s).rmeta r.dst).fe ≠ .empty ∧ (r.srcs = xs ++ x :: ys → (∀ y ∈ xs, ((me s).rmeta y.r).fe = .full) →
      (((me s).rmeta x.r).fe = .empty → x.w = true →
        (spaceClash none (srcLabels (me s) xs ++ ((me s).rmeta x.r).lab :: knownLabels (me s) ys) = none → exec i s = .next s) ∧
        (∀ sp, spaceClash none (srcLabels (me s) xs ++ ((me s).rmeta x.r).lab :: knownLabels (me s) ys) = some sp →
          exec i s = .next (takeTrap s s.cur ⟨8, 0, sp.setWidth 64, 0⟩ false (me s).pc))) ∧
      (((me s).rmeta x.r).fe = .empty → x.w = false →
        exec i s = .next (takeTrap s s.cur ⟨4, BitVec.ofNat 4 x.idx, BitVec.ofNat 64 x.r.n, 0⟩ false (me s).pc)) ∧
      (((me s).rmeta x.r).fe = .faulted →
        exec i s = .next (takeTrap s s.cur ⟨5, ((me s).rmeta x.r).det.setWidth 4, ((me s).rmeta x.r).prod, 0⟩ false (me s).pc))))) ∧
  (∀ (s : State) (i : Instr) (r : Rule) (sp : BitVec 12), MayIssue i s → scalarRule (me s) i = some r → Writable (me s) r.dst →
    (∀ x ∈ r.srcs, ((me s).rmeta x.r).fe = .full) → spaceClash none (srcLabels (me s) r.srcs) = some sp →
    exec i s = .next (takeTrap s s.cur ⟨8, 0, sp.setWidth 64, 0⟩ false (me s).pc))

/-- R12, R83, R84: every instruction makes its decode checks before anything else: a register beyond the allotment of its file, then the privilege
level; TVAL is the instruction image.
R240: while a NOGOOD of the context is not complete, none of its instructions changes anything. -/
def Obligations.ChecksBeforeIssue : Prop :=
  (∀ (s : State) (i : Instr), Encoded i → heldBack s s.cur = false → dueDeferred (s.ctx s.cur) i = none →
    (allotOk i (s.cell (cellOf s.cur)).mode = false →
      exec i s = .next (takeTrap s s.cur ⟨2, 0, i.image, 0⟩ false (me s).pc)) ∧
    (allotOk i (s.cell (cellOf s.cur)).mode = true → (me s).pl < i.level →
      exec i s = .next (takeTrap s s.cur ⟨3, 0, i.image, 0⟩ false (me s).pc))) ∧
  (∀ (s : State) (i : Instr), Encoded i → heldBack s s.cur = true → exec i s = .next s)

/-- R125, R42: a division marks its destination empty at issue, with the flag of its corner cases set, and its value under way. -/
def Obligations.DivisionStarts : Prop :=
  ∀ (s : State) (i : Instr) (d : RegId) (xs : List Src) (v : Word) (f : BitVec 6), MayIssue i s →
    divRule (me s) i = some (d, xs, v, f) → Readable (me s) xs → Writable (me s) d →
    (f &&& (me s).en = 0 → ∃ t, exec i s = .next t ∧ OnlyMe s t ∧ (me t).pc = (me s).pc + 4 ∧ (me t).flg = (me s).flg ||| f ∧
      (t.ctx s.cur).pend = (s.ctx s.cur).pend ++ [.div ⟨d, .w v, srcLabels (me s) xs, (me s).pc⟩] ∧
      (d ≠ ⟨.g, 0⟩ → ((me t).rmeta d).fe = .empty) ∧
      (∀ q, q ≠ d → (me t).rmeta q = (me s).rmeta q ∧ (me t).regVal q = (me s).regVal q)) ∧
    (f &&& (me s).en ≠ 0 → exec i s = .next (takeTrap s s.cur ⟨0x19, 0, f.setWidth 64, f⟩ false (me s).pc))

/-- R14, R20, R119: a result for g0 is discarded; of ⊤ sources it is ⊤, with some ⊥ source ⊥, with one other label that label, and with a product the
cell's cache holds as an overflow the register is faulted and keeps the detail and the instruction's address.
R142: a condition whose label the cell knows and that does not hold under VIEW raises the label view fault with its handle and operand index. -/
def Obligations.LabelsOfResults : Prop :=
  (∀ (s : State) (c : Nat) (n : Nat) (v : Word) (ls : List Label),
    fill s c ⟨.g, 0⟩ (.w v) ls = s ∧
    (n ≠ 0 →
      let r := ((fill s c ⟨.g, n⟩ (.w v) ls).ctx c).arch.gr n
      ((∀ l ∈ ls, l.isTop = true) → r = ⟨v, .full, .top, 0, 0, false, false⟩) ∧
      ((∃ l ∈ ls, l.isBot = true) → r = ⟨v, .full, .bot, 0, 0, false, false⟩) ∧
      (∀ l, (∀ m ∈ ls, m.isBot = false) → properLabels ls = [l] → r = ⟨v, .full, l, 0, 0, false, false⟩) ∧
      (∀ k, localProduct (s.cell (cellOf c)).pcache ls = .known (.past k) → r = ⟨v, .faulted, .top, k, (s.ctx c).arch.pc, false, false⟩) ∧
      (∀ sp, localProduct (s.cell (cellOf c)).pcache ls = .ask sp → r.fe = .empty ∧ r.val = v ∧
        (fill s c ⟨.g, n⟩ (.w v) ls).labelJobs =
          s.labelJobs ++ [⟨c, s.plc c, some ⟨.g, n⟩, sp, .product ls, .asked, (s.ctx c).arch.pc, 0⟩]))) ∧
  (∀ (s : State) (i : Instr) (xs ys zs : List Src) (x : Src) (taken : Bool) (tgt : Word) (envs : List Word), MayIssue i s →
    branchRule (me s) i = some (xs, taken, tgt) → (∀ x ∈ xs, ((me s).rmeta x.r).fe = .full) → xs = ys ++ x :: zs →
    ViewHolds s ys → localContent (s.cell (cellOf s.cur)).pcache ((me s).rmeta x.r).lab = some envs →
    ((me s).rmeta x.r).lab.isTop = false → (∀ e ∈ envs, e &&& (me s).view ≠ e) →
    exec i s = .next (takeTrap s s.cur ⟨6, BitVec.ofNat 4 x.idx, ((me s).rmeta x.r).lab.h.setWidth 64, 0⟩ false (me s).pc))

/-- R139 to R142, R147: a branch whose sources hold under VIEW goes to its target when taken, popping the levels the target lies outside, and on to
the next instruction otherwise; nothing else changes.
R140, R73: JR, JALR and C.JR go to the register's value, JALR linking the address after it with ⊤; JAL links g31; an odd target is the
alignment fault and changes neither pc nor d. -/
def Obligations.BranchesAndJumps : Prop :=
  (∀ (s : State) (i : Instr) (xs : List Src) (taken : Bool) (tgt : Word), MayIssue i s → branchRule (me s) i = some (xs, taken, tgt) →
    (∀ x ∈ xs, ((me s).rmeta x.r).fe = .full) → ViewHolds s xs →
    ∃ t, exec i s = .next t ∧ OnlyMe s t ∧
      (taken = true → me t = { me s with pc := tgt, loops := loopsAt (me s) tgt }) ∧
      (taken = false → me t = { me s with pc := (me s).pc + BitVec.ofNat 64 i.len })) ∧
  ((∀ (s : State) (i : Instr) (d : Option (BitVec 6)) (x : BitVec 6) (wx : Bool) (l : Word), MayIssue i s →
    jumpRule (me s) i = some (d, x, wx, l) → ((me s).rmeta (gd x)).fe = .full → (∀ n, d = some n → Writable (me s) (gd n)) →
    ViewHolds s [srcG x wx 0] →
    ((gv (me s) x).getLsbD 0 = false → ∃ t, exec i s = .next t ∧ OnlyMe s t ∧ (me t).pc = gv (me s) x ∧ (me t).loops = (me s).loops ∧
      (∀ q, d.map gd ≠ some q → (me t).rmeta q = (me s).rmeta q ∧ (me t).regVal q = (me s).regVal q) ∧
      (∀ n, d = some n → n ≠ 0 → (me t).gr n.toNat = Reg.of l)) ∧
    ((gv (me s) x).getLsbD 0 = true → exec i s = .next (takeTrap s s.cur ⟨0x16, 0, gv (me s) x, 0⟩ false (me s).pc))) ∧
  (∀ (s : State) (disp : BitVec 24), MayIssue (.jal disp) s → Writable (me s) ⟨.g, 31⟩ →
    ∃ t, exec (.jal disp) s = .next t ∧ OnlyMe s t ∧ (me t).pc = (me s).pc + (disp.signExtend 64 + disp.signExtend 64) ∧
      (me t).gr 31 = Reg.of ((me s).pc + 4) ∧ (me t).loops = (me s).loops ∧
      ∀ q, q ≠ ⟨.g, 31⟩ → (me t).rmeta q = (me s).rmeta q ∧ (me t).regVal q = (me s).regVal q))

/-- R145: a counted loop with count 0 skips its body as a taken branch does; a count up to the maximum pushes a level while fewer than four are
held; LOOPW pushes without reading its condition; NOP only moves on.
R146, R148: the loop-back step of a counted level that stands alone at its end: a pass that remains goes back to the start, the last pass pops
the level; a conditional level goes back while its condition is not zero and passes remain, and at the maximum raises the loop bound fault with
the level popped. -/
def Obligations.LoopStack : Prop :=
  ((∀ (s : State) (i : Instr) (xs : List Src) (n : Word) (len max : Nat) (r : BitVec 6) (w : Bool), MayIssue i s →
    countedRule (me s) i = some (xs, n, len, max) → loopReg i = some (r, w) → (∀ x ∈ xs, ((me s).rmeta x.r).fe = .full) → ViewHolds s xs →
    let stop := (me s).pc + 4 + BitVec.ofNat 64 (2 * len)
    (n = 0 → ∃ t, exec i s = .next t ∧ OnlyMe s t ∧ me t = { me s with pc := stop, loops := loopsAt (me s) stop }) ∧
    (n ≠ 0 → n.toNat ≤ max → (me s).loops.length < 4 → ∃ t, exec i s = .next t ∧ OnlyMe s t ∧ me t = { me s with
      pc := (me s).pc + 4
      loops := ⟨(me s).pc + 4, stop, false, max, n.toNat, r, w, BitVec.ofNat 2 (me s).pl⟩ :: (me s).loops }) ∧
    (max < n.toNat → exec i s = .next (takeTrap s s.cur ⟨0x0B, 0, n, 0⟩ false (me s).pc)) ∧
    (n ≠ 0 → n.toNat ≤ max → 4 ≤ (me s).loops.length → exec i s = .next (takeTrap s s.cur ⟨0x0C, 0, (me s).pc + 4, 0⟩ false (me s).pc))) ∧
  (∀ (s : State) (r : BitVec 6) (w : Bool) (len : BitVec 8) (m : BitVec 5) (e : BitVec 4), MayIssue (.loopw r w len m e) s →
    (me s).loops.length < 4 → ∃ t, exec (.loopw r w len m e) s = .next t ∧ OnlyMe s t ∧ me t = { me s with
      pc := (me s).pc + 4
      loops := ⟨(me s).pc + 4, (me s).pc + 4 + BitVec.ofNat 64 (2 * len.toNat), true, (m.toNat + 1) * 2 ^ e.toNat, 0, r, w,
        BitVec.ofNat 2 (me s).pl⟩ :: (me s).loops }) ∧
  (∀ s : State, MayIssue .nop s → ∃ t, exec .nop s = .next t ∧ OnlyMe s t ∧ me t = { me s with pc := (me s).pc + 4 })) ∧
  (∀ (s : State) (c : Nat) (u : Level), let a := (s.ctx c).arch
    a.loops = [u] → u.stop = a.pc → u.pl.toNat = a.pl →
    (u.cond = false → 1 < u.p → ∃ t, exec (.loopBack c) s = .next t ∧
      (t.ctx c).arch = { a with pc := u.start, loops := [{ u with p := u.p - 1 }] }) ∧
    (u.cond = false → u.p ≤ 1 → ∃ t, exec (.loopBack c) s = .next t ∧ (t.ctx c).arch = { a with loops := [] }) ∧
    (u.cond = true → (a.rmeta (gd u.c)).fe = .full → (a.rmeta (gd u.c)).lab.isTop = true →
      (gv a u.c = 0 → ∃ t, exec (.loopBack c) s = .next t ∧ (t.ctx c).arch = { a with loops := [] }) ∧
      (gv a u.c ≠ 0 → u.p + 1 < u.max → ∃ t, exec (.loopBack c) s = .next t ∧
        (t.ctx c).arch = { a with pc := u.start, loops := [{ u with p := u.p + 1 }] }) ∧
      (gv a u.c ≠ 0 → u.max ≤ u.p + 1 → exec (.loopBack c) s =
        .next (takeTrap (s.modArch c fun a => { a with loops := [] }) c ⟨0x0A, 1, u.start, 0⟩ false a.pc))))

namespace Sys2Proof.Spec

/-- A control register as MFCR names it, for each register that the plain MTCR row writes. -/
def crOf : WCr → Cr
  | .tvec => .tvec
  | .tcause => .tcause
  | .tpc => .tpc
  | .tval => .tval
  | .view => .view
  | .htbase => .htbase
  | .param => .param
  | .cpsrc => .cpsrc
  | .cpdst => .cpdst
  | .cpshape => .cpshape
  | .cpstr0 => .cpstr0
  | .cpstr1 => .cpstr1
  | .cpbar => .cpbar
  | .cpfollow => .cpfollow
  | .part => .part
  | .shadowiv => .shadowiv

/-- The bits of a control register that R30 does not reserve. -/
def defined : WCr → Word
  | .tvec => 0x01FFFFFFFFFFFFFF
  | .tcause => 0x8000000000000FFF
  | .htbase => 0x01FFFFFFFFFFF000
  | .param => 0x81FFFFFFFFFFFFFF
  | .cpshape => 0x03FFFFFFFFFFFFFF
  | .cpbar => 0x1FFFFFF
  | .cpfollow => 0x1FFFFFFFF
  | .part => 0x3F
  | _ => BitVec.allOnes 64

/-- The value MFCR reads of the registers whose fields R27 and R30 give: identifiers, STATUS with the depth of the loop stack, the banked registers of the
privilege level, the usable scratchpad, and the context's own registers without the bits that are reserved. -/
def crFixed (s : State) : Cr → Option Word
  | .status => some ((me s).status &&& 0x1FFFFF ||| BitVec.ofNat 64 ((me s).loops.length % 8) <<< 21 ||| (me s).status &&& 0xFFFFFFFFFF000000)
  | .ctxid => some (BitVec.ofNat 64 s.cur)
  | .cellid => some (BitVec.ofNat 64 (cellOf s.cur + 1024 * (s.cell (cellOf s.cur)).phys))
  | .tvec => some (if (me s).pl = 3 then (me s).mon.tvec else (me s).sup.tvec)
  | .tcause => some (if (me s).pl = 3 then (me s).mon.tcause else (me s).sup.tcause)
  | .tpc => some (if (me s).pl = 3 then (me s).mon.tpc else (me s).sup.tpc)
  | .tval => some (if (me s).pl = 3 then (me s).mon.tval else (me s).sup.tval)
  | .view => some (me s).view
  | .space => some ((me s).space &&& 0x8000000000000FFF)
  | .param => some ((me s).param &&& defined .param)
  | .htbase => some ((me s).htbase &&& defined .htbase)
  | .lninfo => some (me s).lninfo
  | .ggr => some (me s).ggr
  | .cpsrc => some (me s).cpsrc
  | .cpdst => some (me s).cpdst
  | .cpshape => some (me s).cpshape
  | .cpstr0 => some (me s).cpstr0
  | .cpstr1 => some (me s).cpstr1
  | .cpbar => some (me s).cpbar
  | .cpfollow => some (me s).cpfollow
  | .slotinit => some (me s).slotinit
  | .spadsize => some (BitVec.ofNat 64 (min ((s.cell (cellOf s.cur)).banks * 0x10000) 0x100000))
  | .part => some (me s).part
  | .shadowiv => some (me s).shadowiv
  | _ => none

/-- The source of an MTCR can be read: full, and its label holds under VIEW (R75, R142). -/
def MtcrReads (s : State) (a : BitVec 6) : Prop := ((me s).rmeta (gd a)).fe = .full ∧ ViewHolds s [srcG a true 0]

end Sys2Proof.Spec

/-- R34: what taking a trap or an interrupt leaves. In a monitor handler the context halts with an error record; in another handler the trap is a
double trap at monitor level, whose TCAUSE has det 0 (the model's reading, log 57); otherwise the level is monitor from monitor level or for a TRAP with bit 11 set, and supervisor else. TPC is the
address given, or that of a deferred data error fault which has one of its own (R333).
R282: TRAP raises code 0x20 with TVAL its immediate and TPC its own address; from user level bit 11 of the immediate sends it to monitor level.
R283, R147: ERET restores PL from PPL, IE from PIE, clears TN and goes to the TPC of the level it is made at; the loop stack stays. A PPL of 2
or above the level is the privilege fault, an odd TPC the alignment fault. -/
def Obligations.TrapsAndReturns : Prop :=
  (∀ (s : State) (c : Nat) (t : Trap) (isInt : Bool) (pc : Word), let a := (s.ctx c).arch; let u := takeTrap s c t isInt pc
    let b := (u.ctx c).arch
    (a.tn = true → a.pl = 3 → (u.ctx c).run = .halted ∧ ∃ r ∈ u.recs, r.code = t.code ∧ r.src = BitVec.ofNat 14 c) ∧
    (¬(a.tn = true ∧ a.pl = 3) →
      let level := if a.tn = true ∨ a.pl = 3 ∨ (t.code = 0x20 ∧ t.tval.getLsbD 11 = true) then 3 else 1
      (b.bank level).tpc = trapPc (s.ctx c) t pc ∧ (b.bank level).tvec = (a.bank level).tvec ∧ b.pc = (a.bank level).tvec ∧
      (a.tn = true → (b.bank level).tval = t.code.setWidth 64 ∧
        (b.bank level).tcause = (if isInt then 1 <<< 63 else 0) ||| 0x3F) ∧
      (a.tn = false → (b.bank level).tval = t.tval ∧
        (b.bank level).tcause = (if isInt then 1 <<< 63 else 0) ||| t.det.setWidth 64 <<< 8 ||| t.code.setWidth 64) ∧
      b.pl = level ∧ b.ie = false ∧ b.tn = true ∧ fld b.status 6 2 = a.pl ∧ b.status.getLsbD 5 = a.ie ∧ b.rm = a.rm ∧ b.en = a.en ∧
      b.flg = a.flg ||| t.flags ∧ b = { a with pc := b.pc, status := b.status, sup := b.sup, mon := b.mon } ∧
      (level = 3 → b.sup = a.sup) ∧ (level = 1 → b.mon = a.mon) ∧ (∀ x, u.byte x = s.byte x) ∧ (∀ d, d ≠ c → u.ctx d = s.ctx d))) ∧
  ((∀ (s : State) (imm : BitVec 12), MayIssue (.trap imm) s →
    exec (.trap imm) s = .next (takeTrap s s.cur ⟨0x20, 0, imm.setWidth 64, 0⟩ false (me s).pc) ∧
    ((me s).tn = false → (me s).pl ≠ 3 → ∃ t, exec (.trap imm) s = .next t ∧
      (imm.getLsbD 11 = true → (me t).pl = 3 ∧ (me t).mon.tpc = (me s).pc ∧ (me t).pc = (me s).mon.tvec) ∧
      (imm.getLsbD 11 = false → (me t).pl = 1 ∧ (me t).sup.tpc = (me s).pc ∧ (me t).pc = (me s).sup.tvec))) ∧
  (∀ s : State, MayIssue .eret s → let p := (me s).pl; let ppl := fld (me s).status 6 2
    let t := if p = 3 then (me s).mon.tpc else (me s).sup.tpc
    (ppl = 2 ∨ p < ppl → exec .eret s = .next (takeTrap s s.cur ⟨3, 0, 0x000002FD, 0⟩ false (me s).pc)) ∧
    (ppl ≠ 2 → ppl ≤ p → t.getLsbD 0 = true → exec .eret s = .next (takeTrap s s.cur ⟨0x16, 0, t, 0⟩ false (me s).pc)) ∧
    (ppl ≠ 2 → ppl ≤ p → t.getLsbD 0 = false → ∃ u, exec .eret s = .next u ∧ OnlyMe s u ∧ (me u).pc = t ∧ (me u).pl = ppl ∧
      (me u).ie = (me s).status.getLsbD 5 ∧ (me u).tn = false ∧ fld (me u).status 6 2 = ppl ∧ (me u).flg = (me s).flg ∧
      me u = { me s with pc := (me u).pc, status := (me u).status })))

/-- R281, R27, R29, R30: MFCR fills its destination, under ⊤, with the register's value, of every control register; that of TSC is the time after the read, which
is later than before by a number of ticks, modulo 2^64, that the model leaves open (log 4). -/
def Obligations.ControlRead : Prop :=
  ∀ (s : State) (d : BitVec 6) (cr : Cr), MayIssue (.mfcr d cr) s → Writable (me s) (gd d) →
    ∃ t, exec (.mfcr d cr) s = .next t ∧ (me t).pc = (me s).pc + 4 ∧ (∀ x, t.byte x = s.byte x) ∧
      (d ≠ 0 → (∀ v, crFixed s cr = some v → (me t).gr d.toNat = Reg.of v) ∧ (cr ≠ .tsc → (me t).gr d.toNat = Reg.of (crValue s s.cur cr)) ∧
        (cr = .tsc → (me t).gr d.toNat = Reg.of t.tsc)) ∧
      (cr = .tsc → ∃ k : BitVec 32, t.tsc = s.tsc + k.setWidth 64) ∧ (cr ≠ .tsc → t.tsc = s.tsc) ∧
      (∀ q, q ≠ gd d → (me t).rmeta q = (me s).rmeta q ∧ (me t).regVal q = (me s).regVal q)

/-- R281, R30: MTCR of the plain row writes the register that it names (bit 0 of TVEC reads zero) and no other; a reserved bit set is the illegal
instruction fault and changes nothing else.
R30, R281: MTCR to STATUS keeps PL and LD; a user-level value that would change IE, PIE, PPL or TN is the privilege fault. -/
def Obligations.ControlWrite : Prop :=
  (∀ (s : State) (cr : WCr) (a : BitVec 6), MayIssue (.mtcr cr a) s → MtcrReads s a →
    (gv (me s) a &&& ~~~defined cr ≠ 0 →
      exec (.mtcr cr a) s = .next (takeTrap s s.cur ⟨1, 0, (Instr.mtcr cr a).image, 0⟩ false (me s).pc)) ∧
    (gv (me s) a &&& ~~~defined cr = 0 → ∃ t, exec (.mtcr cr a) s = .next t ∧ OnlyMe s t ∧ (me t).pc = (me s).pc + 4 ∧
      crValue t t.cur (crOf cr) = (if cr = .tvec then gv (me s) a &&& ~~~1 else gv (me s) a) ∧
      (∀ o, o ≠ crOf cr → crValue t t.cur o = crValue s s.cur o) ∧
      (∀ q, (me t).rmeta q = (me s).rmeta q ∧ (me t).regVal q = (me s).regVal q))) ∧
  (∀ (s : State) (a : BitVec 6), MayIssue (.mtcrStatus a) s → MtcrReads s a → let v := gv (me s) a
    v &&& 0xFFFFFFFFFF000000 = 0 →
    ((me s).pl = 0 → (v ^^^ (me s).status) &&& 0x1000F0 ≠ 0 →
      exec (.mtcrStatus a) s = .next (takeTrap s s.cur ⟨3, 0, (Instr.mtcrStatus a).image, 0⟩ false (me s).pc)) ∧
    (¬((me s).pl = 0 ∧ (v ^^^ (me s).status) &&& 0x1000F0 ≠ 0) → ∃ t, exec (.mtcrStatus a) s = .next t ∧ OnlyMe s t ∧
      me t = { me s with pc := (me s).pc + 4, status := (v &&& 0x1FFFFC) ||| ((me s).status &&& 3) }))

/-- R31, R263, R211: MTCR to SPACE refuses a selected space that the partition does not own, or that is not live (the model's choice, log 93); MTCR to SLOTINIT sets the counter of the receiver it
names; MTCR to TCFGn checks the configuration at once, and then clears the tile under ⊤. -/
def Obligations.SpecialWrites : Prop :=
  (∀ (s : State) (a : BitVec 6), MayIssue (.mtcrSpace a) s → MtcrReads s a → let v := gv (me s) a
    v &&& 0x7FFFFFFFFFFFF000 = 0 →
    let owned := (s.space (v.setWidth 12)).live = true ∧ (s.space (v.setWidth 12)).owner.toNat = (me s).partition
    (v.getLsbD 63 = true → ¬owned → exec (.mtcrSpace a) s = .next (takeTrap s s.cur ⟨8, 0, v &&& 0xFFF, 0⟩ false (me s).pc)) ∧
    (v.getLsbD 63 = false ∨ owned → ∃ t, exec (.mtcrSpace a) s = .next t ∧ OnlyMe s t ∧
      me t = { me s with pc := (me s).pc + 4, space := v })) ∧
  (∀ (s : State) (a : BitVec 6), MayIssue (.mtcrSlotinit a) s → MtcrReads s a → let v := gv (me s) a
    v &&& 0xFFFFFFFFFFFF00F0 = 0 → ∃ t, exec (.mtcrSlotinit a) s = .next t ∧
      me t = { me s with pc := (me s).pc + 4, slotinit := v } ∧
      ∀ k, Tab.get (t.cell (cellOf s.cur)).slots k 0 =
        if k = (v.setWidth 4).toNat then v.extractLsb' 8 8 else Tab.get (s.cell (cellOf s.cur)).slots k 0) ∧
  (∀ (s : State) (n : BitVec 4) (a : BitVec 6), MayIssue (.mtcrTcfg n a) s → MtcrReads s a → let v := gv (me s) a
    v &&& 0xFFFFFFFFFFFFC000 = 0 → let fmt := (v.setWidth 6).toNat
    let size := if fmt = 2 ∨ fmt = 0xE then 4 else if fmt = 3 ∨ fmt = 4 then 2 else 1
    let ok := fmt ∈ [2, 3, 4, 5, 6, 0xA, 0xB, 0xE] ∧ ((v.extractLsb' 6 4).toNat + 1) * ((v.extractLsb' 10 4).toNat + 1) * size ≤ 1024
    (¬ok → exec (.mtcrTcfg n a) s = .next (takeTrap s s.cur ⟨0x1C, 0, v, 0⟩ false (me s).pc)) ∧
    (ok → ((me s).kr n.toNat).fe = .empty → exec (.mtcrTcfg n a) s = .next s) ∧
    (ok → ((me s).kr n.toNat).fe ≠ .empty → ∃ t, exec (.mtcrTcfg n a) s = .next t ∧ OnlyMe s t ∧ tcfg (me t) n.toNat = v ∧
      (me t).kr n.toNat = Reg.of [] ∧ ∀ m, m ≠ n.toNat → tcfg (me t) m = tcfg (me s) m ∧ (me t).kr m = (me s).kr m))

/-- R285: REPART from another context than 0 gives 2, to the mode the cell has 3, in a cell that is not quiescent 1, and changes the mode of a
quiescent one with status 0, the v registers of the smaller allotment kept.
R286: after TLBINV no cache it names holds a translation of the partition for the page; after HINVAL the cell's handle cache holds none of the
entries it names; ROUTESET writes one entry of the cell's route cache, and ROUTEINV removes one or all. -/
def Obligations.CellInstructions : Prop :=
  (∀ (s : State) (a : BitVec 6) (m : CtxMode), MayIssue (.repart a m) s → Writable (me s) (gd a) → a ≠ 0 →
    ∃ t, exec (.repart a m) s = .next t ∧ (me t).pc = (me s).pc + 4 ∧
      (s.cur % 16 ≠ 0 → (me t).gr a.toNat = Reg.of 2 ∧ (t.cell (cellOf s.cur)).mode = (s.cell (cellOf s.cur)).mode) ∧
      (s.cur % 16 = 0 → (s.cell (cellOf s.cur)).mode = m → (me t).gr a.toNat = Reg.of 3) ∧
      (s.cur % 16 = 0 → (s.cell (cellOf s.cur)).mode ≠ m →
        (quiescent s (cellOf s.cur) s.cur = false → (me t).gr a.toNat = Reg.of 1 ∧
          (t.cell (cellOf s.cur)).mode = (s.cell (cellOf s.cur)).mode) ∧
        (quiescent s (cellOf s.cur) s.cur = true → (me t).gr a.toNat = Reg.of 0 ∧ (t.cell (cellOf s.cur)).mode = m ∧
          (me t).q = (me s).q ∧ (me t).x = (me s).x ∧ (me t).loops = (me s).loops ∧
          ∀ n, n < min (allotment (s.cell (cellOf s.cur)).mode .v) (allotment m .v) → (me t).vr n = (me s).vr n))) ∧
  (∀ (s : State) (a : BitVec 6), let r := (me s).rmeta (gd a); let v := gv (me s) a; let n := cellOf s.cur
    (∀ area, MayIssue (.tlbinv a area) s → r.fe = .full → ∃ t, exec (.tlbinv a area) s = .next t ∧ (me t).pc = (me s).pc + 4 ∧
      (∀ x, t.byte x = s.byte x) ∧ tlbFind (t.cell n).tlb (BitVec.ofNat 6 (me s).partition) (v.toNat % 2 ^ 57) = none ∧
      (area ≠ .pageCell → ∀ k, tlbFind (t.cell k).tlb (BitVec.ofNat 6 (me s).partition) (v.toNat % 2 ^ 57) = none ∧
        tlbFind (t.col k).tlb (BitVec.ofNat 6 (me s).partition) (v.toNat % 2 ^ 57) = none)) ∧
    (∀ all, MayIssue (.hinval a all) s → r.fe = .full → ∃ t, exec (.hinval a all) s = .next t ∧ (me t).pc = (me s).pc + 4 ∧
      (∀ x, t.byte x = s.byte x) ∧ Tab.get? (t.cell n).hcache (v.setWidth 14).toNat = none ∧ (all = true → (t.cell n).hcache = []) ∧
      ∀ k, k ≠ n → t.cell k = s.cell k) ∧
    (∀ idx, MayIssue (.routeset a idx) s → r.fe = .full → ∃ t, exec (.routeset a idx) s = .next t ∧ (me t).pc = (me s).pc + 4 ∧
      (∀ k, Tab.get? (t.cell n).routes k = if k = idx.toNat then some v else Tab.get? (s.cell n).routes k) ∧
      ∀ k, k ≠ n → t.cell k = s.cell k) ∧
    (∀ idx all, MayIssue (.routeinv idx all) s → ∃ t, exec (.routeinv idx all) s = .next t ∧ (me t).pc = (me s).pc + 4 ∧
      (all = true → (t.cell n).routes = []) ∧
      (all = false → ∀ k, Tab.get? (t.cell n).routes k = if k = idx.toNat then none else Tab.get? (s.cell n).routes k) ∧
      ∀ k, k ≠ n → t.cell k = s.cell k))

/-- R8, R9, R36: with nothing on the agenda and one busy cell, a step moves the cell on to its next slot and runs, for the context that owns the
slot, the instruction at its program counter, in the state after its fetch; then time passes. A slot whose owner cannot issue idles; one whose owner has a committed
instruction to issue again after a restore (R433) issues that. That the agenda and the units' own steps go first, and that time passes with the step, is the model's choice
(logs 1 and 4). -/
def Obligations.StepRunsDecoded : Prop :=
  ∀ (s : State) (n : Nat), s.agenda = [] → pending s = [] → busyCells s = [n] →
    let c := 16 * n + (s.cell n).slot % (s.cell n).mode.contexts
    let u : State := { s.modCell n (fun k => { k with slot := (k.slot + 1) % 16 }) with cur := c }
    ((u.ctx c).run ≠ .running → step s = elapse (.next u)) ∧
    ((u.ctx c).run = .running → (u.ctx c).again ≠ [] → step s = elapse (.next (issueAgain u c))) ∧
    (∀ (w : Nat) (t : State) (i : Instr), (u.ctx c).run = .running → (u.ctx c).again = [] → (u.ctx c).hold = none →
      (∀ d ∈ (u.ctx c).deferred, d.reg ≠ none) → pendingIrq (u.ctx c) = none → autoPointDue u c = false → (u.ctx c).arch.loops = [] →
      fetchWord u c = .ok (w, t) → decode w = .ok i → step s = elapse (exec i t))

/-- R71, R72, R335: a context with an empty fetch buffer, whose program counter lies on a translated executable page of memory without errors that the
cell reaches, and whose line the instruction cache does not hold, fetches the four bytes there, little-endian, when they lie in one line and begin a 32-bit
instruction, and the two bytes of a compact one; fetching changes no register and no byte of memory. -/
def Obligations.FetchReadsMemory : Prop :=
  ∀ (s : State) (c : Nat) (e : TlbEntry), let va := (s.ctx c).arch.pc.toNat % 2 ^ 57; let pa := physOf e va
    (s.ctx c).fbuf = [] → tlbFind (s.cell (cellOf c)).tlb (BitVec.ofNat 6 (s.ctx c).arch.partition) va = some e →
    tlbFind (s.cell (cellOf c)).tlb (BitVec.ofNat 6 (s.ctx c).arch.partition) ((va + 2) % 2 ^ 57) = some e → va + 2 < 2 ^ 57 → pteExec e.pte = true →
    noMemory pa = false → noMemory (pa + 2) = false → s.isBad pa = false → ctxReaches s c pa = true → NoRings s → Tab.get? (s.cell (cellOf c)).icache (pa / 64) = none →
    pa % 64 ≤ 60 →
    ∃ w t, fetchWord s c = .ok (w, t) ∧ w = (if s.num pa 2 % 2 = 0 then s.num pa 2 else s.num pa 4) ∧
      (t.ctx c).arch = (s.ctx c).arch ∧ (∀ x, t.byte x = s.byte x)

namespace Sys2Proof.Spec

/-- The effective reference of R151: the displacement times the access size is added to the 40-bit offset, which wraps. -/
def effective (r : Word) (disp : BitVec 5) (size : Nat) : Word :=
  r.extractLsb' 40 24 ++ (r.extractLsb' 0 40 + disp.signExtend 40 * BitVec.ofNat 40 size)

/-- What a scalar load is: destination, reference register with its wait bit, effective reference, size, whether it sign-extends, its hint, and the
scope of its acquire (R150, R158 to R160, R79). -/
structure LoadForm where
  dst : RegId
  src : Src
  ref : Word
  size : Nat
  signed : Bool
  hint : Hint
  acq : Option Scope
deriving DecidableEq, Repr

/-- The forms of the scalar loads. -/
def loadForm (a : Arch) : Instr → Option LoadForm
  | .ld d x w sz h o => some ⟨gd d, srcG x w 0, effective (gv a x) o sz.bytes, sz.bytes, sz.signed, h, none⟩
  | .lda d x w sc h o => some ⟨gd d, srcG x w 0, effective (gv a x) o 8, 8, false, h, some sc⟩
  | .xld d x w h o => some ⟨⟨.x, d.toNat⟩, srcG x w 0, effective (gv a x) o 8, 8, false, h, none⟩
  | .cLd d x o => some ⟨gd (cr4 d), srcG (cr4 x) true 0, effective (gv a (cr4 x)) (o.setWidth 5) 8, 8, false, .dflt, none⟩
  | _ => none

/-- What a scalar store is: sources (reference, data), effective reference, size, hint, and the scope of its release (R158 to R160, R79). -/
structure StoreForm where
  srcs : List Src
  ref : Word
  data : Word
  size : Nat
  hint : Hint
  rel : Option Scope
deriving DecidableEq, Repr

/-- The forms of the scalar stores. -/
def storeForm (a : Arch) : Instr → Option StoreForm
  | .st d x wa wd sz h o => some ⟨[srcG x wa 0, srcG d wd 2], effective (gv a x) o sz.bytes, gv a d, sz.bytes, h, none⟩
  | .str d x wa wd sc h o => some ⟨[srcG x wa 0, srcG d wd 2], effective (gv a x) o 8, gv a d, 8, h, some sc⟩
  | .cSt d x o => some ⟨[srcG (cr4 x) true 0, srcG (cr4 d) true 2], effective (gv a (cr4 x)) (o.setWidth 5) 8, gv a (cr4 d), 8, .dflt, none⟩
  | _ => none

/-- Nothing of the context is on its way: no operation in flight, no store in the buffer or on its way, no SC or SCREL, no barrier update, no deferred
fault. -/
def Settled (s : State) : Prop :=
  (s.ctx s.cur).pend = [] ∧ (s.ctx s.cur).wcb = [] ∧ (s.ctx s.cur).deferred = [] ∧ (∀ x ∈ s.stores, x.c ≠ s.cur) ∧
    (∀ r ∈ s.barReqs, r.c ≠ s.cur) ∧ ∀ p ∈ s.passes, p.c ≠ s.cur

/-- None of these accesses lies on a race-detect page. -/
def NoRace (accs : List Acc) : Prop := ∀ a ∈ accs, a.rdet = none

/-- No register but `d` changed its value, state or label from `a` to `b`. -/
def RegsBut (a b : Arch) (d : RegId) : Prop := ∀ q, q ≠ d → b.rmeta q = a.rmeta q ∧ b.regVal q = a.regVal q
/-- No register changed. -/
def SameRegs (a b : Arch) : Prop := ∀ q, b.rmeta q = a.rmeta q ∧ b.regVal q = a.regVal q

/-- The last operation in flight of the current context, with those before it as they were. -/
def Launched (s t : State) (p : Pend) : Prop := (t.ctx s.cur).pend = (s.ctx s.cur).pend ++ [p]

/-- The word requests of R173 and R179: kind, destination, reference register, effective reference, scope, hint. -/
def wordForm (a : Arch) : Instr → Option (ReqKind × RegId × Src × Word × Scope × Hint)
  | .lds d x w sc h o => some (.lds, gd d, srcG x w 0, effective (gv a x) o 8, sc, h)
  | .take d x w sc h o => some (.take, gd d, srcG x w 0, effective (gv a x) o 8, sc, h)
  | .lrw d x w sc h o => some (.lrw, gd d, srcG x w 0, effective (gv a x) o 8, sc, h)
  | _ => none

/-- The vector loads: destination, mask register, sources, and, for the lanes of a lane size, the address phase of the access (R164, R166, R167). -/
def lanesOf (a : Arch) : Instr → Option (RegId × List Src × Nat × List (Nat × Word) × Hint)
  | .vlds d x w xn h o =>
    let e := elemSize (refFmt (gv a x))
    some (⟨.v, d.toNat⟩, [srcG x w 0, srcF .v d.toNat 2, srcF .x xn.toNat 3, srcF .q 0 4], e,
      ((List.range (64 / e)).filter fun i => (a.qr 0).val.getLsbD i).map fun i =>
        (i, effective (gv a x) o e &&& 0xFFFFFF0000000000 ||| (((effective (gv a x) o e).extractLsb' 0 40 +
          BitVec.ofNat 40 i * (a.xr xn.toNat).val.extractLsb' 0 40).setWidth 64)), h)
  | .vgath d x y wx wy qn wide =>
    let e := elemSize (refFmt (gv a x))
    some (⟨.v, d.toNat⟩, [srcG x wx 0, srcF .v y.toNat 1 wy, srcF .v d.toNat 2, srcF .q qn.toNat 3], e,
      ((List.range (64 / max e (if wide then 8 else 4))).filter fun i => (a.qr qn.toNat).val.getLsbD i).map fun i =>
        (i, gv a x &&& 0xFFFFFF0000000000 ||| (((gv a x).extractLsb' 0 40 + (if wide then ((a.vr y.toNat).val.extractLsb' (64 * i) 64).setWidth 40
          else ((a.vr y.toNat).val.extractLsb' (32 * i) 32).signExtend 40) * BitVec.ofNat 40 e).setWidth 64)), .dflt)
  | _ => none

end Sys2Proof.Spec

/-- R159, R160, R150, R79: a scalar load whose address phase passes marks its destination empty at issue and leaves for its data; no other register
changes and no byte of memory that no race record touches.
R161: LDP checks the window offset: PARAM.b, the bound, the alignment, TVAL being the offset in each; then it reads the window and leaves for its
data. -/
def Obligations.LoadLeaves : Prop :=
  (∀ (s : State) (i : Instr) (f : LoadForm) (accs : List Acc), MayIssue i s → loadForm (me s) i = some f → memGate s s.cur = .ok () →
    Writable (me s) f.dst → Readable (me s) [f.src] →
    loadPhase s s.cur f.ref f.size f.size (wantLoad f.hint) [((me s).rmeta f.src.r).lab] = .ok accs →
    ∃ t, exec i s = .next t ∧ (me t).pc = (me s).pc + BitVec.ofNat 64 i.len ∧
      Launched s t (.load f.dst accs (.scalar f.size f.signed) [((me s).rmeta f.src.r).lab] f.acq (me s).pc ((me s).rmeta f.dst)) ∧
      (f.dst ≠ ⟨.g, 0⟩ → ((me t).rmeta f.dst).fe = .empty) ∧ RegsBut (me s) (me t) f.dst ∧
      (NoRace accs → NoRings s → (f.acq = none ∨ (s.ctx s.cur).wcb = []) → ∀ x, t.byte x = s.byte x)) ∧
  (∀ (s : State) (d x : BitVec 6) (w : Bool) (sz : MemSize) (o : BitVec 5) (accs : List Acc), let i := Instr.ldp d x w sz o
    let off := gv (me s) x + o.signExtend 64 * BitVec.ofNat 64 sz.bytes
    MayIssue i s → memGate s s.cur = .ok () → Writable (me s) (gd d) → Readable (me s) [srcG x w 0] →
    ((me s).param.getLsbD 63 = false → exec i s = .next (takeTrap s s.cur ⟨0x0E, 0, off, 0⟩ false (me s).pc)) ∧
    ((me s).param.getLsbD 63 = true → ((me s).param.setWidth 12).toNat < off.toNat + sz.bytes - 1 →
      exec i s = .next (takeTrap s s.cur ⟨0x0D, 0, off, 0⟩ false (me s).pc)) ∧
    ((me s).param.getLsbD 63 = true → off.toNat + sz.bytes - 1 ≤ ((me s).param.setWidth 12).toNat → off.toNat % sz.bytes ≠ 0 →
      exec i s = .next (takeTrap s s.cur ⟨0x16, 0, off, 0⟩ false (me s).pc)) ∧
    ((me s).param.getLsbD 63 = true → off.toNat + sz.bytes - 1 ≤ ((me s).param.setWidth 12).toNat → off.toNat % sz.bytes = 0 →
      paramWindow s s.cur off.toNat sz.bytes off = .ok accs →
      ∃ t, exec i s = .next t ∧ (∀ x, t.byte x = s.byte x) ∧ (∀ c, c ≠ s.cur → t.ctx c = s.ctx c) ∧ (me t).pc = (me s).pc + 4 ∧
        Launched s t (.load (gd d) accs (.scalar sz.bytes sz.signed) [((me s).rmeta (gd x)).lab] none (me s).pc ((me s).rmeta (gd d))) ∧
        RegsBut (me s) (me t) (gd d)))

/-- R159, R160, R79, R307: a scalar store whose address phase passes, of a context with nothing else on its way, changes no register and no byte of
memory at issue: its bytes stand in the write-combining buffer, or are on their way to their home, where STR always sends them. The accesses
are those the address phase computes from the effective reference. -/
def Obligations.StoreLeaves : Prop :=
  ∀ (s : State) (i : Instr) (f : StoreForm) (acc : Acc) (l : Label), MayIssue i s → NoRings s → storeForm (me s) i = some f → memGate s s.cur = .ok () →
    Readable (me s) f.srcs → Settled s → releaseHeld s s.cur = false → (∀ k, (s.cell k).l1 = []) → acc.size = f.size →
    storePhase s s.cur f.ref f.size f.size (wantStore f.hint) (srcLabels (me s) f.srcs) = .ok ([acc], l) → acc.rdet = none →
    acc.addr / 64 = (acc.addr + acc.size - 1) / 64 → 0 < acc.size →
    ∃ t, exec i s = .next t ∧ (me t).pc = (me s).pc + BitVec.ofNat 64 i.len ∧ SameRegs (me s) (me t) ∧ (∀ x, t.byte x = s.byte x) ∧
      (∀ k, k < f.size → loadByte t s.cur acc k = BitVec.ofNat 8 (f.data.toNat / 256 ^ k)) ∧
      (f.rel ≠ none → (t.ctx s.cur).wcb = [] ∧ ∃ st, t.stores = s.stores ++ [st] ∧ st.acc = acc ∧ st.kind = .sync) ∧
      (f.rel = none → acc.addr < Config.spadBase → acc.cache ≠ 2 → t.stores = s.stores ∧ (t.ctx s.cur).wcb.length = 1) ∧
      (f.rel = none → Config.spadBase ≤ acc.addr ∨ acc.cache = 2 → (t.ctx s.cur).wcb = [] ∧ ∃ st, t.stores = s.stores ++ [st] ∧ st.acc = acc ∧ st.kind = .plain)

/-- R156, R157, R159, R329: the data of a load of one aligned scratchpad access, which no L1 holds, returns: with nothing of the context before it, the destination fills with
the bytes its home holds, extended, under the product of the reference's label; an uncorrectable word leaves the destination as it was and
defers the data error fault, whose TVAL is the reference that the access gave (the model's choice for scratchpad, which has no virtual address: log 107).
R160, R307, R343: a store of bytes on its way, plain or of a release, to scratchpad or to device or host memory that it reaches, arrives when no earlier one of its
context to that home is still on its way, and no line that it writes is uncorrectable: the memory holds its bytes and its label words, and no other byte
changes. -/
def Obligations.MemoryAnswers : Prop :=
  (∀ (s : State) (c : Nat) (d n size : Nat) (signed : Bool) (ref : Word) (l : Label) (pc : Word) (old : Reg Unit),
    let acc := spadAcc ref (spadAddr (cellOf c) n) size
    let load := Pend.load ⟨.g, d⟩ [acc] (.scalar size signed) [l] none pc old
    (s.ctx c).pend = [load] → (s.ctx c).wcb = [] → (∀ x ∈ s.stores, x.c ≠ c) → (∀ r ∈ s.barReqs, r.c ≠ c) → (∀ p ∈ s.passes, p.c ≠ c) →
    (∀ x ∈ (s.cell (cellOf c)).l1, x.line ≠ acc.addr / 64) → d ≠ 0 → (l = .top ∨ l = .bot) → n < 0x100000 → 0 < size → n % 8 + size ≤ 8 → reachesHome s acc.addr = true →
    (s.isBad acc.addr = false → acc.addr < Config.peerBase → ∃ t, exec (.loadDataReturn c 0) s = .next t ∧ (t.ctx c).pend = [] ∧
      ((t.ctx c).arch.gr d) = ⟨(if signed then (BitVec.ofNat (8 * size) (s.num acc.addr size)).signExtend 64
        else BitVec.ofNat 64 (s.num acc.addr size)), .full, l, 0, 0, false, false⟩ ∧ ∀ x, t.byte x = s.byte x) ∧
    (s.isBad acc.addr = true → acc.addr < Config.peerBase → ∃ t, exec (.loadDataReturn c 0) s = .next t ∧
      ((t.ctx c).arch.gr d).val = ((s.ctx c).arch.gr d).val ∧ ((t.ctx c).arch.rmeta ⟨.g, d⟩) = old ∧
      (t.ctx c).deferred = (s.ctx c).deferred ++ [⟨⟨0x18, 0, ref, 0⟩, some ⟨.g, d⟩, none⟩])) ∧
  (∀ (s : State) (n : Nat) (st : HomeStore), s.stores[n]? = some st → storeBehind s n st = false →
    ctxReaches s st.c st.acc.addr = true → st.acc.addr < Config.peerBase → st.kind = .plain ∨ st.kind = .sync → NoRings s →
    let whole (a : Nat) : Prop := a < Config.peerBase ∧ s.isBad a = false ∧ (a < Config.spadBase → a / 64 ∉ s.bad)
    let under (x : Nat) (q : Nat × BitVec 32) : Prop := q.1 ≤ x ∧ x < q.1 + 4
    st.bytes ≠ [] → (∀ p ∈ st.bytes, whole p.1) → (∀ q ∈ st.labs, whole q.1) → st.bytes.Pairwise (fun p q => p.1 ≠ q.1) →
    st.labs.Pairwise (fun p q => p.1 + 4 ≤ q.1 ∨ q.1 + 4 ≤ p.1) →
    ∃ t, exec (.storeArrivalAtHome n) s = .next t ∧ t.stores = takeOut n s.stores ∧
      (∀ p ∈ st.bytes, (∀ q ∈ st.labs, ¬ under p.1 q) → t.byte p.1 = p.2) ∧
      (∀ q ∈ st.labs, ∀ k, k < 4 → t.byte (q.1 + k) = BitVec.ofNat 8 (q.2.toNat / 256 ^ k)) ∧
      ∀ x, (∀ p ∈ st.bytes, p.1 ≠ x) → (∀ q ∈ st.labs, ¬ under x q) → t.byte x = s.byte x)

/-- R164, R166, R167, R163: VLDS and VGATH check every lane that their mask enables, in ascending order, each at its own reference, and leave for
their data with the labels of every source; memory and every other register stay.
R164: LDV of all lanes leaves for its 64 bytes; under a mask that selects no lane it makes the handle, format and alignment checks alone and moves
no data. -/
def Obligations.VectorLoadsLeave : Prop :=
  (∀ (s : State) (i : Instr) (d : RegId) (xs : List Src) (e : Nat) (refs : List (Nat × Word)) (h : Hint) (accs : List (List Acc)),
    MayIssue i s → lanesOf (me s) i = some (d, xs, e, refs, h) → memGate s s.cur = .ok () → Writable (me s) d → Readable (me s) xs →
    refs.mapM (fun p => loadPhase s s.cur p.2 e e (wantLoad h) (srcLabels (me s) xs)) = .ok accs → (∀ a ∈ accs.flatten, a.lab = none ∧ a.rdet = none) → NoRings s →
    ∃ t, exec i s = .next t ∧ (me t).pc = (me s).pc + 4 ∧ ((me t).rmeta d).fe = .empty ∧ RegsBut (me s) (me t) d ∧ (∀ x, t.byte x = s.byte x) ∧
      Launched s t (.load d accs.flatten (.lanes (refs.map fun p => (p.1 * e, e))) (srcLabels (me s) xs) none (me s).pc ((me s).rmeta d))) ∧
  (∀ (s : State) (d x : BitVec 6) (w : Bool) (h : Hint) (o : BitVec 5),
    let ref := effective (gv (me s) x) o 64
    blockFmt (refFmt (gv (me s) x)) = false → memGate s s.cur = .ok () → Writable (me s) ⟨.v, d.toNat⟩ → NoRings s →
    (∀ (e : HEntry) (accs : List Acc), MayIssue (.ldv d x w false h o) s → Readable (me s) [srcG x w 0] →
      readRef s s.cur ref 64 64 ⟨false, true, false, true, h.code⟩ = .ok e → locate s s.cur ref (refOff ref) 64 ⟨false, true, false, true, h.code⟩ e = .ok accs →
      (∀ a ∈ accs, a.lab = none ∧ a.rdet = none) →
      ∃ t, exec (.ldv d x w false h o) s = .next t ∧ (me t).pc = (me s).pc + 4 ∧ ((me t).rmeta ⟨.v, d.toNat⟩).fe = .empty ∧
        RegsBut (me s) (me t) ⟨.v, d.toNat⟩ ∧ (∀ y, t.byte y = s.byte y) ∧
        Launched s t (.load ⟨.v, d.toNat⟩ accs (.lanes (lanePlaces (placeFrom 0 accs))) [((me s).rmeta (gd x)).lab] none (me s).pc ((me s).rmeta ⟨.v, d.toNat⟩))) ∧
    (MayIssue (.ldv d x w true h o) s → Readable (me s) [srcG x w 0, srcF .v d.toNat 2, srcF .q 0 3] → ((me s).qr 0).val = 0 →
      ∀ e : HEntry, readRefParts s s.cur ref [] 64 ⟨false, true, false, true, h.code⟩ = .ok e →
      ∃ t, exec (.ldv d x w true h o) s = .next t ∧ (∀ y, t.byte y = s.byte y) ∧
        Launched s t (.load ⟨.v, d.toNat⟩ [] (.lanes []) (srcLabels (me s) [srcG x w 0, srcF .v d.toNat 2, srcF .q 0 3]) none (me s).pc
          ((me s).rmeta ⟨.v, d.toNat⟩))))

namespace Sys2Proof.Spec

/-- No cell holds a line in its L1, and the shared cache lists no line. -/
def CachesEmpty (s : State) : Prop := (∀ k, (s.cell k).l1 = []) ∧ s.l2 = []

/-- The issue of an instruction that touches memory: it may issue, no earlier memory instruction holds it back, and its sources can be read. -/
def MemReady (i : Instr) (s : State) (xs : List Src) : Prop :=
  MayIssue i s ∧ memGate s s.cur = .ok () ∧ Readable (me s) xs

/-- The address phase of an instruction that names a line (R190, R193): a read of one byte that yields this access. -/
def LineAt (s : State) (a : BitVec 6) (w : Bool) (hint : Nat) (o : BitVec 5) (x : Acc) : Prop :=
  loadPhase s s.cur (effective (gv (me s) a) o 64) 1 1 ⟨false, false, false, false, hint⟩ (srcLabels (me s) [srcG a w 0]) = .ok [x] ∧ x.rdet = none

/-- The program counter moved on and no register changed. -/
def Passed (i : Instr) (s t : State) : Prop := (me t).pc = (me s).pc + BitVec.ofNat 64 i.len ∧ SameRegs (me s) (me t)

end Sys2Proof.Spec

/-- R164, R168: STV and VSCAT change no register and, at issue, no byte of memory; read back, each enabled lane's bytes are those of vd, and a byte of no
enabled lane is what it was. Of VSCAT's lanes, which go to their home in ascending order, every one has passed its address phase
first. The accesses are those that the address phase computes. -/
def Obligations.VectorStoresLeave : Prop :=
  (∀ (s : State) (d x : BitVec 6) (wx wd masked : Bool) (h : Hint) (o : BitVec 5) (ps : List Placed),
    let i := Instr.stv d x wx wd masked h o; let ref := effective (gv (me s) x) o 64
    let accs := ps.map (·.2)
    MemReady i s ([srcG x wx 0, srcF .v d.toNat 2 wd] ++ if masked then [srcF .q 0 3] else []) → Settled s → CachesEmpty s →
    vecAccess s s.cur ref (wantStore h) masked ((me s).qr 0).val = .ok ps → (∀ a ∈ accs, a.lab = none ∧ a.rdet = none ∧ a.addr + a.size ≤ Config.peerBase ∧ 0 < a.size ∧
      a.addr / 64 = (a.addr + a.size - 1) / 64) →
    (∀ l ∈ srcLabels (me s) [srcG x wx 0, srcF .v d.toNat 2 wd], l.isTop = true) → accs.Pairwise (fun a b => overlaps a b = false) →
    (accs.map (·.addr / 64)).eraseDups.length ≤ 4 →
    ∃ t, exec i s = .next t ∧ Passed i s t ∧ (∀ y, t.byte y = s.byte y) ∧
      (∀ p ∈ ps, ∀ j, j < p.2.size → (masked = true → ((me s).qr 0).val.getLsbD ((p.1 + j) / elemSize (refFmt ref)) = true) ∧
        loadByte t s.cur p.2 j = ((me s).vr d.toNat).val.extractLsb' (8 * (p.1 + j)) 8) ∧
      ∀ (b : Acc) (j : Nat), (∀ a ∈ accs, b.addr + j < a.addr ∨ a.addr + a.size ≤ b.addr + j) → loadByte t s.cur b j = loadByte s s.cur b j) ∧
  (∀ (s : State) (d x y : BitVec 6) (wx wy : Bool) (qn : BitVec 3) (wide : Bool) (v : RegId) (xs : List Src) (e : Nat) (refs : List (Nat × Word))
    (hint : Hint) (accs : List Acc), let i := Instr.vscat d x y wx wy qn wide
    lanesOf (me s) (.vgath d x y wx wy qn wide) = some (v, xs, e, refs, hint) → MemReady i s xs → Settled s → (∀ k, (s.cell k).l1 = []) → NoRings s →
    refs.mapM (fun p => storePhase s s.cur p.2 e e (wantStore hint) (srcLabels (me s) (xs.take 3))) = .ok (accs.map fun a => ([a], Label.top)) →
    (∀ a ∈ accs, a.size = e ∧ a.lab = none ∧ a.rdet = none ∧ (Config.spadBase ≤ a.addr ∨ a.cache = 2)) →
    ∃ t, exec i s = .next t ∧ Passed i s t ∧ (∀ b, t.byte b = s.byte b) ∧
      t.stores = s.stores ++ (refs.zip accs).map fun p => ⟨s.cur, .plain, p.2, (List.range e).map fun k =>
        (p.2.addr + k, ((me s).vr d.toNat).val.extractLsb' (8 * (p.1.1 * e + k)) 8), [], 0, (s.ctx s.cur).seq⟩)

/-- R169, R190 to R193, R306, R482: the instructions that name a line. PREF never faults: a check that would fault cancels it, and so does a peer cell without
power. After DCLEAN the home
holds every dirty byte of the line and the cell's copy is clean; after DINVAL the cell holds no copy; ICINVAL removes the line, or all lines,
from the instruction cache; FETCHB empties the fetch buffer; CPIN pins and unpins the line in L2, and a refused pin leaves a record of the line's physical address. Each completes under the conditions given, which are on the state and
the operands alone. -/
def Obligations.LineInstructions : Prop :=
  (∀ (s : State) (a : BitVec 6) (w l2 : Bool) (h : Hint) (o : BitVec 5), let i := Instr.pref a w l2 h o
    MemReady i s [srcG a w 0] → CachesEmpty s →
    (∀ t, loadPhase s s.cur (effective (gv (me s) a) o 64) 1 1 ⟨false, false, false, false, h.code⟩ (srcLabels (me s) [srcG a w 0]) = .error (.trap t) →
      ∃ u, exec i s = .next u ∧ Passed i s u ∧ OnlyMe s u) ∧
    (∀ r, loadPhase s s.cur (effective (gv (me s) a) o 64) 1 1 ⟨false, false, false, false, h.code⟩ (srcLabels (me s) [srcG a w 0]) = .error (.wait (.dark r)) →
      ∃ u, exec i s = .next u ∧ Passed i s u ∧ OnlyMe s u) ∧
    (∀ x, loadPhase s s.cur (effective (gv (me s) a) o 64) 1 1 ⟨false, false, false, false, h.code⟩ (srcLabels (me s) [srcG a w 0]) = .ok [x] →
      ∃ u, exec i s = .next u ∧ Passed i s u ∧ ∀ x, u.byte x = s.byte x)) ∧
  (∀ (s : State) (i : Instr) (a : BitVec 6) (w drop : Bool) (h : Hint) (o : BitVec 5) (x : Acc),
    i = (if drop then .dinval a w h o else .dclean a w h o) → MemReady i s [srcG a w 0] → LineAt s a w h.code o x →
    (s.ctx s.cur).wcb = [] → s.l2 = [] → x.addr < Config.spadBase → s.isBad x.addr = false →
    ∃ t, exec i s = .next t ∧ Passed i s t ∧
      (∀ y, l1Find (s.cell (cellOf s.cur)) (x.addr / 64) = some y → y.lost = false → y.labs = [] → (∀ p ∈ y.bytes, p.1 < 64) → y.bytes.Pairwise (fun p q => p.1 < q.1) →
        ∀ n b, Tab.get? y.bytes n = some (b, true) → t.byte (64 * (x.addr / 64) + n) = b) ∧
      (l1Find (s.cell (cellOf s.cur)) (x.addr / 64) = none → ∀ b, t.byte b = s.byte b) ∧
      (drop = false → ∀ y, l1Find (t.cell (cellOf s.cur)) (x.addr / 64) = some y → dirtyBytes y = []) ∧
      (drop = true → l1Find (t.cell (cellOf s.cur)) (x.addr / 64) = none)) ∧
  (∀ (s : State) (a : BitVec 6) (w : Bool) (o : BitVec 5) (x : Acc), MemReady (.icinvalLine a w o) s [srcG a w 0] → LineAt s a w 0 o x →
    Settled s → NoRings s → ∃ t, exec (.icinvalLine a w o) s = .next t ∧ Passed (.icinvalLine a w o) s t ∧ (∀ b, t.byte b = s.byte b) ∧
      ∀ n, Tab.get? (t.cell (cellOf s.cur)).icache n = if n = x.addr / 64 then none else Tab.get? (s.cell (cellOf s.cur)).icache n) ∧
  (∀ s : State, MayIssue .icinvalCell s → Settled s → ∃ t, exec .icinvalCell s = .next t ∧ Passed .icinvalCell s t ∧
    (∀ b, t.byte b = s.byte b) ∧ (t.cell (cellOf s.cur)).icache = []) ∧
  (∀ s : State, MayIssue .fetchb s → Settled s → ∃ t, exec .fetchb s = .next t ∧ OnlyMe s t ∧ Passed .fetchb s t ∧ (t.ctx s.cur).fbuf = []) ∧
  (∀ (s : State) (a : BitVec 6) (w : Bool) (h : Hint) (o : BitVec 5) (x : Acc), LineAt s a w h.code o x → (s.ctx s.cur).wcb = [] →
    x.addr < Config.spadBase →
    (MemReady (.cpinPin a w h o) s [srcG a w 0] →
      ∃ t, exec (.cpinPin a w h o) s = .next t ∧ Passed (.cpinPin a w h o) s t ∧ (NoRings s → ∀ b, t.byte b = s.byte b) ∧
        (s.l2 = [] → (s.slice (sliceOf x.addr)).retired = false → s.isBad x.addr = false →
          (0 < (s.part (me s).partition).pinQuota → ∃ y ∈ t.l2, y.line = x.addr / 64 ∧ y.pinned = true) ∧
          ((s.part (me s).partition).pinQuota = 0 → (∀ y ∈ t.l2, y.pinned = false) ∧
            ∃ r ∈ t.recs, r.code = 0x4D ∧ r.obj = BitVec.ofNat 64 (64 * (x.addr / 64))))) ∧
    (MemReady (.cpinUnpin a w h o) s [srcG a w 0] → ∃ t, exec (.cpinUnpin a w h o) s = .next t ∧ Passed (.cpinUnpin a w h o) s t ∧
      (NoRings s → ∀ b, t.byte b = s.byte b) ∧ (∀ y ∈ t.l2, y.line = x.addr / 64 → y.pinned = false) ∧
      ((s.l2.map (·.line)).Nodup → ∀ n, n ≠ x.addr / 64 →
        ((∃ y ∈ t.l2, y.line = n ∧ y.pinned = true) ↔ ∃ y ∈ s.l2, y.line = n ∧ y.pinned = true))))

namespace Sys2Proof.Spec

/-- A request on its way, as its context left it. -/
def Sent (s t : State) (kind : ReqKind) (acc : Acc) (d : RegId) (sc : Scope) (data : Word) (wait : WaitKind) (dst : Option RegId) : Prop :=
  ∃ r, t.reqs = s.reqs ++ [r] ∧ r.kind = kind ∧ r.c = s.cur ∧ r.plc = s.plc s.cur ∧ r.addr = acc.addr ∧ r.ref = acc.ref ∧ r.dst = d ∧ r.scope = sc ∧
    r.data = data ∧ r.arrival = none ∧
    Launched s t (.wait wait r.stamp dst (match dst with | some q => (me s).rmeta q | none => fullMeta .top))

end Sys2Proof.Spec

/-- R173 to R175, R179, R181: LDS, TAKE and LRW mark their destination empty and send one request to the home of the word; PUT sends its value and
changes no register; FEQ asks for the word's state, FESET sends the change. Memory stays as it was at issue. That TAKE, LDS and LRW make their
address phase as a read is the model's choice (log 77). A context with 16 requests not
yet served sends no more, and an LRW beyond four reservations, or on a word the context has asked to reserve, is the reservation fault with
detail 2. -/
def Obligations.WordRequestsLeave : Prop :=
  (∀ (s : State) (i : Instr) (k : ReqKind) (d : RegId) (x : Src) (ref : Word) (sc : Scope) (h : Hint) (acc : Acc),
    wordForm (me s) i = some (k, d, x, ref, sc, h) → MemReady i s [x] → Writable (me s) d →
    (16 ≤ unserved s s.cur → exec i s = .next s) ∧
    (unserved s s.cur < 16 → wordPhase s s.cur ref (wantWord false h) (srcLabels (me s) [x]) = .ok acc → acc.rdet = none → Settled s → CachesEmpty s →
      (k = .lrw ∧ (4 ≤ (s.ctx s.cur).resv.length ∨ ∃ p ∈ (s.ctx s.cur).resv, p.1 = acc.addr) →
        exec i s = .next (takeTrap s s.cur ⟨0x0F, 2, ref, 0⟩ false (me s).pc)) ∧
      (¬(k = .lrw ∧ (4 ≤ (s.ctx s.cur).resv.length ∨ ∃ p ∈ (s.ctx s.cur).resv, p.1 = acc.addr)) →
        ∃ t, exec i s = .next t ∧ (me t).pc = (me s).pc + 4 ∧ (d ≠ ⟨.g, 0⟩ → ((me t).rmeta d).fe = .empty) ∧ RegsBut (me s) (me t) d ∧
          (∀ b, t.byte b = s.byte b) ∧ Sent s t k acc d sc 0 .home (some d) ∧
          (t.ctx s.cur).resv = (s.ctx s.cur).resv ++ if k = .lrw then [(acc.addr, false)] else []))) ∧
  (∀ (s : State) (i : Instr) (d x : BitVec 6) (wx wd full : Bool) (sc : Scope) (h : Hint) (o : BitVec 5) (accs : List Acc) (l : Label),
    let ref := effective (gv (me s) x) o 8; let xs := [srcG x wx 0, srcG d wd 2]
    i = (if full then .putFullFault d x wx wd sc h o else .put d x wx wd sc h o) → MemReady i s xs → unserved s s.cur < 16 →
    (s.ctx s.cur).hold = none → storePhase s s.cur ref 8 8 (wantWord true h) (srcLabels (me s) xs) = .ok (accs, l) → (wordAcc accs).rdet = none →
    Settled s → CachesEmpty s → releaseHeld s s.cur = false →
    ∃ t, exec i s = .next t ∧ SameRegs (me s) (me t) ∧ (∀ b, t.byte b = s.byte b) ∧
      (full = false → (me t).pc = (me s).pc + 4 ∧ Sent s t .put (wordAcc accs) ⟨.g, 0⟩ sc (gv (me s) d) .put none) ∧
      (full = true → (me t).pc = (me s).pc ∧ (t.ctx s.cur).hold = some ⟨(me s).pc, none⟩ ∧
        ∃ r, t.reqs = s.reqs ++ [r] ∧ r.kind = .putFault ∧ r.addr = (wordAcc accs).addr ∧ r.data = gv (me s) d)) ∧
  (∀ (s : State) (d x : BitVec 6) (wx wd : Bool) (sc : Scope) (h : Hint) (o : BitVec 5) (pc : Word), let i := Instr.putFullFault d x wx wd sc h o
    MayIssue i s →
    ((s.ctx s.cur).hold = some ⟨pc, none⟩ → exec i s = .next s) ∧
    ((s.ctx s.cur).hold = some ⟨pc, some 0⟩ → ∃ t, exec i s = .next t ∧ OnlyMe s t ∧ Passed i s t ∧ (t.ctx s.cur).hold = none) ∧
    ((s.ctx s.cur).hold = some ⟨pc, some 1⟩ →
      exec i s = .next (takeTrap s s.cur ⟨0x1B, 0, effective (gv (me s) x) o 8, 0⟩ false (me s).pc))) ∧
  (∀ (s : State) (d x : BitVec 6) (w : Bool) (h : Hint) (o : BitVec 5) (acc : Acc), let i := Instr.feq d x w h o
    MemReady i s [srcG x w 0] → Writable (me s) (gd d) → wordPhase s s.cur (effective (gv (me s) x) o 8) (wantWord false h) (srcLabels (me s) [srcG x w 0]) = .ok acc →
    acc.rdet = none → Settled s → CachesEmpty s →
    ∃ t, exec i s = .next t ∧ (me t).pc = (me s).pc + 4 ∧ RegsBut (me s) (me t) (gd d) ∧ (∀ b, t.byte b = s.byte b) ∧
      Launched s t (.load (gd d) [{ acc with lab := none }] .fe [((me s).rmeta (gd x)).lab] none (me s).pc ((me s).rmeta (gd d)))) ∧
  (∀ (s : State) (x : BitVec 6) (w full : Bool) (h : Hint) (o : BitVec 5) (acc : Acc), let i := Instr.feset x w full h o
    MemReady i s [srcG x w 0] → wordPhase s s.cur (effective (gv (me s) x) o 8) (wantWord true h) (srcLabels (me s) [srcG x w 0]) = .ok acc →
    acc.rdet = none → Settled s → CachesEmpty s →
    ∃ t, exec i s = .next t ∧ Passed i s t ∧ (∀ b, t.byte b = s.byte b) ∧
      t.stores = s.stores ++ [⟨s.cur, .feset full, acc, [], [], 0, (s.ctx s.cur).seq⟩])

namespace Sys2Proof.Spec

/-- What the home of a scratchpad word with nothing queued does with a request that it admits (R171 to R173, R179). -/
def Admitted (s t : State) (r : Req) : Prop :=
  (r.kind = .lds ∨ r.kind = .take → s.feFull r.addr = true →
    t.deliveries = s.deliveries ++ [⟨r, s.word r.addr, wordLabel s r.lab⟩] ∧ t.feFull r.addr = (r.kind == .lds) ∧ t.word r.addr = s.word r.addr) ∧
  (r.kind = .lds ∨ r.kind = .take → s.feFull r.addr = false → t.deliveries = s.deliveries ∧ (t.home r.addr).readers = [r]) ∧
  (r.kind = .put → s.feFull r.addr = false → s.isBad r.addr = false → r.lab = none → t.word r.addr = r.data ∧ t.feFull r.addr = true) ∧
  (r.kind = .put → s.feFull r.addr = true → t.word r.addr = s.word r.addr ∧ (t.home r.addr).writers = [r]) ∧
  (r.kind = .lrw → (t.home r.addr).holder = some r ∧ t.deliveries = s.deliveries ++ [⟨r, s.word r.addr, wordLabel s r.lab⟩] ∧
    t.word r.addr = s.word r.addr ∧ t.feFull r.addr = s.feFull r.addr)

/-- A word of scratchpad whose home has power and nothing queued. -/
def FreeWord (s : State) (a : Nat) : Prop :=
  Config.spadBase ≤ a ∧ a + 8 ≤ Config.spadFeBase ∧ a % 8 = 0 ∧ homeUp s a = true ∧ s.home a = Home.none

end Sys2Proof.Spec

/-- R171 to R173, R176, R179: an LDS, TAKE, PUT or LRW that arrives at the home of a scratchpad word with nothing queued, and a refused one that is
retried there, is served at once if the word's state lets it: a full word is delivered and a TAKE empties it, an empty word is filled by a PUT, an LRW
becomes the holder; otherwise it waits. With full=fault the answer tells whether the word was full. That an uncorrectable word is found at the delivery is the model's reading (log 47).
R173, R174, R157, R350: a served LDS, TAKE or LRW reaches its running strand: the destination fills with the word, the wait is over, and an LRW's
reservation is held; an uncorrectable word, full/empty bit or label word leaves the destination as it was and defers the data error fault. -/
def Obligations.WordServed : Prop :=
  (∀ (s : State) (n : Nat) (r : Req), FreeWord s r.addr →
    (s.reqs[n]? = some r → r.arrival = none → overtaken s n r = false → waitUse s r.addr < Config.waitEntries →
      refusedBefore s r.addr s.stamp = false →
      let o := if r.kind = .lrw then exec (.reservationRequestArrival n) s else exec (.homeRequestArrival n) s
      ∃ t, o = .next t ∧ t.reqs = takeOut n s.reqs ∧ Admitted s t { r with arrival := some s.stamp } ∧
        (r.kind = .putFault → liveStrand s r.c r.plc = true → (s.ctx r.c).hold = some ⟨r.pc, none⟩ → s.isBad r.addr = false → r.lab = none →
          t.feFull r.addr = true ∧ t.word r.addr = (if s.feFull r.addr then s.word r.addr else r.data) ∧
          (t.ctx r.c).hold = some ⟨r.pc, some (if s.feFull r.addr then 1 else 0)⟩)) ∧
    (s.reqs[n]? = some r → r.arrival = none → overtaken s n r = false → Config.waitEntries ≤ waitUse s r.addr → r.kind ≠ .lrw →
      ∃ t, exec (.homeRequestArrival n) s = .next t ∧ t.refused = s.refused ++ [{ r with arrival := some s.stamp }] ∧
        (∀ b, t.byte b = s.byte b)) ∧
    (s.refused[n]? = some r → waitUse s r.addr < Config.waitEntries → refusedBefore s r.addr (r.arrival.getD 0) = false →
      ∃ t, exec (.refusedRequestRetry n) s = .next t ∧ t.refused = takeOut n s.refused ∧ Admitted s t r)) ∧
  (∀ (s : State) (n k : Nat) (d : Delivery) (old : Reg Unit), let r := d.req; let c := r.c
    let bad := s.isBad r.addr || s.feBad r.addr || r.lab.any fun p => s.isBad p.2
    s.deliveries[n]? = some d → liveStrand s c r.plc = true → s.plc c = r.plc → r.dst = ⟨.g, k⟩ → k ≠ 0 →
    r.scope = .context → r.refLab = .top → d.lab = .top → (s.ctx c).pend = [.wait .home r.stamp (some r.dst) old] → r.addr < Config.peerBase →
    ∃ t, exec (.serviceDelivery n) s = .next t ∧ t.deliveries = takeOut n s.deliveries ∧ (t.ctx c).pend = [] ∧ (bad = false ∨ NoRings s → ∀ b, t.byte b = s.byte b) ∧
      (bad = false → (t.ctx c).arch.gr k = Reg.of d.val ∧ (t.ctx c).deferred = (s.ctx c).deferred ∧
        (r.kind = .lrw → ∀ p ∈ (t.ctx c).resv, p.1 = r.addr → p.2 = true)) ∧
      (bad = true → (t.ctx c).arch.rmeta r.dst = old ∧ ((t.ctx c).arch.gr k).val = ((s.ctx c).arch.gr k).val ∧
        (t.ctx c).deferred = (s.ctx c).deferred ++ [⟨⟨0x18, 0, r.va, 0⟩, some r.dst, none⟩]))

/-- R180, R182: SC and SCREL of a held reservation give it up and send the pass, with the value for SC; without one they are the reservation
fault with detail 1. At the home the pass of the holder stores and makes the next in the queue the holder; any other is discarded. A reservation held
beyond the partition's limit is passed on, and the notice takes it from its holder, who is to fault with detail 0; a later reservation of the strand on the word stays. The phase
of SCREL as a read, and the limit's cycles counted by the column's clock, are the model's (logs 77 and 48). -/
def Obligations.ReservationPassed : Prop :=
  (∀ (s : State) (i : Instr) (d x : BitVec 6) (wx wd cond : Bool) (sc : Scope) (h : Hint) (o : BitVec 5) (accs : List Acc) (l : Label),
    let ref := effective (gv (me s) x) o 8; let acc := wordAcc accs
    let xs := srcG x wx 0 :: if cond then [srcG d wd 2] else []
    i = (if cond then .sc d x wx wd sc h o else .screl x wx sc h o) → MemReady i s xs →
    (if cond then storePhase s s.cur ref 8 8 (wantWord true h) (srcLabels (me s) xs) = .ok (accs, l)
      else loadPhase s s.cur ref 8 8 (wantWord false h) (srcLabels (me s) xs) = .ok accs) → acc.rdet = none → Settled s → CachesEmpty s → releaseHeld s s.cur = false →
    ((acc.addr, true) ∉ (s.ctx s.cur).resv → exec i s = .next (takeTrap s s.cur ⟨0x0F, 1, ref, 0⟩ false (me s).pc)) ∧
    ((acc.addr, true) ∈ (s.ctx s.cur).resv → acc.lab = none → ∃ t, exec i s = .next t ∧ Passed i s t ∧ (∀ b, t.byte b = s.byte b) ∧
      (t.ctx s.cur).resv = (s.ctx s.cur).resv.filter (fun p => p.1 != acc.addr) ∧
      ∃ p, t.passes = s.passes ++ [p] ∧ p.c = s.cur ∧ p.plc = s.plc s.cur ∧ p.addr = acc.addr ∧
        p.store = if cond then some (gv (me s) d, none) else none)) ∧
  (∀ (s : State) (n : Nat) (p : Pass) (v : Word), s.passes[n]? = some p → Config.spadBase ≤ p.addr → p.addr + 8 ≤ Config.spadFeBase →
    p.addr % 8 = 0 → homeUp s p.addr = true → passBehind s n p = false → s.isBad p.addr = false → (p.store = some (v, none) ∨ (p.store = none ∧ v = s.word p.addr)) →
    ∃ t, exec (.reservationPassArrival n) s = .next t ∧ t.passes = takeOut n s.passes ∧
      ((∀ r, (s.home p.addr).holder = some r → r.of p.c p.plc = false) → t.word p.addr = s.word p.addr ∧ t.homes = s.homes) ∧
      (∀ r, (s.home p.addr).holder = some r → r.of p.c p.plc = true → t.word p.addr = v ∧ (t.home p.addr).holder = (s.home p.addr).queue.head? ∧
        (t.home p.addr).queue = (s.home p.addr).queue.tail ∧ ∀ q, (s.home p.addr).queue.head? = some q → ∃ l, ⟨q, v, l⟩ ∈ t.deliveries)) ∧
  (∀ (s : State) (w : Nat) (r : Req), (s.home w).holder = some r → let late := (s.part (strandPart s r.c r.plc)).holdLimit < s.cycles (homeCol w) - (s.home w).since
    ∃ t, exec (.holdLimitExpiry w) s = .next t ∧ (¬late → t = s) ∧
      (late → (t.home w).holder = (s.home w).queue.head? ∧ t.notices = s.notices ++ [r] ∧ ∀ b, t.byte b = s.byte b)) ∧
  (∀ (s : State) (n : Nat) (r : Req), s.notices[n]? = some r → (∀ d ∈ s.deliveries, d.req.stamp ≠ r.stamp) → liveStrand s r.c r.plc = true →
    ∃ t, exec (.reservationHoldNotice n) s = .next t ∧ t.notices = takeOut n s.notices ∧
      (reservedAgain { s with notices := takeOut n s.notices } r = false → ∀ p ∈ (t.ctx r.c).resv, p.1 ≠ r.addr) ∧
      (reservedAgain { s with notices := takeOut n s.notices } r = true → (t.ctx r.c).resv = (s.ctx r.c).resv) ∧
      (t.ctx r.c).deferred = (s.ctx r.c).deferred ++ [⟨⟨0x0F, 0, r.ref, 0⟩, none, none⟩] ∧ (t.ctx r.c).arch = (s.ctx r.c).arch)

/-- R184 to R188, R304, R305, R307, R379, R381, R391: FENCE with nothing to wait for empties the write-combining buffer and advances the interval
number once for each of its halves; PFENCE passes when nothing of its scope is still to become durable; PPOINT makes a point whose resume
address is the next instruction, an automatic point one whose resume address is the program counter; a complete image is stored and the
requests that waited for it leave, once no write to scratchpad that was issued before it is still on its way; a shadow copy holds the line. -/
def Obligations.FencesAndPoints : Prop :=
  (∀ (s : State) (k : FenceKind) (sc : Scope),
    (∀ d ds, heldBack s s.cur = false → (s.ctx s.cur).hold = none → (s.ctx s.cur).deferred = d :: ds → exec (.fence k sc) s = .next (takeTrap s s.cur d.trap false (me s).pc)) ∧
    (MayIssue (.fence k sc) s → (s.ctx s.cur).deferred = [] → releaseHeld s s.cur = true ∨ cleanHeld s s.cur sc.code = true → exec (.fence k sc) s = .next s) ∧
    (MayIssue (.fence k sc) s → (s.ctx s.cur).deferred = [] → releaseHeld s s.cur = false → cleanHeld s s.cur sc.code = false → (s.ctx s.cur).pend = [] → ∃ t, exec (.fence k sc) s = .next t ∧ Passed (.fence k sc) s t ∧
      (t.ctx s.cur).wcb = [] ∧ (t.ctx s.cur).ivl = (s.ctx s.cur).ivl + (if k = .full then 2 else 1) ∧
      (CachesEmpty s → Settled s → ∀ b, t.byte b = s.byte b))) ∧
  (∀ (s : State) (sc : PScope), MayIssue (.pfence sc) s → (s.ctx s.cur).deferred = [] →
    let due := (s.ctx s.cur).writing ≠ none ∨ (s.ctx s.cur).waiting ≠ none ∨ linesPending s s.cur sc = true
    (due → exec (.pfence sc) s = .next s) ∧ (¬due → ∃ t, exec (.pfence sc) s = .next t ∧ OnlyMe s t ∧ Passed (.pfence sc) s t)) ∧
  (∀ s : State, MayIssue .ppoint s → (s.ctx s.cur).deferred = [] →
    ((me s).anyEmpty = true → exec .ppoint s = .next s) ∧
    ((me s).anyEmpty = false → (s.ctx s.cur).writing = none → ∃ t, exec .ppoint s = .next t ∧ OnlyMe s t ∧ Passed .ppoint s t ∧
      ∃ i, (t.ctx s.cur).writing = some i ∧ i.rpc = (me s).pc + 4 ∧ i.seq = (s.ctx s.cur).seq + 1 ∧ i.arch = me t)) ∧
  (∀ (s : State) (c : Nat), atBoundary s c = true → autoPointDue s c = true → (s.ctx c).deferred = [] → (s.ctx c).writing = none →
    ∃ t, exec (.automaticPersistencePoint c) s = .next t ∧ (t.ctx c).arch = (s.ctx c).arch ∧
      ∃ i, (t.ctx c).writing = some i ∧ i.rpc = (s.ctx c).arch.pc ∧ i.arch = (s.ctx c).arch) ∧
  (∀ (s : State) (c : Nat) (i : Image) (q : SignalReq), (s.ctx c).writing = some i → (∀ l ∈ i.lines, linePending s l = false) → spadWriteBefore s c i.seq = false → (s.ctx c).save = none →
    (s.ctx c).committed = [(i.seq, .signal q)] →
    ∃ t, exec (.imageComplete c) s = .next t ∧ (t.ctx c).writing = (s.ctx c).waiting ∧
      ((Tab.get t.images c (none, none)).1 = some (i.sealed c) ∨ (Tab.get t.images c (none, none)).2 = some (i.sealed c)) ∧
      (t.ctx c).committed = [] ∧ t.signals = s.signals ++ [q]) ∧
  (∀ (s : State) (n l : Nat), l ∈ (s.cell n).pendingShadow → (s.col (colOf n)).cellPower = true →
    ∃ t, exec (.shadowLineCopy n l) s = .next t ∧ l ∉ (t.cell n).pendingShadow ∧ (∀ b, t.byte b = s.byte b) ∧
      ∃ x, (Tab.get? (t.cell n).shadowX l = some x ∨ Tab.get? (t.cell n).shadowY l = some x) ∧ x.good = true ∧
        x.data = BitVec.ofNat 512 (s.num (spadAddr n (64 * l)) 64))

namespace Sys2Proof.Spec

/-- What a context that took an interrupt holds (R34, R36): the trap bank of its level names the cause, the value and the interrupted place, and
control is at its handler with interrupts disabled. -/
def Interrupted (s t : State) (c code : Nat) (v : Word) : Prop :=
  let a := (s.ctx c).arch; let b := (t.ctx c).arch; let level := if a.pl = 3 then 3 else 1
  (b.bank level).tcause = 1 <<< 63 ||| BitVec.ofNat 64 code ∧ (b.bank level).tval = v ∧ (b.bank level).tpc = a.pc ∧ b.pc = (a.bank level).tvec ∧
    b.pl = level ∧ b.ie = false ∧ b.g = a.g

end Sys2Proof.Spec

/-- R36, R157, R182, R284: at a boundary with interrupts enabled at which no fault and no loop-back step is due, a device interrupt is taken before a deadline interrupt, and that before a SIGNAL;
the one taken is no longer pending. A SIGNAL merges into the one pending at a strand of its partition, and otherwise leaves a record. A deferred
fault that names no register is taken at the next boundary. -/
def Obligations.InterruptsAndSignals : Prop :=
  (∀ (s : State) (c : Nat) (v : Word), let x := s.ctx c
    x.run = .running → x.hold = none → x.arch.ie = true → x.arch.tn = false → faultFirst s c = false → loopSteps s c = false →
    (x.devIrq = some v → ∃ t, exec (.interruptTaken c) s = .next t ∧ Interrupted s t c 2 v ∧ (t.ctx c).devIrq = none ∧
      (t.ctx c).dlIrq = x.dlIrq ∧ (t.ctx c).arch.sig = x.arch.sig) ∧
    (x.devIrq = none → x.dlIrq = some v → ∃ t, exec (.interruptTaken c) s = .next t ∧ Interrupted s t c 3 v ∧ (t.ctx c).dlIrq = none ∧
      (t.ctx c).arch.sig = x.arch.sig) ∧
    (x.devIrq = none → x.dlIrq = none → x.arch.sig = some v → ∃ t, exec (.interruptTaken c) s = .next t ∧ Interrupted s t c 1 v ∧
      (t.ctx c).arch.sig = none)) ∧
  (∀ (s : State) (n : Nat) (q : SignalReq), let c := q.tgt.toNat % 2 ^ 14
    s.signals[n]? = some q →
    ((s.ctx c).run = .dark → exec (.signalArrival n) s = .next s) ∧
    ((s.ctx c).run ≠ .dark → (∃ x, (s.ctx c).strand = some x ∧ x.part = q.part) → ∃ t, exec (.signalArrival n) s = .next t ∧
      t.signals = takeOut n s.signals ∧ (t.ctx c).arch = { (s.ctx c).arch with sig := some ((s.ctx c).arch.sig.getD 0 ||| q.info) } ∧
      ∀ b, t.byte b = s.byte b) ∧
    ((s.ctx c).run ≠ .dark → (∀ x, (s.ctx c).strand = some x → x.part ≠ q.part) → ∃ t, exec (.signalArrival n) s = .next t ∧
      t.signals = takeOut n s.signals ∧ t.ctxs = s.ctxs ∧ ∃ r ∈ t.recs, r.code = 0x56 ∧ r.obj = q.tgt ∧ r.det = q.info)) ∧
  (∀ (s : State) (c : Nat) (d : Deferred), (s.ctx c).run = .running → (s.ctx c).hold = none → (s.ctx c).deferred = [d] → d.reg = none →
    exec (.deferredDataErrorFault c) s = .next (takeTrap s c d.trap false (s.ctx c).arch.pc) ∧
    ∃ t, exec (.deferredDataErrorFault c) s = .next t ∧ (t.ctx c).deferred = [])

namespace Sys2Proof.Spec

/-- An entry that points to the table of the next level (R345). -/
def pointsDown (e : Word) : Prop := e &&& 0xFFFF000000000FFF = 1
/-- The table that an entry points to, or the page of a leaf. -/
def tableOf (e : Word) : Nat := (e.extractLsb' 12 36).toNat * 4096
/-- The entry of a table for an index. -/
def entryAt (s : State) (table idx : Nat) : Word := s.word (table + 8 * idx)
/-- A table in memory, of which the entry for an index and the first of its group of `g` can be corrected (R346, R350). -/
def TableReadable (s : State) (table idx g : Nat) : Prop :=
  noMemory table = false ∧ s.isBad (table + 8 * (idx / g * g)) = false ∧ s.isBad (table + 8 * idx) = false

end Sys2Proof.Spec

/-- R345 to R348, R350: four entries that point down and a leaf of level 0 outside contiguous groups, with no reserved bit, no labels and cache level 0 to 2, map
the 4 KiB page; an entry that is not valid, at any of the levels, is the page fault, and a root entry that cannot be corrected the data error fault. A
complete walk that has a walker enters the translation into the column's and the cell's caches; of one that faulted the waiting context is told. -/
def Obligations.PageWalks : Prop :=
  (∀ (s : State) (part : BitVec 6) (va : Nat) (root : Nat), (s.part part.toNat).root = root →
    let e4 := entryAt s root (va / 2 ^ 48 % 512); let e3 := entryAt s (tableOf e4) (va / 2 ^ 39 % 512)
    let e2 := entryAt s (tableOf e3) (va / 2 ^ 30 % 512); let e1 := entryAt s (tableOf e2) (va / 2 ^ 21 % 512)
    let e0 := entryAt s (tableOf e1) (va / 2 ^ 12 % 512)
    (noMemory root = false → s.isBad (root + 8 * (va / 2 ^ 48 % 512)) = true → walkPart s part va = .error 0x18) ∧
    (e4.getLsbD 0 = false → walkTable s part va = none) ∧
    (pointsDown e4 → e3.getLsbD 0 = false → walkTable s part va = none) ∧
    (pointsDown e4 → pointsDown e3 → e2.getLsbD 0 = false → walkTable s part va = none) ∧
    (pointsDown e4 → pointsDown e3 → pointsDown e2 → (entryAt s (tableOf e2) (va / 2 ^ 21 % 512 / 32 * 32)).getLsbD 2 = false →
      pointsDown e1 → (entryAt s (tableOf e1) (va / 2 ^ 12 % 512 / 16 * 16)).getLsbD 2 = false →
      (e0.getLsbD 0 = false → walkTable s part va = none) ∧
      (TableReadable s root (va / 2 ^ 48 % 512) 1 → TableReadable s (tableOf e4) (va / 2 ^ 39 % 512) 1 → TableReadable s (tableOf e3) (va / 2 ^ 30 % 512) 1 →
        TableReadable s (tableOf e2) (va / 2 ^ 21 % 512) 32 → TableReadable s (tableOf e1) (va / 2 ^ 12 % 512) 16 → e0.setWidth 3 = 3 → e0.getLsbD 51 = false → e0.getLsbD 48 = false → e0.extractLsb' 6 2 ≠ 3 →
        walkTable s part va = some ⟨part, va / 4096 * 4096, 4096, e0⟩ ∧
        physOf ⟨part, va / 4096 * 4096, 4096, e0⟩ va = tableOf e0 + va % 4096))) ∧
  (∀ (s : State) (n c : Nat) (w : Walk), s.walks[n]? = some w → w.ctxs = [c] → hasWalker s n w = true →
    ∃ t, exec (.pageWalkComplete n) s = .next t ∧ t.walks = takeOut n s.walks ∧ (NoRings s → ∀ b, t.byte b = s.byte b) ∧
      (∀ e, walkTable s w.part (w.va.toNat % 2 ^ 57) = some e → e ∈ (t.cell (cellOf c)).tlb ∧ e ∈ (t.col (colOf (cellOf c))).tlb) ∧
      (∀ k, walkPart s w.part (w.va.toNat % 2 ^ 57) = .error k → BitVec.ofNat 6 (s.ctx c).arch.partition = w.part → (t.ctx c).walkFault = some (w.va, k)))

/-- R26, R306, R307, R334, R335, R344: the steps that caches take by themselves. An entry of a write-combining buffer drains with all its bytes, into the L1
for a page of cache level L1+L2 and to the home for L2 only; a write-back brings every dirty byte of a line home; a clean line, an instruction line
and a handle entry may leave their caches without changing memory, a dirty line may not; a scrub of a line that cannot be corrected leaves a record. -/
def Obligations.CacheSteps : Prop :=
  (∀ (s : State) (c n : Nat) (e : WcbEntry), (s.ctx c).wcb[n]? = some e → e.labs = [] → e.bytes.Pairwise (fun p q => p.1 < q.1) →
    (∀ p ∈ e.bytes, p.1 < 64) → CachesEmpty s → (∀ x ∈ s.stores, x.c ≠ c) → (∀ p ∈ s.passes, p.c ≠ c) → ctxReaches s c (64 * e.line) = true → s.isBad (64 * e.line) = false → 64 * e.line + 64 ≤ Config.spadBase →
    ∃ t, exec (.wcbDrain c n) s = .next t ∧ (t.ctx c).wcb = takeOut n (s.ctx c).wcb ∧
      (e.cache = 1 → ∀ k b, Tab.get? e.bytes k = some b → t.byte (64 * e.line + k) = b) ∧
      (e.cache = 0 → e.wthru = false → e.cls ≠ 3 → (∀ b, t.byte b = s.byte b) ∧
        ∃ y, l1Find (t.cell (cellOf c)) e.line = some y ∧ ∀ k b, Tab.get? e.bytes k = some b → Tab.get? y.bytes k = some (b, true))) ∧
  (∀ (s : State) (n : Nat) (y : L1Line), l1Find (s.cell n) y.line = some y → y.lost = false → y.labs = [] → y.bytes.Pairwise (fun p q => p.1 < q.1) →
    (∀ p ∈ y.bytes, p.1 < 64) → s.l2 = [] → s.isBad (64 * y.line) = false → 64 * y.line + 64 ≤ Config.spadBase →
    reaches s (s.cell n).part.toNat n (64 * y.line) = true →
    (∃ t, exec (.l1WriteBack n y.line false) s = .next t ∧ (∀ k b, Tab.get? y.bytes k = some (b, true) → t.byte (64 * y.line + k) = b) ∧
      ∃ z, l1Find (t.cell n) y.line = some z ∧ dirtyBytes z = []) ∧
    ((∀ p ∈ y.bytes, p.2.2 = false) → ∃ t, exec (.l1WriteBack n y.line true) s = .next t ∧ l1Find (t.cell n) y.line = none ∧ ∀ b, t.byte b = s.byte b) ∧
    ((∃ p ∈ y.bytes, p.2.2 = true) → exec (.l1WriteBack n y.line true) s = .next s)) ∧
  (∀ (s : State) (n l : Nat), ∃ t, exec (.instructionCacheEviction n l) s = .next t ∧ (∀ b, t.byte b = s.byte b) ∧
    ∀ k, Tab.get? (t.cell n).icache k = if k = l then none else Tab.get? (s.cell n).icache k) ∧
  (∀ (s : State) (n l : Nat), ∃ t, exec (.handleCacheEviction n l) s = .next t ∧ (∀ b, t.byte b = s.byte b) ∧
    ∀ k, Tab.get? (t.cell n).hcache k = if k = l then none else Tab.get? (s.cell n).hcache k) ∧
  (∀ (s : State) (l : Nat), 64 * l < Config.dramSize → l ∈ s.bad →
    ∃ t, exec (.scrub (stackOf (64 * l)) l) s = .next t ∧ ∃ r ∈ t.recs, r.code = 0x41 ∧ r.obj = BitVec.ofNat 64 (64 * l))

namespace Sys2Proof.Spec

/-- A barrier's fields (R266): phase, pending arrivals, pending sectors, error. -/
def barOf (w : Word) : BitVec 4 × BitVec 20 × BitVec 32 × Bool := (w.extractLsb' 0 4, w.extractLsb' 4 20, w.extractLsb' 24 32, w.getLsbD 63)

end Sys2Proof.Spec

/-- R264, R266 to R270: at the home of a barrier TBINIT sets phase 0, the arrivals and no sectors; TBEXP adds sectors; TBARR counts one arrival, and the last
one with no sectors pending advances the phase, reloads the arrivals and serves the waiters of the phase that ended; an arrival too many sets the
error bit and leaves a record. A wait for a phase already ended is served at once, one for the current phase joins the list; a limit that is reached
answers 2; a returned wait fills its destination. A slot return adds to the sender's counter for the receiver, up to 255. That a TBINIT
of 0 arrivals runs no completion step is the model's reading (log 37). -/
def Obligations.BarrierHomes : Prop :=
  (∀ (s : State) (n : Nat) (r : BarReq) (ph : BitVec 4) (arr : BitVec 20) (sec : BitVec 32) (err : Bool), let a := r.addr
    s.barReqs[n]? = some r → barBehind s n r = false → homeUp s a = true → Config.spadBase ≤ a → a + 16 ≤ Config.spadFeBase → s.isBad a = false →
    waitUse s a < Config.waitEntries → (∀ w, r.op = .wait w → refusedBefore s a (w.arrival.getD s.stamp) = false) → barOf (s.word a) = (ph, arr, sec, err) →
    ∃ t, exec (.barrierRequestArrival n) s = .next t ∧ t.barReqs = takeOut n s.barReqs ∧
      (∀ k, r.op = .init k → barOf (t.word a) = (0, k, 0, false) ∧ (t.word (a + 8)).setWidth 20 = k) ∧
      (∀ k, r.op = .expect k → arr ≠ 0 → -(2 ^ 31) ≤ sec.toInt + k.toInt → sec.toInt + k.toInt < 2 ^ 31 → barOf (t.word a) = (ph, arr, sec + k, err) ∧
        (∀ x, t.home x = s.home x) ∧ t.barRets = s.barRets) ∧
      (r.op = .arrive → arr ≠ 0 → (arr ≠ 1 ∨ sec ≠ 0) → barOf (t.word a) = (ph, arr - 1, sec, err) ∧ t.barRets = s.barRets) ∧
      (r.op = .arrive → arr = 1 → sec = 0 → barOf (t.word a) = (ph + 1, (s.word (a + 8)).setWidth 20, 0, err) ∧
        t.barRets = s.barRets ++ ((s.home a).waiters.filter fun w => w.ph != ph + 1).map fun w => (w, (if err then 1 else 0), true)) ∧
      (r.op = .arrive → arr = 0 → (s.part (s.ctx r.c).arch.partition).ringSize = 0 → barOf (t.word a) = (ph, arr, sec, true) ∧ ∃ q ∈ t.recs, q.code = 0x52) ∧
      (∀ w, r.op = .wait w → w.ph ≠ ph → t.barRets = s.barRets ++ [({ w with arrival := some (w.arrival.getD s.stamp) }, (if err then 1 else 0), true)]) ∧
      (∀ w, r.op = .wait w → w.ph = ph → w.lim ≠ some 0 →
        { w with arrival := some (w.arrival.getD s.stamp) } ∈ (t.home a).waiters ∧ t.barRets = s.barRets)) ∧
  (∀ (s : State) (n a : Nat) (w : BarWait) (l : Nat), (timedWaits s)[n]? = some (a, w) → w.lim = some l →
    (l ≤ (s.tsc - w.t0).toNat → ∃ t, exec (.tbtimeLimitExpiry n) s = .next t ∧ t.barRets = s.barRets ++ [(w, 2, false)] ∧
      ∀ x ∈ (t.home a).waiters, x.stamp ≠ w.stamp) ∧
    ((s.tsc - w.t0).toNat < l → exec (.tbtimeLimitExpiry n) s = .next s)) ∧
  (∀ (s : State) (n k : Nat) (w : BarWait) (v : Word) (acq : Bool) (old : Reg Unit), s.barRets[n]? = some (w, v, acq) → liveStrand s w.c w.plc = true → v ≠ 0x18 →
    w.dst = ⟨.g, k⟩ → k ≠ 0 → w.scope = .context → (s.ctx w.c).pend = [.wait .bar w.stamp (some w.dst) old] →
    ∃ t, exec (.barrierWaitReturn n) s = .next t ∧ t.barRets = takeOut n s.barRets ∧ (t.ctx w.c).pend = [] ∧ (t.ctx w.c).arch.gr k = Reg.of v ∧
      ∀ b, t.byte b = s.byte b) ∧
  (∀ (s : State) (n snd c : Nat) (v : Word), s.slotRets[n]? = some (snd, c, v) → (s.col (colOf snd)).cellPower = true →
    let k := cellOf c % 16; let sum := (Tab.get (s.cell snd).slots k 0).toNat + v.toNat
    ∃ t, exec (.slotReturnArrival n) s = .next t ∧ t.slotRets = takeOut n s.slotRets ∧ Tab.get (t.cell snd).slots k 0 = BitVec.ofNat 8 (min sum 255) ∧
      (255 < sum → ∃ r ∈ t.recs, r.code = 0x52))

namespace Sys2Proof.Spec

/-- The result of a long operation, whose sources' labels are ⊤, reached its register: full, with the label ⊤, and no longer in flight. -/
def Delivered (s t : State) (c n : Nat) (d : RegId) (v : RV) : Prop :=
  (t.ctx c).pend = takeOut n (s.ctx c).pend ∧ (t.ctx c).arch.regVal d = v ∧ (t.ctx c).arch.rmeta d = fullMeta .top ∧
    RegsBut (s.ctx c).arch (t.ctx c).arch d ∧ ∀ b, t.byte b = s.byte b

end Sys2Proof.Spec

/-- R14, R66 to R68, R125, R177, R208, R228, R229: the result of a division, a long vector operation, a reduction or an ACCR of sources labelled ⊤ fills its register. An outstanding
accumulator instruction is performed as one action: ACCZ clears all eleven words, and an addition whose sum is in range adds the exact term to the
640-bit value. A result for a saved strand enters the save image alone. -/
def Obligations.LongCompletions : Prop :=
  (∀ (s : State) (c n k : Nat) (x : Word) (ls : List Label) (pc : Word), k ≠ 0 → (∀ l ∈ ls, l.isTop = true) → (s.ctx c).pend[n]? = some (.div ⟨⟨.g, k⟩, .w x, ls, pc⟩) →
    ∃ t, exec (.divideComplete c n) s = .next t ∧ Delivered s t c n ⟨.g, k⟩ (.w x)) ∧
  (∀ (s : State) (c n k : Nat) (x : BitVec 512) (ls : List Label) (pc : Word), (∀ l ∈ ls, l.isTop = true) → (s.ctx c).pend[n]? = some (.vlong ⟨⟨.v, k⟩, .v x, ls, pc⟩) →
    ∃ t, exec (.vectorLongComplete c n) s = .next t ∧ Delivered s t c n ⟨.v, k⟩ (.v x)) ∧
  (∀ (s : State) (c n k : Nat) (x : Word) (ls : List Label) (pc : Word), k ≠ 0 → (∀ l ∈ ls, l.isTop = true) → (s.ctx c).pend[n]? = some (.vlong ⟨⟨.g, k⟩, .w x, ls, pc⟩) →
    ∃ t, exec (.vectorLongComplete c n) s = .next t ∧ Delivered s t c n ⟨.g, k⟩ (.w x)) ∧
  (∀ (s : State) (c n k : Nat) (x : Word) (ls : List Label) (pc : Word), k ≠ 0 → (∀ l ∈ ls, l.isTop = true) → (s.ctx c).pend[n]? = some (.acc ⟨⟨.g, k⟩, .w x, ls, pc⟩) →
    ∃ t, exec (.accumulatorComplete c n) s = .next t ∧ Delivered s t c n ⟨.g, k⟩ (.w x)) ∧
  (∀ (s : State) (c : Nat) (op : AccOp) (ps : List Pend), (s.ctx c).pend = .accum op :: ps → op.src = none → Config.spadBase ≤ op.dst →
    op.dst + 88 ≤ Config.spadFeBase → s.badIn (spadAcc op.va op.dst 88) = false →
    ∃ t, exec (.accumulatorComplete c 0) s = .next t ∧ (t.ctx c).pend = ps ∧
      (op.zero = true → ∀ k, k < 88 → t.byte (op.dst + k) = 0) ∧
      (op.zero = false → -(2 ^ 639) ≤ accValue s op.dst + op.delta → accValue s op.dst + op.delta < 2 ^ 639 →
        accValue t op.dst = accValue s op.dst + op.delta ∧ t.word (op.dst + 80) = s.word (op.dst + 80) ||| BitVec.ofNat 64 op.stat) ∧
      (∀ b, b < op.dst ∨ op.dst + 88 ≤ b → t.byte b = s.byte b)) ∧
  (∀ (s : State) (c k : Nat) (v : Saved) (d : Delivery) (old : Reg Unit), let r := d.req
    (s.ctx c).save = some v → s.deliveries = [d] → r.c = c → r.plc = v.strand.plc → v.pend = [.wait .home r.stamp (some r.dst) old] →
    r.dst = ⟨.g, k⟩ → k ≠ 0 → r.kind = .lds → r.lab = none → r.scope = .context → r.refLab = .top → d.lab = .top → Config.spadBase ≤ r.addr → r.addr < Config.peerBase →
    s.isBad r.addr = false →
    ∃ t, exec (.deferredDelivery c 1) s = .next t ∧ t.deliveries = [] ∧ (t.ctx c).arch = (s.ctx c).arch ∧
      ∃ u, (t.ctx c).save = some u ∧ u.pend = [] ∧ u.arch.gr k = Reg.of d.val ∧ RegsBut v.arch u.arch r.dst)

namespace Sys2Proof.Spec

/-- What a vector instruction under the mask q0 does with lanes: the destination, the sources it names, whether it reads the old destination, the
number and width of its lanes, and for each lane the value and the flags it raises. -/
structure LaneRule where
  dst : BitVec 6
  named : List Src
  old : Bool
  n : Nat
  w : Nat
  lane : Nat → BitVec w × BitVec 6
  long : Bool

/-- Lane `j` of a v register. -/
def laneAt (a : Arch) (r : BitVec 6) (w j : Nat) : BitVec w := (a.vr r.toNat).val.extractLsb' (w * j) w
/-- An exact result rounded to a format (R47 to R49). -/
def rounded (t : Fmt) (a : Arch) (w : Nat) (x : Exact) : BitVec w × BitVec 6 := (BitVec.ofNat w (roundTo t a.rm x).1, (roundTo t a.rm x).2)
/-- The value of a lane in a format (R45). -/
def valueOf {w : Nat} (t : Fmt) (x : BitVec w) : Fp := decodeFp t x.toNat
/-- The two v registers of an instruction. -/
def bothV (x y : BitVec 6) (wx wy : Bool) : List Src := [srcF .v x.toNat 0 wx, srcF .v y.toNat 1 wy]

/-- A rule of two registers whose lanes have a VT. -/
def lanes2 (a : Arch) (t : VT) (d x y : BitVec 6) (wx wy : Bool) (fp : Fp → Fp → Exact) (int : (w : Nat) → BitVec w → BitVec w → BitVec w) : LaneRule :=
  ⟨d, bothV x y wx wy, false, 512 / t.ty.bits, t.ty.bits, fun j => match t.ty with
    | .fp f => rounded f a _ (fp (valueOf f (laneAt a x t.ty.bits j)) (valueOf f (laneAt a y t.ty.bits j)))
    | .int _ _ => (int _ (laneAt a x _ j) (laneAt a y _ j), 0), false⟩

/-- The smaller of two values, −0 below +0 (R200); `less` says which of them is wanted. -/
def pickFp {w : Nat} (f : Fmt) (wantMax : Bool) (x y : BitVec w) : BitVec w :=
  let u := valueOf f x; let v := valueOf f y
  let below (p q : Fp) : Bool := cmpFp p q == some .lt || (p.isZero && q.isZero && p.neg && !q.neg)
  if u.isNan || v.isNan then BitVec.ofNat w f.nan else if (if wantMax then below u v else below v u) then y else x

/-- A rule of bitwise form on `w`-bit lanes. -/
def bitwise2 (a : Arch) (w : Nat) (d x y : BitVec 6) (wx wy : Bool) (f : BitVec w → BitVec w → BitVec w) : LaneRule :=
  ⟨d, bothV x y wx wy, false, 512 / w, w, fun j => (f (laneAt a x w j) (laneAt a y w j), 0), false⟩

/-- A fused multiply and add of three registers. -/
def fused (a : Arch) (t : FT) (d x y : BitVec 6) (wx wy : Bool) (neg : Bool) : LaneRule :=
  ⟨d, bothV x y wx wy, true, 512 / t.fmt.bits, t.fmt.bits, fun j =>
    let u := valueOf t.fmt (laneAt a x t.fmt.bits j)
    rounded t.fmt a _ (fmaFp a.rm (if neg then u.negate else u) (valueOf t.fmt (laneAt a y t.fmt.bits j)) (valueOf t.fmt (laneAt a d t.fmt.bits j))), false⟩

/-- A long function of one register. -/
def longFp (a : Arch) (t : FT) (d x : BitVec 6) (wx : Bool) (f : Fp → Exact) : LaneRule :=
  ⟨d, [srcF .v x.toNat 0 wx], false, 512 / t.fmt.bits, t.fmt.bits, fun j => rounded t.fmt a _ (f (valueOf t.fmt (laneAt a x t.fmt.bits j))), true⟩

/-- One lane of VCVT (R206). -/
def converted (src dst : LaneTy) (m : RMode) (x : BitVec src.bits) : BitVec dst.bits × BitVec 6 :=
  match src, dst with
  | .fp t, .fp u =>
    if t = u then (if (valueOf t x).isNan then BitVec.ofNat _ t.nan else x.setWidth _, 0)
    else let r := roundTo u m (exact (valueOf t x)); (BitVec.ofNat _ r.1, r.2)
  | .fp t, .int n sg => let r := fpToInt n sg m (valueOf t x); (BitVec.ofInt _ r.1, r.2)
  | .int _ sg, .fp u =>
    let r := roundTo u m (exact (intFp (if sg then x.toInt else (x.toNat : Int)))); (BitVec.ofNat _ r.1, r.2)
  | .int _ sg, .int k sg' =>
    let v : Int := if sg then x.toInt else (x.toNat : Int)
    let c := max (lowest k sg') (min (highest k sg') v)
    (BitVec.ofInt _ c, if c = v then 0 else fSAT)

/-- A lane without its sign (R200): of a NaN the canonical NaN. -/
def magnitude {w : Nat} (t : LaneTy) (u : BitVec w) : BitVec w :=
  match t with
  | .fp f => if (valueOf f u).isNan then BitVec.ofNat w f.nan else u &&& ~~~BitVec.intMin w
  | .int _ _ => if u.slt 0 then -u else u
/-- A lane with its sign changed (R200): of a NaN the canonical NaN. -/
def negated {w : Nat} (t : LaneTy) (u : BitVec w) : BitVec w :=
  match t with
  | .fp f => if (valueOf f u).isNan then BitVec.ofNat w f.nan else u ^^^ BitVec.intMin w
  | .int _ _ => -u

/-- The rules of the vector instructions under q0 (R199 to R207). -/
def vectorRule (a : Arch) : Instr → Option LaneRule
  | .vadd d x y wx wy t => some (lanes2 a t d x y wx wy (fun u v => sumFp a.rm [u, v]) fun _ u v => u + v)
  | .vsub d x y wx wy t => some (lanes2 a t d x y wx wy (fun u v => sumFp a.rm [u, v.negate]) fun _ u v => u - v)
  | .vmul d x y wx wy t => some (lanes2 a t d x y wx wy mulFp fun _ u v => u * v)
  | .vmin d x y wx wy t => some (match t.ty with
    | .fp f => bitwise2 a f.bits d x y wx wy (pickFp f false)
    | .int n _ => bitwise2 a n d x y wx wy fun u v => if v.slt u then v else u)
  | .vmax d x y wx wy t => some (match t.ty with
    | .fp f => bitwise2 a f.bits d x y wx wy (pickFp f true)
    | .int n _ => bitwise2 a n d x y wx wy fun u v => if u.slt v then v else u)
  | .vabs d x wx t => some ⟨d, [srcF .v x.toNat 0 wx], false, 512 / t.ty.bits, t.ty.bits, fun j => (magnitude t.ty (laneAt a x t.ty.bits j), 0), false⟩
  | .vneg d x wx t => some ⟨d, [srcF .v x.toNat 0 wx], false, 512 / t.ty.bits, t.ty.bits, fun j => (negated t.ty (laneAt a x t.ty.bits j), 0), false⟩
  | .vfma d x y wx wy t => some (fused a t d x y wx wy false)
  | .vfms d x y wx wy t => some (fused a t d x y wx wy true)
  | .vdiv d x y wx wy t => some ⟨d, bothV x y wx wy, false, 512 / t.fmt.bits, t.fmt.bits, fun j =>
    rounded t.fmt a _ (divFp (valueOf t.fmt (laneAt a x t.fmt.bits j)) (valueOf t.fmt (laneAt a y t.fmt.bits j))), true⟩
  | .vsqrt d x wx t => some (longFp a t d x wx sqrtFp)
  | .vrcp d x wx t => some (longFp a t d x wx (divFp (.fin false 1 0)))
  | .vrsq d x wx t => some (longFp a t d x wx rsqrtFp)
  | .vand d x y wx wy => some (bitwise2 a 8 d x y wx wy fun u v => u &&& v)
  | .vor d x y wx wy => some (bitwise2 a 8 d x y wx wy fun u v => u ||| v)
  | .vxor d x y wx wy => some (bitwise2 a 8 d x y wx wy fun u v => u ^^^ v)
  | .vshl d x y wx wy w => some (bitwise2 a w.bits d x y wx wy fun u v => if w.bits ≤ v.toNat then 0 else u <<< v.toNat)
  | .vshr d x y wx wy w => some (bitwise2 a w.bits d x y wx wy fun u v => if w.bits ≤ v.toNat then 0 else u >>> v.toNat)
  | .vshrArith d x y wx wy w => some (bitwise2 a w.bits d x y wx wy fun u v => u.sshiftRight (min v.toNat w.bits))
  | .vcvt d x wx src dst rm => some ⟨d, [srcF .v x.toNat 0 wx], false, 512 / max src.ty.bits dst.ty.bits, dst.ty.bits,
    fun j => converted src.ty dst.ty (rm.getD a.rm) (laneAt a x src.ty.bits j), false⟩
  | .vbcast d x wx w => some ⟨d, [srcG x wx 0], false, 512 / w.bits, w.bits, fun _ => ((gv a x).setWidth _, 0), false⟩
  | .vperm d x y wx wy w => some ⟨d, bothV x y wx wy, false, 512 / w.bits, w.bits, fun j =>
    (laneAt a x w.bits ((laneAt a y w.bits j).toNat % (512 / w.bits)), 0), false⟩
  | _ => none

/-- The lanes that q0 enables. -/
def laneOn (a : Arch) (j : Nat) : Bool := (a.qr 0).val.getLsbD j
/-- The sources of such an instruction (R196, R197): the named ones, the old destination when it is read or a lane of it stays, and q0. -/
def LaneRule.srcs (r : LaneRule) (a : Arch) : List Src :=
  r.named ++ (if r.old || (List.range r.n).any (fun j => !laneOn a j) then [srcF .v r.dst.toNat 2] else []) ++ [srcF .q 0 3]
/-- The flags of all enabled lanes (R198). -/
def LaneRule.flags (r : LaneRule) (a : Arch) : BitVec 6 := ((List.range r.n).filter (laneOn a)).foldl (fun f j => f ||| (r.lane j).2) 0
/-- From `s` to `t` only the current context changed, and what its operations in the matrix unit keep of registers before these are marked empty (R213); where it has none,
the cells are as they were. -/
def OnlyMeAndOps (s t : State) : Prop :=
  t = { s with ctxs := t.ctxs, cells := t.cells } ∧ (∀ c, c ≠ s.cur → t.ctx c = s.ctx c) ∧
    (∀ n, t.cell n = { s.cell n with
      matrix := (t.cell n).matrix, follows := (t.cell n).follows, cwait := (t.cell n).cwait, copies := (t.cell n).copies }) ∧
    (hasMatOps (s.cell (cellOf s.cur)) s.cur (s.plc s.cur) = false → SameCells s t)
/-- The new content of the destination: the enabled lanes have their value, the other lanes the old one, and what lies above the lanes is zero. -/
def LaneRule.Gives (r : LaneRule) (a : Arch) (v : BitVec 512) : Prop :=
  (∀ j, j < r.n → v.extractLsb' (r.w * j) r.w = if laneOn a j then (r.lane j).1 else laneAt a r.dst r.w j) ∧
    ∀ k, r.n * r.w ≤ k → v.getLsbD k = false

end Sys2Proof.Spec

/-- R195 to R207: a vector instruction under q0 writes its value into each enabled lane and keeps the others, under the product of the labels of all its
sources, with the flags of all enabled lanes set; a flag that is enabled is the arithmetic fault instead. VDIV, VSQRT, VRCP and VRSQ mark their
destination empty and deliver the same value later. -/
def Obligations.VectorResult : Prop :=
  ∀ (s : State) (i : Instr) (r : LaneRule), MayIssue i s → vectorRule (me s) i = some r → Readable (me s) (r.srcs (me s)) →
    Writable (me s) ⟨.v, r.dst.toNat⟩ →
    (r.flags (me s) &&& (me s).en ≠ 0 →
      exec i s = .next (takeTrap s s.cur ⟨0x19, 0, (r.flags (me s)).setWidth 64, r.flags (me s)⟩ false (me s).pc)) ∧
    (r.flags (me s) &&& (me s).en = 0 → ∃ v, r.Gives (me s) v ∧
      (r.long = false → exec i s = .next (advance i (fill (if r.flags (me s) = 0 then s else s.modArch s.cur fun a => a.orFlags (r.flags (me s)))
        s.cur ⟨.v, r.dst.toNat⟩ (.v v) (srcLabels (me s) (r.srcs (me s)))) s.cur)) ∧
      (r.long = true → ∃ t, exec i s = .next t ∧ OnlyMeAndOps s t ∧ (me t).pc = (me s).pc + 4 ∧ (me t).flg = (me s).flg ||| r.flags (me s) ∧
        ((me t).rmeta ⟨.v, r.dst.toNat⟩).fe = .empty ∧ RegsBut (me s) (me t) ⟨.v, r.dst.toNat⟩ ∧
        Launched s t (.vlong ⟨⟨.v, r.dst.toNat⟩, .v v, srcLabels (me s) (r.srcs (me s)), (me s).pc⟩)))

/-- R45 to R49: a value that a format holds is rounded to itself, in every mode and with no flag. -/
def Obligations.RepresentableIsExact : Prop :=
  ∀ (t : Fmt) (m : RMode) (b : Nat), t ∈ [fmt64, fmt32, fmt16, fmtB16, fmtE5M2, fmtE4M3] → b < 2 ^ t.bits → decodeFp t b ≠ .nan →
    roundTo t m (exact (decodeFp t b)) = (b, 0)

namespace Sys2Proof.Spec

/-- What an instruction that delivers one register from masks and vectors does: destination, sources, and each bit of the result. -/
structure BitRule where
  dst : RegId
  srcs : List Src
  bit : Nat → Bool

/-- Bit `j` of a mask register. -/
def qBit (a : Arch) (q : Nat) (j : Nat) : Bool := (a.qr q).val.getLsbD j
/-- Bit `j` of a v register. -/
def vBit (a : Arch) (v : BitVec 6) (j : Nat) : Bool := (a.vr v.toNat).val.getLsbD j

/-- The comparisons of R201. -/
def holdsFor {w : Nat} (t : LaneTy) (k : Cond) (x y : BitVec w) : Bool :=
  match t with
  | .fp f =>
    let o := cmpFp (valueOf f x) (valueOf f y)
    match k with
    | .eq => o == some .eq
    | .ne => o != some .eq
    | .lt => o == some .lt
    | .le => o == some .lt || o == some .eq
    | .ltn => o == some .lt || o == none
    | .len => o == some .lt || o == some .eq || o == none
    | .un => o == none
  | .int _ _ => match k with
    | .eq => x == y
    | .ne => x != y
    | .lt => x.slt y
    | .le => !y.slt x
    | .ltn => decide (x < y)
    | .len => decide (x ≤ y)
    | .un => false

/-- The rules of VCMP, VSEL, VEXT, VINS, the mask instructions and TRANGE (R201, R202, R207, R209, R210, R221). -/
def bitRule (a : Arch) : Instr → Option BitRule
  | .vcmp qd k x y wx wy t => some ⟨⟨.q, qd.toNat⟩, bothV x y wx wy ++ [srcF .q 0 3], fun j =>
      decide (j < 512 / t.ty.bits) && qBit a 0 j && holdsFor t.ty k (laneAt a x t.ty.bits j) (laneAt a y t.ty.bits j)⟩
  | .vsel d x y wx wy qn => some ⟨⟨.v, d.toNat⟩, bothV x y wx wy ++ [srcF .q qn.toNat 3], fun j =>
      if qBit a qn.toNat (j / 8) then vBit a x j else vBit a y j⟩
  | .vext d x y wx wy w => some ⟨gd d, [srcF .v x.toNat 0 wx, srcG y wy 1], fun j =>
      decide (j < w.bits) && vBit a x ((gv a y).toNat % (512 / w.bits) * w.bits + j)⟩
  | .vins d x y wx wy w => some ⟨⟨.v, d.toNat⟩, [srcG x wx 0, srcG y wy 1, srcF .v d.toNat 2, srcF .q 0 3], fun j =>
      let l := (gv a y).toNat % (512 / w.bits)
      if j / w.bits = l ∧ qBit a 0 l = true then (gv a x).getLsbD (j % w.bits) else vBit a d j⟩
  | .mand d x y wx wy => some ⟨⟨.q, d.toNat⟩, [srcF .q x.toNat 0 wx, srcF .q y.toNat 1 wy], fun j => qBit a x.toNat j && qBit a y.toNat j⟩
  | .mor d x y wx wy => some ⟨⟨.q, d.toNat⟩, [srcF .q x.toNat 0 wx, srcF .q y.toNat 1 wy], fun j => qBit a x.toNat j || qBit a y.toNat j⟩
  | .mxor d x y wx wy => some ⟨⟨.q, d.toNat⟩, [srcF .q x.toNat 0 wx, srcF .q y.toNat 1 wy], fun j => qBit a x.toNat j != qBit a y.toNat j⟩
  | .mnot d x wx => some ⟨⟨.q, d.toNat⟩, [srcF .q x.toNat 0 wx], fun j => decide (j < 64) && !qBit a x.toNat j⟩
  | .mpop d x wx => some ⟨gd d, [srcF .q x.toNat 0 wx], fun j => (BitVec.ofNat 64 ((List.range 64).countP (qBit a x.toNat))).getLsbD j⟩
  | .mset d x wx m => some (match m with
    | .spread1 => ⟨⟨.q, d.toNat⟩, [srcF .q x.toNat 0 wx], qBit a x.toNat⟩
    | .spread2 => ⟨⟨.q, d.toNat⟩, [srcF .q x.toNat 0 wx], fun j => decide (j < 64) && qBit a x.toNat (j / 2)⟩
    | .spread4 => ⟨⟨.q, d.toNat⟩, [srcF .q x.toNat 0 wx], fun j => decide (j < 64) && qBit a x.toNat (j / 4)⟩
    | .spread8 => ⟨⟨.q, d.toNat⟩, [srcF .q x.toNat 0 wx], fun j => decide (j < 64) && qBit a x.toNat (j / 8)⟩
    | .first => ⟨⟨.q, d.toNat⟩, [srcG x wx 0], fun j => decide (j < 64) && decide (j < (gv a x).toNat)⟩
    | .copy => ⟨⟨.q, d.toNat⟩, [srcG x wx 0], fun j => (gv a x).getLsbD j⟩)
  | .trange d x y wx wy m => some ⟨⟨.x, d.toNat⟩, [srcG x wx 0, srcG y wy 1, srcF .x d.toNat 2], fun j =>
      let base := match m with | .rows => 32 | .columns => 48 | .depth => 0
      if base ≤ j ∧ j < base + 16 then decide ((gv a x).toInt + (j - base : Nat) < (gv a y).toInt) else (a.xr d.toNat).val.getLsbD j⟩
  | _ => none

/-- Bit `j` of a value of a register of g, q, x or v. -/
def RVBit (v : RV) (j : Nat) : Bool :=
  match v with
  | .w x => x.getLsbD j
  | .v x => x.getLsbD j
  | .k _ => false
/-- A value of the kind that a register of a file holds. -/
def kindOf (f : RFile) (v : RV) : Bool :=
  match f, v with
  | .v, .v _ => true
  | .g, .w _ => true
  | .q, .w _ => true
  | .x, .w _ => true
  | _, _ => false

end Sys2Proof.Spec

namespace Sys2Proof.Spec

/-- The integer reductions of R208: lanes sign-extended to 64 bits, sums modulo 2^64. -/
def intReduction (a : Arch) : Instr → Option (BitVec 6 × List Src × Word)
  | .vred d x wx op t => match t.ty with
    | .int n _ =>
      let on := (List.range (512 / n)).filter (laneOn a)
      some (d, [srcF .v x.toNat 0 wx, srcF .q 0 3], match op with
        | .sum => on.foldl (fun z j => z + (laneAt a x n j).signExtend 64) 0
        | .min => (on.foldl (fun z j => if (laneAt a x n j).slt z then laneAt a x n j else z) (BitVec.intMax n)).signExtend 64
        | .max => (on.foldl (fun z j => if z.slt (laneAt a x n j) then laneAt a x n j else z) (BitVec.intMin n)).signExtend 64)
    | .fp _ => none
  | .vdot d x y wx wy t => match t.ty with
    | .int n _ => some (d, bothV x y wx wy ++ [srcF .q 0 3], ((List.range (512 / n)).filter (laneOn a)).foldl
        (fun z j => z + (laneAt a x n j).signExtend 64 * (laneAt a y n j).signExtend 64) 0)
    | .fp _ => none
  | _ => none

/-- The floating-point reductions of R208, by the tree of R64. -/
def fpReduction (a : Arch) : Instr → Option (BitVec 6 × List Src × Word × BitVec 6)
  | .vred d x wx op t => match t.ty with
    | .fp f => let r := redFp f op a.rm (a.qr 0).val (a.vr x.toNat).val; some (d, [srcF .v x.toNat 0 wx, srcF .q 0 3], BitVec.ofNat 64 r.1, r.2)
    | .int _ _ => none
  | .vdot d x y wx wy t => match t.ty with
    | .fp f => let r := dotFp f a.rm (a.qr 0).val (a.vr x.toNat).val (a.vr y.toNat).val
      some (d, bothV x y wx wy ++ [srcF .q 0 3], BitVec.ofNat 64 r.1, r.2)
    | .int _ _ => none
  | _ => none

end Sys2Proof.Spec

/-- R201, R202, R207, R209, R210, R221: VCMP, VSEL, VEXT, VINS, the mask instructions and TRANGE fill their destination with a value that has, bit by bit,
what their rule gives, under the product of the labels of their sources, and set no flag.
R208: VRED and VDOT mark their destination empty with the reduction of the enabled lanes under way. Integer lanes set no flag; the flags of the
floating-point tree are set at issue, and an enabled one is the arithmetic fault. -/
def Obligations.MaskAndReduction : Prop :=
  (∀ (s : State) (i : Instr) (r : BitRule), MayIssue i s → bitRule (me s) i = some r → Readable (me s) r.srcs → Writable (me s) r.dst →
    ∃ v, kindOf r.dst.file v = true ∧ (∀ j, RVBit v j = (decide (j < 512) && r.bit j)) ∧
      exec i s = .next (advance i (fill s s.cur r.dst v (srcLabels (me s) r.srcs)) s.cur)) ∧
  (∀ (s : State) (i : Instr) (d : BitVec 6) (xs : List Src) (v : Word) (f : BitVec 6), MayIssue i s →
    (intReduction (me s) i = some (d, xs, v) ∧ f = 0 ∨ fpReduction (me s) i = some (d, xs, v, f)) → Readable (me s) xs → Writable (me s) (gd d) →
    (f &&& (me s).en ≠ 0 → exec i s = .next (takeTrap s s.cur ⟨0x19, 0, f.setWidth 64, f⟩ false (me s).pc)) ∧
    (f &&& (me s).en = 0 → ∃ t, exec i s = .next t ∧ OnlyMe s t ∧ (me t).pc = (me s).pc + 4 ∧ (me t).flg = (me s).flg ||| f ∧
      (d ≠ 0 → ((me t).rmeta (gd d)).fe = .empty) ∧ RegsBut (me s) (me t) (gd d) ∧
      Launched s t (.vlong ⟨gd d, .w v, srcLabels (me s) xs, (me s).pc⟩)))

namespace Sys2Proof.Spec

/-- Format, rows and columns of a tile (R211). -/
def shapeOf (a : Arch) (k : BitVec 6) : Nat × Nat × Nat :=
  let w := tcfg a k.toNat
  ((w.setWidth 6).toNat, (w.extractLsb' 6 4).toNat + 1, (w.extractLsb' 10 4).toNat + 1)

/-- The rows of the table of R219: formats of ka and kb, accumulator 16 or 32 bits wide, format of kd. -/
def mmaFormats (fa fb : Nat) (acc16 : Bool) (fd : Nat) : Bool :=
  (((fa == 5 || fa == 6) && (fb == 5 || fb == 6)) || (fa == fb && (fa == 2 || fa == 3 || fa == 4))) && fd == (if acc16 then 3 else 2) ||
    (fa == 0xA || fa == 0xB) && (fb == 0xA || fb == 0xB) && !acc16 && fd == 0xE

/-- A TM-format instruction: destinations, sources, whether its tiles fit together, and its cost in cycles (R217 to R224). -/
structure TileRule where
  dsts : List RegId
  srcs : List Src
  fits : Bool
  cost : Nat
deriving DecidableEq, Repr

/-- A tile as destination. -/
def kd (k : BitVec 6) : RegId := ⟨.k, k.toNat⟩
/-- The fields of MMA and MMAZ. -/
def mmaRule (a : Arch) (d x y : BitVec 6) (xn : BitVec 3) (acc16 : Bool) (old : List Src) : TileRule :=
  let (fd, rd, cd) := shapeOf a d; let (fx, rx, cx) := shapeOf a x; let (fy, ry, cy) := shapeOf a y
  ⟨[kd d], [srcF .k x.toNat 0, srcF .k y.toNat 1] ++ old ++ [srcF .x xn.toNat 3],
    mmaFormats fx fy acc16 fd && rx == rd && cx == ry && cy == cd,
    if fx = 2 then 16 else if fx = 3 ∨ fx = 4 then 4 else 2⟩

/-- The rules of the TM-format instructions. -/
def tileRule (a : Arch) : Instr → Option TileRule
  | .mma d x y xn acc16 => some (mmaRule a d x y xn acc16 [srcF .k d.toNat 2])
  | .mmaz d x y xn acc16 => some (mmaRule a d x y xn acc16 [])
  | .tzero d => some ⟨[kd d], [], true, 2⟩
  | .tcvt d x => some ⟨[kd d], [srcF .k x.toNat 0], (shapeOf a d).2 == (shapeOf a x).2, 4⟩
  | .tadd d x y => some ⟨[kd d], [srcF .k x.toNat 0, srcF .k y.toNat 1], shapeOf a d == shapeOf a x && shapeOf a d == shapeOf a y, 4⟩
  | .tscale d x xn => some ⟨[kd d], [srcF .k x.toNat 0, srcF .x xn.toNat 3], shapeOf a d == shapeOf a x, 4⟩
  | .ttrans d x => some ⟨[kd d], [srcF .k x.toNat 0],
      (shapeOf a d).1 == (shapeOf a x).1 && (shapeOf a d).2.1 == (shapeOf a x).2.2 && (shapeOf a d).2.2 == (shapeOf a x).2.1, 4⟩
  | .trowv d x xn => some ⟨[⟨.v, d.toNat⟩], [srcF .k x.toNat 0, srcF .x xn.toNat 3],
      decide (((a.xr xn.toNat).val.setWidth 4).toNat < (shapeOf a x).2.1), 4⟩
  | .tvrow d v xn => some ⟨[kd d], [srcF .v v.toNat 0, srcF .k d.toNat 2, srcF .x xn.toNat 3],
      decide (((a.xr xn.toNat).val.setWidth 4).toNat < (shapeOf a d).2.1), 4⟩
  | .tfact d x q xn _ => some ⟨[kd d, ⟨.q, q.toNat⟩], [srcF .k x.toNat 0, srcF .x xn.toNat 3],
      (shapeOf a d).1 == 2 && (shapeOf a d).2.1 == (shapeOf a d).2.2 && shapeOf a d == shapeOf a x, 256⟩
  | .tsolve d x y _ _ right => some ⟨[kd d], [srcF .k x.toNat 0, srcF .k y.toNat 1],
      (shapeOf a d).1 == 2 && (shapeOf a x).1 == 2 && (shapeOf a x).2.1 == (shapeOf a x).2.2 && shapeOf a d == shapeOf a y &&
        (if right then (shapeOf a d).2.2 else (shapeOf a d).2.1) == (shapeOf a x).2.1, 128⟩
  | _ => none

/-- The operations of the current strand. -/
def mine (s : State) (o : MatOp) : Bool := o.c == s.cur && o.plc == s.plc s.cur
/-- A register of the current strand that an operation its cell's matrix unit has accepted is still to fill, and no follow-on (R16, R213, R261). -/
def queued (s : State) (r : RegId) : Prop :=
  (∃ o ∈ (s.cell (cellOf s.cur)).matrix, mine s o = true ∧ r ∈ matDests o.ins) ∧
    ∀ o ∈ (s.cell (cellOf s.cur)).followOps, mine s o = true → r ∉ matDests o.ins
/-- An operation but for what it keeps of registers that were marked empty since (R213). -/
def bare (o : MatOp) : MatOp := { o with pre := [], preV := [], preW := [] }

end Sys2Proof.Spec

/-- R16, R213, R217 to R219, R222 to R224: a TM-format instruction whose sources are full, or tiles that an accepted one is still to fill, and whose destinations are not
empty, or are still to be filled by an accepted one, is the tile configuration fault when its tiles do not fit together, reporting one of them; otherwise, while the
context has fewer than four in the unit and the costs fit in 512 cycles, the unit accepts it with the rounding mode and the configurations read now, and its
destinations are empty, a tile among them being kept for it as it stood; else it waits. -/
def Obligations.MatrixIssue : Prop :=
  ∀ (s : State) (i : Instr) (r : TileRule), MayIssue i s → tileRule (me s) i = some r →
    (∀ x ∈ r.srcs, ((me s).rmeta x.r).fe = .full ∨ (((me s).rmeta x.r).fe = .empty ∧ x.r.file = .k ∧ queued s x.r)) →
    spaceClash none (srcLabels (me s) r.srcs) = none → (∀ d ∈ r.dsts, Writable (me s) d ∨ queued s d) →
    let q := (s.cell (cellOf s.cur)).matrix
    let room := (q.filter (mine s)).length < 4 ∧ (q.map (·.cost)).foldl (· + ·) 0 + r.cost ≤ 512
    (r.fits = false → ∃ k : BitVec 6, (Instr.regs i).contains (.k, k.toNat) = true ∧
      exec i s = .next (takeTrap s s.cur ⟨0x1C, 0, tcfg (me s) k.toNat, 0⟩ false (me s).pc)) ∧
    (r.fits = true → ¬room → exec i s = .next s) ∧
    (r.fits = true → room → ∃ t o, exec i s = .next t ∧ (∃ q', (t.cell (cellOf s.cur)).matrix = q' ++ [o] ∧ q'.map bare = q.map bare) ∧ o.ins = i ∧ o.c = s.cur ∧ o.plc = s.plc s.cur ∧
      o.rm = (me s).rm ∧ o.cost = r.cost ∧ o.srcs = none ∧
      (∀ d ∈ r.dsts, d.file = .k → Tab.get? o.pre d.n = if ((me s).rmeta d).fe = .empty then none else some ((me s).kr d.n)) ∧
      (∀ k : BitVec 6, (Instr.regs i).contains (.k, k.toNat) = true → Tab.get o.cfgs k.toNat 0x3FC2 = tcfg (me s) k.toNat) ∧
      (me t).pc = (me s).pc + 4 ∧ (∀ b, t.byte b = s.byte b) ∧ (∀ d ∈ r.dsts, ((me t).rmeta d).fe = .empty) ∧
      (∀ z, z ∉ r.dsts → (me t).rmeta z = (me s).rmeta z) ∧ ∀ z, (me t).regVal z = (me s).regVal z)

namespace Sys2Proof.Spec

/-- The only operation of a cell's matrix unit has started, for a strand that runs, with full sources of one label space, and no follow-on is about. -/
def Started (s : State) (n : Nat) (o : MatOp) (m : MSrcs) : Prop :=
  (s.cell n).matrix = [o] ∧ cellOf o.c = n ∧ s.plc o.c = o.plc ∧ o.srcs = some m ∧ (s.cell n).follows = [] ∧ (s.cell n).cwait = [] ∧ (s.cell n).copies = [] ∧
    (∀ x ∈ matSrcs o.ins, (m.rmeta x.r).fe = .full) ∧ spaceClash none ((matSrcs o.ins).map fun x => (m.rmeta x.r).lab) = none

/-- A tile that an operation took, and its configuration. -/
def taken (m : MSrcs) (k : BitVec 6) : List Elem := (Tab.get m.k k.toNat (Reg.of [])).val
/-- The element (i, j) of a tile of this many columns. -/
def element (t : List Elem) (cols i j : Nat) : Elem := t.getD (i * cols + j) (.raw 0)
/-- An element of an integer tile format. -/
def intElem (fmt : Nat) (e : Elem) : Int :=
  match e with
  | .raw b => if fmt = 0xA then (b.setWidth 8).toInt else if fmt = 0xB then ((b.setWidth 8).toNat : Int) else b.toInt
  | .val _ => 0
/-- The floating-point format of a tile format. -/
def fpFormat (fmt : Nat) : Fmt := if fmt = 3 then fmt16 else if fmt = 4 then fmtB16 else if fmt = 5 then fmtE4M3 else if fmt = 6 then fmtE5M2 else fmt32
/-- The element type of a tile format (R211). -/
def tileLane (fmt : Nat) : LaneTy := if fmt = 0xA then .int 8 true else if fmt = 0xB then .int 8 false else if fmt = 0xE then .int 32 true else .fp (fpFormat fmt)
/-- The tile formats (R211). -/
def tileFormats : List Nat := [2, 3, 4, 5, 6, 0xA, 0xB, 0xE]
/-- The exact value of an element of a floating-point tile. -/
def fpElem (fmt : Nat) (e : Elem) : Fp :=
  match e with
  | .raw b => decodeFp (fpFormat fmt) b.toNat
  | .val x => x

/-- Bits of an element of a tile format in memory and in a vector's lane (R211). -/
def elemWidth (fmt : Nat) : Nat := if fmt = 3 ∨ fmt = 4 then 16 else if fmt = 5 ∨ fmt = 6 ∨ fmt = 0xA ∨ fmt = 0xB then 8 else 32
/-- An element of raw bits from a rounding, with its flags. -/
def rawOf (p : Nat × BitVec 6) : Elem × BitVec 6 := (.raw (BitVec.ofNat 32 p.1), p.2)
/-- An element in its memory format: an FP8 one is rounded, and a raw element of another format stays (R212, R216, R222). -/
def storedElem (fmt : Nat) (rm : RMode) (e : Elem) : Nat × BitVec 6 :=
  match e with
  | .raw b => if fmt = 5 ∨ fmt = 6 then roundTo (fpFormat fmt) rm (exact (fpElem fmt e)) else (b.toNat, 0)
  | .val _ => roundTo (fpFormat fmt) rm (exact (fpElem fmt e))
/-- An element that its tile format can hold: bits of its width, or, in an FP8 tile alone, an exact value (R212). -/
def Holds (fmt : Nat) (e : Elem) : Prop :=
  match e with
  | .raw b => b.toNat < 2 ^ elemWidth fmt
  | .val _ => fmt = 5 ∨ fmt = 6

/-- Element (i, j) after MMA (R61 to R63, R220): the old element `c`, read as −0 or 0 by MMAZ, and the products that the depth mask selects; a product of zero and infinity,
and infinities of both signs, give the NaN of the accumulator's format and NV. -/
def mmaValue (m : MSrcs) (rm : RMode) (fx fy cx cd : Nat) (x y : BitVec 6) (kmask : Word) (acc16 : Bool) (c : Elem) (fresh : Bool) (i j : Nat) : Elem × BitVec 6 :=
  let ks := (List.range cx).filter fun k => kmask.getLsbD k
  if fx = 0xA ∨ fx = 0xB then
    (.raw (ks.foldl (fun z k => z + BitVec.ofInt 32 (intElem fx (element (taken m x) cx i k) * intElem fy (element (taken m y) cd k j)))
      (BitVec.ofInt 32 (if fresh then 0 else intElem 0xE c))), 0)
  else
    let u := if acc16 then fmt16 else fmt32
    let ps := ks.map fun k => mulFp (fpElem fx (element (taken m x) cx i k)) (fpElem fy (element (taken m y) cd k j))
    let vs := (if fresh then Fp.zero true else fpElem (if acc16 then 3 else 2) c) :: ps.map (·.x)
    rawOf (if ps.any (fun p => p.flags != 0) || (vs.any (fun v => v.isInf && v.neg) && vs.any fun v => v.isInf && !v.neg) then (u.nan, fNV)
      else roundTo u rm (sumFp rm vs))

/-- The sum of two elements of a format (R222). -/
def addedElem (fmt : Nat) (rm : RMode) (x y : Elem) : Elem × BitVec 6 :=
  match tileLane fmt with
  | .fp u => rawOf (roundTo u rm (sumFp rm [fpElem fmt x, fpElem fmt y]))
  | .int n _ => (.raw ((BitVec.ofInt n (intElem fmt x + intElem fmt y)).setWidth 32), 0)
/-- An element scaled by an x register (R222). -/
def scaledBy (fmt : Nat) (rm : RMode) (x : Word) (e : Elem) : Elem × BitVec 6 :=
  match tileLane fmt with
  | .fp u => rawOf (roundTo u rm (mulFp (fpElem fmt e) (decodeFp fmt32 (x.setWidth 32).toNat)))
  | .int n _ => (.raw ((BitVec.ofInt n (intElem fmt e * x.toInt)).setWidth 32), 0)
/-- An element converted to another format (R206, R212, R222). -/
def convertedElem (fx fd : Nat) (rm : RMode) (e : Elem) : Elem × BitVec 6 :=
  match e with
  | .raw b => let r := converted (tileLane fx) (tileLane fd) rm (b.setWidth _); (.raw (r.1.setWidth 32), r.2)
  | .val x => match tileLane fd with
    | .fp u => rawOf (roundTo u rm (exact x))
    | .int n sg => let r := fpToInt n sg rm x; (.raw ((BitVec.ofInt n r.1).setWidth 32), r.2)

/-- The state of a factorisation: FP32 patterns by place, the pivot flags and the flags of the roundings. -/
structure Factor where
  at_ : Nat → Nat → Nat
  flagged : Word
  fl : BitVec 6
/-- The value of an FP32 pattern. -/
def fp32 (x : Nat) : Fp := decodeFp fmt32 x
/-- The flags of some roundings together. -/
def allFlags (l : List (BitVec 6)) : BitVec 6 := l.foldl (· ||| ·) 0
/-- One turn of the outer loop of R223. That the update raises the flags of a fused multiply-add is the model's choice (log 105). -/
def factorStep (chol : Bool) (rm : RMode) (theta rho n : Nat) (t : Factor) (k : Nat) : Factor :=
  let p := t.at_ k k
  let small := (fp32 p).isNan || cmpFp (if chol then fp32 p else (fp32 p).abs) (fp32 theta) == some .lt
  let p := if small then canonNan fmt32 (rho % 2 ^ 31 + if chol then 0 else p / 2 ^ 31 * 2 ^ 31) else p
  let root := if chol then roundTo fmt32 rm (sqrtFp (fp32 p)) else (p, 0)
  let ratio (i : Nat) := roundTo fmt32 rm (divFp (fp32 (t.at_ i k)) (fp32 root.1))
  let c (i j : Nat) : Nat := if j = k then (if i = k then root.1 else if k < i ∧ i < n then (ratio i).1 else t.at_ i j) else t.at_ i j
  let less (i j : Nat) := roundTo fmt32 rm (fmaFp rm (fp32 (c i k)).negate (fp32 (if chol then c j k else c k j)) (fp32 (c i j)))
  let under := (List.range n).filter fun i => decide (k < i)
  let both := (under.flatMap fun i => under.map fun j => (i, j)).filter fun p => !chol || decide (p.2 ≤ p.1)
  { at_ := fun i j => if (i, j) ∈ both then (less i j).1 else c i j
    flagged := if small then t.flagged ||| BitVec.ofNat 64 (2 ^ k) else t.flagged
    fl := t.fl ||| root.2 ||| allFlags (under.map fun i => (ratio i).2) ||| allFlags (both.map fun p => (less p.1 p.2).2) }
/-- TFACT of an n × n tile (R223). -/
def factorOf (chol : Bool) (rm : RMode) (x : Word) (n : Nat) (t : List Elem) : Factor :=
  (List.range n).foldl (factorStep chol rm (x.setWidth 32).toNat (x.extractLsb' 32 32).toNat n) ⟨fun i j => (storedElem 2 rm (element t n i j)).1, 0, 0⟩

/-- Element (i, j) of the solution of R224, from the elements before it in the substitution order: the element of B less the terms already computed, rounded
once, then divided by the diagonal's element. `X` gives the elements of the solution. -/
def solvedElem (m : MSrcs) (rm : RMode) (n cols : Nat) (x y : BitVec 6) (upper unit right : Bool) (X : Nat → Nat → Elem) (i j : Nat) : Elem × BitVec 6 :=
  let T (p q : Nat) : Fp := fpElem 2 (element (taken m x) n p q)
  let at_ := if right then j else i
  let terms := ((List.range n).filter fun k => if upper == right then decide (k < at_) else decide (at_ < k)).map fun k =>
    if right then mulFp (fpElem 2 (X i k)).negate (T k j) else mulFp (T i k).negate (fpElem 2 (X k j))
  let u := roundTo fmt32 rm (sumProducts rm [fpElem 2 (element (taken m y) cols i j)] terms)
  if unit then rawOf u
  else let z := roundTo fmt32 rm (divFp (fp32 u.1) (T at_ at_)); rawOf (z.1, u.2 ||| z.2)

/-- What completing an operation leaves in the registers of its strand: each element of its tile is `f`, the other registers that it names stand beside, and the
flags of all roundings are set (R218). -/
def TileIs (s t : State) (o : MatOp) (d : BitVec 6) (rows cols : Nat) (f : Nat → Nat → Elem × BitVec 6) : Prop :=
  (∀ i j, i < rows → j < cols → element ((t.ctx o.c).arch.kr d.toNat).val cols i j = (f i j).1) ∧
    (t.ctx o.c).arch.flg = (s.ctx o.c).arch.flg ||| allFlags ((List.range rows).flatMap fun i => (List.range cols).map fun j => (f i j).2)

end Sys2Proof.Spec

/-- R213, R217, R218, R220, R222 to R224, R261: the unit starts its oldest operation with the sources as they stand, and completes it by filling its destinations under the
product of the labels, with the flags of its roundings set and no trap. Of MMA each element that the masks select is the old one plus the products the depth mask selects;
the element-wise instructions give each element its rule; TFACT gives the factor and its pivot flags, and TSOLVE the solution; a follow-on whose turn has come is accepted
when the unit has room. A source that a later instruction holds empty is read as it was kept (the model's choice, log 99). -/
def Obligations.MatrixCompletes : Prop :=
  (∀ (s : State) (n : Nat) (o : MatOp) (os : List MatOp), (s.cell n).matrix = o :: os → o.srcs = none → s.plc o.c = o.plc → srcsAwait o (s.ctx o.c).arch = false →
    ∃ t m, exec (.matrixInstructionStart n) s = .next t ∧ (t.cell n).matrix = { o with srcs := some m } :: os ∧ t.ctxs = s.ctxs ∧
      ∀ x ∈ matSrcs o.ins,
        (x.r.file = .k → Tab.get m.k x.r.n (Reg.of []) = (Tab.get? o.pre x.r.n).getD ((s.ctx o.c).arch.kr x.r.n)) ∧
        (x.r.file = .x → Tab.get m.x x.r.n (Reg.of 0) = o.xval.getD ((Tab.get? o.preW (8 + x.r.n)).getD ((s.ctx o.c).arch.xr x.r.n))) ∧
        (x.r.file = .v → Tab.get m.v x.r.n (Reg.of 0) = (Tab.get? o.preV x.r.n).getD ((s.ctx o.c).arch.vr x.r.n))) ∧
  (∀ (s : State) (n : Nat) (o : MatOp) (m : MSrcs), Started s n o m →
    ∃ t, exec (.matrixInstructionComplete n) s = .next t ∧ (t.cell n).matrix = [] ∧ (t.ctx o.c).arch.pc = (s.ctx o.c).arch.pc ∧
      (let ls := (matSrcs o.ins).map fun x => (m.rmeta x.r).lab
       (∀ d ∈ matDests o.ins, (t.ctx o.c).arch.rmeta d = resMeta (productNow s (colOf n) ls).1 o.pc) ∧
       ((∀ l ∈ ls, l.isTop = true) → ∀ d ∈ matDests o.ins, (t.ctx o.c).arch.rmeta d = fullMeta .top) ∧
       ((∃ l ∈ ls, l.isBot = true) → ∀ d ∈ matDests o.ins, (t.ctx o.c).arch.rmeta d = fullMeta .bot) ∧
       (∀ l, (∀ l ∈ ls, l.isBot = false) → properLabels ls = [l] → ∀ d ∈ matDests o.ins, (t.ctx o.c).arch.rmeta d = fullMeta l) ∧
       ((properLabels ls).length ≤ 1 → ∀ b, t.byte b = s.byte b)) ∧
      let a := (t.ctx o.c).arch
      let sh (k : BitVec 6) := let w := Tab.get o.cfgs k.toNat 0x3FC2
        ((w.setWidth 6).toNat, (w.extractLsb' 6 4).toNat + 1, (w.extractLsb' 10 4).toNat + 1)
      let xv (k : BitVec 3) : Word := (Tab.get m.x k.toNat (Reg.of 0)).val
      let old (k : BitVec 6) (i j : Nat) : Elem := element (taken m k) (sh k).2.2 i j
      let gives (d : BitVec 6) (f : Nat → Nat → Elem × BitVec 6) : Prop := TileIs s t o d (sh d).2.1 (sh d).2.2 f
      (∀ d x y xn acc16, (o.ins = .mma d x y xn acc16 ∨ o.ins = .mmaz d x y xn acc16) → (sh y).2.2 = (sh d).2.2 → mmaFormats (sh x).1 (sh y).1 acc16 (sh d).1 = true →
        gives d fun i j => if (xv xn).getLsbD (32 + i) && (xv xn).getLsbD (48 + j) then
          mmaValue m o.rm (sh x).1 (sh y).1 (sh x).2.2 (sh d).2.2 x y (xv xn) acc16 (old d i j) (o.ins == .mmaz d x y xn acc16) i j
          else (if o.ins = .mmaz d x y xn acc16 then .raw 0 else old d i j, 0)) ∧
      (∀ d, o.ins = .tzero d → gives d fun _ _ => (.raw 0, 0)) ∧
      (∀ d x y, o.ins = .tadd d x y → sh x = sh d → sh y = sh d → (sh d).1 ∈ tileFormats → gives d fun i j => addedElem (sh d).1 o.rm (old x i j) (old y i j)) ∧
      (∀ d x xn, o.ins = .tscale d x xn → sh x = sh d → (sh d).1 ∈ tileFormats → gives d fun i j => scaledBy (sh d).1 o.rm (xv xn) (old x i j)) ∧
      (∀ d x, o.ins = .tcvt d x → (sh x).2 = (sh d).2 → (sh x).1 ∈ tileFormats → (sh d).1 ∈ tileFormats → (∀ i j, Holds (sh x).1 (old x i j)) →
        gives d fun i j => convertedElem (sh x).1 (sh d).1 o.rm (old x i j)) ∧
      (∀ d x, o.ins = .ttrans d x → (sh x).1 = (sh d).1 → (sh d).1 ∈ tileFormats → (sh x).2.1 = (sh d).2.2 → (sh x).2.2 = (sh d).2.1 →
        (∀ i j, Holds (sh d).1 (old x j i)) → gives d fun i j => rawOf (storedElem (sh d).1 o.rm (old x j i))) ∧
      (∀ d x xn, o.ins = .trowv d x xn → (sh x).1 ∈ tileFormats → (∀ j, Holds (sh x).1 (old x ((xv xn).setWidth 4).toNat j)) →
        let out (j : Nat) := storedElem (sh x).1 o.rm (old x ((xv xn).setWidth 4).toNat j)
        (∀ j, j < (sh x).2.2 → (a.vr d.toNat).val.extractLsb' (elemWidth (sh x).1 * j) (elemWidth (sh x).1) = BitVec.ofNat _ (out j).1) ∧
        (∀ k, (sh x).2.2 * elemWidth (sh x).1 ≤ k → (a.vr d.toNat).val.getLsbD k = false) ∧
        a.flg = (s.ctx o.c).arch.flg ||| allFlags ((List.range (sh x).2.2).map fun j => (out j).2)) ∧
      (∀ d v xn, o.ins = .tvrow d v xn → (sh d).1 ∈ tileFormats → gives d fun i j => if i = ((xv xn).setWidth 4).toNat then
          (.raw (((Tab.get m.v v.toNat (Reg.of 0)).val.extractLsb' (elemWidth (sh d).1 * j) (elemWidth (sh d).1)).setWidth 32), 0) else (old d i j, 0)) ∧
      (∀ d x q xn c, o.ins = .tfact d x q xn c → (sh x).2.1 = (sh x).2.2 → sh d = sh x →
        let n := (sh x).2.1; let r := factorOf c o.rm (xv xn) n (taken m x)
        (∀ i j, i < n → j < n → element (a.kr d.toNat).val n i j = .raw (if c && decide (i < j) then 0 else BitVec.ofNat 32 (r.at_ i j))) ∧
        (a.qr q.toNat).val = r.flagged ∧ a.flg = (s.ctx o.c).arch.flg ||| r.fl) ∧
      (∀ d x y up one right, o.ins = .tsolve d x y up one right → (sh x).2.1 = (sh x).2.2 → sh y = sh d → (if right then (sh d).2.2 else (sh d).2.1) = (sh x).2.1 →
        gives d (solvedElem m o.rm (sh x).2.1 (sh d).2.2 x y up one right fun i j => element (a.kr d.toNat).val (sh d).2.2 i j))) ∧
  (∀ (s : State) (n k : Nat) (o : MatOp), (s.cell n).follows[k]? = some (o, false) → followReady s n o = true →
    let q := (s.cell n).matrix
    let room := (q.filter fun p => p.c == o.c && p.plc == o.plc).length < 4 ∧ (q.map (·.cost)).foldl (· + ·) 0 + o.cost ≤ 512
    (room → ∃ t, exec (.followOnOffer n k) s = .next t ∧ (t.cell n).matrix = q ++ [o] ∧ (t.cell n).follows = takeOut k (s.cell n).follows ∧ t.ctxs = s.ctxs) ∧
    (¬room → exec (.followOnOffer n k) s = .next s))

/-- R214 to R216: TLD through an unblocked format checks its rows in order and leaves for its elements, kd empty; through a block format the tile must be FP8, its offset and
stride multiples of the element size and of 16, and its elements are decoded exactly, where a format fault of decoding comes last. TST writes each
element that both masks select, in its memory format, and no other byte: to scratchpad, or to a page of cache level none, the elements are on their way and memory stays as
it was at issue; a store through a block format is the format fault. An offset or stride that is no multiple of the
element size is the alignment fault. -/
def Obligations.TileMemory : Prop :=
  (∀ (s : State) (d x : BitVec 6) (w : Bool) (xn : BitVec 3) (h : Hint) (o : BitVec 5), let i := Instr.tld d x w xn h o
    let ref := effective (gv (me s) x) o 8; let xs := [srcG x w 0, srcF .x xn.toNat 3]
    let cfg := tcfg (me s) d.toNat; let size := cfgSize cfg; let stride := ((me s).xr xn.toNat).val.extractLsb' 0 32
    let row (r : Nat) : Word := ref &&& 0xFFFFFF0000000000 ||| ((ref.extractLsb' 0 40 + BitVec.ofNat 40 r * stride.signExtend 40).setWidth 64)
    MemReady i s xs → Writable (me s) (kd d) → NoRings s →
    (∀ accs : List (List Acc), blockFmt (refFmt ref) = false →
      (List.range (cfgRows cfg)).mapM (fun r => loadPhase s s.cur (row r) (cfgCols cfg * size) 1 (wantLoad h) (srcLabels (me s) xs)) = .ok accs →
      ((refOff ref % size ≠ 0 ∨ stride.toInt % size ≠ 0) → exec i s = .next (takeTrap s s.cur ⟨0x16, 0, ref, 0⟩ false (me s).pc)) ∧
      (refOff ref % size = 0 → stride.toInt % size = 0 → (∀ a ∈ accs.flatten, a.lab = none ∧ a.rdet = none) →
        ∃ t, exec i s = .next t ∧ (me t).pc = (me s).pc + 4 ∧ ((me t).rmeta (kd d)).fe = .empty ∧ RegsBut (me s) (me t) (kd d) ∧ (∀ b, t.byte b = s.byte b) ∧
          Launched s t (.load (kd d) (labelsRead accs.flatten) (.tile size) (srcLabels (me s) xs) none (me s).pc ((me s).rmeta (kd d))))) ∧
    (∀ (xs' : Decoded) (accs : List Acc), blockFmt (refFmt ref) = true →
      tileBlocks s s.cur ref stride.toInt (cfgRows cfg) (cfgCols cfg) ⟨false, true, false, true, h.code⟩ (srcLabels (me s) xs) = .ok (xs', accs) →
      let fp8 := cfgFmt cfg = 5 ∨ cfgFmt cfg = 6
      let aligned := refOff ref % 16 = 0 ∧ stride.toInt % 16 = 0
      let even := refOff ref % size = 0 ∧ stride.toInt % size = 0
      (¬even → exec i s = .next (takeTrap s s.cur ⟨0x16, 0, ref, 0⟩ false (me s).pc)) ∧
      (even → ¬fp8 → exec i s = .next (takeTrap s s.cur ⟨0x1A, 0, ref, 0⟩ false (me s).pc)) ∧
      (even → fp8 → ¬aligned → exec i s = .next (takeTrap s s.cur ⟨0x16, 0, ref, 0⟩ false (me s).pc)) ∧
      (even → fp8 → aligned → ∀ v, xs' = raise 0x1A v → exec i s = .next (takeTrap s s.cur ⟨0x1A, 0, v, 0⟩ false (me s).pc)) ∧
      (even → fp8 → aligned → ∀ es, xs' = .ok es → (∀ a ∈ accs, a.lab = none ∧ a.rdet = none) →
        ∃ t, exec i s = .next t ∧ (me t).pc = (me s).pc + 4 ∧ ((me t).rmeta (kd d)).fe = .empty ∧ RegsBut (me s) (me t) (kd d) ∧ (∀ b, t.byte b = s.byte b) ∧
          Launched s t (.load (kd d) (labelsRead accs) (.elems (es.map .val)) (srcLabels (me s) xs) none (me s).pc ((me s).rmeta (kd d)))))) ∧
  (∀ (s : State) (d x : BitVec 6) (w : Bool) (xn : BitVec 3) (h : Hint) (o : BitVec 5) (accs : List Acc), let i := Instr.tst d x w xn h o
    let ref := effective (gv (me s) x) o 8; let xs := [srcG x w 0, srcF .k d.toNat 2, srcF .x xn.toNat 3]
    let cfg := tcfg (me s) d.toNat; let size := cfgSize cfg; let m := ((me s).xr xn.toNat).val; let stride := m.extractLsb' 0 32
    let on := ((List.range (cfgRows cfg)).flatMap fun r => (List.range (cfgCols cfg)).map fun c => (r, c)).filter fun p => m.getLsbD (32 + p.1) && m.getLsbD (48 + p.2)
    let at_ (p : Nat × Nat) : Word := ref &&& 0xFFFFFF0000000000 |||
      ((ref.extractLsb' 0 40 + BitVec.ofNat 40 p.1 * stride.signExtend 40 + BitVec.ofNat 40 (p.2 * size)).setWidth 64)
    let out := on.map fun p => elemBits (cfgTy cfg) (me s).rm (element ((me s).kr d.toNat).val (cfgCols cfg) p.1 p.2)
    let f := out.foldl (fun f q => f ||| q.2) 0
    MemReady i s xs → Settled s → NoRings s → blockFmt (refFmt ref) = false →
    on.mapM (fun p => storePhase s s.cur (at_ p) size size (wantStore h) (srcLabels (me s) xs)) = .ok (accs.map fun a => ([a], Label.top)) →
    (f &&& (me s).en ≠ 0 → exec i s = .next (takeTrap s s.cur ⟨0x19, 0, f.setWidth 64, f⟩ false (me s).pc)) ∧
    (f &&& (me s).en = 0 → (∀ a ∈ accs, a.size = size ∧ a.lab = none ∧ a.rdet = none ∧ (Config.spadBase ≤ a.addr ∨ (a.cache = 2 ∧ ∀ y ∈ (s.cell (cellOf s.cur)).l1, y.line ≠ a.addr / 64))) →
      ∃ t, exec i s = .next t ∧ Passed i s t ∧ (me t).flg = (me s).flg ||| f ∧ (∀ b, t.byte b = s.byte b) ∧
        t.stores = s.stores ++ (out.zip accs).map fun p => ⟨s.cur, .plain, p.2, (List.range size).map fun k => (p.2.addr + k, BitVec.ofNat 8 (p.1.1 / 256 ^ k)), [], 0, (s.ctx s.cur).seq⟩) ∧
    (f &&& (me s).en = 0 → (∀ a ∈ accs, a.size = size ∧ a.lab = none ∧ a.rdet = none) → (s.cell (cellOf s.cur)).l1 = [] →
      ∃ t, exec i s = .next t ∧ Passed i s t ∧ (me t).flg = (me s).flg ||| f ∧
        ∀ b, (∀ a ∈ accs, b < a.addr ∨ a.addr + size ≤ b) → t.byte b = s.byte b)) ∧
  (∀ (s : State) (d x : BitVec 6) (w : Bool) (xn : BitVec 3) (h : Hint) (o : BitVec 5) (e : HEntry), let i := Instr.tst d x w xn h o
    let ref := effective (gv (me s) x) o 8
    MemReady i s [srcG x w 0, srcF .k d.toNat 2, srcF .x xn.toNat 3] → blockFmt (refFmt ref) = true → handleEntry s s.cur (refIdx ref) = .ok e → e.valid = true → e.kind ≤ 4 → e.reserved = false →
    exec i s = .next (takeTrap s s.cur ⟨0x1A, 0, ref, 0⟩ false (me s).pc))

namespace Sys2Proof.Spec

/-- What an accumulator instruction adds (R67): an exact value in units of 2^−320, or the status bit of a NaN (1), +∞ (2) or −∞ (4). -/
def addend (x : Fp) : Int × Nat :=
  match x with
  | .nan => (0, 1)
  | .inf neg => (0, if neg then 4 else 2)
  | .zero _ => (0, 0)
  | .fin neg m e => ((if neg then -1 else 1) * (m : Int) * 2 ^ (e + 320).toNat, 0)

/-- The operand of ACCW (R225): an integer of its width, or a value of its format. -/
def accOperand (t : AccIn) (v : Word) : Fp :=
  match t with
  | .fp32 => decodeFp fmt32 (v.setWidth 32).toNat
  | .fp16 => decodeFp fmt16 (v.setWidth 16).toNat
  | .bf16 => decodeFp fmtB16 (v.setWidth 16).toNat
  | .e4m3 => decodeFp fmtE4M3 (v.setWidth 8).toNat
  | .e5m2 => decodeFp fmtE5M2 (v.setWidth 8).toNat
  | .i8 => intFp (v.setWidth 8).toInt
  | .i16 => intFp (v.setWidth 16).toInt
  | .i32 => intFp (v.setWidth 32).toInt
  | .i64 => intFp v.toInt
  | .n8 => intFp (v.setWidth 8).toNat
  | .n16 => intFp (v.setWidth 16).toNat
  | .n32 => intFp (v.setWidth 32).toNat
  | .n64 => intFp v.toNat

/-- The accumulator instructions that change an accumulator: sources, the reference, whether it is cleared, and the addend (R225, R227). -/
def accRule (a : Arch) : Instr → Option (List Src × Word × Bool × Int × Nat)
  | .accz x w => some ([srcG x w 0], gv a x, true, 0, 0)
  | .accw x y wx wy t => some ([srcG x wx 0, srcG y wy 1], gv a x, false, addend (accOperand t (gv a y)))
  | .accwp d x y wx wy => some ([srcG x wx 0, srcG y wy 1, srcG d true 2], gv a d, false,
      addend (mulFp (accOperand .fp32 (gv a x)) (accOperand .fp32 (gv a y))).x)
  | _ => none

/-- The value that ACCR reads, by the rows of R69 from the top. -/
def accResult (u : Fmt) (m : RMode) (v : Int) (st : Word) : Nat × BitVec 6 :=
  if st.getLsbD 0 then (u.nan, 0)
  else if st.getLsbD 1 && st.getLsbD 2 then (u.nan, fNV)
  else if st.getLsbD 1 then (u.infinity false, 0)
  else if st.getLsbD 2 then (u.infinity true, 0)
  else if st.getLsbD 3 then (u.nan, fNV)
  else roundTo u m (exact (if v = 0 then .zero false else .fin (decide (v < 0)) v.natAbs (-320)))

/-- The accumulator instructions of a context that are not complete. -/
def accsOut (s : State) : Nat := ((s.ctx s.cur).pend.filter fun p => match p with | .accum _ => true | _ => false).length

end Sys2Proof.Spec

/-- R66 to R70, R225 to R228: ACCZ, ACCW, ACCWP and ACCM of an accumulator in own scratchpad leave with their addend, exact in units of 2^−320, or their status bit; memory
and registers stay at issue; an eighth one outstanding holds the next back. ACCR rounds the accumulator's value, or gives what its status word says, and
marks its destination empty; a flag that is enabled is the arithmetic fault instead. ACCM of regions that overlap without being one is the alignment fault. -/
def Obligations.AccumulatorIssue : Prop :=
  (∀ (s : State) (i : Instr) (xs : List Src) (ref : Word) (zero : Bool) (delta : Int) (st : Nat), MemReady i s xs → NoRings s →
    accRule (me s) i = some (xs, ref, zero, delta, st) →
    (8 ≤ accsOut s → exec i s = .next s) ∧
    (∀ a, accsOut s < 8 → accPhase s s.cur ref true true = .ok a → a.lab = none → (∀ l ∈ srcLabels (me s) xs, l.isTop = true) →
      (∀ x ∈ s.stores, x.c ≠ s.cur) → (∀ r ∈ s.barReqs, r.c ≠ s.cur) → (∀ p ∈ s.passes, p.c ≠ s.cur) →
      ∃ t, exec i s = .next t ∧ Passed i s t ∧ (∀ b, t.byte b = s.byte b) ∧ Launched s t (.accum ⟨a.addr, zero, none, delta, st, ref, (s.ctx s.cur).seq⟩))) ∧
  (∀ (s : State) (x y : BitVec 6) (wx wy : Bool) (a b : Acc), let i := Instr.accm x y wx wy; let xs := [srcG x wx 0, srcG y wy 1]
    MemReady i s xs → NoRings s → accsOut s < 8 → accPhase s s.cur (gv (me s) x) true true = .ok a → accPhase s s.cur (gv (me s) y) true false = .ok b →
    (a.addr ≠ b.addr → a.addr < b.addr + 88 → b.addr < a.addr + 88 → exec i s = .next (takeTrap s s.cur ⟨0x16, 0, gv (me s) y, 0⟩ false (me s).pc)) ∧
    (a.addr = b.addr ∨ a.addr + 88 ≤ b.addr ∨ b.addr + 88 ≤ a.addr → a.lab = none → (∀ l ∈ srcLabels (me s) xs, l.isTop = true) →
      (∀ x ∈ s.stores, x.c ≠ s.cur) → (∀ r ∈ s.barReqs, r.c ≠ s.cur) → (∀ p ∈ s.passes, p.c ≠ s.cur) →
      ∃ t, exec i s = .next t ∧ Passed i s t ∧ (∀ k, t.byte k = s.byte k) ∧ Launched s t (.accum ⟨a.addr, false, some b.addr, 0, 0, gv (me s) x, (s.ctx s.cur).seq⟩))) ∧
  (∀ (s : State) (d x : BitVec 6) (w wide : Bool) (a : Acc), let i := if wide then Instr.accrFp64 d x w else .accr d x w
    MemReady i s [srcG x w 0] → NoRings s → Writable (me s) (gd d) → Settled s → accPhase s s.cur (gv (me s) x) true false = .ok a →
    Config.spadBase ≤ a.addr → (∀ k, k < 88 → s.isBad (a.addr + k) = false) →
    let r := accResult (if wide then fmt64 else fmt32) (me s).rm (BitVec.ofNat 640 (s.num a.addr 80)).toInt (s.word (a.addr + 80))
    (r.2 &&& (me s).en ≠ 0 → exec i s = .next (takeTrap s s.cur ⟨0x19, 0, r.2.setWidth 64, r.2⟩ false (me s).pc)) ∧
    (r.2 &&& (me s).en = 0 → ∃ t, exec i s = .next t ∧ (me t).pc = (me s).pc + 4 ∧ (me t).flg = (me s).flg ||| r.2 ∧ (d ≠ 0 → ((me t).rmeta (gd d)).fe = .empty) ∧
      RegsBut (me s) (me t) (gd d) ∧ (∀ b, t.byte b = s.byte b) ∧
      Launched s t (.acc ⟨gd d, .w (BitVec.ofNat 64 r.1), [((me s).rmeta (gd x)).lab], (me s).pc⟩)))

namespace Sys2Proof.Spec

/-- SPACE selects a live space of the partition, and every proper label of the sources is of it (R31, R232, R366). -/
def SpaceHolds (s : State) (xs : List Src) : Prop :=
  (me s).space.getLsbD 63 = true ∧ (s.space ((me s).space.setWidth 12)).live = true ∧
    (s.space ((me s).space.setWidth 12)).owner.toNat = (me s).partition ∧ ∀ l ∈ srcLabels (me s) xs, l.h ≠ 0 → l.h ≠ 0xFFFFFF → l.sp = (me s).space.setWidth 12

/-- The question of a strand that now awaits an answer in `d`. -/
def asked (s : State) (d : RegId) (sp : BitVec 12) (q : Ask) : LabelJob := ⟨s.cur, s.plc s.cur, some d, sp, q, .asked, (me s).pc, 0⟩

/-- The question was put: `d` awaits a label, and nothing else of the device changed but the context. -/
def Asked (s t : State) (d : RegId) (sp : BitVec 12) (q : Ask) : Prop :=
  t = { s with ctxs := t.ctxs, labelJobs := s.labelJobs ++ [asked s d sp q] } ∧ (∀ c, c ≠ s.cur → t.ctx c = s.ctx c) ∧ (me t).pc = (me s).pc + 4 ∧
    ((me t).rmeta d).fe = .empty ∧ ((me t).rmeta d).dueLab = true ∧ RegsBut (me s) (me t) d

/-- The context's register `d` holds a value and a label; the rest is as before, but for the program counter. -/
def Got (s t : State) (d : RegId) (v : RV) (l : Label) : Prop :=
  OnlyMe s t ∧ (me t).pc = (me s).pc + 4 ∧ (me t).regVal d = v ∧ (me t).rmeta d = fullMeta l ∧ RegsBut (me s) (me t) d

/-- Some environment is a subset of `e` (R18). -/
def someWithin (envs : List Word) (e : Word) : Prop := ∃ f ∈ envs, f &&& e = f

/-- The instructions that inspect a label (R235, R238): destination, sources, the label, the question to the Accord unit, and the value from the
label's environments. -/
def inspects (a : Arch) : Instr → Option (BitVec 6 × List Src × Label × Ask × (List Word → Word))
  | .lget d x w f => let l := (a.rmeta ⟨f, x.toNat⟩).lab
    some (d, [⟨⟨f, x.toNat⟩, w, 0⟩], l, .get l, fun envs => if envs = [] then 0xFFFFFF else if l.h = 0 then 0 else ((l.sp ++ l.h : BitVec 36)).setWidth 64)
  | .lholds d x y wx wy => let l := (a.gr x.toNat).lab
    some (d, [srcG x wx 0, srcG y wy 1], l, .holds l (gv a y), fun envs => if envs.any (fun f => f &&& gv a y == f) then 1 else 0)
  | .lenv d x y wx wy => let l := (a.gr x.toNat).lab
    some (d, [srcG x wx 0, srcG y wy 1], l, .env l (gv a y), fun envs => if (gv a y).toNat < envs.length then envs.getD (gv a y).toNat 0 else 0)
  | .lcnt d x w => let l := (a.gr x.toNat).lab
    some (d, [srcG x w 0], l, .count l, fun envs => BitVec.ofNat 64 envs.length)
  | _ => none

end Sys2Proof.Spec

/-- R232, R234 to R239, R242: with a live space selected, LPROD fills d with a's value under the label product; LTAG and LSET fill d at once for ⊤ and ⊥ and
otherwise ask the Accord unit; LGET, LHOLDS, LENV and LCNT fill d with ⊤ from a content the cell knows, and otherwise ask; LSEL fills d with the value and
label of a or of b; LSYNC goes on once no register awaits a label. -/
def Obligations.LabelInstructions : Prop :=
  (∀ (s : State) (d x y : BitVec 6) (wx wy : Bool), let i := Instr.lprod d x y wx wy; let xs := [srcG x wx 0, srcG y wy 1]
    MayIssue i s → Writable (me s) (gd d) → Readable (me s) xs → SpaceHolds s xs →
    exec i s = .next (advance i (fill s s.cur (gd d) (.w (gv (me s) x)) (srcLabels (me s) xs)) s.cur)) ∧
  (∀ (s : State) (d x y : BitVec 6) (wx wy : Bool), let i := Instr.ltag d x y wx wy; let xs := [srcG x wx 0, srcG y wy 1]
    let la := ((me s).gr x.toNat).lab; let lb := ((me s).gr y.toNat).lab; let e := gv (me s) y; let sp := (me s).space.setWidth 12
    MayIssue i s → Writable (me s) (gd d) → Readable (me s) xs → SpaceHolds s xs → d ≠ 0 →
    (la.h = 0xFFFFFF → ∃ t, exec i s = .next t ∧ Got s t (gd d) (.w (gv (me s) x)) .bot) ∧
    (la.h = 0 → e = 0 → lb.h = 0 → ∃ t, exec i s = .next t ∧ Got s t (gd d) (.w (gv (me s) x)) .top) ∧
    ((la.proper = true ∨ la.h = 0 ∧ e ≠ 0) → ∃ t, exec i s = .next t ∧ Asked s t (gd d) sp (.tag la e lb) ∧ (me t).regVal (gd d) = .w (gv (me s) x))) ∧
  (∀ (s : State) (i : Instr) (d : BitVec 6) (xs : List Src) (l : Label) (q : Ask) (f : List Word → Word), inspects (me s) i = some (d, xs, l, q, f) →
    MayIssue i s → Writable (me s) (gd d) → Readable (me s) xs → SpaceHolds s xs → d ≠ 0 →
    (∀ envs, localContent (s.cell (cellOf s.cur)).pcache l = some envs → ∃ t, exec i s = .next t ∧ Got s t (gd d) (.w (f envs)) .top) ∧
    (localContent (s.cell (cellOf s.cur)).pcache l = none → ∃ t, exec i s = .next t ∧ Asked s t (gd d) l.sp q)) ∧
  (∀ (s : State) (d x : BitVec 6) (w : Bool) (f : RFile), let i := Instr.lset d x w f; let r : RegId := ⟨f, d.toNat⟩; let v := gv (me s) x
    let h : BitVec 24 := v.setWidth 24; let sp : BitVec 12 := v.extractLsb' 24 12; let xs : List Src := [srcG x w 0, ⟨r, true, 2⟩]
    MayIssue i s → Readable (me s) xs → SpaceHolds s xs → r ≠ ⟨.g, 0⟩ →
    (h = 0 → ∃ t, exec i s = .next t ∧ Got s t r ((me s).regVal r) .top) ∧ (h = 0xFFFFFF → ∃ t, exec i s = .next t ∧ Got s t r ((me s).regVal r) .bot) ∧
    (h ≠ 0 → h ≠ 0xFFFFFF → (sp ≠ (me s).space.setWidth 12 ∨ Tab.get? (s.space sp).entries h.toNat = none) →
      exec i s = .next (takeTrap s s.cur ⟨8, 0, sp.setWidth 64, 0⟩ false (me s).pc)) ∧
    (h ≠ 0 → h ≠ 0xFFFFFF → sp = (me s).space.setWidth 12 → Tab.get? (s.space sp).entries h.toNat ≠ none →
      ∃ t, exec i s = .next t ∧ Asked s t r sp (.set ⟨sp, h⟩) ∧ (me t).regVal r = (me s).regVal r)) ∧
  (∀ (s : State) (d x y : BitVec 6) (wx wy : Bool) (envs : List Word), let i := Instr.lsel d x y wx wy; let xs := [srcG x wx 0, srcG y wy 1]
    MayIssue i s → Writable (me s) (gd d) → Readable (me s) xs → SpaceHolds s xs → d ≠ 0 →
    localContent (s.cell (cellOf s.cur)).pcache ((me s).gr x.toNat).lab = some envs →
    (someWithin envs (me s).view → ∃ t, exec i s = .next t ∧ (me t).gr d.toNat =
      Reg.mk (gv (me s) x) .full (if ((me s).gr x.toNat).lab.h = 0 then .top else ((me s).gr x.toNat).lab) 0 0 false false) ∧
    (¬ someWithin envs (me s).view → ((me s).gr y.toNat).lab.h ≠ 0xFFFFFF → ((me s).gr y.toNat).lab.h ≠ 0 →
      ∃ t, exec i s = .next t ∧ (me t).gr d.toNat = Reg.mk (gv (me s) y) .full ((me s).gr y.toNat).lab 0 0 false false)) ∧
  (∀ s : State, MayIssue .lsync s → (labelsDue (me s) = false → exec .lsync s = .next (advance .lsync s s.cur)) ∧
    (labelsDue (me s) = true → exec .lsync s = .next s) ∧
    ∀ r : RegId, ((me s).rmeta r).fe = .empty → ((me s).rmeta r).dueLab = true → labelsDue (me s) = true)

namespace Sys2Proof.Spec

/-- The least unions of two sets of environments that contain no nogood (R230). -/
def Least (ng p q : List Word) (e : Word) : Prop :=
  (∃ f ∈ p, ∃ g ∈ q, e = f ||| g) ∧ (∀ n ∈ ng, e &&& n ≠ n) ∧ ∀ f ∈ p, ∀ g ∈ q, (f ||| g) &&& e = f ||| g → f ||| g = e

end Sys2Proof.Spec

/-- R230, R231, R353, R357, R358, R360, R362: the steps of the Accord units. The serving unit evaluates a request; a product of two contents is
the set of their least unions that contain no nogood, or ⊤, ⊥ or past the limit of 8, and a set goes to the home unit, which answers the lowest
handle of that content or allocates the next, last filtered under the generation of the evaluation; the answer fills its register. A rewrite replaces only an older
entry. Identical requests of a column are evaluated once, and the unit reads the space as its caches have it (R362).
R240, R241, R243, R361, R362, R364: NOGOOD releases, leaves its destination empty and holds the context back; the home unit answers its four cases; an appended one
advances the generation and completes when every unit that learnt it has acknowledged; one that a recorded nogood implies completes when every unit has learnt and
acknowledged what is still under way of its space. A broadcast teaches one unit and empties the space from its
column's product caches. LCOMPACT asks the home unit, which removes the nogoods that another one implies, keeps the generation, and refilters one entry after the
other; it then fills its destination with the number of nogoods that remain. -/
def Obligations.AccordSteps : Prop :=
  ((∀ (s : State) (n : Nat) (j : LabelJob) (l : Label), s.labelJobs[n]? = some j → j.stage = .asked → (s.col (colOf (cellOf j.c))).stationPower = true →
    let x := s.unitSpace (colOf (cellOf j.c)) j.sp; let gen := s.unitGen (colOf (cellOf j.c)) j.sp
    ∃ t k, exec (.accordProductRequest n) s = .next t ∧ t.ctxs = s.ctxs ∧ t.spaces = s.spaces ∧ t.cells = s.cells ∧ t.labelJobs[n]? = some k ∧
      k = { j with stage := k.stage, gen := gen } ∧
      (∀ (m : Nat) (b : LabelJob), s.labelJobs[m]? = some b → t.labelJobs[m]? =
        some (if colOf (cellOf b.c) = colOf (cellOf j.c) ∧ b.sp = j.sp ∧ b.ask = j.ask ∧ b.stage = .asked then { b with stage := k.stage, gen := gen } else b)) ∧
      (j.ask = .count l → l.proper = true → ∀ e, Tab.get? x.entries l.h.toNat = some e → gen ≤ e.fgen →
        k.stage = .answered (.lab .top) (BitVec.ofNat 64 e.envs.length) e.envs ∧ t.rewrites = s.rewrites) ∧
      (j.ask = .count l → l.proper = true → ∀ e, Tab.get? x.entries l.h.toNat = some e → e.fgen < gen →
        ∃ r, t.rewrites = s.rewrites ++ [r] ∧ r.sp = j.sp ∧ r.h = l.h.toNat ∧ r.gen = gen ∧
          ∀ f, f ∈ r.envs ↔ f ∈ e.envs ∧ ∀ g ∈ x.ng, f &&& g ≠ g)) ∧
  (∀ (x : Space) (a b : Label) (p q : List Word), a.proper = true → b.proper = true → envsOf x a = p → envsOf x b = q →
    p.length ≤ 8 → q.length ≤ 8 → let least := Least x.ng p q; let r := evalProduct x [a, b]
    (r = .known (.lab .bot) ↔ ∀ e, ¬ least e) ∧ (r = .known (.lab .top) ↔ least 0) ∧ r ≠ .known (.past 1) ∧
    (r = .known (.past 0) ↔ ∃ u : List Word, u.length = 9 ∧ u.Nodup ∧ ∀ e ∈ u, least e) ∧
    (∀ u, r = .set u → u.Pairwise (fun e f => e.toNat < f.toNat) ∧ ∀ e, e ∈ u ↔ least e)) ∧
  (∀ (s : State) (n : Nat) (j : LabelJob) (envs : List Word) (ls : List Label), s.labelJobs[n]? = some j → j.stage = .formed envs → j.ask = .product ls →
    homeUnit s j.sp ≠ none → let x := s.space j.sp
    (∀ e ∈ x.entries, e.2.fgen = x.gen ∧ e.2.bucket = bucketOf x.tlog e.2.envs) → x.entries.Pairwise (fun p q => p.1 < q.1) → (∀ e ∈ x.entries, e.1 < 2 ^ 24) →
    ∃ t k, exec (.intern n) s = .next t ∧ t.labelJobs[n]? = some k ∧
      (∀ h e, Tab.get? x.entries h = some e → e.envs = envs → (∀ i f, Tab.get? x.entries i = some f → f.envs = envs → h ≤ i) →
        k.stage = .answered (.lab ⟨j.sp, BitVec.ofNat 24 h⟩) 0 envs ∧ (t.space j.sp).hwm = x.hwm) ∧
      ((∀ i f, Tab.get? x.entries i = some f → f.envs ≠ envs) → x.hwm + 1 < 2 ^ x.tlog → x.hwm < 0xFFFFFE →
        k.stage = .answered (.lab ⟨j.sp, BitVec.ofNat 24 (x.hwm + 1)⟩) 0 envs ∧ (t.space j.sp).hwm = x.hwm + 1 ∧
          ∃ f, Tab.get? (t.space j.sp).entries (x.hwm + 1) = some f ∧ f.envs = envs ∧ f.fgen = j.gen) ∧
      ((∀ i f, Tab.get? x.entries i = some f → f.envs ≠ envs) → 2 ^ x.tlog ≤ x.hwm + 1 → k.stage = .answered (.past 2) 0 envs)) ∧
  (∀ (s : State) (n : Nat) (j : LabelJob) (res : PRes) (v : Word) (envs : List Word) (d : RegId), s.labelJobs[n]? = some j → j.stage = .answered res v envs →
    j.dst = some d → s.plc j.c = j.plc → ((s.ctx j.c).arch.rmeta d).fe = .empty → ((s.ctx j.c).arch.rmeta d).dueLab = true → d ≠ ⟨.g, 0⟩ →
    (∀ o ∈ (s.cell (cellOf j.c)).matrix ++ (s.cell (cellOf j.c)).followOps, o.c = j.c → d ∉ matDests o.ins) →
    (∀ ls, j.ask = .product ls → ∃ t, exec (.labelProductAnswer n) s = .next t ∧ t.labelJobs = takeOut n s.labelJobs ∧
      (t.ctx j.c).arch.regVal d = (s.ctx j.c).arch.regVal d ∧
      (∀ l, res = .lab l → (t.ctx j.c).arch.rmeta d = fullMeta l) ∧
      (∀ k, res = .past k → ((t.ctx j.c).arch.rmeta d).fe = .faulted ∧ ((t.ctx j.c).arch.rmeta d).det = k ∧ ((t.ctx j.c).arch.rmeta d).prod = j.pc)) ∧
    (∀ l, j.ask = .count l → d.file = .g → ∃ t, exec (.labelProductAnswer n) s = .next t ∧ (t.ctx j.c).arch.gr d.n = Reg.of v)) ∧
  (∀ (s : State) (n : Nat) (r : Rewrite) (e : LEntry), s.rewrites[n]? = some r → Tab.get? (s.space r.sp).entries r.h = some e →
    ∃ t f, exec (.entryRewrite n) s = .next t ∧ t.rewrites = takeOut n s.rewrites ∧ Tab.get? (t.space r.sp).entries r.h = some f ∧
      (e.fgen < r.gen → f.envs = r.envs ∧ f.fgen = r.gen) ∧ (r.gen ≤ e.fgen → f = e))) ∧
  ((∀ (s : State) (d x : BitVec 6) (w : Bool), let i := Instr.nogood d x w; let xs := [srcG x w 0]
    MayIssue i s → Writable (me s) (gd d) → Readable (me s) xs → SpaceHolds s xs → ViewHolds s xs → Settled s → CachesEmpty s → d ≠ 0 →
    ∃ t, exec i s = .next t ∧ t.nogoods = s.nogoods ++ [⟨s.cur, s.plc s.cur, gd d, (me s).space.setWidth 12, gv (me s) x, none, 0, [], []⟩] ∧
      heldBack t s.cur = true ∧ ((me t).rmeta (gd d)).fe = .empty ∧ RegsBut (me s) (me t) (gd d) ∧ (∀ b, t.byte b = s.byte b) ∧
      (me t).pc = (me s).pc + 4) ∧
  (∀ (s : State) (n : Nat) (g : Nogood) (k : Nat), s.nogoods[n]? = some g → g.done = none → homeUnit s g.sp ≠ none → g.dst = ⟨.g, k⟩ → k ≠ 0 →
    g.gen = 0 → s.plc g.c = g.plc → (s.part (s.ctx g.c).arch.partition).ringSize = 0 → let x := s.space g.sp
    let answered (t : State) (v : Word) : Prop := t.nogoods = takeOut n s.nogoods ∧ (t.ctx g.c).arch.gr k = Reg.of v ∧ heldBack t g.c = false ∧
      (t.space g.sp).ng = x.ng ∧ (t.space g.sp).gen = x.gen
    ∃ t, exec (.nogoodAppend n) s = .next t ∧
      (g.env = 0 → answered t 0x8000000000000002) ∧
      (g.env ≠ 0 → (256 ≤ x.ng.length ∨ 2 ^ 32 - 1 ≤ x.gen) → answered t 0x8000000000000001 ∧ ∃ r ∈ t.recs, r.code = 0x55) ∧
      (g.env ≠ 0 → x.ng.length < 256 → x.gen < 2 ^ 32 - 1 → (∃ p ∈ x.ng, g.env &&& p = p) → unlearnt s g.sp = [] → answered t (0x4000000000000000 + BitVec.ofNat 64 x.gen)) ∧
      (g.env ≠ 0 → x.ng.length < 256 → x.gen < 2 ^ 32 - 1 → (∃ p ∈ x.ng, g.env &&& p = p) → unlearnt s g.sp ≠ [] → t.spaces = s.spaces ∧ t.ctxs = s.ctxs ∧
        t.nogoods[n]? = some { g with done := some (0x4000000000000000 + BitVec.ofNat 64 x.gen), toAck := unlearnt s g.sp }) ∧
      (g.env ≠ 0 → x.ng.length < 256 → x.gen < 2 ^ 32 - 1 → (∀ p ∈ x.ng, g.env &&& p ≠ p) →
        (t.space g.sp).ng = x.ng ++ [g.env] ∧ (t.space g.sp).gen = x.gen + 1 ∧ (t.ctx g.c).pend = (s.ctx g.c).pend ∧
        ∃ h, t.nogoods[n]? = some h ∧ h.done = some (BitVec.ofNat 64 (x.gen + 1)) ∧
          ∀ u, (u ∈ h.toAck ↔ u < 64 ∧ (s.col u).stationPower = true) ∧ (u ∈ h.toLearn ↔ u < 64 ∧ (s.col u).stationPower = true))) ∧
  (∀ (s : State) (n : Nat) (g : Nogood), s.nogoods[n]? = some g → g.done = none → homeUnit s g.sp ≠ none → g.gen ≠ 0 → g.env ≠ 0 →
    ∃ t h, exec (.nogoodAppend n) s = .next t ∧ t.spaces = s.spaces ∧ t.ctxs = s.ctxs ∧ t.nogoods[n]? = some h ∧
      h.done = some (0x4000000000000000 + BitVec.ofNat 64 (s.space g.sp).gen) ∧ ∀ u, u ∈ h.toLearn ↔ u < 64 ∧ (s.col u).stationPower = true) ∧
  (∀ (s : State) (n u : Nat) (g : Nogood), s.nogoods[n]? = some g → u ∈ g.toLearn →
    (∀ h ∈ s.nogoods, h.sp = g.sp → h.gen ≠ 0 → h.gen < g.gen → h.done ≠ none ∧ u ∉ h.toLearn) → ∃ t h, exec (.generationBroadcast n u) s = .next t ∧
    t.nogoods[n]? = some h ∧ u ∉ h.toLearn ∧ g.gen ≤ t.unitGen u g.sp ∧
    (∀ l, t.unitList u g.sp = some l → g.env ∈ l) ∧ (∀ p ∈ (t.col u).ecache, p.1.1 = g.sp.toNat → g.gen ≤ p.2.fgen) ∧
    (∀ c, colOf c = u → ∀ e ∈ (t.cell c).pcache, (∀ a b r, e ≠ .product g.sp a b r) ∧ ∀ a f, e ≠ .content g.sp a f) ∧
    ∀ c, colOf c ≠ u → t.cell c = s.cell c) ∧
  (∀ (s : State) (n u : Nat) (g : Nogood) (v : Word) (k : Nat), s.nogoods[n]? = some g → g.done = some v → u ∈ g.toAck → u ∉ g.toLearn →
    (g.gen = 0 → ∀ h ∈ s.nogoods, h.sp = g.sp → h.gen ≠ 0 → u ∉ h.toLearn) → g.dst = ⟨.g, k⟩ → k ≠ 0 →
    s.plc g.c = g.plc → ∃ t, exec (.nogoodAcknowledge n u) s = .next t ∧
      ((∀ y ∈ g.toAck, y = u) → t.nogoods = takeOut n s.nogoods ∧ (t.ctx g.c).arch.gr k = Reg.of v ∧ heldBack t g.c = false) ∧
      ((∃ y ∈ g.toAck, y ≠ u) → t.ctxs = s.ctxs ∧ ∃ h, t.nogoods[n]? = some h ∧ h.done = some v ∧ u ∉ h.toAck)) ∧
  (∀ (s : State) (d x : BitVec 6) (w : Bool), let i := Instr.lcompact d x w; let sp : BitVec 12 := (gv (me s) x).setWidth 12
    MayIssue i s →
    ((s.ctx s.cur).hold = none → Writable (me s) (gd d) → Readable (me s) [srcG x w 0] →
      ((s.space sp).live = false ∨ (s.space sp).owner.toNat ≠ (me s).partition → exec i s = .next (takeTrap s s.cur ⟨8, 0, sp.setWidth 64, 0⟩ false (me s).pc)) ∧
      ((s.space sp).live = true → (s.space sp).owner.toNat = (me s).partition → ∃ t, exec i s = .next t ∧ t.compacts = s.compacts ++ [⟨s.cur, s.plc s.cur, sp, 0⟩] ∧
        (t.ctx s.cur).hold = some ⟨(me s).pc, none⟩ ∧ (me t).pc = (me s).pc ∧ SameRegs (me s) (me t) ∧ t.spaces = s.spaces ∧ ∀ b, t.byte b = s.byte b)) ∧
    (∀ p, (s.ctx s.cur).hold = some ⟨p, none⟩ → exec i s = .next s) ∧
    (∀ p v, (s.ctx s.cur).hold = some ⟨p, some v⟩ → ∃ t, exec i s = .next t ∧ OnlyMe s t ∧ (me t).pc = (me s).pc + 4 ∧ (t.ctx s.cur).hold = none ∧
      RegsBut (me s) (me t) (gd d) ∧ (d ≠ 0 → (me t).gr d.toNat = Reg.of v))) ∧
  (∀ (s : State) (n : Nat) (j : Compact), s.compacts[n]? = some j → homeUnit s j.sp ≠ none →
    let x := s.space j.sp; let t := compactStep n s; let y := t.space j.sp
    y.gen = x.gen ∧ y.hwm = x.hwm ∧
    (j.next = 0 → t.compacts[n]? = some { j with next := 1 } ∧ y.entries = x.entries ∧
      ∀ p, p ∈ y.ng ↔ p ∈ x.ng ∧ ∀ q ∈ x.ng, p &&& q = q → q = p) ∧
    (j.next ≠ 0 → j.next ≤ x.hwm → t.compacts[n]? = some { j with next := j.next + 1 } ∧ y.ng = x.ng ∧
      ∀ e, Tab.get? x.entries j.next = some e → e.fgen < x.gen → ∃ f, Tab.get? y.entries j.next = some f ∧ f.fgen = x.gen ∧
        ∀ v, v ∈ f.envs ↔ v ∈ e.envs ∧ ∀ g ∈ x.ng, v &&& g ≠ g) ∧
    (x.hwm < j.next → t.compacts = takeOut n s.compacts ∧ t.spaces = s.spaces ∧
      ∀ h, s.plc j.c = j.plc → (s.ctx j.c).hold = some h → (t.ctx j.c).hold = some { h with ans := some (BitVec.ofNat 64 x.ng.length) })))

namespace Sys2Proof.Spec

/-- The implicit sources of a claim instruction: x4, x5 and x6 (R245). -/
def nameRegs : List Src := [srcF .x 4 3, srcF .x 5 4, srcF .x 6 5]
/-- The name that they give in the context's partition (R245). -/
def nameNow (a : Arch) : CName := ⟨BitVec.ofNat 6 a.partition, (a.xr 4).val, (a.xr 5).val, (a.xr 6).val.setWidth 32⟩

/-- A claim request left for its partition. -/
def ClaimSent (s t : State) (kind : ClaimKind) (d : RegId) : Prop :=
  ∃ r, t.claimReqs = s.claimReqs ++ [r] ∧ r.kind = kind ∧ r.c = s.cur ∧ r.plc = s.plc s.cur ∧ r.name = nameNow (me s) ∧ r.dst = d
/-- The destinations of a claim await its return. -/
def ClaimAwaited (s t : State) (d : RegId) (x7 : Bool) : Prop :=
  (me t).pc = (me s).pc + 4 ∧ (d ≠ ⟨.g, 0⟩ → ((me t).rmeta d).fe = .empty) ∧ (x7 = true → ((me t).rmeta ⟨.x, 7⟩).fe = .empty) ∧
    (∀ q, q ≠ d → (q = ⟨.x, 7⟩ → x7 = false) → (me t).rmeta q = (me s).rmeta q ∧ (me t).regVal q = (me s).regVal q) ∧
    (∀ b, t.byte b = s.byte b) ∧ (x7 = true → memGate t s.cur = waits) ∧ (x7 = false → memGate t s.cur = memGate s s.cur) ∧ ∃ o, t.claimOuts = s.claimOuts ++ [o] ∧ o.c = s.cur ∧ o.dst = d ∧ o.x7 = x7
/-- The instruction holds its context's issue until a unit has answered. -/
def HoldsOn (s t : State) : Prop := (me t).pc = (me s).pc ∧ SameRegs (me s) (me t) ∧ (t.ctx s.cur).hold = some ⟨(me s).pc, none⟩ ∧ ∀ b, t.byte b = s.byte b
/-- A point that resumes after a four-byte instruction is made and this request waits for it (R391). -/
def CommittedTo (s t : State) (r : Committed) : Prop :=
  ∃ w, (t.ctx s.cur).writing = some w ∧ w.rpc = (me s).pc + 4 ∧ (t.ctx s.cur).committed = (s.ctx s.cur).committed ++ [(w.seq, r)]
/-- No register of the context is empty. -/
def NoneEmpty (a : Arch) : Prop := a.anyEmpty = false

end Sys2Proof.Spec

/-- R245 to R249, R251, R371, R391: CLAIM and CLDROP mark their destinations empty and send one request for the name; CLAIM holds back later memory and
claim instructions, CLDROP none; CLAIMW, FULFIL and ABANDON hold issue until the partition has answered, and then complete or take the claim state fault. FULFIL of
a labelled reference is the label escape fault; FULFIL and ABANDON release first and leave only with a point. -/
def Obligations.ClaimInstructions : Prop :=
  (∀ (s : State) (d : BitVec 6), memGate s s.cur = .ok () → Readable (me s) nameRegs → Writable (me s) (gd d) →
    (MayIssue (.claim d) s → Writable (me s) ⟨.x, 7⟩ → ∃ t, exec (.claim d) s = .next t ∧ ClaimSent s t .claim (gd d) ∧ ClaimAwaited s t (gd d) true) ∧
    (MayIssue (.cldrop d) s → ∃ t, exec (.cldrop d) s = .next t ∧ ClaimSent s t .cldrop (gd d) ∧ ClaimAwaited s t (gd d) false)) ∧
  (∀ (s : State) (d : BitVec 6), MayIssue (.claimw d) s →
    ((s.ctx s.cur).hold = none → memGate s s.cur = .ok () → Readable (me s) nameRegs → Writable (me s) (gd d) → Writable (me s) ⟨.x, 7⟩ →
      ∃ t, exec (.claimw d) s = .next t ∧ ClaimSent s t .claimw (gd d) ∧ HoldsOn s t) ∧
    (∀ pc, (s.ctx s.cur).hold = some ⟨pc, none⟩ → exec (.claimw d) s = .next s) ∧
    (∀ pc, (s.ctx s.cur).hold = some ⟨pc, some 0⟩ → ∃ t, exec (.claimw d) s = .next t ∧ ClaimAwaited s t (gd d) true ∧ (t.ctx s.cur).hold = none) ∧
    (∀ pc v, v ≠ 0 → (s.ctx s.cur).hold = some ⟨pc, some v⟩ → exec (.claimw d) s = .next (takeTrap s s.cur ⟨0x1D, 0, 0, 0⟩ false (me s).pc))) ∧
  (∀ (s : State) (a : BitVec 6) (w : Bool) (h : Hint), let i := Instr.fulfil a w h; MayIssue i s →
    ((s.ctx s.cur).hold = none → memGate s s.cur = .ok () → Readable (me s) (srcG a w 0 :: nameRegs) →
      (((me s).gr a.toNat).lab.h ≠ 0 → exec i s = .next (takeTrap s s.cur ⟨9, 0, gv (me s) a, 0⟩ false (me s).pc)) ∧
      (((me s).gr a.toNat).lab.h = 0 → Settled s → CachesEmpty s → NoneEmpty (me s) → (s.ctx s.cur).writing = none →
        ∃ t, exec i s = .next t ∧ HoldsOn s t ∧ CommittedTo s t (.fulfil (gv (me s) a) (BitVec.ofNat 2 h.code)))) ∧
    (∀ pc, (s.ctx s.cur).hold = some ⟨pc, none⟩ → exec i s = .next s) ∧
    (∀ pc, (s.ctx s.cur).hold = some ⟨pc, some 0⟩ → ∃ t, exec i s = .next t ∧ OnlyMe s t ∧ Passed i s t ∧ (t.ctx s.cur).hold = none) ∧
    (∀ pc v, v ≠ 0 → (s.ctx s.cur).hold = some ⟨pc, some v⟩ → exec i s = .next (takeTrap s s.cur ⟨0x1D, 0, v, 0⟩ false (me s).pc))) ∧
  (∀ s : State, MayIssue .abandon s →
    ((s.ctx s.cur).hold = none → memGate s s.cur = .ok () → Readable (me s) nameRegs → Settled s → CachesEmpty s → NoneEmpty (me s) →
      (s.ctx s.cur).writing = none → ∃ t, exec .abandon s = .next t ∧ HoldsOn s t ∧ CommittedTo s t .abandon) ∧
    (∀ pc, (s.ctx s.cur).hold = some ⟨pc, none⟩ → exec .abandon s = .next s) ∧
    (∀ pc, (s.ctx s.cur).hold = some ⟨pc, some 0⟩ → ∃ t, exec .abandon s = .next t ∧ OnlyMe s t ∧ Passed .abandon s t ∧ (t.ctx s.cur).hold = none) ∧
    (∀ pc v, v ≠ 0 → (s.ctx s.cur).hold = some ⟨pc, some v⟩ → exec .abandon s = .next (takeTrap s s.cur ⟨0x1D, 0, v, 0⟩ false (me s).pc)))

namespace Sys2Proof.Spec

/-- HASH (R136). -/
def mix (a b : Word) : Word :=
  let h := a ^^^ b * 0x9E3779B97F4A7C15
  let h := (h ^^^ h >>> 31) * 0xBF58476D1CE4E5B9
  let h := (h ^^^ h >>> 27) * 0x94D049BB133111EB
  h ^^^ h >>> 33
/-- The key of a claim name (R367). -/
def keyOf (n : CName) : Word := mix (mix n.func n.arg) (n.part.setWidth 64 <<< 32 ||| n.ver.setWidth 64)
/-- The Alembic partition of a name (R367): the set bit of the allowed mask below which as many set bits stand as the high half of the key modulo their number. -/
def Serves (s : State) (n : CName) (p : Nat) : Prop :=
  let am := (s.part n.part.toNat).am; let below (k : Nat) : Nat := (List.range k).countP fun i => am.getLsbD i
  p < 64 ∧ am.getLsbD p = true ∧ below p = (keyOf n).toNat / 2 ^ 32 % below 64

/-- The entries of two states agree but for those of one name. -/
def OthersStay (s t : State) (n : CName) : Prop := ∀ e, e.name ≠ n → (e ∈ t.claims ↔ e ∈ s.claims)
/-- A return with this code and reference follows those on their way. -/
def Returned (s t : State) (r : ClaimReq) (code ref : Word) (acq : Bool) : Prop := t.claimRets = s.claimRets ++ [⟨r.c, r.plc, code, ref, acq, if r.kind = .cldrop then some r.dst else none⟩]
/-- The instruction that holds the caller's issue has its answer. -/
def Answered (s t : State) (r : ClaimReq) (v : Word) : Prop := ∀ h, s.plc r.c = r.plc → (s.ctx r.c).hold = some h → (t.ctx r.c).hold = some { h with ans := some v }

/-- What R246 and R247 do with a CLAIM or CLAIMW of a name with no entry, or with a done one. -/
def ClaimedNew (s t : State) (r : ClaimReq) (p : Nat) : Prop :=
  ((∀ e ∈ s.claims, e.name ≠ r.name) →
    let inSet := s.claims.filter fun e => e.p == p && e.set == (keyOf r.name).toNat % 4096
    ((inSet.length < 16 ∨ ∃ e ∈ inSet, e.done = true) → Returned s t r 0 0 (r.kind == .claimw) ∧
      ∃ e, e.name = r.name ∧ e.done = false ∧ e.maker = r.c ∧ e.makerPlc = r.plc ∧ e.waiters = [] ∧ e.p = p ∧ e ∈ t.claims) ∧
    (inSet.length < 16 → OthersStay s t r.name) ∧
    (16 ≤ inSet.length → (∀ e ∈ inSet, e.done = false) → Returned s t r 3 0 false ∧ t.claims = s.claims)) ∧
  (∀ e ∈ s.claims, e.name = r.name → e.done = true → Returned s t r 2 e.result true ∧ (∀ x, x ∈ t.claims ↔ x ∈ s.claims) ∧ t.claims.head? = some e)

end Sys2Proof.Spec

/-- R245 to R251, R367, R370, R371, R373: what an Alembic partition does with the request it takes. A CLAIM or CLAIMW of a free name makes it, of a done name returns 2
with the reference, of a full set of making entries returns 3, and of another's making entry returns 1 or parks; a maker's FULFIL publishes to every waiter in
order, a maker's ABANDON hands over to the first; one by anyone else changes nothing and gets the fault's code; CLDROP removes a done entry alone. A partition without
power answers 3, and a CLDROP 0. A return fills d and x7; the one of a CLAIMW that still holds issue comes after the instruction's end. An earlier CLAIMW that the partition
refused comes first (R176, R369). -/
def Obligations.AlembicSteps : Prop :=
  (∀ (s : State) (n p : Nat) (r : ClaimReq), s.claimReqs[n]? = some r → Serves s r.name p → s.claims.Pairwise (fun a b => a.name ≠ b.name) →
    let up := (s.col p).stationPower = true
    (r.kind = .claim → ∃ t, exec (.alembicClaimArrival n) s = .next t ∧ t.claimReqs = takeOut n s.claimReqs ∧ t.ctxs = s.ctxs ∧
      (¬ up → Returned s t r 3 0 false ∧ t.claims = s.claims) ∧ (up → ClaimedNew s t r p) ∧
      (up → ∀ e ∈ s.claims, e.name = r.name → e.done = false →
        Returned s t r (if e.maker = r.c ∧ e.makerPlc = r.plc then 0 else 1) 0 false ∧ t.claims = s.claims)) ∧
    (r.kind = .claimw → ∃ t, exec (.alembicClaimArrival n) s = .next t ∧
      (¬ up → Returned s t r 3 0 false ∧ t.claims = s.claims ∧ Answered s t r 0 ∧ t.claimReqs = takeOut n s.claimReqs) ∧ (up → ClaimedNew s t r p) ∧
      (up → (∀ e ∈ s.claims, e.name = r.name → e.done = true) → Answered s t r 0 ∧ t.claimReqs = takeOut n s.claimReqs) ∧
      (up → ∀ e ∈ s.claims, e.name = r.name → e.done = false →
        (e.maker = r.c ∧ e.makerPlc = r.plc → Answered s t r 1 ∧ t.claims = s.claims ∧ t.claimRets = s.claimRets ∧ t.claimReqs = takeOut n s.claimReqs) ∧
        (¬(e.maker = r.c ∧ e.makerPlc = r.plc) → s.claims = [e] → r.stamp = 0 →
          (e.waiters.length < 512 → (∀ w ∈ e.waiters, w.stamp ≤ s.stamp) → (∀ x ∈ s.claimReqs, x.stamp = 0) → Answered s t r 0 ∧ t.claimRets = s.claimRets ∧ t.claimReqs = takeOut n s.claimReqs ∧
            t.claims = [{ e with waiters := e.waiters ++ [⟨r.c, r.plc, s.stamp + 1⟩] }]) ∧
          (512 ≤ e.waiters.length → t.claims = s.claims ∧ t.claimRets = s.claimRets ∧ t.claimReqs[n]? = some { r with stamp := s.stamp + 1 }) ∧
          (e.p = p → (∃ x ∈ s.claimReqs, x.kind = .claimw ∧ x.stamp ≠ 0 ∧ x.stamp ≤ s.stamp ∧ Serves s x.name p) →
            t.claims = s.claims ∧ t.claimRets = s.claimRets ∧ t.claimReqs[n]? = some { r with stamp := s.stamp + 1 })))) ∧
    (∀ ref cls, r.kind = .fulfil ref cls → ∃ t, exec (.alembicFulfilArrival n) s = .next t ∧ t.claimReqs = takeOut n s.claimReqs ∧ OthersStay s t r.name ∧
      (∀ e ∈ s.claims, up → e.name = r.name → e.done = false → e.maker = r.c → e.makerPlc = r.plc → Answered s t r 0 ∧
        t.claimRets = s.claimRets ++ e.waiters.map (fun w => ⟨w.c, w.plc, 2, ref, true, none⟩) ∧
        (cls = 3 → ∀ x ∈ t.claims, x.name ≠ r.name) ∧ (cls ≠ 3 → ∃ x ∈ t.claims, x.name = r.name ∧ x.done = true ∧ x.result = ref ∧ x.cls = cls ∧ x.waiters = [])) ∧
      (∀ e ∈ s.claims, up → e.name = r.name → ¬(e.done = false ∧ e.maker = r.c ∧ e.makerPlc = r.plc) →
        Answered s t r (if e.done then 2 else 1) ∧ t.claims = s.claims ∧ t.claimRets = s.claimRets) ∧
      (¬ up ∨ (∀ e ∈ s.claims, e.name ≠ r.name) → Answered s t r 5 ∧ t.claims = s.claims ∧ t.claimRets = s.claimRets)) ∧
    (r.kind = .abandon → ∃ t, exec (.alembicAbandonArrival n) s = .next t ∧ t.claimReqs = takeOut n s.claimReqs ∧ OthersStay s t r.name ∧
      (∀ e ∈ s.claims, up → e.name = r.name → e.done = false → e.maker = r.c → e.makerPlc = r.plc → Answered s t r 0 ∧
        (e.waiters = [] → t.claimRets = s.claimRets ∧ ∀ x ∈ t.claims, x.name ≠ r.name) ∧
        (∀ w ws, e.waiters = w :: ws → t.claimRets = s.claimRets ++ [⟨w.c, w.plc, 4, 0, true, none⟩] ∧
          { e with maker := w.c, makerPlc := w.plc, waiters := ws } ∈ t.claims)) ∧
      (∀ e ∈ s.claims, up → e.name = r.name → ¬(e.done = false ∧ e.maker = r.c ∧ e.makerPlc = r.plc) →
        Answered s t r (if e.done then 2 else 1) ∧ t.claims = s.claims ∧ t.claimRets = s.claimRets) ∧
      (¬ up ∨ (∀ e ∈ s.claims, e.name ≠ r.name) → Answered s t r 5 ∧ t.claims = s.claims ∧ t.claimRets = s.claimRets)) ∧
    (r.kind = .cldrop → ∃ t, exec (.alembicCldropArrival n) s = .next t ∧ t.claimReqs = takeOut n s.claimReqs ∧ OthersStay s t r.name ∧
      (∀ e ∈ s.claims, up → e.name = r.name → e.done = true → Returned s t r 1 0 false ∧ ∀ x ∈ t.claims, x.name ≠ r.name) ∧
      (∀ e ∈ s.claims, up → e.name = r.name → e.done = false → Returned s t r 2 0 false ∧ t.claims = s.claims) ∧
      (¬ up ∨ (∀ e ∈ s.claims, e.name ≠ r.name) → Returned s t r 0 0 false ∧ t.claims = s.claims))) ∧
  (∀ (s : State) (n : Nat) (r : ClaimRet) (o : ClaimOut) (k : Nat), s.claimRets[n]? = some r → s.claimOuts = [o] → o.c = r.c → o.plc = r.plc → s.plc r.c = r.plc →
    o.dst = ⟨.g, k⟩ → k ≠ 0 → (∀ l ∈ o.labs, l.h = 0) → CachesEmpty s →
    (o.x7 = true ∧ r.drop = none ∧ (∃ m, (s.ctx r.c).pend = [.wait .claim 0 (some o.dst) m]) ∨
      o.x7 = false ∧ r.drop = some o.dst ∧ (∃ q m, (s.ctx r.c).pend = [.wait .free q (some o.dst) m])) →
    ∃ t, exec (.claimReturn n) s = .next t ∧ t.claimRets = takeOut n s.claimRets ∧ t.claimOuts = [] ∧ (t.ctx r.c).pend = [] ∧
      (t.ctx r.c).arch.gr k = Reg.of r.code ∧ (o.x7 = true → (t.ctx r.c).arch.xr 7 = Reg.of r.ref) ∧
      (o.x7 = false → (t.ctx r.c).arch.xr 7 = (s.ctx r.c).arch.xr 7) ∧ ∀ b, t.byte b = s.byte b) ∧
  (∀ (s : State) (n : Nat) (r : ClaimRet), s.claimRets[n]? = some r → s.claimOuts = [] → s.plc r.c = r.plc → (s.ctx r.c).hold ≠ none → exec (.claimReturn n) s = .next s)

namespace Sys2Proof.Spec

/-- The lowest and the highest offset of a footprint (R257). -/
def Spans (d0 d1 d2 : Nat) (s1 s2 lo hi : Int) : Prop :=
  (∃ i j : Nat, i < d1 ∧ j < d2 ∧ lo = i * s1 + j * s2) ∧ (∃ i j : Nat, i < d1 ∧ j < d2 ∧ hi = i * s1 + j * s2 + d0 - 1) ∧
    ∀ i j : Nat, i < d1 → j < d2 → lo ≤ i * s1 + j * s2 ∧ i * s1 + j * s2 + d0 - 1 ≤ hi

/-- Extent `k` of CPSHAPE: d0 as it stands; a d1 or d2 of 0 is read as 1 (R30). -/
def extent (a : Arch) (k : Nat) : Nat :=
  match k with
  | 0 => (a.cpshape.extractLsb' 0 24).toNat
  | 1 => max 1 (a.cpshape.extractLsb' 24 16).toNat
  | _ => max 1 (a.cpshape.extractLsb' 40 16).toNat

/-- One reference of a copy passes its checks at both ends of its footprint, which begins at its offset (for a block-scaled object the model's choice of
log 90). -/
def SpanPasses (s : State) (ref : Word) (s1 s2 : Int) (write : Bool) (e : HEntry) : Prop :=
  ∃ lo hi, Spans (extent (me s) 0) (extent (me s) 1) (extent (me s) 2) s1 s2 lo hi ∧
    spanCheck s s.cur ref (copyOff ref + lo) (copyOff ref + hi) ⟨write, false, false, true, 0⟩ = .ok e

/-- The checks of R257 and R262 for a copy without encoding and without follow-on, and the entries they read. -/
def CopyReady (s : State) (multi : Bool) (src dst : Option HEntry) : Prop :=
  let a := me s; let str (w : Word) (k : Nat) : Int := (w.extractLsb' k 32).toInt
  barGate s s.cur = .ok () ∧ (∀ p ∈ (s.cell (cellOf s.cur)).cwait, p.c ≠ s.cur) ∧ a.cpshape.extractLsb' 56 2 = 0 ∧ a.cpfollow.getLsbD 32 = false ∧
    (a.cpbar.getLsbD 20 = true → (a.cpbar.setWidth 20).toNat + 16 ≤ (s.cell (cellOf s.cur)).spadSize) ∧
    (extent a 0 = 0 → src = none ∧ if multi then ∃ f, dst = some f ∧ handleEntry s s.cur (refIdx a.cpdst) = .ok f else dst = none) ∧
    (extent a 0 ≠ 0 → refFmt a.cpdst ≠ 9 ∧ ∃ e f, src = some e ∧ dst = some f ∧ SpanPasses s a.cpsrc (str a.cpstr0 0) (str a.cpstr1 0) false e ∧
      SpanPasses s a.cpdst (str a.cpstr0 32) (str a.cpstr1 32) true f) ∧
    (multi = true → ∀ f, dst = some f → f.kind = 1)

/-- The launch of a strand of a job skips receiver `k` of its column (R263): one of another partition, or without a strand of the job, on a context or saved. -/
def Skips (s : State) (job k : Nat) : Prop :=
  let n := colOf (cellOf s.cur) * 16 + k
  (s.cell n).part ≠ BitVec.ofNat 6 (me s).partition ∨
    ∀ i < 16, (∀ z, (s.ctx (16 * n + i)).strand = some z → z.job ≠ job) ∧ ∀ v, (s.ctx (16 * n + i)).save = some v → v.strand.job ≠ job

/-- A job was queued to the cell's copy engine, with the staging registers as they stood, and the receivers that it skips. -/
def CopyQueued (s t : State) (d : RegId) (multi : Bool) (mask : BitVec 16) (src dst : Option HEntry) : Prop :=
  let n := cellOf s.cur; let a := me s
  (me t).pc = a.pc + 4 ∧ (d ≠ ⟨.g, 0⟩ → ((me t).rmeta d).fe = .empty) ∧ RegsBut a (me t) d ∧
    ∃ p, (t.cell n).cwait = (s.cell n).cwait ++ [p] ∧ p.c = s.cur ∧ p.plc = s.plc s.cur ∧ p.reg = some d ∧ p.multi = multi ∧ p.mask = mask ∧
      p.snap = [a.cpsrc, a.cpdst, a.cpshape, a.cpstr0, a.cpstr1, a.cpbar, a.cpfollow] ∧ p.src = src ∧ p.dst = dst ∧ p.pos = 0 ∧ p.follow = none ∧
      ∀ z, (s.ctx s.cur).strand = some z → ∀ k, k < 16 → (p.skipped.getLsbD k = true ↔ mask.getLsbD k = true ∧ Skips s z.job k)

/-- The barrier that a reference names can be reached (R268). -/
def BarrierReady (i : Instr) (s : State) (xs : List Src) (a : BitVec 6) (write : Bool) (addr : Nat) : Prop :=
  MayIssue i s ∧ barGate s s.cur = .ok () ∧ Readable (me s) xs ∧ ViewHolds s [srcG a true 0] ∧ barrierAt s s.cur (gv (me s) a) write = .ok addr
/-- One barrier request left, behind those on their way; no byte of memory changed. -/
def BarSent (s t : State) (r : BarReq) : Prop := t.barReqs = s.barReqs ++ [r] ∧ (∀ b, t.byte b = s.byte b)

end Sys2Proof.Spec

/-- R254, R266, R268 to R271: the barrier instructions. A reference to an entry that is not scratchpad is the permission fault, an offset that is no multiple
of 16 the alignment fault. TBINIT, TBEXP and TBARR send their update to the home and change no register; TBWAIT and TBTIME mark d empty, queue at
the home with their phase, scope and limit, and hold back later memory, barrier and engine instructions. A reserved scope is the illegal instruction fault. -/
def Obligations.BarrierInstructions : Prop :=
  (∀ (s : State) (i : Instr) (x y : BitVec 6) (wx wy : Bool) (addr : Nat) (op : BarOp),
    (i = .tbinit x y wx wy ∧ op = .init ((gv (me s) y).setWidth 20) ∨ i = .tbexp x y wx wy ∧ op = .expect ((gv (me s) y).setWidth 32)) →
    BarrierReady i s [srcG x wx 0, srcG y wy 1] x true addr → Settled s → CachesEmpty s →
    ∃ t, exec i s = .next t ∧ Passed i s t ∧ BarSent s t ⟨s.cur, addr, gv (me s) x, op, (s.ctx s.cur).seq⟩) ∧
  (∀ (s : State) (x : BitVec 6) (w : Bool) (sc : Scope) (addr : Nat), let i := Instr.tbarr x w sc
    BarrierReady i s [srcG x w 0] x true addr → Settled s → CachesEmpty s →
    ∃ t, exec i s = .next t ∧ Passed i s t ∧ BarSent s t ⟨s.cur, addr, gv (me s) x, .arrive, (s.ctx s.cur).seq⟩) ∧
  (∀ (s : State) (x y : BitVec 6) (wx wy : Bool) (e : HEntry), let i := Instr.tbinit x y wx wy; let r := gv (me s) x
    MayIssue i s → barGate s s.cur = .ok () → Readable (me s) [srcG x wx 0, srcG y wy 1] → ViewHolds s [srcG x true 0] →
    readRef s s.cur r 16 1 ⟨true, false, false, false, 0⟩ = .ok e →
    (e.kind ≠ 1 → e.kind ≠ 2 → exec i s = .next (takeTrap s s.cur ⟨0x15, 0, r, 0⟩ false (me s).pc)) ∧
    (e.kind = 1 → r.toNat % 16 ≠ 0 → exec i s = .next (takeTrap s s.cur ⟨0x16, 0, r, 0⟩ false (me s).pc))) ∧
  (∀ (s : State) (d x y : BitVec 6) (wx wy timed : Bool) (addr : Nat), let i := if timed then Instr.tbtime d x y wx wy else .tbwait d x y wx wy
    let v := gv (me s) y; Writable (me s) (gd d) → BarrierReady i s [srcG x wx 0, srcG y wy 1] x false addr →
    (5 < (v.extractLsb' 4 3).toNat → exec i s = .next (takeTrap s s.cur ⟨1, 0, i.image, 0⟩ false (me s).pc)) ∧
    (∀ sc : Scope, (v.extractLsb' 4 3).toNat = sc.code → Settled s → CachesEmpty s →
      ∃ t, exec i s = .next t ∧ (me t).pc = (me s).pc + 4 ∧ (d ≠ 0 → ((me t).rmeta (gd d)).fe = .empty) ∧ RegsBut (me s) (me t) (gd d) ∧
        memGate t s.cur = waits ∧ barGate t s.cur = waits ∧
        BarSent s t ⟨s.cur, addr, gv (me s) x, .wait ⟨s.cur, s.plc s.cur, gd d, v.setWidth 4, sc, s.tsc,
          if timed then some (v.extractLsb' 8 56).toNat else none, s.stamp, gv (me s) x, none, (me s).pc⟩, (s.ctx s.cur).seq⟩))

namespace Sys2Proof.Spec

/-- The implicit operands of GATH, after its barrier (R272). -/
def gathRegs (d : BitVec 6) : List Src := [srcG d true 2, srcF .x 0 3, srcF .x 1 4, srcF .x 2 5, srcF .x 3 6]
/-- The operands of ENCPOST (R275). -/
def encRegs (x y : BitVec 6) (wx wy : Bool) : List Src := [srcG x wx 0, srcG y wy 1, srcF .x 0 3, srcF .x 1 4]

end Sys2Proof.Spec

/-- R257, R258, R262 to R265: CPGO and CPMC check, clean, mark d empty and queue a job that holds the staging registers as they stood; a mode
above 1 is the illegal instruction fault; a second one waits while a first has no slot. CPMC with an empty mask fills d with 0x100, waits while a named
counter is 0, and otherwise takes one from each but those of the receivers that it skips. SLOTQ reads a counter; SLOTRET releases, and leaves with a point.
R254, R256, R272, R273, R275: GATH checks its barrier, shape and regions, of its table only the entry, the read permission and the alignment; a shape out of range is the format fault; a count of 0 does nothing further;
otherwise, with fewer than 16 gathers of the cell under way, the gather joins its column's engine, and no register changes. ENCPOST checks the frame
and its barrier, releases, marks d empty and offers the frame. -/
def Obligations.EngineInstructions : Prop :=
  ((∀ (s : State) (d : BitVec 6), MayIssue (.cpgo d) s → Writable (me s) (gd d) →
    (∀ src dst, CopyReady s false src dst → Settled s → CachesEmpty s →
      ∃ t, exec (.cpgo d) s = .next t ∧ CopyQueued s t (gd d) false 0 src dst ∧ (∀ b, t.byte b = s.byte b) ∧ (t.cell (cellOf s.cur)).slots = (s.cell (cellOf s.cur)).slots) ∧
    (barGate s s.cur = .ok () → (∃ p ∈ (s.cell (cellOf s.cur)).cwait, p.c = s.cur ∧ p.plc = s.plc s.cur) → exec (.cpgo d) s = .next s) ∧
    (barGate s s.cur = .ok () → (s.cell (cellOf s.cur)).cwait = [] → 1 < ((me s).cpshape.extractLsb' 56 2).toNat →
      exec (.cpgo d) s = .next (takeTrap s s.cur ⟨1, 0, (me s).cpshape, 0⟩ false (me s).pc))) ∧
  (∀ (s : State) (d x : BitVec 6) (w : Bool), let i := Instr.cpmc d x w; let mask := (gv (me s) x).setWidth 16; let n := cellOf s.cur
    MayIssue i s → Writable (me s) (gd d) → Readable (me s) [srcG x w 0] → barGate s s.cur = .ok () →
    (mask = 0 → ∃ t, exec i s = .next t ∧ OnlyMe s t ∧ (me t).pc = (me s).pc + 4 ∧ (d ≠ 0 → (me t).gr d.toNat = Reg.of 0x100) ∧ RegsBut (me s) (me t) (gd d)) ∧
    ((∃ k < 16, mask.getLsbD k = true ∧ Tab.get (s.cell n).slots k 0 = 0) → exec i s = .next s) ∧
    (mask ≠ 0 → (∀ k, k < 16 → mask.getLsbD k = true → Tab.get (s.cell n).slots k 0 ≠ 0) → ∀ src dst, CopyReady s true src dst → Settled s → CachesEmpty s →
      ∃ t, exec i s = .next t ∧ CopyQueued s t (gd d) true mask src dst ∧ (∀ b, t.byte b = s.byte b) ∧
        ∀ z, (s.ctx s.cur).strand = some z → ∀ k, k < 16 →
          (mask.getLsbD k = true → ¬ Skips s z.job k → Tab.get (t.cell n).slots k 0 = Tab.get (s.cell n).slots k 0 - 1) ∧
          (mask.getLsbD k = false ∨ Skips s z.job k → Tab.get (t.cell n).slots k 0 = Tab.get (s.cell n).slots k 0))) ∧
  (∀ (s : State) (d x : BitVec 6) (w : Bool), let i := Instr.slotq d x w; MayIssue i s → barGate s s.cur = .ok () → Writable (me s) (gd d) →
    Readable (me s) [srcG x w 0] → exec i s = .next (advance i (fill s s.cur (gd d)
      (.w ((Tab.get (s.cell (cellOf s.cur)).slots ((gv (me s) x).setWidth 4).toNat 0).setWidth 64)) [((me s).gr x.toNat).lab]) s.cur)) ∧
  (∀ (s : State) (x y : BitVec 6) (wx wy : Bool), let i := Instr.slotret x y wx wy
    MayIssue i s → barGate s s.cur = .ok () → Readable (me s) [srcG x wx 0, srcG y wy 1] → Settled s → CachesEmpty s → NoneEmpty (me s) →
    (s.ctx s.cur).writing = none → ∃ t, exec i s = .next t ∧ Passed i s t ∧ (∀ b, t.byte b = s.byte b) ∧
      CommittedTo s t (.slotret (colOf (cellOf s.cur) * 16 + ((gv (me s) x).setWidth 4).toNat) s.cur (gv (me s) y)))) ∧
  ((∀ (s : State) (d : BitVec 6) (h : Hint) (bar : Nat), let i := Instr.gath d h; let a := me s; let x (k : Nat) : Word := (a.xr k).val
    let count := ((x 2).setWidth 32).toNat; let rowb := ((x 2).extractLsb' 32 16).toNat; let iw := ((x 2).extractLsb' 48 8).toNat
    MayIssue i s → barGate s s.cur = .ok () → Readable a (gathRegs d) → ViewHolds s (gathRegs d) → barrierAt s s.cur (gv a d) true = .ok bar →
    let good := rowb % 8 = 0 ∧ 8 ≤ rowb ∧ (iw = 4 ∨ iw = 8) ∧ (x 2).extractLsb' 56 8 = 0
    (¬ good → exec i s = .next (takeTrap s s.cur ⟨0x1A, 0, x 2, 0⟩ false a.pc)) ∧
    (∀ (e0 e1 e3 : HEntry) (as0 as3 : List Acc), good → regionPhase s s.cur (x 0) (count * iw) iw ⟨false, false, false, false, 0⟩ (a.xr 0).lab = .ok (e0, as0) →
      regionPhase s s.cur (x 3) (count * rowb) 8 ⟨true, false, false, false, 0⟩ (a.xr 3).lab = .ok (e3, as3) → NoRace as0 → NoRace as3 →
      handleEntry s s.cur (refIdx (x 1)) = .ok e1 → e1.valid = true → e1.kind < 4 → e1.reserved = false → e1.rd = true → refOff (x 1) % 8 = 0 →
      (count = 0 → ∃ t, exec i s = .next t ∧ OnlyMe s t ∧ Passed i s t) ∧
      (count ≠ 0 → 16 ≤ ((s.col (colOf (cellOf s.cur))).gathers.filter fun g => g.cell == cellOf s.cur).length → exec i s = .next s) ∧
      (count ≠ 0 → ((s.col (colOf (cellOf s.cur))).gathers.filter fun g => g.cell == cellOf s.cur).length < 16 → Settled s → CachesEmpty s →
        ∃ t g, exec i s = .next t ∧ Passed i s t ∧ (∀ b, t.byte b = s.byte b) ∧
          (t.col (colOf (cellOf s.cur))).gathers = (s.col (colOf (cellOf s.cur))).gathers ++ [g] ∧ g.c = s.cur ∧ g.plc = s.plc s.cur ∧
          [g.x0, g.x1, g.x2, g.x3] = [x 0, x 1, x 2, x 3] ∧ [g.e0, g.e1, g.e3] = [e0, e1, e3] ∧ g.bar = bar ∧ g.hint.toNat = h.code ∧ g.idx = [] ∧ g.moved = 0))) ∧
  (∀ (s : State) (d x y : BitVec 6) (wx wy : Bool) (e : HEntry) (as : List Acc) (bar : Nat), let i := Instr.encpost d x y wx wy; let a := me s
    MayIssue i s → barGate s s.cur = .ok () → Writable a (gd d) → Readable a (encRegs x y wx wy) → ViewHolds s [srcG x wx 0, srcF .x 0 3, srcF .x 1 4] →
    regionPhase s s.cur (gv a x) 1 1 ⟨false, false, false, false, 0⟩ (a.gr x.toNat).lab = .ok (e, as) → NoRace as → barrierAt s s.cur (a.xr 1).val true = .ok bar →
    Settled s → CachesEmpty s →
    ∃ t f, exec i s = .next t ∧ (me t).pc = a.pc + 4 ∧ (d ≠ 0 → ((me t).rmeta (gd d)).fe = .empty) ∧ RegsBut a (me t) (gd d) ∧ (∀ b, t.byte b = s.byte b) ∧
      t.frames = s.frames ++ [f] ∧ f.stream = ((gv a y).setWidth 10).toNat ∧ f.part = BitVec.ofNat 6 a.partition ∧ f.ref = gv a x ∧ f.pts = (a.xr 0).val ∧
      f.bar = some (bar, (a.xr 1).val) ∧ f.plc = s.plc s.cur ∧ (e.kind ≠ 0 → f.va = none) ∧ ∃ u, f.dst = some u ∧ u.dst = gd d))

namespace Sys2Proof.Spec

/-- The byte address in the own scratchpad of cell `n` of an offset from a kind 1 entry's base (R24). -/
def ownAddr (n : Nat) (e : HEntry) (o : Int) : Nat := Config.spadBase + n * 0x100000 + (((e.w0.extractLsb' 0 57).toNat : Int) + o).toNat
/-- A kind 1 entry. -/
def Own (e : HEntry) : Prop := e.kind = 1
/-- The offset of byte (j, i, k) of a copy's row from its entry's base (R257); where a block-scaled footprint begins is the model's choice (log 90). -/
def rowOff (ref str0 str1 : Word) (lo j i k : Nat) : Int :=
  (copyOff ref : Int) + (i : Int) * (str0.extractLsb' lo 32).toInt + (j : Int) * (str1.extractLsb' lo 32).toInt + k

/-- A byte at an offset of a block-scaled object that is one of the bytes 1 to 7 of its block (R53). -/
def Padding (ref : Word) (o : Int) : Prop := (refFmt ref = 7 ∨ refFmt ref = 8) ∧ 1 ≤ o % (2 ^ refLbl ref + 8 : Nat) ∧ o % (2 ^ refLbl ref + 8 : Nat) ≤ 7
/-- The end of the scratchpad that the strands of cell `n` may use, of at most 1 MiB (R327). -/
def spadEnd (s : State) (n : Nat) : Nat := Config.spadBase + n * 0x100000 + min (s.cell n).spadSize 0x100000

/-- A copy job that stands alone in its cell's engine, and its parts. -/
structure Alone (s : State) (n slot : Nat) (p : Copy) (ref dref shape str0 str1 bar fol : Word) : Prop where
  only : (s.cell n).copies = [(slot, p)]
  snap : p.snap = [ref, dref, shape, str0, str1, bar, fol]
  plain : shape.extractLsb' 56 2 = 0
  single : p.multi = false
  going : p.ended = false
  up : ∀ c, (s.col c).cellPower = true
  follow : p.follow = none
  pieces : ∀ x ∈ p.parts, ∀ l ∈ x.2, l.h = 0
  replay : p.replay = false ∧ p.skip = 0

end Sys2Proof.Spec

/-- R53, R258, R259, R260, R397, R399: the copy engine's steps. The oldest waiting job takes the lowest free slot, and its transfer identifier (slot, generation)
fills its register; with no free slot nothing happens. The next run of a row, up to the end of a destination line, is copied byte for byte within
the own scratchpad, but for bytes 1 to 7 of a scaled block, which are written as zero; each 64 bytes, and the last byte, credit the barrier; an uncorrectable datum stops the job with a record and all its sectors credited. A
credit subtracts its sectors at the barrier, which lies at its offset rounded down to 16 (the model's reading, log 37); where a copy of a scaled block begins is the model's choice (log 90). -/
def Obligations.CopySteps : Prop :=
  (∀ (s : State) (n i k : Nat) (p : Copy) (ps : List Copy), (s.cell n).cwait = p :: ps → (s.col (colOf n)).cellPower = true → i < 64 →
    Tab.get? (s.cell n).copies i = none → (∀ j, j < i → Tab.get? (s.cell n).copies j ≠ none) → p.multi = false → p.skipped = 0 → (p.snap.getD 2 0).extractLsb' 56 2 = 0 → 0 < p.total → p.reg = some ⟨.g, k⟩ → k ≠ 0 →
    s.plc p.c = p.plc →
    let tid : Word := BitVec.ofNat 64 (i + 64 * (Tab.get (s.cell n).gens i 0).toNat)
    ∃ t, exec (.copySlotAllocation n) s = .next t ∧ (t.cell n).cwait = ps ∧ Tab.get? (t.cell n).copies i = some { p with tid := tid } ∧
      (t.ctx p.c).arch.gr k = Reg.of tid ∧ ∀ b, t.byte b = s.byte b) ∧
  (∀ (s : State) (n : Nat), (∀ j, j < 64 → Tab.get? (s.cell n).copies j ≠ none) → exec (.copySlotAllocation n) s = .next s) ∧
  (∀ (s : State) (n slot j i k m : Nat) (p : Copy) (ref dref shape str0 str1 bar fol : Word) (e f : HEntry),
    Alone s n slot p ref dref shape str0 str1 bar fol → p.src = some e → p.dst = some f → Own e → Own f →
    let d0 := (shape.extractLsb' 0 24).toNat; let d1 := max 1 (shape.extractLsb' 24 16).toNat; let d2 := max 1 (shape.extractLsb' 40 16).toNat
    let src (x : Nat) := ownAddr n e (rowOff ref str0 str1 0 j i (k + x)); let dst (x : Nat) := ownAddr n f (rowOff dref str0 str1 32 j i (k + x))
    j < d2 → i < d1 → k < d0 → p.pos = (j * d1 + i) * d0 + k → m = min (d0 - k) (64 - dst 0 % 64) →
    0 ≤ (e.w0.extractLsb' 0 57).toNat + rowOff ref str0 str1 0 j i 0 → 0 ≤ (f.w0.extractLsb' 0 57).toNat + rowOff dref str0 str1 32 j i 0 →
    src m ≤ spadEnd s n → dst m ≤ spadEnd s n → n < 1024 →
    (∀ x, x < m → s.isBad (src x) = false) → (∀ x, x < m → s.isBad (dst x) = false) →
    let last := (j * d1 + i) * d0 + k + m = d0 * d1 * d2
    let done := if last then (d0 * d1 * d2 + 63) / 64 else ((j * d1 + i) * d0 + k + m) / 64
    ∃ t, exec (.copyLine n slot) s = .next t ∧ (∀ x, x < m → let z := Padding dref (rowOff dref str0 str1 32 j i (k + x))
        (z → t.byte (dst x) = 0) ∧ (¬z → t.byte (dst x) = s.byte (src x))) ∧ (∀ b, (∀ x, x < m → b ≠ dst x) → t.byte b = s.byte b) ∧
      (bar.getLsbD 20 = false → t.credits = s.credits) ∧
      (bar.getLsbD 20 = true → p.credited < done → t.credits = s.credits ++
        [⟨Config.spadBase + n * 0x100000 + (bar.setWidth 20).toNat / 16 * 16, done - p.credited, false, false, some (p.c, p.plc), some (n, slot), none⟩]) ∧
      (¬ last → ∃ q, Tab.get? (t.cell n).copies slot = some q ∧ q.pos = p.pos + m ∧ q.ended = false) ∧
      (last → bar.getLsbD 20 = true → p.credited < done → ∃ q, Tab.get? (t.cell n).copies slot = some q ∧ q.ended = true) ∧
      (last → bar.getLsbD 20 = false → (∀ r ∈ s.credits, r.slot ≠ some (n, slot)) → Tab.get? (t.cell n).copies slot = none ∧
        Tab.get (t.cell n).gens slot 0 = Tab.get (s.cell n).gens slot 0 + 1)) ∧
  (∀ (s : State) (n slot j i k : Nat) (p : Copy) (ref dref shape str0 str1 bar fol : Word) (e f : HEntry),
    Alone s n slot p ref dref shape str0 str1 bar fol → p.src = some e → p.dst = some f → Own e → Own f →
    let d0 := (shape.extractLsb' 0 24).toNat; let d1 := max 1 (shape.extractLsb' 24 16).toNat; let d2 := max 1 (shape.extractLsb' 40 16).toNat
    let src := ownAddr n e (rowOff ref str0 str1 0 j i k)
    j < d2 → i < d1 → k < d0 → p.pos = (j * d1 + i) * d0 + k → 0 ≤ (e.w0.extractLsb' 0 57).toNat + rowOff ref str0 str1 0 j i 0 →
    0 ≤ (f.w0.extractLsb' 0 57).toNat + rowOff dref str0 str1 32 j i 0 → src < Config.spadBase + (n + 1) * 0x100000 → n < 1024 →
    s.isBad src = true → (s.part p.part.toNat).ringSize = 0 → bar.getLsbD 20 = true → p.credited < (d0 * d1 * d2 + 63) / 64 →
    ∃ t, exec (.copyLine n slot) s = .next t ∧ (∃ r ∈ t.recs, r.code = 0x4B ∧ r.obj = p.tid) ∧ (∀ b, t.byte b = s.byte b) ∧
      ∃ c, t.credits = s.credits ++ [c] ∧ c.err = true ∧ c.n = (d0 * d1 * d2 + 63) / 64 - p.credited) ∧
  (∀ (s : State) (n : Nat) (r : Credit) (ph : BitVec 4) (arr : BitVec 20) (sec : BitVec 32) (err : Bool), s.credits[n]? = some r → Config.spadBase ≤ r.addr →
    r.addr + 16 ≤ Config.spadFeBase → homeUp s r.addr = true → s.isBad r.addr = false → r.arrive = false → barOf (s.word r.addr) = (ph, arr, sec, err) →
    -(2 ^ 31 : Int) ≤ sec.toInt - r.n →
    ∃ t, exec (.barrierCredit n) s = .next t ∧ t.credits = takeOut n s.credits ∧
      (arr ≠ 0 ∨ sec.toInt ≠ r.n → barOf (t.word r.addr) = (ph, arr, sec - BitVec.ofNat 32 r.n, err || r.err) ∧ t.barRets = s.barRets) ∧
      (arr = 0 → sec.toInt = r.n → barOf (t.word r.addr) = (ph + 1, (s.word (r.addr + 8)).setWidth 20, 0, err || r.err) ∧
        t.barRets = s.barRets ++ ((s.home r.addr).waiters.filter fun w => w.ph != ph + 1).map fun w => (w, (if err || r.err then 1 else 0), true)))

namespace Sys2Proof.Spec

/-- A gather that stands first in its column's engine, between regions of the own scratchpad, and its index value at a position. -/
structure GatherAt (s : State) (col : Nat) (g : Gather) : Prop where
  only : (s.col col).gathers = [g]
  up : (s.col col).stationPower = true ∧ ∀ c, (s.col c).cellPower = true
  own : Own g.e0 ∧ Own g.e1 ∧ Own g.e3
  cell : g.cell / 16 = col ∧ g.cell < 1024
  pieces : ∀ x ∈ g.parts, ∀ l ∈ x.2, l.h = 0
  iw : (g.x2.extractLsb' 48 8).toNat = 4 ∨ (g.x2.extractLsb' 48 8).toNat = 8
  rowb : 8 ≤ (g.x2.extractLsb' 32 16).toNat

end Sys2Proof.Spec

namespace Sys2Proof.Spec

/-- A word of a stream's descriptor (R407). -/
def streamWord (s : State) (st k : Nat) : Word := s.word (s.strdesc + 64 * st + 8 * k)
/-- The encoder that a stream is bound to. -/
def boundTo (s : State) (st : Nat) : Nat := ((streamWord s st 0).extractLsb' 9 5).toNat

end Sys2Proof.Spec

/-- R260, R274, R404, R405: the gather engine reads index values in order at their places, up to the end of a line. A row whose index is all ones is left as it is, one
beyond the table is filled with zeros, with a record, and any other receives the table's bytes; an index met before receives the bytes of its first position.
R275, R408 to R410, R443: a frame offered to a stream that is not configured for its partition gets status 2, to a full queue 1, and otherwise joins the queue with
status 0. A free encoder starts the stream head with the earliest presentation time, the lower stream number on a tie; having read the frame, for which it waits while a
plane cannot be reached, it makes one arrival on the frame's barrier; it writes its record only once the frame is read and the ring has room, and is then free. That a
packet whose system route fails waits at its source is the model's reading (log 94). -/
def Obligations.GatherAndEncoderSteps : Prop :=
  ((∀ (s : State) (col : Nat) (g : Gather), GatherAt s col g → let count := (g.x2.setWidth 32).toNat; let iw := (g.x2.extractLsb' 48 8).toNat
    let at_ (p : Nat) : Nat := ownAddr g.cell g.e0 ((g.x0.setWidth 40).toNat + p * iw)
    g.idx.length < count → at_ 0 % iw = 0 → at_ (g.idx.length + 17) ≤ spadEnd s g.cell →
    (∀ k, k < 64 → s.isBad (at_ g.idx.length + k) = false) →
    ∃ t h, exec (.gatherIndexRead col 0) s = .next t ∧ (∀ b, t.byte b = s.byte b) ∧ (t.col col).gathers = [h] ∧ h = { g with idx := h.idx } ∧
      h.idx.length = min count (g.idx.length + (64 - at_ g.idx.length % 64) / iw) ∧ h.idx.take g.idx.length = g.idx ∧
      ∀ p, g.idx.length ≤ p → p < h.idx.length → h.idx[p]? = some (s.num (at_ p) iw)) ∧
  (∀ (s : State) (col p v : Nat) (g : Gather), GatherAt s col g → let count := (g.x2.setWidth 32).toNat; let iw := (g.x2.extractLsb' 48 8).toNat
    let rowb := (g.x2.extractLsb' 32 16).toNat
    let table (q : Nat) : Nat := ownAddr g.cell g.e1 ((g.x1.setWidth 40).toNat + q * rowb); let dst (q : Nat) : Nat := ownAddr g.cell g.e3 ((g.x3.setWidth 40).toNat + q * rowb)
    g.moved = p * rowb → p < count → g.idx[p]? = some v → g.idx.length < 8192 →
    dst (p + 1) ≤ spadEnd s g.cell → (∀ b, s.isBad b = false) → (s.part g.part.toNat).ringSize = 0 →
    let only (t : State) (val : Nat → Byte) : Prop := (∀ k, k < rowb → t.byte (dst p + k) = val k) ∧ ∀ b, b < dst p ∨ dst p + rowb ≤ b → t.byte b = s.byte b
    ∃ t, exec (.gatherRowMove col 0) s = .next t ∧
      (v = 2 ^ (8 * iw) - 1 → ∀ b, t.byte b = s.byte b) ∧
      (v ≠ 2 ^ (8 * iw) - 1 → g.e1.bound < (g.x1.setWidth 40).toNat + (v + 1) * rowb → only t (fun _ => 0) ∧ ∃ r ∈ t.recs, r.code = 0x4B ∧ r.det = BitVec.ofNat 64 p) ∧
      (v ≠ 2 ^ (8 * iw) - 1 → (g.x1.setWidth 40).toNat + (v + 1) * rowb ≤ g.e1.bound → table (v + 1) ≤ spadEnd s g.cell →
        (∀ q, q < p → g.idx[q]? ≠ some v) → only t (fun k => s.byte (table v + k))) ∧
      (∀ q, v ≠ 2 ^ (8 * iw) - 1 → (g.x1.setWidth 40).toNat + (v + 1) * rowb ≤ g.e1.bound → q < p → g.idx[q]? = some v → (∀ r, r < q → g.idx[r]? ≠ some v) →
        only t (fun k => s.byte (dst q + k))) ∧
      (p + 1 < count → ∃ h, (t.col col).gathers = [h] ∧ h.moved = (p + 1) * rowb) ∧ (p + 1 = count → (t.col col).gathers = []))) ∧
  ((∀ (s : State) (n k : Nat) (f : Frame) (u : Due), s.frames[n]? = some f → (∀ x ∈ s.frames.take n, x.stream ≠ f.stream) → f.dst = some u → u.dst = ⟨.g, k⟩ → k ≠ 0 →
    s.plc f.c = f.plc →
    ∃ t, exec (.frameOffer n) s = .next t ∧ t.frames = takeOut n s.frames ∧ (∀ b, t.byte b = s.byte b) ∧
      ((streamWord s f.stream 0).getLsbD 0 = false ∨ (streamWord s f.stream 0).extractLsb' 1 6 ≠ f.part →
        (t.ctx f.c).arch.gr k = Reg.of 2 ∧ t.streams = s.streams) ∧
      (streamOk (streamWords s f.stream) = true → (streamWord s f.stream 0).extractLsb' 1 6 = f.part →
        let depth := ((streamWord s f.stream 0).extractLsb' 14 4).toNat; let q := Tab.get s.streams f.stream []
        (depth ≤ q.length → (t.ctx f.c).arch.gr k = Reg.of 1 ∧ t.streams = s.streams) ∧
        (q.length < depth → (t.ctx f.c).arch.gr k = Reg.of 0 ∧ Tab.get t.streams f.stream [] = q ++ [f]))) ∧
  (∀ (s : State) (enc st : Nat) (f : Frame) (q : List Frame), Tab.get? s.encs enc = none → (st, f :: q) ∈ s.streams → boundTo s st = enc →
    s.streams.Pairwise (fun a b => a.1 < b.1) →
    (∀ st' f' q', (st', f' :: q') ∈ s.streams → boundTo s st' = enc → f.pts.toNat < f'.pts.toNat ∨ (f.pts = f'.pts ∧ st ≤ st')) →
    ∃ t x, exec (.encoderFrameStart enc) s = .next t ∧ Tab.get? t.encs enc = some x ∧ x.frame = f ∧ x.tstart = s.tsc ∧ x.read = false ∧
      Tab.get t.streams st [] = q) ∧
  (∀ (s : State) (enc a : Nat) (r : Word) (x : Enc), Tab.get? s.encs enc = some x → x.frame.bar = some (a, r) →
    (x.read = true → exec (.encoderFrameReadDone enc) s = .next s) ∧
    (x.read = false → (∃ b ∈ framePlaces s x.frame, encHeld s enc x.frame.part b = true) →
      ∃ t, exec (.encoderFrameReadDone enc) s = .next t ∧ t.encs = s.encs ∧ t.credits = s.credits) ∧
    (x.read = false → (∀ b ∈ framePlaces s x.frame, encHeld s enc x.frame.part b = false) → ∃ t y, exec (.encoderFrameReadDone enc) s = .next t ∧ Tab.get? t.encs enc = some y ∧ y.read = true ∧ (x.frame.va = none → y.failed = true) ∧
      ∃ c, t.credits = s.credits ++ [c] ∧ c.addr = a ∧ c.arrive = true)) ∧
  (∀ (s : State) (enc : Nat) (x : Enc), Tab.get? s.encs enc = some x →
    (x.read = false → exec (.encoderRecordWrite enc) s = .next s) ∧
    (∀ e tail head, x.read = true → let ref := streamWord s x.frame.stream 3; let size := ((streamWord s x.frame.stream 4).setWidth 32).toNat - 64
      partEntry s x.frame.part ref = some e → partWord s x.frame.part ((e.w0.extractLsb' 0 57).toNat + (ref.setWidth 40).toNat) = some tail →
      partWord s x.frame.part ((e.w0.extractLsb' 0 57).toNat + (ref.setWidth 40).toNat + 8) = some head →
      (size < (tail - head).toNat + 32 → NoRings s → ∃ t, exec (.encoderRecordWrite enc) s = .next t ∧ t.frameCount = s.frameCount ∧ (∀ b, t.byte b = s.byte b) ∧
        Tab.get? t.encs enc = some { x with tend := some (x.tend.getD s.tsc) }) ∧
      (x.failed = true → (tail - head).toNat + 32 ≤ size → ∃ t, exec (.encoderRecordWrite enc) s = .next t ∧ Tab.get? t.encs enc = none ∧
        Tab.get t.frameCount x.frame.stream 0 = Tab.get s.frameCount x.frame.stream 0 + 1 ∧ ∃ r ∈ t.recs, r.code = 0x4C))))

namespace Sys2Proof.Spec

/-- No strand, live or saved, satisfies a test. -/
def NoStrand (s : State) (p : Strand → Prop) : Prop :=
  ∀ c, (∀ u, (s.ctx c).strand = some u → ¬ p u) ∧ ∀ v, (s.ctx c).save = some v → ¬ p v.strand

/-- A destination awaits the scheduler's answer. -/
def AwaitsScheduler (i : Instr) (s t : State) (d : BitVec 6) (v : Option Word) (lvl : Lvl) (obj : Word) : Prop :=
  (me t).pc = (me s).pc + BitVec.ofNat 64 i.len ∧ (d ≠ 0 → ((me t).rmeta (gd d)).fe = .empty) ∧ RegsBut (me s) (me t) (gd d) ∧
    ∃ a, t.answers = s.answers ++ [a] ∧ a.c = s.cur ∧ a.plc = s.plc s.cur ∧ a.dst = gd d ∧ a.val = v ∧ a.lvl = lvl ∧ a.obj = obj

end Sys2Proof.Spec

/-- R276 to R279, R391, R411, R432: NSIGNAL releases and leaves with a point. STRDONE waits for the strand's engine work; then its context is free, its making
entries are handed over and its launch counts one strand less. CANCEL and CNTQ leave d to the scheduler's answer; a CANCEL of another object is answered 2 unless
it names a job, 1 for a job that has ended, and otherwise stops every strand of the job, which ends; a CANCEL of the own strand frees the context. An answer
fills d with its value, or, of a CNTQ, with the object's counter at that moment: that it counts then, and what STRDONE waits for beyond R278's words, are the model's readings
(logs 39 and 44). -/
def Obligations.SchedulingInstructions : Prop :=
  (∀ (s : State) (a : BitVec 6) (w : Bool) (u : Strand), let i := Instr.nsignal a w; MayIssue i s → Readable (me s) [srcG a w 0] → Settled s → CachesEmpty s →
    NoneEmpty (me s) → (s.ctx s.cur).writing = none → (s.ctx s.cur).strand = some u →
    ∃ t, exec i s = .next t ∧ Passed i s t ∧ (∀ b, t.byte b = s.byte b) ∧ CommittedTo s t (.nsignal u.job u.graph ((gv (me s) a).setWidth 16).toNat)) ∧
  (∀ (s : State) (u : Strand), MayIssue .strdone s → Settled s → CachesEmpty s → (s.ctx s.cur).strand = some u →
    (strandBusy s s.cur u.plc = true → exec .strdone s = .next s) ∧
    (strandBusy s s.cur u.plc = false → (s.ctx s.cur).run = .running → (∀ d ∈ s.deliveries, d.req.c ≠ s.cur) →
      ∃ t, exec .strdone s = .next t ∧ (t.ctx s.cur).strand = none ∧ (t.ctx s.cur).run = .free ∧ (NoRings s → ∀ b, t.byte b = s.byte b) ∧
        ((∀ e ∈ s.claims, e.waiters = []) → ∀ e ∈ t.claims, ¬(e.done = false ∧ e.maker = s.cur ∧ e.makerPlc = u.plc)) ∧
        ∀ x, findNode s ⟨u.job, u.graph, u.node⟩ = some x → ∃ y, findNode t ⟨u.job, u.graph, u.node⟩ = some y ∧ y.left = x.left - 1)) ∧
  (∀ (s : State) (d x : BitVec 6) (w : Bool) (lvl : Lvl) (u : Strand), let i := Instr.cancel d x w lvl; let a := gv (me s) x
    MayIssue i s → Writable (me s) (gd d) → Readable (me s) [srcG x w 0] → (s.ctx s.cur).strand = some u →
    (a ≠ 0 → lvl ≠ .job → ∃ t, exec i s = .next t ∧ AwaitsScheduler i s t d (some 2) lvl a ∧ ∀ c, c ≠ s.cur → t.ctx c = s.ctx c) ∧
    (a ≠ 0 → lvl = .job → (∀ j ∈ s.jobs, ¬(j.part = u.part ∧ j.jid.toNat = a.toNat)) → (s.part u.part.toNat).queue = [] →
      ∃ t, exec i s = .next t ∧ AwaitsScheduler i s t d (some 2) lvl a) ∧
    (∀ j, a ≠ 0 → lvl = .job → s.jobs = [j] → j.part = u.part → j.jid.toNat = a.toNat →
      (j.done = true → ∃ t, exec i s = .next t ∧ AwaitsScheduler i s t d (some 1) lvl a) ∧
      (j.done = false → u.job ≠ j.id → s.ctxs.Pairwise (fun p q => p.1 < q.1) →
        (∀ c v y, (s.ctx c).strand = some y → (s.ctx c).save = some v → y.plc ≠ v.strand.plc) → ∃ t, exec i s = .next t ∧ AwaitsScheduler i s t d (some 0) lvl a ∧
        NoStrand t (fun v => v.job = j.id) ∧ ∃ k, findJob t j.id = some k ∧ k.done = true)) ∧
    (a = 0 → lvl = .strand → (s.ctx s.cur).run = .running → ∃ t, exec i s = .next t ∧ (t.ctx s.cur).strand = none ∧ (t.ctx s.cur).run = .free)) ∧
  (∀ (s : State) (d x : BitVec 6) (w : Bool) (lvl : Lvl), let i := Instr.cntq d x w lvl
    MayIssue i s → Writable (me s) (gd d) → Readable (me s) [srcG x w 0] →
    ∃ t, exec i s = .next t ∧ AwaitsScheduler i s t d none lvl (gv (me s) x) ∧ t = { s with ctxs := t.ctxs, answers := t.answers } ∧
      ∀ c, c ≠ s.cur → t.ctx c = s.ctx c) ∧
  (∀ (s : State) (n k : Nat) (a : Answer), s.answers[n]? = some a → s.plc a.c = a.plc → a.dst = ⟨.g, k⟩ → k ≠ 0 →
    ∃ t, exec (.schedulerAnswer n) s = .next t ∧ t = { s with ctxs := t.ctxs, answers := takeOut n s.answers } ∧
      (∀ v, a.val = some v → (t.ctx a.c).arch.gr k = Reg.of v) ∧
      (a.val = none → a.obj ≠ 0 → a.lvl ≠ .job → (t.ctx a.c).arch.gr k = Reg.of (BitVec.allOnes 64)) ∧
      (∀ y, a.val = none → a.obj = 0 → a.lvl = .launch → findNode s ⟨a.strand.job, a.strand.graph, a.strand.node⟩ = some y →
        (t.ctx a.c).arch.gr k = Reg.of (BitVec.ofNat 64 y.left)) ∧
      (∀ g, a.val = none → a.obj = 0 → a.lvl = .graph → findGraph s a.strand.job a.strand.graph = some g →
        (t.ctx a.c).arch.gr k = Reg.of (BitVec.ofNat 64 (g.nodes.countP fun y => y.st != .complete && y.st != .skipped))) ∧
      (∀ j, a.val = none → a.obj = 0 → a.lvl = .phase → findJob s a.strand.job = some j →
        (t.ctx a.c).arch.gr k = Reg.of (BitVec.ofNat 64 (j.graphs.countP fun g => !g.done)))) ∧
  (∀ (s : State) (n j g m c : Nat) (x : Node), s.nsignals[n]? = some (j, g, m, c) → (∀ p ∈ s.nsignals.take n, ¬(p.1 = j ∧ p.2.1 = g)) → findNode s ⟨j, g, m⟩ = some x →
    ∃ t, exec (.nsignalArrival n) s = .next t ∧ t.nsignals = takeOut n s.nsignals ∧
      (x.st = .waiting ∨ x.st = .held → 0 < x.sig → findNode t ⟨j, g, m⟩ = some { x with sig := x.sig - 1 } ∧ t.recs = s.recs) ∧
      (x.sig = 0 ∨ x.st = .running ∨ x.st = .complete ∨ x.st = .skipped → findNode t ⟨j, g, m⟩ = some x ∧ ∃ r ∈ t.recs, r.code = 0x4A ∧ r.obj = x.va))

namespace Sys2Proof.Spec

/-- A field of a descriptor word. -/
def part_ (w : List Word) (i lo n : Nat) : Nat := ((w.getD i 0).extractLsb' lo n).toNat
/-- Slots of a reserved context of a contract's mode (R428). -/
def cost (mode : Nat) : Nat := 2 ^ mode
/-- No error queue has a ring in memory, and the shared cache lists no line: what the scheduler reads is what lies in memory. -/
def Quiet (s : State) : Prop := NoRings s ∧ s.l2 = [] ∧ s.badL2 = []
/-- Words 0 to 2 of a node with `sets` successor sets, of a graph of `nn` nodes (R415). -/
def NodeHead (w : List Word) (sets nn : Nat) (succ : List Nat) : Prop :=
  part_ w 0 48 16 = 0 ∧ part_ w 1 0 32 + part_ w 1 32 16 ≤ succ.length ∧ part_ w 1 48 16 = 0 ∧
    ((List.range sets).map fun i => part_ w 2 (8 * i) 8).sum = part_ w 1 32 16 ∧ part_ w 2 (8 * sets) 64 = 0 ∧
    ∀ i ∈ (succ.drop (part_ w 1 0 32)).take (part_ w 1 32 16), i < nn
/-- Words 3 to 15 of a launch node (R415). -/
def LaunchWords (w : List Word) : Prop :=
  part_ w 3 0 1 = 0 ∧ part_ w 3 57 7 = 0 ∧ 1 ≤ part_ w 4 0 16 ∧ 1 ≤ part_ w 4 16 16 ∧ 1 ≤ part_ w 4 32 16 ∧ part_ w 4 52 12 = 0 ∧ part_ w 9 40 24 = 0 ∧
    part_ w 11 10 6 = 0 ∧ part_ w 11 26 38 = 0 ∧ part_ w 13 0 1 = 0 ∧ part_ w 13 57 7 = 0 ∧ ∀ i, 14 ≤ i → w.getD i 0 = 0
/-- A work job's descriptor as R413 lays it out. -/
def WorkJob (w : List Word) : Prop :=
  w.length = 8 ∧ (w.getD 0 0).setWidth 16 = 0 ∧ part_ w 0 48 16 = 0 ∧ part_ w 1 57 7 = 0 ∧ part_ w 1 0 4 = 0 ∧ 1 ≤ part_ w 2 0 16 ∧ part_ w 2 16 48 = 0 ∧
    part_ w 3 57 7 = 0 ∧ part_ w 3 0 3 = 0 ∧ w.getD 4 0 = 0 ∧ w.getD 5 0 = 0 ∧ w.getD 6 0 = 0 ∧ w.getD 7 0 = 0
/-- A contract job's descriptor as R413 lays it out. -/
def ContractJob (w : List Word) : Prop :=
  w.length = 8 ∧ (w.getD 0 0).setWidth 16 = 1 ∧ part_ w 0 48 16 = 0 ∧ w.getD 1 0 = 0 ∧ w.getD 2 0 = 0 ∧ part_ w 3 57 7 = 0 ∧ part_ w 3 0 3 = 0 ∧
    part_ w 4 57 7 = 0 ∧ part_ w 4 0 7 = 0 ∧ w.getD 5 0 = 0 ∧ w.getD 6 0 = 0 ∧ w.getD 7 0 = 0
/-- A contract descriptor's fields within their limits and its reserved fields zero (R427, R428 check 1). -/
def ContractFields (v : List Word) : Prop :=
  part_ v 0 3 61 = 0 ∧ part_ v 0 1 2 ≠ 3 ∧ part_ v 1 40 24 = 0 ∧ part_ v 2 40 24 = 0 ∧ part_ v 3 40 24 = 0 ∧ part_ v 5 57 7 = 0 ∧ part_ v 6 14 50 = 0 ∧ v.getD 7 0 = 0 ∧
    10000 ≤ part_ v 1 0 40 ∧ part_ v 1 0 40 ≤ 1000000000 ∧ 1 ≤ part_ v 2 0 40
/-- The numbers of a contract (R428 check 2). -/
def ContractTimes (v : List Word) : Prop := part_ v 2 0 40 + 4000 ≤ part_ v 3 0 40 ∧ part_ v 3 0 40 ≤ part_ v 1 0 40

end Sys2Proof.Spec

/-- R413, R414, R416 to R421, R427, R428, R453: submissions, jobs, phases and nodes. A partition's queue takes up to 64 addresses, and JCLR clears its overflow; the
oldest is taken as a job with the fields of its descriptor; a live job of the same identifier ends the new one; a contract is admitted when its fields, times and
every column's slots allow it. A phase starts its graphs; a ready conditional decides by its word, a ready launch counts its strands; a node that is done completes. -/
def Obligations.JobsAndNodes : Prop :=
  (∀ (s : State) (part : BitVec 6) (v : Word), let p := s.part part.toNat
    (p.queue.length < 64 → v.setWidth 6 = 0#6 → ∃ t, exec (.jobSubmission part v) s = .next t ∧
      (t.part part.toNat).queue = p.queue ++ [v &&& 0x01FFFFFFFFFFFFFF] ∧ (t.part part.toNat).acc = p.acc + 1 ∧ (t.part part.toNat).ovf = p.ovf) ∧
    ((64 ≤ p.queue.length ∨ v.setWidth 6 ≠ 0#6) → ∃ t, exec (.jobSubmission part v) s = .next t ∧
      (t.part part.toNat).queue = p.queue ∧ (t.part part.toNat).acc = p.acc ∧ (t.part part.toNat).ovf = true ∧ ∃ r ∈ t.recs, r.code = 0x57 ∧ r.det = v) ∧
    (∃ t, exec (.jclr part v) s = .next t ∧ (t.part part.toNat) = { p with ovf := if v.getLsbD 7 then false else p.ovf })) ∧
  (∀ (s : State) (part : BitVec 6) (va : Word) (q w : List Word), (s.part part.toNat).queue = va :: q →
    partWords { s with parts := Tab.put s.parts part.toNat { s.part part.toNat with queue := q } } part va.toNat 8 = some w → WorkJob w →
    (∀ j ∈ s.jobs, j.done = false → j.part = part → j.jid.toNat ≠ part_ w 0 16 32) → Quiet s →
    ∃ t x, exec (.jobStart part) s = .next t ∧ (t.part part.toNat).queue = q ∧ t.jobs = s.jobs ++ [x] ∧ x.part = part ∧ x.va = va ∧ x.jid.toNat = part_ w 0 16 32 ∧
      x.ptab.toNat = part_ w 1 0 57 ∧ x.nph = part_ w 2 0 16 ∧ x.cword.toNat = part_ w 3 0 57 ∧ x.phase = 0 ∧ x.done = false ∧ x.contract = none) ∧
  (∀ (s : State) (part : BitVec 6) (va : Word) (q w : List Word), (s.part part.toNat).queue = va :: q →
    partWords { s with parts := Tab.put s.parts part.toNat { s.part part.toNat with queue := q } } part va.toNat 8 = some w → WorkJob w →
    (∃ j ∈ s.jobs, j.done = false ∧ j.part = part ∧ j.jid.toNat = part_ w 0 16 32) → (∀ j ∈ s.jobs, j.id < s.jobSeq) → Quiet s →
    ∃ t x, exec (.jobStart part) s = .next t ∧ t.jobs = s.jobs ++ [x] ∧ x.done = true ∧ x.nph = 0 ∧ ∃ r ∈ t.recs, r.code = 0x4A ∧ r.obj = va) ∧
  (∀ (s : State) (part : BitVec 6) (va : Word) (q w v : List Word), (s.part part.toNat).queue = va :: q →
    let u : State := { s with parts := Tab.put s.parts part.toNat { s.part part.toNat with queue := q } }
    partWords u part va.toNat 8 = some w → ContractJob w → partWords u part (part_ w 4 0 57) 16 = some v → (∀ j ∈ s.jobs, j.id < s.jobSeq) →
    (∀ j ∈ s.jobs, j.done = false → j.part = part → j.jid.toNat ≠ part_ w 0 16 32) → Quiet s →
    let fits (c : Nat) : Prop := reserved s c + part_ v (8 + c / 8) (8 * (c % 8)) 8 * cost (part_ v 0 1 2) ≤ 224
    ∃ t x, exec (.jobStart part) s = .next t ∧ t.jobs = s.jobs ++ [x] ∧
      (ContractFields v ∧ ContractTimes v ∧ (∀ c, c < 64 → fits c) → x.done = false ∧ ∃ k, x.contract = some k ∧ k.period = part_ v 1 0 40 ∧ k.budget = part_ v 2 0 40 ∧
        k.deadline = part_ v 3 0 40 ∧ k.first = v.getD 4 0 ∧ k.release = 0) ∧
      (¬(ContractFields v ∧ ContractTimes v ∧ (∀ c, c < 64 → fits c)) → x.done = true ∧ x.contract = none)) ∧
  (∀ (s : State) (x : Job) (w : List Word), s.jobs = [x] → x.done = false → x.contract = none → x.phase < x.nph → (∀ g ∈ x.graphs, g.done = true) → jobEngines s x.id = false →
    partWords s x.part (x.ptab.toNat + 16 * x.phase) 2 = some w → Quiet s →
    ∃ t y, exec (.phaseStart x.id) s = .next t ∧ findJob t x.id = some y ∧
      (part_ w 1 0 16 = 0 → y.done = true) ∧ (part_ w 1 0 16 ≠ 0 → y.phase = x.phase + 1 ∧ y.graphs.length = part_ w 1 0 16)) ∧
  (∀ (s : State) (x : Job) (g : Graph) (n : Node) (w : List Word) (v : Word), s.jobs = [x] → x.done = false → x.graphs = [g] → g.done = false → g.nodes = [n] →
    n.st = .waiting → n.pred = 0 → n.sig = 0 → partWords s x.part n.va.toNat 16 = some w → (w.getD 0 0).setWidth 16 = 0x0205 → NodeHead w 2 1 g.succ → Quiet s →
    part_ w 3 57 7 = 0 → part_ w 3 0 3 = 0 → (∀ i, 4 ≤ i → w.getD i 0 = 0) → partWord s x.part (part_ w 3 0 57) = some v →
    ∃ t m, exec (.nodeReady x.id 0 0) s = .next t ∧ findNode t ⟨x.id, 0, 0⟩ = some m ∧ m.st = .running ∧ m.decided = true ∧ m.taken = some (if v = 0 then 1 else 0)) ∧
  (∀ (s : State) (x : Job) (g : Graph) (n : Node) (w : List Word), s.jobs = [x] → x.done = false → x.graphs = [g] → g.done = false → g.nodes = [n] →
    n.st = .waiting → n.pred = 0 → n.sig = 0 → partWords s x.part n.va.toNat 16 = some w → (w.getD 0 0).setWidth 16 = 0x0101 → NodeHead w 1 1 g.succ → LaunchWords w →
    Quiet s →
    ∃ t m, exec (.nodeReady x.id 0 0) s = .next t ∧ findNode t ⟨x.id, 0, 0⟩ = some m ∧ m.st = .ready ∧ m.ready = s.tsc.toNat ∧ m.next = 0 ∧
      m.total = part_ w 4 0 16 * part_ w 4 16 16 * part_ w 4 32 16 ∧ m.left = m.total) ∧
  (∀ (s : State) (x : Job) (g : Graph) (n m : Node), s.jobs = [x] → x.done = false → x.graphs = [g] → g.done = false → g.nodes = [n, m] → n.kind = 1 → n.st = .running →
    n.next = n.total → n.left = 0 → n.decided = false → n.sets = [[1]] → m.st = .waiting → 1 ≤ m.pred → m.kind ≠ 6 → m.sets = [] →
    ∃ t, exec (.nodeComplete x.id 0 0) s = .next t ∧ findNode t ⟨x.id, 0, 1⟩ = some { m with pred := m.pred - 1, ran := true } ∧
      ∃ y, findNode t ⟨x.id, 0, 0⟩ = some y ∧ y.st = .complete)

namespace Sys2Proof.Spec

/-- A launch node's word field. -/
def launchField (n : Node) (i lo k : Nat) : Nat := part_ n.words i lo k
/-- The registers of a strand's start that a launch's descriptor gives (R17, R423). -/
def StartsAs (a : Arch) (n : Node) (rank : Nat) (part : BitVec 6) (note : Nat) : Prop :=
  let xe := launchField n 4 0 16; let ye := launchField n 4 16 16
  a.pc.toNat = launchField n 3 0 57 ∧ a.pl = 0 ∧ a.ie = true ∧ a.tn = false ∧ a.flg = 0 ∧ a.en = 0 ∧ fld a.status 2 2 = launchField n 4 50 2 ∧ a.view = 0 ∧
    a.param = n.words.getD 5 0 ∧ a.htbase = n.words.getD 6 0 ∧ a.space = n.words.getD 7 0 ∧ a.shadowiv = n.words.getD 12 0 ∧ a.partition = part.toNat ∧
    a.sup = ⟨n.words.getD 13 0, 0, 0, 0⟩ ∧ [a.cpsrc, a.cpdst, a.cpshape, a.cpstr0, a.cpstr1, a.cpbar, a.cpfollow, a.slotinit] = List.replicate 8 0 ∧
    (a.gr 30).val = (n.words.getD 8 0).extractLsb' 40 24 ++ ((n.words.getD 8 0).extractLsb' 0 40 + BitVec.ofNat 40 (rank * launchField n 9 0 40)) ∧
    (a.gr 31).val = n.words.getD 10 0 ∧ (∀ r, (a.rmeta r) = fullMeta .top) ∧ (∀ r, r ≠ ⟨.g, 30⟩ → r ≠ ⟨.g, 31⟩ → a.regVal r = match r.file with | .v => .v 0 | .k => .k [] | _ => .w 0) ∧
    fld a.lninfo 0 48 = fld (n.words.getD 4 0) 0 48 ∧ fld a.lninfo 49 2 = note ∧
    fld a.ggr 0 16 = rank % xe ∧ fld a.ggr 16 16 = rank / xe % ye ∧ (rank < xe * ye * 65536 → fld a.ggr 32 16 = rank / (xe * ye)) ∧ a.loops = []

/-- A record of the scheduler. -/
def SchedRecord (t : State) (code : BitVec 8) (obj det : Word) : Prop := ∃ r ∈ t.recs, r.code = code ∧ r.obj = obj ∧ r.det = det

end Sys2Proof.Spec

/-- R412, R422, R423, R426, R429 to R431, R433, R434: placing strands and taking contexts. A placement goes to a free context of the launch's range, partition and mode, on
a column below its threshold unless the launch is top; it takes the next placement number and starts with the registers of R423. A release of a contract starts its
graph, or is skipped with a record while the last one runs, a miss that is due by then being reported first; a miss is recorded and the notify context is interrupted; an overrun is recorded once and demotes when ovr is 1; a
stall is recorded once. A pre-empted strand is in the save area with its registers, and a restore puts it back as it was. -/
def Obligations.Placement : Prop :=
  (∀ (s : State) (c : Nat) (l : Ready), nextPlace s = some (c, l) →
    (let col := s.col (c / 256); let cell := s.cell (c / 16)
      (s.ctx c).run = .free ∧ (s.ctx c).strand = none ∧ launchField l.node 11 0 10 ≤ c / 16 ∧ c / 16 ≤ launchField l.node 11 16 10 ∧ cell.part = l.job.part ∧
      c % 16 < cell.mode.contexts ∧ col.cellPower = true ∧ (col.level = 0 ∧ col.hot = false ∨ (if l.job.contract = none then launchField l.node 0 5 2 else 2) = 2) ∧
      (l.job.contract = none → launchField l.node 4 48 2 = 0 ∨ cell.mode = [CtxMode.m16, .m16, .m8, .m4].getD (launchField l.node 4 48 2) .m16)) ∧
    (∀ d, d ≠ c → exec (.strandPlacement d) s = .next s) ∧
    (∀ n, findNode s l.ref = some n → (s.cell (c / 16)).l1 = [] → let note := if l.job.contract = none then launchField n 0 5 2 else 2
      ∃ t u, exec (.strandPlacement c) s = .next t ∧ (t.ctx c).run = .running ∧ (t.ctx c).strand = some u ∧ u.plc = s.placements + 1 ∧ t.placements = s.placements + 1 ∧
        u.job = l.ref.job ∧ u.graph = l.ref.graph ∧ u.node = l.ref.node ∧ u.rank = n.next ∧ u.note.toNat = note % 4 ∧ u.part = l.job.part ∧
        (1 ≤ launchField n 4 0 16 → 1 ≤ launchField n 4 16 16 → StartsAs (t.ctx c).arch n n.next l.job.part note) ∧ (t.ctx c).arch.mon = (s.ctx c).arch.mon ∧ (t.ctx c).pend = [] ∧
        (∀ d, d ≠ c → t.ctx d = s.ctx d) ∧ (∀ b, t.byte b = s.byte b) ∧ ∃ m, findNode t l.ref = some m ∧ m.next = n.next + 1)) ∧
  (∀ (s : State) (job g n : Nat) (l : Ready), (readyLaunches s).find? (fun l => l.ref == ⟨job, g, n⟩) = some l → findNode s l.ref ≠ none → s.dispatch = true →
    l.cores = true → (l.node.total ≤ (coresPlaces s l).length → ∃ t, exec (.coResidentPlacement job g n) s = .next t ∧
      t.placements = s.placements + BitVec.ofNat 64 l.node.total) ∧
    ((coresPlaces s l).length < l.node.total → exec (.coResidentPlacement job g n) s = .next s)) ∧
  (∀ (s : State) (x : Job) (k : Contract), s.jobs = [x] → x.done = false → x.contract = some k → let due := k.first.toNat + k.release * k.period ≤ s.tsc.toNat
    (¬ due → exec (.contractRelease x.id) s = .next s) ∧
    (due → (∀ g ∈ x.graphs, g.done = true) → ∃ t y, exec (.contractRelease x.id) s = .next t ∧ findJob t x.id = some y ∧ y.graphs.length = 1 ∧
      y.contract = some { k with release := k.release + 1, running := some k.release }) ∧
    (due → (∃ g ∈ x.graphs, g.done = false) → (k.running = none ∨ k.running = k.missed) → ∃ t y, exec (.contractRelease x.id) s = .next t ∧ findJob t x.id = some y ∧
      y.graphs = x.graphs ∧ y.contract = some { k with release := k.release + 1 } ∧ SchedRecord t 0x48 (BitVec.ofNat 64 x.jid.toNat) (BitVec.ofNat 64 k.release)) ∧
    (∀ n, k.running = some n → let late := k.first.toNat + n * k.period + k.deadline ≤ s.tsc.toNat
      (due → late → (∃ g ∈ x.graphs, g.done = false) → k.missed ≠ some n → ∃ t, exec (.contractRelease x.id) s = .next t ∧ exec (.deadlineMiss x.id) s = .next t) ∧
      (late → (∃ g ∈ x.graphs, g.done = false) → k.missed ≠ some n → ∃ t y, exec (.deadlineMiss x.id) s = .next t ∧ findJob t x.id = some y ∧
        y.contract = some { k with misses := k.misses + 1, missed := some n } ∧ SchedRecord t 0x48 (BitVec.ofNat 64 x.jid.toNat) (BitVec.ofNat 64 n) ∧
        ((s.ctx k.notify.toNat).strand ≠ none → (t.ctx k.notify.toNat).dlIrq = some (BitVec.ofNat 32 n ++ x.jid))) ∧
      (¬ late ∨ k.missed = some n ∨ (∀ g ∈ x.graphs, g.done = true) → exec (.deadlineMiss x.id) s = .next s)) ∧
    (∀ c u, (s.ctx c).strand = some u → u.job = x.id → (s.ctx c).run = .running → let used := u.used + (s.tsc.toNat - u.since)
      (u.overrun = true ∨ used ≤ k.budget → exec (.budgetOverrun c) s = .next s) ∧
      (u.overrun = false → k.budget < used → ∃ t v, exec (.budgetOverrun c) s = .next t ∧ (t.ctx c).strand = some v ∧ v = { u with overrun := true, note := v.note } ∧
        v.note = (if k.ovr then 1 else u.note) ∧ (t.ctx c).run = .running ∧ ∃ r ∈ t.recs, r.code = 0x49 ∧ r.obj = BitVec.ofNat 64 x.jid.toNat))) ∧
  (∀ (s : State) (job g n : Nat) (l : Ready), (readyLaunches s).find? (fun l => l.ref == ⟨job, g, n⟩) = some l →
    (stallDue s l = true → ∃ t, exec (.dispatchStall job g n) s = .next t ∧ SchedRecord t 0x47 l.node.va 0) ∧
    (stallDue s l = false → exec (.dispatchStall job g n) s = .next s)) ∧
  (∀ (s : State) (c : Nat) (u : Strand), let x := s.ctx c
    (preemptible s ≠ some c → exec (.preEmption c) s = .next s) ∧
    (preemptible s = some c → maySave s c = true → x.strand = some u → x.run = .running → x.pend = [] → x.wcb = [] → x.hold = none → x.committed = [] →
      (∀ y ∈ s.stores, y.c ≠ c) → (∀ y ∈ s.passes, y.c ≠ c) → ∃ t v, exec (.preEmption c) s = .next t ∧ (t.ctx c).save = some v ∧ (t.ctx c).strand = none ∧ (t.ctx c).run = .free ∧
        v.arch = x.arch ∧ v.strand = { u with used := u.used + (s.tsc.toNat - u.since) } ∧ v.resv = x.resv ∧ v.deferred = x.deferred ∧ ∀ b, t.byte b = s.byte b)) ∧
  (∀ (s : State) (c : Nat) (v : Saved), (s.ctx c).save = some v →
    (mayRestore s c = false → exec (.restore c) s = .next s) ∧
    (mayRestore s c = true → ∃ t, exec (.restore c) s = .next t ∧ (t.ctx c).arch = v.arch ∧ (t.ctx c).strand = some { v.strand with since := s.tsc.toNat } ∧
      (t.ctx c).run = .running ∧ (t.ctx c).pend = v.pend ∧ (t.ctx c).resv = v.resv ∧ (t.ctx c).deferred = v.deferred ∧ (t.ctx c).save = none ∧
      (v.start = false ∨ (s.cell (c / 16)).l1 = [] → ∀ d, d ≠ c → t.ctx d = s.ctx d)))

namespace Sys2Proof.Spec

/-- Some record of this code and object has been made. -/
def Recorded (t : State) (code : BitVec 8) (obj : Word) : Prop := ∃ r ∈ t.recs, r.code = code ∧ r.obj = obj

/-- What a column that lost its power has left (R376, R382, R384): no context of it issues or waits, every strand keeps its placement number, caches and
counters are empty, the shadow copies are as they were, no request of its contexts is anywhere, and global memory is unchanged. -/
def Lost (s t : State) (col : Nat) : Prop :=
  (t.col col).cellPower = false ∧ (t.col col).reported = false ∧ Recorded t 0x4E (BitVec.ofNat 64 col) ∧
  (∀ c, c / 256 = col → let x := t.ctx c
    x.run ≠ .running ∧ x.strand.map (·.plc) = (s.ctx c).strand.map (·.plc) ∧ x.pend = [] ∧ x.wcb = [] ∧ x.fbuf = [] ∧ x.resv = [] ∧ x.hold = none) ∧
  (∀ n, n / 16 = col → let k := t.cell n
    k.l1 = [] ∧ k.icache = [] ∧ k.hcache = [] ∧ k.tlb = [] ∧ k.pcache = [] ∧ k.routes = [] ∧ k.slots = [] ∧ k.matrix = [] ∧
      k.shadowX = (s.cell n).shadowX ∧ k.shadowY = (s.cell n).shadowY) ∧
  (∀ r ∈ t.reqs ++ t.refused ++ t.kept, r.c / 256 ≠ col) ∧
  (∀ a, ∀ r ∈ (t.home a).readers ++ (t.home a).writers ++ (t.home a).queue ++ (t.home a).holder.toList, r.c / 256 ≠ col) ∧
  (∀ a, a / 0x1000000 = col → t.home (Config.spadBase + a) = Home.none) ∧
  (∀ c v, c / 256 = col → v ∈ (s.ctx c).served → ∃ r ∈ t.recs, r.code = 0x54 ∧ r.obj = v.va ∧ r.det = v.val) ∧
  (NoRings s → ∀ b, t.byte b = s.byte b)

/-- Of two images in the slots of context `c`, the valid one with the greater sequence number (R386). -/
def Chosen (c : Nat) (a b : Option Image) (i : Image) : Prop :=
  i.ok c = true ∧ ((a = some i ∧ ∀ j, b = some j → j.ok c = true → j.seq < i.seq) ∨ (b = some i ∧ ∀ j, a = some j → j.ok c = true → j.seq < i.seq))

/-- The resume interrupt of a strand that resumes after a loss on its own cell (R385, R389). -/
def ResumeIrq (t : State) (c : Nat) : Prop := ∃ v, (t.ctx c).devIrq = some v ∧ v.getLsbD 0 = true ∧ v.getLsbD 1 = false ∧ v.getLsbD 2 = false ∧
  (v.getLsbD 4 = true ↔ (t.cell (c / 16)).restoreErr ≠ []) ∧ v.toNat < 32

/-- The bytes of a scratchpad line are those of a shadow copy. -/
def LineIs (t : State) (n l : Nat) (x : BitVec 512) : Prop := ∀ j, j < 64 → t.byte (Config.spadBase + n * 0x100000 + 64 * l + j) = x.extractLsb' (8 * j) 8

/-- The images and shadow copies of a column are those a run can leave: one entry a context, lines of the
scratchpad only, and empty caches (R376). -/
def KeptWell (s : State) (col : Nat) : Prop :=
  (s.ctxs.map (·.1)).Nodup ∧ (s.images.map (·.1)).Nodup ∧ ∀ n, n / 16 = col → (s.cell n).l1 = [] ∧ ∀ p ∈ (s.cell n).shadowX ++ (s.cell n).shadowY, p.1 < 16384

end Sys2Proof.Spec

/-- R372, R376, R380, R382, R384 to R387, R480, R481: losing power and resuming. A cell loss takes the column's contexts, caches and queued requests, and
passes reservations on; a station loss takes its slices and its Alembic partition too, and the Accord tables stay. The report hands over the claims of
the column's makers. At a resume each context takes the registers of its valid image with the greater sequence number, or those of its start, or is held
halted with a record when no image is valid; scratchpad lines come from the newer shadow copy; the resume interrupt is pending. A request kept for a
column that has not resumed ends in the peer gone fault, and a copy that waits for a cell without power stops with a record. -/
def Obligations.PowerEvents : Prop :=
  (∀ (s : State) (col : Nat), col < 64 →
    ((s.col col).cellPower = false → exec (.cellLoss col) s = .next s) ∧ ((s.col col).stationPower = false → exec (.stationLoss col) s = .next s) ∧
    ((s.col col).cellPower = true → ∃ t, exec (.cellLoss col) s = .next t ∧ Lost s t col ∧ (t.col col).stationPower = (s.col col).stationPower ∧ t.spaces = s.spaces ∧
      (∀ c, c / 256 ≠ col → (t.ctx c).arch = (s.ctx c).arch ∧ (t.ctx c).run = (s.ctx c).run ∧ (t.ctx c).strand = (s.ctx c).strand) ∧
      (∀ a h, a < Config.spadBase → (s.homes.map (·.1)).Nodup → (s.home a).holder = some h → h.c / 256 = col →
        (t.home a).holder = ((s.home a).queue.filter fun r => r.c / 256 != col).head?)) ∧
    ((s.col col).stationPower = true → ∃ t, exec (.stationLoss col) s = .next t ∧ Lost s t col ∧ (t.col col).stationPower = false ∧
      t.station (stationOfCol col) = 2 ∧ (∀ e ∈ t.claims, e.p ≠ col) ∧ (∀ x ∈ t.l2, sliceCol (sliceOf (64 * x.line)) ≠ col) ∧
      (s.nogoods = [] → t.spaces = s.spaces) ∧ ∀ a, a < Config.spadBase → homeCol a = col → t.home a = Home.none)) ∧
  (∀ (s : State) (col : Nat),
    ((s.col col).cellPower = true ∨ (s.col col).reported = true → exec (.lossReport col) s = .next s) ∧
    ((s.col col).cellPower = false → (s.col col).reported = false → ∃ t, exec (.lossReport col) s = .next t ∧ (t.col col).reported = true ∧
      (∀ e ∈ t.claims, (∀ w ∈ e.waiters, w.c / 256 ≠ col) ∧ (e.done = false → e.maker / 256 ≠ col)) ∧ (∀ r ∈ t.claimReqs, r.c / 256 ≠ col) ∧
      ∀ r ∈ s.claimReqs, r.c / 256 = col → r.kind = .abandon → ∃ x ∈ t.recs, x.code = 0x53 ∧ x.det = 3)) ∧
  (∀ (s : State) (col : Nat),
    ((s.col col).cellPower = true ∨ (s.col col).reported = false → exec (.columnResume col) s = .next s) ∧
    ((s.col col).cellPower = false → (s.col col).reported = true → ∃ t, exec (.columnResume col) s = .next t ∧
      (t.col col).cellPower = true ∧ (t.col col).stationPower = true ∧ Recorded t 0x4E (BitVec.ofNat 64 col) ∧
      (KeptWell s col → ∀ c u a b, c / 256 = col → (s.ctx c).strand = some u → (s.ctx c).save = none → Tab.get s.images c (none, none) = (a, b) →
        (∀ i, a = some i ∨ b = some i → i.strand.plc = u.plc) →
        (∀ i, Chosen c a b i → i.copies = [] → (t.ctx c).arch = i.arch ∧ (t.ctx c).run = .running ∧ (t.ctx c).strand = some { u with since := s.tsc.toNat } ∧
          (t.ctx c).pend = [] ∧ (t.ctx c).resv = [] ∧ ResumeIrq t c) ∧
        ((∀ i, a = some i ∨ b = some i → i.ok c = false) → a ≠ none ∨ b ≠ none → (t.ctx c).run = .halted ∧ (t.ctx c).strand = some { u with since := s.tsc.toNat } ∧
          ∃ r ∈ t.recs, r.code = 0x5A ∧ r.obj = BitVec.ofNat 64 (c / 16) ∧ r.det = BitVec.ofNat 64 (c % 16)) ∧
        (∀ x n, a = none → b = none → findJob s u.job = some x → findNode s ⟨u.job, u.graph, u.node⟩ = some n → 1 ≤ launchField n 4 0 16 → 1 ≤ launchField n 4 16 16 →
          StartsAs (t.ctx c).arch n u.rank x.part (if x.contract = none then launchField n 0 5 2 else 2) ∧ (t.ctx c).run = .running ∧
            (t.ctx c).strand = some { u with since := s.tsc.toNat } ∧ ResumeIrq t c)) ∧
      (col < 64 → KeptWell s col → NoRings s → (∀ p ∈ s.images, ∀ i, p.2.1 = some i ∨ p.2.2 = some i → i.copies = []) → ∀ n l, n / 16 = col → l < 16384 →
        (Tab.get? (s.cell n).shadowX l = none → Tab.get? (s.cell n).shadowY l = none → LineIs t n l 0) ∧
        (∀ x, Tab.get? (s.cell n).shadowX l = some x → x.good = true → (∀ y, Tab.get? (s.cell n).shadowY l = some y → newer x.stamp y.stamp = true) → LineIs t n l x.data) ∧
        (∀ y, Tab.get? (s.cell n).shadowY l = some y → y.good = true → (∀ x, Tab.get? (s.cell n).shadowX l = some x → newer x.stamp y.stamp = false ∧ newer y.stamp x.stamp = true) →
          LineIs t n l y.data)))) ∧
  (∀ (s : State) (c : Nat),
    (∀ ref e, (s.ctx c).peerWait = some ref → (s.ctx c).run = .running → handleEntry s c (refIdx ref) = .ok e → (s.col (e.tcell / 16)).cellPower = false →
      exec (.peerAccessTimeout c) s = .next (takeTrap s c ⟨0x12, 0, ref, 0⟩ false (s.ctx c).arch.pc)) ∧
    (∀ x l, (s.ctx c).peerWait = none → (s.ctx c).pend = [] → s.stores = x :: l → x.c = c → Config.spadBase ≤ x.acc.addr → x.acc.addr < Config.spadFeBase →
      (s.col (homeCol x.acc.addr)).cellPower = false → ∃ t, exec (.peerAccessTimeout c) s = .next t ∧ t.stores = l ∧ SameRegs (s.ctx c).arch (t.ctx c).arch ∧
        ∃ r, (t.ctx c).deferred = (s.ctx c).deferred ++ [⟨⟨0x12, 0, x.acc.ref, 0⟩, r, none⟩]) ∧
    (∀ slot p va, (s.ctx c).peerWait = none → (s.ctx c).pend = [] → (∀ x ∈ s.stores, x.c ≠ c) → (∀ r ∈ s.barReqs, r.c ≠ c) → (s.cell (c / 16)).copies = [(slot, p)] → p.c = c →
      (darkCopy s (c / 16) p = some va → ∃ t, exec (.peerAccessTimeout c) s = .next t ∧ ∃ r ∈ t.recs, r.code = 0x4B ∧ r.obj = p.tid ∧ r.det = va) ∧
      (darkCopy s (c / 16) p = none → (∀ g ∈ (s.col (c / 256)).gathers, g.c ≠ c) → exec (.peerAccessTimeout c) s = .next s)) ∧
    ((s.ctx c).peerWait = none → (s.ctx c).pend = [] → (∀ x ∈ s.stores, x.c ≠ c) → (∀ r ∈ s.barReqs, r.c ≠ c) → (∀ p ∈ (s.cell (c / 16)).copies, p.2.c ≠ c) →
      (∀ g ∈ (s.col (c / 256)).gathers, g.c ≠ c) → exec (.peerAccessTimeout c) s = .next s)) ∧
  (∀ (s : State) (cell col : Nat),
    ((s.col col).cellPower = true → exec (.requestAbandonTimeout cell col) s = .next s) ∧
    (∀ r, (s.col col).cellPower = false → s.barReqs = [] → s.kept = [r] → r.c / 16 = cell → Config.spadBase ≤ r.addr → r.addr < Config.spadFeBase → homeCol r.addr = col →
      (∃ u, (s.ctx r.c).strand = some u ∧ u.plc = r.plc) → r.kind = .lds ∨ r.kind = .take ∨ r.kind = .lrw →
      (s.ctx r.c).pend = [.wait .home r.stamp (some r.dst) ⟨(), .full, r.dataLab, 0, 0, false, false⟩] → r.dst.file = .g → r.dst.n < 32 →
      ∃ t, exec (.requestAbandonTimeout cell col) s = .next t ∧ t.kept = [] ∧ (t.ctx r.c).pend = [] ∧ (r.dst.n ≠ 0 → (t.ctx r.c).arch.rmeta r.dst = ⟨(), .full, r.dataLab, 0, 0, false, false⟩) ∧
        (t.ctx r.c).arch.regVal r.dst = (s.ctx r.c).arch.regVal r.dst ∧ (t.ctx r.c).deferred = (s.ctx r.c).deferred ++ [⟨⟨0x12, 0, r.ref, 0⟩, some r.dst, none⟩]))

namespace Sys2Proof.Spec

/-- A vector is raised: a masked one is held pending, another is sent (R454). -/
def Raised (s t : State) (v : Nat) : Prop :=
  let x := Tab.get s.vecs v ⟨false, false, 0⟩
  Tab.get t.vecs v ⟨false, false, 0⟩ = if x.masked then { x with pending := true } else { x with sent := x.sent + 1 }

/-- Firmware is to update the Sillage map, which happens in steps of its own (R449). -/
def MapDue (s t : State) : Prop := t.mapStale = true ∧ t.mapNext = s.mapNext ∧ t.mapSeq = s.mapSeq
/-- An update of the Sillage map is over (R449): vector 2 of every partition is raised, and a SIGNAL with info 0x5A is on its
way to a context of each partition that has one; which context that is, the model leaves free (log 24). -/
def MapShown (s t : State) : Prop :=
  (∀ p, p < 64 → Raised s t (16 * p + 2)) ∧ ∃ l, t.signals = s.signals ++ l ∧
    (∀ r ∈ l, r.info = 0x5A) ∧ (∀ c u, (s.ctx c).strand = some u → ∃ r ∈ l, r.part = u.part) ∧
    ((∀ p ∈ s.ctxs, p.1 < 16384) → (s.ctxs.map (·.1)).Nodup → ∀ r ∈ l, ∃ v, (s.ctx r.tgt.toNat).strand = some v ∧ v.part = r.part)

/-- The deferred faults of a context have one more, of a lost request (R157, R446). -/
def RouteFaultDue (s t : State) (c : Nat) (ref : Word) (d : RegId) : Prop := (t.ctx c).deferred = (s.ctx c).deferred ++ [⟨⟨0x11, 8, ref, 0⟩, some d, none⟩]

end Sys2Proof.Spec

/-- R439, R443, R444, R446, R448 to R452, R454: the fabric's failures and the host's accesses. A loop, station or port that fails is marked and recorded, its change is due in the
map, and a route over it fails check 2 from then on. The map's words change while its sequence number is odd, and the update is then signalled. A peer's answer to a route of more than two ports is a failing check. A load or request lost on a failed loop ends in the route fault with detail 8, a lost store or barrier
update is discarded with a record, and one whose handle entry has another route is sent again. A host write changes the addressed word of device memory and no
other byte. A snoop takes or cleans the L2 copy of the line. Unmasking a vector sends the message it held. The width of host accesses, the
map's two steps, and what is sent again are the model's (logs 64, 66 and 67). -/
def Obligations.LinkEvents : Prop :=
  (∀ (s : State) (st lp : Nat), st ∈ (s.loop lp).order → ∃ t, exec (.bubbleStarvation st lp) s = .next t ∧ t = { s with bubbles := t.bubbles } ∧
    (∀ x ∈ (s.loop lp).order, x ≠ st → Tab.get t.bubbles (76 * lp + x) 0 = 1) ∧ Tab.get t.bubbles (76 * lp + st) 0 = Tab.get s.bubbles (76 * lp + st) 0) ∧
  (∀ (s : State) (n : Nat), n < 24 → ∃ t r, exec (.loopFailure false n) s = .next t ∧ t.recs = s.recs ++ [r] ∧ (t.loop n).st = 1 ∧ (t.loop n).order = (s.loop n).order ∧
    (∀ m, m ≠ n → t.loop m = s.loop m) ∧ MapDue s t ∧ ∀ part src dst w e g, g ∈ localSegs w → segLoop g = some (n, e) → routeCheck s part src dst w ≠ some 1 →
      routeCheck t part src dst w = some 2) ∧
  (∀ (s : State) (n : Nat), n < 76 → ∃ t r, exec (.loopFailure true n) s = .next t ∧ t.recs = s.recs ++ [r] ∧ t.station n = 1 ∧ (∀ m, m ≠ n → t.station m = s.station m) ∧
    MapDue s t) ∧
  (∀ (s : State) (n : Nat), n < 8 → (∃ t r, exec (.portDown n) s = .next t ∧ t.recs = s.recs ++ [r] ∧ t.port n = 1 ∧ (∀ m, m ≠ n → t.port m = s.port m) ∧ MapDue s t ∧
      ∀ part src dst w, routePort w = some n → routeCheck s part src dst w ≠ some 1 → routeCheck t part src dst w = some 2) ∧
    (s.port n ≠ 0 → ∃ t, exec (.portUp n) s = .next t ∧ t.port n = 0 ∧ t.recs = s.recs ∧ MapDue s t) ∧ (s.port n = 0 → exec (.portUp n) s = .next s)) ∧
  (∀ (s : State) (n : Nat), (s.peerOut[n]? = none → exec (.peerArrivalCheck n) s = .next s) ∧
    (∀ c ref route, s.peerOut[n]? = some (c, ref, route) → ∃ t a, exec (.peerArrivalCheck n) s = .next t ∧ t.peerOut = takeOut n s.peerOut ∧
      (t.ctx c).peerAns = (s.ctx c).peerAns ++ [((ref, route), a)] ∧ (a.toNat ≤ 7 ∨ a = 0x12) ∧
      (2 < ((usedSegs route).filterMap segPort).length → a ≠ 0 ∧ a ≠ 0x12) ∧ (t.ctx c).arch = (s.ctx c).arch)) ∧
  (∀ (s : State),
    (s.mapNext = none → s.mapStale = false → mapStep s = s) ∧
    (s.mapNext = none → s.mapStale = true → (mapStep s).mapSeq = s.mapSeq + 1 ∧ (mapStep s).mapStale = false ∧ (mapStep s).word (s.fw.map + 8) = BitVec.ofNat 64 (s.mapSeq + 1) ∧
      (mapStep s).signals = s.signals ∧ ∃ l, (mapStep s).mapNext = some l) ∧
    (∀ a w l, s.mapNext = some ((a, w) :: l) → (mapStep s).word a = w ∧ (mapStep s).mapNext = some l ∧ (mapStep s).mapSeq = s.mapSeq ∧
      ∀ b, b < a ∨ a + 8 ≤ b → (mapStep s).byte b = s.byte b) ∧
    (s.mapNext = some [] → (mapStep s).mapSeq = s.mapSeq + 1 ∧ (mapStep s).mapNext = none ∧ MapShown s (mapStep s))) ∧
  (∀ (s : State) (c n : Nat), someFailed s = false → exec (.lostRequestTimeout c n) s = .next s) ∧
  (∀ (s : State) (c : Nat), someFailed s = true →
    (∀ d x how labs acq pc old, (s.ctx c).pend = [.load d [x] how labs acq pc old] → leavesStation c x.addr = true → d.file = .g → d.n < 32 →
      (resends s c x.ref = true → exec (.lostRequestTimeout c 0) s = .next s) ∧
      (resends s c x.ref = false → ∃ t, exec (.lostRequestTimeout c 0) s = .next t ∧ (t.ctx c).pend = [] ∧ (d.n ≠ 0 → (t.ctx c).arch.rmeta d = old) ∧
        (t.ctx c).arch.regVal d = (s.ctx c).arch.regVal d ∧ RouteFaultDue s t c x.ref d)) ∧
    (∀ r old, (s.ctx c).pend = [.wait .home r.stamp (some r.dst) old] → s.reqs = [r] → r.c = c → (∃ u, (s.ctx c).strand = some u ∧ u.plc = r.plc) → leavesStation c r.addr = true →
      resends s c r.ref = false → r.kind = .lds ∨ r.kind = .take ∨ r.kind = .lrw → r.dst.file = .g → r.dst.n < 32 →
      ∃ t, exec (.lostRequestTimeout c 1) s = .next t ∧ t.reqs = [] ∧ (t.ctx c).pend = [] ∧ (r.dst.n ≠ 0 → (t.ctx c).arch.rmeta r.dst = old) ∧ RouteFaultDue s t c r.ref r.dst) ∧
    (∀ n x, (s.ctx c).pend = [] → s.reqs = [] → s.stores[n]? = some x → x.c = c → leavesStation c x.acc.addr = true →
      (resends s c x.acc.ref = true → exec (.lostRequestTimeout c n) s = .next s) ∧
      (resends s c x.acc.ref = false → ∃ t r, exec (.lostRequestTimeout c n) s = .next t ∧ t.stores = takeOut n s.stores ∧ t.recs = s.recs ++ [r] ∧ r.code = 0x58 ∧ r.obj = x.acc.ref ∧ r.det = 8 ∧
        t.ctxs = s.ctxs)) ∧
    (∀ n x, (s.ctx c).pend = [] → s.reqs = [] → s.stores = [] → s.barReqs[n]? = some x → x.c = c → x.op = .arrive → leavesStation c x.addr = true → resends s c x.ref = false →
      ∃ t r, exec (.lostRequestTimeout c n) s = .next t ∧ t.barReqs = takeOut n s.barReqs ∧ t.recs = s.recs ++ [r] ∧ r.code = 0x58 ∧ r.obj = x.ref ∧ r.det = 8)) ∧
  (∀ (s : State) (addr : Nat) (v : Word), let a := addr / 8 * 8
    (384000000000 ≤ a ∨ (s.col (homeCol a)).stationPower = false → ∀ w, exec (.hostCxlMemAccess addr w v) s = .next s ∨ Config.spadBase ≤ a) ∧
    (a < 384000000000 → (s.col (homeCol a)).stationPower = true → s.l2 = [] → NoRings s →
      (∃ t, exec (.hostCxlMemAccess addr false v) s = .next t ∧ t.hostRead = s.word a ∧ ∀ b, t.byte b = s.byte b) ∧
      (s.isBad a = false → ∃ t, exec (.hostCxlMemAccess addr true v) s = .next t ∧ (∀ j, j < 8 → t.byte (a + j) = v.extractLsb' (8 * j) 8) ∧
        ∀ b, b < a ∨ a + 8 ≤ b → t.byte b = s.byte b) ∧
      (s.isBad a = true → ∃ t r, exec (.hostCxlMemAccess addr true v) s = .next t ∧ (∀ b, t.byte b = s.byte b) ∧ t.recs = s.recs ++ [r] ∧ r.code = 0x41 ∧
        r.obj = BitVec.ofNat 64 a))) ∧
  (∀ (s : State) (line : Nat), (64 * line < 0x800000000000 → ∀ b, exec (.hostSnoop line b) s = .next s) ∧
    (0x800000000000 ≤ 64 * line → (∃ t, exec (.hostSnoop line true) s = .next t ∧ t = { s with l2 := t.l2 } ∧ (∀ x, x ∈ t.l2 ↔ x ∈ s.l2 ∧ x.line ≠ line)) ∧
      ∃ t, exec (.hostSnoop line false) s = .next t ∧ t = { s with l2 := t.l2 } ∧ (t.l2.map (·.line)) = (s.l2.map (·.line)) ∧ ∀ x ∈ t.l2, x.line = line → x.dirty = false)) ∧
  (∀ (s : State) (v : Nat), v < 1040 → let x := Tab.get s.vecs v ⟨false, false, 0⟩
    ∃ t, exec (.msixVectorUnmask v) s = .next t ∧ t = { s with vecs := t.vecs } ∧ Tab.get t.vecs v ⟨false, false, 0⟩ = ⟨false, false, if x.pending then x.sent + 1 else x.sent⟩ ∧
      ∀ w, w ≠ v → Tab.get t.vecs w ⟨false, false, 0⟩ = Tab.get s.vecs w ⟨false, false, 0⟩)

namespace Sys2Proof.Spec

/-- The temperature that valid readings give, in two-hundredths of a degree from readings in hundredths: the median of three, the mean of two, one and 10 °C, or
none (R468). -/
def tempOf : List Int → Option Int
  | [a, b, c] => some (2 * (if (a ≤ b ∧ b ≤ c) ∨ (c ≤ b ∧ b ≤ a) then b else if (b ≤ a ∧ a ≤ c) ∨ (c ≤ a ∧ a ≤ b) then a else c))
  | [a, b] => some (a + b)
  | [a] => some (2 * a + 2000)
  | _ => none
/-- The level that a temperature enters: at 95, 105 and 115 °C (R469). -/
def levelAt (t : Int) : Nat := if t < 2 * 9500 then 0 else if t < 2 * 10500 then 1 else if t < 2 * 11500 then 2 else 3
/-- The temperature at which a level is entered. -/
def entryOf (l : Nat) : Int := 2 * (8500 + 1000 * (l : Int))
/-- A column's sensors as its latest sample leaves them: what each reads, of those not marked. -/
def readingsOf (marked : List Nat) (ts : List Int) : List Int := ((List.range 3).filter fun i => !marked.contains i).map fun i => ts.getD i 0

/-- The mailbox op of a command (R474). -/
def opOf : Instr → Option (BitVec 8)
  | .adoptSpareCell _ => some 0x01
  | .repairBanks _ => some 0x02
  | .commissionSpareLoop _ _ => some 0x03
  | .substituteL2WayGroup _ => some 0x04
  | .releaseQuarantineEntry _ _ => some 0x05
  | .clearSensorMarking _ _ => some 0x06
  | .setPowerCap _ _ => some 0x07
  | .takeCheckpoint _ => some 0x08
  | .restoreCheckpoint _ => some 0x09
  | .powerColumn _ _ _ => some 0x0A
  | .takeSliceOutOfService _ => some 0x0B
  | .invalidMailboxCommand op => if 1 ≤ op.toNat ∧ op.toNat ≤ 11 then none else some op
  | _ => none

/-- A command has been taken up: the mailbox is busy with it and will end with this status (R474). -/
def Answers (i : Instr) (s t : State) (st : BitVec 8) : Prop := exec i s = .next t ∧ opOf i = some t.mailbox.op ∧ t.mailbox.busy = true ∧ t.mailbox.result = some st ∧
  t.mailbox.status = s.mailbox.status
/-- A command has been taken up and has to wait. -/
def Waits (i : Instr) (s t : State) : Prop := exec i s = .next t ∧ opOf i = some t.mailbox.op ∧ t.mailbox.busy = true ∧ t.mailbox.result = none ∧
  t.mailbox.status = s.mailbox.status
/-- A command ends with this status and has no other effect, but for a record. -/
def Declined (i : Instr) (s : State) (st : BitVec 8) : Prop := ∃ t, Answers i s t st ∧
  t = { s with mailbox := t.mailbox, recs := t.recs, mem := t.mem, parts := t.parts, vecs := t.vecs, tick := t.tick } ∧ (NoRings s → ∀ b, t.byte b = s.byte b)

end Sys2Proof.Spec

/-- R468, R469, R471: temperature, clock and droop. A sensor outside −40 to 150 °C is marked with a record; the temperature is taken of the sensors not marked; a
level rises to the one the temperature selects, with a record, and falls only once it is 3 °C below the level's entry; the clock has the lowest ceiling; at level 3 power is
removed. A stretch of more than 1 µs leaves one record, by its end at the latest. What holds with no valid sensor is the
model's reading (log 61). -/
def Obligations.ThermalEvents : Prop :=
  (∀ (s : State) (col : Nat) (t0 t1 t2 : Int) (mw : Nat), col < 64 → let ts := [t0, t1, t2]; let k := s.col col
    ∃ t, exec (.temperatureSample col t0 t1 t2 mw) s = .next t ∧ let u := t.col col
      (∀ i, i ∈ k.marked → i ∈ u.marked) ∧ (∀ i, i < 3 → ts.getD i 0 < -4000 ∨ 15000 < ts.getD i 0 → i ∈ u.marked) ∧
      (∀ i, i ∈ u.marked → i ∉ k.marked → i < 3 ∧ ∃ r ∈ t.recs, r.code = 0x44) ∧
      u.temp = tempOf (readingsOf u.marked ts) ∧ (u.temp = none → u.level = k.level ∧ u.clock ≤ 1000) ∧
      (∀ T, u.temp = some T → (k.level ≤ levelAt T → u.level = levelAt T) ∧ (levelAt T < k.level → k.level ≤ 3 →
        (entryOf k.level < T + 600 → u.level = k.level) ∧ (T + 600 ≤ entryOf k.level → levelAt T ≤ u.level ∧ u.level < k.level))) ∧
      (u.level ≠ k.level → ∃ r ∈ t.recs, r.code = 0x46) ∧ (u.level = 3 → u.cellPower = false) ∧ (u.level ≠ 3 → u.cellPower = k.cellPower) ∧
      (k.cap = 0 → s.deviceCap = 0 → u.temp ≠ none → (u.level ≤ 1 → u.clock = 4000) ∧ (u.level = 2 → u.clock = 3000) ∧ (u.level = 3 → u.clock = 0)) ∧
      (s.deviceCap = 0 → (aboveThreshold u = true ↔ 1 ≤ u.level ∨ 54000 < mw ∨ (k.cap ≠ 0 ∧ 900 * k.cap < mw)))) ∧
  (∀ (s : State) (col : Nat), col < 64 →
    let k := s.col col; let long := k.droop = true ∧ k.droopNoted = false ∧ 1000 < (s.tsc - k.droopSince).toNat
    let counted (t : State) (u : Column) : Prop := t.col col = { u with cycles := (t.col col).cycles, cyclesAt := s.tsc } ∧ ∀ d, d ≠ col → t.col d = s.col d
    (k.droop = true → exec (.droopStretch col) s = .next s) ∧
    (k.droop = false → ∃ t, exec (.droopStretch col) s = .next t ∧ t = { s with cols := t.cols } ∧ counted t { k with droop := true, droopSince := s.tsc, droopNoted := false }) ∧
    (¬ long → exec (.droopStretchLong col) s = .next s ∧
      ∃ t, exec (.supplyRecovery col) s = .next t ∧ t = { s with cols := t.cols } ∧ counted t { k with droop := false }) ∧
    (long → (∃ t r, exec (.droopStretchLong col) s = .next t ∧ t.recs = s.recs ++ [r] ∧ r.code = 0x45 ∧ t.col col = { k with droopNoted := true } ∧ ∀ d, d ≠ col → t.col d = s.col d) ∧
      ∃ t r, exec (.supplyRecovery col) s = .next t ∧ t.recs = s.recs ++ [r] ∧ r.code = 0x45 ∧ counted t { k with droop := false, droopNoted := true }))

/-- R331, R351, R392, R393, R395, R437, R469, R472, R474, R475: the mailbox. A command written while one is in progress is discarded with a record. Another is taken up and
ends with status 0, or with 1 when it is refused and 2 when an argument is invalid, and then nothing else changes but records; completion clears busy,
sets status and raises vector 1,024. One whose columns' contexts cannot be saved yet waits, and is tried again before its completion. That a command is performed when it is written,
unless it has to wait, is the model's choice (logs 1 and 60); what a checkpoint holds and that the host sends it back as it was are too (logs 59 and 62). -/
def Obligations.MailboxCommands : Prop :=
  (∀ (i : Instr) (s : State) (op : BitVec 8), opOf i = some op → s.mailbox.busy = true → ∃ t r, exec i s = .next t ∧ t.recs = s.recs ++ [r] ∧ r.code = 0x57 ∧
    r.obj = 0x4000 ∧ r.det = op.setWidth 64 ∧ t.mailbox = s.mailbox ∧ t.ctxs = s.ctxs ∧ t.cells = s.cells ∧ t.cols = s.cols) ∧
  (∀ (s : State), (s.mailbox.busy = false → exec .mailboxCompletion s = .next s) ∧
    (∀ r, s.mailbox.busy = true → s.mailbox.result = some r → ∃ t, exec .mailboxCompletion s = .next t ∧ Raised s t 1024 ∧
      t.mailbox = { s.mailbox with busy := false, status := r, result := none } ∧ t = { s with mailbox := t.mailbox, vecs := t.vecs }) ∧
    (s.mailbox.busy = true → s.mailbox.result = none → ∃ t, exec .mailboxCompletion s = .next t ∧ (t.mailbox = s.mailbox ∨ t.mailbox.busy = false))) ∧
  (∀ (s : State) (nonce : BitVec 512), exec (.attestationRequest nonce) s = .next { s with attestOut := Config.deviceSign s.attestA s.attestLog nonce }) ∧
  (∀ (s : State), s.mailbox.busy = false →
    (∀ op, opOf (.invalidMailboxCommand op) ≠ none → Declined (.invalidMailboxCommand op) s 2) ∧
    (∀ cell, (1024 ≤ cell → cell < 2 ^ 64 → Declined (.adoptSpareCell cell) s 2) ∧
      (cell < 1024 → cell / 16 ∈ s.spareUsed ∨ (s.col (cell / 16)).stationPower = false → Declined (.adoptSpareCell cell) s 1) ∧
      (cell < 1024 → cell / 16 ∉ s.spareUsed → (s.col (cell / 16)).stationPower = true → (s.col (cell / 16)).cellPower = false → ∃ t, Answers (.adoptSpareCell cell) s t 0 ∧
        (t.cell cell).phys = 16 ∧ cell / 16 ∈ t.spareUsed ∧ (t.col (cell / 16)).cellPower = true ∧ t.mapStale = true ∧
        (KeptWell s (cell / 16) → ∀ c u a b i, c / 16 = cell → (s.ctx c).strand = some u → (s.ctx c).save = none → Tab.get s.images c (none, none) = (a, b) →
          (∀ j, a = some j ∨ b = some j → j.strand.plc = u.plc) → Chosen c a b i → i.copies = [] → (t.ctx c).arch = i.arch ∧ ∃ v, (t.ctx c).devIrq = some v ∧ v.getLsbD 1 = true))) ∧
    (∀ cell, (1024 ≤ cell → cell < 2 ^ 64 → Declined (.repairBanks cell) s 2) ∧ (cell < 1024 → cellHolds s cell = true → Declined (.repairBanks cell) s 1) ∧
      (cell < 1024 → cellHolds s cell = false → ∃ t, Answers (.repairBanks cell) s t 0 ∧ (t.cell cell).failedBanks = [] ∧
        (∀ b k, b ∈ (s.cell cell).failedBanks → k < 1024 → 1024 * b + k ∈ (t.cell cell).pendingShadow) ∧ (NoRings s →
        (∀ b o, b ∈ (s.cell cell).failedBanks → b < 16 → o < 0x10000 →
          t.byte (Config.spadBase + cell * 0x100000 + b * 0x10000 + o) = 0) ∧
        ∀ a, a < Config.spadBase → t.byte a = s.byte a))) ∧
    (∀ spare failed, spare < 2 ^ 64 → failed < 2 ^ 64 → (spare < 20 ∨ 24 ≤ spare ∨ 24 ≤ failed → Declined (.commissionSpareLoop spare failed) s 2) ∧
      (20 ≤ spare → spare < 24 → failed < 24 → ((s.loop spare).st ≠ 2 ∨ (s.loop failed).st ≠ 1 → Declined (.commissionSpareLoop spare failed) s 1) ∧
        ((s.loop spare).st = 2 → (s.loop failed).st = 1 → ∃ t, Answers (.commissionSpareLoop spare failed) s t 0 ∧ (t.loop spare).st = 0 ∧
          (t.loop spare).order = (s.loop failed).order ∧ (∀ l, l ≠ spare → t.loop l = s.loop l) ∧ t.mapStale = true))) ∧
    (∀ n, n < 2 ^ 64 → (128 ≤ n → Declined (.substituteL2WayGroup n) s 2 ∧ Declined (.takeSliceOutOfService n) s 2) ∧
      (n < 128 → (s.slice n).wayGroup = true ∨ (∃ x ∈ s.l2, sliceOf (64 * x.line) = n ∧ x.pinned = true) → Declined (.substituteL2WayGroup n) s 1) ∧
      (n < 128 → (s.slice n).wayGroup = false → (∀ x ∈ s.l2, sliceOf (64 * x.line) = n → x.pinned = false ∧ x.dirty = false) →
        ∃ t, Answers (.substituteL2WayGroup n) s t 0 ∧ (t.slice n).wayGroup = true ∧ t.l2 = s.l2 ∧ t.mapStale = true) ∧
      (n < 128 → ∃ t, Answers (.takeSliceOutOfService n) s t 0 ∧ (t.slice n).retired = true ∧ (t.slice n).held = false ∧ (∀ x ∈ t.l2, sliceOf (64 * x.line) ≠ n) ∧
        (NoRings s → ∀ b, t.byte b = s.byte b))) ∧
    (∀ n line, n < 2 ^ 64 → line < 2 ^ 64 → (line ∉ (s.slice n).quar → Declined (.releaseQuarantineEntry n line) s 2) ∧
      (n < 128 → line ∈ (s.slice n).quar → 64 * line < 0x5800000000 → ∃ t, Answers (.releaseQuarantineEntry n line) s t 0 ∧ line ∉ (t.slice n).quar ∧
        (∀ j, j < 64 → t.byte (64 * line + j) = 0) ∧ t.bad.contains line = false ∧ (∀ l ∈ lineLabels s line, ∀ j, j < 32 → t.byte (l + j) = 0) ∧
        ((∀ l ∈ lineLabels s line, l + 32 ≤ 0x5800000000) → ∀ j, j < 8 → t.feFull (64 * line + 8 * j) = true))) ∧
    (∀ col sensor, col < 2 ^ 64 → sensor < 2 ^ 64 → (64 ≤ col ∨ 3 ≤ sensor → Declined (.clearSensorMarking col sensor) s 2) ∧
      (col < 64 → sensor < 3 → ∃ t, Answers (.clearSensorMarking col sensor) s t 0 ∧ sensor ∉ (t.col col).marked)) ∧
    (∀ col watts, col < 2 ^ 64 → watts < 2 ^ 64 → (64 ≤ col → col ≠ 255 → Declined (.setPowerCap col watts) s 2) ∧
      (col < 64 → (s.col col).cellPower = false ∨ mayPrepare s col = true → s.jobs = [] → ∃ t, Answers (.setPowerCap col watts) s t 0 ∧ (t.col col).cap = watts) ∧
      ((∀ c, c < 64 → (s.col c).cellPower = false ∨ mayPrepare s c = true) → s.jobs = [] → ∃ t, Answers (.setPowerCap 255 watts) s t 0 ∧ t.deviceCap = watts)) ∧
    (∀ stay, ((∃ c, c < 64 ∧ (s.col c).cellPower = true ∧ mayPrepare s c = false) ∨ enginesIdle s = false →
        ∃ t, Waits (.takeCheckpoint stay) s t ∧ t.dispatch = false ∧ t.checkpoint = s.checkpoint) ∧
      ((∀ c, c < 64 → (s.col c).cellPower = true → mayPrepare s c = true) → enginesIdle s = true → s.badL2 = [] → (∀ n, (s.slice n).held = false) →
        ∃ t k, Answers (.takeCheckpoint stay) s t 0 ∧ t.checkpoint = some k ∧
        t.dispatch = !stay ∧ k.images = t.images ∧ k.tsc = s.tsc ∧ k.spaces = t.spaces ∧ k.segs = k.segments ∧
        k.mem = t.mem.filter fun p => decide (p.1 < 384000000000) || (decide (Config.spadBase ≤ p.1) && decide (p.1 < Config.peerBase)))) ∧
    (s.checkpoint = none → ∀ b, Declined (.restoreCheckpoint b) s 2) ∧ (s.checkpoint ≠ none → Declined (.restoreCheckpoint false) s 1) ∧
    (∀ k, s.checkpoint = some k → k.segs ≠ k.segments → Declined (.restoreCheckpoint true) s 1) ∧
    (∀ k, s.checkpoint = some k → k.segs = k.segments → ∃ t, Answers (.restoreCheckpoint true) s t 0 ∧ k.tsc.toNat ≤ t.tsc.toNat ∧ s.tsc.toNat ≤ t.tsc.toNat ∧ t.claims = [] ∧ t.dispatch = true ∧
      t.spaces = k.spaces ∧ (∀ c, c < 64 → (t.col c).cellPower = true) ∧
      ((s.ctxs.map (·.1)).Nodup → (k.images.map (·.1)).Nodup → (∀ p ∈ k.images, ∀ i, p.2.1 = some i ∨ p.2.2 = some i → i.copies = []) → ∀ c a b i, c < 16384 →
        Tab.get k.images c (none, none) = (a, b) → Chosen c a b i → (t.ctx c).arch = i.arch ∧ (t.ctx c).run = .running ∧
          ∃ v, (t.ctx c).devIrq = some v ∧ v.getLsbD 0 = false ∧ v.getLsbD 2 = true)) ∧
    (∀ col up st, (64 ≤ col → col < 2 ^ 64 → Declined (.powerColumn col up st) s 2) ∧
      (col < 64 → ∃ t, Answers (.powerColumn col true st) s t 0 ∧ (t.col col).cellPower = true) ∧
      (col < 64 → (s.col col).cellPower = false ∨ mayPrepare s col = true → ∃ t, Answers (.powerColumn col false st) s t 0 ∧ (t.col col).cellPower = false ∧
        (st = true → (t.col col).stationPower = false)) ∧
      (col < 64 → (s.col col).cellPower = true → mayPrepare s col = false → ∃ t, Waits (.powerColumn col false st) s t ∧ t = { s with mailbox := t.mailbox })))

namespace Sys2Proof.Spec

/-- The attestation value after one more measured item, and the log with it (R475). -/
def Extended (s t : State) (d : BitVec 512) : Prop :=
  t.attestLog = s.attestLog ++ [d] ∧
  t.attestA = sha512 ((List.range 64).map (fun i => s.attestA.extractLsb' (8 * i) 8) ++ (List.range 64).map fun i => d.extractLsb' (8 * i) 8)

/-- No strand is anywhere, and nothing is on its way. -/
def Blank (t : State) : Prop := (∀ c, (t.ctx c).strand = none ∧ (t.ctx c).run = .free ∧ (t.ctx c).save = none) ∧ t.claims = [] ∧ t.jobs = [] ∧ t.reqs = [] ∧ t.stores = [] ∧ t.homes = []

/-- A load is refused with a record that names this rule, and has no effect (R117). -/
def LoadRefused (s t : State) (cell rule : Nat) : Prop := (∃ r, t.recs = s.recs ++ [r] ∧ r.code = 0x59 ∧ r.obj = BitVec.ofNat 64 cell ∧ r.det = BitVec.ofNat 64 rule) ∧
  t.loads = s.loads ∧ t.attestLog = s.attestLog ∧ t.received = s.received ∧ (NoRings s → ∀ b, t.byte b = s.byte b)

end Sys2Proof.Spec

/-- R104, R105, R116, R117, R342, R475 to R477: bring-up and loading. Firmware that no unrevoked fuse's key verifies halts the device, which then takes no step but a
power-on. A cold start leaves no strand, TSC 0, scratchpads and full/empty bits as R329 and R342 say, and a
record; after a warm start every column has power and TSC has not gone back; both leave the claims empty and the firmware as first item of the attestation log. What else a
cold start keeps, the details of a failed load's records, and the order of a load's checks are the model's (logs 64, 65 and 89). A file that fails a check of its rule is refused with a record and no effect, one whose key does not verify
with code 0x51; a good one is measured and its cells wait for their images. The digest of what a cell receives, its image with any error on the way, is compared
with the measurement; a wrong one is recorded and stops the cells below it, and once no cell waits the load is marked failed with a record. -/
def Obligations.BringUpAndLoading : Prop :=
  (∀ (s : State) (warm : Bool) (key digest : BitVec 512) (sig : List Byte), let good := (key, false) ∈ s.fuses ∧ pssVerify (Config.bootKey key) digest sig = true
    (¬ good → ∃ t, exec (.powerOn warm key digest sig) s = .next t ∧ t.booted = false ∧ t.halted ≠ none ∧ t.recs = [] ∧ (NoRings s → ∀ b, t.byte b = s.byte b) ∧
      (∀ c, c < 16384 → (s.col (c / 256)).stationPower = true → (t.ctx c).run ≠ .running ∧ (t.ctx c).pend = []) ∧ (∀ c, c < 64 → (t.col c).stationPower = false) ∧
      ∀ i, starts i = false → ∃ u, step { t with agenda := [i] } = .next u ∧ u = { t with agenda := [] }) ∧
    (good → ∃ t, exec (.powerOn warm key digest sig) s = .next t ∧ t.halted = none ∧ t.booted = true ∧ t.claims = [] ∧ t.fuses = s.fuses ∧
      Extended { s with attestA := 0, attestLog := [] } t digest ∧
      (warm = false → Blank t ∧ t.tsc = 0 ∧ t.images = [] ∧ (∃ r, t.recs = [r] ∧ r.code = 0x4E ∧ r.det = 0) ∧ (∀ c, c < 64 → (t.col c).cellPower = true ∧ (t.col c).stationPower = true) ∧
        (∀ n o, n < 1024 → o < 0x100000 → t.byte (Config.spadBase + n * 0x100000 + o) = 0) ∧ (∀ a, t.feFull a = true ∨ Config.dramSize ≤ a ∧ a < Config.spadBase ∨ Config.spadFeBase ≤ a) ∧
        ∀ b, 0x800000000000 ≤ b → b < 0x1000000000000 → t.byte b = s.byte b) ∧
      (warm = true → s.tsc.toNat ≤ t.tsc.toNat ∧ ∀ c, c < 64 → (t.col c).cellPower = true))) ∧
  (∀ (s : State) (part : BitVec 6) (f : List Byte),
    (f.length < 64 ∨ f.take 4 ≠ [0x4B, 0x4F, 0x46, 0x01] ∨ fileNum f 24 8 ≠ f.length → ∃ t, exec (.fileLoad part f) s = .next t ∧ LoadRefused s t 0xFFFF 105) ∧
    (∀ r cells, loadCheck s part f = some (r, cells) → ∃ t, exec (.fileLoad part f) s = .next t ∧ LoadRefused s t (cells.foldl min 0xFFFF) r) ∧
    (loadCheck s part f = none → keyOk f = false → ∃ t r, exec (.fileLoad part f) s = .next t ∧ t.recs = s.recs ++ [r] ∧ r.code = 0x51 ∧ r.obj = 0xFFFF ∧ t.loads = s.loads ∧
      t.attestLog = s.attestLog ∧ (NoRings s → ∀ b, t.byte b = s.byte b)) ∧
    (loadCheck s part f = none → keyOk f = true → ∃ t, exec (.fileLoad part f) s = .next t ∧ Extended s t (measurement f) ∧ t.recs = s.recs ∧ t.ctxs = s.ctxs ∧
      (kBoot f ≠ [] → ∃ k l, t.loads = k ++ [l] ∧ (∀ x ∈ k, x ∈ s.loads) ∧ (∀ x ∈ s.loads, x.failed = false → x ∈ k) ∧ l.cells = kBoot f ∧ l.part = part ∧ l.failed = false ∧
        ∀ i, i < kImages f → Tab.get? l.inputs i = some (digestInput f i) ∧ ∀ d, kDigest f i = some d → Tab.get? l.digests i = some d))) ∧
  (∀ (s : State) (cell : Nat) (errs : List Byte) (l : Load) (x : LoadCell), s.loads = [l] → receives l cell = some x →
    (∀ y ∈ l.cells, y.cell = cell → y = x) → let sent := Tab.get l.inputs x.img []; let got := sha512 (receivedBytes sent errs)
    receivedBytes sent [] = sent ∧
    (Tab.get? l.digests x.img = some got → ∃ t, exec (.imageReceipt cell errs) s = .next t ∧ Tab.get? t.received cell = some got ∧
      ∀ m ∈ t.loads, ∀ y ∈ m.cells, y.cell = cell → y.st = .verified) ∧
    (Tab.get? l.digests x.img ≠ some got → ∃ t, exec (.imageReceipt cell errs) s = .next t ∧ t.received = s.received ∧
      (∃ r ∈ t.recs, r.code = 0x51 ∧ r.obj = BitVec.ofNat 64 cell ∧ r.det = BitVec.ofNat 64 x.img) ∧
      (∀ m ∈ t.loads, ∀ y ∈ m.cells, (y.cell = cell → y.st = .failed) ∧ (parentsFirst [] l.cells = true → y.parent = some cell → y.st ≠ .waits)) ∧
      (∀ m ∈ t.loads, (∀ y ∈ m.cells, y.st ≠ .waits) → m.failed = true ∧ ∃ r ∈ t.recs, r.code = 0x59 ∧ r.det = 116))) ∧
  (∀ (s : State) (cell : Nat) (errs : List Byte), (∀ l ∈ s.loads, receives l cell = none) → exec (.imageReceipt cell errs) s = .next s)

namespace Sys2Proof.Spec

/-- What a control register reads as in context `c` after a cold start (R27). -/
def resetCr (c : Nat) : Cr → Word
  | .status => 3
  | .shadowiv => 65536
  | .ctxid => BitVec.ofNat 64 c
  | .cellid => BitVec.ofNat 64 (c / 16 + 1024 * (c / 16 % 16))
  | .spadsize => 0x100000
  | .tcfg0 | .tcfg1 | .tcfg2 | .tcfg3 | .tcfg4 | .tcfg5 | .tcfg6 | .tcfg7 | .tcfg8 | .tcfg9 | .tcfg10 | .tcfg11 | .tcfg12 | .tcfg13 | .tcfg14 | .tcfg15 => 0x3FC2
  | _ => 0

/-- The memory, and that of the checkpoint the host holds, list no address twice and no byte that an unlisted address reads as. -/
def MemoryKept (s : State) : Prop :=
  Memory.wf s.mem = true ∧ ∀ k, s.checkpoint = some k → Memory.wf k.mem = true

end Sys2Proof.Spec

/-- R71, R74, R79, R81, R83: words written out from the spec's encodings decode to the instructions they stand for. -/
def Obligations.DecodeWords : Prop :=
  decode 0x00014333 = .ok (.li 3 5) ∧ decode 0x0C310403 = .ok (.add 4 4 3 true true .w64 .wrapI) ∧ decode 0x1C71850B = .ok (.div 5 6 7 true true .w32) ∧
  decode 0xFE6E = .ok (.cAddi 3 0x7F) ∧ decode 0x4494 = .ok (.cLd 4 2 2) ∧ decode 0x0000006D = .ok .nop ∧ decode 0x000000AF = .ok .ppoint ∧
  decode 0x000002FD = .ok .eret ∧ decode 0x0000 = .error .compactIllegal ∧ (∃ e, decode 0xFFFFFFFF = .error e)

/-- R71 to R81: decoding and encoding agree. Every well-formed instruction decodes from its word, with every operand at every value the encoding admits, and a word that
decodes is the word of the well-formed instruction it decodes to, so no bit of it is without meaning. -/
def Obligations.EncodingRoundTrip : Prop :=
  (∀ (i : Instr) (w : Nat), i.wf = true → encode i = some w → decode w = .ok i) ∧
  (∀ (w : Nat) (i : Instr), w < 2 ^ (8 * wordLen w) → decode w = .ok i → i.wf = true ∧ encode i = some w)

/-- Every step keeps the canonical form of memory: addresses strictly rise, and no entry equals what an unlisted address reads as. -/
def Obligations.StepKeepsMemory : Prop := ∀ (s t : State), MemoryKept s → step s = .next t → MemoryKept t

/-- R8, R27, R30, R263, R329, R342, R437, R441, R453, R477, R482: what a cold start leaves. Every context is free; each of its control registers reads as R27 has it at
reset, both banks of the trap registers are 0, and the record of the start (0x4E) is the only one; every cell is in 16-context mode with free-slot counters 0 and an empty route cache; the scratchpads are zero and every word of them and of DRAM is full; TSC is 0 and no claim is held; the
tower and bridge loops are active and the spare loops idle. That the pc, LNINFO and GGR are 0 before a strand starts, and that no bank has failed, is the model's choice
(logs 10, 11 and 79). -/
def Obligations.ResetState : Prop :=
  MemoryKept State.reset ∧ State.reset.tsc = 0 ∧ State.reset.claims = [] ∧ State.reset.jobs = [] ∧
  (∃ r, State.reset.recs = [r] ∧ r.code = 0x4E ∧ r.skind = 3 ∧ r.part = 63 ∧ r.tsc = 0) ∧
  (∀ c, let x := State.reset.ctx c
    x.run = .free ∧ x.strand = none ∧ x.pend = [] ∧ (∀ cr, crValue State.reset c cr = resetCr c cr) ∧
      x.arch.sup = ⟨0, 0, 0, 0⟩ ∧ x.arch.mon = ⟨0, 0, 0, 0⟩ ∧ x.arch.loops = [] ∧ x.arch.pc = 0) ∧
  (∀ n, let k := State.reset.cell n
    k.mode = .m16 ∧ k.slots = [] ∧ k.routes = [] ∧ k.copies = [] ∧ k.phys = n % 16 ∧ k.failedBanks = []) ∧
  (∀ n o, n < 1024 → o < 0x100000 → State.reset.byte (Config.spadBase + n * 0x100000 + o) = 0 ∧ State.reset.feFull (Config.spadBase + n * 0x100000 + o) = true) ∧
  (∀ a, a < 384000000000 → State.reset.feFull a = true) ∧
  (∀ l, l < 24 → (State.reset.loop l).st = (if l < 20 then 0 else 2) ∧ (State.reset.loop l).rank = (if l < 8 then 16 else if l < 20 then 32 else 48)) ∧
  (∀ p, (State.reset.part p).queue = [] ∧ (State.reset.part p).ovf = false ∧ (State.reset.part p).acc = 0)

/-- R156, R157, R214 to R216, R307, R339: the tile transfers complete, and what leaves for a home comes back or arrives. A TLD whose rows, or whose blocks, pass their
address phase, whose offset and stride are aligned and whose words' labels agree leaves for its elements, kd empty, under the labels of its sources and words. A TST whose
enabled elements pass theirs, and which raises no enabled flag, completes with its flags set. A load in flight that reaches its homes, and that no earlier one touching
its bytes holds back, returns: with good data no fault becomes due, and otherwise the data error fault of the first bad access. A store on its way arrives once no earlier
one of its context to that home is before it. -/
def Obligations.TransfersComplete : Prop :=
  (∀ (s : State) (d x : BitVec 6) (w : Bool) (xn : BitVec 3) (h : Hint) (o : BitVec 5), let i := Instr.tld d x w xn h o
    let ref := effective (gv (me s) x) o 8; let xs := [srcG x w 0, srcF .x xn.toNat 3]
    let cfg := tcfg (me s) d.toNat; let size := cfgSize cfg; let stride := ((me s).xr xn.toNat).val.extractLsb' 0 32
    let row (r : Nat) : Word := ref &&& 0xFFFFFF0000000000 ||| ((ref.extractLsb' 0 40 + BitVec.ofNat 40 r * stride.signExtend 40).setWidth 64)
    let left (t : State) (accs : List Acc) (how : LoadHow) : Prop := (me t).pc = (me s).pc + 4 ∧ ((me t).rmeta (kd d)).fe = .empty ∧ RegsBut (me s) (me t) (kd d) ∧
      (NoRace accs → NoRings s → ∀ b, t.byte b = s.byte b) ∧
      Launched s t (.load (kd d) (labelsRead accs) how (srcLabels (me s) xs ++ accLabels s s.cur accs) none (me s).pc ((me s).rmeta (kd d)))
    MemReady i s xs → Writable (me s) (kd d) →
    (∀ accs : List (List Acc), blockFmt (refFmt ref) = false →
      (List.range (cfgRows cfg)).mapM (fun r => loadPhase s s.cur (row r) (cfgCols cfg * size) 1 (wantLoad h) (srcLabels (me s) xs)) = .ok accs →
      refOff ref % size = 0 → stride.toInt % size = 0 → mixCheck ref (accLabels s s.cur accs.flatten) = .ok () →
      ∃ t, exec i s = .next t ∧ left t accs.flatten (.tile size)) ∧
    (∀ (xs' : Decoded) (es : List Fp) (accs : List Acc), blockFmt (refFmt ref) = true →
      tileBlocks s s.cur ref stride.toInt (cfgRows cfg) (cfgCols cfg) ⟨false, true, false, true, h.code⟩ (srcLabels (me s) xs) = .ok (xs', accs) → xs' = .ok es →
      cfgFmt cfg = 5 ∨ cfgFmt cfg = 6 → refOff ref % 16 = 0 → stride.toInt % 16 = 0 → mixCheck ref (accLabels s s.cur accs) = .ok () →
      ∃ t, exec i s = .next t ∧ left t accs (.elems (es.map .val)))) ∧
  (∀ (s : State) (d x : BitVec 6) (w : Bool) (xn : BitVec 3) (h : Hint) (o : BitVec 5) (parts : List (List Acc × Label)), let i := Instr.tst d x w xn h o
    let ref := effective (gv (me s) x) o 8; let xs := [srcG x w 0, srcF .k d.toNat 2, srcF .x xn.toNat 3]
    let cfg := tcfg (me s) d.toNat; let size := cfgSize cfg; let m := ((me s).xr xn.toNat).val; let stride := m.extractLsb' 0 32
    let on := ((List.range (cfgRows cfg)).flatMap fun r => (List.range (cfgCols cfg)).map fun c => (r, c)).filter fun p => m.getLsbD (32 + p.1) && m.getLsbD (48 + p.2)
    let at_ (p : Nat × Nat) : Word := ref &&& 0xFFFFFF0000000000 |||
      ((ref.extractLsb' 0 40 + BitVec.ofNat 40 p.1 * stride.signExtend 40 + BitVec.ofNat 40 (p.2 * size)).setWidth 64)
    let f := (on.map fun p => elemBits (cfgTy cfg) (me s).rm (element ((me s).kr d.toNat).val (cfgCols cfg) p.1 p.2)).foldl (fun f q => f ||| q.2) 0
    MemReady i s xs → Settled s → blockFmt (refFmt ref) = false →
    on.mapM (fun p => storePhase s s.cur (at_ p) size size (wantStore h) (srcLabels (me s) xs)) = .ok parts → f &&& (me s).en = 0 →
    ∃ t, exec i s = .next t ∧ Passed i s t ∧ (me t).flg = (me s).flg ||| f) ∧
  (∀ (s : State) (c n : Nat) (dst : RegId) (accs : List Acc) (how : LoadHow) (labs : List Label) (acq : Option Scope) (pc : Word) (old : Reg Unit),
    (s.ctx c).pend[n]? = some (.load dst accs how labs acq pc old) → (∀ a ∈ accs, ctxReaches s c a.addr = true) →
    (∀ p ∈ (s.ctx c).pend.take n, ∀ a ∈ p.accs, ∀ b ∈ accs, overlaps a b = false) → (∀ p ∈ s.passes, p.c ≠ c) → (∀ r ∈ s.barReqs, r.c ≠ c) →
    ∃ t, exec (.loadDataReturn c n) s = .next t ∧ (t.ctx c).pend = takeOut n (s.ctx c).pend ∧
      (accsBad s c accs = none → how ≠ .fe ∨ (∀ a ∈ accs, s.feBad a.addr = false) → (t.ctx c).deferred = (s.ctx c).deferred) ∧
      ∀ a, accsBad s c accs = some a → (t.ctx c).deferred = (s.ctx c).deferred ++ [⟨⟨0x18, 0, a.va, 0⟩, some dst, none⟩]) ∧
  (∀ (s : State) (n : Nat) (st : HomeStore), s.stores[n]? = some st → ctxReaches s st.c st.acc.addr = true →
    (∀ x ∈ s.stores.take n, x.c = st.c → homeOf x.acc.addr ≠ homeOf st.acc.addr) → (∀ x ∈ s.passes, x.c = st.c → homeOf x.addr ≠ homeOf st.acc.addr) →
    ∃ t, exec (.storeArrivalAtHome n) s = .next t ∧ t.stores = takeOut n s.stores)

/-- R284, R391, R413 to R415, R418, R419, R421, R453: a SIGNAL releases and leaves with a point, its target, info, sender and partition in the request. A submission is
queued, or refused while 64 are queued or the address is misaligned; JCLR clears the overflow bit, if its bit 7 asks it to, and nothing else; a job is taken off the queue of
its partition and of no other; a phase whose entry can be read and names graphs starts them; a ready conditional takes the set that its word selects, and a ready
launch has all its strands to place; a launch whose strands are all over completes. Each holds for any number of jobs, graphs and nodes. -/
def Obligations.RequestsAndJobStepsComplete : Prop :=
  (∀ (s : State) (a : BitVec 6) (info : BitVec 12), let i := Instr.signal a info; MayIssue i s → Readable (me s) [srcG a true 0] → Settled s → CachesEmpty s →
    NoneEmpty (me s) → (s.ctx s.cur).writing = none →
    ∃ t, exec i s = .next t ∧ Passed i s t ∧ (∀ b, t.byte b = s.byte b) ∧
      CommittedTo s t (.signal ⟨gv (me s) a, info.setWidth 64, s.cur, BitVec.ofNat 6 (me s).partition⟩)) ∧
  (∀ (s : State) (part : BitVec 6) (v : Word), let p := s.part part.toNat
    (p.queue.length < 64 → v.setWidth 6 = 0#6 → ∃ t, exec (.jobSubmission part v) s = .next t ∧ t = { s with parts := t.parts } ∧
      t.part part.toNat = { p with queue := p.queue ++ [v &&& 0x01FFFFFFFFFFFFFF], acc := p.acc + 1 } ∧ ∀ q, q ≠ part.toNat → t.part q = s.part q) ∧
    (64 ≤ p.queue.length ∨ v.setWidth 6 ≠ 0#6 → ∃ t r, exec (.jobSubmission part v) s = .next t ∧ (t.part part.toNat).queue = p.queue ∧ (t.part part.toNat).ovf = true ∧
      t.recs = s.recs ++ [r] ∧ r.code = 0x57 ∧ r.det = v) ∧
    ∃ t, exec (.jclr part v) s = .next t ∧ t = { s with parts := t.parts } ∧ t.part part.toNat = { p with ovf := p.ovf && !v.getLsbD 7 } ∧
      ∀ q, q ≠ part.toNat → t.part q = s.part q) ∧
  (∀ (s : State) (part : BitVec 6) (va : Word) (q : List Word), (s.part part.toNat).queue = va :: q →
    ∃ t, exec (.jobStart part) s = .next t ∧ (t.part part.toNat).queue = q ∧ ∀ p, p ≠ part.toNat → (t.part p).queue = (s.part p).queue) ∧
  (∀ (s : State) (job : Nat) (x : Job) (w : List Word), findJob s job = some x → x.done = false → x.contract = none → x.phase < x.nph →
    (∀ g ∈ x.graphs, g.done = true) → jobEngines s job = false → partWords s x.part (x.ptab.toNat + 16 * x.phase) 2 = some w → part_ w 1 0 16 ≠ 0 → Quiet s →
    ∃ t y, exec (.phaseStart job) s = .next t ∧ findJob t job = some y ∧ y.phase = x.phase + 1 ∧ y.graphs.length = part_ w 1 0 16) ∧
  (∀ (s : State) (job g n : Nat) (x : Job) (h : Graph) (y : Node) (w : List Word), findJob s job = some x → x.done = false → findGraph s job g = some h →
    findNode s ⟨job, g, n⟩ = some y → (∀ m ∈ h.nodes, m.kind ≠ 6) → y.st = .waiting → y.pred = 0 → y.sig = 0 → partWords s x.part y.va.toNat 16 = some w → Quiet s →
    (∀ v, (w.getD 0 0).setWidth 16 = 0x0205 → NodeHead w 2 h.nodes.length h.succ → part_ w 3 57 7 = 0 → part_ w 3 0 3 = 0 → (∀ i, 4 ≤ i → w.getD i 0 = 0) →
      partWord s x.part (part_ w 3 0 57) = some v →
      ∃ t m, exec (.nodeReady job g n) s = .next t ∧ findNode t ⟨job, g, n⟩ = some m ∧ m.st = .running ∧ m.decided = true ∧ m.taken = some (if v = 0 then 1 else 0)) ∧
    ((w.getD 0 0).setWidth 16 = 0x0101 → NodeHead w 1 h.nodes.length h.succ → LaunchWords w →
      ∃ t m, exec (.nodeReady job g n) s = .next t ∧ findNode t ⟨job, g, n⟩ = some m ∧ m.st = .ready ∧ m.ready = s.tsc.toNat ∧ m.next = 0 ∧
        m.total = part_ w 4 0 16 * part_ w 4 16 16 * part_ w 4 32 16 ∧ m.left = m.total)) ∧
  (∀ (s : State) (job g n : Nat) (x : Job) (y : Node), findJob s job = some x → x.done = false → findNode s ⟨job, g, n⟩ = some y → y.st = .running →
    y.decided = true ∨ (y.kind = 1 ∧ y.next = y.total ∧ y.left = 0) →
    ∃ t h z, exec (.nodeComplete job g n) s = .next t ∧ findGraph t job g = some h ∧ h.nodes[n]? = some z ∧ z.st = .complete)
end

