-- ==== Sys2Proof/Laws/Issue.lean ====
section
/-! SUPPORT. What issuing an instruction can do: the shared operations of Issue.lean and Operands.lean, each said once. -/

namespace Sys2Proof.Machine

/-- Everything that issuing can come to: nothing while a NOGOOD holds the context back, a trap of the checks before the rule, what the rule
gives, or how the rule stopped. -/
theorem issue_cases (i : Instr) (s : State) (body : State → Nat → Except Stop State) :
    (heldBack s s.cur = true ∧ issue i s body = .next s) ∨
    (heldBack s s.cur = false ∧ ∃ t, preCheck i s s.cur = some t ∧
      issue i s body = .next (takeTrap s s.cur t false (s.ctx s.cur).arch.pc)) ∨
    (heldBack s s.cur = false ∧ preCheck i s s.cur = none ∧
      ((∃ t, body s s.cur = .ok t ∧ issue i s body = .next t) ∨
       (∃ e, body s s.cur = .error e ∧ issue i s body = stopped s s.cur e))) := by
  unfold issue
  cases hb : heldBack s s.cur
  · cases hp : preCheck i s s.cur with
    | some t => exact .inr (.inl ⟨rfl, t, rfl, by simp⟩)
    | none =>
      cases hr : body s s.cur with
      | ok t => exact .inr (.inr ⟨rfl, rfl, .inl ⟨t, rfl, by simp⟩⟩)
      | error e => exact .inr (.inr ⟨rfl, rfl, .inr ⟨e, rfl, by simp⟩⟩)
  · exact .inl ⟨rfl, by simp⟩

/-- An instruction whose checks pass and whose rule gives a state is answered by that state. -/
theorem issue_ok {i : Instr} {s t : State} {body : State → Nat → Except Stop State} (h : heldBack s s.cur = false)
    (p : preCheck i s s.cur = none) (b : body s s.cur = .ok t) : issue i s body = .next t := by
  simp [issue, h, p, b]

/-- The same for an instruction after which the program counter moves on. -/
theorem issueSeq_ok {i : Instr} {s t : State} {body : State → Nat → Except Stop State} (h : heldBack s s.cur = false)
    (p : preCheck i s s.cur = none) (b : body s s.cur = .ok t) : issueSeq i s body = .next (advance i t s.cur) :=
  issue_ok h p (by simp [b, Except.map])

/-- An instruction whose checks pass and whose rule stops ends as the stop says. -/
theorem issue_error {i : Instr} {s : State} {e : Stop} {body : State → Nat → Except Stop State} (h : heldBack s s.cur = false)
    (p : preCheck i s s.cur = none) (b : body s s.cur = .error e) : issue i s body = stopped s s.cur e := by
  simp [issue, h, p, b]

/-- The same for an instruction after which the program counter would move on. -/
theorem issueSeq_error {i : Instr} {s : State} {e : Stop} {body : State → Nat → Except Stop State} (h : heldBack s s.cur = false)
    (p : preCheck i s s.cur = none) (b : body s s.cur = .error e) : issueSeq i s body = stopped s s.cur e :=
  issue_error h p (by simp [b, Except.map])

/-- A destination that is not empty does not hold issue. -/
theorem destReady_ok {a : Arch} {d : RegId} (h : (a.rmeta d).fe ≠ .empty) : destReady a d = .ok () := by
  unfold destReady
  split <;> simp_all

/-- An empty destination holds issue (R16). -/
theorem destReady_empty {a : Arch} {d : RegId} (h : (a.rmeta d).fe = .empty) : destReady a d = waits := by
  simp [destReady, h]

/-- A full source reads (R15). -/
theorem srcState_full {a : Arch} {x : Src} (h : (a.rmeta x.r).fe = .full) : srcState a x = .full := by
  simp [srcState, h]

theorem readSrcs_go_ok (a : Arch) : ∀ (xs : List Src) (seen : List Label), (∀ x ∈ xs, (a.rmeta x.r).fe = .full) →
    spaceClash none (seen ++ srcLabels a xs) = none → readSrcs.go a xs seen = .ok ()
  | [], seen, _, h => by simpa [readSrcs.go, srcLabels] using by simp [srcLabels] at h; simp [h]
  | x :: t, seen, hf, h => by
    have hx := srcState_full (hf x (by simp))
    simp only [readSrcs.go, hx]
    exact readSrcs_go_ok a t _ (fun y hy => hf y (by simp [hy])) (by simpa [srcLabels] using h)

/-- Full sources of one label space all read (R15, R20 rule 8). -/
theorem readSrcs_ok {a : Arch} {xs : List Src} (hf : ∀ x ∈ xs, (a.rmeta x.r).fe = .full)
    (hs : spaceClash none (srcLabels a xs) = none) : readSrcs a xs = .ok () :=
  readSrcs_go_ok a xs [] hf (by simpa using hs)

/-- Full sources read one by one (R142). -/
theorem readEach_ok {a : Arch} : ∀ {xs : List Src}, (∀ x ∈ xs, (a.rmeta x.r).fe = .full) → readEach a xs = .ok ()
  | [], _ => rfl
  | x :: t, h => by
    simp only [readEach, srcState_full (h x (by simp))]
    exact readEach_ok fun y hy => h y (by simp [hy])

/-- No flag changes nothing. -/
theorem setFlags_none {s : State} {c : Nat} : setFlags s c 0 = .ok s := by
  simp [setFlags]

/-- Flags of which none is enabled are ORed into STATUS.FLG (R38). -/
theorem setFlags_ok {s : State} {c : Nat} {f : BitVec 6} (n : f ≠ 0) (h : f &&& (s.ctx c).arch.en = 0) :
    setFlags s c f = .ok (s.modArch c fun a => a.orFlags f) := by
  unfold setFlags
  rw [if_neg n, if_pos h]

/-- An enabled flag is the arithmetic fault (R121). -/
theorem setFlags_trap {s : State} {c : Nat} {f : BitVec 6} (h : f &&& (s.ctx c).arch.en ≠ 0) :
    setFlags s c f = .error (.trap ⟨0x19, 0, f.setWidth 64, f⟩) := by
  have n : f ≠ 0 := by rintro rfl; simp at h
  unfold setFlags
  rw [if_neg n, if_neg h]

/-- What `compute` gives when its registers are ready and its flags trap nothing. -/
theorem compute_ok {s t : State} {c : Nat} {d : RegId} {xs : List Src} {f : Arch → RV × BitVec 6}
    (hd : ((s.ctx c).arch.rmeta d).fe ≠ .empty) (hf : ∀ x ∈ xs, ((s.ctx c).arch.rmeta x.r).fe = .full)
    (hs : spaceClash none (srcLabels (s.ctx c).arch xs) = none) (he : setFlags s c (f (s.ctx c).arch).2 = .ok t) :
    compute s c d xs f = .ok (fill t c d (f (s.ctx c).arch).1 (srcLabels (s.ctx c).arch xs)) := by
  simp [compute, destReady_ok hd, readSrcs_ok hf hs, he, bind, Except.bind]

/-- `compute` with an enabled flag. -/
theorem compute_trap {s : State} {c : Nat} {d : RegId} {xs : List Src} {f : Arch → RV × BitVec 6}
    (hd : ((s.ctx c).arch.rmeta d).fe ≠ .empty) (hf : ∀ x ∈ xs, ((s.ctx c).arch.rmeta x.r).fe = .full)
    (hs : spaceClash none (srcLabels (s.ctx c).arch xs) = none) (he : (f (s.ctx c).arch).2 &&& (s.ctx c).arch.en ≠ 0) :
    compute s c d xs f = .error (.trap ⟨0x19, 0, (f (s.ctx c).arch).2.setWidth 64, (f (s.ctx c).arch).2⟩) := by
  simp [compute, destReady_ok hd, readSrcs_ok hf hs, setFlags_trap he, bind, Except.bind]

end Sys2Proof.Machine
end

