-- ==== Sys2Proof/Laws/State.lean ====
section
/-! SUPPORT. The small lemmas of the state: tables read after they are written, every field of the state after every update of Ops.lean, the registers of a
context after a write, and the fields that a register write leaves. -/

namespace Sys2Proof

/-- A table reads what was put. -/
@[simp] theorem Tab.get_put_self {α : Type} (m : Tab α) (k : Nat) (v d : α) : Tab.get (Tab.put m k v) k d = v := by
  induction m with
  | nil => simp [Tab.put, Tab.get]
  | cons p t ih =>
    obtain ⟨j, w⟩ := p
    simp only [Tab.put]
    split
    · simp [Tab.get]
    · rename_i h
      split
      · simp [Tab.get]
      · simp [Tab.get, h, ih]

/-- A put leaves the other keys alone. -/
theorem Tab.get_put_ne {α : Type} (m : Tab α) {k j : Nat} (v d : α) (h : j ≠ k) : Tab.get (Tab.put m k v) j d = Tab.get m j d := by
  induction m with
  | nil => simp [Tab.put, Tab.get, Ne.symm h]
  | cons p t ih =>
    obtain ⟨i, w⟩ := p
    simp only [Tab.put]
    split
    · rename_i e
      subst e
      simp [Tab.get, Ne.symm h]
    · split
      · simp [Tab.get, Ne.symm h]
      · simp only [Tab.get, ih]

/-- What a table reads after a put. -/
theorem Tab.get_put {α : Type} (m : Tab α) (k j : Nat) (v d : α) : Tab.get (Tab.put m k v) j d = if j = k then v else Tab.get m j d := by
  split
  · rename_i h
    simp [h]
  · rename_i h
    exact Tab.get_put_ne m v d h

@[simp] theorem Tab.get?_put_self {α : Type} (m : Tab α) (k : Nat) (v : α) : Tab.get? (Tab.put m k v) k = some v := by
  induction m with
  | nil => simp [Tab.put, Tab.get?]
  | cons p t ih =>
    obtain ⟨j, w⟩ := p
    simp only [Tab.put]
    split
    · simp [Tab.get?]
    · rename_i h
      split
      · simp [Tab.get?]
      · simp [Tab.get?, h, ih]

theorem Tab.get?_put_ne {α : Type} (m : Tab α) {k j : Nat} (v : α) (h : j ≠ k) : Tab.get? (Tab.put m k v) j = Tab.get? m j := by
  induction m with
  | nil => simp [Tab.put, Tab.get?, Ne.symm h]
  | cons p t ih =>
    obtain ⟨i, w⟩ := p
    simp only [Tab.put]
    split
    · rename_i e
      subst e
      simp [Tab.get?, Ne.symm h]
    · split
      · simp [Tab.get?, Ne.symm h]
      · simp only [Tab.get?, ih]

/-- The later of two puts at one key stands. -/
theorem Tab_put_put {α : Type} (m : Tab α) (k : Nat) (v w : α) : Tab.put (Tab.put m k v) k w = Tab.put m k w := by
  induction m with
  | nil => simp [Tab.put]
  | cons p t ih =>
    obtain ⟨j, x⟩ := p
    simp only [Tab.put]
    split
    · simp [Tab.put]
    · rename_i h
      split
      · simp [Tab.put]
      · rename_i g
        simp [Tab.put, h, g, ih]

/-- A removed key reads as the default. -/
@[simp] theorem Tab.get_del_self {α : Type} (m : Tab α) (k : Nat) (d : α) : Tab.get (Tab.del m k) k d = d := by
  induction m with
  | nil => rfl
  | cons p t ih =>
    by_cases h : p.1 = k
    · simpa [Tab.del, h] using ih
    · have : Tab.del (p :: t) k = p :: Tab.del t k := by simp [Tab.del, h]
      rw [this]
      simp [Tab.get, h, ih]

theorem Tab.get_del_ne {α : Type} (m : Tab α) {k j : Nat} (d : α) (h : j ≠ k) : Tab.get (Tab.del m k) j d = Tab.get m j d := by
  induction m with
  | nil => rfl
  | cons p t ih =>
    obtain ⟨i, w⟩ := p
    by_cases e : i = k
    · subst e
      have : Tab.del ((i, w) :: t) i = Tab.del t i := by simp [Tab.del]
      rw [this, ih]
      simp [Tab.get, Ne.symm h]
    · have : Tab.del ((i, w) :: t) k = (i, w) :: Tab.del t k := by simp [Tab.del, e]
      rw [this]
      simp only [Tab.get, ih]

end Sys2Proof

namespace Sys2Proof.Machine

/-! ### The parts of the device after an update -/

@[simp] theorem State.ctx_setCtx_self (s : State) (c : Nat) (x : Ctx) : (s.setCtx c x).ctx c = x := Tab.get_put_self _ _ _ _
theorem State.ctx_setCtx_ne (s : State) {c d : Nat} (x : Ctx) (h : d ≠ c) : (s.setCtx c x).ctx d = s.ctx d := Tab.get_put_ne _ _ _ h
@[simp] theorem State.ctx_modArch_self (s : State) (c : Nat) (f : Arch → Arch) :
    (s.modArch c f).ctx c = { s.ctx c with arch := f (s.ctx c).arch } := Tab.get_put_self _ _ _ _
theorem State.ctx_modArch_ne (s : State) {c d : Nat} (f : Arch → Arch) (h : d ≠ c) : (s.modArch c f).ctx d = s.ctx d := Tab.get_put_ne _ _ _ h

@[simp] theorem State.ctx_modCtx_self (s : State) (n : Nat) (f : Ctx → Ctx) : (s.modCtx n f).ctx n = f (s.ctx n) := Tab.get_put_self _ _ _ _
theorem State.ctx_modCtx_ne (s : State) {n m : Nat} (f : Ctx → Ctx) (h : m ≠ n) : (s.modCtx n f).ctx m = s.ctx m := Tab.get_put_ne _ _ _ h

@[simp] theorem State.cell_modCell_self (s : State) (n : Nat) (f : Cell → Cell) : (s.modCell n f).cell n = f (s.cell n) := Tab.get_put_self _ _ _ _
theorem State.cell_modCell_ne (s : State) {n m : Nat} (f : Cell → Cell) (h : m ≠ n) : (s.modCell n f).cell m = s.cell m := Tab.get_put_ne _ _ _ h

@[simp] theorem State.col_modCol_self (s : State) (n : Nat) (f : Column → Column) : (s.modCol n f).col n = f (s.col n) := Tab.get_put_self _ _ _ _
theorem State.col_modCol_ne (s : State) {n m : Nat} (f : Column → Column) (h : m ≠ n) : (s.modCol n f).col m = s.col m := Tab.get_put_ne _ _ _ h

@[simp] theorem State.part_modPart_self (s : State) (n : Nat) (f : Part → Part) : (s.modPart n f).part n = f (s.part n) := Tab.get_put_self _ _ _ _
theorem State.part_modPart_ne (s : State) {n m : Nat} (f : Part → Part) (h : m ≠ n) : (s.modPart n f).part m = s.part m := Tab.get_put_ne _ _ _ h

@[simp] theorem State.home_modHome_self (s : State) (n : Nat) (f : Home → Home) : (s.modHome n f).home n = f (s.home n) := Tab.get_put_self _ _ _ _
theorem State.home_modHome_ne (s : State) {n m : Nat} (f : Home → Home) (h : m ≠ n) : (s.modHome n f).home m = s.home m := Tab.get_put_ne _ _ _ h

@[simp] theorem State.slice_modSlice_self (s : State) (n : Nat) (f : Slice → Slice) : (s.modSlice n f).slice n = f (s.slice n) := Tab.get_put_self _ _ _ _
theorem State.slice_modSlice_ne (s : State) {n m : Nat} (f : Slice → Slice) (h : m ≠ n) : (s.modSlice n f).slice m = s.slice m := Tab.get_put_ne _ _ _ h

/-! ### Every field after every update -/

@[simp] theorem State.setCtx_agenda (s : State) (c : Nat) (x : Ctx) : (s.setCtx c x).agenda = s.agenda := rfl
@[simp] theorem State.setCtx_tick (s : State) (c : Nat) (x : Ctx) : (s.setCtx c x).tick = s.tick := rfl
@[simp] theorem State.setCtx_tsc (s : State) (c : Nat) (x : Ctx) : (s.setCtx c x).tsc = s.tsc := rfl
@[simp] theorem State.setCtx_cur (s : State) (c : Nat) (x : Ctx) : (s.setCtx c x).cur = s.cur := rfl
@[simp] theorem State.setCtx_mem (s : State) (c : Nat) (x : Ctx) : (s.setCtx c x).mem = s.mem := rfl
@[simp] theorem State.setCtx_cells (s : State) (c : Nat) (x : Ctx) : (s.setCtx c x).cells = s.cells := rfl
@[simp] theorem State.setCtx_cols (s : State) (c : Nat) (x : Ctx) : (s.setCtx c x).cols = s.cols := rfl
@[simp] theorem State.setCtx_parts (s : State) (c : Nat) (x : Ctx) : (s.setCtx c x).parts = s.parts := rfl
@[simp] theorem State.setCtx_spaces (s : State) (c : Nat) (x : Ctx) : (s.setCtx c x).spaces = s.spaces := rfl
@[simp] theorem State.setCtx_bad (s : State) (c : Nat) (x : Ctx) : (s.setCtx c x).bad = s.bad := rfl
@[simp] theorem State.setCtx_badL2 (s : State) (c : Nat) (x : Ctx) : (s.setCtx c x).badL2 = s.badL2 := rfl
@[simp] theorem State.setCtx_badWords (s : State) (c : Nat) (x : Ctx) : (s.setCtx c x).badWords = s.badWords := rfl
@[simp] theorem State.setCtx_outer (s : State) (c : Nat) (x : Ctx) : (s.setCtx c x).outer = s.outer := rfl
@[simp] theorem State.setCtx_l2 (s : State) (c : Nat) (x : Ctx) : (s.setCtx c x).l2 = s.l2 := rfl
@[simp] theorem State.setCtx_slices (s : State) (c : Nat) (x : Ctx) : (s.setCtx c x).slices = s.slices := rfl
@[simp] theorem State.setCtx_reqs (s : State) (c : Nat) (x : Ctx) : (s.setCtx c x).reqs = s.reqs := rfl
@[simp] theorem State.setCtx_refused (s : State) (c : Nat) (x : Ctx) : (s.setCtx c x).refused = s.refused := rfl
@[simp] theorem State.setCtx_kept (s : State) (c : Nat) (x : Ctx) : (s.setCtx c x).kept = s.kept := rfl
@[simp] theorem State.setCtx_deliveries (s : State) (c : Nat) (x : Ctx) : (s.setCtx c x).deliveries = s.deliveries := rfl
@[simp] theorem State.setCtx_stores (s : State) (c : Nat) (x : Ctx) : (s.setCtx c x).stores = s.stores := rfl
@[simp] theorem State.setCtx_passes (s : State) (c : Nat) (x : Ctx) : (s.setCtx c x).passes = s.passes := rfl
@[simp] theorem State.setCtx_notices (s : State) (c : Nat) (x : Ctx) : (s.setCtx c x).notices = s.notices := rfl
@[simp] theorem State.setCtx_homes (s : State) (c : Nat) (x : Ctx) : (s.setCtx c x).homes = s.homes := rfl
@[simp] theorem State.setCtx_stamp (s : State) (c : Nat) (x : Ctx) : (s.setCtx c x).stamp = s.stamp := rfl
@[simp] theorem State.setCtx_barReqs (s : State) (c : Nat) (x : Ctx) : (s.setCtx c x).barReqs = s.barReqs := rfl
@[simp] theorem State.setCtx_barRets (s : State) (c : Nat) (x : Ctx) : (s.setCtx c x).barRets = s.barRets := rfl
@[simp] theorem State.setCtx_images (s : State) (c : Nat) (x : Ctx) : (s.setCtx c x).images = s.images := rfl
@[simp] theorem State.setCtx_labelJobs (s : State) (c : Nat) (x : Ctx) : (s.setCtx c x).labelJobs = s.labelJobs := rfl
@[simp] theorem State.setCtx_rewrites (s : State) (c : Nat) (x : Ctx) : (s.setCtx c x).rewrites = s.rewrites := rfl
@[simp] theorem State.setCtx_nogoods (s : State) (c : Nat) (x : Ctx) : (s.setCtx c x).nogoods = s.nogoods := rfl
@[simp] theorem State.setCtx_compacts (s : State) (c : Nat) (x : Ctx) : (s.setCtx c x).compacts = s.compacts := rfl
@[simp] theorem State.setCtx_claims (s : State) (c : Nat) (x : Ctx) : (s.setCtx c x).claims = s.claims := rfl
@[simp] theorem State.setCtx_claimReqs (s : State) (c : Nat) (x : Ctx) : (s.setCtx c x).claimReqs = s.claimReqs := rfl
@[simp] theorem State.setCtx_claimRets (s : State) (c : Nat) (x : Ctx) : (s.setCtx c x).claimRets = s.claimRets := rfl
@[simp] theorem State.setCtx_claimOuts (s : State) (c : Nat) (x : Ctx) : (s.setCtx c x).claimOuts = s.claimOuts := rfl
@[simp] theorem State.setCtx_walks (s : State) (c : Nat) (x : Ctx) : (s.setCtx c x).walks = s.walks := rfl
@[simp] theorem State.setCtx_credits (s : State) (c : Nat) (x : Ctx) : (s.setCtx c x).credits = s.credits := rfl
@[simp] theorem State.setCtx_slotRets (s : State) (c : Nat) (x : Ctx) : (s.setCtx c x).slotRets = s.slotRets := rfl
@[simp] theorem State.setCtx_frames (s : State) (c : Nat) (x : Ctx) : (s.setCtx c x).frames = s.frames := rfl
@[simp] theorem State.setCtx_streams (s : State) (c : Nat) (x : Ctx) : (s.setCtx c x).streams = s.streams := rfl
@[simp] theorem State.setCtx_encs (s : State) (c : Nat) (x : Ctx) : (s.setCtx c x).encs = s.encs := rfl
@[simp] theorem State.setCtx_frameCount (s : State) (c : Nat) (x : Ctx) : (s.setCtx c x).frameCount = s.frameCount := rfl
@[simp] theorem State.setCtx_strdesc (s : State) (c : Nat) (x : Ctx) : (s.setCtx c x).strdesc = s.strdesc := rfl
@[simp] theorem State.setCtx_signals (s : State) (c : Nat) (x : Ctx) : (s.setCtx c x).signals = s.signals := rfl
@[simp] theorem State.setCtx_nsignals (s : State) (c : Nat) (x : Ctx) : (s.setCtx c x).nsignals = s.nsignals := rfl
@[simp] theorem State.setCtx_answers (s : State) (c : Nat) (x : Ctx) : (s.setCtx c x).answers = s.answers := rfl
@[simp] theorem State.setCtx_jobs (s : State) (c : Nat) (x : Ctx) : (s.setCtx c x).jobs = s.jobs := rfl
@[simp] theorem State.setCtx_jobSeq (s : State) (c : Nat) (x : Ctx) : (s.setCtx c x).jobSeq = s.jobSeq := rfl
@[simp] theorem State.setCtx_placements (s : State) (c : Nat) (x : Ctx) : (s.setCtx c x).placements = s.placements := rfl
@[simp] theorem State.setCtx_lastCol (s : State) (c : Nat) (x : Ctx) : (s.setCtx c x).lastCol = s.lastCol := rfl
@[simp] theorem State.setCtx_stations (s : State) (c : Nat) (x : Ctx) : (s.setCtx c x).stations = s.stations := rfl
@[simp] theorem State.setCtx_loops (s : State) (c : Nat) (x : Ctx) : (s.setCtx c x).loops = s.loops := rfl
@[simp] theorem State.setCtx_ports (s : State) (c : Nat) (x : Ctx) : (s.setCtx c x).ports = s.ports := rfl
@[simp] theorem State.setCtx_sysroutes (s : State) (c : Nat) (x : Ctx) : (s.setCtx c x).sysroutes = s.sysroutes := rfl
@[simp] theorem State.setCtx_heldRoutes (s : State) (c : Nat) (x : Ctx) : (s.setCtx c x).heldRoutes = s.heldRoutes := rfl
@[simp] theorem State.setCtx_bubbles (s : State) (c : Nat) (x : Ctx) : (s.setCtx c x).bubbles = s.bubbles := rfl
@[simp] theorem State.setCtx_peerOut (s : State) (c : Nat) (x : Ctx) : (s.setCtx c x).peerOut = s.peerOut := rfl
@[simp] theorem State.setCtx_recs (s : State) (c : Nat) (x : Ctx) : (s.setCtx c x).recs = s.recs := rfl
@[simp] theorem State.setCtx_errCounts (s : State) (c : Nat) (x : Ctx) : (s.setCtx c x).errCounts = s.errCounts := rfl
@[simp] theorem State.setCtx_errThreshold (s : State) (c : Nat) (x : Ctx) : (s.setCtx c x).errThreshold = s.errThreshold := rfl
@[simp] theorem State.setCtx_errWindow (s : State) (c : Nat) (x : Ctx) : (s.setCtx c x).errWindow = s.errWindow := rfl
@[simp] theorem State.setCtx_vecs (s : State) (c : Nat) (x : Ctx) : (s.setCtx c x).vecs = s.vecs := rfl
@[simp] theorem State.setCtx_mailbox (s : State) (c : Nat) (x : Ctx) : (s.setCtx c x).mailbox = s.mailbox := rfl
@[simp] theorem State.setCtx_fw (s : State) (c : Nat) (x : Ctx) : (s.setCtx c x).fw = s.fw := rfl
@[simp] theorem State.setCtx_mapSeq (s : State) (c : Nat) (x : Ctx) : (s.setCtx c x).mapSeq = s.mapSeq := rfl
@[simp] theorem State.setCtx_mapStale (s : State) (c : Nat) (x : Ctx) : (s.setCtx c x).mapStale = s.mapStale := rfl
@[simp] theorem State.setCtx_mapNext (s : State) (c : Nat) (x : Ctx) : (s.setCtx c x).mapNext = s.mapNext := rfl
@[simp] theorem State.setCtx_hostRead (s : State) (c : Nat) (x : Ctx) : (s.setCtx c x).hostRead = s.hostRead := rfl
@[simp] theorem State.setCtx_spareUsed (s : State) (c : Nat) (x : Ctx) : (s.setCtx c x).spareUsed = s.spareUsed := rfl
@[simp] theorem State.setCtx_fuses (s : State) (c : Nat) (x : Ctx) : (s.setCtx c x).fuses = s.fuses := rfl
@[simp] theorem State.setCtx_attestA (s : State) (c : Nat) (x : Ctx) : (s.setCtx c x).attestA = s.attestA := rfl
@[simp] theorem State.setCtx_attestLog (s : State) (c : Nat) (x : Ctx) : (s.setCtx c x).attestLog = s.attestLog := rfl
@[simp] theorem State.setCtx_attestOut (s : State) (c : Nat) (x : Ctx) : (s.setCtx c x).attestOut = s.attestOut := rfl
@[simp] theorem State.setCtx_booted (s : State) (c : Nat) (x : Ctx) : (s.setCtx c x).booted = s.booted := rfl
@[simp] theorem State.setCtx_halted (s : State) (c : Nat) (x : Ctx) : (s.setCtx c x).halted = s.halted := rfl
@[simp] theorem State.setCtx_received (s : State) (c : Nat) (x : Ctx) : (s.setCtx c x).received = s.received := rfl
@[simp] theorem State.setCtx_loads (s : State) (c : Nat) (x : Ctx) : (s.setCtx c x).loads = s.loads := rfl
@[simp] theorem State.setCtx_deviceCap (s : State) (c : Nat) (x : Ctx) : (s.setCtx c x).deviceCap = s.deviceCap := rfl
@[simp] theorem State.setCtx_checkpoint (s : State) (c : Nat) (x : Ctx) : (s.setCtx c x).checkpoint = s.checkpoint := rfl
@[simp] theorem State.setCtx_dispatch (s : State) (c : Nat) (x : Ctx) : (s.setCtx c x).dispatch = s.dispatch := rfl

@[simp] theorem State.modCtx_agenda (s : State) (c : Nat) (f : Ctx → Ctx) : (s.modCtx c f).agenda = s.agenda := rfl
@[simp] theorem State.modCtx_tick (s : State) (c : Nat) (f : Ctx → Ctx) : (s.modCtx c f).tick = s.tick := rfl
@[simp] theorem State.modCtx_tsc (s : State) (c : Nat) (f : Ctx → Ctx) : (s.modCtx c f).tsc = s.tsc := rfl
@[simp] theorem State.modCtx_cur (s : State) (c : Nat) (f : Ctx → Ctx) : (s.modCtx c f).cur = s.cur := rfl
@[simp] theorem State.modCtx_mem (s : State) (c : Nat) (f : Ctx → Ctx) : (s.modCtx c f).mem = s.mem := rfl
@[simp] theorem State.modCtx_cells (s : State) (c : Nat) (f : Ctx → Ctx) : (s.modCtx c f).cells = s.cells := rfl
@[simp] theorem State.modCtx_cols (s : State) (c : Nat) (f : Ctx → Ctx) : (s.modCtx c f).cols = s.cols := rfl
@[simp] theorem State.modCtx_parts (s : State) (c : Nat) (f : Ctx → Ctx) : (s.modCtx c f).parts = s.parts := rfl
@[simp] theorem State.modCtx_spaces (s : State) (c : Nat) (f : Ctx → Ctx) : (s.modCtx c f).spaces = s.spaces := rfl
@[simp] theorem State.modCtx_bad (s : State) (c : Nat) (f : Ctx → Ctx) : (s.modCtx c f).bad = s.bad := rfl
@[simp] theorem State.modCtx_badL2 (s : State) (c : Nat) (f : Ctx → Ctx) : (s.modCtx c f).badL2 = s.badL2 := rfl
@[simp] theorem State.modCtx_badWords (s : State) (c : Nat) (f : Ctx → Ctx) : (s.modCtx c f).badWords = s.badWords := rfl
@[simp] theorem State.modCtx_outer (s : State) (c : Nat) (f : Ctx → Ctx) : (s.modCtx c f).outer = s.outer := rfl
@[simp] theorem State.modCtx_l2 (s : State) (c : Nat) (f : Ctx → Ctx) : (s.modCtx c f).l2 = s.l2 := rfl
@[simp] theorem State.modCtx_slices (s : State) (c : Nat) (f : Ctx → Ctx) : (s.modCtx c f).slices = s.slices := rfl
@[simp] theorem State.modCtx_reqs (s : State) (c : Nat) (f : Ctx → Ctx) : (s.modCtx c f).reqs = s.reqs := rfl
@[simp] theorem State.modCtx_refused (s : State) (c : Nat) (f : Ctx → Ctx) : (s.modCtx c f).refused = s.refused := rfl
@[simp] theorem State.modCtx_kept (s : State) (c : Nat) (f : Ctx → Ctx) : (s.modCtx c f).kept = s.kept := rfl
@[simp] theorem State.modCtx_deliveries (s : State) (c : Nat) (f : Ctx → Ctx) : (s.modCtx c f).deliveries = s.deliveries := rfl
@[simp] theorem State.modCtx_stores (s : State) (c : Nat) (f : Ctx → Ctx) : (s.modCtx c f).stores = s.stores := rfl
@[simp] theorem State.modCtx_passes (s : State) (c : Nat) (f : Ctx → Ctx) : (s.modCtx c f).passes = s.passes := rfl
@[simp] theorem State.modCtx_notices (s : State) (c : Nat) (f : Ctx → Ctx) : (s.modCtx c f).notices = s.notices := rfl
@[simp] theorem State.modCtx_homes (s : State) (c : Nat) (f : Ctx → Ctx) : (s.modCtx c f).homes = s.homes := rfl
@[simp] theorem State.modCtx_stamp (s : State) (c : Nat) (f : Ctx → Ctx) : (s.modCtx c f).stamp = s.stamp := rfl
@[simp] theorem State.modCtx_barReqs (s : State) (c : Nat) (f : Ctx → Ctx) : (s.modCtx c f).barReqs = s.barReqs := rfl
@[simp] theorem State.modCtx_barRets (s : State) (c : Nat) (f : Ctx → Ctx) : (s.modCtx c f).barRets = s.barRets := rfl
@[simp] theorem State.modCtx_images (s : State) (c : Nat) (f : Ctx → Ctx) : (s.modCtx c f).images = s.images := rfl
@[simp] theorem State.modCtx_labelJobs (s : State) (c : Nat) (f : Ctx → Ctx) : (s.modCtx c f).labelJobs = s.labelJobs := rfl
@[simp] theorem State.modCtx_rewrites (s : State) (c : Nat) (f : Ctx → Ctx) : (s.modCtx c f).rewrites = s.rewrites := rfl
@[simp] theorem State.modCtx_nogoods (s : State) (c : Nat) (f : Ctx → Ctx) : (s.modCtx c f).nogoods = s.nogoods := rfl
@[simp] theorem State.modCtx_compacts (s : State) (c : Nat) (f : Ctx → Ctx) : (s.modCtx c f).compacts = s.compacts := rfl
@[simp] theorem State.modCtx_claims (s : State) (c : Nat) (f : Ctx → Ctx) : (s.modCtx c f).claims = s.claims := rfl
@[simp] theorem State.modCtx_claimReqs (s : State) (c : Nat) (f : Ctx → Ctx) : (s.modCtx c f).claimReqs = s.claimReqs := rfl
@[simp] theorem State.modCtx_claimRets (s : State) (c : Nat) (f : Ctx → Ctx) : (s.modCtx c f).claimRets = s.claimRets := rfl
@[simp] theorem State.modCtx_claimOuts (s : State) (c : Nat) (f : Ctx → Ctx) : (s.modCtx c f).claimOuts = s.claimOuts := rfl
@[simp] theorem State.modCtx_walks (s : State) (c : Nat) (f : Ctx → Ctx) : (s.modCtx c f).walks = s.walks := rfl
@[simp] theorem State.modCtx_credits (s : State) (c : Nat) (f : Ctx → Ctx) : (s.modCtx c f).credits = s.credits := rfl
@[simp] theorem State.modCtx_slotRets (s : State) (c : Nat) (f : Ctx → Ctx) : (s.modCtx c f).slotRets = s.slotRets := rfl
@[simp] theorem State.modCtx_frames (s : State) (c : Nat) (f : Ctx → Ctx) : (s.modCtx c f).frames = s.frames := rfl
@[simp] theorem State.modCtx_streams (s : State) (c : Nat) (f : Ctx → Ctx) : (s.modCtx c f).streams = s.streams := rfl
@[simp] theorem State.modCtx_encs (s : State) (c : Nat) (f : Ctx → Ctx) : (s.modCtx c f).encs = s.encs := rfl
@[simp] theorem State.modCtx_frameCount (s : State) (c : Nat) (f : Ctx → Ctx) : (s.modCtx c f).frameCount = s.frameCount := rfl
@[simp] theorem State.modCtx_strdesc (s : State) (c : Nat) (f : Ctx → Ctx) : (s.modCtx c f).strdesc = s.strdesc := rfl
@[simp] theorem State.modCtx_signals (s : State) (c : Nat) (f : Ctx → Ctx) : (s.modCtx c f).signals = s.signals := rfl
@[simp] theorem State.modCtx_nsignals (s : State) (c : Nat) (f : Ctx → Ctx) : (s.modCtx c f).nsignals = s.nsignals := rfl
@[simp] theorem State.modCtx_answers (s : State) (c : Nat) (f : Ctx → Ctx) : (s.modCtx c f).answers = s.answers := rfl
@[simp] theorem State.modCtx_jobs (s : State) (c : Nat) (f : Ctx → Ctx) : (s.modCtx c f).jobs = s.jobs := rfl
@[simp] theorem State.modCtx_jobSeq (s : State) (c : Nat) (f : Ctx → Ctx) : (s.modCtx c f).jobSeq = s.jobSeq := rfl
@[simp] theorem State.modCtx_placements (s : State) (c : Nat) (f : Ctx → Ctx) : (s.modCtx c f).placements = s.placements := rfl
@[simp] theorem State.modCtx_lastCol (s : State) (c : Nat) (f : Ctx → Ctx) : (s.modCtx c f).lastCol = s.lastCol := rfl
@[simp] theorem State.modCtx_stations (s : State) (c : Nat) (f : Ctx → Ctx) : (s.modCtx c f).stations = s.stations := rfl
@[simp] theorem State.modCtx_loops (s : State) (c : Nat) (f : Ctx → Ctx) : (s.modCtx c f).loops = s.loops := rfl
@[simp] theorem State.modCtx_ports (s : State) (c : Nat) (f : Ctx → Ctx) : (s.modCtx c f).ports = s.ports := rfl
@[simp] theorem State.modCtx_sysroutes (s : State) (c : Nat) (f : Ctx → Ctx) : (s.modCtx c f).sysroutes = s.sysroutes := rfl
@[simp] theorem State.modCtx_heldRoutes (s : State) (c : Nat) (f : Ctx → Ctx) : (s.modCtx c f).heldRoutes = s.heldRoutes := rfl
@[simp] theorem State.modCtx_bubbles (s : State) (c : Nat) (f : Ctx → Ctx) : (s.modCtx c f).bubbles = s.bubbles := rfl
@[simp] theorem State.modCtx_peerOut (s : State) (c : Nat) (f : Ctx → Ctx) : (s.modCtx c f).peerOut = s.peerOut := rfl
@[simp] theorem State.modCtx_recs (s : State) (c : Nat) (f : Ctx → Ctx) : (s.modCtx c f).recs = s.recs := rfl
@[simp] theorem State.modCtx_errCounts (s : State) (c : Nat) (f : Ctx → Ctx) : (s.modCtx c f).errCounts = s.errCounts := rfl
@[simp] theorem State.modCtx_errThreshold (s : State) (c : Nat) (f : Ctx → Ctx) : (s.modCtx c f).errThreshold = s.errThreshold := rfl
@[simp] theorem State.modCtx_errWindow (s : State) (c : Nat) (f : Ctx → Ctx) : (s.modCtx c f).errWindow = s.errWindow := rfl
@[simp] theorem State.modCtx_vecs (s : State) (c : Nat) (f : Ctx → Ctx) : (s.modCtx c f).vecs = s.vecs := rfl
@[simp] theorem State.modCtx_mailbox (s : State) (c : Nat) (f : Ctx → Ctx) : (s.modCtx c f).mailbox = s.mailbox := rfl
@[simp] theorem State.modCtx_fw (s : State) (c : Nat) (f : Ctx → Ctx) : (s.modCtx c f).fw = s.fw := rfl
@[simp] theorem State.modCtx_mapSeq (s : State) (c : Nat) (f : Ctx → Ctx) : (s.modCtx c f).mapSeq = s.mapSeq := rfl
@[simp] theorem State.modCtx_mapStale (s : State) (c : Nat) (f : Ctx → Ctx) : (s.modCtx c f).mapStale = s.mapStale := rfl
@[simp] theorem State.modCtx_mapNext (s : State) (c : Nat) (f : Ctx → Ctx) : (s.modCtx c f).mapNext = s.mapNext := rfl
@[simp] theorem State.modCtx_hostRead (s : State) (c : Nat) (f : Ctx → Ctx) : (s.modCtx c f).hostRead = s.hostRead := rfl
@[simp] theorem State.modCtx_spareUsed (s : State) (c : Nat) (f : Ctx → Ctx) : (s.modCtx c f).spareUsed = s.spareUsed := rfl
@[simp] theorem State.modCtx_fuses (s : State) (c : Nat) (f : Ctx → Ctx) : (s.modCtx c f).fuses = s.fuses := rfl
@[simp] theorem State.modCtx_attestA (s : State) (c : Nat) (f : Ctx → Ctx) : (s.modCtx c f).attestA = s.attestA := rfl
@[simp] theorem State.modCtx_attestLog (s : State) (c : Nat) (f : Ctx → Ctx) : (s.modCtx c f).attestLog = s.attestLog := rfl
@[simp] theorem State.modCtx_attestOut (s : State) (c : Nat) (f : Ctx → Ctx) : (s.modCtx c f).attestOut = s.attestOut := rfl
@[simp] theorem State.modCtx_booted (s : State) (c : Nat) (f : Ctx → Ctx) : (s.modCtx c f).booted = s.booted := rfl
@[simp] theorem State.modCtx_halted (s : State) (c : Nat) (f : Ctx → Ctx) : (s.modCtx c f).halted = s.halted := rfl
@[simp] theorem State.modCtx_received (s : State) (c : Nat) (f : Ctx → Ctx) : (s.modCtx c f).received = s.received := rfl
@[simp] theorem State.modCtx_loads (s : State) (c : Nat) (f : Ctx → Ctx) : (s.modCtx c f).loads = s.loads := rfl
@[simp] theorem State.modCtx_deviceCap (s : State) (c : Nat) (f : Ctx → Ctx) : (s.modCtx c f).deviceCap = s.deviceCap := rfl
@[simp] theorem State.modCtx_checkpoint (s : State) (c : Nat) (f : Ctx → Ctx) : (s.modCtx c f).checkpoint = s.checkpoint := rfl
@[simp] theorem State.modCtx_dispatch (s : State) (c : Nat) (f : Ctx → Ctx) : (s.modCtx c f).dispatch = s.dispatch := rfl

@[simp] theorem State.modArch_agenda (s : State) (c : Nat) (f : Arch → Arch) : (s.modArch c f).agenda = s.agenda := rfl
@[simp] theorem State.modArch_tick (s : State) (c : Nat) (f : Arch → Arch) : (s.modArch c f).tick = s.tick := rfl
@[simp] theorem State.modArch_tsc (s : State) (c : Nat) (f : Arch → Arch) : (s.modArch c f).tsc = s.tsc := rfl
@[simp] theorem State.modArch_cur (s : State) (c : Nat) (f : Arch → Arch) : (s.modArch c f).cur = s.cur := rfl
@[simp] theorem State.modArch_mem (s : State) (c : Nat) (f : Arch → Arch) : (s.modArch c f).mem = s.mem := rfl
@[simp] theorem State.modArch_cells (s : State) (c : Nat) (f : Arch → Arch) : (s.modArch c f).cells = s.cells := rfl
@[simp] theorem State.modArch_cols (s : State) (c : Nat) (f : Arch → Arch) : (s.modArch c f).cols = s.cols := rfl
@[simp] theorem State.modArch_parts (s : State) (c : Nat) (f : Arch → Arch) : (s.modArch c f).parts = s.parts := rfl
@[simp] theorem State.modArch_spaces (s : State) (c : Nat) (f : Arch → Arch) : (s.modArch c f).spaces = s.spaces := rfl
@[simp] theorem State.modArch_bad (s : State) (c : Nat) (f : Arch → Arch) : (s.modArch c f).bad = s.bad := rfl
@[simp] theorem State.modArch_badL2 (s : State) (c : Nat) (f : Arch → Arch) : (s.modArch c f).badL2 = s.badL2 := rfl
@[simp] theorem State.modArch_badWords (s : State) (c : Nat) (f : Arch → Arch) : (s.modArch c f).badWords = s.badWords := rfl
@[simp] theorem State.modArch_outer (s : State) (c : Nat) (f : Arch → Arch) : (s.modArch c f).outer = s.outer := rfl
@[simp] theorem State.modArch_l2 (s : State) (c : Nat) (f : Arch → Arch) : (s.modArch c f).l2 = s.l2 := rfl
@[simp] theorem State.modArch_slices (s : State) (c : Nat) (f : Arch → Arch) : (s.modArch c f).slices = s.slices := rfl
@[simp] theorem State.modArch_reqs (s : State) (c : Nat) (f : Arch → Arch) : (s.modArch c f).reqs = s.reqs := rfl
@[simp] theorem State.modArch_refused (s : State) (c : Nat) (f : Arch → Arch) : (s.modArch c f).refused = s.refused := rfl
@[simp] theorem State.modArch_kept (s : State) (c : Nat) (f : Arch → Arch) : (s.modArch c f).kept = s.kept := rfl
@[simp] theorem State.modArch_deliveries (s : State) (c : Nat) (f : Arch → Arch) : (s.modArch c f).deliveries = s.deliveries := rfl
@[simp] theorem State.modArch_stores (s : State) (c : Nat) (f : Arch → Arch) : (s.modArch c f).stores = s.stores := rfl
@[simp] theorem State.modArch_passes (s : State) (c : Nat) (f : Arch → Arch) : (s.modArch c f).passes = s.passes := rfl
@[simp] theorem State.modArch_notices (s : State) (c : Nat) (f : Arch → Arch) : (s.modArch c f).notices = s.notices := rfl
@[simp] theorem State.modArch_homes (s : State) (c : Nat) (f : Arch → Arch) : (s.modArch c f).homes = s.homes := rfl
@[simp] theorem State.modArch_stamp (s : State) (c : Nat) (f : Arch → Arch) : (s.modArch c f).stamp = s.stamp := rfl
@[simp] theorem State.modArch_barReqs (s : State) (c : Nat) (f : Arch → Arch) : (s.modArch c f).barReqs = s.barReqs := rfl
@[simp] theorem State.modArch_barRets (s : State) (c : Nat) (f : Arch → Arch) : (s.modArch c f).barRets = s.barRets := rfl
@[simp] theorem State.modArch_images (s : State) (c : Nat) (f : Arch → Arch) : (s.modArch c f).images = s.images := rfl
@[simp] theorem State.modArch_labelJobs (s : State) (c : Nat) (f : Arch → Arch) : (s.modArch c f).labelJobs = s.labelJobs := rfl
@[simp] theorem State.modArch_rewrites (s : State) (c : Nat) (f : Arch → Arch) : (s.modArch c f).rewrites = s.rewrites := rfl
@[simp] theorem State.modArch_nogoods (s : State) (c : Nat) (f : Arch → Arch) : (s.modArch c f).nogoods = s.nogoods := rfl
@[simp] theorem State.modArch_compacts (s : State) (c : Nat) (f : Arch → Arch) : (s.modArch c f).compacts = s.compacts := rfl
@[simp] theorem State.modArch_claims (s : State) (c : Nat) (f : Arch → Arch) : (s.modArch c f).claims = s.claims := rfl
@[simp] theorem State.modArch_claimReqs (s : State) (c : Nat) (f : Arch → Arch) : (s.modArch c f).claimReqs = s.claimReqs := rfl
@[simp] theorem State.modArch_claimRets (s : State) (c : Nat) (f : Arch → Arch) : (s.modArch c f).claimRets = s.claimRets := rfl
@[simp] theorem State.modArch_claimOuts (s : State) (c : Nat) (f : Arch → Arch) : (s.modArch c f).claimOuts = s.claimOuts := rfl
@[simp] theorem State.modArch_walks (s : State) (c : Nat) (f : Arch → Arch) : (s.modArch c f).walks = s.walks := rfl
@[simp] theorem State.modArch_credits (s : State) (c : Nat) (f : Arch → Arch) : (s.modArch c f).credits = s.credits := rfl
@[simp] theorem State.modArch_slotRets (s : State) (c : Nat) (f : Arch → Arch) : (s.modArch c f).slotRets = s.slotRets := rfl
@[simp] theorem State.modArch_frames (s : State) (c : Nat) (f : Arch → Arch) : (s.modArch c f).frames = s.frames := rfl
@[simp] theorem State.modArch_streams (s : State) (c : Nat) (f : Arch → Arch) : (s.modArch c f).streams = s.streams := rfl
@[simp] theorem State.modArch_encs (s : State) (c : Nat) (f : Arch → Arch) : (s.modArch c f).encs = s.encs := rfl
@[simp] theorem State.modArch_frameCount (s : State) (c : Nat) (f : Arch → Arch) : (s.modArch c f).frameCount = s.frameCount := rfl
@[simp] theorem State.modArch_strdesc (s : State) (c : Nat) (f : Arch → Arch) : (s.modArch c f).strdesc = s.strdesc := rfl
@[simp] theorem State.modArch_signals (s : State) (c : Nat) (f : Arch → Arch) : (s.modArch c f).signals = s.signals := rfl
@[simp] theorem State.modArch_nsignals (s : State) (c : Nat) (f : Arch → Arch) : (s.modArch c f).nsignals = s.nsignals := rfl
@[simp] theorem State.modArch_answers (s : State) (c : Nat) (f : Arch → Arch) : (s.modArch c f).answers = s.answers := rfl
@[simp] theorem State.modArch_jobs (s : State) (c : Nat) (f : Arch → Arch) : (s.modArch c f).jobs = s.jobs := rfl
@[simp] theorem State.modArch_jobSeq (s : State) (c : Nat) (f : Arch → Arch) : (s.modArch c f).jobSeq = s.jobSeq := rfl
@[simp] theorem State.modArch_placements (s : State) (c : Nat) (f : Arch → Arch) : (s.modArch c f).placements = s.placements := rfl
@[simp] theorem State.modArch_lastCol (s : State) (c : Nat) (f : Arch → Arch) : (s.modArch c f).lastCol = s.lastCol := rfl
@[simp] theorem State.modArch_stations (s : State) (c : Nat) (f : Arch → Arch) : (s.modArch c f).stations = s.stations := rfl
@[simp] theorem State.modArch_loops (s : State) (c : Nat) (f : Arch → Arch) : (s.modArch c f).loops = s.loops := rfl
@[simp] theorem State.modArch_ports (s : State) (c : Nat) (f : Arch → Arch) : (s.modArch c f).ports = s.ports := rfl
@[simp] theorem State.modArch_sysroutes (s : State) (c : Nat) (f : Arch → Arch) : (s.modArch c f).sysroutes = s.sysroutes := rfl
@[simp] theorem State.modArch_heldRoutes (s : State) (c : Nat) (f : Arch → Arch) : (s.modArch c f).heldRoutes = s.heldRoutes := rfl
@[simp] theorem State.modArch_bubbles (s : State) (c : Nat) (f : Arch → Arch) : (s.modArch c f).bubbles = s.bubbles := rfl
@[simp] theorem State.modArch_peerOut (s : State) (c : Nat) (f : Arch → Arch) : (s.modArch c f).peerOut = s.peerOut := rfl
@[simp] theorem State.modArch_recs (s : State) (c : Nat) (f : Arch → Arch) : (s.modArch c f).recs = s.recs := rfl
@[simp] theorem State.modArch_errCounts (s : State) (c : Nat) (f : Arch → Arch) : (s.modArch c f).errCounts = s.errCounts := rfl
@[simp] theorem State.modArch_errThreshold (s : State) (c : Nat) (f : Arch → Arch) : (s.modArch c f).errThreshold = s.errThreshold := rfl
@[simp] theorem State.modArch_errWindow (s : State) (c : Nat) (f : Arch → Arch) : (s.modArch c f).errWindow = s.errWindow := rfl
@[simp] theorem State.modArch_vecs (s : State) (c : Nat) (f : Arch → Arch) : (s.modArch c f).vecs = s.vecs := rfl
@[simp] theorem State.modArch_mailbox (s : State) (c : Nat) (f : Arch → Arch) : (s.modArch c f).mailbox = s.mailbox := rfl
@[simp] theorem State.modArch_fw (s : State) (c : Nat) (f : Arch → Arch) : (s.modArch c f).fw = s.fw := rfl
@[simp] theorem State.modArch_mapSeq (s : State) (c : Nat) (f : Arch → Arch) : (s.modArch c f).mapSeq = s.mapSeq := rfl
@[simp] theorem State.modArch_mapStale (s : State) (c : Nat) (f : Arch → Arch) : (s.modArch c f).mapStale = s.mapStale := rfl
@[simp] theorem State.modArch_mapNext (s : State) (c : Nat) (f : Arch → Arch) : (s.modArch c f).mapNext = s.mapNext := rfl
@[simp] theorem State.modArch_hostRead (s : State) (c : Nat) (f : Arch → Arch) : (s.modArch c f).hostRead = s.hostRead := rfl
@[simp] theorem State.modArch_spareUsed (s : State) (c : Nat) (f : Arch → Arch) : (s.modArch c f).spareUsed = s.spareUsed := rfl
@[simp] theorem State.modArch_fuses (s : State) (c : Nat) (f : Arch → Arch) : (s.modArch c f).fuses = s.fuses := rfl
@[simp] theorem State.modArch_attestA (s : State) (c : Nat) (f : Arch → Arch) : (s.modArch c f).attestA = s.attestA := rfl
@[simp] theorem State.modArch_attestLog (s : State) (c : Nat) (f : Arch → Arch) : (s.modArch c f).attestLog = s.attestLog := rfl
@[simp] theorem State.modArch_attestOut (s : State) (c : Nat) (f : Arch → Arch) : (s.modArch c f).attestOut = s.attestOut := rfl
@[simp] theorem State.modArch_booted (s : State) (c : Nat) (f : Arch → Arch) : (s.modArch c f).booted = s.booted := rfl
@[simp] theorem State.modArch_halted (s : State) (c : Nat) (f : Arch → Arch) : (s.modArch c f).halted = s.halted := rfl
@[simp] theorem State.modArch_received (s : State) (c : Nat) (f : Arch → Arch) : (s.modArch c f).received = s.received := rfl
@[simp] theorem State.modArch_loads (s : State) (c : Nat) (f : Arch → Arch) : (s.modArch c f).loads = s.loads := rfl
@[simp] theorem State.modArch_deviceCap (s : State) (c : Nat) (f : Arch → Arch) : (s.modArch c f).deviceCap = s.deviceCap := rfl
@[simp] theorem State.modArch_checkpoint (s : State) (c : Nat) (f : Arch → Arch) : (s.modArch c f).checkpoint = s.checkpoint := rfl
@[simp] theorem State.modArch_dispatch (s : State) (c : Nat) (f : Arch → Arch) : (s.modArch c f).dispatch = s.dispatch := rfl

@[simp] theorem State.modCell_agenda (s : State) (n : Nat) (f : Cell → Cell) : (s.modCell n f).agenda = s.agenda := rfl
@[simp] theorem State.modCell_tick (s : State) (n : Nat) (f : Cell → Cell) : (s.modCell n f).tick = s.tick := rfl
@[simp] theorem State.modCell_tsc (s : State) (n : Nat) (f : Cell → Cell) : (s.modCell n f).tsc = s.tsc := rfl
@[simp] theorem State.modCell_cur (s : State) (n : Nat) (f : Cell → Cell) : (s.modCell n f).cur = s.cur := rfl
@[simp] theorem State.modCell_mem (s : State) (n : Nat) (f : Cell → Cell) : (s.modCell n f).mem = s.mem := rfl
@[simp] theorem State.modCell_ctxs (s : State) (n : Nat) (f : Cell → Cell) : (s.modCell n f).ctxs = s.ctxs := rfl
@[simp] theorem State.modCell_cols (s : State) (n : Nat) (f : Cell → Cell) : (s.modCell n f).cols = s.cols := rfl
@[simp] theorem State.modCell_parts (s : State) (n : Nat) (f : Cell → Cell) : (s.modCell n f).parts = s.parts := rfl
@[simp] theorem State.modCell_spaces (s : State) (n : Nat) (f : Cell → Cell) : (s.modCell n f).spaces = s.spaces := rfl
@[simp] theorem State.modCell_bad (s : State) (n : Nat) (f : Cell → Cell) : (s.modCell n f).bad = s.bad := rfl
@[simp] theorem State.modCell_badL2 (s : State) (n : Nat) (f : Cell → Cell) : (s.modCell n f).badL2 = s.badL2 := rfl
@[simp] theorem State.modCell_badWords (s : State) (n : Nat) (f : Cell → Cell) : (s.modCell n f).badWords = s.badWords := rfl
@[simp] theorem State.modCell_outer (s : State) (n : Nat) (f : Cell → Cell) : (s.modCell n f).outer = s.outer := rfl
@[simp] theorem State.modCell_l2 (s : State) (n : Nat) (f : Cell → Cell) : (s.modCell n f).l2 = s.l2 := rfl
@[simp] theorem State.modCell_slices (s : State) (n : Nat) (f : Cell → Cell) : (s.modCell n f).slices = s.slices := rfl
@[simp] theorem State.modCell_reqs (s : State) (n : Nat) (f : Cell → Cell) : (s.modCell n f).reqs = s.reqs := rfl
@[simp] theorem State.modCell_refused (s : State) (n : Nat) (f : Cell → Cell) : (s.modCell n f).refused = s.refused := rfl
@[simp] theorem State.modCell_kept (s : State) (n : Nat) (f : Cell → Cell) : (s.modCell n f).kept = s.kept := rfl
@[simp] theorem State.modCell_deliveries (s : State) (n : Nat) (f : Cell → Cell) : (s.modCell n f).deliveries = s.deliveries := rfl
@[simp] theorem State.modCell_stores (s : State) (n : Nat) (f : Cell → Cell) : (s.modCell n f).stores = s.stores := rfl
@[simp] theorem State.modCell_passes (s : State) (n : Nat) (f : Cell → Cell) : (s.modCell n f).passes = s.passes := rfl
@[simp] theorem State.modCell_notices (s : State) (n : Nat) (f : Cell → Cell) : (s.modCell n f).notices = s.notices := rfl
@[simp] theorem State.modCell_homes (s : State) (n : Nat) (f : Cell → Cell) : (s.modCell n f).homes = s.homes := rfl
@[simp] theorem State.modCell_stamp (s : State) (n : Nat) (f : Cell → Cell) : (s.modCell n f).stamp = s.stamp := rfl
@[simp] theorem State.modCell_barReqs (s : State) (n : Nat) (f : Cell → Cell) : (s.modCell n f).barReqs = s.barReqs := rfl
@[simp] theorem State.modCell_barRets (s : State) (n : Nat) (f : Cell → Cell) : (s.modCell n f).barRets = s.barRets := rfl
@[simp] theorem State.modCell_images (s : State) (n : Nat) (f : Cell → Cell) : (s.modCell n f).images = s.images := rfl
@[simp] theorem State.modCell_labelJobs (s : State) (n : Nat) (f : Cell → Cell) : (s.modCell n f).labelJobs = s.labelJobs := rfl
@[simp] theorem State.modCell_rewrites (s : State) (n : Nat) (f : Cell → Cell) : (s.modCell n f).rewrites = s.rewrites := rfl
@[simp] theorem State.modCell_nogoods (s : State) (n : Nat) (f : Cell → Cell) : (s.modCell n f).nogoods = s.nogoods := rfl
@[simp] theorem State.modCell_compacts (s : State) (n : Nat) (f : Cell → Cell) : (s.modCell n f).compacts = s.compacts := rfl
@[simp] theorem State.modCell_claims (s : State) (n : Nat) (f : Cell → Cell) : (s.modCell n f).claims = s.claims := rfl
@[simp] theorem State.modCell_claimReqs (s : State) (n : Nat) (f : Cell → Cell) : (s.modCell n f).claimReqs = s.claimReqs := rfl
@[simp] theorem State.modCell_claimRets (s : State) (n : Nat) (f : Cell → Cell) : (s.modCell n f).claimRets = s.claimRets := rfl
@[simp] theorem State.modCell_claimOuts (s : State) (n : Nat) (f : Cell → Cell) : (s.modCell n f).claimOuts = s.claimOuts := rfl
@[simp] theorem State.modCell_walks (s : State) (n : Nat) (f : Cell → Cell) : (s.modCell n f).walks = s.walks := rfl
@[simp] theorem State.modCell_credits (s : State) (n : Nat) (f : Cell → Cell) : (s.modCell n f).credits = s.credits := rfl
@[simp] theorem State.modCell_slotRets (s : State) (n : Nat) (f : Cell → Cell) : (s.modCell n f).slotRets = s.slotRets := rfl
@[simp] theorem State.modCell_frames (s : State) (n : Nat) (f : Cell → Cell) : (s.modCell n f).frames = s.frames := rfl
@[simp] theorem State.modCell_streams (s : State) (n : Nat) (f : Cell → Cell) : (s.modCell n f).streams = s.streams := rfl
@[simp] theorem State.modCell_encs (s : State) (n : Nat) (f : Cell → Cell) : (s.modCell n f).encs = s.encs := rfl
@[simp] theorem State.modCell_frameCount (s : State) (n : Nat) (f : Cell → Cell) : (s.modCell n f).frameCount = s.frameCount := rfl
@[simp] theorem State.modCell_strdesc (s : State) (n : Nat) (f : Cell → Cell) : (s.modCell n f).strdesc = s.strdesc := rfl
@[simp] theorem State.modCell_signals (s : State) (n : Nat) (f : Cell → Cell) : (s.modCell n f).signals = s.signals := rfl
@[simp] theorem State.modCell_nsignals (s : State) (n : Nat) (f : Cell → Cell) : (s.modCell n f).nsignals = s.nsignals := rfl
@[simp] theorem State.modCell_answers (s : State) (n : Nat) (f : Cell → Cell) : (s.modCell n f).answers = s.answers := rfl
@[simp] theorem State.modCell_jobs (s : State) (n : Nat) (f : Cell → Cell) : (s.modCell n f).jobs = s.jobs := rfl
@[simp] theorem State.modCell_jobSeq (s : State) (n : Nat) (f : Cell → Cell) : (s.modCell n f).jobSeq = s.jobSeq := rfl
@[simp] theorem State.modCell_placements (s : State) (n : Nat) (f : Cell → Cell) : (s.modCell n f).placements = s.placements := rfl
@[simp] theorem State.modCell_lastCol (s : State) (n : Nat) (f : Cell → Cell) : (s.modCell n f).lastCol = s.lastCol := rfl
@[simp] theorem State.modCell_stations (s : State) (n : Nat) (f : Cell → Cell) : (s.modCell n f).stations = s.stations := rfl
@[simp] theorem State.modCell_loops (s : State) (n : Nat) (f : Cell → Cell) : (s.modCell n f).loops = s.loops := rfl
@[simp] theorem State.modCell_ports (s : State) (n : Nat) (f : Cell → Cell) : (s.modCell n f).ports = s.ports := rfl
@[simp] theorem State.modCell_sysroutes (s : State) (n : Nat) (f : Cell → Cell) : (s.modCell n f).sysroutes = s.sysroutes := rfl
@[simp] theorem State.modCell_heldRoutes (s : State) (n : Nat) (f : Cell → Cell) : (s.modCell n f).heldRoutes = s.heldRoutes := rfl
@[simp] theorem State.modCell_bubbles (s : State) (n : Nat) (f : Cell → Cell) : (s.modCell n f).bubbles = s.bubbles := rfl
@[simp] theorem State.modCell_peerOut (s : State) (n : Nat) (f : Cell → Cell) : (s.modCell n f).peerOut = s.peerOut := rfl
@[simp] theorem State.modCell_recs (s : State) (n : Nat) (f : Cell → Cell) : (s.modCell n f).recs = s.recs := rfl
@[simp] theorem State.modCell_errCounts (s : State) (n : Nat) (f : Cell → Cell) : (s.modCell n f).errCounts = s.errCounts := rfl
@[simp] theorem State.modCell_errThreshold (s : State) (n : Nat) (f : Cell → Cell) : (s.modCell n f).errThreshold = s.errThreshold := rfl
@[simp] theorem State.modCell_errWindow (s : State) (n : Nat) (f : Cell → Cell) : (s.modCell n f).errWindow = s.errWindow := rfl
@[simp] theorem State.modCell_vecs (s : State) (n : Nat) (f : Cell → Cell) : (s.modCell n f).vecs = s.vecs := rfl
@[simp] theorem State.modCell_mailbox (s : State) (n : Nat) (f : Cell → Cell) : (s.modCell n f).mailbox = s.mailbox := rfl
@[simp] theorem State.modCell_fw (s : State) (n : Nat) (f : Cell → Cell) : (s.modCell n f).fw = s.fw := rfl
@[simp] theorem State.modCell_mapSeq (s : State) (n : Nat) (f : Cell → Cell) : (s.modCell n f).mapSeq = s.mapSeq := rfl
@[simp] theorem State.modCell_mapStale (s : State) (n : Nat) (f : Cell → Cell) : (s.modCell n f).mapStale = s.mapStale := rfl
@[simp] theorem State.modCell_mapNext (s : State) (n : Nat) (f : Cell → Cell) : (s.modCell n f).mapNext = s.mapNext := rfl
@[simp] theorem State.modCell_hostRead (s : State) (n : Nat) (f : Cell → Cell) : (s.modCell n f).hostRead = s.hostRead := rfl
@[simp] theorem State.modCell_spareUsed (s : State) (n : Nat) (f : Cell → Cell) : (s.modCell n f).spareUsed = s.spareUsed := rfl
@[simp] theorem State.modCell_fuses (s : State) (n : Nat) (f : Cell → Cell) : (s.modCell n f).fuses = s.fuses := rfl
@[simp] theorem State.modCell_attestA (s : State) (n : Nat) (f : Cell → Cell) : (s.modCell n f).attestA = s.attestA := rfl
@[simp] theorem State.modCell_attestLog (s : State) (n : Nat) (f : Cell → Cell) : (s.modCell n f).attestLog = s.attestLog := rfl
@[simp] theorem State.modCell_attestOut (s : State) (n : Nat) (f : Cell → Cell) : (s.modCell n f).attestOut = s.attestOut := rfl
@[simp] theorem State.modCell_booted (s : State) (n : Nat) (f : Cell → Cell) : (s.modCell n f).booted = s.booted := rfl
@[simp] theorem State.modCell_halted (s : State) (n : Nat) (f : Cell → Cell) : (s.modCell n f).halted = s.halted := rfl
@[simp] theorem State.modCell_received (s : State) (n : Nat) (f : Cell → Cell) : (s.modCell n f).received = s.received := rfl
@[simp] theorem State.modCell_loads (s : State) (n : Nat) (f : Cell → Cell) : (s.modCell n f).loads = s.loads := rfl
@[simp] theorem State.modCell_deviceCap (s : State) (n : Nat) (f : Cell → Cell) : (s.modCell n f).deviceCap = s.deviceCap := rfl
@[simp] theorem State.modCell_checkpoint (s : State) (n : Nat) (f : Cell → Cell) : (s.modCell n f).checkpoint = s.checkpoint := rfl
@[simp] theorem State.modCell_dispatch (s : State) (n : Nat) (f : Cell → Cell) : (s.modCell n f).dispatch = s.dispatch := rfl

@[simp] theorem State.modCol_agenda (s : State) (n : Nat) (f : Column → Column) : (s.modCol n f).agenda = s.agenda := rfl
@[simp] theorem State.modCol_tick (s : State) (n : Nat) (f : Column → Column) : (s.modCol n f).tick = s.tick := rfl
@[simp] theorem State.modCol_tsc (s : State) (n : Nat) (f : Column → Column) : (s.modCol n f).tsc = s.tsc := rfl
@[simp] theorem State.modCol_cur (s : State) (n : Nat) (f : Column → Column) : (s.modCol n f).cur = s.cur := rfl
@[simp] theorem State.modCol_mem (s : State) (n : Nat) (f : Column → Column) : (s.modCol n f).mem = s.mem := rfl
@[simp] theorem State.modCol_ctxs (s : State) (n : Nat) (f : Column → Column) : (s.modCol n f).ctxs = s.ctxs := rfl
@[simp] theorem State.modCol_cells (s : State) (n : Nat) (f : Column → Column) : (s.modCol n f).cells = s.cells := rfl
@[simp] theorem State.modCol_parts (s : State) (n : Nat) (f : Column → Column) : (s.modCol n f).parts = s.parts := rfl
@[simp] theorem State.modCol_spaces (s : State) (n : Nat) (f : Column → Column) : (s.modCol n f).spaces = s.spaces := rfl
@[simp] theorem State.modCol_bad (s : State) (n : Nat) (f : Column → Column) : (s.modCol n f).bad = s.bad := rfl
@[simp] theorem State.modCol_badL2 (s : State) (n : Nat) (f : Column → Column) : (s.modCol n f).badL2 = s.badL2 := rfl
@[simp] theorem State.modCol_badWords (s : State) (n : Nat) (f : Column → Column) : (s.modCol n f).badWords = s.badWords := rfl
@[simp] theorem State.modCol_outer (s : State) (n : Nat) (f : Column → Column) : (s.modCol n f).outer = s.outer := rfl
@[simp] theorem State.modCol_l2 (s : State) (n : Nat) (f : Column → Column) : (s.modCol n f).l2 = s.l2 := rfl
@[simp] theorem State.modCol_slices (s : State) (n : Nat) (f : Column → Column) : (s.modCol n f).slices = s.slices := rfl
@[simp] theorem State.modCol_reqs (s : State) (n : Nat) (f : Column → Column) : (s.modCol n f).reqs = s.reqs := rfl
@[simp] theorem State.modCol_refused (s : State) (n : Nat) (f : Column → Column) : (s.modCol n f).refused = s.refused := rfl
@[simp] theorem State.modCol_kept (s : State) (n : Nat) (f : Column → Column) : (s.modCol n f).kept = s.kept := rfl
@[simp] theorem State.modCol_deliveries (s : State) (n : Nat) (f : Column → Column) : (s.modCol n f).deliveries = s.deliveries := rfl
@[simp] theorem State.modCol_stores (s : State) (n : Nat) (f : Column → Column) : (s.modCol n f).stores = s.stores := rfl
@[simp] theorem State.modCol_passes (s : State) (n : Nat) (f : Column → Column) : (s.modCol n f).passes = s.passes := rfl
@[simp] theorem State.modCol_notices (s : State) (n : Nat) (f : Column → Column) : (s.modCol n f).notices = s.notices := rfl
@[simp] theorem State.modCol_homes (s : State) (n : Nat) (f : Column → Column) : (s.modCol n f).homes = s.homes := rfl
@[simp] theorem State.modCol_stamp (s : State) (n : Nat) (f : Column → Column) : (s.modCol n f).stamp = s.stamp := rfl
@[simp] theorem State.modCol_barReqs (s : State) (n : Nat) (f : Column → Column) : (s.modCol n f).barReqs = s.barReqs := rfl
@[simp] theorem State.modCol_barRets (s : State) (n : Nat) (f : Column → Column) : (s.modCol n f).barRets = s.barRets := rfl
@[simp] theorem State.modCol_images (s : State) (n : Nat) (f : Column → Column) : (s.modCol n f).images = s.images := rfl
@[simp] theorem State.modCol_labelJobs (s : State) (n : Nat) (f : Column → Column) : (s.modCol n f).labelJobs = s.labelJobs := rfl
@[simp] theorem State.modCol_rewrites (s : State) (n : Nat) (f : Column → Column) : (s.modCol n f).rewrites = s.rewrites := rfl
@[simp] theorem State.modCol_nogoods (s : State) (n : Nat) (f : Column → Column) : (s.modCol n f).nogoods = s.nogoods := rfl
@[simp] theorem State.modCol_compacts (s : State) (n : Nat) (f : Column → Column) : (s.modCol n f).compacts = s.compacts := rfl
@[simp] theorem State.modCol_claims (s : State) (n : Nat) (f : Column → Column) : (s.modCol n f).claims = s.claims := rfl
@[simp] theorem State.modCol_claimReqs (s : State) (n : Nat) (f : Column → Column) : (s.modCol n f).claimReqs = s.claimReqs := rfl
@[simp] theorem State.modCol_claimRets (s : State) (n : Nat) (f : Column → Column) : (s.modCol n f).claimRets = s.claimRets := rfl
@[simp] theorem State.modCol_claimOuts (s : State) (n : Nat) (f : Column → Column) : (s.modCol n f).claimOuts = s.claimOuts := rfl
@[simp] theorem State.modCol_walks (s : State) (n : Nat) (f : Column → Column) : (s.modCol n f).walks = s.walks := rfl
@[simp] theorem State.modCol_credits (s : State) (n : Nat) (f : Column → Column) : (s.modCol n f).credits = s.credits := rfl
@[simp] theorem State.modCol_slotRets (s : State) (n : Nat) (f : Column → Column) : (s.modCol n f).slotRets = s.slotRets := rfl
@[simp] theorem State.modCol_frames (s : State) (n : Nat) (f : Column → Column) : (s.modCol n f).frames = s.frames := rfl
@[simp] theorem State.modCol_streams (s : State) (n : Nat) (f : Column → Column) : (s.modCol n f).streams = s.streams := rfl
@[simp] theorem State.modCol_encs (s : State) (n : Nat) (f : Column → Column) : (s.modCol n f).encs = s.encs := rfl
@[simp] theorem State.modCol_frameCount (s : State) (n : Nat) (f : Column → Column) : (s.modCol n f).frameCount = s.frameCount := rfl
@[simp] theorem State.modCol_strdesc (s : State) (n : Nat) (f : Column → Column) : (s.modCol n f).strdesc = s.strdesc := rfl
@[simp] theorem State.modCol_signals (s : State) (n : Nat) (f : Column → Column) : (s.modCol n f).signals = s.signals := rfl
@[simp] theorem State.modCol_nsignals (s : State) (n : Nat) (f : Column → Column) : (s.modCol n f).nsignals = s.nsignals := rfl
@[simp] theorem State.modCol_answers (s : State) (n : Nat) (f : Column → Column) : (s.modCol n f).answers = s.answers := rfl
@[simp] theorem State.modCol_jobs (s : State) (n : Nat) (f : Column → Column) : (s.modCol n f).jobs = s.jobs := rfl
@[simp] theorem State.modCol_jobSeq (s : State) (n : Nat) (f : Column → Column) : (s.modCol n f).jobSeq = s.jobSeq := rfl
@[simp] theorem State.modCol_placements (s : State) (n : Nat) (f : Column → Column) : (s.modCol n f).placements = s.placements := rfl
@[simp] theorem State.modCol_lastCol (s : State) (n : Nat) (f : Column → Column) : (s.modCol n f).lastCol = s.lastCol := rfl
@[simp] theorem State.modCol_stations (s : State) (n : Nat) (f : Column → Column) : (s.modCol n f).stations = s.stations := rfl
@[simp] theorem State.modCol_loops (s : State) (n : Nat) (f : Column → Column) : (s.modCol n f).loops = s.loops := rfl
@[simp] theorem State.modCol_ports (s : State) (n : Nat) (f : Column → Column) : (s.modCol n f).ports = s.ports := rfl
@[simp] theorem State.modCol_sysroutes (s : State) (n : Nat) (f : Column → Column) : (s.modCol n f).sysroutes = s.sysroutes := rfl
@[simp] theorem State.modCol_heldRoutes (s : State) (n : Nat) (f : Column → Column) : (s.modCol n f).heldRoutes = s.heldRoutes := rfl
@[simp] theorem State.modCol_bubbles (s : State) (n : Nat) (f : Column → Column) : (s.modCol n f).bubbles = s.bubbles := rfl
@[simp] theorem State.modCol_peerOut (s : State) (n : Nat) (f : Column → Column) : (s.modCol n f).peerOut = s.peerOut := rfl
@[simp] theorem State.modCol_recs (s : State) (n : Nat) (f : Column → Column) : (s.modCol n f).recs = s.recs := rfl
@[simp] theorem State.modCol_errCounts (s : State) (n : Nat) (f : Column → Column) : (s.modCol n f).errCounts = s.errCounts := rfl
@[simp] theorem State.modCol_errThreshold (s : State) (n : Nat) (f : Column → Column) : (s.modCol n f).errThreshold = s.errThreshold := rfl
@[simp] theorem State.modCol_errWindow (s : State) (n : Nat) (f : Column → Column) : (s.modCol n f).errWindow = s.errWindow := rfl
@[simp] theorem State.modCol_vecs (s : State) (n : Nat) (f : Column → Column) : (s.modCol n f).vecs = s.vecs := rfl
@[simp] theorem State.modCol_mailbox (s : State) (n : Nat) (f : Column → Column) : (s.modCol n f).mailbox = s.mailbox := rfl
@[simp] theorem State.modCol_fw (s : State) (n : Nat) (f : Column → Column) : (s.modCol n f).fw = s.fw := rfl
@[simp] theorem State.modCol_mapSeq (s : State) (n : Nat) (f : Column → Column) : (s.modCol n f).mapSeq = s.mapSeq := rfl
@[simp] theorem State.modCol_mapStale (s : State) (n : Nat) (f : Column → Column) : (s.modCol n f).mapStale = s.mapStale := rfl
@[simp] theorem State.modCol_mapNext (s : State) (n : Nat) (f : Column → Column) : (s.modCol n f).mapNext = s.mapNext := rfl
@[simp] theorem State.modCol_hostRead (s : State) (n : Nat) (f : Column → Column) : (s.modCol n f).hostRead = s.hostRead := rfl
@[simp] theorem State.modCol_spareUsed (s : State) (n : Nat) (f : Column → Column) : (s.modCol n f).spareUsed = s.spareUsed := rfl
@[simp] theorem State.modCol_fuses (s : State) (n : Nat) (f : Column → Column) : (s.modCol n f).fuses = s.fuses := rfl
@[simp] theorem State.modCol_attestA (s : State) (n : Nat) (f : Column → Column) : (s.modCol n f).attestA = s.attestA := rfl
@[simp] theorem State.modCol_attestLog (s : State) (n : Nat) (f : Column → Column) : (s.modCol n f).attestLog = s.attestLog := rfl
@[simp] theorem State.modCol_attestOut (s : State) (n : Nat) (f : Column → Column) : (s.modCol n f).attestOut = s.attestOut := rfl
@[simp] theorem State.modCol_booted (s : State) (n : Nat) (f : Column → Column) : (s.modCol n f).booted = s.booted := rfl
@[simp] theorem State.modCol_halted (s : State) (n : Nat) (f : Column → Column) : (s.modCol n f).halted = s.halted := rfl
@[simp] theorem State.modCol_received (s : State) (n : Nat) (f : Column → Column) : (s.modCol n f).received = s.received := rfl
@[simp] theorem State.modCol_loads (s : State) (n : Nat) (f : Column → Column) : (s.modCol n f).loads = s.loads := rfl
@[simp] theorem State.modCol_deviceCap (s : State) (n : Nat) (f : Column → Column) : (s.modCol n f).deviceCap = s.deviceCap := rfl
@[simp] theorem State.modCol_checkpoint (s : State) (n : Nat) (f : Column → Column) : (s.modCol n f).checkpoint = s.checkpoint := rfl
@[simp] theorem State.modCol_dispatch (s : State) (n : Nat) (f : Column → Column) : (s.modCol n f).dispatch = s.dispatch := rfl

@[simp] theorem State.modPart_agenda (s : State) (n : Nat) (f : Part → Part) : (s.modPart n f).agenda = s.agenda := rfl
@[simp] theorem State.modPart_tick (s : State) (n : Nat) (f : Part → Part) : (s.modPart n f).tick = s.tick := rfl
@[simp] theorem State.modPart_tsc (s : State) (n : Nat) (f : Part → Part) : (s.modPart n f).tsc = s.tsc := rfl
@[simp] theorem State.modPart_cur (s : State) (n : Nat) (f : Part → Part) : (s.modPart n f).cur = s.cur := rfl
@[simp] theorem State.modPart_mem (s : State) (n : Nat) (f : Part → Part) : (s.modPart n f).mem = s.mem := rfl
@[simp] theorem State.modPart_ctxs (s : State) (n : Nat) (f : Part → Part) : (s.modPart n f).ctxs = s.ctxs := rfl
@[simp] theorem State.modPart_cells (s : State) (n : Nat) (f : Part → Part) : (s.modPart n f).cells = s.cells := rfl
@[simp] theorem State.modPart_cols (s : State) (n : Nat) (f : Part → Part) : (s.modPart n f).cols = s.cols := rfl
@[simp] theorem State.modPart_spaces (s : State) (n : Nat) (f : Part → Part) : (s.modPart n f).spaces = s.spaces := rfl
@[simp] theorem State.modPart_bad (s : State) (n : Nat) (f : Part → Part) : (s.modPart n f).bad = s.bad := rfl
@[simp] theorem State.modPart_badL2 (s : State) (n : Nat) (f : Part → Part) : (s.modPart n f).badL2 = s.badL2 := rfl
@[simp] theorem State.modPart_badWords (s : State) (n : Nat) (f : Part → Part) : (s.modPart n f).badWords = s.badWords := rfl
@[simp] theorem State.modPart_outer (s : State) (n : Nat) (f : Part → Part) : (s.modPart n f).outer = s.outer := rfl
@[simp] theorem State.modPart_l2 (s : State) (n : Nat) (f : Part → Part) : (s.modPart n f).l2 = s.l2 := rfl
@[simp] theorem State.modPart_slices (s : State) (n : Nat) (f : Part → Part) : (s.modPart n f).slices = s.slices := rfl
@[simp] theorem State.modPart_reqs (s : State) (n : Nat) (f : Part → Part) : (s.modPart n f).reqs = s.reqs := rfl
@[simp] theorem State.modPart_refused (s : State) (n : Nat) (f : Part → Part) : (s.modPart n f).refused = s.refused := rfl
@[simp] theorem State.modPart_kept (s : State) (n : Nat) (f : Part → Part) : (s.modPart n f).kept = s.kept := rfl
@[simp] theorem State.modPart_deliveries (s : State) (n : Nat) (f : Part → Part) : (s.modPart n f).deliveries = s.deliveries := rfl
@[simp] theorem State.modPart_stores (s : State) (n : Nat) (f : Part → Part) : (s.modPart n f).stores = s.stores := rfl
@[simp] theorem State.modPart_passes (s : State) (n : Nat) (f : Part → Part) : (s.modPart n f).passes = s.passes := rfl
@[simp] theorem State.modPart_notices (s : State) (n : Nat) (f : Part → Part) : (s.modPart n f).notices = s.notices := rfl
@[simp] theorem State.modPart_homes (s : State) (n : Nat) (f : Part → Part) : (s.modPart n f).homes = s.homes := rfl
@[simp] theorem State.modPart_stamp (s : State) (n : Nat) (f : Part → Part) : (s.modPart n f).stamp = s.stamp := rfl
@[simp] theorem State.modPart_barReqs (s : State) (n : Nat) (f : Part → Part) : (s.modPart n f).barReqs = s.barReqs := rfl
@[simp] theorem State.modPart_barRets (s : State) (n : Nat) (f : Part → Part) : (s.modPart n f).barRets = s.barRets := rfl
@[simp] theorem State.modPart_images (s : State) (n : Nat) (f : Part → Part) : (s.modPart n f).images = s.images := rfl
@[simp] theorem State.modPart_labelJobs (s : State) (n : Nat) (f : Part → Part) : (s.modPart n f).labelJobs = s.labelJobs := rfl
@[simp] theorem State.modPart_rewrites (s : State) (n : Nat) (f : Part → Part) : (s.modPart n f).rewrites = s.rewrites := rfl
@[simp] theorem State.modPart_nogoods (s : State) (n : Nat) (f : Part → Part) : (s.modPart n f).nogoods = s.nogoods := rfl
@[simp] theorem State.modPart_compacts (s : State) (n : Nat) (f : Part → Part) : (s.modPart n f).compacts = s.compacts := rfl
@[simp] theorem State.modPart_claims (s : State) (n : Nat) (f : Part → Part) : (s.modPart n f).claims = s.claims := rfl
@[simp] theorem State.modPart_claimReqs (s : State) (n : Nat) (f : Part → Part) : (s.modPart n f).claimReqs = s.claimReqs := rfl
@[simp] theorem State.modPart_claimRets (s : State) (n : Nat) (f : Part → Part) : (s.modPart n f).claimRets = s.claimRets := rfl
@[simp] theorem State.modPart_claimOuts (s : State) (n : Nat) (f : Part → Part) : (s.modPart n f).claimOuts = s.claimOuts := rfl
@[simp] theorem State.modPart_walks (s : State) (n : Nat) (f : Part → Part) : (s.modPart n f).walks = s.walks := rfl
@[simp] theorem State.modPart_credits (s : State) (n : Nat) (f : Part → Part) : (s.modPart n f).credits = s.credits := rfl
@[simp] theorem State.modPart_slotRets (s : State) (n : Nat) (f : Part → Part) : (s.modPart n f).slotRets = s.slotRets := rfl
@[simp] theorem State.modPart_frames (s : State) (n : Nat) (f : Part → Part) : (s.modPart n f).frames = s.frames := rfl
@[simp] theorem State.modPart_streams (s : State) (n : Nat) (f : Part → Part) : (s.modPart n f).streams = s.streams := rfl
@[simp] theorem State.modPart_encs (s : State) (n : Nat) (f : Part → Part) : (s.modPart n f).encs = s.encs := rfl
@[simp] theorem State.modPart_frameCount (s : State) (n : Nat) (f : Part → Part) : (s.modPart n f).frameCount = s.frameCount := rfl
@[simp] theorem State.modPart_strdesc (s : State) (n : Nat) (f : Part → Part) : (s.modPart n f).strdesc = s.strdesc := rfl
@[simp] theorem State.modPart_signals (s : State) (n : Nat) (f : Part → Part) : (s.modPart n f).signals = s.signals := rfl
@[simp] theorem State.modPart_nsignals (s : State) (n : Nat) (f : Part → Part) : (s.modPart n f).nsignals = s.nsignals := rfl
@[simp] theorem State.modPart_answers (s : State) (n : Nat) (f : Part → Part) : (s.modPart n f).answers = s.answers := rfl
@[simp] theorem State.modPart_jobs (s : State) (n : Nat) (f : Part → Part) : (s.modPart n f).jobs = s.jobs := rfl
@[simp] theorem State.modPart_jobSeq (s : State) (n : Nat) (f : Part → Part) : (s.modPart n f).jobSeq = s.jobSeq := rfl
@[simp] theorem State.modPart_placements (s : State) (n : Nat) (f : Part → Part) : (s.modPart n f).placements = s.placements := rfl
@[simp] theorem State.modPart_lastCol (s : State) (n : Nat) (f : Part → Part) : (s.modPart n f).lastCol = s.lastCol := rfl
@[simp] theorem State.modPart_stations (s : State) (n : Nat) (f : Part → Part) : (s.modPart n f).stations = s.stations := rfl
@[simp] theorem State.modPart_loops (s : State) (n : Nat) (f : Part → Part) : (s.modPart n f).loops = s.loops := rfl
@[simp] theorem State.modPart_ports (s : State) (n : Nat) (f : Part → Part) : (s.modPart n f).ports = s.ports := rfl
@[simp] theorem State.modPart_sysroutes (s : State) (n : Nat) (f : Part → Part) : (s.modPart n f).sysroutes = s.sysroutes := rfl
@[simp] theorem State.modPart_heldRoutes (s : State) (n : Nat) (f : Part → Part) : (s.modPart n f).heldRoutes = s.heldRoutes := rfl
@[simp] theorem State.modPart_bubbles (s : State) (n : Nat) (f : Part → Part) : (s.modPart n f).bubbles = s.bubbles := rfl
@[simp] theorem State.modPart_peerOut (s : State) (n : Nat) (f : Part → Part) : (s.modPart n f).peerOut = s.peerOut := rfl
@[simp] theorem State.modPart_recs (s : State) (n : Nat) (f : Part → Part) : (s.modPart n f).recs = s.recs := rfl
@[simp] theorem State.modPart_errCounts (s : State) (n : Nat) (f : Part → Part) : (s.modPart n f).errCounts = s.errCounts := rfl
@[simp] theorem State.modPart_errThreshold (s : State) (n : Nat) (f : Part → Part) : (s.modPart n f).errThreshold = s.errThreshold := rfl
@[simp] theorem State.modPart_errWindow (s : State) (n : Nat) (f : Part → Part) : (s.modPart n f).errWindow = s.errWindow := rfl
@[simp] theorem State.modPart_vecs (s : State) (n : Nat) (f : Part → Part) : (s.modPart n f).vecs = s.vecs := rfl
@[simp] theorem State.modPart_mailbox (s : State) (n : Nat) (f : Part → Part) : (s.modPart n f).mailbox = s.mailbox := rfl
@[simp] theorem State.modPart_fw (s : State) (n : Nat) (f : Part → Part) : (s.modPart n f).fw = s.fw := rfl
@[simp] theorem State.modPart_mapSeq (s : State) (n : Nat) (f : Part → Part) : (s.modPart n f).mapSeq = s.mapSeq := rfl
@[simp] theorem State.modPart_mapStale (s : State) (n : Nat) (f : Part → Part) : (s.modPart n f).mapStale = s.mapStale := rfl
@[simp] theorem State.modPart_mapNext (s : State) (n : Nat) (f : Part → Part) : (s.modPart n f).mapNext = s.mapNext := rfl
@[simp] theorem State.modPart_hostRead (s : State) (n : Nat) (f : Part → Part) : (s.modPart n f).hostRead = s.hostRead := rfl
@[simp] theorem State.modPart_spareUsed (s : State) (n : Nat) (f : Part → Part) : (s.modPart n f).spareUsed = s.spareUsed := rfl
@[simp] theorem State.modPart_fuses (s : State) (n : Nat) (f : Part → Part) : (s.modPart n f).fuses = s.fuses := rfl
@[simp] theorem State.modPart_attestA (s : State) (n : Nat) (f : Part → Part) : (s.modPart n f).attestA = s.attestA := rfl
@[simp] theorem State.modPart_attestLog (s : State) (n : Nat) (f : Part → Part) : (s.modPart n f).attestLog = s.attestLog := rfl
@[simp] theorem State.modPart_attestOut (s : State) (n : Nat) (f : Part → Part) : (s.modPart n f).attestOut = s.attestOut := rfl
@[simp] theorem State.modPart_booted (s : State) (n : Nat) (f : Part → Part) : (s.modPart n f).booted = s.booted := rfl
@[simp] theorem State.modPart_halted (s : State) (n : Nat) (f : Part → Part) : (s.modPart n f).halted = s.halted := rfl
@[simp] theorem State.modPart_received (s : State) (n : Nat) (f : Part → Part) : (s.modPart n f).received = s.received := rfl
@[simp] theorem State.modPart_loads (s : State) (n : Nat) (f : Part → Part) : (s.modPart n f).loads = s.loads := rfl
@[simp] theorem State.modPart_deviceCap (s : State) (n : Nat) (f : Part → Part) : (s.modPart n f).deviceCap = s.deviceCap := rfl
@[simp] theorem State.modPart_checkpoint (s : State) (n : Nat) (f : Part → Part) : (s.modPart n f).checkpoint = s.checkpoint := rfl
@[simp] theorem State.modPart_dispatch (s : State) (n : Nat) (f : Part → Part) : (s.modPart n f).dispatch = s.dispatch := rfl

@[simp] theorem State.modHome_agenda (s : State) (n : Nat) (f : Home → Home) : (s.modHome n f).agenda = s.agenda := rfl
@[simp] theorem State.modHome_tick (s : State) (n : Nat) (f : Home → Home) : (s.modHome n f).tick = s.tick := rfl
@[simp] theorem State.modHome_tsc (s : State) (n : Nat) (f : Home → Home) : (s.modHome n f).tsc = s.tsc := rfl
@[simp] theorem State.modHome_cur (s : State) (n : Nat) (f : Home → Home) : (s.modHome n f).cur = s.cur := rfl
@[simp] theorem State.modHome_mem (s : State) (n : Nat) (f : Home → Home) : (s.modHome n f).mem = s.mem := rfl
@[simp] theorem State.modHome_ctxs (s : State) (n : Nat) (f : Home → Home) : (s.modHome n f).ctxs = s.ctxs := rfl
@[simp] theorem State.modHome_cells (s : State) (n : Nat) (f : Home → Home) : (s.modHome n f).cells = s.cells := rfl
@[simp] theorem State.modHome_cols (s : State) (n : Nat) (f : Home → Home) : (s.modHome n f).cols = s.cols := rfl
@[simp] theorem State.modHome_parts (s : State) (n : Nat) (f : Home → Home) : (s.modHome n f).parts = s.parts := rfl
@[simp] theorem State.modHome_spaces (s : State) (n : Nat) (f : Home → Home) : (s.modHome n f).spaces = s.spaces := rfl
@[simp] theorem State.modHome_bad (s : State) (n : Nat) (f : Home → Home) : (s.modHome n f).bad = s.bad := rfl
@[simp] theorem State.modHome_badL2 (s : State) (n : Nat) (f : Home → Home) : (s.modHome n f).badL2 = s.badL2 := rfl
@[simp] theorem State.modHome_badWords (s : State) (n : Nat) (f : Home → Home) : (s.modHome n f).badWords = s.badWords := rfl
@[simp] theorem State.modHome_outer (s : State) (n : Nat) (f : Home → Home) : (s.modHome n f).outer = s.outer := rfl
@[simp] theorem State.modHome_l2 (s : State) (n : Nat) (f : Home → Home) : (s.modHome n f).l2 = s.l2 := rfl
@[simp] theorem State.modHome_slices (s : State) (n : Nat) (f : Home → Home) : (s.modHome n f).slices = s.slices := rfl
@[simp] theorem State.modHome_reqs (s : State) (n : Nat) (f : Home → Home) : (s.modHome n f).reqs = s.reqs := rfl
@[simp] theorem State.modHome_refused (s : State) (n : Nat) (f : Home → Home) : (s.modHome n f).refused = s.refused := rfl
@[simp] theorem State.modHome_kept (s : State) (n : Nat) (f : Home → Home) : (s.modHome n f).kept = s.kept := rfl
@[simp] theorem State.modHome_deliveries (s : State) (n : Nat) (f : Home → Home) : (s.modHome n f).deliveries = s.deliveries := rfl
@[simp] theorem State.modHome_stores (s : State) (n : Nat) (f : Home → Home) : (s.modHome n f).stores = s.stores := rfl
@[simp] theorem State.modHome_passes (s : State) (n : Nat) (f : Home → Home) : (s.modHome n f).passes = s.passes := rfl
@[simp] theorem State.modHome_notices (s : State) (n : Nat) (f : Home → Home) : (s.modHome n f).notices = s.notices := rfl
@[simp] theorem State.modHome_stamp (s : State) (n : Nat) (f : Home → Home) : (s.modHome n f).stamp = s.stamp := rfl
@[simp] theorem State.modHome_barReqs (s : State) (n : Nat) (f : Home → Home) : (s.modHome n f).barReqs = s.barReqs := rfl
@[simp] theorem State.modHome_barRets (s : State) (n : Nat) (f : Home → Home) : (s.modHome n f).barRets = s.barRets := rfl
@[simp] theorem State.modHome_images (s : State) (n : Nat) (f : Home → Home) : (s.modHome n f).images = s.images := rfl
@[simp] theorem State.modHome_labelJobs (s : State) (n : Nat) (f : Home → Home) : (s.modHome n f).labelJobs = s.labelJobs := rfl
@[simp] theorem State.modHome_rewrites (s : State) (n : Nat) (f : Home → Home) : (s.modHome n f).rewrites = s.rewrites := rfl
@[simp] theorem State.modHome_nogoods (s : State) (n : Nat) (f : Home → Home) : (s.modHome n f).nogoods = s.nogoods := rfl
@[simp] theorem State.modHome_compacts (s : State) (n : Nat) (f : Home → Home) : (s.modHome n f).compacts = s.compacts := rfl
@[simp] theorem State.modHome_claims (s : State) (n : Nat) (f : Home → Home) : (s.modHome n f).claims = s.claims := rfl
@[simp] theorem State.modHome_claimReqs (s : State) (n : Nat) (f : Home → Home) : (s.modHome n f).claimReqs = s.claimReqs := rfl
@[simp] theorem State.modHome_claimRets (s : State) (n : Nat) (f : Home → Home) : (s.modHome n f).claimRets = s.claimRets := rfl
@[simp] theorem State.modHome_claimOuts (s : State) (n : Nat) (f : Home → Home) : (s.modHome n f).claimOuts = s.claimOuts := rfl
@[simp] theorem State.modHome_walks (s : State) (n : Nat) (f : Home → Home) : (s.modHome n f).walks = s.walks := rfl
@[simp] theorem State.modHome_credits (s : State) (n : Nat) (f : Home → Home) : (s.modHome n f).credits = s.credits := rfl
@[simp] theorem State.modHome_slotRets (s : State) (n : Nat) (f : Home → Home) : (s.modHome n f).slotRets = s.slotRets := rfl
@[simp] theorem State.modHome_frames (s : State) (n : Nat) (f : Home → Home) : (s.modHome n f).frames = s.frames := rfl
@[simp] theorem State.modHome_streams (s : State) (n : Nat) (f : Home → Home) : (s.modHome n f).streams = s.streams := rfl
@[simp] theorem State.modHome_encs (s : State) (n : Nat) (f : Home → Home) : (s.modHome n f).encs = s.encs := rfl
@[simp] theorem State.modHome_frameCount (s : State) (n : Nat) (f : Home → Home) : (s.modHome n f).frameCount = s.frameCount := rfl
@[simp] theorem State.modHome_strdesc (s : State) (n : Nat) (f : Home → Home) : (s.modHome n f).strdesc = s.strdesc := rfl
@[simp] theorem State.modHome_signals (s : State) (n : Nat) (f : Home → Home) : (s.modHome n f).signals = s.signals := rfl
@[simp] theorem State.modHome_nsignals (s : State) (n : Nat) (f : Home → Home) : (s.modHome n f).nsignals = s.nsignals := rfl
@[simp] theorem State.modHome_answers (s : State) (n : Nat) (f : Home → Home) : (s.modHome n f).answers = s.answers := rfl
@[simp] theorem State.modHome_jobs (s : State) (n : Nat) (f : Home → Home) : (s.modHome n f).jobs = s.jobs := rfl
@[simp] theorem State.modHome_jobSeq (s : State) (n : Nat) (f : Home → Home) : (s.modHome n f).jobSeq = s.jobSeq := rfl
@[simp] theorem State.modHome_placements (s : State) (n : Nat) (f : Home → Home) : (s.modHome n f).placements = s.placements := rfl
@[simp] theorem State.modHome_lastCol (s : State) (n : Nat) (f : Home → Home) : (s.modHome n f).lastCol = s.lastCol := rfl
@[simp] theorem State.modHome_stations (s : State) (n : Nat) (f : Home → Home) : (s.modHome n f).stations = s.stations := rfl
@[simp] theorem State.modHome_loops (s : State) (n : Nat) (f : Home → Home) : (s.modHome n f).loops = s.loops := rfl
@[simp] theorem State.modHome_ports (s : State) (n : Nat) (f : Home → Home) : (s.modHome n f).ports = s.ports := rfl
@[simp] theorem State.modHome_sysroutes (s : State) (n : Nat) (f : Home → Home) : (s.modHome n f).sysroutes = s.sysroutes := rfl
@[simp] theorem State.modHome_heldRoutes (s : State) (n : Nat) (f : Home → Home) : (s.modHome n f).heldRoutes = s.heldRoutes := rfl
@[simp] theorem State.modHome_bubbles (s : State) (n : Nat) (f : Home → Home) : (s.modHome n f).bubbles = s.bubbles := rfl
@[simp] theorem State.modHome_peerOut (s : State) (n : Nat) (f : Home → Home) : (s.modHome n f).peerOut = s.peerOut := rfl
@[simp] theorem State.modHome_recs (s : State) (n : Nat) (f : Home → Home) : (s.modHome n f).recs = s.recs := rfl
@[simp] theorem State.modHome_errCounts (s : State) (n : Nat) (f : Home → Home) : (s.modHome n f).errCounts = s.errCounts := rfl
@[simp] theorem State.modHome_errThreshold (s : State) (n : Nat) (f : Home → Home) : (s.modHome n f).errThreshold = s.errThreshold := rfl
@[simp] theorem State.modHome_errWindow (s : State) (n : Nat) (f : Home → Home) : (s.modHome n f).errWindow = s.errWindow := rfl
@[simp] theorem State.modHome_vecs (s : State) (n : Nat) (f : Home → Home) : (s.modHome n f).vecs = s.vecs := rfl
@[simp] theorem State.modHome_mailbox (s : State) (n : Nat) (f : Home → Home) : (s.modHome n f).mailbox = s.mailbox := rfl
@[simp] theorem State.modHome_fw (s : State) (n : Nat) (f : Home → Home) : (s.modHome n f).fw = s.fw := rfl
@[simp] theorem State.modHome_mapSeq (s : State) (n : Nat) (f : Home → Home) : (s.modHome n f).mapSeq = s.mapSeq := rfl
@[simp] theorem State.modHome_mapStale (s : State) (n : Nat) (f : Home → Home) : (s.modHome n f).mapStale = s.mapStale := rfl
@[simp] theorem State.modHome_mapNext (s : State) (n : Nat) (f : Home → Home) : (s.modHome n f).mapNext = s.mapNext := rfl
@[simp] theorem State.modHome_hostRead (s : State) (n : Nat) (f : Home → Home) : (s.modHome n f).hostRead = s.hostRead := rfl
@[simp] theorem State.modHome_spareUsed (s : State) (n : Nat) (f : Home → Home) : (s.modHome n f).spareUsed = s.spareUsed := rfl
@[simp] theorem State.modHome_fuses (s : State) (n : Nat) (f : Home → Home) : (s.modHome n f).fuses = s.fuses := rfl
@[simp] theorem State.modHome_attestA (s : State) (n : Nat) (f : Home → Home) : (s.modHome n f).attestA = s.attestA := rfl
@[simp] theorem State.modHome_attestLog (s : State) (n : Nat) (f : Home → Home) : (s.modHome n f).attestLog = s.attestLog := rfl
@[simp] theorem State.modHome_attestOut (s : State) (n : Nat) (f : Home → Home) : (s.modHome n f).attestOut = s.attestOut := rfl
@[simp] theorem State.modHome_booted (s : State) (n : Nat) (f : Home → Home) : (s.modHome n f).booted = s.booted := rfl
@[simp] theorem State.modHome_halted (s : State) (n : Nat) (f : Home → Home) : (s.modHome n f).halted = s.halted := rfl
@[simp] theorem State.modHome_received (s : State) (n : Nat) (f : Home → Home) : (s.modHome n f).received = s.received := rfl
@[simp] theorem State.modHome_loads (s : State) (n : Nat) (f : Home → Home) : (s.modHome n f).loads = s.loads := rfl
@[simp] theorem State.modHome_deviceCap (s : State) (n : Nat) (f : Home → Home) : (s.modHome n f).deviceCap = s.deviceCap := rfl
@[simp] theorem State.modHome_checkpoint (s : State) (n : Nat) (f : Home → Home) : (s.modHome n f).checkpoint = s.checkpoint := rfl
@[simp] theorem State.modHome_dispatch (s : State) (n : Nat) (f : Home → Home) : (s.modHome n f).dispatch = s.dispatch := rfl

@[simp] theorem State.modSlice_agenda (s : State) (n : Nat) (f : Slice → Slice) : (s.modSlice n f).agenda = s.agenda := rfl
@[simp] theorem State.modSlice_tick (s : State) (n : Nat) (f : Slice → Slice) : (s.modSlice n f).tick = s.tick := rfl
@[simp] theorem State.modSlice_tsc (s : State) (n : Nat) (f : Slice → Slice) : (s.modSlice n f).tsc = s.tsc := rfl
@[simp] theorem State.modSlice_cur (s : State) (n : Nat) (f : Slice → Slice) : (s.modSlice n f).cur = s.cur := rfl
@[simp] theorem State.modSlice_mem (s : State) (n : Nat) (f : Slice → Slice) : (s.modSlice n f).mem = s.mem := rfl
@[simp] theorem State.modSlice_ctxs (s : State) (n : Nat) (f : Slice → Slice) : (s.modSlice n f).ctxs = s.ctxs := rfl
@[simp] theorem State.modSlice_cells (s : State) (n : Nat) (f : Slice → Slice) : (s.modSlice n f).cells = s.cells := rfl
@[simp] theorem State.modSlice_cols (s : State) (n : Nat) (f : Slice → Slice) : (s.modSlice n f).cols = s.cols := rfl
@[simp] theorem State.modSlice_parts (s : State) (n : Nat) (f : Slice → Slice) : (s.modSlice n f).parts = s.parts := rfl
@[simp] theorem State.modSlice_spaces (s : State) (n : Nat) (f : Slice → Slice) : (s.modSlice n f).spaces = s.spaces := rfl
@[simp] theorem State.modSlice_bad (s : State) (n : Nat) (f : Slice → Slice) : (s.modSlice n f).bad = s.bad := rfl
@[simp] theorem State.modSlice_badL2 (s : State) (n : Nat) (f : Slice → Slice) : (s.modSlice n f).badL2 = s.badL2 := rfl
@[simp] theorem State.modSlice_badWords (s : State) (n : Nat) (f : Slice → Slice) : (s.modSlice n f).badWords = s.badWords := rfl
@[simp] theorem State.modSlice_outer (s : State) (n : Nat) (f : Slice → Slice) : (s.modSlice n f).outer = s.outer := rfl
@[simp] theorem State.modSlice_l2 (s : State) (n : Nat) (f : Slice → Slice) : (s.modSlice n f).l2 = s.l2 := rfl
@[simp] theorem State.modSlice_reqs (s : State) (n : Nat) (f : Slice → Slice) : (s.modSlice n f).reqs = s.reqs := rfl
@[simp] theorem State.modSlice_refused (s : State) (n : Nat) (f : Slice → Slice) : (s.modSlice n f).refused = s.refused := rfl
@[simp] theorem State.modSlice_kept (s : State) (n : Nat) (f : Slice → Slice) : (s.modSlice n f).kept = s.kept := rfl
@[simp] theorem State.modSlice_deliveries (s : State) (n : Nat) (f : Slice → Slice) : (s.modSlice n f).deliveries = s.deliveries := rfl
@[simp] theorem State.modSlice_stores (s : State) (n : Nat) (f : Slice → Slice) : (s.modSlice n f).stores = s.stores := rfl
@[simp] theorem State.modSlice_passes (s : State) (n : Nat) (f : Slice → Slice) : (s.modSlice n f).passes = s.passes := rfl
@[simp] theorem State.modSlice_notices (s : State) (n : Nat) (f : Slice → Slice) : (s.modSlice n f).notices = s.notices := rfl
@[simp] theorem State.modSlice_homes (s : State) (n : Nat) (f : Slice → Slice) : (s.modSlice n f).homes = s.homes := rfl
@[simp] theorem State.modSlice_stamp (s : State) (n : Nat) (f : Slice → Slice) : (s.modSlice n f).stamp = s.stamp := rfl
@[simp] theorem State.modSlice_barReqs (s : State) (n : Nat) (f : Slice → Slice) : (s.modSlice n f).barReqs = s.barReqs := rfl
@[simp] theorem State.modSlice_barRets (s : State) (n : Nat) (f : Slice → Slice) : (s.modSlice n f).barRets = s.barRets := rfl
@[simp] theorem State.modSlice_images (s : State) (n : Nat) (f : Slice → Slice) : (s.modSlice n f).images = s.images := rfl
@[simp] theorem State.modSlice_labelJobs (s : State) (n : Nat) (f : Slice → Slice) : (s.modSlice n f).labelJobs = s.labelJobs := rfl
@[simp] theorem State.modSlice_rewrites (s : State) (n : Nat) (f : Slice → Slice) : (s.modSlice n f).rewrites = s.rewrites := rfl
@[simp] theorem State.modSlice_nogoods (s : State) (n : Nat) (f : Slice → Slice) : (s.modSlice n f).nogoods = s.nogoods := rfl
@[simp] theorem State.modSlice_compacts (s : State) (n : Nat) (f : Slice → Slice) : (s.modSlice n f).compacts = s.compacts := rfl
@[simp] theorem State.modSlice_claims (s : State) (n : Nat) (f : Slice → Slice) : (s.modSlice n f).claims = s.claims := rfl
@[simp] theorem State.modSlice_claimReqs (s : State) (n : Nat) (f : Slice → Slice) : (s.modSlice n f).claimReqs = s.claimReqs := rfl
@[simp] theorem State.modSlice_claimRets (s : State) (n : Nat) (f : Slice → Slice) : (s.modSlice n f).claimRets = s.claimRets := rfl
@[simp] theorem State.modSlice_claimOuts (s : State) (n : Nat) (f : Slice → Slice) : (s.modSlice n f).claimOuts = s.claimOuts := rfl
@[simp] theorem State.modSlice_walks (s : State) (n : Nat) (f : Slice → Slice) : (s.modSlice n f).walks = s.walks := rfl
@[simp] theorem State.modSlice_credits (s : State) (n : Nat) (f : Slice → Slice) : (s.modSlice n f).credits = s.credits := rfl
@[simp] theorem State.modSlice_slotRets (s : State) (n : Nat) (f : Slice → Slice) : (s.modSlice n f).slotRets = s.slotRets := rfl
@[simp] theorem State.modSlice_frames (s : State) (n : Nat) (f : Slice → Slice) : (s.modSlice n f).frames = s.frames := rfl
@[simp] theorem State.modSlice_streams (s : State) (n : Nat) (f : Slice → Slice) : (s.modSlice n f).streams = s.streams := rfl
@[simp] theorem State.modSlice_encs (s : State) (n : Nat) (f : Slice → Slice) : (s.modSlice n f).encs = s.encs := rfl
@[simp] theorem State.modSlice_frameCount (s : State) (n : Nat) (f : Slice → Slice) : (s.modSlice n f).frameCount = s.frameCount := rfl
@[simp] theorem State.modSlice_strdesc (s : State) (n : Nat) (f : Slice → Slice) : (s.modSlice n f).strdesc = s.strdesc := rfl
@[simp] theorem State.modSlice_signals (s : State) (n : Nat) (f : Slice → Slice) : (s.modSlice n f).signals = s.signals := rfl
@[simp] theorem State.modSlice_nsignals (s : State) (n : Nat) (f : Slice → Slice) : (s.modSlice n f).nsignals = s.nsignals := rfl
@[simp] theorem State.modSlice_answers (s : State) (n : Nat) (f : Slice → Slice) : (s.modSlice n f).answers = s.answers := rfl
@[simp] theorem State.modSlice_jobs (s : State) (n : Nat) (f : Slice → Slice) : (s.modSlice n f).jobs = s.jobs := rfl
@[simp] theorem State.modSlice_jobSeq (s : State) (n : Nat) (f : Slice → Slice) : (s.modSlice n f).jobSeq = s.jobSeq := rfl
@[simp] theorem State.modSlice_placements (s : State) (n : Nat) (f : Slice → Slice) : (s.modSlice n f).placements = s.placements := rfl
@[simp] theorem State.modSlice_lastCol (s : State) (n : Nat) (f : Slice → Slice) : (s.modSlice n f).lastCol = s.lastCol := rfl
@[simp] theorem State.modSlice_stations (s : State) (n : Nat) (f : Slice → Slice) : (s.modSlice n f).stations = s.stations := rfl
@[simp] theorem State.modSlice_loops (s : State) (n : Nat) (f : Slice → Slice) : (s.modSlice n f).loops = s.loops := rfl
@[simp] theorem State.modSlice_ports (s : State) (n : Nat) (f : Slice → Slice) : (s.modSlice n f).ports = s.ports := rfl
@[simp] theorem State.modSlice_sysroutes (s : State) (n : Nat) (f : Slice → Slice) : (s.modSlice n f).sysroutes = s.sysroutes := rfl
@[simp] theorem State.modSlice_heldRoutes (s : State) (n : Nat) (f : Slice → Slice) : (s.modSlice n f).heldRoutes = s.heldRoutes := rfl
@[simp] theorem State.modSlice_bubbles (s : State) (n : Nat) (f : Slice → Slice) : (s.modSlice n f).bubbles = s.bubbles := rfl
@[simp] theorem State.modSlice_peerOut (s : State) (n : Nat) (f : Slice → Slice) : (s.modSlice n f).peerOut = s.peerOut := rfl
@[simp] theorem State.modSlice_recs (s : State) (n : Nat) (f : Slice → Slice) : (s.modSlice n f).recs = s.recs := rfl
@[simp] theorem State.modSlice_errCounts (s : State) (n : Nat) (f : Slice → Slice) : (s.modSlice n f).errCounts = s.errCounts := rfl
@[simp] theorem State.modSlice_errThreshold (s : State) (n : Nat) (f : Slice → Slice) : (s.modSlice n f).errThreshold = s.errThreshold := rfl
@[simp] theorem State.modSlice_errWindow (s : State) (n : Nat) (f : Slice → Slice) : (s.modSlice n f).errWindow = s.errWindow := rfl
@[simp] theorem State.modSlice_vecs (s : State) (n : Nat) (f : Slice → Slice) : (s.modSlice n f).vecs = s.vecs := rfl
@[simp] theorem State.modSlice_mailbox (s : State) (n : Nat) (f : Slice → Slice) : (s.modSlice n f).mailbox = s.mailbox := rfl
@[simp] theorem State.modSlice_fw (s : State) (n : Nat) (f : Slice → Slice) : (s.modSlice n f).fw = s.fw := rfl
@[simp] theorem State.modSlice_mapSeq (s : State) (n : Nat) (f : Slice → Slice) : (s.modSlice n f).mapSeq = s.mapSeq := rfl
@[simp] theorem State.modSlice_mapStale (s : State) (n : Nat) (f : Slice → Slice) : (s.modSlice n f).mapStale = s.mapStale := rfl
@[simp] theorem State.modSlice_mapNext (s : State) (n : Nat) (f : Slice → Slice) : (s.modSlice n f).mapNext = s.mapNext := rfl
@[simp] theorem State.modSlice_hostRead (s : State) (n : Nat) (f : Slice → Slice) : (s.modSlice n f).hostRead = s.hostRead := rfl
@[simp] theorem State.modSlice_spareUsed (s : State) (n : Nat) (f : Slice → Slice) : (s.modSlice n f).spareUsed = s.spareUsed := rfl
@[simp] theorem State.modSlice_fuses (s : State) (n : Nat) (f : Slice → Slice) : (s.modSlice n f).fuses = s.fuses := rfl
@[simp] theorem State.modSlice_attestA (s : State) (n : Nat) (f : Slice → Slice) : (s.modSlice n f).attestA = s.attestA := rfl
@[simp] theorem State.modSlice_attestLog (s : State) (n : Nat) (f : Slice → Slice) : (s.modSlice n f).attestLog = s.attestLog := rfl
@[simp] theorem State.modSlice_attestOut (s : State) (n : Nat) (f : Slice → Slice) : (s.modSlice n f).attestOut = s.attestOut := rfl
@[simp] theorem State.modSlice_booted (s : State) (n : Nat) (f : Slice → Slice) : (s.modSlice n f).booted = s.booted := rfl
@[simp] theorem State.modSlice_halted (s : State) (n : Nat) (f : Slice → Slice) : (s.modSlice n f).halted = s.halted := rfl
@[simp] theorem State.modSlice_received (s : State) (n : Nat) (f : Slice → Slice) : (s.modSlice n f).received = s.received := rfl
@[simp] theorem State.modSlice_loads (s : State) (n : Nat) (f : Slice → Slice) : (s.modSlice n f).loads = s.loads := rfl
@[simp] theorem State.modSlice_deviceCap (s : State) (n : Nat) (f : Slice → Slice) : (s.modSlice n f).deviceCap = s.deviceCap := rfl
@[simp] theorem State.modSlice_checkpoint (s : State) (n : Nat) (f : Slice → Slice) : (s.modSlice n f).checkpoint = s.checkpoint := rfl
@[simp] theorem State.modSlice_dispatch (s : State) (n : Nat) (f : Slice → Slice) : (s.modSlice n f).dispatch = s.dispatch := rfl

@[simp] theorem State.setByte_agenda (s : State) (a : Nat) (v : Byte) : (s.setByte a v).agenda = s.agenda := rfl
@[simp] theorem State.setByte_tick (s : State) (a : Nat) (v : Byte) : (s.setByte a v).tick = s.tick := rfl
@[simp] theorem State.setByte_tsc (s : State) (a : Nat) (v : Byte) : (s.setByte a v).tsc = s.tsc := rfl
@[simp] theorem State.setByte_cur (s : State) (a : Nat) (v : Byte) : (s.setByte a v).cur = s.cur := rfl
@[simp] theorem State.setByte_ctxs (s : State) (a : Nat) (v : Byte) : (s.setByte a v).ctxs = s.ctxs := rfl
@[simp] theorem State.setByte_cells (s : State) (a : Nat) (v : Byte) : (s.setByte a v).cells = s.cells := rfl
@[simp] theorem State.setByte_cols (s : State) (a : Nat) (v : Byte) : (s.setByte a v).cols = s.cols := rfl
@[simp] theorem State.setByte_parts (s : State) (a : Nat) (v : Byte) : (s.setByte a v).parts = s.parts := rfl
@[simp] theorem State.setByte_spaces (s : State) (a : Nat) (v : Byte) : (s.setByte a v).spaces = s.spaces := rfl
@[simp] theorem State.setByte_bad (s : State) (a : Nat) (v : Byte) : (s.setByte a v).bad = s.bad := rfl
@[simp] theorem State.setByte_badL2 (s : State) (a : Nat) (v : Byte) : (s.setByte a v).badL2 = s.badL2 := rfl
@[simp] theorem State.setByte_badWords (s : State) (a : Nat) (v : Byte) : (s.setByte a v).badWords = s.badWords := rfl
@[simp] theorem State.setByte_outer (s : State) (a : Nat) (v : Byte) : (s.setByte a v).outer = s.outer := rfl
@[simp] theorem State.setByte_l2 (s : State) (a : Nat) (v : Byte) : (s.setByte a v).l2 = s.l2 := rfl
@[simp] theorem State.setByte_slices (s : State) (a : Nat) (v : Byte) : (s.setByte a v).slices = s.slices := rfl
@[simp] theorem State.setByte_reqs (s : State) (a : Nat) (v : Byte) : (s.setByte a v).reqs = s.reqs := rfl
@[simp] theorem State.setByte_refused (s : State) (a : Nat) (v : Byte) : (s.setByte a v).refused = s.refused := rfl
@[simp] theorem State.setByte_kept (s : State) (a : Nat) (v : Byte) : (s.setByte a v).kept = s.kept := rfl
@[simp] theorem State.setByte_deliveries (s : State) (a : Nat) (v : Byte) : (s.setByte a v).deliveries = s.deliveries := rfl
@[simp] theorem State.setByte_stores (s : State) (a : Nat) (v : Byte) : (s.setByte a v).stores = s.stores := rfl
@[simp] theorem State.setByte_passes (s : State) (a : Nat) (v : Byte) : (s.setByte a v).passes = s.passes := rfl
@[simp] theorem State.setByte_notices (s : State) (a : Nat) (v : Byte) : (s.setByte a v).notices = s.notices := rfl
@[simp] theorem State.setByte_homes (s : State) (a : Nat) (v : Byte) : (s.setByte a v).homes = s.homes := rfl
@[simp] theorem State.setByte_stamp (s : State) (a : Nat) (v : Byte) : (s.setByte a v).stamp = s.stamp := rfl
@[simp] theorem State.setByte_barReqs (s : State) (a : Nat) (v : Byte) : (s.setByte a v).barReqs = s.barReqs := rfl
@[simp] theorem State.setByte_barRets (s : State) (a : Nat) (v : Byte) : (s.setByte a v).barRets = s.barRets := rfl
@[simp] theorem State.setByte_images (s : State) (a : Nat) (v : Byte) : (s.setByte a v).images = s.images := rfl
@[simp] theorem State.setByte_labelJobs (s : State) (a : Nat) (v : Byte) : (s.setByte a v).labelJobs = s.labelJobs := rfl
@[simp] theorem State.setByte_rewrites (s : State) (a : Nat) (v : Byte) : (s.setByte a v).rewrites = s.rewrites := rfl
@[simp] theorem State.setByte_nogoods (s : State) (a : Nat) (v : Byte) : (s.setByte a v).nogoods = s.nogoods := rfl
@[simp] theorem State.setByte_compacts (s : State) (a : Nat) (v : Byte) : (s.setByte a v).compacts = s.compacts := rfl
@[simp] theorem State.setByte_claims (s : State) (a : Nat) (v : Byte) : (s.setByte a v).claims = s.claims := rfl
@[simp] theorem State.setByte_claimReqs (s : State) (a : Nat) (v : Byte) : (s.setByte a v).claimReqs = s.claimReqs := rfl
@[simp] theorem State.setByte_claimRets (s : State) (a : Nat) (v : Byte) : (s.setByte a v).claimRets = s.claimRets := rfl
@[simp] theorem State.setByte_claimOuts (s : State) (a : Nat) (v : Byte) : (s.setByte a v).claimOuts = s.claimOuts := rfl
@[simp] theorem State.setByte_walks (s : State) (a : Nat) (v : Byte) : (s.setByte a v).walks = s.walks := rfl
@[simp] theorem State.setByte_credits (s : State) (a : Nat) (v : Byte) : (s.setByte a v).credits = s.credits := rfl
@[simp] theorem State.setByte_slotRets (s : State) (a : Nat) (v : Byte) : (s.setByte a v).slotRets = s.slotRets := rfl
@[simp] theorem State.setByte_frames (s : State) (a : Nat) (v : Byte) : (s.setByte a v).frames = s.frames := rfl
@[simp] theorem State.setByte_streams (s : State) (a : Nat) (v : Byte) : (s.setByte a v).streams = s.streams := rfl
@[simp] theorem State.setByte_encs (s : State) (a : Nat) (v : Byte) : (s.setByte a v).encs = s.encs := rfl
@[simp] theorem State.setByte_frameCount (s : State) (a : Nat) (v : Byte) : (s.setByte a v).frameCount = s.frameCount := rfl
@[simp] theorem State.setByte_strdesc (s : State) (a : Nat) (v : Byte) : (s.setByte a v).strdesc = s.strdesc := rfl
@[simp] theorem State.setByte_signals (s : State) (a : Nat) (v : Byte) : (s.setByte a v).signals = s.signals := rfl
@[simp] theorem State.setByte_nsignals (s : State) (a : Nat) (v : Byte) : (s.setByte a v).nsignals = s.nsignals := rfl
@[simp] theorem State.setByte_answers (s : State) (a : Nat) (v : Byte) : (s.setByte a v).answers = s.answers := rfl
@[simp] theorem State.setByte_jobs (s : State) (a : Nat) (v : Byte) : (s.setByte a v).jobs = s.jobs := rfl
@[simp] theorem State.setByte_jobSeq (s : State) (a : Nat) (v : Byte) : (s.setByte a v).jobSeq = s.jobSeq := rfl
@[simp] theorem State.setByte_placements (s : State) (a : Nat) (v : Byte) : (s.setByte a v).placements = s.placements := rfl
@[simp] theorem State.setByte_lastCol (s : State) (a : Nat) (v : Byte) : (s.setByte a v).lastCol = s.lastCol := rfl
@[simp] theorem State.setByte_stations (s : State) (a : Nat) (v : Byte) : (s.setByte a v).stations = s.stations := rfl
@[simp] theorem State.setByte_loops (s : State) (a : Nat) (v : Byte) : (s.setByte a v).loops = s.loops := rfl
@[simp] theorem State.setByte_ports (s : State) (a : Nat) (v : Byte) : (s.setByte a v).ports = s.ports := rfl
@[simp] theorem State.setByte_sysroutes (s : State) (a : Nat) (v : Byte) : (s.setByte a v).sysroutes = s.sysroutes := rfl
@[simp] theorem State.setByte_heldRoutes (s : State) (a : Nat) (v : Byte) : (s.setByte a v).heldRoutes = s.heldRoutes := rfl
@[simp] theorem State.setByte_bubbles (s : State) (a : Nat) (v : Byte) : (s.setByte a v).bubbles = s.bubbles := rfl
@[simp] theorem State.setByte_peerOut (s : State) (a : Nat) (v : Byte) : (s.setByte a v).peerOut = s.peerOut := rfl
@[simp] theorem State.setByte_recs (s : State) (a : Nat) (v : Byte) : (s.setByte a v).recs = s.recs := rfl
@[simp] theorem State.setByte_errCounts (s : State) (a : Nat) (v : Byte) : (s.setByte a v).errCounts = s.errCounts := rfl
@[simp] theorem State.setByte_errThreshold (s : State) (a : Nat) (v : Byte) : (s.setByte a v).errThreshold = s.errThreshold := rfl
@[simp] theorem State.setByte_errWindow (s : State) (a : Nat) (v : Byte) : (s.setByte a v).errWindow = s.errWindow := rfl
@[simp] theorem State.setByte_vecs (s : State) (a : Nat) (v : Byte) : (s.setByte a v).vecs = s.vecs := rfl
@[simp] theorem State.setByte_mailbox (s : State) (a : Nat) (v : Byte) : (s.setByte a v).mailbox = s.mailbox := rfl
@[simp] theorem State.setByte_fw (s : State) (a : Nat) (v : Byte) : (s.setByte a v).fw = s.fw := rfl
@[simp] theorem State.setByte_mapSeq (s : State) (a : Nat) (v : Byte) : (s.setByte a v).mapSeq = s.mapSeq := rfl
@[simp] theorem State.setByte_mapStale (s : State) (a : Nat) (v : Byte) : (s.setByte a v).mapStale = s.mapStale := rfl
@[simp] theorem State.setByte_mapNext (s : State) (a : Nat) (v : Byte) : (s.setByte a v).mapNext = s.mapNext := rfl
@[simp] theorem State.setByte_hostRead (s : State) (a : Nat) (v : Byte) : (s.setByte a v).hostRead = s.hostRead := rfl
@[simp] theorem State.setByte_spareUsed (s : State) (a : Nat) (v : Byte) : (s.setByte a v).spareUsed = s.spareUsed := rfl
@[simp] theorem State.setByte_fuses (s : State) (a : Nat) (v : Byte) : (s.setByte a v).fuses = s.fuses := rfl
@[simp] theorem State.setByte_attestA (s : State) (a : Nat) (v : Byte) : (s.setByte a v).attestA = s.attestA := rfl
@[simp] theorem State.setByte_attestLog (s : State) (a : Nat) (v : Byte) : (s.setByte a v).attestLog = s.attestLog := rfl
@[simp] theorem State.setByte_attestOut (s : State) (a : Nat) (v : Byte) : (s.setByte a v).attestOut = s.attestOut := rfl
@[simp] theorem State.setByte_booted (s : State) (a : Nat) (v : Byte) : (s.setByte a v).booted = s.booted := rfl
@[simp] theorem State.setByte_halted (s : State) (a : Nat) (v : Byte) : (s.setByte a v).halted = s.halted := rfl
@[simp] theorem State.setByte_received (s : State) (a : Nat) (v : Byte) : (s.setByte a v).received = s.received := rfl
@[simp] theorem State.setByte_loads (s : State) (a : Nat) (v : Byte) : (s.setByte a v).loads = s.loads := rfl
@[simp] theorem State.setByte_deviceCap (s : State) (a : Nat) (v : Byte) : (s.setByte a v).deviceCap = s.deviceCap := rfl
@[simp] theorem State.setByte_checkpoint (s : State) (a : Nat) (v : Byte) : (s.setByte a v).checkpoint = s.checkpoint := rfl
@[simp] theorem State.setByte_dispatch (s : State) (a : Nat) (v : Byte) : (s.setByte a v).dispatch = s.dispatch := rfl

@[simp] theorem State.setBytes_agenda (s : State) (l : List (Nat × Byte)) : (s.setBytes l).agenda = s.agenda := rfl
@[simp] theorem State.setBytes_tick (s : State) (l : List (Nat × Byte)) : (s.setBytes l).tick = s.tick := rfl
@[simp] theorem State.setBytes_tsc (s : State) (l : List (Nat × Byte)) : (s.setBytes l).tsc = s.tsc := rfl
@[simp] theorem State.setBytes_cur (s : State) (l : List (Nat × Byte)) : (s.setBytes l).cur = s.cur := rfl
@[simp] theorem State.setBytes_ctxs (s : State) (l : List (Nat × Byte)) : (s.setBytes l).ctxs = s.ctxs := rfl
@[simp] theorem State.setBytes_cells (s : State) (l : List (Nat × Byte)) : (s.setBytes l).cells = s.cells := rfl
@[simp] theorem State.setBytes_cols (s : State) (l : List (Nat × Byte)) : (s.setBytes l).cols = s.cols := rfl
@[simp] theorem State.setBytes_parts (s : State) (l : List (Nat × Byte)) : (s.setBytes l).parts = s.parts := rfl
@[simp] theorem State.setBytes_spaces (s : State) (l : List (Nat × Byte)) : (s.setBytes l).spaces = s.spaces := rfl
@[simp] theorem State.setBytes_bad (s : State) (l : List (Nat × Byte)) : (s.setBytes l).bad = s.bad := rfl
@[simp] theorem State.setBytes_badL2 (s : State) (l : List (Nat × Byte)) : (s.setBytes l).badL2 = s.badL2 := rfl
@[simp] theorem State.setBytes_badWords (s : State) (l : List (Nat × Byte)) : (s.setBytes l).badWords = s.badWords := rfl
@[simp] theorem State.setBytes_outer (s : State) (l : List (Nat × Byte)) : (s.setBytes l).outer = s.outer := rfl
@[simp] theorem State.setBytes_l2 (s : State) (l : List (Nat × Byte)) : (s.setBytes l).l2 = s.l2 := rfl
@[simp] theorem State.setBytes_slices (s : State) (l : List (Nat × Byte)) : (s.setBytes l).slices = s.slices := rfl
@[simp] theorem State.setBytes_reqs (s : State) (l : List (Nat × Byte)) : (s.setBytes l).reqs = s.reqs := rfl
@[simp] theorem State.setBytes_refused (s : State) (l : List (Nat × Byte)) : (s.setBytes l).refused = s.refused := rfl
@[simp] theorem State.setBytes_kept (s : State) (l : List (Nat × Byte)) : (s.setBytes l).kept = s.kept := rfl
@[simp] theorem State.setBytes_deliveries (s : State) (l : List (Nat × Byte)) : (s.setBytes l).deliveries = s.deliveries := rfl
@[simp] theorem State.setBytes_stores (s : State) (l : List (Nat × Byte)) : (s.setBytes l).stores = s.stores := rfl
@[simp] theorem State.setBytes_passes (s : State) (l : List (Nat × Byte)) : (s.setBytes l).passes = s.passes := rfl
@[simp] theorem State.setBytes_notices (s : State) (l : List (Nat × Byte)) : (s.setBytes l).notices = s.notices := rfl
@[simp] theorem State.setBytes_homes (s : State) (l : List (Nat × Byte)) : (s.setBytes l).homes = s.homes := rfl
@[simp] theorem State.setBytes_stamp (s : State) (l : List (Nat × Byte)) : (s.setBytes l).stamp = s.stamp := rfl
@[simp] theorem State.setBytes_barReqs (s : State) (l : List (Nat × Byte)) : (s.setBytes l).barReqs = s.barReqs := rfl
@[simp] theorem State.setBytes_barRets (s : State) (l : List (Nat × Byte)) : (s.setBytes l).barRets = s.barRets := rfl
@[simp] theorem State.setBytes_images (s : State) (l : List (Nat × Byte)) : (s.setBytes l).images = s.images := rfl
@[simp] theorem State.setBytes_labelJobs (s : State) (l : List (Nat × Byte)) : (s.setBytes l).labelJobs = s.labelJobs := rfl
@[simp] theorem State.setBytes_rewrites (s : State) (l : List (Nat × Byte)) : (s.setBytes l).rewrites = s.rewrites := rfl
@[simp] theorem State.setBytes_nogoods (s : State) (l : List (Nat × Byte)) : (s.setBytes l).nogoods = s.nogoods := rfl
@[simp] theorem State.setBytes_compacts (s : State) (l : List (Nat × Byte)) : (s.setBytes l).compacts = s.compacts := rfl
@[simp] theorem State.setBytes_claims (s : State) (l : List (Nat × Byte)) : (s.setBytes l).claims = s.claims := rfl
@[simp] theorem State.setBytes_claimReqs (s : State) (l : List (Nat × Byte)) : (s.setBytes l).claimReqs = s.claimReqs := rfl
@[simp] theorem State.setBytes_claimRets (s : State) (l : List (Nat × Byte)) : (s.setBytes l).claimRets = s.claimRets := rfl
@[simp] theorem State.setBytes_claimOuts (s : State) (l : List (Nat × Byte)) : (s.setBytes l).claimOuts = s.claimOuts := rfl
@[simp] theorem State.setBytes_walks (s : State) (l : List (Nat × Byte)) : (s.setBytes l).walks = s.walks := rfl
@[simp] theorem State.setBytes_credits (s : State) (l : List (Nat × Byte)) : (s.setBytes l).credits = s.credits := rfl
@[simp] theorem State.setBytes_slotRets (s : State) (l : List (Nat × Byte)) : (s.setBytes l).slotRets = s.slotRets := rfl
@[simp] theorem State.setBytes_frames (s : State) (l : List (Nat × Byte)) : (s.setBytes l).frames = s.frames := rfl
@[simp] theorem State.setBytes_streams (s : State) (l : List (Nat × Byte)) : (s.setBytes l).streams = s.streams := rfl
@[simp] theorem State.setBytes_encs (s : State) (l : List (Nat × Byte)) : (s.setBytes l).encs = s.encs := rfl
@[simp] theorem State.setBytes_frameCount (s : State) (l : List (Nat × Byte)) : (s.setBytes l).frameCount = s.frameCount := rfl
@[simp] theorem State.setBytes_strdesc (s : State) (l : List (Nat × Byte)) : (s.setBytes l).strdesc = s.strdesc := rfl
@[simp] theorem State.setBytes_signals (s : State) (l : List (Nat × Byte)) : (s.setBytes l).signals = s.signals := rfl
@[simp] theorem State.setBytes_nsignals (s : State) (l : List (Nat × Byte)) : (s.setBytes l).nsignals = s.nsignals := rfl
@[simp] theorem State.setBytes_answers (s : State) (l : List (Nat × Byte)) : (s.setBytes l).answers = s.answers := rfl
@[simp] theorem State.setBytes_jobs (s : State) (l : List (Nat × Byte)) : (s.setBytes l).jobs = s.jobs := rfl
@[simp] theorem State.setBytes_jobSeq (s : State) (l : List (Nat × Byte)) : (s.setBytes l).jobSeq = s.jobSeq := rfl
@[simp] theorem State.setBytes_placements (s : State) (l : List (Nat × Byte)) : (s.setBytes l).placements = s.placements := rfl
@[simp] theorem State.setBytes_lastCol (s : State) (l : List (Nat × Byte)) : (s.setBytes l).lastCol = s.lastCol := rfl
@[simp] theorem State.setBytes_stations (s : State) (l : List (Nat × Byte)) : (s.setBytes l).stations = s.stations := rfl
@[simp] theorem State.setBytes_loops (s : State) (l : List (Nat × Byte)) : (s.setBytes l).loops = s.loops := rfl
@[simp] theorem State.setBytes_ports (s : State) (l : List (Nat × Byte)) : (s.setBytes l).ports = s.ports := rfl
@[simp] theorem State.setBytes_sysroutes (s : State) (l : List (Nat × Byte)) : (s.setBytes l).sysroutes = s.sysroutes := rfl
@[simp] theorem State.setBytes_heldRoutes (s : State) (l : List (Nat × Byte)) : (s.setBytes l).heldRoutes = s.heldRoutes := rfl
@[simp] theorem State.setBytes_bubbles (s : State) (l : List (Nat × Byte)) : (s.setBytes l).bubbles = s.bubbles := rfl
@[simp] theorem State.setBytes_peerOut (s : State) (l : List (Nat × Byte)) : (s.setBytes l).peerOut = s.peerOut := rfl
@[simp] theorem State.setBytes_recs (s : State) (l : List (Nat × Byte)) : (s.setBytes l).recs = s.recs := rfl
@[simp] theorem State.setBytes_errCounts (s : State) (l : List (Nat × Byte)) : (s.setBytes l).errCounts = s.errCounts := rfl
@[simp] theorem State.setBytes_errThreshold (s : State) (l : List (Nat × Byte)) : (s.setBytes l).errThreshold = s.errThreshold := rfl
@[simp] theorem State.setBytes_errWindow (s : State) (l : List (Nat × Byte)) : (s.setBytes l).errWindow = s.errWindow := rfl
@[simp] theorem State.setBytes_vecs (s : State) (l : List (Nat × Byte)) : (s.setBytes l).vecs = s.vecs := rfl
@[simp] theorem State.setBytes_mailbox (s : State) (l : List (Nat × Byte)) : (s.setBytes l).mailbox = s.mailbox := rfl
@[simp] theorem State.setBytes_fw (s : State) (l : List (Nat × Byte)) : (s.setBytes l).fw = s.fw := rfl
@[simp] theorem State.setBytes_mapSeq (s : State) (l : List (Nat × Byte)) : (s.setBytes l).mapSeq = s.mapSeq := rfl
@[simp] theorem State.setBytes_mapStale (s : State) (l : List (Nat × Byte)) : (s.setBytes l).mapStale = s.mapStale := rfl
@[simp] theorem State.setBytes_mapNext (s : State) (l : List (Nat × Byte)) : (s.setBytes l).mapNext = s.mapNext := rfl
@[simp] theorem State.setBytes_hostRead (s : State) (l : List (Nat × Byte)) : (s.setBytes l).hostRead = s.hostRead := rfl
@[simp] theorem State.setBytes_spareUsed (s : State) (l : List (Nat × Byte)) : (s.setBytes l).spareUsed = s.spareUsed := rfl
@[simp] theorem State.setBytes_fuses (s : State) (l : List (Nat × Byte)) : (s.setBytes l).fuses = s.fuses := rfl
@[simp] theorem State.setBytes_attestA (s : State) (l : List (Nat × Byte)) : (s.setBytes l).attestA = s.attestA := rfl
@[simp] theorem State.setBytes_attestLog (s : State) (l : List (Nat × Byte)) : (s.setBytes l).attestLog = s.attestLog := rfl
@[simp] theorem State.setBytes_attestOut (s : State) (l : List (Nat × Byte)) : (s.setBytes l).attestOut = s.attestOut := rfl
@[simp] theorem State.setBytes_booted (s : State) (l : List (Nat × Byte)) : (s.setBytes l).booted = s.booted := rfl
@[simp] theorem State.setBytes_halted (s : State) (l : List (Nat × Byte)) : (s.setBytes l).halted = s.halted := rfl
@[simp] theorem State.setBytes_received (s : State) (l : List (Nat × Byte)) : (s.setBytes l).received = s.received := rfl
@[simp] theorem State.setBytes_loads (s : State) (l : List (Nat × Byte)) : (s.setBytes l).loads = s.loads := rfl
@[simp] theorem State.setBytes_deviceCap (s : State) (l : List (Nat × Byte)) : (s.setBytes l).deviceCap = s.deviceCap := rfl
@[simp] theorem State.setBytes_checkpoint (s : State) (l : List (Nat × Byte)) : (s.setBytes l).checkpoint = s.checkpoint := rfl
@[simp] theorem State.setBytes_dispatch (s : State) (l : List (Nat × Byte)) : (s.setBytes l).dispatch = s.dispatch := rfl

@[simp] theorem State.setNum_agenda (s : State) (a n v : Nat) : (s.setNum a n v).agenda = s.agenda := rfl
@[simp] theorem State.setNum_tick (s : State) (a n v : Nat) : (s.setNum a n v).tick = s.tick := rfl
@[simp] theorem State.setNum_tsc (s : State) (a n v : Nat) : (s.setNum a n v).tsc = s.tsc := rfl
@[simp] theorem State.setNum_cur (s : State) (a n v : Nat) : (s.setNum a n v).cur = s.cur := rfl
@[simp] theorem State.setNum_ctxs (s : State) (a n v : Nat) : (s.setNum a n v).ctxs = s.ctxs := rfl
@[simp] theorem State.setNum_cells (s : State) (a n v : Nat) : (s.setNum a n v).cells = s.cells := rfl
@[simp] theorem State.setNum_cols (s : State) (a n v : Nat) : (s.setNum a n v).cols = s.cols := rfl
@[simp] theorem State.setNum_parts (s : State) (a n v : Nat) : (s.setNum a n v).parts = s.parts := rfl
@[simp] theorem State.setNum_spaces (s : State) (a n v : Nat) : (s.setNum a n v).spaces = s.spaces := rfl
@[simp] theorem State.setNum_bad (s : State) (a n v : Nat) : (s.setNum a n v).bad = s.bad := rfl
@[simp] theorem State.setNum_badL2 (s : State) (a n v : Nat) : (s.setNum a n v).badL2 = s.badL2 := rfl
@[simp] theorem State.setNum_badWords (s : State) (a n v : Nat) : (s.setNum a n v).badWords = s.badWords := rfl
@[simp] theorem State.setNum_outer (s : State) (a n v : Nat) : (s.setNum a n v).outer = s.outer := rfl
@[simp] theorem State.setNum_l2 (s : State) (a n v : Nat) : (s.setNum a n v).l2 = s.l2 := rfl
@[simp] theorem State.setNum_slices (s : State) (a n v : Nat) : (s.setNum a n v).slices = s.slices := rfl
@[simp] theorem State.setNum_reqs (s : State) (a n v : Nat) : (s.setNum a n v).reqs = s.reqs := rfl
@[simp] theorem State.setNum_refused (s : State) (a n v : Nat) : (s.setNum a n v).refused = s.refused := rfl
@[simp] theorem State.setNum_kept (s : State) (a n v : Nat) : (s.setNum a n v).kept = s.kept := rfl
@[simp] theorem State.setNum_deliveries (s : State) (a n v : Nat) : (s.setNum a n v).deliveries = s.deliveries := rfl
@[simp] theorem State.setNum_stores (s : State) (a n v : Nat) : (s.setNum a n v).stores = s.stores := rfl
@[simp] theorem State.setNum_passes (s : State) (a n v : Nat) : (s.setNum a n v).passes = s.passes := rfl
@[simp] theorem State.setNum_notices (s : State) (a n v : Nat) : (s.setNum a n v).notices = s.notices := rfl
@[simp] theorem State.setNum_homes (s : State) (a n v : Nat) : (s.setNum a n v).homes = s.homes := rfl
@[simp] theorem State.setNum_stamp (s : State) (a n v : Nat) : (s.setNum a n v).stamp = s.stamp := rfl
@[simp] theorem State.setNum_barReqs (s : State) (a n v : Nat) : (s.setNum a n v).barReqs = s.barReqs := rfl
@[simp] theorem State.setNum_barRets (s : State) (a n v : Nat) : (s.setNum a n v).barRets = s.barRets := rfl
@[simp] theorem State.setNum_images (s : State) (a n v : Nat) : (s.setNum a n v).images = s.images := rfl
@[simp] theorem State.setNum_labelJobs (s : State) (a n v : Nat) : (s.setNum a n v).labelJobs = s.labelJobs := rfl
@[simp] theorem State.setNum_rewrites (s : State) (a n v : Nat) : (s.setNum a n v).rewrites = s.rewrites := rfl
@[simp] theorem State.setNum_nogoods (s : State) (a n v : Nat) : (s.setNum a n v).nogoods = s.nogoods := rfl
@[simp] theorem State.setNum_compacts (s : State) (a n v : Nat) : (s.setNum a n v).compacts = s.compacts := rfl
@[simp] theorem State.setNum_claims (s : State) (a n v : Nat) : (s.setNum a n v).claims = s.claims := rfl
@[simp] theorem State.setNum_claimReqs (s : State) (a n v : Nat) : (s.setNum a n v).claimReqs = s.claimReqs := rfl
@[simp] theorem State.setNum_claimRets (s : State) (a n v : Nat) : (s.setNum a n v).claimRets = s.claimRets := rfl
@[simp] theorem State.setNum_claimOuts (s : State) (a n v : Nat) : (s.setNum a n v).claimOuts = s.claimOuts := rfl
@[simp] theorem State.setNum_walks (s : State) (a n v : Nat) : (s.setNum a n v).walks = s.walks := rfl
@[simp] theorem State.setNum_credits (s : State) (a n v : Nat) : (s.setNum a n v).credits = s.credits := rfl
@[simp] theorem State.setNum_slotRets (s : State) (a n v : Nat) : (s.setNum a n v).slotRets = s.slotRets := rfl
@[simp] theorem State.setNum_frames (s : State) (a n v : Nat) : (s.setNum a n v).frames = s.frames := rfl
@[simp] theorem State.setNum_streams (s : State) (a n v : Nat) : (s.setNum a n v).streams = s.streams := rfl
@[simp] theorem State.setNum_encs (s : State) (a n v : Nat) : (s.setNum a n v).encs = s.encs := rfl
@[simp] theorem State.setNum_frameCount (s : State) (a n v : Nat) : (s.setNum a n v).frameCount = s.frameCount := rfl
@[simp] theorem State.setNum_strdesc (s : State) (a n v : Nat) : (s.setNum a n v).strdesc = s.strdesc := rfl
@[simp] theorem State.setNum_signals (s : State) (a n v : Nat) : (s.setNum a n v).signals = s.signals := rfl
@[simp] theorem State.setNum_nsignals (s : State) (a n v : Nat) : (s.setNum a n v).nsignals = s.nsignals := rfl
@[simp] theorem State.setNum_answers (s : State) (a n v : Nat) : (s.setNum a n v).answers = s.answers := rfl
@[simp] theorem State.setNum_jobs (s : State) (a n v : Nat) : (s.setNum a n v).jobs = s.jobs := rfl
@[simp] theorem State.setNum_jobSeq (s : State) (a n v : Nat) : (s.setNum a n v).jobSeq = s.jobSeq := rfl
@[simp] theorem State.setNum_placements (s : State) (a n v : Nat) : (s.setNum a n v).placements = s.placements := rfl
@[simp] theorem State.setNum_lastCol (s : State) (a n v : Nat) : (s.setNum a n v).lastCol = s.lastCol := rfl
@[simp] theorem State.setNum_stations (s : State) (a n v : Nat) : (s.setNum a n v).stations = s.stations := rfl
@[simp] theorem State.setNum_loops (s : State) (a n v : Nat) : (s.setNum a n v).loops = s.loops := rfl
@[simp] theorem State.setNum_ports (s : State) (a n v : Nat) : (s.setNum a n v).ports = s.ports := rfl
@[simp] theorem State.setNum_sysroutes (s : State) (a n v : Nat) : (s.setNum a n v).sysroutes = s.sysroutes := rfl
@[simp] theorem State.setNum_heldRoutes (s : State) (a n v : Nat) : (s.setNum a n v).heldRoutes = s.heldRoutes := rfl
@[simp] theorem State.setNum_bubbles (s : State) (a n v : Nat) : (s.setNum a n v).bubbles = s.bubbles := rfl
@[simp] theorem State.setNum_peerOut (s : State) (a n v : Nat) : (s.setNum a n v).peerOut = s.peerOut := rfl
@[simp] theorem State.setNum_recs (s : State) (a n v : Nat) : (s.setNum a n v).recs = s.recs := rfl
@[simp] theorem State.setNum_errCounts (s : State) (a n v : Nat) : (s.setNum a n v).errCounts = s.errCounts := rfl
@[simp] theorem State.setNum_errThreshold (s : State) (a n v : Nat) : (s.setNum a n v).errThreshold = s.errThreshold := rfl
@[simp] theorem State.setNum_errWindow (s : State) (a n v : Nat) : (s.setNum a n v).errWindow = s.errWindow := rfl
@[simp] theorem State.setNum_vecs (s : State) (a n v : Nat) : (s.setNum a n v).vecs = s.vecs := rfl
@[simp] theorem State.setNum_mailbox (s : State) (a n v : Nat) : (s.setNum a n v).mailbox = s.mailbox := rfl
@[simp] theorem State.setNum_fw (s : State) (a n v : Nat) : (s.setNum a n v).fw = s.fw := rfl
@[simp] theorem State.setNum_mapSeq (s : State) (a n v : Nat) : (s.setNum a n v).mapSeq = s.mapSeq := rfl
@[simp] theorem State.setNum_mapStale (s : State) (a n v : Nat) : (s.setNum a n v).mapStale = s.mapStale := rfl
@[simp] theorem State.setNum_mapNext (s : State) (a n v : Nat) : (s.setNum a n v).mapNext = s.mapNext := rfl
@[simp] theorem State.setNum_hostRead (s : State) (a n v : Nat) : (s.setNum a n v).hostRead = s.hostRead := rfl
@[simp] theorem State.setNum_spareUsed (s : State) (a n v : Nat) : (s.setNum a n v).spareUsed = s.spareUsed := rfl
@[simp] theorem State.setNum_fuses (s : State) (a n v : Nat) : (s.setNum a n v).fuses = s.fuses := rfl
@[simp] theorem State.setNum_attestA (s : State) (a n v : Nat) : (s.setNum a n v).attestA = s.attestA := rfl
@[simp] theorem State.setNum_attestLog (s : State) (a n v : Nat) : (s.setNum a n v).attestLog = s.attestLog := rfl
@[simp] theorem State.setNum_attestOut (s : State) (a n v : Nat) : (s.setNum a n v).attestOut = s.attestOut := rfl
@[simp] theorem State.setNum_booted (s : State) (a n v : Nat) : (s.setNum a n v).booted = s.booted := rfl
@[simp] theorem State.setNum_halted (s : State) (a n v : Nat) : (s.setNum a n v).halted = s.halted := rfl
@[simp] theorem State.setNum_received (s : State) (a n v : Nat) : (s.setNum a n v).received = s.received := rfl
@[simp] theorem State.setNum_loads (s : State) (a n v : Nat) : (s.setNum a n v).loads = s.loads := rfl
@[simp] theorem State.setNum_deviceCap (s : State) (a n v : Nat) : (s.setNum a n v).deviceCap = s.deviceCap := rfl
@[simp] theorem State.setNum_checkpoint (s : State) (a n v : Nat) : (s.setNum a n v).checkpoint = s.checkpoint := rfl
@[simp] theorem State.setNum_dispatch (s : State) (a n v : Nat) : (s.setNum a n v).dispatch = s.dispatch := rfl

@[simp] theorem State.setWord_agenda (s : State) (a : Nat) (v : Word) : (s.setWord a v).agenda = s.agenda := rfl
@[simp] theorem State.setWord_tick (s : State) (a : Nat) (v : Word) : (s.setWord a v).tick = s.tick := rfl
@[simp] theorem State.setWord_tsc (s : State) (a : Nat) (v : Word) : (s.setWord a v).tsc = s.tsc := rfl
@[simp] theorem State.setWord_cur (s : State) (a : Nat) (v : Word) : (s.setWord a v).cur = s.cur := rfl
@[simp] theorem State.setWord_ctxs (s : State) (a : Nat) (v : Word) : (s.setWord a v).ctxs = s.ctxs := rfl
@[simp] theorem State.setWord_cells (s : State) (a : Nat) (v : Word) : (s.setWord a v).cells = s.cells := rfl
@[simp] theorem State.setWord_cols (s : State) (a : Nat) (v : Word) : (s.setWord a v).cols = s.cols := rfl
@[simp] theorem State.setWord_parts (s : State) (a : Nat) (v : Word) : (s.setWord a v).parts = s.parts := rfl
@[simp] theorem State.setWord_spaces (s : State) (a : Nat) (v : Word) : (s.setWord a v).spaces = s.spaces := rfl
@[simp] theorem State.setWord_bad (s : State) (a : Nat) (v : Word) : (s.setWord a v).bad = s.bad := rfl
@[simp] theorem State.setWord_badL2 (s : State) (a : Nat) (v : Word) : (s.setWord a v).badL2 = s.badL2 := rfl
@[simp] theorem State.setWord_badWords (s : State) (a : Nat) (v : Word) : (s.setWord a v).badWords = s.badWords := rfl
@[simp] theorem State.setWord_outer (s : State) (a : Nat) (v : Word) : (s.setWord a v).outer = s.outer := rfl
@[simp] theorem State.setWord_l2 (s : State) (a : Nat) (v : Word) : (s.setWord a v).l2 = s.l2 := rfl
@[simp] theorem State.setWord_slices (s : State) (a : Nat) (v : Word) : (s.setWord a v).slices = s.slices := rfl
@[simp] theorem State.setWord_reqs (s : State) (a : Nat) (v : Word) : (s.setWord a v).reqs = s.reqs := rfl
@[simp] theorem State.setWord_refused (s : State) (a : Nat) (v : Word) : (s.setWord a v).refused = s.refused := rfl
@[simp] theorem State.setWord_kept (s : State) (a : Nat) (v : Word) : (s.setWord a v).kept = s.kept := rfl
@[simp] theorem State.setWord_deliveries (s : State) (a : Nat) (v : Word) : (s.setWord a v).deliveries = s.deliveries := rfl
@[simp] theorem State.setWord_stores (s : State) (a : Nat) (v : Word) : (s.setWord a v).stores = s.stores := rfl
@[simp] theorem State.setWord_passes (s : State) (a : Nat) (v : Word) : (s.setWord a v).passes = s.passes := rfl
@[simp] theorem State.setWord_notices (s : State) (a : Nat) (v : Word) : (s.setWord a v).notices = s.notices := rfl
@[simp] theorem State.setWord_homes (s : State) (a : Nat) (v : Word) : (s.setWord a v).homes = s.homes := rfl
@[simp] theorem State.setWord_stamp (s : State) (a : Nat) (v : Word) : (s.setWord a v).stamp = s.stamp := rfl
@[simp] theorem State.setWord_barReqs (s : State) (a : Nat) (v : Word) : (s.setWord a v).barReqs = s.barReqs := rfl
@[simp] theorem State.setWord_barRets (s : State) (a : Nat) (v : Word) : (s.setWord a v).barRets = s.barRets := rfl
@[simp] theorem State.setWord_images (s : State) (a : Nat) (v : Word) : (s.setWord a v).images = s.images := rfl
@[simp] theorem State.setWord_labelJobs (s : State) (a : Nat) (v : Word) : (s.setWord a v).labelJobs = s.labelJobs := rfl
@[simp] theorem State.setWord_rewrites (s : State) (a : Nat) (v : Word) : (s.setWord a v).rewrites = s.rewrites := rfl
@[simp] theorem State.setWord_nogoods (s : State) (a : Nat) (v : Word) : (s.setWord a v).nogoods = s.nogoods := rfl
@[simp] theorem State.setWord_compacts (s : State) (a : Nat) (v : Word) : (s.setWord a v).compacts = s.compacts := rfl
@[simp] theorem State.setWord_claims (s : State) (a : Nat) (v : Word) : (s.setWord a v).claims = s.claims := rfl
@[simp] theorem State.setWord_claimReqs (s : State) (a : Nat) (v : Word) : (s.setWord a v).claimReqs = s.claimReqs := rfl
@[simp] theorem State.setWord_claimRets (s : State) (a : Nat) (v : Word) : (s.setWord a v).claimRets = s.claimRets := rfl
@[simp] theorem State.setWord_claimOuts (s : State) (a : Nat) (v : Word) : (s.setWord a v).claimOuts = s.claimOuts := rfl
@[simp] theorem State.setWord_walks (s : State) (a : Nat) (v : Word) : (s.setWord a v).walks = s.walks := rfl
@[simp] theorem State.setWord_credits (s : State) (a : Nat) (v : Word) : (s.setWord a v).credits = s.credits := rfl
@[simp] theorem State.setWord_slotRets (s : State) (a : Nat) (v : Word) : (s.setWord a v).slotRets = s.slotRets := rfl
@[simp] theorem State.setWord_frames (s : State) (a : Nat) (v : Word) : (s.setWord a v).frames = s.frames := rfl
@[simp] theorem State.setWord_streams (s : State) (a : Nat) (v : Word) : (s.setWord a v).streams = s.streams := rfl
@[simp] theorem State.setWord_encs (s : State) (a : Nat) (v : Word) : (s.setWord a v).encs = s.encs := rfl
@[simp] theorem State.setWord_frameCount (s : State) (a : Nat) (v : Word) : (s.setWord a v).frameCount = s.frameCount := rfl
@[simp] theorem State.setWord_strdesc (s : State) (a : Nat) (v : Word) : (s.setWord a v).strdesc = s.strdesc := rfl
@[simp] theorem State.setWord_signals (s : State) (a : Nat) (v : Word) : (s.setWord a v).signals = s.signals := rfl
@[simp] theorem State.setWord_nsignals (s : State) (a : Nat) (v : Word) : (s.setWord a v).nsignals = s.nsignals := rfl
@[simp] theorem State.setWord_answers (s : State) (a : Nat) (v : Word) : (s.setWord a v).answers = s.answers := rfl
@[simp] theorem State.setWord_jobs (s : State) (a : Nat) (v : Word) : (s.setWord a v).jobs = s.jobs := rfl
@[simp] theorem State.setWord_jobSeq (s : State) (a : Nat) (v : Word) : (s.setWord a v).jobSeq = s.jobSeq := rfl
@[simp] theorem State.setWord_placements (s : State) (a : Nat) (v : Word) : (s.setWord a v).placements = s.placements := rfl
@[simp] theorem State.setWord_lastCol (s : State) (a : Nat) (v : Word) : (s.setWord a v).lastCol = s.lastCol := rfl
@[simp] theorem State.setWord_stations (s : State) (a : Nat) (v : Word) : (s.setWord a v).stations = s.stations := rfl
@[simp] theorem State.setWord_loops (s : State) (a : Nat) (v : Word) : (s.setWord a v).loops = s.loops := rfl
@[simp] theorem State.setWord_ports (s : State) (a : Nat) (v : Word) : (s.setWord a v).ports = s.ports := rfl
@[simp] theorem State.setWord_sysroutes (s : State) (a : Nat) (v : Word) : (s.setWord a v).sysroutes = s.sysroutes := rfl
@[simp] theorem State.setWord_heldRoutes (s : State) (a : Nat) (v : Word) : (s.setWord a v).heldRoutes = s.heldRoutes := rfl
@[simp] theorem State.setWord_bubbles (s : State) (a : Nat) (v : Word) : (s.setWord a v).bubbles = s.bubbles := rfl
@[simp] theorem State.setWord_peerOut (s : State) (a : Nat) (v : Word) : (s.setWord a v).peerOut = s.peerOut := rfl
@[simp] theorem State.setWord_recs (s : State) (a : Nat) (v : Word) : (s.setWord a v).recs = s.recs := rfl
@[simp] theorem State.setWord_errCounts (s : State) (a : Nat) (v : Word) : (s.setWord a v).errCounts = s.errCounts := rfl
@[simp] theorem State.setWord_errThreshold (s : State) (a : Nat) (v : Word) : (s.setWord a v).errThreshold = s.errThreshold := rfl
@[simp] theorem State.setWord_errWindow (s : State) (a : Nat) (v : Word) : (s.setWord a v).errWindow = s.errWindow := rfl
@[simp] theorem State.setWord_vecs (s : State) (a : Nat) (v : Word) : (s.setWord a v).vecs = s.vecs := rfl
@[simp] theorem State.setWord_mailbox (s : State) (a : Nat) (v : Word) : (s.setWord a v).mailbox = s.mailbox := rfl
@[simp] theorem State.setWord_fw (s : State) (a : Nat) (v : Word) : (s.setWord a v).fw = s.fw := rfl
@[simp] theorem State.setWord_mapSeq (s : State) (a : Nat) (v : Word) : (s.setWord a v).mapSeq = s.mapSeq := rfl
@[simp] theorem State.setWord_mapStale (s : State) (a : Nat) (v : Word) : (s.setWord a v).mapStale = s.mapStale := rfl
@[simp] theorem State.setWord_mapNext (s : State) (a : Nat) (v : Word) : (s.setWord a v).mapNext = s.mapNext := rfl
@[simp] theorem State.setWord_hostRead (s : State) (a : Nat) (v : Word) : (s.setWord a v).hostRead = s.hostRead := rfl
@[simp] theorem State.setWord_spareUsed (s : State) (a : Nat) (v : Word) : (s.setWord a v).spareUsed = s.spareUsed := rfl
@[simp] theorem State.setWord_fuses (s : State) (a : Nat) (v : Word) : (s.setWord a v).fuses = s.fuses := rfl
@[simp] theorem State.setWord_attestA (s : State) (a : Nat) (v : Word) : (s.setWord a v).attestA = s.attestA := rfl
@[simp] theorem State.setWord_attestLog (s : State) (a : Nat) (v : Word) : (s.setWord a v).attestLog = s.attestLog := rfl
@[simp] theorem State.setWord_attestOut (s : State) (a : Nat) (v : Word) : (s.setWord a v).attestOut = s.attestOut := rfl
@[simp] theorem State.setWord_booted (s : State) (a : Nat) (v : Word) : (s.setWord a v).booted = s.booted := rfl
@[simp] theorem State.setWord_halted (s : State) (a : Nat) (v : Word) : (s.setWord a v).halted = s.halted := rfl
@[simp] theorem State.setWord_received (s : State) (a : Nat) (v : Word) : (s.setWord a v).received = s.received := rfl
@[simp] theorem State.setWord_loads (s : State) (a : Nat) (v : Word) : (s.setWord a v).loads = s.loads := rfl
@[simp] theorem State.setWord_deviceCap (s : State) (a : Nat) (v : Word) : (s.setWord a v).deviceCap = s.deviceCap := rfl
@[simp] theorem State.setWord_checkpoint (s : State) (a : Nat) (v : Word) : (s.setWord a v).checkpoint = s.checkpoint := rfl
@[simp] theorem State.setWord_dispatch (s : State) (a : Nat) (v : Word) : (s.setWord a v).dispatch = s.dispatch := rfl

@[simp] theorem State.setFe_agenda (s : State) (a : Nat) (b : Bool) : (s.setFe a b).agenda = s.agenda := rfl
@[simp] theorem State.setFe_tick (s : State) (a : Nat) (b : Bool) : (s.setFe a b).tick = s.tick := rfl
@[simp] theorem State.setFe_tsc (s : State) (a : Nat) (b : Bool) : (s.setFe a b).tsc = s.tsc := rfl
@[simp] theorem State.setFe_cur (s : State) (a : Nat) (b : Bool) : (s.setFe a b).cur = s.cur := rfl
@[simp] theorem State.setFe_ctxs (s : State) (a : Nat) (b : Bool) : (s.setFe a b).ctxs = s.ctxs := rfl
@[simp] theorem State.setFe_cells (s : State) (a : Nat) (b : Bool) : (s.setFe a b).cells = s.cells := rfl
@[simp] theorem State.setFe_cols (s : State) (a : Nat) (b : Bool) : (s.setFe a b).cols = s.cols := rfl
@[simp] theorem State.setFe_parts (s : State) (a : Nat) (b : Bool) : (s.setFe a b).parts = s.parts := rfl
@[simp] theorem State.setFe_spaces (s : State) (a : Nat) (b : Bool) : (s.setFe a b).spaces = s.spaces := rfl
@[simp] theorem State.setFe_bad (s : State) (a : Nat) (b : Bool) : (s.setFe a b).bad = s.bad := rfl
@[simp] theorem State.setFe_badL2 (s : State) (a : Nat) (b : Bool) : (s.setFe a b).badL2 = s.badL2 := rfl
@[simp] theorem State.setFe_badWords (s : State) (a : Nat) (b : Bool) : (s.setFe a b).badWords = s.badWords := rfl
@[simp] theorem State.setFe_outer (s : State) (a : Nat) (b : Bool) : (s.setFe a b).outer = s.outer := rfl
@[simp] theorem State.setFe_l2 (s : State) (a : Nat) (b : Bool) : (s.setFe a b).l2 = s.l2 := rfl
@[simp] theorem State.setFe_slices (s : State) (a : Nat) (b : Bool) : (s.setFe a b).slices = s.slices := rfl
@[simp] theorem State.setFe_reqs (s : State) (a : Nat) (b : Bool) : (s.setFe a b).reqs = s.reqs := rfl
@[simp] theorem State.setFe_refused (s : State) (a : Nat) (b : Bool) : (s.setFe a b).refused = s.refused := rfl
@[simp] theorem State.setFe_kept (s : State) (a : Nat) (b : Bool) : (s.setFe a b).kept = s.kept := rfl
@[simp] theorem State.setFe_deliveries (s : State) (a : Nat) (b : Bool) : (s.setFe a b).deliveries = s.deliveries := rfl
@[simp] theorem State.setFe_stores (s : State) (a : Nat) (b : Bool) : (s.setFe a b).stores = s.stores := rfl
@[simp] theorem State.setFe_passes (s : State) (a : Nat) (b : Bool) : (s.setFe a b).passes = s.passes := rfl
@[simp] theorem State.setFe_notices (s : State) (a : Nat) (b : Bool) : (s.setFe a b).notices = s.notices := rfl
@[simp] theorem State.setFe_homes (s : State) (a : Nat) (b : Bool) : (s.setFe a b).homes = s.homes := rfl
@[simp] theorem State.setFe_stamp (s : State) (a : Nat) (b : Bool) : (s.setFe a b).stamp = s.stamp := rfl
@[simp] theorem State.setFe_barReqs (s : State) (a : Nat) (b : Bool) : (s.setFe a b).barReqs = s.barReqs := rfl
@[simp] theorem State.setFe_barRets (s : State) (a : Nat) (b : Bool) : (s.setFe a b).barRets = s.barRets := rfl
@[simp] theorem State.setFe_images (s : State) (a : Nat) (b : Bool) : (s.setFe a b).images = s.images := rfl
@[simp] theorem State.setFe_labelJobs (s : State) (a : Nat) (b : Bool) : (s.setFe a b).labelJobs = s.labelJobs := rfl
@[simp] theorem State.setFe_rewrites (s : State) (a : Nat) (b : Bool) : (s.setFe a b).rewrites = s.rewrites := rfl
@[simp] theorem State.setFe_nogoods (s : State) (a : Nat) (b : Bool) : (s.setFe a b).nogoods = s.nogoods := rfl
@[simp] theorem State.setFe_compacts (s : State) (a : Nat) (b : Bool) : (s.setFe a b).compacts = s.compacts := rfl
@[simp] theorem State.setFe_claims (s : State) (a : Nat) (b : Bool) : (s.setFe a b).claims = s.claims := rfl
@[simp] theorem State.setFe_claimReqs (s : State) (a : Nat) (b : Bool) : (s.setFe a b).claimReqs = s.claimReqs := rfl
@[simp] theorem State.setFe_claimRets (s : State) (a : Nat) (b : Bool) : (s.setFe a b).claimRets = s.claimRets := rfl
@[simp] theorem State.setFe_claimOuts (s : State) (a : Nat) (b : Bool) : (s.setFe a b).claimOuts = s.claimOuts := rfl
@[simp] theorem State.setFe_walks (s : State) (a : Nat) (b : Bool) : (s.setFe a b).walks = s.walks := rfl
@[simp] theorem State.setFe_credits (s : State) (a : Nat) (b : Bool) : (s.setFe a b).credits = s.credits := rfl
@[simp] theorem State.setFe_slotRets (s : State) (a : Nat) (b : Bool) : (s.setFe a b).slotRets = s.slotRets := rfl
@[simp] theorem State.setFe_frames (s : State) (a : Nat) (b : Bool) : (s.setFe a b).frames = s.frames := rfl
@[simp] theorem State.setFe_streams (s : State) (a : Nat) (b : Bool) : (s.setFe a b).streams = s.streams := rfl
@[simp] theorem State.setFe_encs (s : State) (a : Nat) (b : Bool) : (s.setFe a b).encs = s.encs := rfl
@[simp] theorem State.setFe_frameCount (s : State) (a : Nat) (b : Bool) : (s.setFe a b).frameCount = s.frameCount := rfl
@[simp] theorem State.setFe_strdesc (s : State) (a : Nat) (b : Bool) : (s.setFe a b).strdesc = s.strdesc := rfl
@[simp] theorem State.setFe_signals (s : State) (a : Nat) (b : Bool) : (s.setFe a b).signals = s.signals := rfl
@[simp] theorem State.setFe_nsignals (s : State) (a : Nat) (b : Bool) : (s.setFe a b).nsignals = s.nsignals := rfl
@[simp] theorem State.setFe_answers (s : State) (a : Nat) (b : Bool) : (s.setFe a b).answers = s.answers := rfl
@[simp] theorem State.setFe_jobs (s : State) (a : Nat) (b : Bool) : (s.setFe a b).jobs = s.jobs := rfl
@[simp] theorem State.setFe_jobSeq (s : State) (a : Nat) (b : Bool) : (s.setFe a b).jobSeq = s.jobSeq := rfl
@[simp] theorem State.setFe_placements (s : State) (a : Nat) (b : Bool) : (s.setFe a b).placements = s.placements := rfl
@[simp] theorem State.setFe_lastCol (s : State) (a : Nat) (b : Bool) : (s.setFe a b).lastCol = s.lastCol := rfl
@[simp] theorem State.setFe_stations (s : State) (a : Nat) (b : Bool) : (s.setFe a b).stations = s.stations := rfl
@[simp] theorem State.setFe_loops (s : State) (a : Nat) (b : Bool) : (s.setFe a b).loops = s.loops := rfl
@[simp] theorem State.setFe_ports (s : State) (a : Nat) (b : Bool) : (s.setFe a b).ports = s.ports := rfl
@[simp] theorem State.setFe_sysroutes (s : State) (a : Nat) (b : Bool) : (s.setFe a b).sysroutes = s.sysroutes := rfl
@[simp] theorem State.setFe_heldRoutes (s : State) (a : Nat) (b : Bool) : (s.setFe a b).heldRoutes = s.heldRoutes := rfl
@[simp] theorem State.setFe_bubbles (s : State) (a : Nat) (b : Bool) : (s.setFe a b).bubbles = s.bubbles := rfl
@[simp] theorem State.setFe_peerOut (s : State) (a : Nat) (b : Bool) : (s.setFe a b).peerOut = s.peerOut := rfl
@[simp] theorem State.setFe_recs (s : State) (a : Nat) (b : Bool) : (s.setFe a b).recs = s.recs := rfl
@[simp] theorem State.setFe_errCounts (s : State) (a : Nat) (b : Bool) : (s.setFe a b).errCounts = s.errCounts := rfl
@[simp] theorem State.setFe_errThreshold (s : State) (a : Nat) (b : Bool) : (s.setFe a b).errThreshold = s.errThreshold := rfl
@[simp] theorem State.setFe_errWindow (s : State) (a : Nat) (b : Bool) : (s.setFe a b).errWindow = s.errWindow := rfl
@[simp] theorem State.setFe_vecs (s : State) (a : Nat) (b : Bool) : (s.setFe a b).vecs = s.vecs := rfl
@[simp] theorem State.setFe_mailbox (s : State) (a : Nat) (b : Bool) : (s.setFe a b).mailbox = s.mailbox := rfl
@[simp] theorem State.setFe_fw (s : State) (a : Nat) (b : Bool) : (s.setFe a b).fw = s.fw := rfl
@[simp] theorem State.setFe_mapSeq (s : State) (a : Nat) (b : Bool) : (s.setFe a b).mapSeq = s.mapSeq := rfl
@[simp] theorem State.setFe_mapStale (s : State) (a : Nat) (b : Bool) : (s.setFe a b).mapStale = s.mapStale := rfl
@[simp] theorem State.setFe_mapNext (s : State) (a : Nat) (b : Bool) : (s.setFe a b).mapNext = s.mapNext := rfl
@[simp] theorem State.setFe_hostRead (s : State) (a : Nat) (b : Bool) : (s.setFe a b).hostRead = s.hostRead := rfl
@[simp] theorem State.setFe_spareUsed (s : State) (a : Nat) (b : Bool) : (s.setFe a b).spareUsed = s.spareUsed := rfl
@[simp] theorem State.setFe_fuses (s : State) (a : Nat) (b : Bool) : (s.setFe a b).fuses = s.fuses := rfl
@[simp] theorem State.setFe_attestA (s : State) (a : Nat) (b : Bool) : (s.setFe a b).attestA = s.attestA := rfl
@[simp] theorem State.setFe_attestLog (s : State) (a : Nat) (b : Bool) : (s.setFe a b).attestLog = s.attestLog := rfl
@[simp] theorem State.setFe_attestOut (s : State) (a : Nat) (b : Bool) : (s.setFe a b).attestOut = s.attestOut := rfl
@[simp] theorem State.setFe_booted (s : State) (a : Nat) (b : Bool) : (s.setFe a b).booted = s.booted := rfl
@[simp] theorem State.setFe_halted (s : State) (a : Nat) (b : Bool) : (s.setFe a b).halted = s.halted := rfl
@[simp] theorem State.setFe_received (s : State) (a : Nat) (b : Bool) : (s.setFe a b).received = s.received := rfl
@[simp] theorem State.setFe_loads (s : State) (a : Nat) (b : Bool) : (s.setFe a b).loads = s.loads := rfl
@[simp] theorem State.setFe_deviceCap (s : State) (a : Nat) (b : Bool) : (s.setFe a b).deviceCap = s.deviceCap := rfl
@[simp] theorem State.setFe_checkpoint (s : State) (a : Nat) (b : Bool) : (s.setFe a b).checkpoint = s.checkpoint := rfl
@[simp] theorem State.setFe_dispatch (s : State) (a : Nat) (b : Bool) : (s.setFe a b).dispatch = s.dispatch := rfl

@[simp] theorem State.raiseVector_agenda (s : State) (v : Nat) : (s.raiseVector v).agenda = s.agenda := rfl
@[simp] theorem State.raiseVector_tick (s : State) (v : Nat) : (s.raiseVector v).tick = s.tick := rfl
@[simp] theorem State.raiseVector_tsc (s : State) (v : Nat) : (s.raiseVector v).tsc = s.tsc := rfl
@[simp] theorem State.raiseVector_cur (s : State) (v : Nat) : (s.raiseVector v).cur = s.cur := rfl
@[simp] theorem State.raiseVector_mem (s : State) (v : Nat) : (s.raiseVector v).mem = s.mem := rfl
@[simp] theorem State.raiseVector_ctxs (s : State) (v : Nat) : (s.raiseVector v).ctxs = s.ctxs := rfl
@[simp] theorem State.raiseVector_cells (s : State) (v : Nat) : (s.raiseVector v).cells = s.cells := rfl
@[simp] theorem State.raiseVector_cols (s : State) (v : Nat) : (s.raiseVector v).cols = s.cols := rfl
@[simp] theorem State.raiseVector_parts (s : State) (v : Nat) : (s.raiseVector v).parts = s.parts := rfl
@[simp] theorem State.raiseVector_spaces (s : State) (v : Nat) : (s.raiseVector v).spaces = s.spaces := rfl
@[simp] theorem State.raiseVector_bad (s : State) (v : Nat) : (s.raiseVector v).bad = s.bad := rfl
@[simp] theorem State.raiseVector_badL2 (s : State) (v : Nat) : (s.raiseVector v).badL2 = s.badL2 := rfl
@[simp] theorem State.raiseVector_badWords (s : State) (v : Nat) : (s.raiseVector v).badWords = s.badWords := rfl
@[simp] theorem State.raiseVector_outer (s : State) (v : Nat) : (s.raiseVector v).outer = s.outer := rfl
@[simp] theorem State.raiseVector_l2 (s : State) (v : Nat) : (s.raiseVector v).l2 = s.l2 := rfl
@[simp] theorem State.raiseVector_slices (s : State) (v : Nat) : (s.raiseVector v).slices = s.slices := rfl
@[simp] theorem State.raiseVector_reqs (s : State) (v : Nat) : (s.raiseVector v).reqs = s.reqs := rfl
@[simp] theorem State.raiseVector_refused (s : State) (v : Nat) : (s.raiseVector v).refused = s.refused := rfl
@[simp] theorem State.raiseVector_kept (s : State) (v : Nat) : (s.raiseVector v).kept = s.kept := rfl
@[simp] theorem State.raiseVector_deliveries (s : State) (v : Nat) : (s.raiseVector v).deliveries = s.deliveries := rfl
@[simp] theorem State.raiseVector_stores (s : State) (v : Nat) : (s.raiseVector v).stores = s.stores := rfl
@[simp] theorem State.raiseVector_passes (s : State) (v : Nat) : (s.raiseVector v).passes = s.passes := rfl
@[simp] theorem State.raiseVector_notices (s : State) (v : Nat) : (s.raiseVector v).notices = s.notices := rfl
@[simp] theorem State.raiseVector_homes (s : State) (v : Nat) : (s.raiseVector v).homes = s.homes := rfl
@[simp] theorem State.raiseVector_stamp (s : State) (v : Nat) : (s.raiseVector v).stamp = s.stamp := rfl
@[simp] theorem State.raiseVector_barReqs (s : State) (v : Nat) : (s.raiseVector v).barReqs = s.barReqs := rfl
@[simp] theorem State.raiseVector_barRets (s : State) (v : Nat) : (s.raiseVector v).barRets = s.barRets := rfl
@[simp] theorem State.raiseVector_images (s : State) (v : Nat) : (s.raiseVector v).images = s.images := rfl
@[simp] theorem State.raiseVector_labelJobs (s : State) (v : Nat) : (s.raiseVector v).labelJobs = s.labelJobs := rfl
@[simp] theorem State.raiseVector_rewrites (s : State) (v : Nat) : (s.raiseVector v).rewrites = s.rewrites := rfl
@[simp] theorem State.raiseVector_nogoods (s : State) (v : Nat) : (s.raiseVector v).nogoods = s.nogoods := rfl
@[simp] theorem State.raiseVector_compacts (s : State) (v : Nat) : (s.raiseVector v).compacts = s.compacts := rfl
@[simp] theorem State.raiseVector_claims (s : State) (v : Nat) : (s.raiseVector v).claims = s.claims := rfl
@[simp] theorem State.raiseVector_claimReqs (s : State) (v : Nat) : (s.raiseVector v).claimReqs = s.claimReqs := rfl
@[simp] theorem State.raiseVector_claimRets (s : State) (v : Nat) : (s.raiseVector v).claimRets = s.claimRets := rfl
@[simp] theorem State.raiseVector_claimOuts (s : State) (v : Nat) : (s.raiseVector v).claimOuts = s.claimOuts := rfl
@[simp] theorem State.raiseVector_walks (s : State) (v : Nat) : (s.raiseVector v).walks = s.walks := rfl
@[simp] theorem State.raiseVector_credits (s : State) (v : Nat) : (s.raiseVector v).credits = s.credits := rfl
@[simp] theorem State.raiseVector_slotRets (s : State) (v : Nat) : (s.raiseVector v).slotRets = s.slotRets := rfl
@[simp] theorem State.raiseVector_frames (s : State) (v : Nat) : (s.raiseVector v).frames = s.frames := rfl
@[simp] theorem State.raiseVector_streams (s : State) (v : Nat) : (s.raiseVector v).streams = s.streams := rfl
@[simp] theorem State.raiseVector_encs (s : State) (v : Nat) : (s.raiseVector v).encs = s.encs := rfl
@[simp] theorem State.raiseVector_frameCount (s : State) (v : Nat) : (s.raiseVector v).frameCount = s.frameCount := rfl
@[simp] theorem State.raiseVector_strdesc (s : State) (v : Nat) : (s.raiseVector v).strdesc = s.strdesc := rfl
@[simp] theorem State.raiseVector_signals (s : State) (v : Nat) : (s.raiseVector v).signals = s.signals := rfl
@[simp] theorem State.raiseVector_nsignals (s : State) (v : Nat) : (s.raiseVector v).nsignals = s.nsignals := rfl
@[simp] theorem State.raiseVector_answers (s : State) (v : Nat) : (s.raiseVector v).answers = s.answers := rfl
@[simp] theorem State.raiseVector_jobs (s : State) (v : Nat) : (s.raiseVector v).jobs = s.jobs := rfl
@[simp] theorem State.raiseVector_jobSeq (s : State) (v : Nat) : (s.raiseVector v).jobSeq = s.jobSeq := rfl
@[simp] theorem State.raiseVector_placements (s : State) (v : Nat) : (s.raiseVector v).placements = s.placements := rfl
@[simp] theorem State.raiseVector_lastCol (s : State) (v : Nat) : (s.raiseVector v).lastCol = s.lastCol := rfl
@[simp] theorem State.raiseVector_stations (s : State) (v : Nat) : (s.raiseVector v).stations = s.stations := rfl
@[simp] theorem State.raiseVector_loops (s : State) (v : Nat) : (s.raiseVector v).loops = s.loops := rfl
@[simp] theorem State.raiseVector_ports (s : State) (v : Nat) : (s.raiseVector v).ports = s.ports := rfl
@[simp] theorem State.raiseVector_sysroutes (s : State) (v : Nat) : (s.raiseVector v).sysroutes = s.sysroutes := rfl
@[simp] theorem State.raiseVector_heldRoutes (s : State) (v : Nat) : (s.raiseVector v).heldRoutes = s.heldRoutes := rfl
@[simp] theorem State.raiseVector_bubbles (s : State) (v : Nat) : (s.raiseVector v).bubbles = s.bubbles := rfl
@[simp] theorem State.raiseVector_peerOut (s : State) (v : Nat) : (s.raiseVector v).peerOut = s.peerOut := rfl
@[simp] theorem State.raiseVector_recs (s : State) (v : Nat) : (s.raiseVector v).recs = s.recs := rfl
@[simp] theorem State.raiseVector_errCounts (s : State) (v : Nat) : (s.raiseVector v).errCounts = s.errCounts := rfl
@[simp] theorem State.raiseVector_errThreshold (s : State) (v : Nat) : (s.raiseVector v).errThreshold = s.errThreshold := rfl
@[simp] theorem State.raiseVector_errWindow (s : State) (v : Nat) : (s.raiseVector v).errWindow = s.errWindow := rfl
@[simp] theorem State.raiseVector_mailbox (s : State) (v : Nat) : (s.raiseVector v).mailbox = s.mailbox := rfl
@[simp] theorem State.raiseVector_fw (s : State) (v : Nat) : (s.raiseVector v).fw = s.fw := rfl
@[simp] theorem State.raiseVector_mapSeq (s : State) (v : Nat) : (s.raiseVector v).mapSeq = s.mapSeq := rfl
@[simp] theorem State.raiseVector_mapStale (s : State) (v : Nat) : (s.raiseVector v).mapStale = s.mapStale := rfl
@[simp] theorem State.raiseVector_mapNext (s : State) (v : Nat) : (s.raiseVector v).mapNext = s.mapNext := rfl
@[simp] theorem State.raiseVector_hostRead (s : State) (v : Nat) : (s.raiseVector v).hostRead = s.hostRead := rfl
@[simp] theorem State.raiseVector_spareUsed (s : State) (v : Nat) : (s.raiseVector v).spareUsed = s.spareUsed := rfl
@[simp] theorem State.raiseVector_fuses (s : State) (v : Nat) : (s.raiseVector v).fuses = s.fuses := rfl
@[simp] theorem State.raiseVector_attestA (s : State) (v : Nat) : (s.raiseVector v).attestA = s.attestA := rfl
@[simp] theorem State.raiseVector_attestLog (s : State) (v : Nat) : (s.raiseVector v).attestLog = s.attestLog := rfl
@[simp] theorem State.raiseVector_attestOut (s : State) (v : Nat) : (s.raiseVector v).attestOut = s.attestOut := rfl
@[simp] theorem State.raiseVector_booted (s : State) (v : Nat) : (s.raiseVector v).booted = s.booted := rfl
@[simp] theorem State.raiseVector_halted (s : State) (v : Nat) : (s.raiseVector v).halted = s.halted := rfl
@[simp] theorem State.raiseVector_received (s : State) (v : Nat) : (s.raiseVector v).received = s.received := rfl
@[simp] theorem State.raiseVector_loads (s : State) (v : Nat) : (s.raiseVector v).loads = s.loads := rfl
@[simp] theorem State.raiseVector_deviceCap (s : State) (v : Nat) : (s.raiseVector v).deviceCap = s.deviceCap := rfl
@[simp] theorem State.raiseVector_checkpoint (s : State) (v : Nat) : (s.raiseVector v).checkpoint = s.checkpoint := rfl
@[simp] theorem State.raiseVector_dispatch (s : State) (v : Nat) : (s.raiseVector v).dispatch = s.dispatch := rfl

/-! ### Registers after a write (R11 to R13, R119) -/

@[simp] theorem Arch.vr_setV_self (a : Arch) (n : Nat) (x : Reg (BitVec 512)) : (a.setV n x).vr n = x := Tab.get_put_self _ _ _ _
theorem Arch.vr_setV_ne (a : Arch) {n m : Nat} (x : Reg (BitVec 512)) (h : m ≠ n) : (a.setV n x).vr m = a.vr m := Tab.get_put_ne _ _ _ h
@[simp] theorem Arch.setV_pc (a : Arch) (n : Nat) (x : Reg (BitVec 512)) : (a.setV n x).pc = a.pc := rfl
@[simp] theorem Arch.setV_status (a : Arch) (n : Nat) (x : Reg (BitVec 512)) : (a.setV n x).status = a.status := rfl
@[simp] theorem Arch.setV_sup (a : Arch) (n : Nat) (x : Reg (BitVec 512)) : (a.setV n x).sup = a.sup := rfl
@[simp] theorem Arch.setV_mon (a : Arch) (n : Nat) (x : Reg (BitVec 512)) : (a.setV n x).mon = a.mon := rfl
@[simp] theorem Arch.setV_space (a : Arch) (n : Nat) (x : Reg (BitVec 512)) : (a.setV n x).space = a.space := rfl
@[simp] theorem Arch.setV_view (a : Arch) (n : Nat) (x : Reg (BitVec 512)) : (a.setV n x).view = a.view := rfl
@[simp] theorem Arch.setV_lninfo (a : Arch) (n : Nat) (x : Reg (BitVec 512)) : (a.setV n x).lninfo = a.lninfo := rfl
@[simp] theorem Arch.setV_ggr (a : Arch) (n : Nat) (x : Reg (BitVec 512)) : (a.setV n x).ggr = a.ggr := rfl
@[simp] theorem Arch.setV_htbase (a : Arch) (n : Nat) (x : Reg (BitVec 512)) : (a.setV n x).htbase = a.htbase := rfl
@[simp] theorem Arch.setV_param (a : Arch) (n : Nat) (x : Reg (BitVec 512)) : (a.setV n x).param = a.param := rfl
@[simp] theorem Arch.setV_cpsrc (a : Arch) (n : Nat) (x : Reg (BitVec 512)) : (a.setV n x).cpsrc = a.cpsrc := rfl
@[simp] theorem Arch.setV_cpdst (a : Arch) (n : Nat) (x : Reg (BitVec 512)) : (a.setV n x).cpdst = a.cpdst := rfl
@[simp] theorem Arch.setV_cpshape (a : Arch) (n : Nat) (x : Reg (BitVec 512)) : (a.setV n x).cpshape = a.cpshape := rfl
@[simp] theorem Arch.setV_cpstr0 (a : Arch) (n : Nat) (x : Reg (BitVec 512)) : (a.setV n x).cpstr0 = a.cpstr0 := rfl
@[simp] theorem Arch.setV_cpstr1 (a : Arch) (n : Nat) (x : Reg (BitVec 512)) : (a.setV n x).cpstr1 = a.cpstr1 := rfl
@[simp] theorem Arch.setV_cpbar (a : Arch) (n : Nat) (x : Reg (BitVec 512)) : (a.setV n x).cpbar = a.cpbar := rfl
@[simp] theorem Arch.setV_cpfollow (a : Arch) (n : Nat) (x : Reg (BitVec 512)) : (a.setV n x).cpfollow = a.cpfollow := rfl
@[simp] theorem Arch.setV_slotinit (a : Arch) (n : Nat) (x : Reg (BitVec 512)) : (a.setV n x).slotinit = a.slotinit := rfl
@[simp] theorem Arch.setV_shadowiv (a : Arch) (n : Nat) (x : Reg (BitVec 512)) : (a.setV n x).shadowiv = a.shadowiv := rfl
@[simp] theorem Arch.setV_part (a : Arch) (n : Nat) (x : Reg (BitVec 512)) : (a.setV n x).part = a.part := rfl
@[simp] theorem Arch.setV_tcfg (a : Arch) (n : Nat) (x : Reg (BitVec 512)) : (a.setV n x).tcfg = a.tcfg := rfl
@[simp] theorem Arch.setV_g (a : Arch) (n : Nat) (x : Reg (BitVec 512)) : (a.setV n x).g = a.g := rfl
@[simp] theorem Arch.setV_k (a : Arch) (n : Nat) (x : Reg (BitVec 512)) : (a.setV n x).k = a.k := rfl
@[simp] theorem Arch.setV_q (a : Arch) (n : Nat) (x : Reg (BitVec 512)) : (a.setV n x).q = a.q := rfl
@[simp] theorem Arch.setV_x (a : Arch) (n : Nat) (x : Reg (BitVec 512)) : (a.setV n x).x = a.x := rfl
@[simp] theorem Arch.setV_loops (a : Arch) (n : Nat) (x : Reg (BitVec 512)) : (a.setV n x).loops = a.loops := rfl
@[simp] theorem Arch.setV_sig (a : Arch) (n : Nat) (x : Reg (BitVec 512)) : (a.setV n x).sig = a.sig := rfl
@[simp] theorem Arch.setV_gr (a : Arch) (n m : Nat) (x : Reg (BitVec 512)) : (a.setV n x).gr m = a.gr m := rfl
@[simp] theorem Arch.setV_kr (a : Arch) (n m : Nat) (x : Reg (BitVec 512)) : (a.setV n x).kr m = a.kr m := rfl
@[simp] theorem Arch.setV_qr (a : Arch) (n m : Nat) (x : Reg (BitVec 512)) : (a.setV n x).qr m = a.qr m := rfl
@[simp] theorem Arch.setV_xr (a : Arch) (n m : Nat) (x : Reg (BitVec 512)) : (a.setV n x).xr m = a.xr m := rfl
@[simp] theorem Arch.kr_setK_self (a : Arch) (n : Nat) (x : Reg (List Elem)) : (a.setK n x).kr n = x := Tab.get_put_self _ _ _ _
theorem Arch.kr_setK_ne (a : Arch) {n m : Nat} (x : Reg (List Elem)) (h : m ≠ n) : (a.setK n x).kr m = a.kr m := Tab.get_put_ne _ _ _ h
@[simp] theorem Arch.setK_pc (a : Arch) (n : Nat) (x : Reg (List Elem)) : (a.setK n x).pc = a.pc := rfl
@[simp] theorem Arch.setK_status (a : Arch) (n : Nat) (x : Reg (List Elem)) : (a.setK n x).status = a.status := rfl
@[simp] theorem Arch.setK_sup (a : Arch) (n : Nat) (x : Reg (List Elem)) : (a.setK n x).sup = a.sup := rfl
@[simp] theorem Arch.setK_mon (a : Arch) (n : Nat) (x : Reg (List Elem)) : (a.setK n x).mon = a.mon := rfl
@[simp] theorem Arch.setK_space (a : Arch) (n : Nat) (x : Reg (List Elem)) : (a.setK n x).space = a.space := rfl
@[simp] theorem Arch.setK_view (a : Arch) (n : Nat) (x : Reg (List Elem)) : (a.setK n x).view = a.view := rfl
@[simp] theorem Arch.setK_lninfo (a : Arch) (n : Nat) (x : Reg (List Elem)) : (a.setK n x).lninfo = a.lninfo := rfl
@[simp] theorem Arch.setK_ggr (a : Arch) (n : Nat) (x : Reg (List Elem)) : (a.setK n x).ggr = a.ggr := rfl
@[simp] theorem Arch.setK_htbase (a : Arch) (n : Nat) (x : Reg (List Elem)) : (a.setK n x).htbase = a.htbase := rfl
@[simp] theorem Arch.setK_param (a : Arch) (n : Nat) (x : Reg (List Elem)) : (a.setK n x).param = a.param := rfl
@[simp] theorem Arch.setK_cpsrc (a : Arch) (n : Nat) (x : Reg (List Elem)) : (a.setK n x).cpsrc = a.cpsrc := rfl
@[simp] theorem Arch.setK_cpdst (a : Arch) (n : Nat) (x : Reg (List Elem)) : (a.setK n x).cpdst = a.cpdst := rfl
@[simp] theorem Arch.setK_cpshape (a : Arch) (n : Nat) (x : Reg (List Elem)) : (a.setK n x).cpshape = a.cpshape := rfl
@[simp] theorem Arch.setK_cpstr0 (a : Arch) (n : Nat) (x : Reg (List Elem)) : (a.setK n x).cpstr0 = a.cpstr0 := rfl
@[simp] theorem Arch.setK_cpstr1 (a : Arch) (n : Nat) (x : Reg (List Elem)) : (a.setK n x).cpstr1 = a.cpstr1 := rfl
@[simp] theorem Arch.setK_cpbar (a : Arch) (n : Nat) (x : Reg (List Elem)) : (a.setK n x).cpbar = a.cpbar := rfl
@[simp] theorem Arch.setK_cpfollow (a : Arch) (n : Nat) (x : Reg (List Elem)) : (a.setK n x).cpfollow = a.cpfollow := rfl
@[simp] theorem Arch.setK_slotinit (a : Arch) (n : Nat) (x : Reg (List Elem)) : (a.setK n x).slotinit = a.slotinit := rfl
@[simp] theorem Arch.setK_shadowiv (a : Arch) (n : Nat) (x : Reg (List Elem)) : (a.setK n x).shadowiv = a.shadowiv := rfl
@[simp] theorem Arch.setK_part (a : Arch) (n : Nat) (x : Reg (List Elem)) : (a.setK n x).part = a.part := rfl
@[simp] theorem Arch.setK_tcfg (a : Arch) (n : Nat) (x : Reg (List Elem)) : (a.setK n x).tcfg = a.tcfg := rfl
@[simp] theorem Arch.setK_g (a : Arch) (n : Nat) (x : Reg (List Elem)) : (a.setK n x).g = a.g := rfl
@[simp] theorem Arch.setK_v (a : Arch) (n : Nat) (x : Reg (List Elem)) : (a.setK n x).v = a.v := rfl
@[simp] theorem Arch.setK_q (a : Arch) (n : Nat) (x : Reg (List Elem)) : (a.setK n x).q = a.q := rfl
@[simp] theorem Arch.setK_x (a : Arch) (n : Nat) (x : Reg (List Elem)) : (a.setK n x).x = a.x := rfl
@[simp] theorem Arch.setK_loops (a : Arch) (n : Nat) (x : Reg (List Elem)) : (a.setK n x).loops = a.loops := rfl
@[simp] theorem Arch.setK_sig (a : Arch) (n : Nat) (x : Reg (List Elem)) : (a.setK n x).sig = a.sig := rfl
@[simp] theorem Arch.setK_gr (a : Arch) (n m : Nat) (x : Reg (List Elem)) : (a.setK n x).gr m = a.gr m := rfl
@[simp] theorem Arch.setK_vr (a : Arch) (n m : Nat) (x : Reg (List Elem)) : (a.setK n x).vr m = a.vr m := rfl
@[simp] theorem Arch.setK_qr (a : Arch) (n m : Nat) (x : Reg (List Elem)) : (a.setK n x).qr m = a.qr m := rfl
@[simp] theorem Arch.setK_xr (a : Arch) (n m : Nat) (x : Reg (List Elem)) : (a.setK n x).xr m = a.xr m := rfl
@[simp] theorem Arch.qr_setQ_self (a : Arch) (n : Nat) (x : Reg (Word)) : (a.setQ n x).qr n = x := Tab.get_put_self _ _ _ _
theorem Arch.qr_setQ_ne (a : Arch) {n m : Nat} (x : Reg (Word)) (h : m ≠ n) : (a.setQ n x).qr m = a.qr m := Tab.get_put_ne _ _ _ h
@[simp] theorem Arch.setQ_pc (a : Arch) (n : Nat) (x : Reg (Word)) : (a.setQ n x).pc = a.pc := rfl
@[simp] theorem Arch.setQ_status (a : Arch) (n : Nat) (x : Reg (Word)) : (a.setQ n x).status = a.status := rfl
@[simp] theorem Arch.setQ_sup (a : Arch) (n : Nat) (x : Reg (Word)) : (a.setQ n x).sup = a.sup := rfl
@[simp] theorem Arch.setQ_mon (a : Arch) (n : Nat) (x : Reg (Word)) : (a.setQ n x).mon = a.mon := rfl
@[simp] theorem Arch.setQ_space (a : Arch) (n : Nat) (x : Reg (Word)) : (a.setQ n x).space = a.space := rfl
@[simp] theorem Arch.setQ_view (a : Arch) (n : Nat) (x : Reg (Word)) : (a.setQ n x).view = a.view := rfl
@[simp] theorem Arch.setQ_lninfo (a : Arch) (n : Nat) (x : Reg (Word)) : (a.setQ n x).lninfo = a.lninfo := rfl
@[simp] theorem Arch.setQ_ggr (a : Arch) (n : Nat) (x : Reg (Word)) : (a.setQ n x).ggr = a.ggr := rfl
@[simp] theorem Arch.setQ_htbase (a : Arch) (n : Nat) (x : Reg (Word)) : (a.setQ n x).htbase = a.htbase := rfl
@[simp] theorem Arch.setQ_param (a : Arch) (n : Nat) (x : Reg (Word)) : (a.setQ n x).param = a.param := rfl
@[simp] theorem Arch.setQ_cpsrc (a : Arch) (n : Nat) (x : Reg (Word)) : (a.setQ n x).cpsrc = a.cpsrc := rfl
@[simp] theorem Arch.setQ_cpdst (a : Arch) (n : Nat) (x : Reg (Word)) : (a.setQ n x).cpdst = a.cpdst := rfl
@[simp] theorem Arch.setQ_cpshape (a : Arch) (n : Nat) (x : Reg (Word)) : (a.setQ n x).cpshape = a.cpshape := rfl
@[simp] theorem Arch.setQ_cpstr0 (a : Arch) (n : Nat) (x : Reg (Word)) : (a.setQ n x).cpstr0 = a.cpstr0 := rfl
@[simp] theorem Arch.setQ_cpstr1 (a : Arch) (n : Nat) (x : Reg (Word)) : (a.setQ n x).cpstr1 = a.cpstr1 := rfl
@[simp] theorem Arch.setQ_cpbar (a : Arch) (n : Nat) (x : Reg (Word)) : (a.setQ n x).cpbar = a.cpbar := rfl
@[simp] theorem Arch.setQ_cpfollow (a : Arch) (n : Nat) (x : Reg (Word)) : (a.setQ n x).cpfollow = a.cpfollow := rfl
@[simp] theorem Arch.setQ_slotinit (a : Arch) (n : Nat) (x : Reg (Word)) : (a.setQ n x).slotinit = a.slotinit := rfl
@[simp] theorem Arch.setQ_shadowiv (a : Arch) (n : Nat) (x : Reg (Word)) : (a.setQ n x).shadowiv = a.shadowiv := rfl
@[simp] theorem Arch.setQ_part (a : Arch) (n : Nat) (x : Reg (Word)) : (a.setQ n x).part = a.part := rfl
@[simp] theorem Arch.setQ_tcfg (a : Arch) (n : Nat) (x : Reg (Word)) : (a.setQ n x).tcfg = a.tcfg := rfl
@[simp] theorem Arch.setQ_g (a : Arch) (n : Nat) (x : Reg (Word)) : (a.setQ n x).g = a.g := rfl
@[simp] theorem Arch.setQ_v (a : Arch) (n : Nat) (x : Reg (Word)) : (a.setQ n x).v = a.v := rfl
@[simp] theorem Arch.setQ_k (a : Arch) (n : Nat) (x : Reg (Word)) : (a.setQ n x).k = a.k := rfl
@[simp] theorem Arch.setQ_x (a : Arch) (n : Nat) (x : Reg (Word)) : (a.setQ n x).x = a.x := rfl
@[simp] theorem Arch.setQ_loops (a : Arch) (n : Nat) (x : Reg (Word)) : (a.setQ n x).loops = a.loops := rfl
@[simp] theorem Arch.setQ_sig (a : Arch) (n : Nat) (x : Reg (Word)) : (a.setQ n x).sig = a.sig := rfl
@[simp] theorem Arch.setQ_gr (a : Arch) (n m : Nat) (x : Reg (Word)) : (a.setQ n x).gr m = a.gr m := rfl
@[simp] theorem Arch.setQ_vr (a : Arch) (n m : Nat) (x : Reg (Word)) : (a.setQ n x).vr m = a.vr m := rfl
@[simp] theorem Arch.setQ_kr (a : Arch) (n m : Nat) (x : Reg (Word)) : (a.setQ n x).kr m = a.kr m := rfl
@[simp] theorem Arch.setQ_xr (a : Arch) (n m : Nat) (x : Reg (Word)) : (a.setQ n x).xr m = a.xr m := rfl
@[simp] theorem Arch.xr_setX_self (a : Arch) (n : Nat) (x : Reg (Word)) : (a.setX n x).xr n = x := Tab.get_put_self _ _ _ _
theorem Arch.xr_setX_ne (a : Arch) {n m : Nat} (x : Reg (Word)) (h : m ≠ n) : (a.setX n x).xr m = a.xr m := Tab.get_put_ne _ _ _ h
@[simp] theorem Arch.setX_pc (a : Arch) (n : Nat) (x : Reg (Word)) : (a.setX n x).pc = a.pc := rfl
@[simp] theorem Arch.setX_status (a : Arch) (n : Nat) (x : Reg (Word)) : (a.setX n x).status = a.status := rfl
@[simp] theorem Arch.setX_sup (a : Arch) (n : Nat) (x : Reg (Word)) : (a.setX n x).sup = a.sup := rfl
@[simp] theorem Arch.setX_mon (a : Arch) (n : Nat) (x : Reg (Word)) : (a.setX n x).mon = a.mon := rfl
@[simp] theorem Arch.setX_space (a : Arch) (n : Nat) (x : Reg (Word)) : (a.setX n x).space = a.space := rfl
@[simp] theorem Arch.setX_view (a : Arch) (n : Nat) (x : Reg (Word)) : (a.setX n x).view = a.view := rfl
@[simp] theorem Arch.setX_lninfo (a : Arch) (n : Nat) (x : Reg (Word)) : (a.setX n x).lninfo = a.lninfo := rfl
@[simp] theorem Arch.setX_ggr (a : Arch) (n : Nat) (x : Reg (Word)) : (a.setX n x).ggr = a.ggr := rfl
@[simp] theorem Arch.setX_htbase (a : Arch) (n : Nat) (x : Reg (Word)) : (a.setX n x).htbase = a.htbase := rfl
@[simp] theorem Arch.setX_param (a : Arch) (n : Nat) (x : Reg (Word)) : (a.setX n x).param = a.param := rfl
@[simp] theorem Arch.setX_cpsrc (a : Arch) (n : Nat) (x : Reg (Word)) : (a.setX n x).cpsrc = a.cpsrc := rfl
@[simp] theorem Arch.setX_cpdst (a : Arch) (n : Nat) (x : Reg (Word)) : (a.setX n x).cpdst = a.cpdst := rfl
@[simp] theorem Arch.setX_cpshape (a : Arch) (n : Nat) (x : Reg (Word)) : (a.setX n x).cpshape = a.cpshape := rfl
@[simp] theorem Arch.setX_cpstr0 (a : Arch) (n : Nat) (x : Reg (Word)) : (a.setX n x).cpstr0 = a.cpstr0 := rfl
@[simp] theorem Arch.setX_cpstr1 (a : Arch) (n : Nat) (x : Reg (Word)) : (a.setX n x).cpstr1 = a.cpstr1 := rfl
@[simp] theorem Arch.setX_cpbar (a : Arch) (n : Nat) (x : Reg (Word)) : (a.setX n x).cpbar = a.cpbar := rfl
@[simp] theorem Arch.setX_cpfollow (a : Arch) (n : Nat) (x : Reg (Word)) : (a.setX n x).cpfollow = a.cpfollow := rfl
@[simp] theorem Arch.setX_slotinit (a : Arch) (n : Nat) (x : Reg (Word)) : (a.setX n x).slotinit = a.slotinit := rfl
@[simp] theorem Arch.setX_shadowiv (a : Arch) (n : Nat) (x : Reg (Word)) : (a.setX n x).shadowiv = a.shadowiv := rfl
@[simp] theorem Arch.setX_part (a : Arch) (n : Nat) (x : Reg (Word)) : (a.setX n x).part = a.part := rfl
@[simp] theorem Arch.setX_tcfg (a : Arch) (n : Nat) (x : Reg (Word)) : (a.setX n x).tcfg = a.tcfg := rfl
@[simp] theorem Arch.setX_g (a : Arch) (n : Nat) (x : Reg (Word)) : (a.setX n x).g = a.g := rfl
@[simp] theorem Arch.setX_v (a : Arch) (n : Nat) (x : Reg (Word)) : (a.setX n x).v = a.v := rfl
@[simp] theorem Arch.setX_k (a : Arch) (n : Nat) (x : Reg (Word)) : (a.setX n x).k = a.k := rfl
@[simp] theorem Arch.setX_q (a : Arch) (n : Nat) (x : Reg (Word)) : (a.setX n x).q = a.q := rfl
@[simp] theorem Arch.setX_loops (a : Arch) (n : Nat) (x : Reg (Word)) : (a.setX n x).loops = a.loops := rfl
@[simp] theorem Arch.setX_sig (a : Arch) (n : Nat) (x : Reg (Word)) : (a.setX n x).sig = a.sig := rfl
@[simp] theorem Arch.setX_gr (a : Arch) (n m : Nat) (x : Reg (Word)) : (a.setX n x).gr m = a.gr m := rfl
@[simp] theorem Arch.setX_vr (a : Arch) (n m : Nat) (x : Reg (Word)) : (a.setX n x).vr m = a.vr m := rfl
@[simp] theorem Arch.setX_kr (a : Arch) (n m : Nat) (x : Reg (Word)) : (a.setX n x).kr m = a.kr m := rfl
@[simp] theorem Arch.setX_qr (a : Arch) (n m : Nat) (x : Reg (Word)) : (a.setX n x).qr m = a.qr m := rfl
@[simp] theorem Arch.gr_zero (a : Arch) : a.gr 0 = Reg.of 0 := rfl
@[simp] theorem Arch.setG_zero (a : Arch) (x : Reg Word) : a.setG 0 x = a := rfl
theorem Arch.gr_setG_self (a : Arch) {n : Nat} (x : Reg Word) (h : n ≠ 0) : (a.setG n x).gr n = x := by simp [Arch.setG, Arch.gr, h]
theorem Arch.gr_setG_ne (a : Arch) {n m : Nat} (x : Reg Word) (h : m ≠ n) : (a.setG n x).gr m = a.gr m := by
  unfold Arch.setG
  split
  · rfl
  · simp [Arch.gr, Tab.get_put_ne _ _ _ h]
@[simp] theorem Arch.setG_pc (a : Arch) (n : Nat) (x : Reg Word) : (a.setG n x).pc = a.pc := by unfold Arch.setG; split <;> rfl
@[simp] theorem Arch.setG_status (a : Arch) (n : Nat) (x : Reg Word) : (a.setG n x).status = a.status := by unfold Arch.setG; split <;> rfl
@[simp] theorem Arch.setG_sup (a : Arch) (n : Nat) (x : Reg Word) : (a.setG n x).sup = a.sup := by unfold Arch.setG; split <;> rfl
@[simp] theorem Arch.setG_mon (a : Arch) (n : Nat) (x : Reg Word) : (a.setG n x).mon = a.mon := by unfold Arch.setG; split <;> rfl
@[simp] theorem Arch.setG_space (a : Arch) (n : Nat) (x : Reg Word) : (a.setG n x).space = a.space := by unfold Arch.setG; split <;> rfl
@[simp] theorem Arch.setG_view (a : Arch) (n : Nat) (x : Reg Word) : (a.setG n x).view = a.view := by unfold Arch.setG; split <;> rfl
@[simp] theorem Arch.setG_lninfo (a : Arch) (n : Nat) (x : Reg Word) : (a.setG n x).lninfo = a.lninfo := by unfold Arch.setG; split <;> rfl
@[simp] theorem Arch.setG_ggr (a : Arch) (n : Nat) (x : Reg Word) : (a.setG n x).ggr = a.ggr := by unfold Arch.setG; split <;> rfl
@[simp] theorem Arch.setG_htbase (a : Arch) (n : Nat) (x : Reg Word) : (a.setG n x).htbase = a.htbase := by unfold Arch.setG; split <;> rfl
@[simp] theorem Arch.setG_param (a : Arch) (n : Nat) (x : Reg Word) : (a.setG n x).param = a.param := by unfold Arch.setG; split <;> rfl
@[simp] theorem Arch.setG_cpsrc (a : Arch) (n : Nat) (x : Reg Word) : (a.setG n x).cpsrc = a.cpsrc := by unfold Arch.setG; split <;> rfl
@[simp] theorem Arch.setG_cpdst (a : Arch) (n : Nat) (x : Reg Word) : (a.setG n x).cpdst = a.cpdst := by unfold Arch.setG; split <;> rfl
@[simp] theorem Arch.setG_cpshape (a : Arch) (n : Nat) (x : Reg Word) : (a.setG n x).cpshape = a.cpshape := by unfold Arch.setG; split <;> rfl
@[simp] theorem Arch.setG_cpstr0 (a : Arch) (n : Nat) (x : Reg Word) : (a.setG n x).cpstr0 = a.cpstr0 := by unfold Arch.setG; split <;> rfl
@[simp] theorem Arch.setG_cpstr1 (a : Arch) (n : Nat) (x : Reg Word) : (a.setG n x).cpstr1 = a.cpstr1 := by unfold Arch.setG; split <;> rfl
@[simp] theorem Arch.setG_cpbar (a : Arch) (n : Nat) (x : Reg Word) : (a.setG n x).cpbar = a.cpbar := by unfold Arch.setG; split <;> rfl
@[simp] theorem Arch.setG_cpfollow (a : Arch) (n : Nat) (x : Reg Word) : (a.setG n x).cpfollow = a.cpfollow := by unfold Arch.setG; split <;> rfl
@[simp] theorem Arch.setG_slotinit (a : Arch) (n : Nat) (x : Reg Word) : (a.setG n x).slotinit = a.slotinit := by unfold Arch.setG; split <;> rfl
@[simp] theorem Arch.setG_shadowiv (a : Arch) (n : Nat) (x : Reg Word) : (a.setG n x).shadowiv = a.shadowiv := by unfold Arch.setG; split <;> rfl
@[simp] theorem Arch.setG_part (a : Arch) (n : Nat) (x : Reg Word) : (a.setG n x).part = a.part := by unfold Arch.setG; split <;> rfl
@[simp] theorem Arch.setG_tcfg (a : Arch) (n : Nat) (x : Reg Word) : (a.setG n x).tcfg = a.tcfg := by unfold Arch.setG; split <;> rfl
@[simp] theorem Arch.setG_v (a : Arch) (n : Nat) (x : Reg Word) : (a.setG n x).v = a.v := by unfold Arch.setG; split <;> rfl
@[simp] theorem Arch.setG_k (a : Arch) (n : Nat) (x : Reg Word) : (a.setG n x).k = a.k := by unfold Arch.setG; split <;> rfl
@[simp] theorem Arch.setG_q (a : Arch) (n : Nat) (x : Reg Word) : (a.setG n x).q = a.q := by unfold Arch.setG; split <;> rfl
@[simp] theorem Arch.setG_x (a : Arch) (n : Nat) (x : Reg Word) : (a.setG n x).x = a.x := by unfold Arch.setG; split <;> rfl
@[simp] theorem Arch.setG_loops (a : Arch) (n : Nat) (x : Reg Word) : (a.setG n x).loops = a.loops := by unfold Arch.setG; split <;> rfl
@[simp] theorem Arch.setG_sig (a : Arch) (n : Nat) (x : Reg Word) : (a.setG n x).sig = a.sig := by unfold Arch.setG; split <;> rfl
@[simp] theorem Arch.setG_vr (a : Arch) (n m : Nat) (x : Reg Word) : (a.setG n x).vr m = a.vr m := by unfold Arch.setG; split <;> rfl
@[simp] theorem Arch.setG_kr (a : Arch) (n m : Nat) (x : Reg Word) : (a.setG n x).kr m = a.kr m := by unfold Arch.setG; split <;> rfl
@[simp] theorem Arch.setG_qr (a : Arch) (n m : Nat) (x : Reg Word) : (a.setG n x).qr m = a.qr m := by unfold Arch.setG; split <;> rfl
@[simp] theorem Arch.setG_xr (a : Arch) (n m : Nat) (x : Reg Word) : (a.setG n x).xr m = a.xr m := by unfold Arch.setG; split <;> rfl
@[simp] theorem Arch.setMeta_pc (a : Arch) (r : RegId) (m : Reg Unit) : (a.setMeta r m).pc = a.pc := by unfold Arch.setMeta; split <;> simp
@[simp] theorem Arch.setMeta_status (a : Arch) (r : RegId) (m : Reg Unit) : (a.setMeta r m).status = a.status := by unfold Arch.setMeta; split <;> simp
@[simp] theorem Arch.setMeta_sup (a : Arch) (r : RegId) (m : Reg Unit) : (a.setMeta r m).sup = a.sup := by unfold Arch.setMeta; split <;> simp
@[simp] theorem Arch.setMeta_mon (a : Arch) (r : RegId) (m : Reg Unit) : (a.setMeta r m).mon = a.mon := by unfold Arch.setMeta; split <;> simp
@[simp] theorem Arch.setMeta_space (a : Arch) (r : RegId) (m : Reg Unit) : (a.setMeta r m).space = a.space := by unfold Arch.setMeta; split <;> simp
@[simp] theorem Arch.setMeta_view (a : Arch) (r : RegId) (m : Reg Unit) : (a.setMeta r m).view = a.view := by unfold Arch.setMeta; split <;> simp
@[simp] theorem Arch.setMeta_lninfo (a : Arch) (r : RegId) (m : Reg Unit) : (a.setMeta r m).lninfo = a.lninfo := by unfold Arch.setMeta; split <;> simp
@[simp] theorem Arch.setMeta_ggr (a : Arch) (r : RegId) (m : Reg Unit) : (a.setMeta r m).ggr = a.ggr := by unfold Arch.setMeta; split <;> simp
@[simp] theorem Arch.setMeta_htbase (a : Arch) (r : RegId) (m : Reg Unit) : (a.setMeta r m).htbase = a.htbase := by unfold Arch.setMeta; split <;> simp
@[simp] theorem Arch.setMeta_param (a : Arch) (r : RegId) (m : Reg Unit) : (a.setMeta r m).param = a.param := by unfold Arch.setMeta; split <;> simp
@[simp] theorem Arch.setMeta_cpsrc (a : Arch) (r : RegId) (m : Reg Unit) : (a.setMeta r m).cpsrc = a.cpsrc := by unfold Arch.setMeta; split <;> simp
@[simp] theorem Arch.setMeta_cpdst (a : Arch) (r : RegId) (m : Reg Unit) : (a.setMeta r m).cpdst = a.cpdst := by unfold Arch.setMeta; split <;> simp
@[simp] theorem Arch.setMeta_cpshape (a : Arch) (r : RegId) (m : Reg Unit) : (a.setMeta r m).cpshape = a.cpshape := by unfold Arch.setMeta; split <;> simp
@[simp] theorem Arch.setMeta_cpstr0 (a : Arch) (r : RegId) (m : Reg Unit) : (a.setMeta r m).cpstr0 = a.cpstr0 := by unfold Arch.setMeta; split <;> simp
@[simp] theorem Arch.setMeta_cpstr1 (a : Arch) (r : RegId) (m : Reg Unit) : (a.setMeta r m).cpstr1 = a.cpstr1 := by unfold Arch.setMeta; split <;> simp
@[simp] theorem Arch.setMeta_cpbar (a : Arch) (r : RegId) (m : Reg Unit) : (a.setMeta r m).cpbar = a.cpbar := by unfold Arch.setMeta; split <;> simp
@[simp] theorem Arch.setMeta_cpfollow (a : Arch) (r : RegId) (m : Reg Unit) : (a.setMeta r m).cpfollow = a.cpfollow := by unfold Arch.setMeta; split <;> simp
@[simp] theorem Arch.setMeta_slotinit (a : Arch) (r : RegId) (m : Reg Unit) : (a.setMeta r m).slotinit = a.slotinit := by unfold Arch.setMeta; split <;> simp
@[simp] theorem Arch.setMeta_shadowiv (a : Arch) (r : RegId) (m : Reg Unit) : (a.setMeta r m).shadowiv = a.shadowiv := by unfold Arch.setMeta; split <;> simp
@[simp] theorem Arch.setMeta_part (a : Arch) (r : RegId) (m : Reg Unit) : (a.setMeta r m).part = a.part := by unfold Arch.setMeta; split <;> simp
@[simp] theorem Arch.setMeta_tcfg (a : Arch) (r : RegId) (m : Reg Unit) : (a.setMeta r m).tcfg = a.tcfg := by unfold Arch.setMeta; split <;> simp
@[simp] theorem Arch.setMeta_loops (a : Arch) (r : RegId) (m : Reg Unit) : (a.setMeta r m).loops = a.loops := by unfold Arch.setMeta; split <;> simp
@[simp] theorem Arch.setMeta_sig (a : Arch) (r : RegId) (m : Reg Unit) : (a.setMeta r m).sig = a.sig := by unfold Arch.setMeta; split <;> simp
@[simp] theorem Arch.setReg_pc (a : Arch) (r : RegId) (v : RV) (m : Reg Unit) : (a.setReg r v m).pc = a.pc := by unfold Arch.setReg; split <;> simp
@[simp] theorem Arch.setReg_status (a : Arch) (r : RegId) (v : RV) (m : Reg Unit) : (a.setReg r v m).status = a.status := by unfold Arch.setReg; split <;> simp
@[simp] theorem Arch.setReg_sup (a : Arch) (r : RegId) (v : RV) (m : Reg Unit) : (a.setReg r v m).sup = a.sup := by unfold Arch.setReg; split <;> simp
@[simp] theorem Arch.setReg_mon (a : Arch) (r : RegId) (v : RV) (m : Reg Unit) : (a.setReg r v m).mon = a.mon := by unfold Arch.setReg; split <;> simp
@[simp] theorem Arch.setReg_space (a : Arch) (r : RegId) (v : RV) (m : Reg Unit) : (a.setReg r v m).space = a.space := by unfold Arch.setReg; split <;> simp
@[simp] theorem Arch.setReg_view (a : Arch) (r : RegId) (v : RV) (m : Reg Unit) : (a.setReg r v m).view = a.view := by unfold Arch.setReg; split <;> simp
@[simp] theorem Arch.setReg_lninfo (a : Arch) (r : RegId) (v : RV) (m : Reg Unit) : (a.setReg r v m).lninfo = a.lninfo := by unfold Arch.setReg; split <;> simp
@[simp] theorem Arch.setReg_ggr (a : Arch) (r : RegId) (v : RV) (m : Reg Unit) : (a.setReg r v m).ggr = a.ggr := by unfold Arch.setReg; split <;> simp
@[simp] theorem Arch.setReg_htbase (a : Arch) (r : RegId) (v : RV) (m : Reg Unit) : (a.setReg r v m).htbase = a.htbase := by unfold Arch.setReg; split <;> simp
@[simp] theorem Arch.setReg_param (a : Arch) (r : RegId) (v : RV) (m : Reg Unit) : (a.setReg r v m).param = a.param := by unfold Arch.setReg; split <;> simp
@[simp] theorem Arch.setReg_cpsrc (a : Arch) (r : RegId) (v : RV) (m : Reg Unit) : (a.setReg r v m).cpsrc = a.cpsrc := by unfold Arch.setReg; split <;> simp
@[simp] theorem Arch.setReg_cpdst (a : Arch) (r : RegId) (v : RV) (m : Reg Unit) : (a.setReg r v m).cpdst = a.cpdst := by unfold Arch.setReg; split <;> simp
@[simp] theorem Arch.setReg_cpshape (a : Arch) (r : RegId) (v : RV) (m : Reg Unit) : (a.setReg r v m).cpshape = a.cpshape := by unfold Arch.setReg; split <;> simp
@[simp] theorem Arch.setReg_cpstr0 (a : Arch) (r : RegId) (v : RV) (m : Reg Unit) : (a.setReg r v m).cpstr0 = a.cpstr0 := by unfold Arch.setReg; split <;> simp
@[simp] theorem Arch.setReg_cpstr1 (a : Arch) (r : RegId) (v : RV) (m : Reg Unit) : (a.setReg r v m).cpstr1 = a.cpstr1 := by unfold Arch.setReg; split <;> simp
@[simp] theorem Arch.setReg_cpbar (a : Arch) (r : RegId) (v : RV) (m : Reg Unit) : (a.setReg r v m).cpbar = a.cpbar := by unfold Arch.setReg; split <;> simp
@[simp] theorem Arch.setReg_cpfollow (a : Arch) (r : RegId) (v : RV) (m : Reg Unit) : (a.setReg r v m).cpfollow = a.cpfollow := by unfold Arch.setReg; split <;> simp
@[simp] theorem Arch.setReg_slotinit (a : Arch) (r : RegId) (v : RV) (m : Reg Unit) : (a.setReg r v m).slotinit = a.slotinit := by unfold Arch.setReg; split <;> simp
@[simp] theorem Arch.setReg_shadowiv (a : Arch) (r : RegId) (v : RV) (m : Reg Unit) : (a.setReg r v m).shadowiv = a.shadowiv := by unfold Arch.setReg; split <;> simp
@[simp] theorem Arch.setReg_part (a : Arch) (r : RegId) (v : RV) (m : Reg Unit) : (a.setReg r v m).part = a.part := by unfold Arch.setReg; split <;> simp
@[simp] theorem Arch.setReg_tcfg (a : Arch) (r : RegId) (v : RV) (m : Reg Unit) : (a.setReg r v m).tcfg = a.tcfg := by unfold Arch.setReg; split <;> simp
@[simp] theorem Arch.setReg_loops (a : Arch) (r : RegId) (v : RV) (m : Reg Unit) : (a.setReg r v m).loops = a.loops := by unfold Arch.setReg; split <;> simp
@[simp] theorem Arch.setReg_sig (a : Arch) (r : RegId) (v : RV) (m : Reg Unit) : (a.setReg r v m).sig = a.sig := by unfold Arch.setReg; split <;> simp

@[simp] theorem Reg.meta_withMeta {α : Type} (r : Reg α) (m : Reg Unit) : (r.withMeta m).meta = m := rfl
@[simp] theorem Reg.val_withMeta {α : Type} (r : Reg α) (m : Reg Unit) : (r.withMeta m).val = r.val := rfl

/-- A change of a register's state and label is read back, but for g0. -/
theorem Arch.rmeta_setMeta_self (a : Arch) (r : RegId) (m : Reg Unit) (h : r.file = .g → r.n ≠ 0) : (a.setMeta r m).rmeta r = m := by
  obtain ⟨f, n⟩ := r
  cases f
  case g => simp [Arch.rmeta, Arch.setMeta, Arch.gr_setG_self _ _ (h rfl)]
  all_goals simp [Arch.rmeta, Arch.setMeta]

/-- It leaves every other register's state and label. -/
theorem Arch.rmeta_setMeta_ne (a : Arch) {r q : RegId} (m : Reg Unit) (h : q ≠ r) : (a.setMeta r m).rmeta q = a.rmeta q := by
  obtain ⟨f, n⟩ := r
  obtain ⟨e, k⟩ := q
  cases f <;> cases e <;> simp [Arch.rmeta, Arch.setMeta] <;>
    first
    | rw [Arch.gr_setG_ne _ _ (by rintro rfl; exact h rfl)]
    | rw [Arch.vr_setV_ne _ _ (by rintro rfl; exact h rfl)]
    | rw [Arch.kr_setK_ne _ _ (by rintro rfl; exact h rfl)]
    | rw [Arch.qr_setQ_ne _ _ (by rintro rfl; exact h rfl)]
    | rw [Arch.xr_setX_ne _ _ (by rintro rfl; exact h rfl)]

/-- It changes no register's value. -/
theorem Arch.regVal_setMeta (a : Arch) (r q : RegId) (m : Reg Unit) : (a.setMeta r m).regVal q = a.regVal q := by
  obtain ⟨f, n⟩ := r
  obtain ⟨e, k⟩ := q
  by_cases h : k = n
  · subst h
    by_cases z : k = 0
    · subst z
      cases f <;> cases e <;> simp [Arch.regVal, Arch.setMeta]
    · cases f <;> cases e <;> simp [Arch.regVal, Arch.setMeta, Arch.gr_setG_self _ _ z]
  · cases f <;> cases e <;> simp [Arch.regVal, Arch.setMeta, Arch.gr_setG_ne _ _ h, Arch.vr_setV_ne _ _ h, Arch.kr_setK_ne _ _ h, Arch.qr_setQ_ne _ _ h,
      Arch.xr_setX_ne _ _ h]

/-- A write of a register leaves every other one. -/
theorem Arch.setReg_ne (a : Arch) {r q : RegId} (v : RV) (m : Reg Unit) (h : q ≠ r) :
    (a.setReg r v m).rmeta q = a.rmeta q ∧ (a.setReg r v m).regVal q = a.regVal q := by
  obtain ⟨f, n⟩ := r
  obtain ⟨e, k⟩ := q
  cases f <;> cases v <;> cases e <;> simp [Arch.rmeta, Arch.regVal, Arch.setReg] <;>
    first
    | (rw [Arch.gr_setG_ne _ _ (by rintro rfl; exact h rfl)]; exact ⟨rfl, rfl⟩)
    | (rw [Arch.vr_setV_ne _ _ (by rintro rfl; exact h rfl)]; exact ⟨rfl, rfl⟩)
    | (rw [Arch.kr_setK_ne _ _ (by rintro rfl; exact h rfl)]; exact ⟨rfl, rfl⟩)
    | (rw [Arch.qr_setQ_ne _ _ (by rintro rfl; exact h rfl)]; exact ⟨rfl, rfl⟩)
    | (rw [Arch.xr_setX_ne _ _ (by rintro rfl; exact h rfl)]; exact ⟨rfl, rfl⟩)

end Sys2Proof.Machine
end

