-- ==== Sys2Proof/Laws/Memory.lean ====
section
/-! SUPPORT. Memory: what a byte reads after a write, the frame of every write of Ops.lean, and that each keeps the canonical form. -/

namespace Sys2Proof.Machine

/-! ### Reading after writing -/

@[simp] theorem Memory.read_write_self (m : List Host.Cell) (a : Nat) (v : Byte) : Memory.read (Memory.write m a v) a = v := by
  unfold Memory.read Memory.write
  split
  · rename_i h
    simp [h]
  · simp

theorem Memory.read_write_ne (m : List Host.Cell) {a b : Nat} (v : Byte) (h : b ≠ a) : Memory.read (Memory.write m a v) b = Memory.read m b := by
  unfold Memory.read Memory.write
  split
  · exact Tab.get_del_ne m _ h
  · exact Tab.get_put_ne m v _ h

@[simp] theorem State.byte_setByte_self (s : State) (a : Nat) (v : Byte) : (s.setByte a v).byte a = v := Memory.read_write_self _ _ _
theorem State.byte_setByte_ne (s : State) {a b : Nat} (v : Byte) (h : b ≠ a) : (s.setByte a v).byte b = s.byte b := Memory.read_write_ne _ _ h

/-- Bytes that a list does not name stay. -/
theorem State.byte_setBytes_ne (s : State) (l : List (Nat × Byte)) (b : Nat) (h : ∀ p ∈ l, p.1 ≠ b) : (s.setBytes l).byte b = s.byte b := by
  unfold State.setBytes State.byte
  simp only
  generalize s.mem = m
  induction l generalizing m with
  | nil => rfl
  | cons p t ih =>
    rw [List.foldl_cons, ih (fun q hq => h q (by simp [hq])), Memory.read_write_ne _ _ (Ne.symm (h p (by simp)))]

/-- Bytes outside a number that is written stay. -/
theorem State.byte_setNum_ne (s : State) (a n v b : Nat) (h : b < a ∨ a + n ≤ b) : (s.setNum a n v).byte b = s.byte b := by
  apply State.byte_setBytes_ne
  intro p hp
  simp only [List.mem_map, List.mem_range] at hp
  obtain ⟨i, hi, rfl⟩ := hp
  simp only
  omega

theorem State.byte_setWord_ne (s : State) (a : Nat) (v : Word) (b : Nat) (h : b < a ∨ a + 8 ≤ b) : (s.setWord a v).byte b = s.byte b :=
  State.byte_setNum_ne s a 8 v.toNat b h

/-- A change of a word's full/empty bit leaves every byte but the one that holds the bit. -/
theorem State.byte_setFe_ne (s : State) (a : Nat) (f : Bool) (b : Nat) (h : b ≠ (feAt a).1) : (s.setFe a f).byte b = s.byte b :=
  State.byte_setByte_ne s _ h

/-- An update of anything but memory changes no byte. -/
theorem State.byte_of_mem {s t : State} (h : t.mem = s.mem) (a : Nat) : t.byte a = s.byte a := by simp [State.byte, h]

/-! ### The canonical form -/

theorem Memory.wfFrom_mono {lo lo' : Nat} {m : List Host.Cell} (h : lo ≤ lo') (w : Memory.wfFrom lo' m = true) : Memory.wfFrom lo m = true := by
  cases m with
  | nil => rfl
  | cons p t =>
    simp only [Memory.wfFrom, Bool.and_eq_true, decide_eq_true_eq] at w ⊢
    exact ⟨⟨by omega, w.1.2⟩, w.2⟩

/-- Leaving entries out keeps the form. -/
theorem Memory.wfFrom_filter {lo : Nat} {m : List Host.Cell} (f : Host.Cell → Bool) (w : Memory.wfFrom lo m = true) :
    Memory.wfFrom lo (m.filter f) = true := by
  induction m generalizing lo with
  | nil => rfl
  | cons p t ih =>
    simp only [Memory.wfFrom, Bool.and_eq_true, decide_eq_true_eq] at w
    rw [List.filter_cons]
    split
    · simp only [Memory.wfFrom, Bool.and_eq_true, decide_eq_true_eq]
      exact ⟨w.1, ih w.2⟩
    · exact ih (Memory.wfFrom_mono (by omega) w.2)

theorem Memory.wf_filter {m : List Host.Cell} (f : Host.Cell → Bool) (w : Memory.wf m = true) : Memory.wf (m.filter f) = true :=
  Memory.wfFrom_filter f w

theorem Memory.wfFrom_put {lo : Nat} {m : List Host.Cell} {a : Nat} {v : Byte} (h : lo ≤ a) (n : v ≠ Memory.unlisted a)
    (w : Memory.wfFrom lo m = true) : Memory.wfFrom lo (Tab.put m a v) = true := by
  induction m generalizing lo with
  | nil => simp [Tab.put, Memory.wfFrom, h, n]
  | cons p t ih =>
    obtain ⟨j, x⟩ := p
    simp only [Memory.wfFrom, Bool.and_eq_true, decide_eq_true_eq] at w
    simp only [Tab.put]
    split
    · rename_i e
      subst e
      simp only [Memory.wfFrom, Bool.and_eq_true, decide_eq_true_eq]
      exact ⟨⟨h, by simp [n]⟩, w.2⟩
    · split
      · simp only [Memory.wfFrom, Bool.and_eq_true, decide_eq_true_eq]
        exact ⟨⟨h, by simp [n]⟩, ⟨by omega, w.1.2⟩, w.2⟩
      · simp only [Memory.wfFrom, Bool.and_eq_true, decide_eq_true_eq]
        exact ⟨w.1, ih (by omega) w.2⟩

/-- A write keeps the form. -/
theorem Memory.wf_write {m : List Host.Cell} (a : Nat) (v : Byte) (w : Memory.wf m = true) : Memory.wf (Memory.write m a v) = true := by
  unfold Memory.write
  split
  · exact Memory.wf_filter _ w
  · rename_i h
    exact Memory.wfFrom_put (Nat.zero_le a) h w

theorem State.wf_setByte {s : State} (a : Nat) (v : Byte) (w : Memory.wf s.mem = true) : Memory.wf (s.setByte a v).mem = true := Memory.wf_write a v w

theorem State.wf_setBytes {s : State} (l : List (Nat × Byte)) (w : Memory.wf s.mem = true) : Memory.wf (s.setBytes l).mem = true := by
  unfold State.setBytes
  simp only
  generalize s.mem = m at w
  induction l generalizing m with
  | nil => exact w
  | cons p t ih => exact ih _ (Memory.wf_write p.1 p.2 w)

theorem State.wf_setNum {s : State} (a n v : Nat) (w : Memory.wf s.mem = true) : Memory.wf (s.setNum a n v).mem = true := State.wf_setBytes _ w
theorem State.wf_setWord {s : State} (a : Nat) (v : Word) (w : Memory.wf s.mem = true) : Memory.wf (s.setWord a v).mem = true := State.wf_setBytes _ w
theorem State.wf_setFe {s : State} (a : Nat) (f : Bool) (w : Memory.wf s.mem = true) : Memory.wf (s.setFe a f).mem = true := Memory.wf_write _ _ w

/-- A dropped range reads as nothing has written it. -/
theorem read_dropRange (m : List Host.Cell) (lo hi a : Nat) :
    Memory.read (dropRange m lo hi) a = if lo ≤ a ∧ a < hi then Memory.unlisted a else Memory.read m a := by
  unfold dropRange Memory.read
  induction m with
  | nil => simp [Tab.get]
  | cons p t ih =>
    obtain ⟨j, x⟩ := p
    rw [List.filter_cons]
    by_cases e : j = a
    · subst e
      by_cases h : lo ≤ j ∧ j < hi
      · simpa [h] using ih
      · have : (!(decide (lo ≤ j) && decide (j < hi))) = true := by simp; omega
        simp [this, Tab.get, h]
    · split
      · simp only [Tab.get, e, if_false]
        exact ih
      · rw [ih]
        simp only [Tab.get, e, if_false]

theorem wf_dropRange {m : List Host.Cell} (lo hi : Nat) (w : Memory.wf m = true) : Memory.wf (dropRange m lo hi) = true := Memory.wf_filter _ w

/-- Memory after reset has the form. -/
theorem reset_memory_wf : Memory.wf State.reset.mem = true := rfl

end Sys2Proof.Machine
end

