-- ==== Sys2Proof/Laws/Step.lean ====
section
/-! SUPPORT. What the shared operations can do, each said once: a step, the passing of time, the end of an instruction that stopped, the filling of a
destination, an error record, and a trap. -/

namespace Sys2Proof.Machine

/-- Everything that a step can come to. -/
theorem step_cases (s : State) :
    (∃ i t, s.agenda = i :: t ∧ s.halted.isSome = true ∧ starts i = false ∧ step s = .next { s with agenda := t }) ∨
    (∃ i t, s.agenda = i :: t ∧ (s.halted.isSome = false ∨ starts i = true) ∧ step s = exec i { s with agenda := t }) ∨
    (s.agenda = [] ∧ (step s = .next s ∨ (∃ n, busyCells s = [n] ∧ step s = elapse (stepCell s n)) ∨
      (∃ e ∈ pending s, step s = elapse (e.run { s with tick := s.tick + 1 })) ∨
      ∃ n ∈ busyCells s, step s = elapse (stepCell { s with tick := s.tick + 1 } n))) := by
  unfold step
  cases h : s.agenda with
  | cons i t =>
    simp only
    cases hs : s.halted.isSome <;> cases hi : starts i <;> simp [hi]
  | nil =>
    refine .inr (.inr ⟨rfl, ?_⟩)
    simp only
    split
    · exact .inl rfl
    · rename_i n _ hn
      exact .inr (.inl ⟨n, hn, rfl⟩)
    · split
      · rename_i h
        exact .inr (.inr (.inl ⟨_, List.mem_of_getElem? h, rfl⟩))
      · rename_i h
        exact .inr (.inr (.inr ⟨_, List.mem_of_getElem? h, rfl⟩))
      · exact .inl rfl

/-- Time passes only after a step that gives a next state, and changes nothing but the clock, the number of choices made and what has come up
outside. -/
theorem elapse_next {o : Host.Outcome State Fault Refusal} {t : State} (h : elapse o = .next t) :
    ∃ s, o = .next s ∧ t = { s with tick := t.tick, tsc := t.tsc, outer := t.outer } := by
  cases o with
  | next s =>
    simp only [elapse, Host.Outcome.next.injEq] at h
    exact ⟨s, rfl, by rw [← h]⟩
  | fault f => simp [elapse] at h
  | refused r => simp [elapse] at h

theorem putRec_frame (s : State) (n : Nat) (r : Rec) : s.putRec n r = { s with mem := (s.putRec n r).mem } := by
  unfold State.putRec
  generalize List.range 4 = l
  induction l generalizing s with
  | nil => rfl
  | cons i t ih => rw [List.foldl_cons, ih]; rfl

theorem wf_putRec {s : State} (n : Nat) (r : Rec) (w : Memory.wf s.mem = true) : Memory.wf (s.putRec n r).mem = true := by
  unfold State.putRec
  generalize List.range 4 = l
  induction l generalizing s with
  | nil => exact w
  | cons i t ih => exact ih (State.wf_setWord _ _ w)

/-- What a record changes: the list of records, its queue in memory, the queue's standing and its vector. -/
theorem record_frame (s : State) (r : Rec) :
    s.record r = { s with recs := s.recs ++ [r], mem := (s.record r).mem, parts := (s.record r).parts, vecs := (s.record r).vecs } := by
  unfold State.record
  obtain ⟨m, hm⟩ : ∃ m, ∀ n, State.putRec { s with recs := s.recs ++ [r] } n r = { { s with recs := s.recs ++ [r] } with mem := m n } :=
    ⟨fun n => (State.putRec { s with recs := s.recs ++ [r] } n r).mem, fun n => putRec_frame _ n r⟩
  simp only [hm]
  split
  · split <;> rfl
  · split
    · split <;> rfl
    · rfl

@[simp] theorem record_recs (s : State) (r : Rec) : (s.record r).recs = s.recs ++ [r] := by rw [record_frame]
@[simp] theorem record_ctxs (s : State) (r : Rec) : (s.record r).ctxs = s.ctxs := by rw [record_frame]
@[simp] theorem record_cells (s : State) (r : Rec) : (s.record r).cells = s.cells := by rw [record_frame]
@[simp] theorem record_cols (s : State) (r : Rec) : (s.record r).cols = s.cols := by rw [record_frame]
@[simp] theorem record_claims (s : State) (r : Rec) : (s.record r).claims = s.claims := by rw [record_frame]
@[simp] theorem record_checkpoint (s : State) (r : Rec) : (s.record r).checkpoint = s.checkpoint := by rw [record_frame]

/-- A record whose queue has no ring in memory changes no byte. -/
theorem record_mem {s : State} {r : Rec} (h : (s.part r.part.toNat).ringSize = 0) : (s.record r).mem = s.mem := by
  unfold State.record
  simp only [h, if_true]
  split <;> rfl

/-- A record keeps the canonical form of memory. -/
theorem wf_record {s : State} (r : Rec) (w : Memory.wf s.mem = true) : Memory.wf (s.record r).mem = true := by
  unfold State.record
  simp only
  split
  · split <;> exact w
  · split
    · have k : ∀ n : Nat, ∀ v : Word, ∀ a : Nat, Memory.wf ((State.putRec { s with recs := s.recs ++ [r] } n r).setWord a v).mem = true :=
        fun n v a => State.wf_setWord a v (wf_putRec n r w)
      split
      · rw [State.raiseVector_mem]
        exact k _ _ _
      · exact k _ _ _
    · exact State.wf_setWord (s := { s with recs := s.recs ++ [r] }) _ _ w

/-- What handing a claim over changes. -/
theorem handover_frame (s : State) (e : Claim) : s.handover e = { s with claims := (s.handover e).claims, claimRets := (s.handover e).claimRets } := by
  unfold State.handover
  split <;> rfl

theorem foldl_handover_frame (l : List Claim) (s : State) :
    l.foldl State.handover s = { s with claims := (l.foldl State.handover s).claims, claimRets := (l.foldl State.handover s).claimRets } := by
  induction l generalizing s with
  | nil => rfl
  | cons e t ih => rw [List.foldl_cons, ih, handover_frame]

/-- What forgetting a strand's waiter records and claim requests changes. -/
theorem dropClaims_frame (s : State) (c : Nat) (plc : Word) :
    s.dropClaims c plc = { s with 
      claims := (s.dropClaims c plc).claims, claimReqs := (s.dropClaims c plc).claimReqs, claimOuts := (s.dropClaims c plc).claimOuts } := rfl

/-- What a trap leaves: memory but for the record of a halt, and every other context. -/
theorem takeTrap_cases (s : State) (c : Nat) (t : Trap) (isInt : Bool) (pc : Word) :
    (∃ f : Ctx → Ctx, takeTrap s c t isInt pc = s.modCtx c f) ∨
    (∃ (f : Ctx → Ctx) (r : Rec) (l : List Claim) (plc : Word), takeTrap s c t isInt pc =
      l.foldl State.handover ((((s.modCtx c f).record r).modCtx c fun x => { x with run := .halted }).dropClaims c plc)) := by
  unfold takeTrap
  simp only
  split
  · refine .inr ⟨_, _, _, _, rfl⟩
  · refine .inl ?_
    split
    · exact ⟨fun x => { x with
        arch := enterTrap (x.arch.orFlags t.flags) 3 0x3F 0 (w64 t.code.toNat) (trapPc x t pc) isInt
        walkFault := none
        labAns := none
        hold := none
        peerWait := none
        peerAns := []
        deferred := x.deferred.filter fun d => d.trap != t }, by
        simp [State.modArch, State.modCtx, State.setCtx, State.ctx, Tab_put_put]⟩
    · exact ⟨fun x => { x with
        arch := enterTrap (x.arch.orFlags t.flags) (trapTarget (x.arch.orFlags t.flags) t) t.code.toNat t.det.toNat t.tval (trapPc x t pc) isInt
        walkFault := none
        labAns := none
        hold := none
        peerWait := none
        peerAns := []
        deferred := x.deferred.filter fun d => d.trap != t }, by
        simp [State.modArch, State.modCtx, State.setCtx, State.ctx, Tab_put_put]⟩

/-- A trap keeps the canonical form of memory. -/
theorem wf_takeTrap {s : State} (c : Nat) (t : Trap) (isInt : Bool) (pc : Word) (w : Memory.wf s.mem = true) :
    Memory.wf (takeTrap s c t isInt pc).mem = true := by
  obtain ⟨f, h⟩ | ⟨f, r, l, plc, h⟩ := takeTrap_cases s c t isInt pc
  · rw [h]
    exact w
  · rw [h, foldl_handover_frame, dropClaims_frame]
    exact wf_record r w

/-- What an instruction that has to wait changes: no memory and no record. -/
theorem idle_frame (s : State) (c : Nat) (w : Todo) : idle s c w = { s with
    ctxs := (idle s c w).ctxs, walks := (idle s c w).walks, stamp := (idle s c w).stamp, labelJobs := (idle s c w).labelJobs, peerOut := (idle s c w).peerOut } := by
  unfold idle
  split
  · rfl
  · unfold askWalk askWalks
    simp only
    split <;> rfl
  · unfold askHeld
    split <;> rfl
  · unfold askHeld
    split <;> rfl
  · split <;> rfl
  · rfl

/-! ### Hits of the product cache (R360) -/

/-- A hit changes the order of a product cache alone. -/
theorem hitPcache_frame (s : State) (c : Nat) (p : PEntry → Bool) : hitPcache s c p = { s with cells := (hitPcache s c p).cells } := by
  unfold hitPcache
  split <;> rfl
/-- It keeps what every product cache holds. -/
theorem hitPcache_cell (s : State) (c : Nat) (f : PEntry → Bool) (n : Nat) :
    ∃ p, (hitPcache s c f).cell n = { s.cell n with pcache := p } ∧ ∀ e, e ∈ p ↔ e ∈ (s.cell n).pcache := by
  unfold hitPcache
  split
  · exact ⟨_, rfl, fun _ => .rfl⟩
  · rename_i e h
    by_cases k : n = cellOf c
    · subst k
      refine ⟨e :: (s.cell (cellOf c)).pcache.filter (· != e), by simp, fun x => ?_⟩
      have := List.mem_of_find?_eq_some h
      by_cases y : x = e <;> simp_all
    · exact ⟨_, Tab.get_put_ne _ _ _ k, fun _ => .rfl⟩
theorem hitProduct_frame (s : State) (c : Nat) (ls : List Label) : hitProduct s c ls = { s with cells := (hitProduct s c ls).cells } := by
  unfold hitProduct
  split
  · split
    · rfl
    · exact hitPcache_frame ..
  · rfl
theorem hitProduct_cell (s : State) (c : Nat) (ls : List Label) (n : Nat) :
    ∃ p, (hitProduct s c ls).cell n = { s.cell n with pcache := p } ∧ ∀ e, e ∈ p ↔ e ∈ (s.cell n).pcache := by
  unfold hitProduct
  split
  · split
    · exact ⟨_, rfl, fun _ => .rfl⟩
    · exact hitPcache_cell ..
  · exact ⟨_, rfl, fun _ => .rfl⟩
theorem hitContent_frame (s : State) (c : Nat) (l : Label) : hitContent s c l = { s with cells := (hitContent s c l).cells } := by
  unfold hitContent
  split
  · exact hitPcache_frame ..
  · rfl
theorem hitContent_cell (s : State) (c : Nat) (l : Label) (n : Nat) :
    ∃ p, (hitContent s c l).cell n = { s.cell n with pcache := p } ∧ ∀ e, e ∈ p ↔ e ∈ (s.cell n).pcache := by
  unfold hitContent
  split
  · exact hitPcache_cell ..
  · exact ⟨_, rfl, fun _ => .rfl⟩
theorem noteView_frame (t : State) (c : Nat) (a : Arch) (xs : List Src) : noteView t c a xs = { t with cells := (noteView t c a xs).cells } := by
  unfold noteView
  induction xs generalizing t with
  | nil => rfl
  | cons x l ih => rw [List.foldl_cons, ih, hitContent_frame]
theorem noteView_cell (t : State) (c : Nat) (a : Arch) (xs : List Src) (n : Nat) :
    ∃ p, (noteView t c a xs).cell n = { t.cell n with pcache := p } ∧ ∀ e, e ∈ p ↔ e ∈ (t.cell n).pcache := by
  unfold noteView
  induction xs generalizing t with
  | nil => exact ⟨_, rfl, fun _ => .rfl⟩
  | cons x l ih =>
    obtain ⟨p, h, hp⟩ := ih (hitContent t c (a.rmeta x.r).lab)
    obtain ⟨q, k, kq⟩ := hitContent_cell t c (a.rmeta x.r).lab n
    exact ⟨p, by rw [List.foldl_cons, h, k], fun e => by rw [hp, k]; exact kq e⟩
theorem noteStore_frame (t : State) (c : Nat) (as_ : List Acc) (ls : List Label) : noteStore t c as_ ls = { t with cells := (noteStore t c as_ ls).cells } := by
  unfold noteStore
  split
  · rfl
  · exact hitProduct_frame ..

/-- What the filling of a destination changes: the registers of its strand, with a hit of the product cache, or a request to the Accord unit. -/
theorem fillOf_frame (s : State) (c : Nat) (plc : Word) (d : RegId) (v : RV) (ls : List Label) (pc : Word) :
    fillOf s c plc d v ls pc = { s with
      ctxs := (fillOf s c plc d v ls pc).ctxs, labelJobs := (fillOf s c plc d v ls pc).labelJobs, cells := (fillOf s c plc d v ls pc).cells } := by
  have k : ∀ (u : State) (f : Arch → Arch), u.modArchOf c plc f = { u with ctxs := (u.modArchOf c plc f).ctxs } := by
    intro u f
    unfold State.modArchOf
    split <;> rfl
  unfold fillOf
  split
  · rfl
  · split
    · rw [hitProduct_frame, k]
    · rw [hitProduct_frame, k]
    · simp only
      rw [k]

end Sys2Proof.Machine
end

