-- ==== Sys2Proof/Safety.lean ====
section
/-! DEFINITION. What counts as a safe step, in the terms claims use. -/

namespace Sys2Proof.Machine

/-- The step gives a next state. -/
def Goes (o : Host.Outcome State Fault Refusal) : Prop := ∃ t, o = .next t

/-- The step gives a next state of which `P` holds. -/
def GoesTo (o : Host.Outcome State Fault Refusal) (P : State → Prop) : Prop := ∃ t, o = .next t ∧ P t

/-- A run of any length from a state that never stops. -/
def SafeRun (s : State) : Prop := ∀ k, Goes (Host.Core.run Sys2Proof.core k s)

end Sys2Proof.Machine
end

