-- ==== Sys2Proof/Tests/Slice0.lean ====
section
/-! SUPPORT. Tests: words written out from the spec's encodings and what they decode to; terms that are no instruction of the machine; for
every statement states and operands that meet its hypotheses together; and single steps. -/

set_option maxRecDepth 20000
set_option Elab.async false
set_option linter.unusedTactic false
set_option linter.unreachableTactic false

namespace Sys2Proof.Tests

open Sys2Proof.Machine Sys2Proof.Spec

/-! ### Small states -/

/-- Context 0 of cell 0 runs at monitor level. -/
def base : State := State.reset.withFetchWord 32 0x6D
/-- `base` with these g registers. -/
def withG (g : Tab (Reg Word)) : State := base.modArch 0 fun a => { a with g := g }
/-- At user level. -/
def user (s : State) : State := s.modArch 0 fun a => { a with status := a.status &&& ~~~3 }
/-- A register that waits for its data. -/
def dueReg : Reg Word := ⟨0, .empty, .top, 0, 0, true, false⟩
/-- A faulted register. -/
def faultedReg : Reg Word := ⟨7, .faulted, .top, 2, 0x40, false, false⟩
/-- A state with an open label space 1 of partition 0. -/
def spaced (s : State) : State := { s with spaces := [(1, ⟨0, true, 0, [], 0, 10, 0, 0, []⟩)] }
/-- A reference: format, handle number, offset (R23). -/
def refTo (fmt h off : Nat) : Word := w64 (fmt * 2 ^ 58 + 4 * 2 ^ 54 + h * 2 ^ 40 + off)
/-- A handle entry: base, kind, bound, flags (R24). -/
def handleOf (b kind bound flags : Nat) : HEntry := ⟨w64 (b + kind * 2 ^ 57), w64 (bound + flags * 2 ^ 42), 0, 0⟩
/-- A reference to 64-bit words at offset 64 of the own scratchpad, and of a page of DRAM at 0x200000, in g5 and g6; g7 holds 9, and g8 a reference to the byte beyond the bound. -/
def memState : State :=
  ((withG [(5, .of (refTo 0 0 64)), (6, .of (refTo 0 1 64)), (7, .of 9), (8, .of (refTo 0 0 0x8000))]).modCell 0 fun k => { k with
    tlb := k.tlb ++ [⟨0, 0x10000, 0x10000, w64 (0x1B + 0x200000)⟩]
    hcache := [(0, handleOf 0 1 0x8000 7), (1, handleOf 0x10000 0 0x10000 7)] }).modArch 0 fun a => { a with
    param := w64 (2 ^ 63 + 0x10000 + 0x7F)
    q := [(0, .of 0)]
    v := [(1, .of 0x55)]
    x := [(1, .of 8)] }
/-- The access of a word at offset 64 of the scratchpad of cell 0 by `memState`. -/
def spad8 : Acc := spadAcc (refTo 0 0 64) (spadAddr 0 64) 8
/-- The access of a word at offset 64 of its page by `memState`. -/
def dram8 : Acc := ⟨0x200040, 8, refTo 0 1 64, 0x10040, 0, false, 0, true, none, none, false⟩

/-- What holds of the default and of every listed entry holds of any. -/
theorem tab_all {α : Type} (f : α → Bool) (t : Tab α) (d : α) (n : Nat) (hd : f d = true) (h : t.all (fun p => f p.2) = true) : f (Tab.get t n d) = true := by
  induction t with
  | nil => exact hd
  | cons p t ih =>
    simp only [List.all_cons, Bool.and_eq_true] at h
    simp only [Tab.get] at ih ⊢
    split
    · exact h.1
    · exact ih h.2

/-- Caches are empty where no listed cell holds a line. -/
theorem caches_empty (s : State) (h : s.cells.all (fun p => p.2.l1 == []) = true) (h2 : s.l2 = []) : CachesEmpty s :=
  ⟨fun k => by simpa [State.cell] using tab_all (fun c : Cell => c.l1 == []) s.cells (.reset k) k rfl h, h2⟩
/-- No ring is set up where no listed partition has one. -/
theorem no_rings (s : State) (h : s.parts.all (fun p => p.2.ringSize == 0) = true) : NoRings s :=
  fun p => by simpa [State.part] using tab_all (fun c : Part => c.ringSize == 0) s.parts .reset p rfl h
/-- `memState` with masks and lane numbers for the vector accesses. -/
def vecState : State := memState.modArch 0 fun a => { a with v := [(1, .of 0x55), (2, .of 0x00000001_00000000)], q := [(0, .of 0), (1, .of 0xC0)] }
/-- The word `n` words further on. -/
def further (a : Acc) (n : Nat) : Acc := { a with addr := a.addr + 8 * n, va := a.va + w64 (8 * n), ref := a.ref + w64 (8 * n) }
/-- A request of context 0 for that scratchpad word, with g31 as destination. -/
def reqTo (k : ReqKind) : Req := ⟨k, 0, 1, spad8.addr, spad8.ref, spad8.va, ⟨.g, 31⟩, .context, 0x77, .top, .top, none, 3, 0, none, 0, false⟩
/-- The byte that the line instructions' address phase reads. -/
def lineAcc : Acc := { dram8 with size := 1 }
/-- A dirty line of `memState`'s page in the cell's L1. -/
def dirtyL1 : L1Line := ⟨0x200040 / 64, 0x10040, [(0, 0x5A, true), (63, 0x5B, true)], [], true, false, 0, false⟩
/-- `base` with vectors and masks: v1 and v2 hold 1.0 in lane 0 of FP64; q0 selects lanes 0 and 7. -/
def lanes (st : Word) : State := base.modArch 0 fun a => { a with
  status := st, v := [(1, .of 0x3FF0000000000000), (2, .of 0x3FF0000000000000), (3, .of 0)], q := [(0, .of 0x81), (7, .of 0x8000000000000001)], g := [(5, .of 1)] }
/-- Page tables of partition 0 that map the last page of the address space: a root at 0x400000 and one table of each lower level after it. -/
def paged (leaf : Word) : State :=
  let s := base.modPart 0 fun p => { p with root := 0x400000 }
  ((((s.setWord (0x400000 + 8 * 511) 0x401001).setWord (0x401000 + 8 * 511) 0x402001).setWord (0x402000 + 8 * 511) 0x403001).setWord
    (0x403000 + 8 * 511) 0x404001).setWord (0x404000 + 8 * 511) leaf

/-- `memState` with a handle to the scratchpad of cell 16, in column 1, that g6 refers to; column 1 has no power. -/
def farState : State :=
  ((({ memState with cols := [(1, { memState.col 1 with cellPower := false })] } : State).modPart 0 fun p => { p with stations := BitVec.allOnes 76 }).modCell 0 fun k => { k with
    hcache := [(2, ⟨w64 (2 * 2 ^ 57), w64 (0x8000 + 7 * 2 ^ 42 + 16 * 2 ^ 48), 0, w64 (1 + 0xFFFF * 2 ^ 16)⟩)] }).modArch 0 fun a => { a with g := [(6, .of (refTo 0 2 64))] }

/-! ### Words written out from the spec's encodings (R71 to R81) -/
theorem test_decode_add_to_xor :
    decode 0x0C310403 = .ok (.add 4 4 3 true true .w64 .wrapI) ∧
    decode 0xD4AF5505 = .ok (.sub 21 61 10 true false .w32 .satN) ∧
    decode 0x52660707 = .ok (.mul 7 24 38 false false .w32 .wrapN) ∧
    decode 0x0056DC09 = .ok (.mulh 28 27 5 false false) ∧
    decode 0x10472409 = .ok (.mulhn 36 28 4 false false) ∧
    decode 0x1C71850B = .ok (.div 5 6 7 true true .w32) ∧
    decode 0x5BD9A90B = .ok (.divn 41 38 61 false true .w32) ∧
    decode 0xA833FF0B = .ok (.rem 63 15 3 false true .w16) ∧
    decode 0xD488CA0B = .ok (.remn 10 35 8 true false .w32) ∧
    decode 0x0A99660D = .ok (.and 38 37 41 false true) ∧
    decode 0x12E9070D = .ok (.or 7 36 46 false false) ∧
    decode 0x2E03A80D = .ok (.xor 40 14 32 true true) := by
  decide

theorem test_decode_mov_to_maxn :
    decode 0x34099E0D = .ok (.mov 30 38 true) ∧
    decode 0x0105180F = .ok (.shl 24 20 16 false false) ∧
    decode 0x1D49460F = .ok (.shr 6 37 20 true true) ∧
    decode 0x21376F0F = .ok (.sra 47 29 19 false false) ∧
    decode 0x34B6E10F = .ok (.rotl 33 27 11 true false) ∧
    decode 0x04083C11 = .ok (.clz 60 32 true) ∧
    decode 0x100F8311 = .ok (.ctz 3 62 false) ∧
    decode 0x24093111 = .ok (.popc 49 36 true) ∧
    decode 0x0D7B5613 = .ok (.min 22 45 23 true true) ∧
    decode 0x1C6D8513 = .ok (.max 5 54 6 true true) ∧
    decode 0x285AED13 = .ok (.minn 45 43 5 false true) ∧
    decode 0x3EC96A13 = .ok (.maxn 42 37 44 true true) := by
  decide

theorem test_decode_sext_to_ori :
    decode 0x04266E15 = .ok (.sext 46 25 true 2) ∧
    decode 0x14B7BD15 = .ok (.zext 61 30 true 11) ∧
    decode 0x22022815 = .ok (.bfx 40 8 32 false false) ∧
    decode 0x3894F215 = .ok (.bfi 50 19 9 false true) ∧
    decode 0x078EDA17 = .ok (.sel 26 59 56 true false) ∧
    decode 0x05A74B19 = .ok (.slt 11 29 26 true false) ∧
    decode 0x1F873519 = .ok (.sltn 53 28 56 true true) ∧
    decode 0x279B1719 = .ok (.seq 23 44 57 true false) ∧
    decode 0x00C18A1B = .ok (.hash 10 6 12 false false) ∧
    decode 0x00314521 = .ok (.addi 5 5 true 1) ∧
    decode 0x7C43EB23 = .ok (.andi 43 15 false 994) ∧
    decode 0x4369B625 = .ok (.ori 54 38 false 539) := by
  decide

theorem test_decode_xori_to_roff :
    decode 0x6B605327 = .ok (.xori 19 1 false 859) ∧
    decode 0xF4162329 = .ok (.slti 35 24 true 1952) ∧
    decode 0x03CB492B = .ok (.shli 9 45 false 30) ∧
    decode 0x035E3A2D = .ok (.shri 58 56 true 26) ∧
    decode 0x0531DA2F = .ok (.srai 26 7 true 41) ∧
    decode 0x00A11A31 = .ok (.rotli 26 4 false 5) ∧
    decode 0x00014333 = .ok (.li 3 5) ∧
    decode 0x70CD0E35 = .ok (.lih 14 115508) ∧
    decode 0x01620B41 = .ok (.rmake 11 8 22 false false) ∧
    decode 0x18A94141 = .ok (.radd 1 37 10 false true) ∧
    decode 0x2850A841 = .ok (.rsetf 40 2 5 false true) ∧
    decode 0x340A4A41 = .ok (.roff 10 41 true) := by
  decide

theorem test_decode_ridx_to_bgen :
    decode 0x4405FE41 = .ok (.ridx 62 23 true) ∧
    decode 0xD9621F43 = .ok (.raddi 31 8 false 1739) ∧
    decode 0x7CF20851 = .ok (.j 8188424) ∧
    decode 0xFE3BFB53 = .ok (.jal 16661499) ∧
    decode 0x040FC055 = .ok (.jr 63 true) ∧
    decode 0x10051F55 = .ok (.jalr 31 20 false) ∧
    decode 0x7AF1CA57 = .ok (.beq 10 7 true true 491) ∧
    decode 0x34CB7659 = .ok (.bne 54 45 false false 211) ∧
    decode 0xB0D8BD5B = .ok (.blt 61 34 true false 707) ∧
    decode 0xFAAEE35D = .ok (.bge 35 59 false true 1002) ∧
    decode 0x84EE2A5F = .ok (.bltn 42 56 false true 531) ∧
    decode 0xC5EED861 = .ok (.bgen 24 59 false true 791) := by
  decide

theorem test_decode_bz_to_st :
    decode 0xA2EE4F63 = .ok (.bz 15 true 83420) ∧
    decode 0xFFFEC365 = .ok (.bnz 3 true 131069) ∧
    decode 0xE4678F67 = .ok (.loop 15 false 207 8 14) ∧
    decode 0x01814369 = .ok (.loopw 3 true 2 3 0) ∧
    decode 0x0026806B = .ok (.loopl 26 false 2) ∧
    decode 0x0000006D = .ok (.nop) ∧
    decode 0x04080571 = .ok (.xset 5 32 true) ∧
    decode 0x10006F71 = .ok (.xget 47 1) ∧
    decode 0x489CC173 = .ok (.xld 1 51 true .long 9) ∧
    decode 0xB1494275 = .ok (.xli 2 181541) ∧
    decode 0x03110581 = .ok (.ld 5 4 true .word .dflt 0) ∧
    decode 0x03310583 = .ok (.st 5 4 true true .word .dflt 0) := by
  decide

theorem test_decode_lda_to_put :
    decode 0x64DFA785 = .ok (.lda 39 62 true .device .bypass 12) ∧
    decode 0x0C30C787 = .ok (.str 7 3 true true .device .dflt 1) ∧
    decode 0x205FFE89 = .ok (.ldv 62 63 true false .short 4) ∧
    decode 0xA0A7CF8B = .ok (.stv 15 31 false true false .long 20) ∧
    decode 0x64CA3A8D = .ok (.vlds 58 40 false 4 .bypass 12) ∧
    decode 0x786AB48F = .ok (.vgath 52 42 6 false true 7 false) ∧
    decode 0x9CCE5F91 = .ok (.vscat 31 57 12 true true 1 true) ∧
    decode 0x36069E93 = .ok (.ldp 30 26 false .i32 6) ∧
    decode 0x9842C095 = .ok (.pref 11 false false .short 19) ∧
    decode 0x85C7BA99 = .ok (.lds 58 30 false .system .bypass 16) ∧
    decode 0x0211859B = .ok (.take 5 6 true .column .dflt 0) ∧
    decode 0x2DDF2B9D = .ok (.put 43 60 true false .system .bypass 5) := by
  decide

theorem test_decode_putFullFault_to_icinvalLine :
    decode 0xDC40429F = .ok (.putFullFault 2 1 false false .device .short 27) ∧
    decode 0x3883B8A1 = .ok (.feq 56 14 false .long 7) ∧
    decode 0x9184C0A3 = .ok (.feset 19 false true .long 18) ∧
    decode 0x041105A5 = .ok (.lrw 5 4 true .device .dflt 0) ∧
    decode 0x043105A7 = .ok (.sc 5 4 true true .device .dflt 0) ∧
    decode 0x61C6C0A9 = .ok (.screl 27 false .cell .bypass 12) ∧
    decode 0x000480AB = .ok (.fence .rel .column) ∧
    decode 0x000000AD = .ok (.pfence .context) ∧
    decode 0x000000AF = .ok (.ppoint) ∧
    decode 0x98DE80B1 = .ok (.dclean 58 true .bypass 19) ∧
    decode 0x28DD40B3 = .ok (.dinval 53 true .bypass 5) ∧
    decode 0x8808C0B5 = .ok (.icinvalLine 35 false 17) := by
  decide

theorem test_decode_icinvalCell_to_vmax :
    decode 0x010000B5 = .ok (.icinvalCell) ∧
    decode 0x000000B7 = .ok (.fetchb) ∧
    decode 0xC88840B9 = .ok (.cpinPin 33 false .long 25) ∧
    decode 0x314300B9 = .ok (.cpinUnpin 12 false .short 6) ∧
    decode 0x3287CAC1 = .ok (.vadd 10 31 40 false false .bf16) ∧
    decode 0xD648ACC1 = .ok (.vsub 44 34 36 true false .i32) ∧
    decode 0x74D404C3 = .ok (.vmul 4 16 13 true false .i8) ∧
    decode 0xA1D847C3 = .ok (.vdiv 7 33 29 false false .fp16) ∧
    decode 0x1C3081C5 = .ok (.vfma 1 2 3 true true .fp32) ∧
    decode 0xABFA15C5 = .ok (.vfms 21 40 63 false true .fp16) ∧
    decode 0x6748E1C7 = .ok (.vmin 33 35 52 true false .i16) ∧
    decode 0xF7DE62C7 = .ok (.vmax 34 57 61 true false .i8) := by
  decide

theorem test_decode_vsqrt_to_vshr :
    decode 0x14025DC9 = .ok (.vsqrt 29 9 true .fp32) ∧
    decode 0x14175AC9 = .ok (.vrcp 26 29 true .fp32) ∧
    decode 0x14242BC9 = .ok (.vrsq 43 16 true .fp32) ∧
    decode 0x743ACEC9 = .ok (.vabs 14 43 true .i8) ∧
    decode 0x604E88C9 = .ok (.vneg 8 58 false .i16) ∧
    decode 0x1C3091CB = .ok (.vcmp 1 .lt 2 3 true true .fp32) ∧
    decode 0x298AEACD = .ok (.vsel 42 43 24 false true 2) ∧
    decode 0x08F7BECF = .ok (.vand 62 30 15 false true) ∧
    decode 0x10B839CF = .ok (.vor 57 32 11 false false) ∧
    decode 0x2E172ECF = .ok (.vxor 46 28 33 true true) ∧
    decode 0x35735BD1 = .ok (.vshl 27 13 23 true false .w8) ∧
    decode 0x7D6098D1 = .ok (.vshr 24 2 22 true true .w8) := by
  decide

theorem test_decode_vshrArith_to_mnot :
    decode 0x956642D1 = .ok (.vshrArith 2 25 22 true false .w32) ∧
    decode 0x2D1144D3 = .ok (.vcvt 4 5 true .fp32 .fp16 (some .zero)) ∧
    decode 0x100CFBD5 = .ok (.vbcast 59 51 false .w32) ∧
    decode 0x612446D5 = .ok (.vext 6 17 18 false false .w16) ∧
    decode 0xAF5271D5 = .ok (.vins 49 9 53 true true .w16) ∧
    decode 0xDFB8CAD5 = .ok (.vperm 10 35 59 true true .w32) ∧
    decode 0x102112D7 = .ok (.vred 18 4 false .max .fp32) ∧
    decode 0x982F52D7 = .ok (.vdot 18 61 2 false true .fp32) ∧
    decode 0x0821C5D9 = .ok (.mand 5 7 2 false true) ∧
    decode 0x184047D9 = .ok (.mor 7 1 4 false true) ∧
    decode 0x203105D9 = .ok (.mxor 5 4 3 false false) ∧
    decode 0x340000D9 = .ok (.mnot 0 0 true) := by
  decide

theorem test_decode_mpop_to_trowv :
    decode 0x4001A2D9 = .ok (.mpop 34 6 false) ∧
    decode 0x541081D9 = .ok (.mset 1 2 true .spread2) ∧
    decode 0x0C1002DD = .ok (.mma 2 0 1 3 false) ∧
    decode 0x0C60C2DF = .ok (.mmaz 2 3 6 3 false) ∧
    decode 0xD38743E1 = .ok (.tld 3 29 false 3 .long 26) ∧
    decode 0xC14441E3 = .ok (.tst 1 17 false 1 .short 24) ∧
    decode 0x000005E5 = .ok (.tzero 5) ∧
    decode 0x200085E5 = .ok (.tcvt 5 2) ∧
    decode 0x402105E5 = .ok (.tadd 5 4 2) ∧
    decode 0x780044E5 = .ok (.tscale 4 1 6) ∧
    decode 0x800187E5 = .ok (.ttrans 7 6) ∧
    decode 0xB0019CE5 = .ok (.trowv 28 6 4) := by
  decide

theorem test_decode_tvrow_to_lget :
    decode 0xD00D85E5 = .ok (.tvrow 5 54 4) ∧
    decode 0x0C6143E7 = .ok (.trange 3 5 6 true true .rows) ∧
    decode 0x0860C5E9 = .ok (.tfact 5 3 6 2 false) ∧
    decode 0xC07083EB = .ok (.tsolve 3 2 7 false true true) ∧
    decode 0x000FC0EF = .ok (.accz 63 false) ∧
    decode 0x181276EF = .ok (.accwp 54 9 1 false true) ∧
    decode 0x2002DCEF = .ok (.accr 28 11 false) ∧
    decode 0x340AC6EF = .ok (.accrFp64 6 43 true) ∧
    decode 0x461E00EF = .ok (.accm 56 33 true false) ∧
    decode 0x0C5100F1 = .ok (.accw 4 5 true true .fp32) ∧
    decode 0x0C1104F3 = .ok (.ltag 4 4 1 true true) ∧
    decode 0x1040EDF3 = .ok (.lget 45 3 false .x) := by
  decide

theorem test_decode_lset_to_fulfil :
    decode 0x2442C2F3 = .ok (.lset 2 11 true .x) ∧
    decode 0x3D8441F3 = .ok (.lprod 1 17 24 true true) ∧
    decode 0x4C818BF3 = .ok (.lholds 11 6 8 true true) ∧
    decode 0x5C018AF3 = .ok (.lenv 10 6 0 true true) ∧
    decode 0x640187F3 = .ok (.lcnt 7 6 true) ∧
    decode 0x77E0D0F3 = .ok (.lsel 16 3 62 true false) ∧
    decode 0x840209F3 = .ok (.nogood 9 8 true) ∧
    decode 0x900000F3 = .ok (.lsync) ∧
    decode 0xA00317F3 = .ok (.lcompact 23 12 false) ∧
    decode 0x000005F5 = .ok (.claim 5) ∧
    decode 0x100005F5 = .ok (.claimw 5) ∧
    decode 0x2421C0F5 = .ok (.fulfil 7 true .long) := by
  decide

theorem test_decode_abandon_to_encpost :
    decode 0x300000F5 = .ok (.abandon) ∧
    decode 0x400005F5 = .ok (.cldrop 5) ∧
    decode 0x000011F7 = .ok (.cpgo 17) ∧
    decode 0x100656F7 = .ok (.cpmc 22 25 false) ∧
    decode 0x2127C0F7 = .ok (.slotret 31 18 false false) ∧
    decode 0x300CA1F7 = .ok (.slotq 33 50 false) ∧
    decode 0x4CF380F7 = .ok (.tbinit 14 15 true true) ∧
    decode 0x5D0380F7 = .ok (.tbexp 14 16 true true) ∧
    decode 0x641380F7 = .ok (.tbarr 14 true .cell) ∧
    decode 0x7D3392F7 = .ok (.tbwait 18 14 19 true true) ∧
    decode 0x835446F7 = .ok (.tbtime 6 17 53 false false) ∧
    decode 0x94399AF7 = .ok (.encpost 26 38 3 true false) := by
  decide

theorem test_decode_gath_to_trap :
    decode 0xE00014F7 = .ok (.gath 20 .long) ∧
    decode 0x000A40F9 = .ok (.nsignal 41 false) ∧
    decode 0x100000F9 = .ok (.strdone) ∧
    decode 0x600986F9 = .ok (.cancel 6 38 false .job) ∧
    decode 0xA40571F9 = .ok (.cntq 49 21 true .graph) ∧
    decode 0x000005FB = .ok (.mfcr 5 .status) ∧
    decode 0x020280FD = .ok (.mtcr .cpsrc 10) ∧
    decode 0x0004C0FD = .ok (.mtcrStatus 19) ∧
    decode 0x008BC0FD = .ok (.mtcrSpace 47) ∧
    decode 0x030A00FD = .ok (.mtcrSlotinit 40) ∧
    decode 0x10B280FD = .ok (.mtcrTcfg 11 10) ∧
    decode 0x012001FD = .ok (.trap 18) := by
  decide

theorem test_decode_eret_to_cOr :
    decode 0x000002FD = .ok (.eret) ∧
    decode 0xD330C3FD = .ok (.signal 3 3379) ∧
    decode 0x004D84FD = .ok (.repart 54 .m4) ∧
    decode 0x001BC5FD = .ok (.tlbinv 47 .pagePart) ∧
    decode 0x000EC6FD = .ok (.hinval 59 false) ∧
    decode 0x0B0D47FD = .ok (.routeset 53 176) ∧
    decode 0x096008FD = .ok (.routeinv 150 false) ∧
    decode 0x0002 = .ok (.cMov 0 0) ∧
    decode 0x0244 = .ok (.cAdd 2 1) ∧
    decode 0x0626 = .ok (.cSub 1 3) ∧
    decode 0x0D68 = .ok (.cAnd 11 6) ∧
    decode 0x0E4A = .ok (.cOr 2 7) := by
  decide

theorem test_decode_cXor_to_cJr :
    decode 0x11CC = .ok (.cXor 14 8) ∧
    decode 0xFE6E = .ok (.cAddi 3 127) ∧
    decode 0x0930 = .ok (.cShli 9 4) ∧
    decode 0x0772 = .ok (.cLi 11 3) ∧
    decode 0x4494 = .ok (.cLd 4 2 2) ∧
    decode 0xD376 = .ok (.cSt 11 9 6) ∧
    decode 0x7E98 = .ok (.cBz 4 63) ∧
    decode 0x02BA = .ok (.cBnz 5 1) ∧
    decode 0x751C = .ok (.cJ 936) ∧
    decode 0x01BE = .ok (.cJr 13) := by
  decide

/-! ### Terms that are no instruction or event of the machine -/

theorem wf_refuses_empty_loops : (Instr.loop 1 true 0 0 0).wf = false ∧ (Instr.loopw 1 true 0 0 0).wf = false := by decide
theorem wf_refuses_absent_contexts : ∀ i ∈ [Instr.interruptTaken 16384, .loopBack 16384, .divideComplete 16384 0, .loadDataReturn 16384 0, .deferredDataErrorFault 16384,
    .vectorLongComplete 16384 0, .accumulatorComplete 16384 0, .wcbDrain 16384 0, .automaticPersistencePoint 16384, .imageComplete 16384, .peerAccessTimeout 16384,
    .strandPlacement 16384, .budgetOverrun 16384, .preEmption 16384, .restore 16384, .deferredDelivery 16384 0, .lostRequestTimeout 16384 0], i.wf = false := by decide
theorem wf_refuses_absent_cells : ∀ i ∈ [Instr.matrixInstructionStart 1024, .matrixInstructionComplete 1024, .followOnOffer 1024 0, .l1WriteBack 1024 0 false,
    .shadowLineCopy 1024 0, .requestAbandonTimeout 1024 0, .requestAbandonTimeout 0 64, .copySlotAllocation 1024, .copyLine 1024 0, .copyLine 0 64, .imageReceipt 1024 [],
    .adoptSpareCell 1024, .repairBanks 1024, .instructionCacheEviction 1024 0, .handleCacheEviction 1024 0], i.wf = false := by decide
theorem wf_refuses_absent_columns : ∀ i ∈ [Instr.cellLoss 64, .stationLoss 64, .lossReport 64, .columnResume 64, .gatherIndexRead 64 0, .gatherRowMove 64 0,
    .temperatureSample 64 0 0 0 0, .droopStretch 64, .droopStretchLong 64, .supplyRecovery 64, .clearSensorMarking 64 0, .clearSensorMarking 0 3, .setPowerCap 64 0,
    .powerColumn 64 true true], i.wf = false := by decide
theorem wf_refuses_absent_units : ∀ i ∈ [Instr.generationBroadcast 0 64, .nogoodAcknowledge 0 64, .encoderFrameStart 32, .encoderFrameReadDone 32, .encoderRecordWrite 32, .scrub 8 0,
    .bubbleStarvation 76 0, .bubbleStarvation 0 24, .loopFailure true 76, .loopFailure false 24, .portDown 8, .portUp 8, .commissionSpareLoop 24 0, .commissionSpareLoop 20 24,
    .substituteL2WayGroup 128, .releaseQuarantineEntry 128 0, .takeSliceOutOfService 128, .msixVectorUnmask 1040, .invalidMailboxCommand 1, .invalidMailboxCommand 11],
    i.wf = false := by decide

/-! ### Single steps: what the rules give for these operands -/

/-- The state after one step that fetches this word, with these g registers. -/
def after (w : Nat) (g : Tab (Reg Word)) : Option State :=
  match step ((withG g).withFetchWord 32 w) with
  | .next t => some t
  | _ => none
/-- A g register of context 0 after such a step. -/
def gAfter (w : Nat) (g : Tab (Reg Word)) (n : Nat) : Option Word := (after w g).map fun t => ((t.ctx 0).arch.gr n).val

/-- The word of an instruction. -/
def wordOf (i : Instr) : Nat := (encode i).getD 0

/-- R128's worked example. -/
theorem test_li_lih : gAfter (wordOf (.li 5 4064)) [] 5 = some 4064 ∧ gAfter (wordOf (.lih 5 0)) [(5, .of 4064)] 5 = some 0x3F800000 := by decide +kernel
/-- R130: the amount is its low six bits. -/
theorem test_shl_amount : gAfter (wordOf (.shl 4 5 6 true true)) [(5, .of 3), (6, .of 65)] 4 = some 6 := by decide +kernel
/-- R133's worked example of BFX. -/
theorem test_bfx : gAfter (wordOf (.bfx 4 5 6 true true)) [(5, .of 0xABCD), (6, .of 0x0704)] 4 = some 0xBC := by decide +kernel
/-- R138's worked example of RMAKE. -/
theorem test_rmake : gAfter (wordOf (.rmake 4 6 7 true true)) [(6, .of 0x80005), (7, .of 0x100)] 4 = some 0x0800050000000100 := by decide +kernel
/-- R11: g0 discards what is written to it. -/
theorem test_g0 : gAfter (wordOf (.li 0 7)) [] 0 = some 0 := by decide +kernel
/-- R127: ADDI wraps. -/
theorem test_addi_wraps : gAfter (wordOf (.addi 4 5 true 1)) [(5, .of 0xFFFFFFFFFFFFFFFF)] 4 = some 0 := by decide +kernel
/-- A source is also the destination. -/
theorem test_sub_same : gAfter (wordOf (.sub 5 5 6 true true .w64 .wrapI)) [(5, .of 3), (6, .of 5)] 5 = some 0xFFFFFFFFFFFFFFFE := by decide +kernel
/-- The pc moves on by the instruction's length, 4 for a core word and 2 for a compact one. -/
theorem test_pc : (after (wordOf .nop) []).map (fun t => (t.ctx 0).arch.pc) = some 4 ∧ (after 0xFE6E []).map (fun t => (t.ctx 0).arch.pc) = some 2 := by decide +kernel
/-- R33, R34: TRAP 3 at monitor level enters the monitor handler: TPC, TVAL, TCAUSE, and STATUS with PL 3, TN 1, PPL 3 and PIE as IE was. -/
theorem test_trap : (after (wordOf (.trap 3)) []).map (fun t => ((me t).mon, (me t).pl, (me t).tn, (me t).ie)) = some (⟨0, 0x20, 0, 3⟩, 3, true, false) := by decide +kernel
/-- R34: at user level the same TRAP goes to the supervisor, and one with bit 11 of its immediate set to the monitor. -/
theorem test_trap_user :
    (let run (n : BitVec 12) := match exec (.trap n) (user base) with | .next t => some ((me t).pl, (me t).sup.tval, (me t).mon.tval) | _ => none;
      run 3 = some (1, 3, 0) ∧ run 0x803 = some (3, 0, 0x803)) := by decide +kernel
/-- R34: with TN set at monitor level a trap halts its context. -/
theorem test_double_trap :
    (let s := base.modArch 0 fun a => { a with status := a.status ||| 0x100000 };
      (me s).tn = true ∧ (match exec (.trap 3) s with | .next t => some (t.ctx 0).run | _ => none) = some .halted) := by decide +kernel

/-! ### States and operands that meet the hypotheses of each statement -/

/-! ### The hypotheses of the statements are met together -/

theorem witness_ScalarResult :
    (let s := withG [(5, .of 9), (6, .of 4)]; let i := Instr.and 4 5 6 false true
      MayIssue i s ∧ scalarRule (me s) i = some ⟨⟨.g, 4⟩, [srcG 5 false 0, srcG 6 true 1], 0⟩ ∧ Readable (me s) [srcG 5 false 0, srcG 6 true 1] ∧
        Writable (me s) ⟨.g, 4⟩) ∧
    (let s := user base; let i := Instr.cLi 15 0x40
      MayIssue i s ∧ scalarRule (me s) i = some ⟨⟨.g, 15⟩, [], 0xFFFFFFFFFFFFFFC0⟩ ∧ Readable (me s) [] ∧ Writable (me s) ⟨.g, 15⟩) := by
  unfold MayIssue Readable Writable; decide +kernel

theorem witness_ArithmeticResult :
    (let s := withG [(5, .of 0x7F), (6, .of 1)]; let i := Instr.add 0 5 6 true true .w8 .satI
      MayIssue i s ∧ exactArith (me s) i = some (⟨.g, 0⟩, [srcG 5 true 0, srcG 6 true 1], 8, .satI, 128) ∧
        Readable (me s) [srcG 5 true 0, srcG 6 true 1] ∧ Writable (me s) ⟨.g, 0⟩ ∧ shapedFlags 8 .satI 128 &&& (me s).en = 0) ∧
    (let s := user ((withG [(5, .of 0x7F), (6, .of 1)]).modArch 0 fun a => { a with status := 0xFC003 }); let i := Instr.add 4 5 6 true true .w8 .satI
      MayIssue i s ∧ exactArith (me s) i = some (⟨.g, 4⟩, [srcG 5 true 0, srcG 6 true 1], 8, .satI, 128) ∧
        Readable (me s) [srcG 5 true 0, srcG 6 true 1] ∧ Writable (me s) ⟨.g, 4⟩ ∧ shapedFlags 8 .satI 128 &&& (me s).en ≠ 0 ∧ (me s).pl = 0 ∧
        (me s).tn = false) := by
  unfold MayIssue Readable Writable; dsimp only; and_intros <;> decide +kernel

theorem witness_ScalarFrame :
    let s := withG [(5, .of 9)]; let i := Instr.mov 0 5 false
    MayIssue i s ∧ scalarRule (me s) i = some ⟨⟨.g, 0⟩, [srcG 5 false 0], 9⟩ ∧ Readable (me s) [srcG 5 false 0] ∧ Writable (me s) ⟨.g, 0⟩ ∧
      ∃ t, exec i s = .next t := by
  refine ⟨?_, ?_, ?_, ?_, _, rfl⟩
  · unfold MayIssue; decide +kernel
  · rfl
  · unfold Readable; decide +kernel
  · unfold Writable; decide +kernel

theorem witness_SourcesWaitOrFault :
    (let s := withG [(4, dueReg)]; MayIssue (.mov 4 5 false) s ∧ scalarRule (me s) (.mov 4 5 false) = some ⟨⟨.g, 4⟩, [srcG 5 false 0], 0⟩ ∧
      ((me s).rmeta ⟨.g, 4⟩).fe = .empty) ∧
    (let s := withG [(5, dueReg), (6, faultedReg)]; let i := Instr.and 4 5 6 true true; let j := Instr.mov 4 5 false; let k := Instr.mov 4 6 false
      MayIssue i s ∧ MayIssue j s ∧ MayIssue k s ∧
      scalarRule (me s) i = some ⟨⟨.g, 4⟩, [] ++ srcG 5 true 0 :: [srcG 6 true 1], 0⟩ ∧ scalarRule (me s) j = some ⟨⟨.g, 4⟩, [] ++ srcG 5 false 0 :: [], 0⟩ ∧
      scalarRule (me s) k = some ⟨⟨.g, 4⟩, [] ++ srcG 6 false 0 :: [], 7⟩ ∧ ((me s).rmeta ⟨.g, 4⟩).fe ≠ .empty ∧
      ((me s).rmeta ⟨.g, 5⟩).fe = .empty ∧ spaceClash none ([] ++ ((me s).rmeta ⟨.g, 5⟩).lab :: knownLabels (me s) [srcG 6 true 1]) = none ∧ ((me s).rmeta ⟨.g, 6⟩).fe = .faulted) ∧
    (let s := withG [(5, ⟨1, .full, ⟨1, 5⟩, 0, 0, false, false⟩), (6, ⟨2, .full, ⟨2, 5⟩, 0, 0, false, false⟩)]; let i := Instr.or 4 5 6 true true
      MayIssue i s ∧ scalarRule (me s) i = some ⟨⟨.g, 4⟩, [srcG 5 true 0, srcG 6 true 1], 3⟩ ∧ Writable (me s) ⟨.g, 4⟩ ∧
      (∀ x ∈ [srcG 5 true 0, srcG 6 true 1], ((me s).rmeta x.r).fe = .full) ∧ spaceClash none (srcLabels (me s) [srcG 5 true 0, srcG 6 true 1]) = some 2) ∧
    (let s := withG [(5, ⟨1, .empty, ⟨1, 5⟩, 0, 0, true, false⟩), (6, ⟨2, .full, ⟨2, 5⟩, 0, 0, false, false⟩)]; let i := Instr.or 4 5 6 true true
      MayIssue i s ∧ scalarRule (me s) i = some ⟨⟨.g, 4⟩, [] ++ srcG 5 true 0 :: [srcG 6 true 1], 3⟩ ∧ ((me s).rmeta ⟨.g, 5⟩).fe = .empty ∧
      spaceClash none ([] ++ ((me s).rmeta ⟨.g, 5⟩).lab :: knownLabels (me s) [srcG 6 true 1]) = some 2) := by
  unfold MayIssue Writable; decide +kernel

theorem witness_ChecksBeforeIssue :
    (let s := base; let i := Instr.vadd 63 1 2 false false .fp64
      Encoded i ∧ heldBack s s.cur = false ∧ dueDeferred (s.ctx s.cur) i = none ∧ allotOk i (s.cell (cellOf s.cur)).mode = false) ∧
    (let s := user base; let i := Instr.eret
      Encoded i ∧ heldBack s s.cur = false ∧ dueDeferred (s.ctx s.cur) i = none ∧ allotOk i (s.cell (cellOf s.cur)).mode = true ∧ (me s).pl < i.level) ∧
    (let s := base.modCtx 0 fun x => { x with pend := [.wait .all 7 none (fullMeta .top)] }; Encoded .nop ∧ heldBack s s.cur = true) := by
  unfold Encoded; decide +kernel

theorem witness_DivisionStarts :
    (let s := withG [(5, .of 9), (6, .of 0)]; let i := Instr.divn 4 5 6 true true .w8
      MayIssue i s ∧ divRule (me s) i = some (⟨.g, 4⟩, [srcG 5 true 0, srcG 6 true 1], 0xFF, fDZ) ∧ Readable (me s) [srcG 5 true 0, srcG 6 true 1] ∧
      Writable (me s) ⟨.g, 4⟩ ∧ fDZ &&& (me s).en = 0) ∧
    (let s := (withG [(5, .of 9), (6, .of 0)]).modArch 0 fun a => { a with status := 0xFC003 }; let i := Instr.divn 4 5 6 true true .w8
      MayIssue i s ∧ divRule (me s) i = some (⟨.g, 4⟩, [srcG 5 true 0, srcG 6 true 1], 0xFF, fDZ) ∧ Readable (me s) [srcG 5 true 0, srcG 6 true 1] ∧
      Writable (me s) ⟨.g, 4⟩ ∧ fDZ &&& (me s).en ≠ 0) := by
  unfold MayIssue Readable Writable; decide +kernel

theorem witness_LabelsOfResults :
    ((∀ l ∈ [Label.top, .top], l.isTop = true) ∧ (∃ l ∈ [Label.top, .bot], l.isBot = true) ∧
      ((∀ m ∈ [Label.top, ⟨1, 5⟩], m.isBot = false) ∧ properLabels [Label.top, ⟨1, 5⟩] = [⟨1, 5⟩]) ∧
      localProduct [.product 1 5 6 (.past 1)] [⟨1, 5⟩, ⟨1, 6⟩] = .known (.past 1) ∧ localProduct [] [⟨1, 5⟩, ⟨1, 6⟩] = .ask 1) ∧
    (let s := (withG [(5, ⟨1, .full, ⟨1, 5⟩, 0, 0, false, false⟩)]).modCell 0 fun k => { k with pcache := [.content 1 5 [2]] }; let i := Instr.bz 5 true 4; let x := srcG 5 true 0
      MayIssue i s ∧ branchRule (me s) i = some ([x], false, (me s).pc + 8) ∧ ((me s).rmeta x.r).fe = .full ∧ ViewHolds s [] ∧
      localContent (s.cell (cellOf s.cur)).pcache ((me s).rmeta x.r).lab = some [2] ∧ ((me s).rmeta x.r).lab.isTop = false ∧
      (2 : Word) &&& (me s).view ≠ 2) := by
  unfold MayIssue ViewHolds; decide +kernel

theorem witness_BranchesAndJumps :
    (let s := withG [(5, .of 1)]; let i := Instr.bnz 5 true 0x1FFFF; let j := Instr.cBz 5 4
      MayIssue i s ∧ MayIssue j s ∧ branchRule (me s) i = some ([srcG 5 true 0], true, (me s).pc - 2) ∧
      branchRule (me s) j = some ([srcG 5 true 0], false, (me s).pc + 8) ∧
      (∀ x ∈ [srcG 5 true 0], ((me s).rmeta x.r).fe = .full) ∧ ViewHolds s [srcG 5 true 0]) ∧
    (let s := withG [(5, .of 0x40), (6, .of 0x41)]; let i := Instr.jalr 0 5 false; let j := Instr.jalr 7 6 false
      MayIssue i s ∧ MayIssue j s ∧ jumpRule (me s) i = some (some 0, 5, false, (me s).pc + 4) ∧ jumpRule (me s) j = some (some 7, 6, false, (me s).pc + 4) ∧
      ((me s).rmeta (gd 5)).fe = .full ∧ ((me s).rmeta (gd 6)).fe = .full ∧ Writable (me s) (gd 0) ∧ Writable (me s) (gd 7) ∧ ViewHolds s [srcG 5 false 0] ∧ ViewHolds s [srcG 6 false 0] ∧
      (gv (me s) 5).getLsbD 0 = false ∧ (gv (me s) 6).getLsbD 0 = true) ∧
    (MayIssue (.jal 0xFFFFFF) base ∧ Writable (me base) ⟨.g, 31⟩) := by
  unfold MayIssue ViewHolds Writable; dsimp only; and_intros <;> decide +kernel

theorem witness_LoopStack :
    (let s := withG [(5, .of 0), (6, .of 64), (7, .of 65)];
     let i (n : BitVec 6) := Instr.loop n true 255 31 1;
      MayIssue (i 5) s ∧ MayIssue (i 6) s ∧ MayIssue (i 7) s ∧ countedRule (me s) (i 5) = some ([srcG 5 true 0], 0, 255, 64) ∧
      countedRule (me s) (i 6) = some ([srcG 6 true 0], 64, 255, 64) ∧ countedRule (me s) (i 7) = some ([srcG 7 true 0], 65, 255, 64) ∧
      loopReg (i 5) = some (5, true) ∧ loopReg (i 6) = some (6, true) ∧ loopReg (i 7) = some (7, true) ∧
      (∀ n ∈ [5, 6, 7], ((me s).rmeta ⟨.g, n⟩).fe = .full) ∧ ViewHolds s [srcG 5 true 0] ∧ ViewHolds s [srcG 6 true 0] ∧ ViewHolds s [srcG 7 true 0] ∧
      (me s).loops.length < 4) ∧
    (let u : Level := ⟨0, 0x80, false, 2, 2, 5, true, 3⟩; let s := (withG [(5, .of 1)]).modArch 0 fun a => { a with loops := [u, u, u, u] };
      MayIssue (.loop 5 true 1 0 0) s ∧ countedRule (me s) (.loop 5 true 1 0 0) = some ([srcG 5 true 0], 1, 1, 1) ∧ 4 ≤ (me s).loops.length ∧
      ViewHolds s [srcG 5 true 0]) ∧
    (let s := (withG [(5, .of 3)]).modArch 0 fun a => { a with x := [(7, .of 0x0401)] };
      MayIssue (.loopl 5 true 7) s ∧ countedRule (me s) (.loopl 5 true 7) = some ([srcG 5 true 0, srcF .x 7 1], 3, 1, 5) ∧
      loopReg (.loopl 5 true 7) = some (5, true) ∧ ((me s).rmeta ⟨.x, 7⟩).fe = .full ∧ ViewHolds s [srcG 5 true 0, srcF .x 7 1]) ∧
    (MayIssue (.loopw 5 true 1 0 0) base ∧ (me base).loops.length < 4 ∧ MayIssue .nop base) ∧
    (let lv (p : Nat) (cond : Bool) : Level := ⟨0x40, 0x80, cond, 2, p, 5, true, 3⟩;
     let s (u : Level) (v : Word) := (withG [(5, .of v)]).modArch 0 fun a => { a with loops := [u], pc := 0x80 };
      (lv 2 false).stop = ((s (lv 2 false) 0).ctx 0).arch.pc ∧ (lv 2 false).pl.toNat = ((s (lv 2 false) 0).ctx 0).arch.pl ∧
      ((s (lv 2 false) 0).ctx 0).arch.loops = [lv 2 false] ∧ (lv 2 false).cond = false ∧ 1 < (lv 2 false).p ∧ (lv 1 false).p ≤ 1 ∧
      ((s (lv 0 true) 1).ctx 0).arch.loops = [lv 0 true] ∧ (((s (lv 0 true) 1).ctx 0).arch.rmeta (gd 5)).fe = .full ∧
      (((s (lv 0 true) 1).ctx 0).arch.rmeta (gd 5)).lab.isTop = true ∧ gv ((s (lv 0 true) 1).ctx 0).arch 5 ≠ 0 ∧ (lv 0 true).p + 1 < (lv 0 true).max ∧
      gv ((s (lv 0 true) 0).ctx 0).arch 5 = 0 ∧ ((s (lv 1 true) 1).ctx 0).arch.loops = [lv 1 true] ∧ (lv 1 true).max ≤ (lv 1 true).p + 1) := by
  unfold MayIssue ViewHolds; dsimp only; and_intros <;> decide +kernel

theorem witness_TrapsAndReturns :
    (let a := (base.modArch 0 fun a => { a with status := 0x100003 }); (me a).tn = true ∧ (me a).pl = 3) ∧
    (let s := user base; ¬((me s).tn = true ∧ (me s).pl = 3) ∧ (me s).tn = false ∧ (me s).pl ≠ 3 ∧ MayIssue (.trap 0x800) s ∧ MayIssue (.trap 0x7FF) s ∧
      (0x800 : BitVec 12).getLsbD 11 = true ∧ (0x7FF : BitVec 12).getLsbD 11 = false) ∧
    (let s := (user base).modArch 0 fun a => { a with status := 0x100000 }; (me s).tn = true ∧ (me s).pl = 0) ∧
    (let s (st t : Word) := base.modArch 0 fun a => { a with status := st, mon := { a.mon with tpc := t }, sup := { a.sup with tpc := t } };
      MayIssue .eret (s 0x83 0) ∧ fld (me (s 0x83 0)).status 6 2 = 2 ∧ MayIssue .eret (s 0xC1 0) ∧ (me (s 0xC1 0)).pl < fld (me (s 0xC1 0)).status 6 2 ∧
      MayIssue .eret (s 0x43 1) ∧ fld (me (s 0x43 1)).status 6 2 ≠ 2 ∧ fld (me (s 0x43 1)).status 6 2 ≤ (me (s 0x43 1)).pl ∧
      (me (s 0x43 1)).mon.tpc.getLsbD 0 = true ∧ MayIssue .eret (s 0x21 0x40) ∧ fld (me (s 0x21 0x40)).status 6 2 ≤ (me (s 0x21 0x40)).pl ∧
      (me (s 0x21 0x40)).sup.tpc.getLsbD 0 = false) := by
  unfold MayIssue; dsimp only; and_intros <;> decide +kernel

theorem witness_ControlRead :
    (MayIssue (.mfcr 0 .tsc) base ∧ Writable (me base) (gd 0)) ∧ (MayIssue (.mfcr 31 .status) (user base) ∧ Writable (me (user base)) (gd 31)) ∧
    (MayIssue (.mfcr 5 .cellid) base ∧ Writable (me base) (gd 5) ∧ crFixed base .cellid = some 0) := by
  unfold MayIssue Writable; decide +kernel

theorem witness_ControlWrite :
    (let s := withG [(5, .of 0x10), (6, .of 0x2000000)];
      MayIssue (.mtcr .cpbar 6) s ∧ MtcrReads s 6 ∧ gv (me s) 6 &&& ~~~defined .cpbar ≠ 0 ∧ MayIssue (.mtcr .cpbar 5) s ∧ MtcrReads s 5 ∧
      gv (me s) 5 &&& ~~~defined .cpbar = 0) ∧
    (let s := user (withG [(5, .of 0x10), (6, .of 0xFF00)]);
      MayIssue (.mtcrStatus 5) s ∧ MtcrReads s 5 ∧ gv (me s) 5 &&& 0xFFFFFFFFFF000000 = 0 ∧ (me s).pl = 0 ∧ (gv (me s) 5 ^^^ (me s).status) &&& 0x1000F0 ≠ 0 ∧
      MayIssue (.mtcrStatus 6) s ∧ MtcrReads s 6 ∧ gv (me s) 6 &&& 0xFFFFFFFFFF000000 = 0 ∧
      ¬((me s).pl = 0 ∧ (gv (me s) 6 ^^^ (me s).status) &&& 0x1000F0 ≠ 0)) := by
  unfold MayIssue MtcrReads ViewHolds; dsimp only; and_intros <;> decide +kernel

theorem witness_SpecialWrites :
    (let v : Word := 0x8000000000000001; let s := user (withG [(5, .of v)]);
      MayIssue (.mtcrSpace 5) s ∧ MtcrReads s 5 ∧ v &&& 0x7FFFFFFFFFFFF000 = 0 ∧ v.getLsbD 63 = true ∧ ¬((s.space 1).live = true) ∧
      MayIssue (.mtcrSpace 5) (spaced s) ∧ MtcrReads (spaced s) 5 ∧ ((spaced s).space 1).live = true ∧ ((spaced s).space 1).owner.toNat = (me (spaced s)).partition) ∧
    (let s := withG [(5, .of 0xFF0F)]; MayIssue (.mtcrSlotinit 5) s ∧ MtcrReads s 5 ∧ gv (me s) 5 &&& 0xFFFFFFFFFFFF00F0 = 0) ∧
    (let s := (withG [(5, .of 0x3FC2), (6, .of 1)]).modArch 0 fun a => { a with k := [(1, ⟨[], .empty, .top, 0, 0, true, false⟩)] };
      MayIssue (.mtcrTcfg 3 5) s ∧ MtcrReads s 5 ∧ MayIssue (.mtcrTcfg 3 6) s ∧ MtcrReads s 6 ∧ MayIssue (.mtcrTcfg 1 5) s ∧
      gv (me s) 5 &&& 0xFFFFFFFFFFFFC000 = 0 ∧ (2 ∈ [2, 3, 4, 5, 6, 0xA, 0xB, 0xE] ∧ 16 * 16 * 4 ≤ 1024) ∧ 1 ∉ [2, 3, 4, 5, 6, 0xA, 0xB, 0xE] ∧
      ((me s).kr 3).fe ≠ .empty ∧ ((me s).kr 1).fe = .empty) := by
  unfold MayIssue MtcrReads ViewHolds; dsimp only; and_intros <;> decide +kernel

theorem witness_CellInstructions :
    (let s := { base with cur := 1 }.modCtx 1 fun x => { x with run := .running, strand := (base.ctx 0).strand };
      MayIssue (.repart 5 .m8) s ∧ Writable (me s) (gd 5) ∧ s.cur % 16 ≠ 0) ∧
    (MayIssue (.repart 5 .m16) base ∧ Writable (me base) (gd 5) ∧ base.cur % 16 = 0 ∧ (base.cell (cellOf base.cur)).mode = .m16) ∧
    (MayIssue (.repart 5 .m4) base ∧ quiescent base (cellOf base.cur) base.cur = true) ∧
    (let s := base.modCtx 1 fun x => { x with run := .running, strand := (base.ctx 0).strand };
      MayIssue (.repart 5 .m4) s ∧ quiescent s (cellOf s.cur) s.cur = false) ∧
    (let s := withG [(5, .of 0x3FFF)]; MayIssue (.tlbinv 5 .pageCell) s ∧ MayIssue (.tlbinv 5 .allPart) s ∧ MayIssue (.hinval 5 true) s ∧
      MayIssue (.routeset 5 255) s ∧ MayIssue (.routeinv 255 false) s ∧ ((me s).rmeta (gd 5)).fe = .full) := by
  unfold MayIssue Writable; dsimp only; and_intros <;> decide +kernel

theorem witness_StepRunsDecoded :
    (let s := base; s.agenda = [] ∧ pending s = [] ∧ busyCells s = [0] ∧ (s.ctx 0).run = .running ∧ (s.ctx 0).hold = none ∧ (∀ d ∈ (s.ctx 0).deferred, d.reg ≠ none) ∧
      pendingIrq (s.ctx 0) = none ∧ autoPointDue s 0 = false ∧ (s.ctx 0).again = [] ∧ (s.ctx 0).arch.loops = [] ∧
      (fetchWord { s.modCell 0 (fun k => { k with slot := 1 }) with cur := 0 } 0).toOption.map (·.1) = some 0x6D ∧ decode 0x6D = .ok .nop) ∧
    (let s := base.modCell 0 fun k => { k with slot := 5 }; s.agenda = [] ∧ pending s = [] ∧ busyCells s = [0] ∧ (s.ctx 5).run ≠ .running) ∧
    (let s := base.modCtx 0 fun x => { x with again := [.abandon] }; s.agenda = [] ∧ pending s = [] ∧ busyCells s = [0] ∧ (s.ctx 0).run = .running ∧
      (s.ctx 0).again ≠ []) := by
  dsimp only; and_intros <;> decide +kernel

theorem witness_FetchReadsMemory :
    let s := base; let e : TlbEntry := ⟨0, 0, 4096, 0x10003B⟩;
    (s.ctx 0).arch.pc = 0 ∧ (s.ctx 0).fbuf = [] ∧ tlbFind (s.cell (cellOf 0)).tlb (BitVec.ofNat 6 (s.ctx 0).arch.partition) 0 = some e ∧
      tlbFind (s.cell (cellOf 0)).tlb (BitVec.ofNat 6 (s.ctx 0).arch.partition) 2 = some e ∧ pteExec e.pte = true ∧ physOf e 0 = 0x100000 ∧
      noMemory 0x100000 = false ∧ noMemory 0x100002 = false ∧ s.isBad 0x100000 = false ∧ ctxReaches s 0 0x100000 = true ∧ NoRings s ∧
      Tab.get? (s.cell (cellOf 0)).icache (0x100000 / 64) = none := by
  dsimp only; and_intros <;> first | exact no_rings _ rfl | decide +kernel

theorem witness_LoadLeaves :
    (let s := memState; let i := Instr.ld 4 6 false .word .dflt 0;
      MayIssue i s ∧ loadForm (me s) i = some ⟨⟨.g, 4⟩, srcG 6 false 0, refTo 0 1 64, 8, false, .dflt, none⟩ ∧ memGate s s.cur = .ok () ∧
      Writable (me s) ⟨.g, 4⟩ ∧ Readable (me s) [srcG 6 false 0] ∧
      loadPhase s s.cur (refTo 0 1 64) 8 8 (wantLoad .dflt) [((me s).rmeta ⟨.g, 6⟩).lab] = .ok [dram8] ∧ dram8.rdet = none ∧ (s.ctx s.cur).wcb = []) ∧
    (let s := memState; let i := Instr.cLd 0 5 0;
      MayIssue i s ∧ loadForm (me s) i = some ⟨⟨.g, 0⟩, srcG 5 true 0, refTo 0 0 64, 8, false, .dflt, none⟩ ∧ Writable (me s) ⟨.g, 0⟩ ∧
      Readable (me s) [srcG 5 true 0] ∧ loadPhase s s.cur (refTo 0 0 64) 8 8 (wantLoad .dflt) [((me s).rmeta ⟨.g, 5⟩).lab] = .ok [spad8]) ∧
    (let s := memState; let p (n : BitVec 11) := s.modArch 0 fun a => { a with g := [(5, .of (n.setWidth 64))] }; let i := Instr.ldp 4 5 true .word 0;
      let q := (p 0).modArch 0 fun a => { a with param := 0 };
      MayIssue i q ∧ (me q).param.getLsbD 63 = false ∧ MayIssue i (p 0x79) ∧ MayIssue i (p 0x78) ∧ MayIssue i (p 0x71) ∧ memGate (p 0x78) 0 = .ok () ∧
      Writable (me (p 0x78)) (gd 4) ∧ Readable (me (p 0x78)) [srcG 5 true 0] ∧ (me (p 0x78)).param.getLsbD 63 = true ∧
      ((me (p 0x79)).param.setWidth 12).toNat < 0x79 + 8 - 1 ∧ 0x78 + 8 - 1 ≤ ((me (p 0x78)).param.setWidth 12).toNat ∧ 0x71 % 8 ≠ 0 ∧ 0x78 % 8 = 0 ∧
      paramWindow (p 0x78) 0 0x78 8 0x78 = .ok [{ dram8 with addr := 0x200078, ref := 0x78, va := 0x10078 }]) := by
  unfold MayIssue Readable Writable; dsimp only; and_intros <;> decide +kernel

theorem witness_StoreLeaves : let s := memState
    (MayIssue (.st 7 6 false false .word .dflt 0) s ∧ storeForm (me s) (.st 7 6 false false .word .dflt 0) = some ⟨[srcG 6 false 0, srcG 7 false 2], refTo 0 1 64, 9, 8, .dflt, none⟩ ∧
      memGate s s.cur = .ok () ∧ Readable (me s) [srcG 6 false 0, srcG 7 false 2] ∧ Settled s ∧ releaseHeld s s.cur = false ∧ dram8.size = 8 ∧
      storePhase s s.cur (refTo 0 1 64) 8 8 (wantStore .dflt) (srcLabels (me s) [srcG 6 false 0, srcG 7 false 2]) = .ok ([dram8], .top) ∧ dram8.rdet = none ∧
      dram8.addr / 64 = (dram8.addr + dram8.size - 1) / 64 ∧ dram8.addr < Config.spadBase ∧ dram8.cache ≠ 2) ∧
    (MayIssue (.str 7 5 true true .system .dflt 0) s ∧
      storeForm (me s) (.str 7 5 true true .system .dflt 0) = some ⟨[srcG 5 true 0, srcG 7 true 2], refTo 0 0 64, 9, 8, .dflt, some .system⟩ ∧
      Readable (me s) [srcG 5 true 0, srcG 7 true 2] ∧
      storePhase s s.cur (refTo 0 0 64) 8 8 (wantStore .dflt) (srcLabels (me s) [srcG 5 true 0, srcG 7 true 2]) = .ok ([spad8], .top) ∧ Config.spadBase ≤ spad8.addr) ∧
    CachesEmpty s := by
  dsimp only
  refine ⟨?_, ?_, caches_empty _ (by decide +kernel) rfl⟩
  all_goals unfold MayIssue Readable
  · unfold Settled; decide +kernel
  · decide +kernel

/-- Context 0 awaits the data of a load of its scratchpad into g31. -/
def loading : State := memState.modCtx 0 fun x => { x with
  pend := [.load ⟨.g, 31⟩ [spadAcc (refTo 0 0 64) (spadAddr (cellOf 0) 0xFFFF8) 8] (.scalar 8 true) [.top] none 0 (fullMeta .top)] }
/-- A byte on its way to the top of cell 0's scratchpad, and one of a release, with a label word, on its way to the last byte of a line of device memory. -/
def stored : HomeStore := ⟨0, .plain, spadAcc (refTo 0 0 64) (spadAddr 0 0xFFFFF) 1, [(spadAddr 0 0xFFFFF, 0x5A)], [], 0, 0⟩
/-- See `stored`. -/
def storedLab : HomeStore := ⟨0, .sync, { dram8 with addr := 0x20007F, size := 1, lab := some (1, 0x21001C) }, [(0x20007F, 0x5A)], [(0x21001C, 0x1005)], 0, 0⟩

theorem witness_MemoryAnswers :
    (let s := loading; (s.ctx 0).wcb = [] ∧ (∀ x ∈ s.stores, x.c ≠ 0) ∧ (∀ r ∈ s.barReqs, r.c ≠ 0) ∧ (∀ p ∈ s.passes, p.c ≠ 0) ∧
      (∀ x ∈ (s.cell (cellOf 0)).l1, x.line ≠ spadAddr 0 0xFFFF8 / 64) ∧ 0xFFFF8 % 8 + 8 ≤ 8 ∧
      reachesHome s (spadAddr 0 0xFFFF8) = true ∧ s.isBad (spadAddr 0 0xFFFF8) = false ∧ spadAddr 0 0xFFFF8 < Config.peerBase ∧
      { s with badWords := [spadAddr 0 0xFFFF8 / 8] }.isBad (spadAddr 0 0xFFFF8) = true) ∧
    (let s := { base with stores := [stored] }; s.stores[0]? = some stored ∧ storeBehind s 0 stored = false ∧ ctxReaches s stored.c stored.acc.addr = true ∧
      stored.acc.addr < Config.peerBase ∧ stored.kind = .plain ∧ NoRings s ∧ stored.bytes ≠ [] ∧
      (∀ p ∈ stored.bytes, p.1 < Config.peerBase ∧ s.isBad p.1 = false ∧ (p.1 < Config.spadBase → p.1 / 64 ∉ s.bad))) ∧
    (let s := { base with stores := [storedLab] }; s.stores[0]? = some storedLab ∧ storeBehind s 0 storedLab = false ∧ ctxReaches s 0 0x20007F = true ∧ NoRings s ∧
      (∀ a ∈ [0x20007F, 0x21001C], a < Config.peerBase ∧ s.isBad a = false ∧ a / 64 ∉ s.bad) ∧ (∀ q ∈ storedLab.labs, ¬(q.1 ≤ 0x20007F ∧ 0x20007F < q.1 + 4))) := by
  dsimp only; and_intros <;> first | exact no_rings _ rfl | decide +kernel

theorem witness_VectorLoadsLeave :
    (let s := vecState.modArch 0 fun a => { a with q := [(0, .of 0xC0)] }; let i := Instr.vlds 1 5 true 1 .dflt 0;
     let xs := [srcG 5 true 0, srcF .v 1 2, srcF .x 1 3, srcF .q 0 4];
      NoRings s ∧ MayIssue i s ∧ lanesOf (me s) i = some (⟨.v, 1⟩, xs, 8, [(6, refTo 0 0 112), (7, refTo 0 0 120)], .dflt) ∧ memGate s s.cur = .ok () ∧
      Writable (me s) ⟨.v, 1⟩ ∧ Readable (me s) xs ∧
      [(6, refTo 0 0 112), (7, refTo 0 0 120)].mapM (fun p => loadPhase s s.cur p.2 8 8 (wantLoad .dflt) (srcLabels (me s) xs)) =
        .ok [[further spad8 6], [further spad8 7]] ∧ (∀ a ∈ [[further spad8 6], [further spad8 7]].flatten, a.lab = none ∧ a.rdet = none)) ∧
    (let s := vecState; let i := Instr.vgath 3 5 2 false true 1 false; let xs := [srcG 5 false 0, srcF .v 2 1 true, srcF .v 3 2, srcF .q 1 3];
      MayIssue i s ∧ lanesOf (me s) i = some (⟨.v, 3⟩, xs, 8, [(6, refTo 0 0 64), (7, refTo 0 0 64)], .dflt) ∧ Writable (me s) ⟨.v, 3⟩ ∧ Readable (me s) xs ∧
      [(6, refTo 0 0 64), (7, refTo 0 0 64)].mapM (fun p => loadPhase s s.cur p.2 8 8 (wantLoad .dflt) (srcLabels (me s) xs)) = .ok [[spad8], [spad8]]) ∧
    (let s := vecState; let ref := refTo 0 1 64; let accs := (List.range 8).map fun n => { further dram8 n with ref := ref };
      NoRings s ∧ blockFmt (refFmt ref) = false ∧ memGate s s.cur = .ok () ∧ Writable (me s) ⟨.v, 1⟩ ∧
      MayIssue (.ldv 1 6 true false .dflt 0) s ∧ Readable (me s) [srcG 6 true 0] ∧
      readRef s s.cur ref 64 64 ⟨false, true, false, true, 0⟩ = .ok (handleOf 0x10000 0 0x10000 7) ∧
      locate s s.cur ref (refOff ref) 64 ⟨false, true, false, true, 0⟩ (handleOf 0x10000 0 0x10000 7) = .ok accs ∧ (∀ a ∈ accs, a.lab = none ∧ a.rdet = none) ∧
      MayIssue (.ldv 1 6 true true .dflt 0) s ∧ Readable (me s) [srcG 6 true 0, srcF .v 1 2, srcF .q 0 3] ∧ ((me s).qr 0).val = 0 ∧
      readRefParts s s.cur ref [] 64 ⟨false, true, false, true, 0⟩ = .ok (handleOf 0x10000 0 0x10000 7)) := by
  unfold MayIssue Readable Writable; dsimp only; and_intros <;> first | exact no_rings _ rfl | decide +kernel | rfl

theorem witness_VectorStoresLeave :
    (let s := vecState; let ref := refTo 0 1 64; let accs := (List.range 8).map fun n => { further dram8 n with ref := ref };
     let ps : List Placed := accs.zipIdx.map fun p => (8 * p.2, p.1);
      CachesEmpty s ∧ (MemReady (.stv 1 6 false true false .dflt 0) s [srcG 6 false 0, srcF .v 1 2 true] ∧ Settled s ∧
      vecAccess s s.cur ref (wantStore .dflt) false ((me s).qr 0).val = .ok ps ∧ ps.map (·.2) = accs ∧
      (∀ a ∈ accs, a.lab = none ∧ a.rdet = none ∧ a.addr + a.size ≤ Config.peerBase ∧ 0 < a.size ∧ a.addr / 64 = (a.addr + a.size - 1) / 64) ∧
      (∀ l ∈ srcLabels (me s) [srcG 6 false 0, srcF .v 1 2 true], l.isTop = true) ∧
      accs.Pairwise (fun a b => overlaps a b = false) ∧ (accs.map (·.addr / 64)).eraseDups.length ≤ 4)) ∧
    (let s := vecState.modArch 0 fun a => { a with q := [(0, .of 0x80)] };
      MemReady (.stv 1 6 false true true .dflt 0) s [srcG 6 false 0, srcF .v 1 2 true, srcF .q 0 3] ∧ Settled s ∧
      vecAccess s s.cur (refTo 0 1 64) (wantStore .dflt) true ((me s).qr 0).val = .ok [(56, { further dram8 7 with ref := refTo 0 1 64 })]) ∧
    (let s := vecState; let i := Instr.vscat 1 5 2 true true 1 true; let xs := [srcG 5 true 0, srcF .v 2 1 true, srcF .v 1 2, srcF .q 1 3];
      NoRings s ∧ lanesOf (me s) (.vgath 1 5 2 true true 1 true) = some (⟨.v, 1⟩, xs, 8, [(6, refTo 0 0 64), (7, refTo 0 0 64)], .dflt) ∧ MemReady i s xs ∧ Settled s ∧ CachesEmpty s ∧
      [(6, refTo 0 0 64), (7, refTo 0 0 64)].mapM (fun p => storePhase s s.cur p.2 8 8 (wantStore .dflt) (srcLabels (me s) (xs.take 3))) =
        .ok ([spad8, spad8].map fun a => ([a], Label.top)) ∧
      (∀ a ∈ [spad8, spad8], a.size = 8 ∧ a.lab = none ∧ a.rdet = none ∧ (Config.spadBase ≤ a.addr ∨ a.cache = 2))) := by
  refine ⟨⟨caches_empty _ (by decide +kernel) rfl, ?_⟩, ?_, ?_⟩ <;>
    unfold MemReady MayIssue Readable Settled <;> dsimp only <;> and_intros <;> first | exact (caches_empty _ (by decide +kernel) rfl).1 | exact no_rings _ rfl | decide +kernel | rfl

theorem witness_LineInstructions :
    (let s := memState; CachesEmpty s ∧
      ((MemReady (.pref 8 true false .dflt 0) s [srcG 8 true 0] ∧
        loadPhase s s.cur (effective (gv (me s) 8) 0 64) 1 1 ⟨false, false, false, false, 0⟩ (srcLabels (me s) [srcG 8 true 0]) =
          .error (.trap ⟨0x14, 0, refTo 0 0 0x8000, 0⟩)) ∧
       (MemReady (.pref 6 true true .dflt 0) s [srcG 6 true 0] ∧ LineAt s 6 true 0 0 lineAcc)) ∧
      (let t := farState; CachesEmpty t ∧ MemReady (.pref 6 true true .dflt 0) t [srcG 6 true 0] ∧
        loadPhase t t.cur (effective (gv (me t) 6) 0 64) 1 1 ⟨false, false, false, false, 0⟩ (srcLabels (me t) [srcG 6 true 0]) = .error (.wait (.dark (refTo 0 2 64)))) ∧
      (MemReady (.icinvalLine 6 true 0) s [srcG 6 true 0] ∧ LineAt s 6 true 0 0 lineAcc ∧ Settled s ∧ NoRings s ∧ MayIssue .icinvalCell s ∧ MayIssue .fetchb s) ∧
      (MemReady (.cpinPin 6 true .dflt 0) s [srcG 6 true 0] ∧ MemReady (.cpinUnpin 6 true .dflt 0) s [srcG 6 true 0] ∧ (s.ctx s.cur).wcb = [] ∧
       lineAcc.addr < Config.spadBase ∧ s.l2 = [] ∧ (s.slice (sliceOf lineAcc.addr)).retired = false ∧ 0 < (s.part (me s).partition).pinQuota ∧
       ((s.modPart 0 fun p => { p with pinQuota := 0 }).part (me s).partition).pinQuota = 0)) ∧
    (let s := memState.modCell 0 fun k => { k with l1 := [dirtyL1] };
      MemReady (.dclean 6 true .dflt 0) s [srcG 6 true 0] ∧ MemReady (.dinval 6 true .dflt 0) s [srcG 6 true 0] ∧ LineAt s 6 true 0 0 lineAcc ∧
      (s.ctx s.cur).wcb = [] ∧ s.l2 = [] ∧ s.isBad lineAcc.addr = false ∧ l1Find (s.cell (cellOf s.cur)) (lineAcc.addr / 64) = some dirtyL1 ∧
      dirtyL1.lost = false ∧ dirtyL1.labs = [] ∧ (∀ p ∈ dirtyL1.bytes, p.1 < 64) ∧ dirtyL1.bytes.Pairwise (fun p q => p.1 < q.1) ∧
      l1Find (memState.cell (cellOf s.cur)) (lineAcc.addr / 64) = none) := by
  refine ⟨⟨caches_empty _ (by decide +kernel) rfl, ?_, ?_, ?_⟩, ?_⟩ <;>
    (simp only [MemReady, LineAt, MayIssue, Readable, Settled]; and_intros <;> first | exact (caches_empty _ (by decide +kernel) rfl).1 | exact no_rings _ rfl | decide +kernel)

theorem witness_WordRequestsLeave :
    (let s := memState;
      CachesEmpty s ∧ wordForm (me s) (.lds 0 5 true .system .dflt 0) = some (.lds, ⟨.g, 0⟩, srcG 5 true 0, refTo 0 0 64, .system, .dflt) ∧
      MemReady (.lds 0 5 true .system .dflt 0) s [srcG 5 true 0] ∧ Writable (me s) ⟨.g, 0⟩ ∧ unserved s s.cur < 16 ∧
      wordPhase s s.cur (refTo 0 0 64) (wantWord false .dflt) (srcLabels (me s) [srcG 5 true 0]) = .ok spad8 ∧ spad8.rdet = none ∧ Settled s ∧
      16 ≤ unserved { s with reqs := List.replicate 16 (reqTo .lds) } s.cur) ∧
    (let s := memState; let t (n : Nat) := s.modCtx 0 fun x => { x with resv := List.replicate n (spad8.addr + 8, true) }; let i := Instr.lrw 31 5 true .cell .dflt 0;
      wordForm (me s) i = some (.lrw, ⟨.g, 31⟩, srcG 5 true 0, refTo 0 0 64, .cell, .dflt) ∧ MemReady i (t 4) [srcG 5 true 0] ∧ 4 ≤ ((t 4).ctx 0).resv.length ∧
      MemReady i (t 3) [srcG 5 true 0] ∧ ¬(4 ≤ ((t 3).ctx 0).resv.length ∨ ∃ p ∈ ((t 3).ctx 0).resv, p.1 = spad8.addr)) ∧
    (let s := memState; let xs := [srcG 5 false 0, srcG 7 true 2];
      MemReady (.put 7 5 false true .column .dflt 0) s xs ∧ MemReady (.putFullFault 7 5 false true .column .dflt 0) s xs ∧ (s.ctx s.cur).hold = none ∧
      storePhase s s.cur (refTo 0 0 64) 8 8 (wantWord true .dflt) (srcLabels (me s) xs) = .ok ([spad8], .top) ∧ (wordAcc [spad8]).rdet = none ∧
      releaseHeld s s.cur = false) ∧
    (let s (h : Option Word) := memState.modCtx 0 fun x => { x with hold := some ⟨x.arch.pc, h⟩ }; let i := Instr.putFullFault 7 5 false true .column .dflt 0;
      MayIssue i (s none) ∧ MayIssue i (s (some 0)) ∧ MayIssue i (s (some 1)) ∧ ((s (some 1)).ctx (s (some 1)).cur).hold = some ⟨0, some 1⟩) ∧
    (let s := memState; MemReady (.feq 4 5 true .dflt 0) s [srcG 5 true 0] ∧ Writable (me s) (gd 4) ∧ MemReady (.feset 5 true false .dflt 0) s [srcG 5 true 0] ∧
      wordPhase s s.cur (refTo 0 0 64) (wantWord false .dflt) (srcLabels (me s) [srcG 5 true 0]) = .ok spad8 ∧
      wordPhase s s.cur (refTo 0 0 64) (wantWord true .dflt) (srcLabels (me s) [srcG 5 true 0]) = .ok spad8) := by
  refine ⟨⟨caches_empty _ (by decide +kernel) rfl, ?_⟩, ?_, ?_, ?_, ?_⟩ <;>
    (simp only [MemReady, MayIssue, Readable, Writable, Settled]; and_intros <;> first | decide +kernel | rfl)

theorem witness_WordServed :
    (let a := spad8.addr;
      (let s := { memState with reqs := [reqTo .putFault] }.modCtx 0 fun x => { x with hold := some ⟨0, none⟩ };
        FreeWord s a ∧ s.reqs[0]? = some (reqTo .putFault) ∧ overtaken s 0 (reqTo .putFault) = false ∧ waitUse s a < Config.waitEntries ∧
        refusedBefore s a s.stamp = false ∧ liveStrand s 0 1 = true ∧ (s.ctx 0).hold = some ⟨0, none⟩ ∧ s.isBad a = false) ∧
      (let s := { memState with homes := [(a + 8, ⟨[], [], none, [], List.replicate 512 ⟨0, 1, ⟨.g, 3⟩, 0, .cell, 0, none, 0, 0, some 0, 0⟩, 0⟩)], reqs := [reqTo .lds] };
        FreeWord s a ∧ overtaken s 0 (reqTo .lds) = false ∧ Config.waitEntries ≤ waitUse s a) ∧
      (let s := { memState with refused := [{ reqTo .take with arrival := some 0 }] };
        FreeWord s a ∧ s.refused[0]? = some { reqTo .take with arrival := some 0 } ∧ waitUse s a < Config.waitEntries ∧
        refusedBefore s a 0 = false ∧ s.feFull a = true)) ∧
    (let d : Delivery := ⟨reqTo .lrw, 0x99, .top⟩;
     let s := { memState with deliveries := [d] }.modCtx 0 fun x => { x with pend := [.wait .home 3 (some ⟨.g, 31⟩) (fullMeta .top)], resv := [(spad8.addr, false)] };
      s.deliveries[0]? = some d ∧ liveStrand s 0 1 = true ∧ s.plc 0 = 1 ∧ (s.ctx 0).pend = [.wait .home d.req.stamp (some d.req.dst) (fullMeta .top)] ∧
      d.req.addr < Config.peerBase ∧ s.isBad d.req.addr = false ∧ { s with badWords := [spad8.addr / 8] }.isBad d.req.addr = true ∧ NoRings s) := by
  dsimp only; and_intros <;> (try unfold FreeWord) <;> first | exact no_rings _ rfl | decide +kernel

theorem witness_ReservationPassed :
    (let s := memState; let t := s.modCtx 0 fun x => { x with resv := [(spad8.addr, true)] }; let xs := [srcG 5 true 0, srcG 7 true 2];
      CachesEmpty s ∧ CachesEmpty t ∧ (MemReady (.sc 7 5 true true .cell .dflt 0) s xs ∧ MemReady (.sc 7 5 true true .cell .dflt 0) t xs ∧
      MemReady (.screl 5 true .cell .dflt 0) t [srcG 5 true 0] ∧ storePhase t 0 (refTo 0 0 64) 8 8 (wantWord true .dflt) (srcLabels (me s) xs) = .ok ([spad8], .top) ∧
      loadPhase t 0 (refTo 0 0 64) 8 8 (wantWord false .dflt) (srcLabels (me t) [srcG 5 true 0]) = .ok [spad8] ∧ (wordAcc [spad8]).rdet = none ∧ Settled t ∧ releaseHeld t t.cur = false ∧
      ((wordAcc [spad8]).addr, true) ∉ (s.ctx s.cur).resv ∧ ((wordAcc [spad8]).addr, true) ∈ (t.ctx t.cur).resv ∧ (wordAcc [spad8]).lab = none)) ∧
    (let p : Pass := ⟨0, 1, spad8.addr, spad8.va, some (0x66, none), 0, false, 0⟩;
     let s := { memState with passes := [p, { p with store := none, c := 3 }], homes := [(spad8.addr, ⟨[], [], some (reqTo .lrw), [{ reqTo .lrw with c := 2 }], [], 0⟩)] };
      s.passes[0]? = some p ∧ s.passes[1]? = some { p with store := none, c := 3 } ∧ Config.spadBase ≤ p.addr ∧ p.addr + 8 ≤ Config.spadFeBase ∧ p.addr % 8 = 0 ∧
      homeUp s p.addr = true ∧ passBehind s 0 p = false ∧ passBehind s 1 { p with store := none, c := 3 } = false ∧ s.isBad p.addr = false ∧ (s.home p.addr).holder = some (reqTo .lrw) ∧ (reqTo .lrw).of p.c p.plc = true ∧ (reqTo .lrw).of 3 p.plc = false ∧
      ¬((s.part (strandPart s 0 1)).holdLimit < s.cycles (homeCol p.addr) - (s.home p.addr).since) ∧
      (let u : State := { s with cols := [(0, { s.col 0 with cycles := 2 ^ 64 - 1 })] }; homeCol p.addr = 0 ∧
        (u.part (strandPart u 0 1)).holdLimit < u.cycles (homeCol p.addr) - (u.home p.addr).since)) ∧
    (let s := { memState with notices := [reqTo .lrw] }; s.notices[0]? = some (reqTo .lrw) ∧ (∀ d ∈ s.deliveries, d.req.stamp ≠ (reqTo .lrw).stamp) ∧
      liveStrand s 0 1 = true ∧ reservedAgain { s with notices := [] } (reqTo .lrw) = false ∧
      reservedAgain ({ s with homes := [(spad8.addr, ⟨[], [], some { reqTo .lrw with stamp := 9 }, [], [], 0⟩)] } : State) (reqTo .lrw) = true) := by
  refine ⟨⟨caches_empty _ (by decide +kernel) rfl, caches_empty _ (by decide +kernel) rfl, ?_⟩, ?_, ?_⟩ <;>
    (try simp only [MemReady, MayIssue, Readable, Settled]) <;> (try dsimp only) <;> and_intros <;> first | decide +kernel | rfl

/-- An image of context 0's registers. -/
def imageOf (s : State) : Image := ⟨1, (s.ctx 0).arch.pc, 0, ⟨1, 0, 0, 0, 0, 0, 0, 0, 0, 0, false⟩, .m16, (s.ctx 0).arch, [], [], 0, true⟩

theorem witness_FencesAndPoints :
    (let s := base; let t := base.modCtx 0 fun x => { x with deferred := [⟨⟨0x18, 0, 5, 0⟩, some ⟨.g, 9⟩, none⟩] };
     let u := base.modCtx 0 fun x => { x with pend := [.wait .home 3 none (fullMeta .top)] }; let i := Instr.fence .full .system;
      heldBack t t.cur = false ∧ (t.ctx t.cur).deferred = ⟨⟨0x18, 0, 5, 0⟩, some ⟨.g, 9⟩, none⟩ :: [] ∧ MayIssue i u ∧ releaseHeld u u.cur = true ∧
      MayIssue i s ∧ releaseHeld s s.cur = false ∧ cleanHeld s s.cur 5 = false ∧ (s.ctx s.cur).pend = [] ∧ Settled s) ∧
    (let s := base; let t := base.modCtx 0 fun x => { x with writing := some (imageOf base) };
      MayIssue (.pfence .column) s ∧ (s.ctx s.cur).deferred = [] ∧ ¬((s.ctx s.cur).writing ≠ none ∨ (s.ctx s.cur).waiting ≠ none ∨ linesPending s s.cur .column = true) ∧
      MayIssue (.pfence .context) t ∧ (t.ctx t.cur).writing ≠ none) ∧
    (let s := base; let t := withG [(31, dueReg)]; MayIssue .ppoint s ∧ MayIssue .ppoint t ∧ (me s).anyEmpty = false ∧ (me t).anyEmpty = true ∧ (s.ctx s.cur).writing = none) ∧
    (let s := { base with cols := [(0, { base.col 0 with cycles := 65537 })] }; atBoundary s 0 = true ∧ autoPointDue s 0 = true ∧ (s.ctx 0).deferred = [] ∧ (s.ctx 0).writing = none) ∧
    (let i := imageOf base; let q : SignalReq := ⟨0, 0x5A, 0, 0⟩;
     let s := base.modCtx 0 fun x => { x with writing := some i, committed := [(i.seq, .signal q)] };
      (s.ctx 0).writing = some i ∧ (∀ l ∈ i.lines, linePending s l = false) ∧ spadWriteBefore s 0 i.seq = false ∧ (s.ctx 0).save = none ∧ (s.ctx 0).committed = [(i.seq, .signal q)]) ∧
    (let s := base.modCell 1023 fun k => { k with pendingShadow := [16383] }; 16383 ∈ (s.cell 1023).pendingShadow ∧ (s.col (colOf 1023)).cellPower = true) := by
  simp only [MayIssue, Settled]; and_intros <;> first | decide +kernel | rfl

theorem witness_InterruptsAndSignals :
    (let s (f : Ctx → Ctx) := base.modCtx 0 fun x => f { x with arch := { x.arch with status := 0x13 } };
     let x := (s fun x => { x with devIrq := some 7, dlIrq := some 8 }).ctx 0; let y := (s fun x => { x with dlIrq := some 8, arch := { x.arch with sig := some 9 } }).ctx 0;
     let z := (s fun x => { x with arch := { x.arch with sig := some 9 } }).ctx 0;
      x.run = .running ∧ x.hold = none ∧ x.arch.ie = true ∧ x.arch.tn = false ∧ x.devIrq = some 7 ∧ y.devIrq = none ∧ y.dlIrq = some 8 ∧ z.devIrq = none ∧
      z.dlIrq = none ∧ z.arch.sig = some 9 ∧ faultFirst (s fun x => { x with devIrq := some 7, dlIrq := some 8 }) 0 = false ∧
      faultFirst (s fun x => { x with dlIrq := some 8, arch := { x.arch with sig := some 9 } }) 0 = false ∧
      faultFirst (s fun x => { x with arch := { x.arch with sig := some 9 } }) 0 = false ∧ loopSteps (s fun x => { x with devIrq := some 7, dlIrq := some 8 }) 0 = false ∧
      loopSteps (s fun x => { x with dlIrq := some 8, arch := { x.arch with sig := some 9 } }) 0 = false ∧ loopSteps (s fun x => { x with arch := { x.arch with sig := some 9 } }) 0 = false) ∧
    (let q : SignalReq := ⟨0, 0x5A, 1, 0⟩; let s := { base with signals := [q] }; let d := s.modCtx 0 fun x => { x with run := .dark };
     let o := { base with signals := [{ q with part := 5 }] };
      s.signals[0]? = some q ∧ (d.ctx 0).run = .dark ∧ (s.ctx 0).run ≠ .dark ∧ (∃ x, (s.ctx 0).strand = some x ∧ x.part = q.part) ∧
      (∀ x, (o.ctx 0).strand = some x → x.part ≠ 5)) ∧
    (let d : Deferred := ⟨⟨0x0F, 0, 5, 0⟩, none, none⟩; let s := base.modCtx 0 fun x => { x with deferred := [d] };
      (s.ctx 0).run = .running ∧ (s.ctx 0).hold = none ∧ (s.ctx 0).deferred = [d] ∧ d.reg = none) := by
  dsimp only
  refine ⟨by decide +kernel, ⟨by decide +kernel, by decide +kernel, by decide +kernel, ⟨_, rfl, rfl⟩, ?_⟩, by decide +kernel⟩
  intro x h; cases h; decide

theorem witness_PageWalks :
    (let s := paged 0x500003; let va := 2 ^ 57 - 1; let e4 := entryAt s 0x400000 (va / 2 ^ 48 % 512); let e3 := entryAt s (tableOf e4) (va / 2 ^ 39 % 512);
     let e2 := entryAt s (tableOf e3) (va / 2 ^ 30 % 512); let e1 := entryAt s (tableOf e2) (va / 2 ^ 21 % 512); let e0 := entryAt s (tableOf e1) (va / 2 ^ 12 % 512);
      (s.part 0).root = 0x400000 ∧ pointsDown e4 ∧ pointsDown e3 ∧ pointsDown e2 ∧ (entryAt s (tableOf e2) (va / 2 ^ 21 % 512 / 32 * 32)).getLsbD 2 = false ∧
      pointsDown e1 ∧ (entryAt s (tableOf e1) (va / 2 ^ 12 % 512 / 16 * 16)).getLsbD 2 = false ∧ e0.setWidth 3 = 3 ∧ e0.getLsbD 51 = false ∧
      e0.getLsbD 48 = false ∧ e0.extractLsb' 6 2 ≠ 3 ∧ (entryAt (paged 0) 0x404000 511).getLsbD 0 = false ∧ (entryAt s 0x400000 0).getLsbD 0 = false ∧
      (entryAt s 0x401000 0).getLsbD 0 = false ∧ (entryAt s 0x402000 0).getLsbD 0 = false ∧
      TableReadable s 0x400000 511 1 ∧ TableReadable s (tableOf e4) 511 1 ∧ TableReadable s (tableOf e3) 511 1 ∧ TableReadable s (tableOf e2) 511 32 ∧
      TableReadable s (tableOf e1) 511 16 ∧ noMemory 0x400000 = false ∧ { s with bad := [0x400FF8 / 64] }.isBad (0x400000 + 8 * 511) = true) ∧
    (let w : Walk := ⟨0, 0, BitVec.ofNat 64 (2 ^ 57 - 1), [0], 0, []⟩; let s := { paged 0x500003 with walks := [w] }; let t := { paged 0 with walks := [w] };
      s.walks[0]? = some w ∧ (walkTable s w.part (w.va.toNat % 2 ^ 57)).isSome = true ∧ walkPart t w.part (w.va.toNat % 2 ^ 57) = .error 0x17 ∧ hasWalker s 0 w = true ∧ hasWalker t 0 w = true ∧ w.ctxs = [0] ∧
      BitVec.ofNat 6 (t.ctx 0).arch.partition = w.part) := by
  simp only [pointsDown, TableReadable]; decide +kernel

/-- A write-combining entry of `memState`'s page. -/
def wcbOf (cache : Nat) : WcbEntry := ⟨0x200040 / 64, 0x10040, cache, false, 0, [(0, 0x5A), (63, 0x5B)], []⟩

theorem witness_CacheSteps :
    (let s := memState.modCtx 0 fun x => { x with wcb := [wcbOf 0, wcbOf 1] };
      CachesEmpty s ∧ ((s.ctx 0).wcb[0]? = some (wcbOf 0) ∧ (s.ctx 0).wcb[1]? = some (wcbOf 1) ∧ (wcbOf 0).labs = [] ∧ (wcbOf 0).bytes.Pairwise (fun p q => p.1 < q.1) ∧
      (∀ p ∈ (wcbOf 0).bytes, p.1 < 64) ∧ (∀ x ∈ s.stores, x.c ≠ 0) ∧ (∀ p ∈ s.passes, p.c ≠ 0) ∧ ctxReaches s 0 (64 * (wcbOf 0).line) = true ∧ s.isBad (64 * (wcbOf 0).line) = false ∧ 64 * (wcbOf 0).line + 64 ≤ Config.spadBase ∧ (wcbOf 1).cache = 1 ∧ (wcbOf 0).cache = 0 ∧
      (wcbOf 0).wthru = false ∧ (wcbOf 0).cls ≠ 3)) ∧
    (let s := memState.modCell 0 fun k => { k with l1 := [dirtyL1, { dirtyL1 with line := 9, bytes := [(5, 1, false)] }] };
     let c : L1Line := { dirtyL1 with line := 9, bytes := [(5, 1, false)] };
      l1Find (s.cell 0) dirtyL1.line = some dirtyL1 ∧ dirtyL1.lost = false ∧ reaches s (s.cell 0).part.toNat 0 (64 * dirtyL1.line) = true ∧
      reaches s (s.cell 0).part.toNat 0 (64 * 9) = true ∧ dirtyL1.labs = [] ∧ dirtyL1.bytes.Pairwise (fun p q => p.1 < q.1) ∧ (∀ p ∈ dirtyL1.bytes, p.1 < 64) ∧ s.l2 = [] ∧
      s.isBad (64 * dirtyL1.line) = false ∧ 64 * dirtyL1.line + 64 ≤ Config.spadBase ∧ (∃ p ∈ dirtyL1.bytes, p.2.2 = true) ∧ l1Find (s.cell 0) 9 = some c ∧
      (∀ p ∈ c.bytes, p.2.2 = false)) ∧
    (let s := { base with bad := [9] }; 64 * 9 < Config.dramSize ∧ 9 ∈ s.bad) := by
  dsimp only
  refine ⟨⟨caches_empty _ (by decide +kernel) rfl, ?_⟩, ?_, ?_⟩ <;> decide +kernel

/-- The place of a barrier in the scratchpad of cell 0. -/
def barAt : Nat := spadAddr 0 64
/-- A barrier with these arrivals and sectors pending, waiters, and an update on its way. -/
def barred (arr sec : Nat) (ws : List BarWait) (op : BarOp) : State :=
  { (base.setWord barAt (w64 (15 + arr * 2 ^ 4 + sec * 2 ^ 24))).setWord (barAt + 8) 3 with
    homes := [(barAt, ⟨[], [], none, [], ws, 0⟩)]
    barReqs := [⟨0, barAt, refTo 0 0 64, op, 0⟩] }
/-- A waiter at it. -/
def waiter (ph : BitVec 4) (lim : Option Nat) : BarWait := ⟨0, 1, ⟨.g, 31⟩, ph, .context, 0, lim, 5, refTo 0 0 64, none, 0⟩

theorem witness_BarrierHomes :
    (let r (op : BarOp) : BarReq := ⟨0, barAt, refTo 0 0 64, op, 0⟩; let s := barred 1 0 [waiter 15 none] .arrive;
      s.barReqs[0]? = some (r .arrive) ∧ barBehind s 0 (r .arrive) = false ∧ homeUp s barAt = true ∧ Config.spadBase ≤ barAt ∧ barAt + 16 ≤ Config.spadFeBase ∧
      s.isBad barAt = false ∧ waitUse s barAt < Config.waitEntries ∧ refusedBefore (barred 1 0 [] (.wait (waiter 15 none))) barAt 0 = false ∧
      barOf (s.word barAt) = (15, 1, 0, false) ∧
      barOf ((barred 2 0 [] .arrive).word barAt) = (15, 2, 0, false) ∧ barOf ((barred 1 7 [] .arrive).word barAt) = (15, 1, 7, false) ∧
      barOf ((barred 0 0 [] .arrive).word barAt) = (15, 0, 0, false) ∧ (s.part ((s.ctx 0).arch.partition)).ringSize = 0 ∧
      barOf ((barred 1 0x7FFFFFFE [] (.expect 1)).word barAt) = (15, 1, 0x7FFFFFFE, false) ∧
      -(2 ^ 31) ≤ (0x7FFFFFFE : BitVec 32).toInt + (1 : BitVec 32).toInt ∧ (0x7FFFFFFE : BitVec 32).toInt + (1 : BitVec 32).toInt < 2 ^ 31 ∧
      (waiter 15 none).ph = 15 ∧ (waiter 15 none).lim ≠ some 0 ∧ (waiter 14 none).ph ≠ 15) ∧
    (let s := { barred 1 0 [waiter 15 (some 8)] .arrive with tsc := 8 }; (timedWaits s)[0]? = some (barAt, waiter 15 (some 8)) ∧ (waiter 15 (some 8)).lim = some 8 ∧
      8 ≤ (s.tsc - (waiter 15 (some 8)).t0).toNat ∧ ({ s with tsc := 7 }.tsc - (waiter 15 (some 8)).t0).toNat < 8) ∧
    (let w := waiter 15 none; let s := { base with barRets := [(w, 0, true)] }.modCtx 0 fun x => { x with pend := [.wait .bar 5 (some ⟨.g, 31⟩) (fullMeta .top)] };
      s.barRets[0]? = some (w, 0, true) ∧ liveStrand s w.c w.plc = true ∧ (s.ctx w.c).pend = [.wait .bar w.stamp (some w.dst) (fullMeta .top)]) ∧
    (let s := { base with slotRets := [(0, 16383, 255)] }; s.slotRets[0]? = some (0, 16383, 255) ∧ (s.col (colOf 0)).cellPower = true ∧
      255 < (Tab.get ((base.modCell 0 fun k => { k with slots := [(15, 1)] }).cell 0).slots (cellOf 16383 % 16) 0).toNat + (255 : Word).toNat) := by
  dsimp only; and_intros <;> first | decide +kernel | rfl

theorem witness_LongCompletions :
    (let s := base.modCtx 0 fun x => { x with pend := [.div ⟨⟨.g, 31⟩, .w 5, [.top, .top], 0⟩, .vlong ⟨⟨.v, 15⟩, .v 5, [.top], 0⟩, .acc ⟨⟨.g, 1⟩, .w 6, [.top], 0⟩,
        .vlong ⟨⟨.g, 7⟩, .w 8, [.top], 0⟩] };
      (s.ctx 0).pend[0]? = some (.div ⟨⟨.g, 31⟩, .w 5, [.top, .top], 0⟩) ∧ (s.ctx 0).pend[1]? = some (.vlong ⟨⟨.v, 15⟩, .v 5, [.top], 0⟩) ∧
      (s.ctx 0).pend[2]? = some (.acc ⟨⟨.g, 1⟩, .w 6, [.top], 0⟩) ∧ (s.ctx 0).pend[3]? = some (.vlong ⟨⟨.g, 7⟩, .w 8, [.top], 0⟩) ∧ (∀ l ∈ [Label.top, .top], l.isTop = true)) ∧
    (let op (z : Bool) : AccOp := ⟨spadAddr 0 0, z, none, 2 ^ 320, 2, refTo 0 0 0, 0⟩;
     let s (z : Bool) := base.modCtx 0 fun x => { x with pend := [.accum (op z)] };
      (∀ z, ((s z).ctx 0).pend = .accum (op z) :: [] ∧ (op z).src = none ∧ Config.spadBase ≤ (op z).dst ∧ (op z).dst + 88 ≤ Config.spadFeBase ∧
        (s z).badIn (spadAcc (op z).va (op z).dst 88) = false) ∧
      -(2 ^ 639) ≤ accValue (s false) (op false).dst + (op false).delta ∧ accValue (s false) (op false).dst + (op false).delta < 2 ^ 639) ∧
    (let d : Delivery := ⟨reqTo .lds, 0x99, .top⟩;
     let v : Saved := ⟨(base.ctx 0).arch, ⟨1, 0, 0, 0, 0, 0, 0, 0, 0, 0, false⟩, [.wait .home 3 (some ⟨.g, 31⟩) (fullMeta .top)], none, [], [], [], none, none, [], 0, false, false⟩;
     let s := { base with deliveries := [d] }.modCtx 0 fun x => { x with save := some v };
      (s.ctx 0).save = some v ∧ s.deliveries = [d] ∧ d.req.plc = v.strand.plc ∧ v.pend = [.wait .home d.req.stamp (some d.req.dst) (fullMeta .top)] ∧
      Config.spadBase ≤ d.req.addr ∧ d.req.addr < Config.peerBase ∧ s.isBad d.req.addr = false) := by
  decide +kernel

theorem witness_VectorResult :
    (∃ r, let s := lanes 3; let i := Instr.vadd 15 1 2 true false .fp64;
      MayIssue i s ∧ vectorRule (me s) i = some r ∧ Readable (me s) (r.srcs (me s)) ∧ Writable (me s) ⟨.v, r.dst.toNat⟩ ∧ r.flags (me s) &&& (me s).en = 0 ∧
      r.long = false) ∧
    (∃ r, let s := lanes 0xFC003; let i := Instr.vdiv 15 1 3 true false .fp64;
      MayIssue i s ∧ vectorRule (me s) i = some r ∧ Readable (me s) (r.srcs (me s)) ∧ Writable (me s) ⟨.v, r.dst.toNat⟩ ∧ r.flags (me s) &&& (me s).en ≠ 0 ∧
      r.long = true) ∧
    (∃ r, let s := lanes 3; let i := Instr.vdiv 15 1 3 true false .fp64;
      MayIssue i s ∧ vectorRule (me s) i = some r ∧ r.flags (me s) &&& (me s).en = 0 ∧ r.long = true) := by
  simp only [MayIssue, Readable, Writable]
  refine ⟨⟨_, ?_, rfl, ?_, ?_, ?_, ?_⟩, ⟨_, ?_, rfl, ?_, ?_, ?_, ?_⟩, ⟨_, ?_, rfl, ?_, ?_⟩⟩ <;> decide +kernel

theorem witness_RepresentableIsExact :
    fmt64 ∈ [fmt64, fmt32, fmt16, fmtB16, fmtE5M2, fmtE4M3] ∧ 1 < 2 ^ fmt64.bits ∧ decodeFp fmt64 1 ≠ .nan ∧ 0x7E < 2 ^ fmtE4M3.bits ∧ decodeFp fmtE4M3 0x7E ≠ .nan ∧
      decodeFp fmt16 0x7C00 ≠ .nan := by
  decide +kernel

theorem witness_MaskAndReduction :
    (∃ r, let s := lanes 3; let i := Instr.mset 6 5 true .first;
      MayIssue i s ∧ bitRule (me s) i = some r ∧ Readable (me s) r.srcs ∧ Writable (me s) r.dst) ∧
    (let s := lanes 3; let i := Instr.vred 31 1 true .min .i8; let xs := [srcF .v 1 0 true, srcF .q 0 3];
      MayIssue i s ∧ intReduction (me s) i = some (31, xs, 0) ∧ Readable (me s) xs ∧ Writable (me s) (gd 31) ∧ (0 : BitVec 6) &&& (me s).en = 0) ∧
    (∃ v f, let s := lanes 0xFC003; let i := Instr.vdot 0 1 2 true true .fp16; let xs := bothV 1 2 true true ++ [srcF .q 0 3];
      MayIssue i s ∧ fpReduction (me s) i = some (0, xs, v, f) ∧ Readable (me s) xs ∧ Writable (me s) (gd 0) ∧ f &&& (me s).en = 0) ∧
    (∃ v f, let s := (lanes 0xFC003).modArch 0 fun a => { a with v := [(1, .of (0x7F800000 ||| 0xFF800000 <<< 224))] }; let i := Instr.vred 1 1 true .sum .fp32; let xs := [srcF .v 1 0 true, srcF .q 0 3];
      MayIssue i s ∧ fpReduction (me s) i = some (1, xs, v, f) ∧ Readable (me s) xs ∧ Writable (me s) (gd 1) ∧ f &&& (me s).en ≠ 0) := by
  simp only [MayIssue, Readable, Writable]
  refine ⟨⟨_, ?_, rfl, ?_, ?_⟩, ?_, ⟨_, _, ?_, rfl, ?_, ?_, ?_⟩, ⟨_, _, ?_, rfl, ?_, ?_, ?_⟩⟩ <;> decide +kernel

/-- `lanes` with tiles: configurations 2 by 2 in FP32 of tiles 0 to 3, tile 2 of format FP16. -/
def tiles : State := (lanes 3).modArch 0 fun a => { a with
  tcfg := [(0, 0x442), (1, 0x442), (2, 0x443), (3, 0x442)], k := [(0, .of (List.replicate 4 (.raw 0x3F800000)))], x := [(7, .of 0xFFFFFFFFFFFFFFFF), (1, .of 8)] }
/-- An operation of the matrix unit. -/
def matOf (i : Instr) (cost : Nat) (src : Option MSrcs) : MatOp := ⟨i, 0, 1, .nearest, [(0, 0x442), (1, 0x442), (2, 0x442), (3, 0x442)], cost, 0, none, src, [], [], 0, [], []⟩
/-- The sources of tiles 0 to 2 and of x7. -/
def taken4 : MSrcs := ⟨[(0, .of (List.replicate 4 (.raw 0x3F800000))), (1, .of []), (2, .of [])], [(1, .of 5)], [], [(7, .of 0xFFFFFFFFFFFFFFFF)]⟩

theorem witness_MatrixIssue :
    (let s := tiles; let i := Instr.mma 3 0 1 7 false; let r : TileRule := ⟨[kd 3], [srcF .k 0 0, srcF .k 1 1, srcF .k 3 2, srcF .x 7 3], true, 16⟩;
      MayIssue i s ∧ tileRule (me s) i = some r ∧ Readable (me s) r.srcs ∧ (∀ d ∈ r.dsts, Writable (me s) d) ∧
      (let q (n cost : Nat) := ((s.modCell 0 fun k => { k with matrix := List.replicate n (matOf .nop cost none) }).cell (cellOf s.cur)).matrix;
        (((q 3 1).filter (mine s)).length < 4 ∧ ((q 3 1).map (·.cost)).foldl (· + ·) 0 + r.cost ≤ 512) ∧
        ¬(((q 4 1).filter (mine s)).length < 4) ∧ ¬(((q 1 497).map (·.cost)).foldl (· + ·) 0 + r.cost ≤ 512))) ∧
    (let s := tiles; let i := Instr.tadd 2 0 1; let r : TileRule := ⟨[kd 2], [srcF .k 0 0, srcF .k 1 1], false, 4⟩;
      MayIssue i s ∧ tileRule (me s) i = some r ∧ Readable (me s) r.srcs ∧ (∀ d ∈ r.dsts, Writable (me s) d)) ∧
    (let s := (tiles.modArch 0 fun a => { a with k := [(1, .of []), (3, ⟨[], .empty, .top, 0, 0, true, false⟩)] }).modCell 0 fun k => { k with matrix := [matOf (.tadd 3 0 1) 4 none] };
     let i := Instr.tadd 3 3 1; let r : TileRule := ⟨[kd 3], [srcF .k 3 0, srcF .k 1 1], true, 4⟩;
      MayIssue i s ∧ tileRule (me s) i = some r ∧ spaceClash none (srcLabels (me s) r.srcs) = none ∧
      (∀ x ∈ r.srcs, ((me s).rmeta x.r).fe = .full ∨ (((me s).rmeta x.r).fe = .empty ∧ x.r.file = .k ∧ queued s x.r)) ∧ (∀ d ∈ r.dsts, Writable (me s) d ∨ queued s d)) := by
  simp only [MayIssue, Readable, Writable, queued]; and_intros <;> first | decide +kernel | rfl

theorem witness_MatrixCompletes :
    (let o := matOf (.mma 3 0 1 7 false) 16 none; let s := tiles.modCell 0 fun k => { k with matrix := [o] };
      (s.cell 0).matrix = o :: [] ∧ o.srcs = none ∧ s.plc o.c = o.plc ∧ srcsAwait o (s.ctx o.c).arch = false) ∧
    (∀ i ∈ [Instr.mma 2 0 1 7 false, .mmaz 2 0 1 7 false, .tzero 2, .tadd 2 0 1, .tscale 2 0 7, .ttrans 2 0, .tcvt 3 0, .trowv 1 0 7, .tvrow 0 1 7, .tfact 2 0 7 7 true, .tsolve 2 0 1 false false false],
      let s := tiles.modCell 0 fun k => { k with matrix := [matOf i 4 (some taken4)] };
      (s.cell 0).matrix = [matOf i 4 (some taken4)] ∧ cellOf 0 = 0 ∧ s.plc 0 = 1 ∧ (s.cell 0).follows = [] ∧ (s.cell 0).cwait = [] ∧ (s.cell 0).copies = [] ∧
        ∀ x ∈ matSrcs i, taken4.rmeta x.r = fullMeta .top) ∧
    mmaFormats 2 2 false 2 = true ∧ (0x442 : Word).extractLsb' 6 4 = 1 ∧ (0x442 : Word).extractLsb' 10 4 = 1 ∧
    (let o := matOf (.tzero 3) 2 none; let s (n : Nat) := tiles.modCell 0 fun k => { k with follows := [(o, false)], matrix := List.replicate n (matOf .nop 1 none) };
      ((s 3).cell 0).follows[0]? = some (o, false) ∧ followReady (s 3) 0 o = true ∧ followReady (s 4) 0 o = true ∧
      (((s 3).cell 0).matrix.filter fun p => p.c == o.c && p.plc == o.plc).length < 4 ∧ ¬(((s 4).cell 0).matrix.filter fun p => p.c == o.c && p.plc == o.plc).length < 4) ∧
    (∀ i j, Holds 2 (element (taken taken4 0) 2 i j)) ∧ 2 ∈ tileFormats := by
  refine ⟨by decide +kernel, by decide +kernel, by decide, by decide, by decide, by decide +kernel, fun i j => ?_, by decide⟩
  have h : element (taken taken4 0) 2 i j = (List.replicate 4 (Elem.raw 0x3F800000)).getD (i * 2 + j) (.raw 0) := rfl
  rw [h, List.getD_eq_getElem?_getD, List.getElem?_replicate]
  split
  · exact (by decide : ((0x3F800000 : BitVec 32).toNat < 2 ^ elemWidth 2))
  · exact (by decide : ((0 : BitVec 32).toNat < 2 ^ elemWidth 2))

/-- `memState` with a tile of one row of two FP32 elements. -/
def tileState : State := memState.modArch 0 fun a => { a with tcfg := [(0, 0x402), (1, 0x402)], x := [(1, .of 0xFFFFFFFF00000008), (2, .of 0xFFFFFFFF00000002)], k := [(0, .of [.raw 0x3F800000, .raw 0])] }
/-- The same with a reference to scaled blocks in g5, and tile 1 so configured. -/
def blockState (cfg : Word) : State := tileState.modArch 0 fun a => { a with
  g := [(5, .of (refTo 7 0 64))], tcfg := [(0, 0x402), (1, cfg)], x := [(1, .of 0xFFFFFFFF00000008), (3, .of 0xFFFFFFFF00000010)] }

/-- The same with a reference to EFP8 blocks in g5 and an FP8 tile 1: the stream of zeros is no token. -/
def tokenState : State := tileState.modArch 0 fun a => { a with
  g := [(5, .of (refTo 9 0 64))], tcfg := [(0, 0x402), (1, 0x405)], x := [(1, .of 0xFFFFFFFF00000008), (3, .of 0xFFFFFFFF00000010)] }

theorem witness_TileMemory :
    (∃ accs : List (List Acc), let s := tileState; let i := Instr.tld 1 5 true 1 .dflt 0; let xs := [srcG 5 true 0, srcF .x 1 3];
      NoRings s ∧ MemReady i s xs ∧ Writable (me s) (kd 1) ∧ blockFmt (refFmt (refTo 0 0 64)) = false ∧
      (List.range (cfgRows 0x402)).mapM (fun r => loadPhase s s.cur (refTo 0 0 (64 + 8 * r)) (cfgCols 0x402 * 4) 1 (wantLoad .dflt) (srcLabels (me s) xs)) = .ok accs ∧
      tcfg (me s) 1 = 0x402 ∧ cfgSize 0x402 = 4 ∧ refOff (refTo 0 0 64) % 4 = 0 ∧ (8 : BitVec 32).toInt % 4 = 0 ∧ (2 : BitVec 32).toInt % 4 ≠ 0 ∧
      (∀ a ∈ accs.flatten, a.lab = none ∧ a.rdet = none)) ∧
    (let s (cfg : Word) := blockState cfg; let xs := [srcG 5 true 0, srcF .x 3 3];
     let blocks (cfg : Word) := tileBlocks (s cfg) (s cfg).cur (refTo 7 0 64) 16 1 2 ⟨false, true, false, true, 0⟩ (srcLabels (me (s cfg)) xs);
      (∀ n : Fin 2, let cfg := [0x402, 0x405].getD n.val 0; NoRings (s cfg) ∧ MemReady (.tld 1 5 true 3 .dflt 0) (s cfg) xs ∧ Writable (me (s cfg)) (kd 1) ∧ tcfg (me (s cfg)) 1 = cfg ∧
        cfgRows cfg = 1 ∧ cfgCols cfg = 2 ∧ (blocks cfg).toOption.isSome = true ∧ ((blocks cfg).toOption.all fun r => r.2.all fun a => a.lab.isNone && a.rdet.isNone) = true) ∧
      blockFmt (refFmt (refTo 7 0 64)) = true ∧ cfgFmt 0x402 = 2 ∧ cfgFmt 0x405 = 5 ∧ refOff (refTo 7 0 64) % 16 = 0 ∧ (16 : BitVec 32).toInt % 16 = 0 ∧ (8 : BitVec 32).toInt % 16 ≠ 0) ∧
    (let s := blockState 0x402; let i := Instr.tst 0 5 true 1 .dflt 0;
      MemReady i s [srcG 5 true 0, srcF .k 0 2, srcF .x 1 3] ∧ handleEntry s s.cur (refIdx (refTo 7 0 64)) = .ok (handleOf 0 1 0x8000 7) ∧
        (handleOf 0 1 0x8000 7).valid = true ∧ (handleOf 0 1 0x8000 7).kind ≤ 4 ∧ (handleOf 0 1 0x8000 7).reserved = false) ∧
    (∃ accs : List Acc, let s := tileState; let i := Instr.tst 0 5 true 1 .dflt 0; let xs := [srcG 5 true 0, srcF .k 0 2, srcF .x 1 3];
      NoRings s ∧ MemReady i s xs ∧ Settled s ∧ [(0, 0), (0, 1)].mapM (fun p : Nat × Nat => storePhase s s.cur (refTo 0 0 (64 + 8 * p.1 + 4 * p.2)) 4 4 (wantStore .dflt) (srcLabels (me s) xs)) =
        .ok (accs.map fun a => ([a], Label.top)) ∧ (∀ a ∈ accs, a.size = 4 ∧ a.lab = none ∧ a.rdet = none ∧ (Config.spadBase ≤ a.addr ∨ (a.cache = 2 ∧ ∀ y ∈ (s.cell (cellOf s.cur)).l1, y.line ≠ a.addr / 64))) ∧
      (s.cell (cellOf s.cur)).l1 = [] ∧ (0 : BitVec 6) &&& (me s).en = 0) ∧
    (let s := tokenState; let xs := [srcG 5 true 0, srcF .x 3 3];
      NoRings s ∧ MemReady (.tld 1 5 true 3 .dflt 0) s xs ∧ Writable (me s) (kd 1) ∧ tcfg (me s) 1 = 0x405 ∧ blockFmt (refFmt (refTo 9 0 64)) = true ∧
      ((tileBlocks s s.cur (refTo 9 0 64) 16 1 2 ⟨false, true, false, true, 0⟩ (srcLabels (me s) xs)).toOption.any fun p => match p.1 with
        | .error (.trap t) => t.code == 0x1A
        | _ => false) = true) := by
  simp only [MemReady, MayIssue, Readable, Writable, Settled]
  refine ⟨⟨[[{ spad8 with size := 8 }]], ?_⟩, ?_, ?_, ⟨[{ spad8 with size := 4 }, { spad8 with addr := spad8.addr + 4, size := 4, va := spad8.va + 4, ref := spad8.ref + 4 }], ?_⟩, ?_⟩
  all_goals and_intros <;> first | exact no_rings _ rfl | (intro n; and_intros <;> first | exact no_rings _ rfl | (revert n; decide +kernel)) | decide +kernel

/-- References to accumulators at offsets 0, 88 and 64 of the own scratchpad in g5, g6 and g8, and −1 in g7. -/
def accState (st : Word) : State := (memState.modCell 0 fun k => { k with hcache := [(0, handleOf 0 1 0x8000 7)] }).modArch 0 fun a => { a with
  status := st, g := [(5, .of (refTo 0x10 0 0)), (6, .of (refTo 0x10 0 88)), (7, .of 0xFFFFFFFFFFFFFFFF), (8, .of (refTo 0x10 0 64))] }
/-- The first access to such an accumulator. -/
def accAt (n : Nat) : Acc := spadAcc (refTo 0x10 0 n) (spadAddr 0 n) 8

theorem witness_AccumulatorIssue :
    (let s := accState 3; let i := Instr.accw 5 7 true true .i8; let xs := [srcG 5 true 0, srcG 7 true 1];
      NoRings s ∧ MemReady i s xs ∧ accRule (me s) i = some (xs, refTo 0x10 0 0, false, -(2 ^ 320), 0) ∧ accsOut s < 8 ∧ accPhase s s.cur (refTo 0x10 0 0) true true = .ok (accAt 0) ∧
      (accAt 0).lab = none ∧ (∀ l ∈ srcLabels (me s) xs, l.isTop = true) ∧ (∀ x ∈ s.stores, x.c ≠ s.cur) ∧
      8 ≤ accsOut (s.modCtx 0 fun x => { x with pend := List.replicate 8 (.accum ⟨0, true, none, 0, 0, 0, 0⟩) })) ∧
    (let s := accState 3; let xs (y : BitVec 6) := [srcG 5 true 0, srcG y true 1];
      NoRings s ∧ MemReady (.accm 5 6 true true) s (xs 6) ∧ MemReady (.accm 5 8 true true) s (xs 8) ∧ accPhase s s.cur (gv (me s) 5) true true = .ok (accAt 0) ∧
      accPhase s s.cur (gv (me s) 6) true false = .ok (accAt 88) ∧ accPhase s s.cur (gv (me s) 8) true false = .ok (accAt 64) ∧
      (accAt 0).addr + 88 ≤ (accAt 88).addr ∧ (accAt 0).addr ≠ (accAt 64).addr ∧ (accAt 0).addr < (accAt 64).addr + 88 ∧ (accAt 64).addr < (accAt 0).addr + 88 ∧
      (∀ l ∈ srcLabels (me s) (xs 6), l.isTop = true)) ∧
    (let s := accState 3; let u := (accState 0xFC003).setWord (spadAddr 0 80) 6;
      NoRings s ∧ NoRings u ∧ MemReady (.accr 31 5 true) s [srcG 5 true 0] ∧ MemReady (.accrFp64 31 5 true) u [srcG 5 true 0] ∧ Writable (me s) (gd 31) ∧ Settled s ∧ Settled u ∧
      accPhase s s.cur (gv (me s) 5) true false = .ok (accAt 0) ∧ accPhase u u.cur (gv (me u) 5) true false = .ok (accAt 0) ∧ Config.spadBase ≤ (accAt 0).addr ∧
      (∀ k, k < 88 → u.isBad ((accAt 0).addr + k) = false) ∧
      (accResult fmt32 (me s).rm (BitVec.ofNat 640 (s.num (accAt 0).addr 80)).toInt (s.word ((accAt 0).addr + 80))).2 &&& (me s).en = 0 ∧
      (accResult fmt64 (me u).rm (BitVec.ofNat 640 (u.num (accAt 0).addr 80)).toInt (u.word ((accAt 0).addr + 80))).2 &&& (me u).en ≠ 0) := by
  simp only [MemReady, MayIssue, Readable, Writable, Settled]; and_intros <;> first | exact no_rings _ rfl | decide +kernel | rfl

/-- Space 1, of partition 0, selected, with handle 5 for the environments 1 and 2; g5 carries handle 5, g6 ⊤, g7 ⊥, and g8 and g9 name handles. -/
def labelled (known : Bool) : State :=
  let s := (withG [(5, ⟨1, .full, ⟨1, 5⟩, 0, 0, false, false⟩), (6, .of 0), (7, ⟨0, .full, .bot, 0, 0, false, false⟩), (8, .of 0x1000005), (9, .of 0x1000006)]).modArch 0
    fun a => { a with space := 0x8000000000000001 }
  let s := { s with spaces := [(1, ⟨0, true, 0, [], 0, 10, 5, 0, [(5, ⟨[1, 2], 0, 0⟩)]⟩)] }
  if known then s.modCell 0 fun k => { k with pcache := [.content 1 5 [1, 2]] } else s

theorem witness_LabelInstructions (k : Bool) :
    let s := labelled k; let xs (x y : BitVec 6) := [srcG x true 0, srcG y true 1]
      (MayIssue (.lprod 4 5 6 true true) s ∧ Writable (me s) (gd 4) ∧ Readable (me s) (xs 5 6) ∧ SpaceHolds s (xs 5 6)) ∧
      (MayIssue (.ltag 4 7 6 true true) s ∧ Readable (me s) (xs 7 6) ∧ SpaceHolds s (xs 7 6) ∧ ((me s).gr 7).lab.h = 0xFFFFFF) ∧
      (MayIssue (.ltag 4 6 6 true true) s ∧ Readable (me s) (xs 6 6) ∧ SpaceHolds s (xs 6 6) ∧ ((me s).gr 6).lab.h = 0 ∧ gv (me s) 6 = 0) ∧
      (MayIssue (.ltag 4 5 8 true true) s ∧ Readable (me s) (xs 5 8) ∧ SpaceHolds s (xs 5 8) ∧ ((me s).gr 5).lab.proper = true) := by
  simp only [MayIssue, Writable, Readable, SpaceHolds]; cases k <;> and_intros <;> decide +kernel

theorem witness_LabelInspections (k : Bool) :
    let s := labelled k; let xs (x y : BitVec 6) := [srcG x true 0, srcG y true 1]
      (MayIssue (.lget 31 5 true .g) s ∧ MayIssue (.lholds 31 5 6 true true) s ∧ MayIssue (.lenv 31 5 6 true true) s ∧ MayIssue (.lcnt 31 5 true) s) ∧
      (MayIssue (.lset 5 6 true .g) s ∧ MayIssue (.lset 5 8 true .g) s ∧ MayIssue (.lset 5 9 true .g) s ∧ gv (me s) 8 = 0x1000005 ∧ gv (me s) 9 = 0x1000006 ∧
        SpaceHolds s [srcG 6 true 0, ⟨⟨.g, 5⟩, true, 2⟩] ∧ Tab.get? (s.space 1).entries 5 ≠ none ∧ Tab.get? (s.space 1).entries 6 = none) ∧
      (MayIssue (.lsel 4 5 5 true true) s ∧ SpaceHolds s (xs 5 5) ∧ MayIssue .lsync s ∧ labelsDue (me s) = false) := by
  simp only [MayIssue, SpaceHolds]; cases k <;> and_intros <;> decide +kernel

theorem witness_LabelContents :
    localContent ((labelled true).cell 0).pcache ⟨1, 5⟩ = some [1, 2] ∧ localContent ((labelled false).cell 0).pcache ⟨1, 5⟩ = none ∧
    (someWithin [1, 2] 2 ∧ ¬ someWithin [1, 2] 0) ∧
    (let s := base.modArch 0 fun a => { a with g := [(5, ⟨0, .empty, ⟨1, 5⟩, 0, 0, false, true⟩)] }; MayIssue .lsync s ∧ labelsDue (me s) = true) := by
  simp only [MayIssue, someWithin]
  refine ⟨by decide +kernel, by decide +kernel, ⟨⟨2, by decide, by decide⟩, ?_⟩, by decide +kernel⟩
  simp

theorem witness_AccordSteps :
    (let j : LabelJob := ⟨0, 1, some ⟨.g, 31⟩, 1, .count ⟨1, 5⟩, .asked, 0, 0⟩; let s := { labelled false with labelJobs := [j] };
     let t := (s.modCol 0 fun k => { k with gens := [(1, 1)] });
      s.labelJobs[0]? = some j ∧ j.stage = .asked ∧ (s.col (colOf (cellOf j.c))).stationPower = true ∧ (⟨1, 5⟩ : Label).proper = true ∧
      Tab.get? (s.unitSpace 0 1).entries 5 = some ⟨[1, 2], 0, 0⟩ ∧ s.unitGen 0 1 ≤ 0 ∧ Tab.get? (t.unitSpace 0 1).entries 5 = some ⟨[1, 2], 0, 0⟩ ∧ 0 < t.unitGen 0 1) ∧
    (let x : Space := ⟨0, true, 1, [3], 0, 10, 6, 0, [(5, ⟨[1], 0, 0⟩), (6, ⟨[2, 4], 0, 0⟩)]⟩;
      envsOf x ⟨1, 5⟩ = [1] ∧ envsOf x ⟨1, 6⟩ = [2, 4] ∧ evalProduct x [⟨1, 5⟩, ⟨1, 6⟩] = .set [5]) ∧
    (let j : LabelJob := ⟨0, 1, some ⟨.g, 31⟩, 1, .product [⟨1, 5⟩, ⟨1, 5⟩], .formed [1, 2], 0, 0⟩; let s := { labelled false with labelJobs := [j] };
     let t := { s with spaces := [(1, ⟨0, true, 0, [], 0, 10, 5, 0, [(5, ⟨[1, 2], 0, bucketOf 10 [1, 2]⟩)]⟩)] };
      t.labelJobs[0]? = some j ∧ homeUnit t 1 ≠ none ∧ (∀ e ∈ (t.space 1).entries, e.2.fgen = (t.space 1).gen ∧ e.2.bucket = bucketOf (t.space 1).tlog e.2.envs) ∧
      (t.space 1).entries.Pairwise (fun p q => p.1 < q.1) ∧ (∀ e ∈ (t.space 1).entries, e.1 < 2 ^ 24) ∧ (t.space 1).hwm + 1 < 2 ^ (t.space 1).tlog ∧
      (t.space 1).hwm < 0xFFFFFE ∧ 2 ^ (t.space 1).tlog ≤ ({ (t.space 1) with hwm := 1023 } : Space).hwm + 1) ∧
    (let j : LabelJob := ⟨0, 1, some ⟨.g, 31⟩, 1, .product [⟨1, 5⟩], .answered (.past 2) 0 [], 0, 0⟩;
     let s := { base with labelJobs := [j] }.modArch 0 fun a => { a with g := [(31, ⟨0, .empty, .top, 0, 0, false, true⟩)] };
      s.labelJobs[0]? = some j ∧ s.plc j.c = j.plc ∧ ((s.ctx j.c).arch.rmeta ⟨.g, 31⟩).fe = .empty ∧ ((s.ctx j.c).arch.rmeta ⟨.g, 31⟩).dueLab = true ∧
      ∀ o ∈ (s.cell (cellOf j.c)).matrix ++ (s.cell (cellOf j.c)).followOps, o.c = j.c → ⟨.g, 31⟩ ∉ matDests o.ins) ∧
    (let r : Rewrite := ⟨0, 1, 5, [1], 1⟩; let s := { labelled false with rewrites := [r] }; s.rewrites[0]? = some r ∧
      Tab.get? (s.space r.sp).entries r.h = some ⟨[1, 2], 0, 0⟩ ∧ 0 < r.gen ∧ { r with gen := 0 }.gen ≤ 0) := by
  dsimp only; and_intros <;> decide +kernel

/-- A NOGOOD of context 0 for space 1. -/
def ngOf (env : Word) (done : Option Word) (learn ack : List Nat) : Nogood := ⟨0, 1, ⟨.g, 31⟩, 1, env, done, 1, learn, ack⟩
/-- `labelled` with a NOGOOD in progress and these nogoods known. -/
def withNg (g : Nogood) (ng : List Word) : State :=
  { labelled false with spaces := [(1, ⟨0, true, ng.length, ng, 0, 10, 5, 0, [(5, ⟨[1, 2], 0, 0⟩)]⟩)], nogoods := [g] }

theorem witness_Nogoods :
    (let s := labelled true; let xs := [srcG 6 true 0]; CachesEmpty s ∧ (MayIssue (.nogood 31 6 true) s ∧ Writable (me s) (gd 31) ∧ Readable (me s) xs ∧ SpaceHolds s xs ∧
      ViewHolds s xs ∧ Settled s)) ∧
    (let g (e : Word) := { ngOf e none [] [] with gen := 0 }; (withNg (g 0) []).nogoods[0]? = some (g 0) ∧ (ngOf 2 none [] []).gen ≠ 0 ∧ (ngOf 2 none [] []).env ≠ 0 ∧ homeUnit (withNg (g 0) []) 1 ≠ none ∧ (withNg (g 0) []).plc 0 = 1 ∧
      ((withNg (g 0) []).part ((withNg (g 0) []).ctx 0).arch.partition).ringSize = 0 ∧ 256 ≤ ((withNg (g 1) (List.replicate 256 1)).space 1).ng.length ∧
      ((withNg (g 2) (List.replicate 255 1)).space 1).ng.length < 256 ∧ ((withNg (g 2) [1]).space 1).gen < 2 ^ 32 - 1 ∧ unlearnt (withNg (g 2) [1]) 1 = [] ∧
      unlearnt { withNg (g 2) [1] with nogoods := [g 2, ngOf 1 (some 1) [63] [63]] } 1 ≠ []) ∧
    ((∃ p ∈ ((withNg (ngOf 3 none [] []) [1]).space 1).ng, (3 : Word) &&& p = p) ∧
      ∀ p ∈ ((withNg (ngOf 2 none [] []) (List.replicate 255 1)).space 1).ng, (2 : Word) &&& p ≠ p) ∧
    (let g := ngOf 2 (some 1) [63] [63, 0]; (withNg g []).nogoods[0]? = some g ∧ 63 ∈ g.toLearn ∧ 0 ∈ g.toAck ∧ 0 ∉ g.toLearn ∧ g.done = some 1 ∧ (∃ y ∈ g.toAck, y ≠ 0) ∧
      (∀ h ∈ (withNg g []).nogoods, h.sp = g.sp → h.gen ≠ 0 → h.gen < g.gen → h.done ≠ none ∧ 63 ∉ h.toLearn) ∧
      (∀ y ∈ (ngOf 2 (some 1) [] [63]).toAck, y = 63)) := by
  refine ⟨⟨caches_empty _ (by decide +kernel) (by decide +kernel), ?_⟩, ?_, ⟨⟨1, .head _, by decide⟩, fun p hp => by rw [List.eq_of_mem_replicate (n := 255) (a := 1) hp]; decide⟩, ?_⟩ <;>
    (try simp only [MayIssue, Writable, Readable, SpaceHolds, ViewHolds, Settled]) <;> (try dsimp only) <;> and_intros <;> decide +kernel

theorem witness_Compaction :
    (let s := (labelled false).modArch 0 fun a => { a with g := [(5, .of 1)] }; let t := { s with spaces := [(1, ⟨9, true, 0, [], 0, 10, 5, 0, []⟩)] }; let held (v : Option Word) := s.modCtx 0 fun x => { x with hold := some ⟨0, v⟩ };
      (MayIssue (.lcompact 31 5 true) s ∧ (s.ctx 0).hold = none ∧ Writable (me s) (gd 31) ∧ Readable (me s) [srcG 5 true 0] ∧ (s.space 1).live = true ∧ (s.space 1).owner.toNat = (me s).partition) ∧
      (MayIssue (.lcompact 31 5 true) t ∧ (t.space 1).owner.toNat ≠ (me t).partition) ∧
      (MayIssue (.lcompact 31 5 true) (held none) ∧ ((held none).ctx 0).hold = some ⟨0, none⟩) ∧
      MayIssue (.lcompact 31 5 true) (held (some 2)) ∧ ((held (some 2)).ctx 0).hold = some ⟨0, some 2⟩) ∧
    (let at' (n : Nat) : State := { labelled false with compacts := [⟨0, 1, 1, n⟩] };
      ((at' 0).compacts[0]? = some ⟨0, 1, 1, 0⟩ ∧ (at' 5).compacts[0]? = some ⟨0, 1, 1, 5⟩ ∧ homeUnit (at' 5) 1 ≠ none ∧ ((at' 5).space 1).hwm = 5 ∧
        Tab.get? ((at' 5).space 1).entries 5 = some ⟨[1, 2], 0, 0⟩ ∧ (at' 6).plc 0 = 1) ∧
      ((at' 6).modCtx 0 fun x => { x with hold := some ⟨0, none⟩ }).compacts[0]? = some ⟨0, 1, 1, 6⟩ ∧
      (((at' 6).modCtx 0 fun x => { x with hold := some ⟨0, none⟩ }).ctx 0).hold = some ⟨0, none⟩) := by
  simp only [MayIssue, Writable, Readable]; and_intros <;> decide +kernel

/-- A running state for the claim instructions, with a hold. -/
def claiming (h : Option Hold) : State := (withG [(5, .of 7), (6, ⟨0, .full, ⟨1, 5⟩, 0, 0, false, false⟩)]).modCtx 0 fun x => { x with hold := h }

theorem witness_ClaimInstructions :
    (let s := claiming none; memGate s s.cur = .ok () ∧ Readable (me s) nameRegs ∧ Writable (me s) (gd 0) ∧ Writable (me s) (gd 31) ∧ Writable (me s) ⟨.x, 7⟩ ∧
      MayIssue (.claim 0) s ∧ MayIssue (.cldrop 31) s ∧ MayIssue (.claimw 31) s ∧ MayIssue (.fulfil 5 true .bypass) s ∧ MayIssue (.fulfil 6 true .bypass) s ∧
      MayIssue .abandon s ∧ (s.ctx s.cur).hold = none ∧ Readable (me s) (srcG 5 true 0 :: nameRegs) ∧ Readable (me s) (srcG 6 true 0 :: nameRegs) ∧
      ((me s).gr 5).lab.h = 0 ∧ ((me s).gr 6).lab.h ≠ 0 ∧ Settled s ∧ NoneEmpty (me s) ∧ (s.ctx s.cur).writing = none) ∧ CachesEmpty (claiming none) ∧
    (∀ n : Fin 3, let v : Option Word := [none, some 0, some 5].getD n none; let s := claiming (some ⟨0, v⟩);
      MayIssue (.claimw 31) s ∧ MayIssue (.fulfil 5 true .bypass) s ∧ MayIssue .abandon s ∧ (s.ctx s.cur).hold = some ⟨0, v⟩) := by
  refine ⟨?_, caches_empty _ (by decide +kernel) rfl, ?_⟩
  · simp only [MayIssue, Writable, Readable, Settled, NoneEmpty]; decide +kernel
  · simp only [MayIssue]; decide +kernel

/-- A claim request for the name of zeros, an entry of that name, and a state that holds them. -/
def claimReq (k : ClaimKind) : ClaimReq := ⟨k, 0, 1, ⟨0, 0, 0, 0⟩, ⟨.g, 31⟩, [], 0, 0⟩
/-- See `claimReq`. -/
def entryOf (done : Bool) (maker : Nat) (ws : List CWaiter) : Claim :=
  ⟨(keyOf ⟨0, 0, 0, 0⟩).toNat / 2 ^ 32 % 64, (keyOf ⟨0, 0, 0, 0⟩).toNat % 4096, ⟨0, 0, 0, 0⟩, done, maker, 1, ws, 9, 0⟩
/-- See `claimReq`. -/
def alembic (k : ClaimKind) (es : List Claim) : State := { base with claimReqs := [claimReq k], claims := es }

theorem witness_AlembicSteps :
    (let p := (keyOf ⟨0, 0, 0, 0⟩).toNat / 2 ^ 32 % 64; let e := entryOf false 0 [⟨2, 1, 3⟩]; let f := entryOf true 0 [];
      Serves (alembic .claim []) ⟨0, 0, 0, 0⟩ p ∧ ((alembic .claim []).col p).stationPower = true ∧ (∀ k ∈ [ClaimKind.claim, .claimw, .fulfil 1 3, .abandon, .cldrop],
        (alembic k [e]).claimReqs[0]? = some (claimReq k) ∧ (alembic k [e]).claims.Pairwise (fun a b => a.name ≠ b.name)) ∧
      e.name = (claimReq .claim).name ∧ e.done = false ∧ e.maker = (claimReq .claim).c ∧ e.makerPlc = (claimReq .claim).plc ∧ f.done = true ∧
      (let o := entryOf false 7 []; ¬(o.maker = (claimReq .claimw).c ∧ o.makerPlc = (claimReq .claimw).plc) ∧ o.waiters.length < 512 ∧ (claimReq .claimw).stamp = 0 ∧
        512 ≤ (entryOf false 7 (List.replicate 512 ⟨2, 1, 0⟩)).waiters.length) ∧
      (let full (d : Bool) : List Claim := (List.range 16).map fun n => { entryOf d 0 [] with name := ⟨0, w64 (n + 1), 0, 0⟩ };
        16 ≤ ((full false).filter fun e => e.p == p && e.set == (keyOf ⟨0, 0, 0, 0⟩).toNat % 4096).length ∧ (∀ e ∈ full false, e.done = false ∧ e.name ≠ (claimReq .claim).name) ∧
        (∃ e ∈ full true, e.done = true))) ∧
    (let o := entryOf false 7 []; let s := { alembic .claimw [o] with claimReqs := [claimReq .claimw, { claimReq .claimw with stamp := 1 }], stamp := 1 };
      s.claimReqs[0]? = some (claimReq .claimw) ∧ s.claims = [o] ∧ o.name = (claimReq .claimw).name ∧ Serves s (claimReq .claimw).name o.p ∧
      { claimReq .claimw with stamp := 1 } ∈ s.claimReqs ∧ (1 : Nat) ≤ s.stamp) ∧
    (let r : ClaimRet := ⟨0, 1, 2, 9, true, none⟩; let o : ClaimOut := ⟨0, 1, ⟨.g, 31⟩, true, [.top], 0⟩;
     let s := { base with claimRets := [r], claimOuts := [o] }.modCtx 0 fun x => { x with pend := [.wait .claim 0 (some ⟨.g, 31⟩) (fullMeta .top)] };
      s.claimRets[0]? = some r ∧ s.plc 0 = 1 ∧ (∀ l ∈ o.labs, l.h = 0) ∧ (s.ctx 0).pend = [.wait .claim 0 (some o.dst) (fullMeta .top)] ∧ CachesEmpty s) ∧
    (let r : ClaimRet := ⟨0, 1, 1, 0, false, some ⟨.g, 31⟩⟩; let o : ClaimOut := ⟨0, 1, ⟨.g, 31⟩, false, [.top], 0⟩;
     let s := { base with claimRets := [r], claimOuts := [o] }.modCtx 0 fun x => { x with pend := [.wait .free 0 (some ⟨.g, 31⟩) (fullMeta .top)] };
      s.claimRets[0]? = some r ∧ s.plc 0 = 1 ∧ (∀ l ∈ o.labs, l.h = 0) ∧ (s.ctx 0).pend = [.wait .free 0 (some o.dst) (fullMeta .top)] ∧ CachesEmpty s) ∧
    (let s := { claiming (some ⟨0, none⟩) with claimRets := [⟨0, 1, 2, 9, true, none⟩] }; s.claimRets[0]? = some ⟨0, 1, 2, 9, true, none⟩ ∧ s.claimOuts = [] ∧ s.plc 0 = 1 ∧
      (s.ctx 0).hold ≠ none) := by
  refine ⟨?_, ?_, ?_, ?_, by decide +kernel⟩
  · simp only [Serves]; decide +kernel
  · simp only [Serves]; decide +kernel
  all_goals dsimp only; exact ⟨by decide +kernel, by decide +kernel, by decide +kernel, by decide +kernel, caches_empty _ (by decide +kernel) rfl⟩

/-- `memState` with the staging registers of a copy of eight bytes within the scratchpad. -/
def staged (shape : Word) : State := memState.modArch 0 fun a => { a with cpsrc := refTo 0 0 64, cpdst := refTo 0 0 128, cpshape := shape, cpbar := 0x100040 }

theorem witness_CopyInstructions :
    (let s := staged 8; MayIssue (.cpgo 31) s ∧ Writable (me s) (gd 31) ∧ CopyReady s false (some (handleOf 0 1 0x8000 7)) (some (handleOf 0 1 0x8000 7)) ∧ Settled s ∧ CachesEmpty s ∧
      CopyReady (staged 0) false none none) ∧
    (let p : Copy := ⟨0, 1, 0, [], none, none, false, 0, 0, none, 0, 0, 0, 0, false, 0, 0, none, false, none, []⟩; let s := (staged 8).modCell 0 fun k => { k with cwait := [p] };
      MayIssue (.cpgo 31) s ∧ barGate s s.cur = .ok () ∧ (∃ p ∈ (s.cell (cellOf s.cur)).cwait, p.c = s.cur ∧ p.plc = s.plc s.cur)) ∧
    (let s := staged (w64 (2 * 2 ^ 56)); MayIssue (.cpgo 31) s ∧ barGate s s.cur = .ok () ∧ (s.cell (cellOf s.cur)).cwait = [] ∧ 1 < ((me s).cpshape.extractLsb' 56 2).toNat) ∧
    (let s := ((staged 8).modArch 0 fun a => { a with g := [(5, .of 0x8000), (6, .of 0)] }).modCell 0 fun k => { k with slots := [(15, 1)] }; let z := s.modCell 0 fun k => { k with slots := [] };
      MayIssue (.cpmc 31 5 true) s ∧ MayIssue (.cpmc 31 6 true) s ∧ Readable (me s) [srcG 5 true 0] ∧ Readable (me s) [srcG 6 true 0] ∧ barGate s s.cur = .ok () ∧
      ((gv (me s) 6).setWidth 16 : BitVec 16) = 0 ∧ ((gv (me s) 5).setWidth 16 : BitVec 16) ≠ 0 ∧ (∀ k, k < 16 → ((gv (me s) 5).setWidth 16 : BitVec 16).getLsbD k = true →
        Tab.get (s.cell (cellOf s.cur)).slots k 0 ≠ 0) ∧ (∃ k < 16, ((gv (me z) 5).setWidth 16 : BitVec 16).getLsbD k = true ∧ Tab.get (z.cell (cellOf z.cur)).slots k 0 = 0) ∧
      CopyReady s true (some (handleOf 0 1 0x8000 7)) (some (handleOf 0 1 0x8000 7)) ∧ MayIssue (.slotq 31 5 true) s ∧ MayIssue (.slotret 5 6 true true) s ∧
      Readable (me s) [srcG 5 true 0, srcG 6 true 1] ∧ NoneEmpty (me s) ∧ (s.ctx s.cur).writing = none) := by
  have spans : ∀ off : Int, Spans 8 1 1 0 0 0 7 := fun _ => ⟨⟨0, 0, by decide, by decide, by decide⟩, ⟨0, 0, by decide, by decide, by decide⟩, fun i j hi hj => by
    obtain rfl : i = 0 := by omega
    obtain rfl : j = 0 := by omega
    decide⟩
  have ready : ∀ s : State, ∀ m : Bool, extent (me s) 0 = 8 → extent (me s) 1 = 1 → extent (me s) 2 = 1 → (me s).cpstr0 = 0 → (me s).cpstr1 = 0 → (me s).cpsrc = refTo 0 0 64 →
      (me s).cpdst = refTo 0 0 128 → barGate s s.cur = .ok () → (s.cell (cellOf s.cur)).cwait = [] → (me s).cpshape.extractLsb' 56 2 = 0 → (me s).cpfollow.getLsbD 32 = false →
      ((me s).cpbar.getLsbD 20 = true → ((me s).cpbar.setWidth 20).toNat + 16 ≤ (s.cell (cellOf s.cur)).spadSize) →
      spanCheck s s.cur (refTo 0 0 64) (64 + 0) (64 + 7) ⟨false, false, false, true, 0⟩ = .ok (handleOf 0 1 0x8000 7) →
      spanCheck s s.cur (refTo 0 0 128) (128 + 0) (128 + 7) ⟨true, false, false, true, 0⟩ = .ok (handleOf 0 1 0x8000 7) →
      CopyReady s m (some (handleOf 0 1 0x8000 7)) (some (handleOf 0 1 0x8000 7)) := by
    intro s m e0 e1 e2 z0 z1 hs hd hb hc hsh hf hbar c1 c2
    refine ⟨hb, by simp [hc], hsh, hf, hbar, by simp [e0], fun _ => ⟨by rw [hd]; decide, _, _, rfl, rfl, ⟨0, 7, ?_, ?_⟩, ⟨0, 7, ?_, ?_⟩⟩, fun _ f h => by cases h; decide⟩
    · rw [e0, e1, e2, z0, z1]; exact spans 0
    · rw [hs]; exact c1
    · rw [e0, e1, e2, z0, z1]; exact spans 0
    · rw [hd]; exact c2
  dsimp only
  refine ⟨⟨?_, ?_, ready _ _ ?_ ?_ ?_ ?_ ?_ ?_ ?_ ?_ ?_ ?_ ?_ ?_ ?_ ?_, ?_, caches_empty _ (by decide +kernel) rfl, ?_⟩, ?_, ?_, ?_, ?_, ?_, ?_, ?_, ?_, ?_, ?_, ?_,
    ready _ _ ?_ ?_ ?_ ?_ ?_ ?_ ?_ ?_ ?_ ?_ ?_ ?_ ?_ ?_, ?_, ?_, ?_, ?_, ?_⟩
  all_goals (try simp only [MayIssue, Writable, Readable, Settled, NoneEmpty]); (try exact ⟨by decide +kernel, by decide +kernel, by decide +kernel, by decide +kernel, by decide +kernel,
    fun _ => ⟨rfl, rfl⟩, fun h => absurd (by decide +kernel) h, by simp⟩); all_goals decide +kernel

/-- `memState` with references to a barrier at 64 in g5 and to page bytes in g6, a wait word in g7, and the operands of GATH and ENCPOST. -/
def engines (shape : Word) : State := memState.modArch 0 fun a => { a with
  g := a.g ++ [(9, .of 0x55), (10, .of 0x65), (11, .of (refTo 0 0 72))]
  x := [(0, .of (refTo 0 1 0)), (1, .of (refTo 0 0 64)), (2, .of shape), (3, .of (refTo 0 0 256))] }

theorem witness_BarrierInstructions :
    (let s := engines 0; let xs := [srcG 5 true 0, srcG 9 true 1];
      BarrierReady (.tbinit 5 9 true true) s xs 5 true spad8.addr ∧ BarrierReady (.tbexp 5 9 true true) s xs 5 true spad8.addr ∧
      BarrierReady (.tbarr 5 true .system) s [srcG 5 true 0] 5 true spad8.addr ∧ Settled s) ∧ CachesEmpty (engines 0) ∧
    (let s := engines 0; MayIssue (.tbinit 6 9 true true) s ∧ MayIssue (.tbinit 11 9 true true) s ∧ barGate s s.cur = .ok () ∧ ViewHolds s [srcG 6 true 0] ∧
      readRef s s.cur (gv (me s) 6) 16 1 ⟨true, false, false, false, 0⟩ = .ok (handleOf 0x10000 0 0x10000 7) ∧ (handleOf 0x10000 0 0x10000 7).kind ≠ 1 ∧
      (handleOf 0x10000 0 0x10000 7).kind ≠ 2 ∧ readRef s s.cur (gv (me s) 11) 16 1 ⟨true, false, false, false, 0⟩ = .ok (handleOf 0 1 0x8000 7) ∧
      (handleOf 0 1 0x8000 7).kind = 1 ∧ (gv (me s) 11).toNat % 16 ≠ 0) ∧
    (let s := engines 0; Writable (me s) (gd 31) ∧ BarrierReady (.tbwait 31 5 9 true true) s [srcG 5 true 0, srcG 9 true 1] 5 false spad8.addr ∧
      BarrierReady (.tbtime 31 5 10 true true) s [srcG 5 true 0, srcG 10 true 1] 5 false spad8.addr ∧ ((gv (me s) 9).extractLsb' 4 3).toNat = Scope.system.code ∧
      5 < ((gv (me s) 10).extractLsb' 4 3).toNat) := by
  refine ⟨?_, caches_empty _ (by decide +kernel) rfl, ?_, ?_⟩ <;>
    (simp only [BarrierReady, MayIssue, Writable, Readable, ViewHolds, Settled]; and_intros <;> decide +kernel)

theorem witness_EngineInstructions :
    (∃ (e0 e1 e3 : HEntry) (as0 as3 : List Acc), let s := engines (w64 (4 + 8 * 2 ^ 32 + 8 * 2 ^ 48)); let i := Instr.gath 5 .dflt; let g (n : Nat) : Gather := ⟨0, 0, 1, 0, 0, 0, 0, 0, ⟨0, 0, 0, 0⟩, ⟨0, 0, 0, 0⟩, ⟨0, 0, 0, 0⟩, 0, 0, 0, [], n, 0, none, [], 0⟩;
      let x2 : Word := w64 (4 + 8 * 2 ^ 32 + 8 * 2 ^ 48);
      (MayIssue i s ∧ barGate s s.cur = .ok () ∧ Readable (me s) (gathRegs 5) ∧ ViewHolds s (gathRegs 5) ∧ barrierAt s s.cur (gv (me s) 5) true = .ok spad8.addr ∧
      (((me s).xr 2).val = x2 ∧ (x2.extractLsb' 32 16).toNat % 8 = 0 ∧ 8 ≤ (x2.extractLsb' 32 16).toNat ∧ ((x2.extractLsb' 48 8).toNat = 4 ∨ (x2.extractLsb' 48 8).toNat = 8) ∧
        x2.extractLsb' 56 8 = 0) ∧ regionPhase s s.cur (refTo 0 1 0) (4 * 8) 8 ⟨false, false, false, false, 0⟩ ((me s).xr 0).lab = .ok (e0, as0) ∧ NoRace as0 ∧ NoRace as3 ∧
      regionPhase s s.cur (refTo 0 0 256) (4 * 8) 8 ⟨true, false, false, false, 0⟩ ((me s).xr 3).lab = .ok (e3, as3) ∧
      handleEntry s s.cur (refIdx (refTo 0 0 64)) = .ok e1 ∧ e1.valid = true ∧ e1.kind < 4 ∧ e1.reserved = false ∧ e1.rd = true ∧ refOff (refTo 0 0 64) % 8 = 0 ∧
      ((s.col (colOf (cellOf s.cur))).gathers.filter fun g => g.cell == cellOf s.cur).length < 16 ∧
      16 ≤ (((s.modCol 0 fun k => { k with gathers := (List.range 16).map g }).col (colOf (cellOf s.cur))).gathers.filter fun g => g.cell == cellOf s.cur).length)) ∧
    (let s := engines (w64 (8 * 2 ^ 32 + 4 * 2 ^ 48)); ((me s).xr 2).val.setWidth 32 = 0#32 ∧
      regionPhase s s.cur (refTo 0 1 0) (0 * 4) 4 ⟨false, false, false, false, 0⟩ ((me s).xr 0).lab = .ok (handleOf 0x10000 0 0x10000 7, []) ∧
      regionPhase s s.cur (refTo 0 0 256) (0 * 8) 8 ⟨true, false, false, false, 0⟩ ((me s).xr 3).lab = .ok (handleOf 0 1 0x8000 7, [])) ∧
    (let s := engines (w64 (4 + 4 * 2 ^ 32)); MayIssue (.gath 5 .dflt) s ∧ ¬((((me s).xr 2).val.extractLsb' 32 16).toNat % 8 = 0)) ∧
    (∃ (e : HEntry) (as : List Acc), let s := engines 0; let i := Instr.encpost 31 6 9 true true;
      MayIssue i s ∧ barGate s s.cur = .ok () ∧ Writable (me s) (gd 31) ∧ Readable (me s) (encRegs 6 9 true true) ∧ ViewHolds s [srcG 6 true 0, srcF .x 0 3, srcF .x 1 4] ∧
      regionPhase s s.cur (gv (me s) 6) 1 1 ⟨false, false, false, false, 0⟩ ((me s).gr 6).lab = .ok (e, as) ∧ NoRace as ∧ barrierAt s s.cur ((me s).xr 1).val true = .ok spad8.addr ∧ Settled s) ∧
    CachesEmpty (engines 0) := by
  simp only [MayIssue, Writable, Readable, ViewHolds, Settled, NoRace]
  refine ⟨⟨handleOf 0x10000 0 0x10000 7, handleOf 0 1 0x8000 7, handleOf 0 1 0x8000 7, (List.range 4).map fun n => { dram8 with addr := 0x200000 + 8 * n, ref := refTo 0 1 0, va := 0x10000 + w64 (8 * n) }, (List.range 4).map fun n => spadAcc (refTo 0 0 256) (spadAddr 0 (256 + 8 * n)) 8, ?_⟩, ?_, ?_, ⟨handleOf 0x10000 0 0x10000 7, [lineAcc], ?_⟩, caches_empty _ (by decide +kernel) rfl⟩ <;>
    and_intros <;> decide +kernel

/-- A strand of the job on a context of a receiver keeps CPMC from skipping it; one without is skipped. -/
theorem witness_Skips : (base.ctx base.cur).strand ≠ none ∧ Skips base 0 15 ∧ ¬ Skips (base.modCtx 240 fun x => { x with strand := (base.ctx 0).strand }) 0 15 := by
  refine ⟨by decide +kernel, Or.inr ?_, ?_⟩
  · have h : ∀ i < 16, (base.ctx (16 * 15 + i)).strand = none ∧ (base.ctx (16 * 15 + i)).save = none := by decide +kernel
    have e : colOf (cellOf base.cur) * 16 + 15 = 15 := by decide +kernel
    intro i hi
    simp [e, (h i hi).1, (h i hi).2]
  · rintro (h | h)
    · exact h (by decide +kernel)
    · exact (h 0 (by decide)).1 _ rfl rfl

/-- A copy job from offset 64 to offset 192 of the own scratchpad of cell 0, with its barrier at offset 64. -/
def copyOf (shape : Word) : Copy :=
  ⟨0, 1, 0, [refTo 0 0 64, refTo 0 0 192, shape, 0, 0, 0x100040, 0], some (handleOf 0 1 0x8000 7), some (handleOf 0 1 0x8000 7), false, 0, 0, some ⟨.g, 31⟩, 5, 0, 0, 0,
    false, 0, 0, none, false, none, []⟩
/-- A cell whose copy slots below `n` are in use, with a job waiting. -/
def copying (n : Nat) : State := base.modCell 0 fun k => { k with cwait := [copyOf 65], copies := (List.range n).map fun i => (i, copyOf 65) }

theorem witness_CopySteps :
    (let s := copying 63; (s.cell 0).cwait = copyOf 65 :: [] ∧ (s.col (colOf 0)).cellPower = true ∧ Tab.get? (s.cell 0).copies 63 = none ∧
      (∀ j, j < 63 → Tab.get? (s.cell 0).copies j ≠ none) ∧ (copyOf 65).multi = false ∧ (copyOf 65).skipped = 0 ∧ ((copyOf 65).snap.getD 2 0).extractLsb' 56 2 = 0 ∧ 0 < (copyOf 65).total ∧ s.plc (copyOf 65).c = (copyOf 65).plc ∧
      (∀ j, j < 64 → Tab.get? ((copying 64).cell 0).copies j ≠ none)) ∧
    (let s := base.modCell 0 fun k => { k with copies := [(5, copyOf 65)] };
      Alone s 0 5 (copyOf 65) (refTo 0 0 64) (refTo 0 0 192) 65 0 0 0x100040 0 ∧ Own (handleOf 0 1 0x8000 7) ∧
      (ownAddr 0 (handleOf 0 1 0x8000 7) (rowOff (refTo 0 0 192) 0 0 32 0 0 0) % 64 = 0 ∧ min (65 - 0) (64 - 0) = 64 ∧
      ownAddr 0 (handleOf 0 1 0x8000 7) (rowOff (refTo 0 0 64) 0 0 0 0 0 64) ≤ spadEnd s 0 ∧
      ownAddr 0 (handleOf 0 1 0x8000 7) (rowOff (refTo 0 0 192) 0 0 32 0 0 64) ≤ spadEnd s 0 ∧ (s.credits = []) ∧
      (∀ x, x < 64 → s.isBad (ownAddr 0 (handleOf 0 1 0x8000 7) (rowOff (refTo 0 0 64) 0 0 0 0 0 x)) = false) ∧
      (∀ x, x < 64 → s.isBad (ownAddr 0 (handleOf 0 1 0x8000 7) (rowOff (refTo 0 0 192) 0 0 32 0 0 x)) = false) ∧ (copyOf 65).credited < 64 / 64 ∧
      (copyOf 65).credited < (65 + 63) / 64 ∧ { s with badWords := [spadAddr 0 64 / 8] }.isBad (ownAddr 0 (handleOf 0 1 0x8000 7) (rowOff (refTo 0 0 64) 0 0 0 0 0 0)) = true ∧
      (s.part 0).ringSize = 0)) ∧
    (let r : Credit := ⟨spadAddr 0 64, 2, true, false, none, none, none⟩; let s (arr sec : Nat) := { base.setWord (spadAddr 0 64) (w64 (15 + arr * 16 + sec * 2 ^ 24)) with credits := [r] };
      (s 0 2).credits[0]? = some r ∧ Config.spadBase ≤ r.addr ∧ r.addr + 16 ≤ Config.spadFeBase ∧ homeUp (s 0 2) r.addr = true ∧ (s 0 2).isBad r.addr = false ∧
      barOf ((s 0 2).word r.addr) = (15, 0, 2, false) ∧ barOf ((s 1 2).word r.addr) = (15, 1, 2, false) ∧ -(2 ^ 31 : Int) ≤ (2 : BitVec 32).toInt - r.n) ∧ Padding (w64 (7 * 2 ^ 58 + 5 * 2 ^ 54 + 192)) 43 := by
  refine ⟨by decide +kernel, ⟨⟨rfl, rfl, by decide, rfl, rfl, fun _ => rfl, rfl, by decide, rfl, rfl⟩, by unfold Own; decide, ?_⟩, ?_, ⟨Or.inl rfl, by decide, by decide⟩⟩
  · and_intros <;> decide +kernel
  · dsimp only; and_intros <;> decide +kernel

/-- A gather of two rows of eight bytes, by indexes of eight bytes, all regions in the own scratchpad of cell 0. -/
def gatherOf (idx : List Nat) (moved : Nat) : Gather :=
  ⟨0, 0, 1, 0, refTo 0 0 0, refTo 0 0 0x1000, w64 (2 + 8 * 2 ^ 32 + 8 * 2 ^ 48), refTo 0 0 0x2000, handleOf 0 1 0x1FFF 7, handleOf 0 1 0x1FFF 7, handleOf 0 1 0x2FFF 7, 0,
    spadAddr 0 64, 0, idx, moved, 0, none, [], 0⟩
/-- `base` with that gather at work in column 0. -/
def gathering (idx : List Nat) (moved : Nat) : State := base.modCol 0 fun k => { k with gathers := [gatherOf idx moved] }
/-- A frame of stream 0, an encoder at work on it, and a device with the stream's descriptor and ring, whose tail is `tail` bytes on. -/
def frameOf : Frame := ⟨0, 0, 0, none, 7, some (spadAddr 0 64, 0), 0, some ⟨⟨.g, 31⟩, .w 0, [], 0⟩, 1, none⟩
/-- See `frameOf`. -/
def encOf (read : Bool) : Enc := ⟨frameOf, 0, read, true, [], none⟩
/-- See `frameOf`. -/
def encoding (read : Bool) (tail : Word) : State :=
  let s := ((paged 0x50001B).modPart 0 fun p => { p with ltable := some (w64 (2 ^ 57 - 4096)) }).setWord 0x500000 (w64 (2 ^ 57 - 2048))
  let s := (s.setWord 0x500008 (w64 (1023 + 7 * 2 ^ 42))).setWord 0x500800 tail
  let s := ((s.setWord 0x600000 (w64 (1 + 1 * 2 ^ 14))).setWord 0x600008 (w64 (64 + 64 * 2 ^ 16))).setWord 0x600018 (refTo 0 0 0)
  { s.setWord 0x600020 128 with strdesc := 0x600000, encs := [(0, encOf read)] }

theorem witness_GatherAndEncoderSteps :
    (let s := gathering [] 0; let at_ (p : Nat) : Nat := ownAddr 0 (handleOf 0 1 0x1FFF 7) ((((refTo 0 0 0).setWidth 40 : BitVec 40).toNat + p * 8 : Nat) : Int);
      GatherAt s 0 (gatherOf [] 0) ∧ at_ 0 % 8 = 0 ∧ at_ 17 ≤ spadEnd s 0 ∧ (∀ k, k < 64 → s.isBad (at_ 0 + k) = false)) ∧
    (let s := gathering [3, 3] 8; GatherAt s 0 (gatherOf [3, 3] 8) ∧ (gatherOf [3, 3] 8).moved = 1 * 8 ∧ (gatherOf [3, 3] 8).idx[1]? = some 3 ∧ (∀ b, s.isBad b = false) ∧ spadAddr 0 (0x2000 + 16) ≤ spadEnd s 0 ∧ spadAddr 0 (0x1000 + 32) ≤ spadEnd s 0 ∧
      (s.part 0).ringSize = 0 ∧ ((refTo 0 0 0x1000).setWidth 40 : BitVec 40).toNat + (3 + 1) * 8 ≤ (handleOf 0 1 0x1FFF 7).bound ∧
      (handleOf 0 1 0x1FFF 7).bound < ((refTo 0 0 0x1000).setWidth 40 : BitVec 40).toNat + (512 + 1) * 8) ∧
    (let s := { encoding false 0 with frames := [frameOf] }; let u := { s with streams := [(0, [frameOf])] };
      s.frames[0]? = some frameOf ∧ (∀ x ∈ s.frames.take 0, x.stream ≠ 0) ∧ s.plc 0 = 1 ∧ streamOk (streamWords s 0) = true ∧ (streamWord s 0 0).extractLsb' 1 6 = frameOf.part ∧
      (Tab.get s.streams 0 []).length < ((streamWord s 0 0).extractLsb' 14 4).toNat ∧ ((streamWord u 0 0).extractLsb' 14 4).toNat ≤ (Tab.get u.streams 0 []).length ∧
      (streamWord base 0 0).getLsbD 0 = false) ∧
    (let s := { encoding false 0 with encs := [], streams := [(0, [frameOf]), (1, [{ frameOf with stream := 1 }])] };
      Tab.get? s.encs 0 = none ∧ boundTo s 0 = 0 ∧ boundTo s 1 = 0 ∧ s.streams.Pairwise (fun a b => a.1 < b.1) ∧ frameOf.pts = { frameOf with stream := 1 }.pts) ∧
    (Tab.get? (encoding false 0).encs 0 = some (encOf false) ∧ Tab.get? (encoding true 0).encs 0 = some (encOf true) ∧ (encOf true).read = true ∧
      (∀ t ∈ [0, 1], let s := encoding true (w64 (32 * t + t)); partEntry s 0 (streamWord s 0 3) = some ⟨w64 (2 ^ 57 - 2048), w64 (1023 + 7 * 2 ^ 42), 0, 0⟩ ∧
        partWord s 0 (2 ^ 57 - 2048) = some (w64 (33 * t)) ∧ partWord s 0 (2 ^ 57 - 2048 + 8) = some 0 ∧ ((streamWord s 0 4).setWidth 32 : BitVec 32).toNat - 64 = 64) ∧
      (encoding true (w64 33)).parts.all (fun p => p.2.ringSize == 0) = true ∧
      64 < (w64 33 - 0).toNat + 32 ∧ (w64 0 - 0).toNat + 32 ≤ 64) := by
  refine ⟨⟨⟨rfl, ⟨rfl, fun n => tab_all Column.cellPower _ _ n rfl (by decide +kernel)⟩, ⟨by unfold Own; decide, by unfold Own; decide, by unfold Own; decide⟩, by decide, by decide, by decide, by decide⟩, by decide +kernel⟩,
    ⟨⟨rfl, ⟨rfl, fun n => tab_all Column.cellPower _ _ n rfl (by decide +kernel)⟩, ⟨by unfold Own; decide, by unfold Own; decide, by unfold Own; decide⟩, by decide, by decide, by decide, by decide⟩, rfl, rfl, fun b => by
      have h : ((gathering [3, 3] 8).cell (spadCell b)).failedBanks = [] ∧ ((gathering [3, 3] 8).cell (spadCell b)).restoreErr = [] := by
        simpa [State.cell] using tab_all (fun k : Cell => k.failedBanks == [] && k.restoreErr == []) _ _ _ rfl (by decide +kernel)
      unfold State.isBad
      rw [h.1, h.2]
      split <;> rfl, by decide +kernel, by decide +kernel, by decide +kernel⟩,
    ?_, ?_, ?_⟩ <;> decide +kernel

theorem witness_FramePlanes :
    let f := { frameOf with va := some (2 ^ 57 - 4096) }; let s := (encoding false 0).setWord 0x600008 (w64 (64 + 64 * 2 ^ 16 + 2 ^ 32))
    let up := { s with encs := [(0, { encOf false with frame := f })] }; let down := up.modCol (homeCol 0x500000) fun k => { k with stationPower := false }
    Tab.get? up.encs 0 = some { encOf false with frame := f } ∧ (framePlaces up f).all (fun b => !encHeld up 0 0 b) = true ∧
      Tab.get? down.encs 0 = some { encOf false with frame := f } ∧ 0x500000 ∈ framePlaces down f ∧ encHeld down 0 0 0x500000 = true := by
  dsimp only; and_intros <;> decide +kernel

/-- A launch node's words: one strand at 0x10000, on any of the cells 0 to `last`. -/
def launchWords (note last : Nat) : List Word :=
  [w64 (0x0101 + note * 32), 0, 0, 0x10000, w64 (1 + 2 ^ 16 + 2 ^ 32), 0, 0, 0, 0x100, 8, 5, w64 (last * 2 ^ 16), 0, 0, 0, 0]
/-- A node, a graph of these nodes and a job of this graph. -/
def nodeAt (kind : Nat) (st : NState) (ws : List Word) : Node := ⟨w64 (2 ^ 57 - 4096), kind, 0, 0, false, st, [], ws, 0, 1, 1, 0, false, none, none, false⟩
/-- See `nodeAt`. -/
def graphOf (ns : List Node) : Graph := ⟨0x3000, ns, false, []⟩
/-- See `nodeAt`. -/
def jobOf (gs : List Graph) : Job := ⟨7, 0, 0x1000, 9, w64 (2 ^ 57 - 4096), 1, 0x2000, 0, gs, false, none, false⟩
/-- `base` with that job. -/
def scheduled (n : Node) : State := { base with jobs := [jobOf [graphOf [n]]], jobSeq := 8 }
/-- Context 0 runs a strand of the job's node, and g5 holds 9. -/
def running : State := ({ scheduled (nodeAt 1 .running (launchWords 0 0)) with
  answers := [⟨0, 1, ⟨.g, 31⟩, 0, none, ⟨1, 7, 0, 0, 0, 0, 0, 0, 0, 0, false⟩, .launch, 0⟩, ⟨0, 1, ⟨.g, 31⟩, 0, some 2, ⟨1, 7, 0, 0, 0, 0, 0, 0, 0, 0, false⟩, .launch, 8⟩], nsignals := [(7, 0, 0, 0)] }).modCtx 0
  fun x => { x with strand := some ⟨1, 7, 0, 0, 0, 0, 0, 0, 0, 0, false⟩, arch := { x.arch with g := [(5, .of 9)] } }

theorem witness_SchedulingInstructions :
    (let s := running; ∃ u, MayIssue (.nsignal 5 true) s ∧ Readable (me s) [srcG 5 true 0] ∧ Settled s ∧ NoneEmpty (me s) ∧ (s.ctx s.cur).writing = none ∧ (s.ctx s.cur).strand = some u ∧
      MayIssue .strdone s ∧ strandBusy s s.cur u.plc = false ∧ (s.ctx s.cur).run = .running ∧ s.deliveries = [] ∧ s.claims = [] ∧ s.parts.all (fun p => p.2.ringSize == 0) = true ∧ findNode s ⟨u.job, u.graph, u.node⟩ ≠ none ∧
      strandBusy { s with credits := [⟨0, 1, false, false, some (0, 1), none, none⟩] } 0 u.plc = true) ∧
    CachesEmpty running ∧
    (let s := running;
      (MayIssue (.cancel 31 5 true .graph) s ∧ MayIssue (.cancel 31 5 true .job) s ∧ MayIssue (.cancel 31 0 true .strand) s ∧ MayIssue (.cntq 31 5 true .job) s) ∧
      (Writable (me s) (gd 31) ∧ Readable (me s) [srcG 5 true 0] ∧ Readable (me s) [srcG 0 true 0] ∧ gv (me s) 5 = 9 ∧ (s.part 0).queue = []) ∧
      (let j := jobOf [graphOf [nodeAt 1 .running (launchWords 0 0)]]; s.jobs = [j] ∧ j.jid.toNat = (9 : Word).toNat ∧ (jobOf []).jid = j.jid ∧ { j with done := true }.done = true)) ∧
    (let s := running.modCtx 0 fun x => { x with strand := some ⟨1, 0, 0, 0, 0, 0, 0, 0, 0, 0, false⟩ }; MayIssue (.cancel 31 5 true .job) s ∧ Readable (me s) [srcG 5 true 0] ∧
      s.ctxs.Pairwise (fun p q => p.1 < q.1) ∧ ∀ c, (s.ctx c).save = none) ∧
    (let s := running; let u : Strand := ⟨1, 7, 0, 0, 0, 0, 0, 0, 0, 0, false⟩; s.answers[0]? = some ⟨0, 1, ⟨.g, 31⟩, 0, none, u, .launch, 0⟩ ∧ s.plc 0 = 1 ∧
      s.answers[1]? = some ⟨0, 1, ⟨.g, 31⟩, 0, some 2, u, .launch, 8⟩ ∧ findNode s ⟨7, 0, 0⟩ ≠ none ∧ findGraph s 7 0 ≠ none ∧ findJob s 7 ≠ none) ∧
    (let s (st : NState) (sig : Nat) := { scheduled { nodeAt 1 st (launchWords 0 0) with sig := sig } with nsignals := [(7, 0, 0, 0)] };
      (s .waiting 1).nsignals[0]? = some (7, 0, 0, 0) ∧ findNode (s .waiting 1) ⟨7, 0, 0⟩ = some { nodeAt 1 .waiting (launchWords 0 0) with sig := 1 } ∧
      findNode (s .running 0) ⟨7, 0, 0⟩ = some { nodeAt 1 .running (launchWords 0 0) with sig := 0 }) := by
  have hs : ∀ s : State, s.ctxs.all (fun p => p.2.save.isNone) = true → ∀ c, (s.ctx c).save = none := fun s h c => by
    simpa [State.ctx] using tab_all (fun x : Ctx => x.save.isNone) s.ctxs _ c rfl h
  refine ⟨⟨⟨1, 7, 0, 0, 0, 0, 0, 0, 0, 0, false⟩, ?_⟩, caches_empty _ (by decide +kernel) rfl, ?_, ⟨?_, ?_, ?_, hs _ (by decide +kernel)⟩, ?_, ?_⟩
  all_goals (try simp only [MayIssue, Writable, Readable, Settled, NoneEmpty]); (try dsimp only); (try and_intros) <;> decide +kernel

/-- An address of the last page of the address space. -/
def atPage (o : Nat) : Word := w64 (2 ^ 57 - 4096 + o)
/-- Words laid into partition 0's last page. -/
def onPage (put : List (Nat × List Word)) : State :=
  put.foldl (fun s p => p.2.zipIdx.foldl (fun s q => if q.1 = 0 then s else s.setWord (0x500000 + p.1 + 8 * q.2) q.1) s) (paged 0x50001B)
/-- Descriptors of a work job, a contract job, a contract and a conditional node. -/
def workWords : List Word := [0x90000, atPage 0x100, 1, atPage 0x200, 0, 0, 0, 0]
/-- See `workWords`. -/
def cjobWords : List Word := [0xA0001, 0, 0, atPage 0x200, atPage 0x400, 0, 0, 0]
/-- See `workWords`. -/
def contractWords (deadline : Word) : List Word := [0, 10000, 1, deadline, 5, 0x10000, 0, 0, 1, 0, 0, 0, 0, 0, 0, 0]
/-- See `workWords`. -/
def condWords : List Word := [0x0205, 0, 0, atPage 0x200, 0, 0, 0, 0, 0, 0, 0, 0, 0, 0, 0, 0]
/-- `onPage` with this queue. -/
def queued (q : List Word) (put : List (Nat × List Word)) : State := (onPage put).modPart 0 fun p => { p with queue := q }
/-- What is read of a job's descriptor once it has been taken from the queue. -/
def taken (s : State) (q : List Word) : State := { s with parts := Tab.put s.parts (0 : BitVec 6).toNat { s.part (0 : BitVec 6).toNat with queue := q } }

/-- A list whose tail from `n` on is zero reads as zero from there on. -/
theorem zero_from {w : List Word} {n : Nat} (h : w.drop n = List.replicate (w.length - n) 0) (i : Nat) (hi : n ≤ i) : w.getD i 0 = 0 := by
  obtain ⟨k, rfl⟩ := Nat.le.dest hi
  have hk : (w.drop n)[k]? = (List.replicate (w.length - n) 0)[k]? := by rw [h]
  rw [List.getElem?_drop, List.getElem?_replicate] at hk
  simp only [List.getD_eq_getElem?_getD, hk]
  split <;> rfl

theorem witness_JobsAndNodes :
    (let s := queued [atPage 0] []; (s.part 0).queue.length < 64 ∧ (atPage 0).setWidth 6 = 0#6 ∧ (atPage 1).setWidth 6 ≠ 0#6) ∧
    (let s := queued [atPage 0, 0] [(0, workWords)]; let w := workWords; (s.part 0).queue = atPage 0 :: [0] ∧ partWords (taken s [0]) 0 (atPage 0).toNat 8 = some w ∧ WorkJob w ∧
      s.jobs = [] ∧ (let j := jobOf []; part_ w 0 16 32 = j.jid.toNat ∧ j.part = 0 ∧ j.done = false ∧ j.id < 8)) ∧
    (let s (d : Word) := queued [atPage 0x40] [(0x40, cjobWords), (0x400, contractWords d)]; let w := cjobWords;
      partWords (taken (s 10000) []) 0 (atPage 0x40).toNat 8 = some w ∧ partWords (taken (s 10000) []) 0 (part_ w 4 0 57) 16 = some (contractWords 10000) ∧
      ((s 10000).part 0).queue = atPage 0x40 :: [] ∧ ContractJob w ∧ (s 10000).jobs = [] ∧
      ContractFields (contractWords 10000) ∧ ContractTimes (contractWords 10000) ∧ ¬ ContractTimes (contractWords 3000)) ∧
    (∀ s : State, s.jobs = [] → ∀ c, c < 64 →
      reserved s c + part_ (contractWords 10000) (8 + c / 8) (8 * (c % 8)) 8 * cost (part_ (contractWords 10000) 0 1 2) ≤ 224) ∧
    (let x : Job := { jobOf [] with ptab := atPage 0x100 }; let s := { queued [] [(0x100, [atPage 0x180, 1])] with jobs := [x] };
      x.phase < x.nph ∧ (∀ g ∈ x.graphs, g.done = true) ∧ jobEngines s x.id = false ∧ partWords s 0 (x.ptab.toNat + 16 * x.phase) 2 = some [atPage 0x180, 1] ∧
      part_ [atPage 0x180, 1] 1 0 16 ≠ 0 ∧ partWords s 0 ((atPage 0x600).toNat + 16 * x.phase) 2 = some [0, 0] ∧ part_ [0, 0] 1 0 16 = 0) ∧
    (let n : Node := { nodeAt 0 .waiting [] with va := atPage 0x300 }; let s (ws : List Word) := { queued [] [(0x300, ws)] with jobs := [jobOf [graphOf [n]]] };
      n.st = .waiting ∧ n.pred = 0 ∧ n.sig = 0 ∧
      (let w := condWords; partWords (s w) 0 n.va.toNat 16 = some w ∧ (w.getD 0 0).setWidth 16 = 0x0205#16 ∧ NodeHead w 2 1 [] ∧
        part_ w 3 57 7 = 0 ∧ part_ w 3 0 3 = 0 ∧ w.length = 16 ∧ (∀ i, 4 ≤ i → w.getD i 0 = 0) ∧ partWord (s w) 0 (part_ w 3 0 57) = some 0) ∧
      (let w := launchWords 0 0; partWords (s w) 0 n.va.toNat 16 = some w ∧ (w.getD 0 0).setWidth 16 = 0x0101#16 ∧ NodeHead w 1 1 [] ∧ LaunchWords w)) ∧
    ((queued [0] [(0, workWords)]).parts.all (fun p => p.2.ringSize == 0) = true ∧ (queued [0] [(0, workWords)]).l2 = [] ∧ (queued [0] [(0, workWords)]).badL2 = []) ∧
    (let n : Node := { nodeAt 1 .running (launchWords 0 0) with next := 1, left := 0, sets := [[1]] }; let m : Node := { nodeAt 1 .waiting [] with pred := 1 };
      n.kind = 1 ∧ n.st = .running ∧ n.next = n.total ∧ n.left = 0 ∧ n.decided = false ∧ n.sets = [[1]] ∧ m.st = .waiting ∧ 1 ≤ m.pred ∧ m.kind ≠ 6 ∧ m.sets = [] ∧
      (jobOf [graphOf [n, m]]).graphs = [graphOf [n, m]]) := by
  simp only [WorkJob, NodeHead, LaunchWords, ContractJob, ContractFields, ContractTimes]
  refine ⟨by decide +kernel, ?_, ?_, fun s h => ?_, by decide +kernel, ?_, by decide +kernel⟩
  · and_intros <;> decide +kernel
  · and_intros <;> decide +kernel
  · unfold reserved
    rw [h]
    decide +kernel
  · and_intros
    all_goals first | exact zero_from (by decide +kernel) | decide +kernel

/-- A strand of that job. -/
def strandOf (note : BitVec 2) : Strand := ⟨1, 7, 0, 0, 0, note, 0, 0, 0, 0, false⟩
/-- A job under a contract, whose release 0 runs or has ended. -/
def contractJob (k : Contract) (ended : Bool) : Job := { jobOf [⟨0x3000, [nodeAt 1 .running (launchWords 0 0)], ended, []⟩] with contract := some k }
/-- Such a contract, with releases at 0, 10000, …; `release` is the next one. -/
def contractAt (release : Nat) (running : Option Nat) : Contract := ⟨true, 0, 10000, 1, 5000, 0, 0x10000, 0, [], release, 0, none, running⟩

/-- A ready launch of one strand, with its job. -/
def readyOf (n : Node) : Ready := ⟨⟨7, 0, 0⟩, jobOf [graphOf [n]], n⟩
/-- A co-resident launch that the cells from `first` to 0 may run. -/
def coresNode (first : Nat) : Node := nodeAt 1 .ready (w64 0x0111 :: (launchWords 0 0).tail.set 10 (w64 first))
/-- Reset with the job of a node. -/
def idle (n : Node) : State := { State.reset with jobs := [jobOf [graphOf [n]]], jobSeq := 8 }

theorem witness_Placement_places :
    (let n := nodeAt 1 .ready (launchWords 1 0); let s := idle n; let l := readyOf n;
      nextPlace s = some (0, l) ∧ findNode s l.ref = some n ∧ (s.cell 0).l1 = [] ∧ launchField n 4 0 16 = 1 ∧ launchField n 4 16 16 = 1) := by decide +kernel
theorem witness_Placement_coResident : ∀ k, k < 2 →
    (let n := coresNode k; let s := idle n; let l := readyOf n;
      (readyLaunches s).find? (fun l => l.ref == ⟨7, 0, 0⟩) = some l ∧ findNode s l.ref ≠ none ∧ s.dispatch = true ∧ l.cores = true ∧
      (k = 0 → l.node.total ≤ (coresPlaces s l).length) ∧ (k = 1 → (coresPlaces s l).length < l.node.total)) := by
  intro k hk
  have h : k = 0 ∨ k = 1 := by omega
  rcases h with rfl | rfl <;> decide +kernel
theorem witness_Placement_contracts :
    (let s (k : Contract) (e : Bool) (t : Word) : State := { idle (nodeAt 1 .ready []) with jobs := [contractJob k e], tsc := t };
      (s (contractAt 0 none) true 0).jobs = [contractJob (contractAt 0 none) true] ∧ (contractJob (contractAt 0 none) true).done = false ∧
      (∀ g ∈ (contractJob (contractAt 0 none) true).graphs, g.done = true) ∧ (contractAt 0 none).first.toNat + 0 * 10000 ≤ (s (contractAt 0 none) true 0).tsc.toNat) ∧
    ((∃ g ∈ (contractJob (contractAt 1 none) false).graphs, g.done = false) ∧ (contractAt 1 none).running = none ∧
      (contractAt 1 (some 0)).running = some 0 ∧ (contractAt 1 (some 0)).missed ≠ some 0 ∧ (contractAt 1 (some 0)).first.toNat + 0 * 10000 + 5000 ≤ (5000 : Word).toNat) := by
  decide +kernel
theorem witness_Placement_budget :
    (let s : State := { base with jobs := [contractJob (contractAt 1 (some 0)) false], tsc := 2 }.modCtx 0 fun x => { x with strand := some (strandOf 2) };
      (s.ctx 0).strand = some (strandOf 2) ∧ (strandOf 2).job = (contractJob (contractAt 1 (some 0)) false).id ∧ (s.ctx 0).run = .running ∧ (strandOf 2).overrun = false ∧
      (contractAt 1 (some 0)).budget < (strandOf 2).used + (s.tsc.toNat - (strandOf 2).since)) := by decide +kernel
theorem witness_Placement_stall : ∀ t, t = 0 ∨ t = 1000000 →
    (let n := nodeAt 1 .ready (launchWords 1 1023); let l := readyOf n;
      let s : State := { idle n with tsc := t, cols := (List.range 64).map fun k => (k, { base.col 0 with level := 1, above := 0 }) };
      (readyLaunches s).find? (fun l => l.ref == ⟨7, 0, 0⟩) = some l ∧ stallDue s l = (t == 1000000)) := by
  rintro t (rfl | rfl) <;> decide +kernel
/-- Four strands of note base on cell 0, which is in mode 4, and a ready launch of note top that only cell 0 may run. -/
def crowded : State :=
  { idle (nodeAt 1 .ready (launchWords 2 0)) with
    cells := [(0, { Cell.reset 0 with mode := .m4 })]
    ctxs := (List.range 4).map fun c => (c, { (base.ctx 0) with strand := some { strandOf 0 with plc := w64 (5 - c) } }) }
theorem witness_Placement_preEmption :
    (let u : Strand := { strandOf 0 with plc := 5 }; let s := crowded;
      preemptible s = some 0 ∧ maySave s 0 = true ∧ (s.ctx 0).strand = some u ∧ (s.ctx 0).run = .running ∧ (s.ctx 0).pend = [] ∧ (s.ctx 0).wcb = [] ∧
      (s.ctx 0).hold = none ∧ (s.ctx 0).committed = [] ∧ s.stores = [] ∧ s.passes = [] ∧ preemptible base ≠ some 0) := by
  have hl : (readyLaunches crowded).filter (fun l => l.rank.note == 2) = [readyOf (nodeAt 1 .ready (launchWords 2 0))] := by decide +kernel
  have hf : ∀ c, 16 ≤ c → fits crowded (readyOf (nodeAt 1 .ready (launchWords 2 0))) c = false := fun c h => by
    have h2 : dfld (readyOf (nodeAt 1 .ready (launchWords 2 0))).node.words 11 16 10 = 0 := by decide +kernel
    have hc : ¬ cellOf c ≤ 0 := by unfold cellOf; omega
    simp [fits, inRange, h2, hc]
  have hs : ∃ r, (List.range 64).flatMap (columnCtxs crowded) = [0, 1, 2, 3] ++ r ∧ ∀ c ∈ r, 16 ≤ c := by
    refine ⟨((List.range 15).map Nat.succ).flatMap (fun i => (List.range (crowded.cell (16 * 0 + i)).mode.contexts).map fun k => 16 * (16 * 0 + i) + k) ++
      ((List.range 63).map Nat.succ).flatMap (columnCtxs crowded), ?_, fun c h => ?_⟩
    · rw [show List.range 64 = 0 :: (List.range 63).map Nat.succ from by decide, List.flatMap_cons, ← List.append_assoc]
      congr 1
    · simp only [columnCtxs, List.mem_append, List.mem_flatMap, List.mem_map] at h
      obtain ⟨_, ⟨n, _, rfl⟩, j, _, rfl⟩ | ⟨_, ⟨n, _, rfl⟩, i, _, j, _, rfl⟩ := h <;> omega
  have hp : preemptible crowded = some 0 := by
    obtain ⟨r, hr, hc⟩ := hs
    unfold preemptible
    rw [hl]
    simp only [List.findSome?_cons, List.findSome?_nil, hr, List.any_append, List.filter_append]
    have h1 : r.filter (victim crowded (readyOf (nodeAt 1 .ready (launchWords 2 0)))) = [] :=
      List.filter_eq_nil_iff.2 fun c h => by simp [victim, hf c (hc c h)]
    have h2 : r.any (fun c => freeCtxAt crowded c && eligible crowded (readyOf (nodeAt 1 .ready (launchWords 2 0))) c) = false :=
      List.any_eq_false.2 fun c h => by simp [eligible, hf c (hc c h)]
    rw [h1, h2]
    decide +kernel
  refine ⟨hp, ?_⟩
  and_intros <;> decide +kernel
theorem witness_Placement_restore :
    (let v : Saved := ⟨Arch.reset, strandOf 0, [], none, [], [], [], none, none, [], 0, false, false⟩; let s (r : Run) : State := base.modCtx 0 fun x => { x with run := r, strand := none, save := some v };
      ((s .free).ctx 0).save = some v ∧ mayRestore (s .free) 0 = true ∧ ((s .running).ctx 0).save = some v ∧ mayRestore (s .running) 0 = false) := by decide +kernel

/-- An image of a strand of placement 1 with this sequence number. -/
def keptImage (seq : Nat) (valid : Bool) : Image :=
  Image.sealed ⟨seq, 0x10000, 0, ⟨1, 7, 0, 0, 0, 0, 0, 0, 0, 0, false⟩, .m16, { Arch.reset with pc := 0x10000 }, [], [], 0, valid⟩ 0
/-- The CRC of a sealed image matches. -/
theorem sealed_ok (i : Image) (c : Nat) : (i.sealed c).ok c = (i.valid && i.seq != 0) := by
  rw [Image.ok, show (i.sealed c).crc = (i.sealed c).crcOf c from rfl]
  simp [Image.sealed]
/-- Column 0 without power, its loss reported or not; context 0 holds a strand of placement 1, with these images. -/
def dark (reported : Bool) (a b : Option Image) : State :=
  { State.reset with
    ctxs := [(0, { base.ctx 0 with run := .dark, strand := some ⟨1, 7, 0, 0, 0, 0, 0, 0, 0, 0, false⟩ })]
    cells := [(0, { Cell.reset 0 with shadowX := [(1, ⟨0xAA, 0xFF, 5, true⟩), (2, ⟨0xBB, 0xFF, 5, true⟩)], shadowY := [(2, ⟨0xCC, 0xFF, 6, true⟩)] })]
    cols := [(0, { State.reset.col 0 with cellPower := false, reported := reported })]
    jobs := [⟨7, 0, 0x1000, 9, 0, 1, 0x2000, 0, [⟨0x3000, [⟨0x4000, 1, 0, 0, false, .running, [], [0x0101, 0, 0, 0x10000, w64 (1 + 2 ^ 16 + 2 ^ 32)], 1, 1, 1, 0, false, none, none, false⟩], false, []⟩], false, none, false⟩]
    images := if a.isNone && b.isNone then [] else [(0, (a, b))] }
/-- Such states keep the images and shadow copies that a run can leave. -/
theorem dark_kept (r : Bool) (a b : Option Image) : KeptWell (dark r a b) 0 := by
  refine ⟨by simp [dark], ?_, fun n _ => ?_⟩
  · cases a <;> cases b <;> simp [dark]
  · have h := tab_all (fun k : Cell => k.l1 == [] && (k.shadowX ++ k.shadowY).all fun p => decide (p.1 < 16384)) (dark r a b).cells (.reset n) n rfl
      (show ([_] : Tab Cell).all _ = true by decide +kernel)
    rw [Bool.and_eq_true, List.all_eq_true] at h
    exact ⟨by simpa [State.cell] using h.1, fun p hp => of_decide_eq_true (h.2 p hp)⟩
/-- Every column can be prepared where no context holds a strand. -/
theorem prepared (s : State) (h : s.ctxs.all (fun p => p.2.strand.isNone) = true) (col : Nat) : mayPrepare s col = true := by
  refine List.all_eq_true.2 fun c _ => ?_
  have := tab_all (fun x : Ctx => x.strand.isNone) s.ctxs _ c (show Ctx.reset.strand.isNone = true from rfl) h
  simp only [State.ctx] at this ⊢
  simp [this]

/-- A request of context 0 for a word of cell 16's scratchpad, in column 1. -/
def farReq : Req := { reqTo .lds with addr := Config.spadBase + 16 * 0x100000 + 64, stamp := 3 }
/-- A copy from there, in slot 3 of cell 0. -/
def farCopy : Copy := { copyOf 65 with snap := refTo 0 2 64 :: (copyOf 65).snap.tail, src := some ⟨w64 (2 * 2 ^ 57), w64 (0x8000 + 7 * 2 ^ 42 + 16 * 2 ^ 48), 0, w64 (1 + 0xFFFF * 2 ^ 16)⟩ }
/-- A store of context 0 there. -/
def farStore : HomeStore := ⟨0, .plain, { spad8 with addr := Config.spadBase + 16 * 0x100000 + 64 }, [], [], 0, 0⟩

theorem witness_PowerEvents :
    (let s : State := { base with homes := [(0x1000, ⟨[], [], some { reqTo .lrw with addr := 0x1000 }, [{ reqTo .lrw with addr := 0x1000, c := 300 }], [], 0⟩)] };
      (s.col 0).cellPower = true ∧ (s.col 0).stationPower = true ∧ (s.homes.map (·.1)).Nodup ∧ (s.home 0x1000).holder ≠ none ∧ s.nogoods = []) ∧ NoRings base ∧
    (let s : State := { dark false none none with claimReqs := [⟨.abandon, 0, 1, ⟨0, 0, 0, 0⟩, ⟨.g, 31⟩, [], 0, 0⟩] };
      (s.col 0).cellPower = false ∧ (s.col 0).reported = false) ∧
    (∀ r, (∀ a b, KeptWell (dark r a b) 0 ∧ NoRings (dark r a b)) ∧ (∀ a b, ((dark r a b).ctx 0).strand = some (keptImage 0 true).strand ∧ ((dark r a b).ctx 0).save = none)) ∧
    (let s := dark true (some (keptImage 5 true)) (some (keptImage 6 true)); (s.col 0).cellPower = false ∧ (s.col 0).reported = true ∧
      Tab.get s.images 0 (none, none) = (some (keptImage 5 true), some (keptImage 6 true)) ∧ Chosen 0 (some (keptImage 5 true)) (some (keptImage 6 true)) (keptImage 6 true) ∧ (keptImage 6 true).copies = []) ∧
    (let s := dark true (some (keptImage 5 false)) none; Tab.get s.images 0 (none, none) = (some (keptImage 5 false), none) ∧ (∀ i, some (keptImage 5 false) = some i → i.ok 0 = false)) ∧
    (let s := dark true none none; Tab.get s.images 0 (none, none) = (none, none) ∧ findJob s 7 ≠ none ∧ ∃ n, findNode s ⟨7, 0, 0⟩ = some n ∧ 1 ≤ launchField n 4 0 16 ∧ 1 ≤ launchField n 4 16 16) ∧
    (let k := (dark true none none).cell 0; Tab.get? k.shadowX 0 = none ∧ Tab.get? k.shadowY 0 = none ∧ Tab.get? k.shadowX 1 = some ⟨0xAA, 0xFF, 5, true⟩ ∧ Tab.get? k.shadowY 1 = none ∧
      Tab.get? k.shadowX 2 = some ⟨0xBB, 0xFF, 5, true⟩ ∧ Tab.get? k.shadowY 2 = some ⟨0xCC, 0xFF, 6, true⟩ ∧ newer 5 6 = false ∧ newer 6 5 = true) ∧
    (let e : HEntry := { handleOf 0 2 0x8000 7 with w1 := w64 (0x8000 + 7 * 2 ^ 42 + 16 * 2 ^ 48) };
      let s : State := { { memState.modCtx 0 fun x => { x with peerWait := some (refTo 0 2 64) } with cols := [(1, { State.reset.col 1 with cellPower := false })] }.modCell 0 fun k => { k with hcache := [(2, e)] } with stores := [farStore] };
      (s.ctx 0).peerWait = some (refTo 0 2 64) ∧ (s.ctx 0).run = .running ∧ handleEntry s 0 (refIdx (refTo 0 2 64)) = .ok e ∧ e.tcell / 16 = 1 ∧ (s.col 1).cellPower = false ∧
      (memState.ctx 0).peerWait = none ∧ (memState.ctx 0).pend = [] ∧ farStore.c = 0 ∧ Config.spadBase ≤ farStore.acc.addr ∧ farStore.acc.addr < Config.spadFeBase ∧ homeCol farStore.acc.addr = 1 ∧
      memState.stores = [] ∧ memState.barReqs = []) ∧
    (let s (p : Copy) := farState.modCell 0 fun k => { k with copies := [(3, p)] };
      ((s farCopy).ctx 0).peerWait = none ∧ ((s farCopy).ctx 0).pend = [] ∧ (s farCopy).stores = [] ∧ (s farCopy).barReqs = [] ∧ farCopy.c = 0 ∧ (darkCopy (s farCopy) 0 farCopy).isSome ∧
        darkCopy (s (copyOf 65)) 0 (copyOf 65) = none ∧ ((s (copyOf 65)).col 0).gathers = []) ∧
    (let s : State := { memState.modCtx 0 fun x => { x with pend := [.wait .home 3 (some ⟨.g, 31⟩) (fullMeta .top)] } with cols := [(1, { State.reset.col 1 with cellPower := false })], kept := [farReq] };
      (s.col 1).cellPower = false ∧ s.barReqs = [] ∧ farReq.c / 16 = 0 ∧ Config.spadBase ≤ farReq.addr ∧ farReq.addr < Config.spadFeBase ∧ homeCol farReq.addr = 1 ∧
      ((s.ctx 0).strand.map (·.plc)) = some farReq.plc ∧ farReq.kind = .lds ∧ farReq.dst = ⟨.g, 31⟩ ∧ farReq.stamp = 3 ∧ farReq.dataLab = .top) := by
  refine ⟨by decide +kernel, no_rings _ (by decide +kernel), by decide +kernel, fun r => ⟨fun a b => ⟨dark_kept r a b, no_rings _ (by cases a <;> cases b <;> rfl)⟩, fun a b => ?_⟩,
    ⟨rfl, rfl, rfl, ⟨sealed_ok _ 0, Or.inr ⟨rfl, fun j h _ => ?_⟩⟩, rfl⟩, ⟨rfl, fun i h => ?_⟩, ⟨rfl, by decide +kernel, _, rfl, by decide +kernel⟩, by decide +kernel, ?_, by decide +kernel, by decide +kernel⟩
  · cases a <;> cases b <;> exact ⟨rfl, rfl⟩
  · cases h; decide
  · cases h; exact sealed_ok _ 0
  · dsimp only; and_intros <;> decide +kernel

/-- A route over loop 0 to station 1, and one out of port 0. -/
def routeTo (seg : Nat) : Word := BitVec.allOnes 48 ++ BitVec.ofNat 16 seg
/-- Loop 5 has failed; handle 2 names cell 16 by a route of its own and by a second one, over loop 0. -/
def lossy : State :=
  ({ (memState.modPart 0 fun p => { p with stations := BitVec.allOnes 76 }) with loops := [(5, ⟨1, 16, []⟩)] }.modCell 0 fun k => { k with
    hcache := [(1, handleOf 0x10000 0 0x10000 7), (2, ⟨w64 (2 * 2 ^ 57), w64 (0x8000 + 7 * 2 ^ 42 + 16 * 2 ^ 48), 0, w64 (0x0501 + 2 ^ 16 + 2 ^ 32)⟩)] })
/-- An access of cell 16's scratchpad under handle `h`. -/
def farAcc (h : Nat) : Acc := { farStore.acc with ref := refTo 0 h 64 }

theorem witness_LinkEvents :
    (0 ∈ (base.loop 0).order ∧ (0, 1) ∈ localSegs (routeTo 1) ∧ segLoop (0, 1) = some (0, false) ∧ routeCheck lossy 0 0 1 (routeTo 1) ≠ some 1 ∧ routePort (routeTo 0x8000) = some 0 ∧
      routeCheck lossy 0 18 1 (routeTo 0x8000) ≠ some 1 ∧ base.port 0 = 0 ∧ { base with ports := [(0, 1)] }.port 0 ≠ 0 ∧ (base.ctxs.map (·.1)).Nodup ∧ (∀ p ∈ base.ctxs, p.1 < 16384)) ∧
    (base.peerOut[0]? = none ∧ { base with peerOut := [(0, refTo 0 2 64, routeTo 0x8000)] }.peerOut[0]? = some (0, refTo 0 2 64, routeTo 0x8000) ∧
      2 < ((usedSegs (BitVec.ofNat 64 0xFFFF820081008000)).filterMap segPort).length ∧ base.mapNext = none ∧ base.mapStale = false ∧
      { base with mapNext := some [(0x100, 5)] }.mapNext = some ((0x100, 5) :: []) ∧ someFailed base = false ∧ someFailed lossy = true) ∧
    (∀ h, h = 1 ∨ h = 2 → let x := farAcc h; let s := lossy.modCtx 0 fun y => { y with pend := [.load ⟨.g, 31⟩ [x] (.scalar 8 true) [] none 0 (fullMeta .top)] };
      (s.ctx 0).pend = [.load ⟨.g, 31⟩ [x] (.scalar 8 true) [] none 0 (fullMeta .top)] ∧ leavesStation 0 x.addr = true ∧ resends s 0 x.ref = (h == 2) ∧ someFailed s = true) ∧
    (let s := { (lossy.modCtx 0 fun y => { y with pend := [.wait .home 3 (some ⟨.g, 31⟩) (fullMeta .top)] }) with reqs := [farReq] };
      farReq.stamp = 3 ∧ farReq.dst = ⟨.g, 31⟩ ∧ farReq.c = 0 ∧ (s.ctx 0).strand.map (·.plc) = some farReq.plc ∧ leavesStation 0 farReq.addr = true ∧ resends s 0 farReq.ref = false ∧ farReq.kind = .lds) ∧
    (∀ h, h = 1 ∨ h = 2 → let x : HomeStore := { farStore with acc := farAcc h }; let s := { lossy with stores := [x] };
      (s.ctx 0).pend = [] ∧ s.reqs = [] ∧ s.stores[0]? = some x ∧ x.c = 0 ∧ leavesStation 0 x.acc.addr = true ∧ resends s 0 x.acc.ref = (h == 2)) ∧
    (let x : BarReq := ⟨0, farReq.addr, refTo 0 1 64, .arrive, 0⟩; let s := { lossy with barReqs := [x] };
      (s.ctx 0).pend = [] ∧ s.reqs = [] ∧ s.stores = [] ∧ s.barReqs[0]? = some x ∧ leavesStation 0 x.addr = true ∧ resends s 0 x.ref = false) ∧
    ((base.col (homeCol 0x200040)).stationPower = true ∧ base.l2 = [] ∧ base.isBad 0x200040 = false ∧ { base with bad := [0x8001] }.isBad 0x200040 = true ∧
      ({ base with cols := [(homeCol 0x200040, { base.col 0 with stationPower := false })] }.col (homeCol 0x200040)).stationPower = false) ∧ NoRings base := by
  refine ⟨by decide +kernel, by decide +kernel, ?_, by decide +kernel, ?_, by decide +kernel, by decide +kernel, no_rings _ (by decide +kernel)⟩ <;>
    (rintro h (rfl | rfl) <;> decide +kernel)

theorem witness_ThermalEvents :
    ((base.col 0).droop = false ∧ (let s (since : Nat) : State := { base with tsc := 1001, cols := [(0, { base.col 0 with droop := true, droopSince := w64 since, droopNoted := false })] };
      ((s 0).col 0).droop = true ∧ ((s 0).col 0).droopNoted = false ∧ 1000 < ((s 0).tsc - ((s 0).col 0).droopSince).toNat ∧ ¬ 1000 < ((s 1).tsc - ((s 1).col 0).droopSince).toNat)) ∧
    (let k : Column := { base.col 0 with level := 2, marked := [2] }; 0 ∈ (List.range 3).filter (fun i => !k.marked.contains i) ∧ levelAt (2 * 9000) < k.level ∧ k.level ≤ 3 ∧
      Spec.entryOf k.level < 2 * 10300 + 600 ∧ 2 * 10200 + 600 ≤ Spec.entryOf k.level ∧ k.level ≤ levelAt (2 * 12000) ∧ k.cap = 0 ∧ base.deviceCap = 0) := by decide +kernel

/-- `base` with a mailbox at work. -/
def busy : State := { base with mailbox := ⟨0x02, true, 0, [], some 1, 0⟩ }

/-- A checkpoint with one image, whose segments match what it holds or are missing. -/
def pointOf (whole : Bool) : Checkpoint :=
  let k : Checkpoint := ⟨[], [], [(0, some (keptImage 5 true), none)], [], [], [], [], [], [], 9⟩
  { k with segs := if whole then k.segments else [] }
/-- The segments do not depend on those that were read. -/
theorem segments_segs (k : Checkpoint) (l : List Segment) : ({ k with segs := l } : Checkpoint).segments = k.segments := rfl

theorem witness_MailboxCommands :
    (busy.mailbox.busy = true ∧ busy.mailbox.result = some 1 ∧ { busy with mailbox := { busy.mailbox with result := none } }.mailbox.result = none ∧ base.mailbox.busy = false ∧ opOf (.repairBanks 0) = some 2 ∧ opOf (.invalidMailboxCommand 0x20) ≠ none ∧ opOf (.attestationRequest 0) = none) ∧ NoRings base ∧
    (let s := { base with spareUsed := [0] }; s.mailbox.busy = false ∧ 5 / 16 ∈ s.spareUsed ∧ cellHolds base 0 = true ∧ cellHolds base 5 = false) ∧
    (let s := dark true (some (keptImage 5 true)) (some (keptImage 6 true)); s.mailbox.busy = false ∧ 0 / 16 ∉ s.spareUsed ∧ (s.col 0).stationPower = true ∧ (s.col 0).cellPower = false ∧
      (s.ctx 0).strand = some (keptImage 6 true).strand ∧ (s.ctx 0).save = none ∧ (keptImage 6 true).copies = [] ∧ KeptWell s 0) ∧
    (let s (l : Nat) (st : Nat) : State := { base with loops := [(l, ⟨st, 16, [0, 1]⟩)] };
      (base.loop 20).st = 2 ∧ (base.loop 0).st ≠ 1 ∧ ((s 0 1).loop 20).st = 2 ∧ ((s 0 1).loop 0).st = 1 ∧ (s 0 1).mailbox.busy = false) ∧
    (let x (p : Bool) : L2Line := ⟨0x8001, 0, p, false, 0⟩; let n := sliceOf (64 * 0x8001); n < 128 ∧ (base.slice n).wayGroup = false ∧ (x true).pinned = true ∧ (x false).pinned = false ∧ (x false).dirty = false) ∧
    (let s : State := { base with slices := [(3, { base.slice 3 with quar := [0x8001] })] }; s.mailbox.busy = false ∧ 0x8001 ∈ (s.slice 3).quar ∧ 64 * 0x8001 < 0x5800000000 ∧ 0x8001 ∉ (base.slice 3).quar) ∧
    ((∀ c, mayPrepare State.reset c = true) ∧ State.reset.jobs = [] ∧ enginesIdle State.reset = true ∧ State.reset.mailbox.busy = false ∧ State.reset.checkpoint = none ∧ State.reset.badL2 = []) ∧ (∀ n, (State.reset.slice n).held = false) ∧
    (let s : State := { base with claimReqs := [⟨.abandon, 0, base.plc 0, ⟨0, 0, 0, 0⟩, ⟨.g, 31⟩, [], 0, 0⟩] }; s.mailbox.busy = false ∧ (s.col 0).cellPower = true ∧ mayPrepare s 0 = false) ∧
    (pointOf true).segs = (pointOf true).segments ∧ (pointOf false).segs ≠ (pointOf false).segments ∧
    (let k := pointOf true; let s : State := { base with checkpoint := some k };
      s.checkpoint = some k ∧ s.mailbox.busy = false ∧ (s.ctxs.map (·.1)).Nodup ∧ (k.images.map (·.1)).Nodup ∧ Tab.get k.images 0 (none, none) = (some (keptImage 5 true), none) ∧
      Chosen 0 (some (keptImage 5 true)) none (keptImage 5 true) ∧ (∀ p ∈ k.images, ∀ i, p.2.1 = some i ∨ p.2.2 = some i → i.copies = [])) := by
  refine ⟨by decide +kernel, no_rings _ (by decide +kernel), by decide +kernel, ⟨rfl, by decide, rfl, rfl, rfl, rfl, rfl, dark_kept _ _ _⟩, by decide +kernel, by decide +kernel, by decide +kernel,
    ⟨prepared _ (by decide +kernel), by decide +kernel⟩, fun n => rfl, by decide +kernel, (segments_segs _ _).symm,
    (fun h => by simp only [Checkpoint.segments, pointOf] at h; cases h), rfl, rfl, by decide +kernel, by decide, rfl, ⟨sealed_ok _ 0, Or.inl ⟨rfl, fun _ h => by cases h⟩⟩, ?_⟩
  intro p hp i h
  rw [List.mem_singleton.1 hp] at h
  rcases h with h | h <;> cases h
  rfl

/-- `n` little-endian bytes of a number. -/
def leBytes (n k : Nat) : List Byte := (List.range n).map fun i => BitVec.ofNat 8 (k / 256 ^ i)
/-- A section table entry of the KOF file: type and image, offset, size (R106). -/
def secBytes (type img off size : Nat) : List Byte :=
  leBytes 2 type ++ leBytes 2 img ++ leBytes 4 0 ++ leBytes 8 off ++ leBytes 8 size ++ leBytes 8 size ++ leBytes 4 0 ++ leBytes 1 (if type = 0 then 0 else 3) ++ leBytes 1 0 ++
    leBytes 2 0 ++ leBytes 8 0
/-- The smallest KOF file: no image, and the four sections that every file has (R104 to R107); with a signature section or without. -/
def kof (signed : Bool) : List Byte :=
  let n := if signed then 6 else 5
  [0x4B, 0x4F, 0x46, 0x01] ++ leBytes 2 1 ++ leBytes 2 64 ++ leBytes 2 n ++ leBytes 2 0 ++ leBytes 4 (if signed then 3 else 1) ++ leBytes 8 64 ++
    leBytes 8 (64 + 48 * n + if signed then 520 else 0) ++ leBytes 32 0 ++
    secBytes 0 0 0 0 ++ [9, 10, 11, 12].flatMap (fun t => secBytes t 0xFFFF 64 0) ++ (if signed then secBytes 13 0xFFFF (64 + 48 * n) 520 ++ leBytes 520 0 else [])
/-- A load of cell 0 that waits for image 0, of these bytes and this digest. -/
def waiting (bytes : List Byte) (d : BitVec 512) : Load := ⟨0, [], [(0, d)], [(0, bytes)], [⟨0, none, 0, .waits⟩], false⟩
/-- `base` with a handle table registered for partition 0 (R115). -/
def registered : State := base.modPart 0 fun p => { p with ltable := some 0x10000 }

/-- Whether a key verifies a file or the boot firmware is of `Config` and stays open; every other hypothesis is met here. -/
theorem witness_BringUpAndLoading (key bytes errs) :
    (key, false) ∈ ({ base with fuses := [(key, false)] } : State).fuses ∧ (key, false) ∉ base.fuses ∧ NoRings base ∧ ([] : List Byte).length < 64 ∧
    loadCheck registered 0 (kof false) = none ∧ keyOk (kof false) = false ∧ loadCheck registered 0 (kof true) = none ∧ loadCheck base 0 (kof true) = some (115, []) ∧ loadCheck base 0 [] = some (105, []) ∧
    (let got := sha512 (receivedBytes bytes errs); let l := waiting bytes got; receives l 0 = some ⟨0, none, 0, .waits⟩ ∧ Tab.get l.inputs 0 [] = bytes ∧
      (∀ y ∈ l.cells, y.cell = 0 → y = ⟨0, none, 0, .waits⟩) ∧ Tab.get? l.digests 0 = some got ∧ Tab.get? { l with digests := [] }.digests 0 ≠ some got ∧ receives l 1 = none) := by
  refine ⟨List.mem_singleton.2 rfl, by rw [show base.fuses = [] by decide +kernel]; exact List.not_mem_nil, no_rings _ (by decide +kernel), by decide, by decide +kernel, by decide +kernel, by decide +kernel,
    by decide +kernel, by decide +kernel, rfl, rfl, fun y h _ => List.mem_singleton.1 h, rfl, (fun h => Option.some_ne_none _ h.symm), rfl⟩

theorem witness_EncodingRoundTrip :
    (Instr.loop 5 true 16 3 9).wf = true ∧ (∃ w, encode (.loop 5 true 16 3 9) = some w ∧ w < 2 ^ (8 * wordLen w) ∧ decode w = .ok (.loop 5 true 16 3 9)) ∧ (Instr.strdone).wf = true ∧
    ∃ w, encode .strdone = some w ∧ w < 2 ^ (8 * wordLen w) ∧ decode w = .ok .strdone :=
  ⟨by decide, ⟨_, rfl, by decide +kernel, by decide +kernel⟩, by decide, ⟨_, rfl, by decide +kernel, by decide +kernel⟩⟩

theorem witness_StepKeepsMemory : MemoryKept base ∧ ∃ t, step base = .next t := by
  refine ⟨⟨by decide +kernel, by decide +kernel⟩, ?_⟩
  have h : (match step base with | .next _ => true | _ => false) = true := by decide +kernel
  revert h
  cases step base with
  | next t => exact fun _ => ⟨t, rfl⟩
  | fault f => exact fun h => by cases h
  | refused r => exact fun h => by cases h

theorem witness_TransfersComplete :
    (let s := tileState; let xs := [srcG 5 true 0, srcF .x 1 3]; MemReady (.tld 1 5 true 1 .dflt 0) s xs ∧ Writable (me s) (kd 1) ∧
      (List.range (cfgRows 0x402)).mapM (fun r => loadPhase s s.cur (refTo 0 0 (64 + 8 * r)) (cfgCols 0x402 * 4) 1 (wantLoad .dflt) (srcLabels (me s) xs)) = .ok [[spad8]] ∧
      mixCheck (refTo 0 0 64) (accLabels s s.cur [spad8]) = .ok ()) ∧
    (let s := blockState 0x405; let xs := [srcG 5 true 0, srcF .x 3 3]; MemReady (.tld 1 5 true 3 .dflt 0) s xs ∧ Writable (me s) (kd 1) ∧ cfgFmt 0x405 = 5 ∧
      ((tileBlocks s s.cur (refTo 7 0 64) 16 1 2 ⟨false, true, false, true, 0⟩ (srcLabels (me s) xs)).toOption.any fun r =>
        r.1.toOption.isSome && (mixCheck (refTo 7 0 64) (accLabels s s.cur r.2)).toOption.isSome) = true) ∧
    (let s := tileState; let i := Instr.tst 0 5 true 1 .dflt 0; let xs := [srcG 5 true 0, srcF .k 0 2, srcF .x 1 3]; MemReady i s xs ∧ Settled s ∧
      [(0, 0), (0, 1)].mapM (fun p : Nat × Nat => storePhase s s.cur (refTo 0 0 (64 + 8 * p.1 + 4 * p.2)) 4 4 (wantStore .dflt) (srcLabels (me s) xs)) =
        .ok [([{ spad8 with size := 4 }], .top), ([{ spad8 with addr := spad8.addr + 4, size := 4, va := spad8.va + 4, ref := spad8.ref + 4 }], .top)] ∧
      (0 : BitVec 6) &&& (me s).en = 0) ∧
    (let s := memState.modCtx 0 fun x => { x with pend := [.load ⟨.g, 31⟩ [spad8] (.scalar 8 true) [] none 0 (fullMeta .top)] };
      let bad := { s with badWords := [spad8.addr / 8] };
      (s.ctx 0).pend[0]? = some (.load ⟨.g, 31⟩ [spad8] (.scalar 8 true) [] none 0 (fullMeta .top)) ∧ ctxReaches s 0 spad8.addr = true ∧ s.passes = [] ∧ s.barReqs = [] ∧
      accsBad s 0 [spad8] = none ∧ ctxReaches bad 0 spad8.addr = true ∧ accsBad bad 0 [spad8] = some spad8) ∧
    (let st : HomeStore := ⟨0, .plain, spad8, [], [], 0, 0⟩; let s := { memState with stores := [st] };
      s.stores[0]? = some st ∧ ctxReaches s 0 spad8.addr = true ∧ s.passes = []) := by
  simp only [MemReady, MayIssue, Readable, Writable, Settled]; and_intros <;> decide +kernel

theorem witness_RequestsAndJobStepsComplete :
    (let s := withG [(5, .of 9)]; MayIssue (.signal 5 0x20) s ∧ Readable (me s) [srcG 5 true 0] ∧ Settled s ∧ NoneEmpty (me s) ∧ (s.ctx s.cur).writing = none) ∧
    CachesEmpty (withG [(5, .of 9)]) ∧
    (let s := queued [atPage 0] []; (s.part 0).queue.length < 64 ∧ (atPage 0).setWidth 6 = 0#6 ∧ (atPage 1).setWidth 6 ≠ 0#6 ∧
      64 ≤ ((queued (List.replicate 64 0) []).part 0).queue.length ∧ (s.part 0).queue = atPage 0 :: []) ∧
    (let x : Job := { jobOf [] with ptab := atPage 0x100 }; let s := { queued [] [(0x100, [atPage 0x180, 1])] with jobs := [jobOf [], { x with id := 8 }] };
      findJob s 8 = some { x with id := 8 } ∧ x.done = false ∧ x.contract = none ∧ x.phase < x.nph ∧ x.graphs = [] ∧ jobEngines s 8 = false ∧
      partWords s 0 (x.ptab.toNat + 16 * x.phase) 2 = some [atPage 0x180, 1] ∧ part_ [atPage 0x180, 1] 1 0 16 ≠ 0 ∧ s.l2 = [] ∧ s.badL2 = []) ∧
    (let n : Node := { nodeAt 0 .waiting [] with va := atPage 0x300 }; let s (ws : List Word) := { queued [] [(0x300, ws)] with jobs := [jobOf [graphOf [n, n]]] };
      (let w := condWords; findJob (s w) 7 ≠ none ∧ findGraph (s w) 7 0 = some (graphOf [n, n]) ∧ (∀ m ∈ [n, n], m.kind ≠ 6) ∧ findNode (s w) ⟨7, 0, 1⟩ = some n ∧ partWords (s w) 0 n.va.toNat 16 = some w ∧
        (w.getD 0 0).setWidth 16 = 0x0205#16 ∧ NodeHead w 2 2 [] ∧ part_ w 3 57 7 = 0 ∧ part_ w 3 0 3 = 0 ∧ (∀ i, 4 ≤ i → w.getD i 0 = 0) ∧ partWord (s w) 0 (part_ w 3 0 57) = some 0) ∧
      (let w := launchWords 0 0; findNode (s w) ⟨7, 0, 1⟩ = some n ∧ partWords (s w) 0 n.va.toNat 16 = some w ∧ (w.getD 0 0).setWidth 16 = 0x0101#16 ∧ NodeHead w 1 2 [] ∧ LaunchWords w)) ∧
    (let n : Node := { nodeAt 1 .running (launchWords 0 0) with next := 1, left := 0 }; let m : Node := { nodeAt 5 .running condWords with decided := true };
     let s : State := { base with jobs := [jobOf [graphOf [n, m]]] };
      findJob s 7 ≠ none ∧ findNode s ⟨7, 0, 0⟩ = some n ∧ findNode s ⟨7, 0, 1⟩ = some m ∧ n.st = .running ∧ n.next = n.total) := by
  refine ⟨?_, caches_empty _ (by decide +kernel) rfl, by decide +kernel, by decide +kernel, ?_, by decide +kernel⟩
  · simp only [MayIssue, Readable, Settled, NoneEmpty]; decide +kernel
  · simp only [NodeHead, LaunchWords]
    and_intros
    all_goals first | exact zero_from (by decide +kernel) | decide +kernel

end Sys2Proof.Tests
end

section
/-! SUPPORT. The scalar, reference and x-register forms: each is a use of `compute`, the words of their rules, and the two statements about their results. -/

namespace Sys2Proof.Proofs
open Sys2Proof.Machine Sys2Proof.Spec

/-! ### Instructions that compute one word of registers -/

/-- In `s` the instruction is a use of `compute` with destination `d` and sources `xs`, whose function gives the word `v` and the flags `f`. -/
def Computes (i : Instr) (s : State) (d : RegId) (xs : List Src) (v : Word) (f : BitVec 6) : Prop :=
  ∃ g : Arch → RV × BitVec 6, exec i s = issueSeq i s (fun s c => compute s c d xs g) ∧ g (me s) = (.w v, f)

section
variable {i : Instr} {s : State} {d a b : BitVec 6} {wa wb : Bool} {v : Word}

/-! One lemma for each of the shapes `binG`, `bin0`, `unG` and `triG`. -/

theorem Computes.of_binG {g : Word → Word → Word × BitVec 6} {f : BitVec 6}
    (h : exec i s = issueSeq i s fun s c => binG s c d a b wa wb g) (hv : g (gv (me s) a) (gv (me s) b) = (v, f)) :
    Computes i s (gd d) [srcG a wa 0, srcG b wb 1] v f :=
  ⟨_, h, by simp only [hv]⟩

theorem Computes.of_bin0 {g : Word → Word → Word}
    (h : exec i s = issueSeq i s fun s c => bin0 s c d a b wa wb g) (hv : g (gv (me s) a) (gv (me s) b) = v) :
    Computes i s (gd d) [srcG a wa 0, srcG b wb 1] v 0 :=
  .of_binG h (by simp only [hv])

theorem Computes.of_unG {g : Word → Word}
    (h : exec i s = issueSeq i s fun s c => unG s c d a wa g) (hv : g (gv (me s) a) = v) :
    Computes i s (gd d) [srcG a wa 0] v 0 :=
  ⟨_, h, by simp only [hv]⟩

theorem Computes.of_triG {g : Word → Word → Word → Word}
    (h : exec i s = issueSeq i s fun s c => triG s c d a b wa wb g) (hv : g (gv (me s) a) (gv (me s) b) (gv (me s) d) = v) :
    Computes i s (gd d) [srcG a wa 0, srcG b wb 1, srcG d true 2] v 0 :=
  ⟨_, h, by simp only [hv]⟩
end

section
variable {i : Instr} {s : State} {d : RegId} {xs : List Src} {v : Word} {f : BitVec 6}

/-- Where no enabled flag is raised, the destination is filled and the program counter moves on. -/
theorem Computes.next (h : Computes i s d xs v f) (hi : MayIssue i s) (hr : Readable (me s) xs) (hw : Writable (me s) d)
    (hf : f &&& (me s).en = 0) :
    exec i s = .next (advance i (fill (if f = 0 then s else s.modArch s.cur fun a => a.orFlags f) s.cur d (.w v) (srcLabels (me s) xs)) s.cur) := by
  obtain ⟨g, he, hg⟩ := h
  obtain ⟨hb, hp⟩ := hi
  obtain ⟨hfull, hspace⟩ := hr
  have flags : setFlags s s.cur (g (me s)).2 = .ok (if f = 0 then s else s.modArch s.cur fun a => a.orFlags f) := by
    rw [hg]
    split
    case isTrue h0 => rw [h0, setFlags_none]
    case isFalse h0 => exact setFlags_ok h0 hf
  rw [he, issueSeq_ok hb hp (compute_ok hw hfull hspace flags)]
  change Host.Outcome.next (advance i (fill _ s.cur d (g (me s)).1 _) s.cur) = _
  rw [hg]
  rfl

/-- Where an enabled flag is raised, the instruction stops with the arithmetic fault (R121). -/
theorem Computes.trap (h : Computes i s d xs v f) (hi : MayIssue i s) (hr : Readable (me s) xs) (hw : Writable (me s) d)
    (hf : f &&& (me s).en ≠ 0) :
    exec i s = .next (takeTrap s s.cur ⟨0x19, 0, f.setWidth 64, f⟩ false (me s).pc) := by
  obtain ⟨g, he, hg⟩ := h
  obtain ⟨hb, hp⟩ := hi
  obtain ⟨hfull, hspace⟩ := hr
  have hflag : (g (me s)).2 = f := by rw [hg]
  have stop : compute s s.cur d xs g = .error (.trap ⟨0x19, 0, f.setWidth 64, f⟩) := by
    rw [compute_trap hw hfull hspace (by rw [← me, hflag]; exact hf), ← me, hflag]
  rw [he, issueSeq_error hb hp stop]
  rfl
end

/-! ### The words of the rules -/

/-- A field of a register is the number of its bits. -/
theorem fld_eq (x : Word) (lo w : Nat) : fld x lo w = (x.extractLsb' lo w).toNat := by
  simp [fld, Nat.shiftRight_eq_div_pow]

theorem fld_zero_eq (x : Word) (w : Nat) : fld x 0 w = (x.setWidth w).toNat := by
  simp [fld]

/-- The signed number of the low bits (R4). -/
theorem sextInt_eq (n x : Nat) : sextInt x n = (BitVec.ofNat n x).toInt := by
  cases n with
  | zero => simp [sextInt, Nat.mod_one, BitVec.toInt_of_zero_length]
  | succ n =>
    have half : x % 2 ^ (n + 1) < 2 ^ n ↔ 2 * (x % 2 ^ (n + 1)) < 2 ^ (n + 1) := by omega
    simp only [sextInt, BitVec.toInt_eq_toNat_cond, BitVec.toNat_ofNat, Nat.add_sub_cancel, half]

/-- An operand read as an integer is the integer of its low bits (R41). -/
theorem readInt_eq (n : Nat) (signed : Bool) (x : Word) :
    readInt n signed x.toNat = if signed then (x.setWidth n).toInt else ((x.setWidth n).toNat : Int) := by
  cases signed with
  | false => simp [readInt]
  | true => simp [readInt, sextInt_eq]

/-- Extension of the low bits of a number (R38). -/
theorem extend_eq (n : Nat) (signed : Bool) (v : Nat) :
    extend n signed v = if signed then (BitVec.ofNat n v).signExtend 64 else (BitVec.ofNat n v).setWidth 64 := by
  cases signed with
  | false => simp [extend, w64, ← BitVec.ofNat_toNat]
  | true => simp [extend, wInt, sextInt_eq, BitVec.signExtend]

/-- The bits of a word whose field is replaced. -/
theorem getLsbD_putFld (x : Word) (lo w v : Nat) {i : Nat} (hi : i < 64) :
    (putFld x lo w v).getLsbD i = if lo ≤ i ∧ i < lo + w then v.testBit (i - lo) else x.getLsbD i := by
  simp only [putFld, BitVec.getLsbD_or, BitVec.getLsbD_and, BitVec.getLsbD_not, BitVec.getLsbD_ofNat, Nat.testBit_mul_two_pow,
    Nat.testBit_two_pow_sub_one, Nat.testBit_mod_two_pow, hi]
  by_cases hl : lo ≤ i
  · have hw : i - lo < w ↔ i < lo + w := by omega
    by_cases hh : i < lo + w <;> simp [hl, hh, hw]
  · simp [hl]

/-- The high half of a product (R124). -/
theorem extract_high_ofInt (t : Int) : (BitVec.ofInt 128 t).extractLsb' 64 64 = wInt (t / (2 ^ 64 : Nat)) := by
  apply BitVec.eq_of_toNat_eq
  simp only [wInt, BitVec.extractLsb'_toNat, BitVec.toNat_ofInt, Nat.shiftRight_eq_div_pow]
  omega

theorem mulHigh_signed (x y : Word) : mulHigh true x y = (x.signExtend 128 * y.signExtend 128).extractLsb' 64 64 := by
  simp only [BitVec.signExtend, ← BitVec.ofInt_mul, extract_high_ofInt, mulHigh, readInt_eq, BitVec.setWidth_eq, if_true]

theorem mulHigh_unsigned (x y : Word) : mulHigh false x y = (x.setWidth 128 * y.setWidth 128).extractLsb' 64 64 := by
  simp only [← BitVec.ofNat_toNat 128, ← BitVec.ofInt_natCast, ← BitVec.ofInt_mul, extract_high_ofInt, mulHigh, readInt_eq,
    BitVec.setWidth_eq, Bool.false_eq_true, if_false]

theorem rotlW_eq (x : Word) {n : Nat} (h : n < 64) : rotlW x n = x <<< n ||| x >>> (64 - n) := by
  rw [rotlW, BitVec.rotateLeft_def, Nat.mod_eq_of_lt h]

/-- The first place of a range where `p` holds is the number of places before it. -/
theorem find?_range_getD (p : Nat → Bool) (n : Nat) :
    ((List.range n).find? p).getD n = ((List.range n).takeWhile fun i => !p i).length := by
  have hle : (List.range n).findIdx p ≤ n := by simpa using List.findIdx_le_length (xs := List.range n) (p := p)
  rw [List.takeWhile_eq_take_findIdx_not, List.find?_eq_getElem?_findIdx]
  simp only [Bool.not_not, List.length_take, List.length_range]
  rcases Nat.lt_or_eq_of_le hle with h | h
  · simp [h, Nat.min_eq_left hle]
  · simp [h]

theorem clzN_eq (x : Word) : clzN x = zerosFrom fun i => x.getMsbD i := by
  have bits : ∀ i ∈ List.range 64, x.getLsbD (63 - i) = x.getMsbD i := fun i hi => by
    simp [BitVec.getMsbD, List.mem_range.mp hi]
  rw [clzN, List.find?_congr bits]
  exact find?_range_getD _ _

theorem ctzN_eq (x : Word) : ctzN x = zerosFrom fun i => x.getLsbD i := find?_range_getD _ _

theorem popcN_eq (x : Word) : popcN x = (List.range 64).countP fun i => x.getLsbD i := List.countP_eq_length_filter.symm

/-- A choice made by `≤` is the choice made by the opposite `<` (R131). -/
theorem ite_le_eq_ite_lt {α β : Type} [LinearOrder α] (u v : α) (x y : β) : (if u ≤ v then x else y) = if v < u then y else x := by
  by_cases h : v < u
  · rw [if_pos h, if_neg (not_le.mpr h)]
  · rw [if_neg h, if_pos (not_lt.mp h)]

/-- Where two numbers are equal, MIN and MAX may choose either (R131). -/
theorem min_toInt_eq (x y : Word) : (if x.toInt ≤ y.toInt then x else y) = if y.slt x then y else x := by
  rw [ite_le_eq_ite_lt]
  simp only [BitVec.slt_iff_toInt_lt]

theorem max_toInt_eq (x y : Word) : (if x.toInt ≤ y.toInt then y else x) = if x.slt y then y else x := by
  simp only [BitVec.slt_iff_toInt_lt, le_iff_lt_or_eq, BitVec.toInt_inj]
  by_cases e : x = y <;> simp [e]

theorem minn_toNat_eq (x y : Word) : (if x.toNat ≤ y.toNat then x else y) = if y < x then y else x := by
  rw [ite_le_eq_ite_lt]
  rfl

theorem maxn_toNat_eq (x y : Word) : (if x.toNat ≤ y.toNat then y else x) = if x < y then y else x := by
  simp only [BitVec.lt_def, le_iff_lt_or_eq, BitVec.toNat_inj]
  by_cases e : x = y <;> simp [e]

/-- BFX (R133). -/
theorem bfxW_eq (x b : Word) :
    bfxW x b = ((x >>> (b.setWidth 6).toNat).setWidth ((b.extractLsb' 8 6).toNat + 1)).setWidth 64 := by
  rw [bfxW, fld_zero_eq, fld_eq]
  apply BitVec.eq_of_toNat_eq
  simp [w64, Nat.shiftRight_eq_div_pow]

/-- BFI (R133). -/
theorem bfiW_eq (x b d : Word) :
    bfiW x b d = 
      let p := (b.setWidth 6).toNat
      let m : Word := (BitVec.allOnes ((b.extractLsb' 8 6).toNat + 1)).setWidth 64 <<< p
      (d &&& ~~~m) ||| (x <<< p &&& m) := by
  have shift (v p : Nat) : w64 (v * 2 ^ p) = w64 v <<< p := by
    apply BitVec.eq_of_toNat_eq
    simp [w64, Nat.shiftLeft_eq]
  have ones (n : Nat) : w64 (2 ^ n - 1) = (BitVec.allOnes n).setWidth 64 := by
    rw [← BitVec.ofNat_toNat, BitVec.toNat_allOnes, w64]
  rw [bfiW, fld_zero_eq, fld_eq]
  simp only [shift, ones]
  simp only [w64, BitVec.ofNat_toNat, BitVec.setWidth_eq]

/-- LIH keeps the low 46 bits above its immediate (R128). -/
theorem lih_eq (x : Word) (imm : BitVec 18) : (x <<< 18) ||| imm.setWidth 64 = x.extractLsb' 0 46 ++ imm := by
  apply BitVec.eq_of_getLsbD_eq
  intro i hi
  rw [BitVec.getLsbD_or, BitVec.getLsbD_shiftLeft, BitVec.getLsbD_setWidth, BitVec.getLsbD_append]
  by_cases h : i < 18
  · simp [h, hi]
  · have e : i - 18 < 46 := by omega
    simp [h, hi, e, BitVec.getLsbD_of_ge imm i (not_lt.mp h)]

/-- A reference's low 40 bits moved, beside its bits [63:40] (R138, R151). -/
theorem refAdd_eq (r : Word) (t : Int) :
    refAdd r t = r.extractLsb' 40 24 ++ (r.extractLsb' 0 40 + BitVec.ofInt 40 t) := by
  have low : r.extractLsb' 0 40 + BitVec.ofInt 40 t = BitVec.ofNat 40 (((r.toNat : Int) + t) % (2 ^ 40 : Nat)).toNat := by
    apply BitVec.eq_of_toNat_eq
    simp
    omega
  rw [low, refAdd]
  apply BitVec.eq_of_getLsbD_eq
  intro i hi
  rw [getLsbD_putFld _ _ _ _ hi, BitVec.getLsbD_append]
  by_cases h : i < 40
  · simp only [h, BitVec.getLsbD_ofNat]
    simp
  · have e : i - 40 < 24 ∧ 40 + (i - 40) = i := by omega
    simp [h, e]

theorem rsetfW_eq (a b : Word) : rsetfW a b = b.extractLsb' 0 10 ++ a.extractLsb' 0 54 := by
  apply BitVec.eq_of_getLsbD_eq
  intro i hi
  rw [rsetfW, getLsbD_putFld _ _ _ _ hi, BitVec.getLsbD_append, fld_eq, BitVec.testBit_toNat]
  by_cases h : i < 54
  · simp [h, Nat.not_le.mpr h]
  · have e : i < 54 + 10 ∧ 54 ≤ i := by omega
    simp [h, e]

theorem rmakeW_eq (a b : Word) : rmakeW a b = a.extractLsb' 0 24 ++ b.extractLsb' 0 40 := by
  rw [rmakeW, fld_eq, fld_eq]
  apply BitVec.eq_of_toNat_eq
  rw [BitVec.toNat_append, ← Nat.shiftLeft_add_eq_or_of_lt (BitVec.isLt _)]
  simp [w64, Nat.shiftLeft_eq]
  omega

theorem extend_true_eq (n : Nat) (x : Word) : extend n true x.toNat = (x.setWidth n).signExtend 64 := by
  rw [extend_eq, if_pos rfl, BitVec.ofNat_toNat]

theorem extend_false_eq (n : Nat) (x : Word) : extend n false x.toNat = (x.setWidth n).setWidth 64 := by
  rw [extend_eq, if_neg Bool.false_ne_true, BitVec.ofNat_toNat]

theorem bool64_slt (x y : Word) : bool64 (x.toInt < y.toInt) = if x.slt y then 1 else 0 := by
  rw [bool64, BitVec.slt_eq_decide]

theorem bool64_lt (x y : Word) : bool64 (x.toNat < y.toNat) = if x < y then 1 else 0 := by
  simp only [bool64, decide_eq_true_eq, BitVec.lt_def]

theorem bool64_eq (x y : Word) : bool64 (x == y) = if x = y then 1 else 0 := by
  simp only [bool64, beq_iff_eq]

theorem w64_fld (x : Word) (lo w : Nat) : w64 (fld x lo w) = (x.extractLsb' lo w).setWidth 64 := by
  rw [fld_eq, w64, BitVec.ofNat_toNat]

/-- The low bits of a word depend on its number modulo their power of two alone. -/
theorem ofInt_toInt_eq (x : Word) : BitVec.ofInt 40 x.toInt = x.extractLsb' 0 40 := by
  apply BitVec.eq_of_toNat_eq
  rw [BitVec.toNat_ofInt, BitVec.extractLsb'_toNat, BitVec.toInt_eq_toNat_cond]
  split <;> simp <;> omega

/-! ### The shape of ADD, SUB and MUL -/

/-- The low bits of an integer are those of its remainder. -/
theorem ofNat_wrapInt (n : Nat) (t : Int) : BitVec.ofNat n (wrapInt n t) = BitVec.ofInt n t := by
  apply BitVec.eq_of_toNat_eq
  have pos : (0 : Int) < (2 ^ n : Nat) := by positivity
  rw [BitVec.toNat_ofNat, BitVec.toNat_ofInt, wrapInt, Nat.mod_eq_of_lt]
  have below := Int.emod_lt_of_pos t pos
  have above := Int.emod_nonneg t pos.ne'
  omega

theorem intMin_eq (n : Nat) (signed : Bool) : intMin n signed = Spec.lowest n signed := by
  simp [intMin, Spec.lowest]

theorem intMax_eq (n : Nat) (signed : Bool) : intMax n signed = highest n signed := by
  simp [intMax, highest]

theorem lowest_le_highest (n : Nat) (signed : Bool) : Spec.lowest n signed ≤ highest n signed := by
  have half : (1 : Int) ≤ 2 ^ (n - 1) := one_le_pow₀ (by decide)
  have full : (1 : Int) ≤ 2 ^ n := one_le_pow₀ (by decide)
  unfold Spec.lowest highest
  split <;> omega

/-- `saturate` clamps, with SAT where that changes the number (R43). -/
theorem saturate_eq (n : Nat) (signed : Bool) (t : Int) :
    saturate n signed t = (max (Spec.lowest n signed) (min (highest n signed) t),
      if t < Spec.lowest n signed ∨ highest n signed < t then fSAT else 0) := by
  have order := lowest_le_highest n signed
  rw [saturate, intMax_eq, intMin_eq]
  by_cases hi : highest n signed < t
  · rw [if_pos hi, if_pos (.inr hi), min_eq_left hi.le, max_eq_right order]
  · rw [if_neg hi, min_eq_right (not_lt.mp hi)]
    by_cases lo : t < Spec.lowest n signed
    · rw [if_pos lo, if_pos (.inl lo), max_eq_left lo.le]
    · rw [if_neg lo, if_neg (not_or.mpr ⟨lo, hi⟩), max_eq_right (not_lt.mp lo)]

/-- The shape of an exact result (R123). -/
theorem shapeInt_eq (n : Nat) (k : IntKind) (t : Int) : shapeInt n k t = (shaped n k t, shapedFlags n k t) := by
  unfold shapeInt shaped shapedFlags
  split
  case isTrue h => simp [h, saturate_eq, extend_eq, ofNat_wrapInt]
  case isFalse h => simp [h, extend_eq, ofNat_wrapInt]

/-- An operand of the rule as the model reads it. -/
theorem rd_eq_readInt (a : Arch) (w : Width) (k : IntKind) (x : BitVec 6) :
    exactArith.rd a w k x = readInt w.bits k.signed (gv a x).toNat := by
  rw [readInt_eq, exactArith.rd]

/-- The 64-bit wrapping kind keeps the result modulo 2^64 and sets no flag. -/
theorem arith_w64_wrapI (op : Int → Int → Int) (x y : Word) : arith op .w64 .wrapI x y = (BitVec.ofInt 64 (op x.toInt y.toInt), 0) := by
  rw [arith, shapeInt_eq]
  simp [shaped, shapedFlags, readInt_eq, Width.bits, IntKind.signed, IntKind.saturating]

theorem arith_add_w64 (x y : Word) : arith (· + ·) .w64 .wrapI x y = (x + y, 0) := by
  rw [arith_w64_wrapI, BitVec.ofInt_add, BitVec.ofInt_toInt, BitVec.ofInt_toInt]

theorem arith_sub_w64 (x y : Word) : arith (· - ·) .w64 .wrapI x y = (x - y, 0) := by
  rw [arith_w64_wrapI, Int.sub_eq_add_neg, BitVec.ofInt_add, BitVec.ofInt_neg, BitVec.ofInt_toInt, BitVec.ofInt_toInt, BitVec.sub_eq_add_neg]

/-! ### Every form is a use of `compute` -/

/-- ADD, SUB and MUL compute the shaped exact result and its flags (R123). -/
theorem exactArith_computes {i : Instr} {s : State} {d : RegId} {xs : List Src} {n : Nat} {k : IntKind} {t : Int}
    (h : exactArith (me s) i = some (d, xs, n, k, t)) : Computes i s d xs (shaped n k t) (shapedFlags n k t) := by
  cases i with
  | add d x y wx wy w k => cases h; exact .of_binG rfl (by rw [arith, shapeInt_eq, rd_eq_readInt, rd_eq_readInt])
  | sub d x y wx wy w k => cases h; exact .of_binG rfl (by rw [arith, shapeInt_eq, rd_eq_readInt, rd_eq_readInt])
  | mul d x y wx wy w k => cases h; exact .of_binG rfl (by rw [arith, shapeInt_eq, rd_eq_readInt, rd_eq_readInt])
  | _ => cases h

/-- Every instruction with a rule computes the word of its rule and no flag. -/
theorem scalarRule_computes {i : Instr} {s : State} {r : Rule} (h : scalarRule (me s) i = some r) :
    Computes i s r.dst r.srcs r.val 0 := by
  cases i with
  | mulh d x y wx wy => cases h; exact .of_bin0 rfl (mulHigh_signed _ _)
  | mulhn d x y wx wy => cases h; exact .of_bin0 rfl (mulHigh_unsigned _ _)
  | and d x y wx wy => cases h; exact .of_bin0 rfl rfl
  | or d x y wx wy => cases h; exact .of_bin0 rfl rfl
  | xor d x y wx wy => cases h; exact .of_bin0 rfl rfl
  | mov d x wx => cases h; exact .of_unG rfl rfl
  | shl d x y wx wy => cases h; exact .of_bin0 rfl (by rw [fld_zero_eq])
  | shr d x y wx wy => cases h; exact .of_bin0 rfl (by rw [fld_zero_eq])
  | sra d x y wx wy => cases h; exact .of_bin0 rfl (by rw [fld_zero_eq, sraW])
  | rotl d x y wx wy => cases h; exact .of_bin0 rfl (by rw [fld_zero_eq, rotlW_eq _ (BitVec.isLt _)])
  | clz d x wx => cases h; exact .of_unG rfl (by rw [clzN_eq, w64])
  | ctz d x wx => cases h; exact .of_unG rfl (by rw [ctzN_eq, w64])
  | popc d x wx => cases h; exact .of_unG rfl (by rw [popcN_eq, w64])
  | min d x y wx wy => cases h; exact .of_bin0 rfl (min_toInt_eq _ _)
  | max d x y wx wy => cases h; exact .of_bin0 rfl (max_toInt_eq _ _)
  | minn d x y wx wy => cases h; exact .of_bin0 rfl (minn_toNat_eq _ _)
  | maxn d x y wx wy => cases h; exact .of_bin0 rfl (maxn_toNat_eq _ _)
  | sext d x wx n => cases h; exact .of_unG rfl (extend_true_eq _ _)
  | zext d x wx n => cases h; exact .of_unG rfl (extend_false_eq _ _)
  | bfx d x y wx wy => cases h; exact .of_bin0 rfl (bfxW_eq _ _)
  | bfi d x y wx wy => cases h; exact .of_triG rfl (bfiW_eq _ _ _)
  | sel d x y wx wy => cases h; exact .of_triG rfl (ite_not _ _ _).symm
  | slt d x y wx wy => cases h; exact .of_bin0 rfl (bool64_slt _ _)
  | sltn d x y wx wy => cases h; exact .of_bin0 rfl (bool64_lt _ _)
  | seq d x y wx wy => cases h; exact .of_bin0 rfl (bool64_eq _ _)
  | hash d x y wx wy => cases h; exact .of_bin0 rfl rfl
  | addi d x wx imm => cases h; exact .of_unG rfl rfl
  | andi d x wx imm => cases h; exact .of_unG rfl rfl
  | ori d x wx imm => cases h; exact .of_unG rfl rfl
  | xori d x wx imm => cases h; exact .of_unG rfl rfl
  | slti d x wx imm => cases h; exact .of_unG rfl (bool64_slt _ _)
  | shli d x wx n => cases h; exact .of_unG rfl rfl
  | shri d x wx n => cases h; exact .of_unG rfl rfl
  | srai d x wx n => cases h; exact .of_unG rfl rfl
  | rotli d x wx n => cases h; exact .of_unG rfl (rotlW_eq _ n.isLt)
  | li d imm => cases h; exact ⟨_, rfl, rfl⟩
  | lih d imm => cases h; exact ⟨_, rfl, by simp only [lih_eq]⟩
  | rmake d x y wx wy => cases h; exact .of_bin0 rfl (rmakeW_eq _ _)
  | radd d x y wx wy => cases h; exact .of_bin0 rfl (by rw [refAdd_eq, ofInt_toInt_eq])
  | raddi d x wx imm => cases h; exact .of_unG rfl (refAdd_eq _ _)
  | rsetf d x y wx wy => cases h; exact .of_bin0 rfl (rsetfW_eq _ _)
  | roff d x wx => cases h; exact .of_unG rfl (w64_fld _ _ _)
  | ridx d x wx => cases h; exact .of_unG rfl (w64_fld _ _ _)
  | xset d x wx => cases h; exact ⟨_, rfl, rfl⟩
  | xget d x => cases h; exact ⟨_, rfl, rfl⟩
  | xli d imm => cases h; exact ⟨_, rfl, rfl⟩
  | cMov d x => cases h; exact .of_unG rfl rfl
  | cAdd d x => cases h; exact .of_binG rfl (arith_add_w64 _ _)
  | cSub d x => cases h; exact .of_binG rfl (arith_sub_w64 _ _)
  | cAnd d x => cases h; exact .of_bin0 rfl rfl
  | cOr d x => cases h; exact .of_bin0 rfl rfl
  | cXor d x => cases h; exact .of_bin0 rfl rfl
  | cAddi d imm => cases h; exact .of_unG rfl rfl
  | cShli d n => cases h; exact .of_unG rfl rfl
  | cLi d imm => cases h; exact ⟨_, rfl, rfl⟩
  | _ => cases h

/-! ### A trap that the supervisor takes from user level -/

/-- A field of a word after another field that does not meet it is replaced. -/
theorem extract_putFld_of_disjoint (x : Word) {lo w v start len : Nat} (h : start + len ≤ lo ∨ lo + w ≤ start) (hl : start + len ≤ 64) :
    (putFld x lo w v).extractLsb' start len = x.extractLsb' start len := by
  apply BitVec.eq_of_getLsbD_eq
  intro i hi
  have out : ¬(lo ≤ start + i ∧ start + i < lo + w) := by omega
  rw [BitVec.getLsbD_extractLsb', BitVec.getLsbD_extractLsb', getLsbD_putFld _ _ _ _ (by omega), if_neg out]

/-- A field of STATUS beside the flags is as it was before flags are ORed in. -/
theorem extract_orFlags_of_disjoint (a : Arch) (f : BitVec 6) {start len : Nat} (h : start + len ≤ 8 ∨ 14 ≤ start) :
    (a.orFlags f).status.extractLsb' start len = a.status.extractLsb' start len := by
  apply BitVec.eq_of_getLsbD_eq
  intro i hi
  rw [BitVec.getLsbD_extractLsb', BitVec.getLsbD_extractLsb', Arch.orFlags, BitVec.getLsbD_or, BitVec.getLsbD_shiftLeft]
  by_cases low : start + i < 8
  · simp [low]
  · have high : 6 ≤ start + i - 8 := by omega
    simp [BitVec.getLsbD_setWidth, BitVec.getLsbD_of_ge f _ high]

@[simp] theorem pl_orFlags (a : Arch) (f : BitVec 6) : (a.orFlags f).pl = a.pl := by
  rw [Arch.pl, Arch.pl, fld_eq, fld_eq, extract_orFlags_of_disjoint a f (by decide)]

@[simp] theorem tn_orFlags (a : Arch) (f : BitVec 6) : (a.orFlags f).tn = a.tn := by
  rw [Arch.tn, Arch.tn, bit, bit, Arch.orFlags, BitVec.getLsbD_or, BitVec.getLsbD_shiftLeft, BitVec.getLsbD_setWidth, BitVec.getLsbD_of_ge f _ (by decide)]
  simp

@[simp] theorem flg_orFlags (a : Arch) (f : BitVec 6) : (a.orFlags f).flg = a.flg ||| f := by
  apply BitVec.eq_of_getLsbD_eq
  intro i hi
  have word : 8 + i < 64 := by omega
  simp [Arch.flg, Arch.orFlags, hi, word]

/-- Entering a handler leaves the flags (R34). -/
theorem flg_enterTrap (a : Arch) (target code det : Nat) (tval pc : Word) (isInt : Bool) :
    (enterTrap a target code det tval pc isInt).flg = a.flg := by
  simp (disch := decide) only [Arch.flg, enterTrap, extract_putFld_of_disjoint]

theorem trapPc_of_ne (x : Ctx) {t : Trap} (pc : Word) (h : t.code ≠ 0x18) : trapPc x t pc = pc := if_neg h

theorem trapTarget_user {a : Arch} {t : Trap} (hp : a.pl = 0) (ht : a.tn = false) (h : t.code ≠ 0x20) : trapTarget a t = 1 := by
  simp only [trapTarget, ht, hp, h, Bool.false_eq_true, false_and, or_false, OfNat.zero_ne_ofNat, if_false]

/-- At user level, with no handler active, a trap that is neither a TRAP nor a deferred data error goes to the supervisor (R34). -/
theorem takeTrap_user {s : State} {c : Nat} {t : Trap} {isInt : Bool} {pc : Word} (hp : (s.ctx c).arch.pl = 0) (ht : (s.ctx c).arch.tn = false)
    (hd : t.code ≠ 0x18) (hc : t.code ≠ 0x20) :
    ((takeTrap s c t isInt pc).ctx c).arch =
      enterTrap ((s.ctx c).arch.orFlags t.flags) 1 t.code.toNat t.det.toNat t.tval pc isInt ∧ (takeTrap s c t isInt pc).cur = s.cur := by
  have target : trapTarget ((s.ctx c).arch.orFlags t.flags) t = 1 := trapTarget_user (by simpa using hp) (by simpa using ht) hc
  simp [takeTrap, trapPc_of_ne _ _ hd, target, ht]

/-- Settles O1: each scalar form is a use of `compute` whose function gives the word of its rule. -/
theorem scalarResult : Obligations.ScalarResult := by
  unfold Obligations.ScalarResult
  intro s i r hi h hr hw
  exact ⟨_, (scalarRule_computes h).next hi hr hw BitVec.zero_and, by rw [if_pos rfl]⟩

/-- Settles O2: ADD, SUB and MUL are uses of `compute` whose function gives the shaped result and its flags. -/
theorem arithmeticResult : Obligations.ArithmeticResult := by
  unfold Obligations.ArithmeticResult
  refine ⟨fun s i d xs n k x hi h hr hw hf => (exactArith_computes h).next hi hr hw hf, ?_⟩
  intro s i d xs n k x hi h hr hw hf
  have run := (exactArith_computes h).trap hi hr hw hf
  refine ⟨run, fun hp ht => ⟨_, run, ?_⟩⟩
  obtain ⟨harch, hcur⟩ := takeTrap_user (t := ⟨0x19, 0, (shapedFlags n k x).setWidth 64, shapedFlags n k x⟩) (isInt := false) (pc := (me s).pc)
    hp ht (by simp) (by simp)
  rw [me, hcur, harch]
  exact ⟨rfl, rfl, by rw [flg_enterTrap, flg_orFlags, me], rfl⟩

end Sys2Proof.Proofs
end

section
/-! SUPPORT. The vector instructions under q0: each is a use of `vecOp`, lane by lane the value and the flags of its rule; the lanes of a register, an operation that
delivers later, and the statement about their results. -/

namespace Sys2Proof.Proofs
open Sys2Proof.Machine Sys2Proof.Spec

/-! ### Lanes of a vector register (R195) -/

theorem lane_eq (v : BitVec 512) (w i : Nat) : lane v w i = (v.extractLsb' (w * i) w).toNat := by
  rw [lane, BitVec.extractLsb'_toNat, Nat.shiftRight_eq_div_pow]

theorem vlane_eq (a : Arch) (x : BitVec 6) (w j : Nat) : vlane a x w j = (laneAt a x w j).toNat := lane_eq _ _ _

/-- The bits of a register one of whose lanes is replaced. -/
theorem getLsbD_putLane (w : Nat) (v : BitVec 512) (i x : Nat) {k : Nat} (hk : k < 512) :
    (putLane w v (i, x)).getLsbD k = if w * i ≤ k ∧ k < w * i + w then x.testBit (k - w * i) else v.getLsbD k := by
  simp only [putLane, BitVec.getLsbD_or, BitVec.getLsbD_and, BitVec.getLsbD_not, BitVec.getLsbD_ofNat, Nat.testBit_mul_two_pow,
    Nat.testBit_two_pow_sub_one, Nat.testBit_mod_two_pow, hk]
  by_cases hl : w * i ≤ k
  · have hw : k - w * i < w ↔ k < w * i + w := by omega
    by_cases hh : k < w * i + w <;> simp [hl, hh, hw]
  · simp [hl]

/-- What is above a lane's width is not written. -/
theorem putLane_mod (w : Nat) (v : BitVec 512) (i x : Nat) : putLane w v (i, x % 2 ^ w) = putLane w v (i, x) := by
  simp only [putLane, Nat.mod_mod]

theorem extract_putLane_self {w j : Nat} (v : BitVec 512) (x : Nat) (hj : w * j + w ≤ 512) :
    (putLane w v (j, x)).extractLsb' (w * j) w = BitVec.ofNat w x := by
  apply BitVec.eq_of_getLsbD_eq
  intro k hk
  rw [BitVec.getLsbD_extractLsb', getLsbD_putLane _ _ _ _ (by omega), if_pos ⟨by omega, by omega⟩, BitVec.getLsbD_ofNat, Nat.add_sub_cancel_left]

theorem extract_putLane_ne {w i j : Nat} (v : BitVec 512) (x : Nat) (hij : i ≠ j) (hj : w * j + w ≤ 512) :
    (putLane w v (i, x)).extractLsb' (w * j) w = v.extractLsb' (w * j) w := by
  apply BitVec.eq_of_getLsbD_eq
  intro k hk
  have apart : w * i + w ≤ w * j ∨ w * j + w ≤ w * i := by
    rcases Nat.lt_or_gt_of_ne hij with h | h
    · exact .inl (Nat.mul_le_mul_left w h)
    · exact .inr (Nat.mul_le_mul_left w h)
  rw [BitVec.getLsbD_extractLsb', BitVec.getLsbD_extractLsb', getLsbD_putLane _ _ _ _ (by omega), if_neg (by omega)]

/-- A lane after lanes `l` are written, lane `i` with `g i`. -/
theorem extract_foldl_putLane {w j : Nat} (l : List Nat) (g : Nat → Nat) (v : BitVec 512) (hj : w * j + w ≤ 512) :
    (l.foldl (fun v i => putLane w v (i, g i)) v).extractLsb' (w * j) w =
      if j ∈ l then BitVec.ofNat w (g j) else v.extractLsb' (w * j) w := by
  induction l generalizing v with
  | nil => simp
  | cons i l ih =>
    rw [List.foldl_cons, ih]
    by_cases hl : j ∈ l
    · simp [hl]
    · by_cases hij : j = i
      · subst hij; simp [hl, extract_putLane_self _ _ hj]
      · simp [hl, hij, extract_putLane_ne _ _ (Ne.symm hij) hj]

/-- What lies above the first `n` lanes stays when lanes below are written. -/
theorem getLsbD_foldl_putLane_above {w n k : Nat} {l : List Nat} (g : Nat → Nat) (v : BitVec 512) (hl : ∀ i ∈ l, i < n) (hk : n * w ≤ k)
    (hk' : k < 512) : (l.foldl (fun v i => putLane w v (i, g i)) v).getLsbD k = v.getLsbD k := by
  induction l generalizing v with
  | nil => rfl
  | cons i l ih =>
    have below : w * i + w ≤ n * w := by
      rw [Nat.mul_comm n w]
      exact Nat.mul_le_mul_left w (hl i List.mem_cons_self)
    rw [List.foldl_cons, ih _ fun j hj => hl j (List.mem_cons_of_mem _ hj), getLsbD_putLane _ _ _ _ hk', if_neg (by omega)]

/-- The bits of the first `n` lanes. -/
def lanesMask (n w : Nat) : BitVec 512 := BitVec.ofNat 512 (2 ^ (n * w) - 1)

theorem getLsbD_lanesMask (n w : Nat) {k : Nat} (hk : k < 512) : (lanesMask n w).getLsbD k = decide (k < n * w) := by
  rw [lanesMask, BitVec.getLsbD_ofNat, Nat.testBit_two_pow_sub_one, decide_eq_true hk, Bool.true_and]

theorem lanesMask_full {w : Nat} (hw : w ∣ 512) : lanesMask (512 / w) w = BitVec.allOnes 512 := by
  apply BitVec.eq_of_getLsbD_eq
  intro k hk
  rw [getLsbD_lanesMask _ _ hk, Nat.div_mul_cancel hw, BitVec.getLsbD_allOnes]

/-! ### The new content of the destination (R196, R197) -/

/-- The destination with the enabled lanes of a rule written into it, and nothing above its lanes. -/
def laneValue (r : LaneRule) (a : Arch) : BitVec 512 :=
  ((List.range r.n).filter (laneOn a)).foldl (fun v j => putLane r.w v (j, (r.lane j).1.toNat)) ((a.vr r.dst.toNat).val &&& lanesMask r.n r.w)

theorem laneValue_gives {r : LaneRule} (a : Arch) (hn : r.n * r.w ≤ 512) : r.Gives a (laneValue r a) := by
  refine ⟨fun j hj => ?_, fun k hk => ?_⟩
  · have inside : r.w * j + r.w ≤ r.n * r.w := by
      rw [Nat.mul_comm r.n]
      exact Nat.mul_le_mul_left r.w hj
    have old : ((a.vr r.dst.toNat).val &&& lanesMask r.n r.w).extractLsb' (r.w * j) r.w = laneAt a r.dst r.w j := by
      apply BitVec.eq_of_getLsbD_eq
      intro k hk
      have low : r.w * j + k < r.n * r.w := by omega
      rw [laneAt, BitVec.getLsbD_extractLsb', BitVec.getLsbD_extractLsb', BitVec.getLsbD_and, getLsbD_lanesMask _ _ (by omega)]
      simp [low]
    rw [laneValue, extract_foldl_putLane _ _ _ (by omega), old]
    simp [hj]
  · by_cases top : k < 512
    · have below : ∀ j ∈ (List.range r.n).filter (laneOn a), j < r.n := fun j hj => List.mem_range.mp (List.mem_filter.mp hj).1
      rw [laneValue, getLsbD_foldl_putLane_above _ _ below hk top, BitVec.getLsbD_and, getLsbD_lanesMask _ _ top]
      simp [hk]
    · exact BitVec.getLsbD_of_ge _ _ (not_lt.mp top)

/-! ### Flags raised before the result (R38, R198) -/

/-- The state with flags of the current context raised. -/
def raised (s : State) (f : BitVec 6) : State := if f = 0 then s else s.modArch s.cur fun a => a.orFlags f

theorem orFlags_zero (a : Arch) : a.orFlags 0 = a := by simp [Arch.orFlags]

theorem setFlags_eq_raised {s : State} {f : BitVec 6} (h : f &&& (me s).en = 0) : setFlags s s.cur f = .ok (raised s f) := by
  unfold raised
  split
  case isTrue h0 => rw [h0, setFlags_none]
  case isFalse h0 => exact setFlags_ok h0 h

theorem raised_frame (s : State) (f : BitVec 6) : raised s f = { s with ctxs := (raised s f).ctxs } := by
  unfold raised
  split <;> rfl

theorem ctx_raised_self (s : State) (f : BitVec 6) : (raised s f).ctx s.cur = { s.ctx s.cur with arch := (me s).orFlags f } := by
  unfold raised
  split
  case isTrue h0 => rw [h0, orFlags_zero, me]
  case isFalse => exact State.ctx_modArch_self _ _ _

theorem ctx_raised_ne (s : State) (f : BitVec 6) {c : Nat} (h : c ≠ s.cur) : (raised s f).ctx c = s.ctx c := by
  unfold raised
  split
  · rfl
  · exact State.ctx_modArch_ne _ _ h

/-! ### An operation that delivers later (R14, R213) -/

/-- Operations of the matrix unit change in their cell's queues alone. -/
theorem cell_modMatOps (s : State) (c : Nat) (plc : Word) (f : MatOp → MatOp) (n : Nat) :
    (modMatOps s c plc f).cell n = { s.cell n with
      matrix := ((modMatOps s c plc f).cell n).matrix, follows := ((modMatOps s c plc f).cell n).follows
      cwait := ((modMatOps s c plc f).cell n).cwait, copies := ((modMatOps s c plc f).cell n).copies } := by
  unfold modMatOps
  split
  · rfl
  · by_cases h : n = cellOf c
    · subst h
      simp only [State.cell_modCell_self]
    · rw [State.cell_modCell_ne _ _ h]

theorem modMatOps_frame (s : State) (c : Nat) (plc : Word) (f : MatOp → MatOp) :
    modMatOps s c plc f = { s with cells := (modMatOps s c plc f).cells } := by
  unfold modMatOps
  split <;> rfl

theorem modMatOps_none {s : State} {c : Nat} {plc : Word} (f : MatOp → MatOp) (h : hasMatOps (s.cell (cellOf c)) c plc = false) :
    modMatOps s c plc f = s := by
  simp [modMatOps, h]

/-- Keeping a register changes at most the operations of its strand. -/
theorem keepReg_cases (s : State) (c : Nat) (d : RegId) : keepReg s c d = s ∨ ∃ f, keepReg s c d = modMatOps s c (s.plc c) f := by
  obtain ⟨file, n⟩ := d
  cases file with
  | g => exact .inl rfl
  | k =>
    simp only [keepReg, keepTile]
    split
    · exact .inl rfl
    · exact .inr ⟨_, rfl⟩
  | v | q | x =>
    simp only [keepReg]
    split
    · exact .inl rfl
    · exact .inr ⟨_, rfl⟩

theorem keepReg_frame (s : State) (c : Nat) (d : RegId) : keepReg s c d = { s with cells := (keepReg s c d).cells } := by
  obtain h | ⟨f, h⟩ := keepReg_cases s c d
  · rw [h]
  · rw [h]; exact modMatOps_frame _ _ _ _

theorem cell_keepReg (s : State) (c : Nat) (d : RegId) (n : Nat) :
    (keepReg s c d).cell n = { s.cell n with
      matrix := ((keepReg s c d).cell n).matrix, follows := ((keepReg s c d).cell n).follows
      cwait := ((keepReg s c d).cell n).cwait, copies := ((keepReg s c d).cell n).copies } := by
  obtain h | ⟨f, h⟩ := keepReg_cases s c d
  · rw [h]
  · rw [h]; exact cell_modMatOps _ _ _ _ _

theorem keepReg_none {s : State} {c : Nat} (d : RegId) (h : hasMatOps (s.cell (cellOf c)) c (s.plc c) = false) : keepReg s c d = s := by
  obtain hk | ⟨f, hk⟩ := keepReg_cases s c d
  · exact hk
  · rw [hk, modMatOps_none f h]

theorem ctx_keepReg (s : State) (c : Nat) (d : RegId) (n : Nat) : (keepReg s c d).ctx n = s.ctx n := by
  rw [keepReg_frame]
  rfl

theorem startLong_frame (s : State) (c : Nat) (p : Due → Pend) (r : Due) :
    startLong s c p r = { s with ctxs := (startLong s c p r).ctxs, cells := (keepReg s c r.dst).cells } := by
  rw [startLong, keepReg_frame]
  rfl

theorem ctx_startLong_self (s : State) (c : Nat) (p : Due → Pend) (r : Due) :
    (startLong s c p r).ctx c = { s.ctx c with arch := markEmpty (s.ctx c).arch r.dst r.labs, pend := (s.ctx c).pend ++ [p r] } := by
  rw [startLong, State.ctx_modCtx_self, ctx_keepReg]

theorem ctx_startLong_ne (s : State) {c n : Nat} (p : Due → Pend) (r : Due) (h : n ≠ c) : (startLong s c p r).ctx n = s.ctx n := by
  rw [startLong, State.ctx_modCtx_ne _ _ h, ctx_keepReg]

theorem ctx_advance_self (i : Instr) (s : State) (c : Nat) :
    (advance i s c).ctx c = { s.ctx c with
      arch := { (s.ctx c).arch with pc := (s.ctx c).arch.pc + w64 i.len }
      walkFault := none, labAns := none, hold := none, peerWait := none, peerAns := [] } :=
  State.ctx_modCtx_self _ _ _

theorem ctx_advance_ne (i : Instr) (s : State) {c n : Nat} (h : n ≠ c) : (advance i s c).ctx n = s.ctx n := State.ctx_modCtx_ne _ _ h

theorem cell_startLong (s : State) (c : Nat) (p : Due → Pend) (r : Due) (n : Nat) : (startLong s c p r).cell n = (keepReg s c r.dst).cell n := rfl

/-- The current context raises flags, marks a register empty and launches an operation that fills it later: nothing else changes. -/
theorem onlyMeAndOps_launch (i : Instr) (s : State) (f : BitVec 6) (p : Due → Pend) (r : Due) :
    OnlyMeAndOps s (advance i (startLong (raised s f) s.cur p r) s.cur) := by
  have cells : (raised s f).cells = s.cells := by rw [raised_frame]
  have cell : ∀ n, (raised s f).cell n = s.cell n := fun n => by rw [State.cell, State.cell, cells]
  have plc : (raised s f).plc s.cur = s.plc s.cur := by rw [State.plc, State.plc, ctx_raised_self]
  refine ⟨?_, fun c hc => ?_, fun n => ?_, fun none n => ⟨(s.cell n).pcache, ?_, fun _ => Iff.rfl⟩⟩
  · rw [advance, startLong_frame, raised_frame]
    rfl
  · rw [ctx_advance_ne _ _ hc, ctx_startLong_ne _ _ _ hc, ctx_raised_ne _ _ hc]
  · rw [← cell]
    exact cell_keepReg (raised s f) s.cur r.dst n
  · change (keepReg (raised s f) s.cur r.dst).cell n = _
    rw [keepReg_none _ (by rw [cell, plc, none]), cell]

/-- The registers after such a launch. -/
theorem me_launch (i : Instr) (s : State) (f : BitVec 6) (p : Due → Pend) (r : Due) :
    me (advance i (startLong (raised s f) s.cur p r) s.cur) =
      { markEmpty ((me s).orFlags f) r.dst r.labs with pc := (me s).pc + w64 i.len } := by
  have cur : (advance i (startLong (raised s f) s.cur p r) s.cur).cur = s.cur := by
    rw [(onlyMeAndOps_launch i s f p r).1]
  rw [me, cur, ctx_advance_self, ctx_startLong_self, ctx_raised_self, markEmpty, Arch.setMeta_pc]
  rfl

theorem launched_launch (i : Instr) (s : State) (f : BitVec 6) (p : Due → Pend) (r : Due) :
    Launched s (advance i (startLong (raised s f) s.cur p r) s.cur) (p r) := by
  rw [Launched, ctx_advance_self, ctx_startLong_self, ctx_raised_self]

theorem regsBut_markEmpty (a : Arch) (f : BitVec 6) (d : RegId) (ls : List Label) (pc : Word) :
    RegsBut a { markEmpty (a.orFlags f) d ls with pc := pc } d :=
  fun _ hq => ⟨Arch.rmeta_setMeta_ne _ _ hq, Arch.regVal_setMeta _ _ _ _⟩

theorem fe_markEmpty (a : Arch) {d : RegId} (ls : List Label) (pc : Word) (h : d.file ≠ .g) :
    (({ markEmpty a d ls with pc := pc } : Arch).rmeta d).fe = .empty :=
  congrArg Reg.fe (Arch.rmeta_setMeta_self a d _ fun g => absurd g h)

/-! ### Instructions that follow a rule of lanes -/

/-- In `s` the instruction is a use of `vecOp` whose function gives, lane by lane, the value and the flags of the rule `r`. -/
def FollowsLanes (i : Instr) (s : State) (r : LaneRule) : Prop :=
  r.n * r.w ≤ 512 ∧ ∃ f : Arch → Nat → Nat × BitVec 6,
    exec i s = issueSeq i s (fun s c => vecOp s c r.dst r.named r.old r.n r.w f r.long (lanesMask r.n r.w)) ∧
    ∀ j, (BitVec.ofNat r.w (f (me s) j).1, (f (me s) j).2) = r.lane j

/-- Where q0 is full, the model reads the sources of the rule (R196, R197). -/
theorem maskedSrcs_eq {a : Arch} (r : LaneRule) (h : (a.rmeta ⟨.q, 0⟩).fe = .full) : maskedSrcs a r.dst r.named r.old r.n = r.srcs a := by
  have full : (a.qr 0).fe = .full := h
  have stays : ((enabledLanes r.n (a.qr 0).val).length != r.n) = (List.range r.n).any fun j => !laneOn a j := by
    have all : (enabledLanes r.n (a.qr 0).val).length = r.n ↔ ∀ j ∈ List.range r.n, laneOn a j = true := by
      conv_lhs => rhs; rw [← List.length_range (n := r.n)]
      exact List.length_filter_eq_length_iff
    rw [Bool.eq_iff_iff, bne_iff_ne, Ne, all]
    simp
  simp only [maskedSrcs, LaneRule.srcs, full, stays, beq_self_eq_true, Bool.true_and]

section
variable {i : Instr} {s : State} {r : LaneRule}

/-- What `vecOp` gives when its registers are ready: the flags of the enabled lanes are raised, then the new content fills the destination, at once or later. -/
theorem vecOp_eq {f : Arch → Nat → Nat × BitVec 6} (hf : ∀ j, (BitVec.ofNat r.w (f (me s) j).1, (f (me s) j).2) = r.lane j)
    (hr : Readable (me s) (r.srcs (me s))) (hw : Writable (me s) ⟨.v, r.dst.toNat⟩) :
    vecOp s s.cur r.dst r.named r.old r.n r.w f r.long (lanesMask r.n r.w) = (setFlags s s.cur (r.flags (me s))).map fun t =>
      if r.long then startLong t s.cur .vlong ⟨⟨.v, r.dst.toNat⟩, .v (laneValue r (me s)), srcLabels (me s) (r.srcs (me s)), (me s).pc⟩
      else fill t s.cur ⟨.v, r.dst.toNat⟩ (.v (laneValue r (me s))) (srcLabels (me s) (r.srcs (me s))) := by
  obtain ⟨hfull, hspace⟩ := hr
  have srcs : maskedSrcs (me s) r.dst r.named r.old r.n = r.srcs (me s) :=
    maskedSrcs_eq r (hfull (srcF .q 0 3) (List.mem_append_right _ (List.mem_singleton.mpr rfl)))
  have flags : ((enabledLanes r.n ((me s).qr 0).val).map fun j => (j, f (me s) j)).foldl (fun x p => x ||| p.2.2) 0 = r.flags (me s) := by
    rw [List.foldl_map]
    simp only [LaneRule.flags, ← hf]
    rfl
  have value : (((enabledLanes r.n ((me s).qr 0).val).map fun j => (j, f (me s) j)).map fun p => (p.1, p.2.1)).foldl (putLane r.w)
      (((me s).vr r.dst.toNat).val &&& lanesMask r.n r.w) = laneValue r (me s) := by
    rw [List.map_map, List.foldl_map]
    simp only [laneValue, ← hf, BitVec.toNat_ofNat, putLane_mod]
    rfl
  have regs : (s.ctx s.cur).arch = me s := rfl
  simp only [vecOp, regs, destReady_ok hw, srcs, readSrcs_ok hfull hspace, flags, value]
  cases setFlags s s.cur (r.flags (me s)) <;> rfl

/-- Where no enabled flag is raised, the new content fills the destination, at once or later. -/
theorem FollowsLanes.next (h : FollowsLanes i s r) (hi : MayIssue i s) (hr : Readable (me s) (r.srcs (me s)))
    (hw : Writable (me s) ⟨.v, r.dst.toNat⟩) (hf : r.flags (me s) &&& (me s).en = 0) :
    exec i s = .next (advance i (if r.long then startLong (raised s (r.flags (me s))) s.cur .vlong
        ⟨⟨.v, r.dst.toNat⟩, .v (laneValue r (me s)), srcLabels (me s) (r.srcs (me s)), (me s).pc⟩
      else fill (raised s (r.flags (me s))) s.cur ⟨.v, r.dst.toNat⟩ (.v (laneValue r (me s))) (srcLabels (me s) (r.srcs (me s)))) s.cur) := by
  obtain ⟨_, f, he, hl⟩ := h
  obtain ⟨hb, hp⟩ := hi
  rw [he, issueSeq_ok hb hp (by rw [vecOp_eq hl hr hw, setFlags_eq_raised hf]; rfl)]

/-- Where an enabled flag is raised, the instruction stops with the arithmetic fault (R121). -/
theorem FollowsLanes.trap (h : FollowsLanes i s r) (hi : MayIssue i s) (hr : Readable (me s) (r.srcs (me s)))
    (hw : Writable (me s) ⟨.v, r.dst.toNat⟩) (hf : r.flags (me s) &&& (me s).en ≠ 0) :
    exec i s = .next (takeTrap s s.cur ⟨0x19, 0, (r.flags (me s)).setWidth 64, r.flags (me s)⟩ false (me s).pc) := by
  obtain ⟨_, f, he, hl⟩ := h
  obtain ⟨hb, hp⟩ := hi
  rw [he, issueSeq_error hb hp (by rw [vecOp_eq hl hr hw, setFlags_trap hf]; rfl)]
  rfl

end

/-! ### The values of the lanes (R198 to R207) -/

theorem sextInt_toNat {n : Nat} (u : BitVec n) : sextInt u.toNat n = u.toInt := by
  rw [sextInt_eq, BitVec.ofNat_toNat, BitVec.setWidth_eq]

theorem readInt_toNat {n : Nat} (signed : Bool) (u : BitVec n) : readInt n signed u.toNat = if signed then u.toInt else (u.toNat : Int) := by
  cases signed with
  | false => simp [readInt, Nat.mod_eq_of_lt u.isLt]
  | true => simp [readInt, sextInt_toNat]

/-- VMIN and VMAX of two values (R200). -/
theorem laneMinMax_fp (f : Fmt) (wantMax : Bool) (u v : BitVec f.bits) :
    BitVec.ofNat f.bits (laneMinMax (.fp f) wantMax u.toNat v.toNat) = pickFp f wantMax u v := by
  simp only [laneMinMax, apply_ite (BitVec.ofNat f.bits), BitVec.ofNat_toNat, BitVec.setWidth_eq]
  cases wantMax <;> rfl

theorem laneMinMax_int (n : Nat) (signed wantMax : Bool) (u v : BitVec n) :
    BitVec.ofNat n (laneMinMax (.int n signed) wantMax u.toNat v.toNat) = if cond wantMax (u.slt v) (v.slt u) then v else u := by
  simp only [laneMinMax, sextInt_toNat, ← BitVec.slt_eq_decide, apply_ite (BitVec.ofNat n), BitVec.ofNat_toNat, BitVec.setWidth_eq]
  cases wantMax <;> rfl

/-- A value without its sign bit. -/
theorem ofNat_mod_signBit {k : Nat} (u : BitVec (k + 1)) : BitVec.ofNat (k + 1) (u.toNat % 2 ^ k) = u &&& ~~~BitVec.intMin (k + 1) := by
  apply BitVec.eq_of_getLsbD_eq
  intro i hi
  rw [BitVec.getLsbD_ofNat, Nat.testBit_mod_two_pow, BitVec.getLsbD_and, BitVec.getLsbD_not, BitVec.getLsbD_intMin, BitVec.testBit_toNat]
  have low : i < k ↔ ¬i = k := by omega
  simp [hi, low, Bool.and_comm]

/-- A value with its sign bit changed. -/
theorem ofNat_xor_signBit {k : Nat} (u : BitVec (k + 1)) : BitVec.ofNat (k + 1) (u.toNat ^^^ 2 ^ k) = u ^^^ BitVec.intMin (k + 1) := by
  apply BitVec.eq_of_getLsbD_eq
  intro i hi
  rw [BitVec.getLsbD_ofNat, Nat.testBit_xor, Nat.testBit_two_pow, BitVec.getLsbD_xor, BitVec.getLsbD_intMin, BitVec.testBit_toNat]
  simp [hi, eq_comm]

theorem ofNat_wrapInt_neg {n : Nat} (u : BitVec n) : BitVec.ofNat n (wrapInt n (-u.toInt)) = -u := by
  rw [ofNat_wrapInt, BitVec.ofInt_neg, BitVec.ofInt_toInt]

/-- VABS (R200). -/
theorem laneSign_magnitude (t : LaneTy) (u : BitVec t.bits) : BitVec.ofNat t.bits (laneSign t false u.toNat) = magnitude t u := by
  cases t with
  | fp f =>
    simp only [laneSign, magnitude, apply_ite (BitVec.ofNat _), Bool.false_eq_true, if_false]
    exact if_congr Iff.rfl rfl (ofNat_mod_signBit (k := f.e + f.f) u)
  | int n signed =>
    change BitVec n at u
    have sign : decide (u.toInt < 0) = u.slt 0 := by simp [BitVec.slt_eq_decide]
    simp only [laneSign, magnitude, sextInt_toNat, apply_ite (BitVec.ofNat _), LaneTy.bits, ofNat_wrapInt_neg, BitVec.ofNat_toNat,
      BitVec.setWidth_eq, Bool.false_or, sign]
    rfl

/-- VNEG (R200). -/
theorem laneSign_negated (t : LaneTy) (u : BitVec t.bits) : BitVec.ofNat t.bits (laneSign t true u.toNat) = negated t u := by
  cases t with
  | fp f =>
    simp only [laneSign, negated, apply_ite (BitVec.ofNat _), if_true]
    exact if_congr Iff.rfl rfl (ofNat_xor_signBit (k := f.e + f.f) u)
  | int n signed =>
    change BitVec n at u
    simp only [laneSign, negated, sextInt_toNat, LaneTy.bits, Bool.true_or, if_true, ofNat_wrapInt_neg]
    rfl

/-- VSHL (R204). -/
theorem laneShl_eq {w : Nat} (u v : BitVec w) : BitVec.ofNat w (laneShl w u.toNat v.toNat) = if w ≤ v.toNat then 0 else u <<< v.toNat := by
  rw [laneShl, apply_ite (BitVec.ofNat w)]
  congr 1
  apply BitVec.eq_of_toNat_eq
  rw [BitVec.toNat_ofNat, Nat.mod_mod, BitVec.toNat_shiftLeft, Nat.shiftLeft_eq]

/-- VSHR, logical (R204). -/
theorem laneShr_logical {w : Nat} (u v : BitVec w) :
    BitVec.ofNat w (laneShr w false u.toNat v.toNat) = if w ≤ v.toNat then 0 else u >>> v.toNat := by
  rw [laneShr, if_neg Bool.false_ne_true, apply_ite (BitVec.ofNat w)]
  congr 1
  rw [← Nat.shiftRight_eq_div_pow, ← BitVec.toNat_ushiftRight, BitVec.ofNat_toNat, BitVec.setWidth_eq]

/-- VSHR, arithmetic (R204). -/
theorem laneShr_arith {w : Nat} (u v : BitVec w) :
    BitVec.ofNat w (laneShr w true u.toNat v.toNat) = u.sshiftRight (min v.toNat w) := by
  rw [laneShr, if_pos rfl, ofNat_wrapInt, sextInt_toNat, BitVec.sshiftRight, Int.shiftRight_eq_div_pow]

/-- A clamped number is the number itself where it is in range (R43). -/
theorem clamp_eq_self_iff (n : Nat) (signed : Bool) (t : Int) :
    max (Spec.lowest n signed) (min (highest n signed) t) = t ↔ ¬(t < Spec.lowest n signed ∨ highest n signed < t) := by
  have order := lowest_le_highest n signed
  omega

/-- VCVT of one lane (R206). -/
theorem laneCvt_eq (src dst : LaneTy) (m : RMode) (u : BitVec src.bits) :
    (BitVec.ofNat dst.bits (laneCvt src dst m u.toNat).1, (laneCvt src dst m u.toNat).2) = converted src dst m u := by
  cases src with
  | fp t => cases dst with
    | fp f =>
      by_cases same : t = f
      · simp only [laneCvt, converted, same, if_true, apply_ite (BitVec.ofNat _), BitVec.ofNat_toNat]
        rfl
      · simp only [laneCvt, converted, same, if_false]
        rfl
    | int n signed =>
      simp only [laneCvt, converted, LaneTy.bits, ofNat_wrapInt]
      rfl
  | int n signed =>
    change BitVec n at u
    cases dst with
    | fp f =>
      simp only [laneCvt, converted, LaneTy.bits, readInt_toNat]
    | int k signed' =>
      simp only [laneCvt, converted, LaneTy.bits, readInt_toNat, ofNat_wrapInt, saturate_eq, clamp_eq_self_iff, ite_not]

/-! ### Every vector instruction follows its rule -/

theorem ty_bits_dvd (t : VT) : t.ty.bits ∣ 512 := by cases t <;> decide
theorem fmt_bits_dvd (t : FT) : t.fmt.bits ∣ 512 := by cases t <;> decide
theorem width_bits_dvd (w : Width) : w.bits ∣ 512 := by cases w <;> decide

section
variable {i : Instr} {s : State} {d x y : BitVec 6} {wx wy : Bool} {w : Nat}

/-- A use of `vecOp` whose lanes fill the register. -/
theorem FollowsLanes.of_full {named : List Src} {old long : Bool} {lane : Nat → BitVec w × BitVec 6} {f : Arch → Nat → Nat × BitVec 6} (hw : w ∣ 512)
    (h : exec i s = issueSeq i s fun s c => vecOp s c d named old (512 / w) w f long)
    (hf : ∀ j, (BitVec.ofNat w (f (me s) j).1, (f (me s) j).2) = lane j) : FollowsLanes i s ⟨d, named, old, 512 / w, w, lane, long⟩ :=
  ⟨Nat.div_mul_le_self _ _, f, by rw [h]; simp only [lanesMask_full hw], hf⟩

/-- Two registers, lane by lane, without flags. -/
theorem FollowsLanes.of_bitwise2 (op : Nat → Nat → Nat) {f : BitVec w → BitVec w → BitVec w} (hw : w ∣ 512)
    (h : exec i s = issueSeq i s fun s c => vec2 s c d x y wx wy w fun _ u v => (op u v, 0))
    (hop : ∀ u v : BitVec w, BitVec.ofNat w (op u.toNat v.toNat) = f u v) : FollowsLanes i s (bitwise2 (me s) w d x y wx wy f) :=
  .of_full hw h fun j => by simp only [vlane_eq, hop]

/-- One register, lane by lane, without flags. -/
theorem FollowsLanes.of_unary (op : Nat → Nat) {f : BitVec w → BitVec w} (hw : w ∣ 512)
    (h : exec i s = issueSeq i s fun s c => vec1 s c d x wx w fun _ u => (op u, 0))
    (hop : ∀ u : BitVec w, BitVec.ofNat w (op u.toNat) = f u) :
    FollowsLanes i s ⟨d, [srcF .v x.toNat 0 wx], false, 512 / w, w, fun j => (f (laneAt (me s) x w j), 0), false⟩ :=
  .of_full hw h fun j => by simp only [vlane_eq, hop]

/-- VADD, VSUB and VMUL: floating point rounded once, integers modulo the power of two of their width (R198, R200). -/
theorem FollowsLanes.of_arith {t : VT} (op : Int → Int → Int) (fop : RMode → Fp → Fp → Exact) {int : (w : Nat) → BitVec w → BitVec w → BitVec w}
    (h : exec i s = issueSeq i s fun s c => vec2 s c d x y wx wy t.ty.bits (laneArith t.ty op fop))
    (hint : ∀ (n : Nat) (u v : BitVec n), BitVec.ofInt n (op u.toInt v.toInt) = int n u v) :
    FollowsLanes i s (lanes2 (me s) t d x y wx wy (fop (me s).rm) int) := by
  refine .of_full (ty_bits_dvd t) h fun j => ?_
  simp only [vlane_eq]
  cases t.ty with
  | fp f => rfl
  | int n signed => simp only [laneArith, LaneTy.bits, ofNat_wrapInt, sextInt_toNat, hint]

/-- VMIN and VMAX of floating-point lanes (R200). -/
theorem FollowsLanes.of_minMax_fp (wantMax : Bool) {t : LaneTy} {f : Fmt} (ht : t = .fp f) (hw : t.bits ∣ 512)
    (h : exec i s = issueSeq i s fun s c => vec2 s c d x y wx wy t.bits fun _ u v => (laneMinMax t wantMax u v, 0)) :
    FollowsLanes i s (bitwise2 (me s) f.bits d x y wx wy (pickFp f wantMax)) := by
  subst ht
  exact .of_bitwise2 _ hw h (laneMinMax_fp f wantMax)

/-- VMIN and VMAX of integer lanes (R200). -/
theorem FollowsLanes.of_minMax_int (wantMax : Bool) {t : LaneTy} {n : Nat} {signed : Bool} (ht : t = .int n signed) (hw : t.bits ∣ 512)
    (h : exec i s = issueSeq i s fun s c => vec2 s c d x y wx wy t.bits fun _ u v => (laneMinMax t wantMax u v, 0)) :
    FollowsLanes i s (bitwise2 (me s) n d x y wx wy fun u v => if cond wantMax (u.slt v) (v.slt u) then v else u) := by
  subst ht
  exact .of_bitwise2 _ hw h (laneMinMax_int n signed wantMax)

end

/-- Lanes of a conversion that fit at both sizes fill no more than the register at either (R205). -/
theorem convertedLanes_fit (m n : Nat) : 512 / max m n * n ≤ 512 :=
  (Nat.mul_le_mul_left _ (le_max_right m n)).trans (Nat.div_mul_le_self _ _)

/-- The vector instructions of chapter 7 follow the rules of their lanes (R199 to R207). -/
theorem vectorRule_follows {i : Instr} {s : State} {r : LaneRule} (h : vectorRule (me s) i = some r) : FollowsLanes i s r := by
  cases i with
  | vadd d x y wx wy t =>
    cases h
    exact .of_arith (· + ·) (fun m u v => sumFp m [u, v]) rfl fun n u v => by rw [BitVec.ofInt_add, BitVec.ofInt_toInt, BitVec.ofInt_toInt]
  | vsub d x y wx wy t =>
    cases h
    refine .of_arith (· - ·) (fun m u v => sumFp m [u, v.negate]) rfl fun n u v => ?_
    rw [Int.sub_eq_add_neg, BitVec.ofInt_add, BitVec.ofInt_neg, BitVec.ofInt_toInt, BitVec.ofInt_toInt, BitVec.sub_eq_add_neg]
  | vmul d x y wx wy t =>
    cases h
    exact .of_arith (· * ·) (fun _ u v => mulFp u v) rfl fun n u v => by rw [BitVec.ofInt_mul, BitVec.ofInt_toInt, BitVec.ofInt_toInt]
  | vmin d x y wx wy t =>
    cases h
    split
    case h_1 f ht => exact .of_minMax_fp false ht (ty_bits_dvd t) rfl
    case h_2 n signed ht => exact .of_minMax_int false ht (ty_bits_dvd t) rfl
  | vmax d x y wx wy t =>
    cases h
    split
    case h_1 f ht => exact .of_minMax_fp true ht (ty_bits_dvd t) rfl
    case h_2 n signed ht => exact .of_minMax_int true ht (ty_bits_dvd t) rfl
  | vabs d x wx t => cases h; exact .of_unary (laneSign t.ty false) (ty_bits_dvd t) rfl (laneSign_magnitude t.ty)
  | vneg d x wx t => cases h; exact .of_unary (laneSign t.ty true) (ty_bits_dvd t) rfl (laneSign_negated t.ty)
  | vfma | vfms | vdiv | vsqrt | vrcp | vrsq => cases h; exact .of_full (fmt_bits_dvd _) rfl fun j => by simp only [vlane_eq]; rfl
  | vand d x y wx wy =>
    cases h
    exact .of_bitwise2 (· &&& ·) (by decide) rfl fun u v => by rw [← BitVec.toNat_and, BitVec.ofNat_toNat, BitVec.setWidth_eq]
  | vor d x y wx wy =>
    cases h
    exact .of_bitwise2 (· ||| ·) (by decide) rfl fun u v => by rw [← BitVec.toNat_or, BitVec.ofNat_toNat, BitVec.setWidth_eq]
  | vxor d x y wx wy =>
    cases h
    exact .of_bitwise2 (· ^^^ ·) (by decide) rfl fun u v => by rw [← BitVec.toNat_xor, BitVec.ofNat_toNat, BitVec.setWidth_eq]
  | vshl d x y wx wy w => cases h; exact .of_bitwise2 (laneShl w.bits) (width_bits_dvd w) rfl laneShl_eq
  | vshr d x y wx wy w => cases h; exact .of_bitwise2 (laneShr w.bits false) (width_bits_dvd w) rfl laneShr_logical
  | vshrArith d x y wx wy w => cases h; exact .of_bitwise2 (laneShr w.bits true) (width_bits_dvd w) rfl laneShr_arith
  | vcvt d x wx src dst rm =>
    cases h
    exact ⟨convertedLanes_fit _ _, fun a j => laneCvt src.ty dst.ty (rm.getD a.rm) (vlane a x src.ty.bits j), rfl,
      fun j => by simp only [vlane_eq, laneCvt_eq]⟩
  | vbcast d x wx w => cases h; exact .of_full (width_bits_dvd w) rfl fun j => by simp only [BitVec.ofNat_toNat]
  | vperm d x y wx wy w => cases h; exact .of_full (width_bits_dvd w) rfl fun j => by simp only [vlane_eq, BitVec.ofNat_toNat, BitVec.setWidth_eq]
  | _ => cases h

/-- An instruction whose encoding is odd takes four bytes (R71). -/
theorem len_of_odd {i : Instr} {w : Nat} (he : encode i = some w) (hw : w % 2 = 1) : i.len = 4 := by
  rw [Instr.len, he, Option.getD_some, wordLen, if_neg (by omega)]

/-- No vector instruction is compact (R71). -/
theorem len_of_vectorRule {i : Instr} {a : Arch} {r : LaneRule} (h : vectorRule a i = some r) : i.len = 4 := by
  cases i with
  | vadd | vsub | vmul | vmin | vmax | vabs | vneg | vfma | vfms | vdiv | vsqrt | vrcp | vrsq | vand | vor | vxor | vshl | vshr | vshrArith | vbcast
  | vperm => exact len_of_odd rfl (by omega)
  | vcvt d x wx src dst rm => cases rm with
    | none => exact len_of_odd rfl (by simp only; omega)
    | some m => exact len_of_odd rfl (by simp only; omega)
  | _ => cases h

/-- Settles O32: each vector instruction is a use of `vecOp` whose lanes are those of its rule. -/
theorem vectorResult : Obligations.VectorResult := by
  unfold Obligations.VectorResult
  intro s i r hi h hr hw
  have follows := vectorRule_follows h
  refine ⟨follows.trap hi hr hw, fun hf => ⟨laneValue r (me s), laneValue_gives _ follows.1, fun short => ?_, fun long => ?_⟩⟩
  · have run := follows.next hi hr hw hf
    rw [short] at run
    exact run
  · have run := follows.next hi hr hw hf
    rw [long, if_pos rfl] at run
    refine ⟨_, run, onlyMeAndOps_launch _ _ _ _ _, ?_, ?_, ?_, ?_, launched_launch _ _ _ _ _⟩
    · rw [me_launch, len_of_vectorRule h]
      rfl
    · rw [me_launch]
      exact flg_orFlags _ _
    · rw [me_launch]
      exact fe_markEmpty _ _ _ nofun
    · rw [me_launch]
      exact regsBut_markEmpty _ _ _ _ _

end Sys2Proof.Proofs
end

section
/-! SUPPORT. The label instructions: their sources and their space, a destination that is filled at once or asked of the Accord unit, the values formed from a
content that the cell knows, and the statement about them. -/

namespace Sys2Proof.Proofs
open Sys2Proof.Machine Sys2Proof.Spec

/-! ### Registers that are written -/

/-- A value is of the kind that the registers of a file hold. -/
inductive Fits : RFile → RV → Prop
  | g (x : Word) : Fits .g (.w x)
  | v (x : BitVec 512) : Fits .v (.v x)
  | k (x : List Elem) : Fits .k (.k x)
  | q (x : Word) : Fits .q (.w x)
  | x (x : Word) : Fits .x (.w x)

theorem fits_regVal (a : Arch) (r : RegId) : Fits r.file (a.regVal r) := by
  obtain ⟨file, n⟩ := r
  cases file <;> constructor

/-- A value of the register's kind is read back with its state and label, but for g0. -/
theorem setReg_self (a : Arch) {r : RegId} {v : RV} (m : Reg Unit) (hr : r ≠ ⟨.g, 0⟩) (hv : Fits r.file v) :
    (a.setReg r v m).rmeta r = m ∧ (a.setReg r v m).regVal r = v := by
  obtain ⟨file, n⟩ := r
  cases hv with
  | g x =>
    have notZero : n ≠ 0 := by rintro rfl; exact hr rfl
    simp [Arch.setReg, Arch.rmeta, Arch.regVal, Arch.gr_setG_self _ _ notZero, Reg.of]
  | v x | k x | q x | x x => simp [Arch.setReg, Arch.rmeta, Arch.regVal, Reg.of]

theorem isG0_of_ne {r : RegId} (h : r ≠ ⟨.g, 0⟩) : r.isG0 = false := by
  obtain ⟨file, n⟩ := r
  simpa [RegId.isG0] using h

theorem gd_ne_g0 {d : BitVec 6} (h : d ≠ 0) : gd d ≠ ⟨.g, 0⟩ := fun e => h (BitVec.eq_of_toNat_eq (RegId.mk.inj e).2)

/-- A g register is its value with its state and label. -/
theorem gr_eq_of_rmeta {a : Arch} {d : BitVec 6} {v : Word} {l : Label} (hv : a.regVal (gd d) = .w v) (hm : a.rmeta (gd d) = fullMeta l) :
    a.gr d.toNat = ⟨v, .full, l, 0, 0, false, false⟩ := by
  have meta_eq : (a.gr d.toNat).meta = fullMeta l := hm
  have val_eq : (a.gr d.toNat).val = v := RV.w.inj hv
  generalize a.gr d.toNat = r at meta_eq val_eq
  cases r
  cases val_eq
  simpa [Reg.meta, fullMeta] using meta_eq

/-! ### Sources and space (R15, R16, R232) -/

theorem spaceNo_eq (a : Arch) : spaceNo a = a.space.setWidth 12 := (BitVec.setWidth_eq_extractLsb' (by decide)).symm

theorem isTop_iff {l : Label} : l.isTop = true ↔ l.h = 0 := beq_iff_eq

theorem isBot_iff {l : Label} : l.isBot = true ↔ l.h = 0xFFFFFF := beq_iff_eq

theorem proper_iff {l : Label} : l.proper = true ↔ l.h ≠ 0 ∧ l.h ≠ 0xFFFFFF := by
  simp [Label.proper, Label.isTop, Label.isBot]

theorem spaceReady_ok {s : State} {xs : List Src} (h : SpaceHolds s xs) : spaceReady s s.cur xs = .ok () := by
  obtain ⟨valid, live, owner, same⟩ := h
  have noForeign : (srcLabels (me s) xs).find? (fun l => l.proper && l.sp != (me s).space.setWidth 12) = none := by
    refine List.find?_eq_none.mpr fun l hl bad => ?_
    rw [Bool.and_eq_true, bne_iff_ne, proper_iff] at bad
    obtain ⟨⟨notTop, notBot⟩, other⟩ := bad
    exact other (same l hl notTop notBot)
  have regs : (s.ctx s.cur).arch = me s := rfl
  simp only [spaceReady, regs, spaceNo_eq, bit, valid, live, owner, noForeign]
  simp

theorem labelSrcs_ok {s : State} {d : RegId} {xs : List Src} (hw : Writable (me s) d) (hr : Readable (me s) xs) (h : SpaceHolds s xs) :
    labelSrcs s s.cur d xs = .ok (me s) := by
  obtain ⟨full, -⟩ := hr
  have allFull : (xs.all fun x => ((me s).rmeta x.r).fe == .full) = true := List.all_eq_true.mpr fun x hx => by simp [full x hx]
  have regs : (s.ctx s.cur).arch = me s := rfl
  simp only [labelSrcs, regs, destReady_ok hw, allFull, if_true, spaceReady_ok h]
  rfl

/-! ### A destination that is written, at once or with its label still asked for (R14, R118) -/

section
variable {i : Instr} {s t : State} {d : RegId} {v : RV} {l : Label}

/-- What is seen of the contexts once register `d` of the current one is written and its program counter has moved on. -/
theorem advance_written {m : Reg Unit} (hctx : t.ctxs = (s.modArch s.cur fun a => a.setReg d v m).ctxs) (hcur : t.cur = s.cur)
    (hlen : i.len = 4) (hd : d ≠ ⟨.g, 0⟩) (hv : Fits d.file v) :
    (∀ c, c ≠ s.cur → (advance i t s.cur).ctx c = s.ctx c) ∧ (me (advance i t s.cur)).pc = (me s).pc + 4 ∧
      (me (advance i t s.cur)).regVal d = v ∧ (me (advance i t s.cur)).rmeta d = m ∧ RegsBut (me s) (me (advance i t s.cur)) d := by
  have ctx : ∀ c, t.ctx c = (s.modArch s.cur fun a => a.setReg d v m).ctx c := fun c => by rw [State.ctx, hctx]; rfl
  have regs : me (advance i t s.cur) = { (me s).setReg d v m with pc := (me s).pc + 4 } := by
    have cur : (advance i t s.cur).cur = s.cur := hcur
    rw [me, cur, ctx_advance_self, ctx, State.ctx_modArch_self, hlen, Arch.setReg_pc]
    rfl
  obtain ⟨hmeta, hval⟩ := setReg_self (me s) m hd hv
  refine ⟨fun c hc => ?_, ?_⟩
  · rw [ctx_advance_ne _ _ hc, ctx, State.ctx_modArch_ne _ _ hc]
  · rw [regs]
    exact ⟨rfl, hval, hmeta, fun q hq => Arch.setReg_ne (me s) v m hq⟩

/-- `t` is `s` with a value and a label in register `d` of the current context; the order of use in the product caches may have changed. -/
def Filled (s t : State) (d : RegId) (v : RV) (l : Label) : Prop :=
  ∃ k, t = { s.modArch s.cur (fun a => a.setReg d v (fullMeta l)) with cells := k } ∧ SameCells s t

theorem filled_modArch (s : State) (d : RegId) (v : RV) (l : Label) : Filled s (s.modArch s.cur fun a => a.setReg d v (fullMeta l)) d v l :=
  ⟨_, rfl, fun n => ⟨(s.cell n).pcache, rfl, fun _ => Iff.rfl⟩⟩

theorem sameCells_trans {u : State} (h : SameCells s t) (k : SameCells t u) : SameCells s u := fun n => by
  obtain ⟨p, hp, hmem⟩ := h n
  obtain ⟨q, hq, kmem⟩ := k n
  exact ⟨q, by rw [hq, hp], fun e => by rw [kmem, hp]; exact hmem e⟩

theorem Filled.hitProduct (h : Filled s t d v l) (c : Nat) (ls : List Label) : Filled s (hitProduct t c ls) d v l := by
  obtain ⟨k, rfl, cells⟩ := h
  exact ⟨_, hitProduct_frame _ c ls, sameCells_trans cells (hitProduct_cell _ c ls)⟩

theorem Filled.hitContent (h : Filled s t d v l) (c : Nat) (l' : Label) : Filled s (hitContent t c l') d v l := by
  obtain ⟨k, rfl, cells⟩ := h
  exact ⟨_, hitContent_frame _ c l', sameCells_trans cells (hitContent_cell _ c l')⟩

/-- A product of labels that the cell knows fills the register with that label. -/
theorem filled_fill {ls : List Label} (hd : d ≠ ⟨.g, 0⟩) (hl : localProduct (s.cell (cellOf s.cur)).pcache ls = .known (.lab l)) :
    Filled s (fill s s.cur d v ls) d v l := by
  have run : fill s s.cur d v ls = hitProduct (s.modArch s.cur fun a => a.setReg d v (fullMeta l)) s.cur ls := by
    simp [fill, fillOf, isG0_of_ne hd, hl, State.modArchOf]
  rw [run]
  exact (filled_modArch s d v l).hitProduct _ _

theorem Filled.got (h : Filled s t d v l) (hlen : i.len = 4) (hd : d ≠ ⟨.g, 0⟩) (hv : Fits d.file v) : Got s (advance i t s.cur) d v l := by
  obtain ⟨k, rfl, cells⟩ := h
  obtain ⟨others, regs⟩ := advance_written rfl rfl hlen hd hv
  exact ⟨⟨rfl, cells, others⟩, regs⟩

/-- A question put to the Accord unit leaves the register empty, with the value it will keep. -/
theorem asked_advance {sp : BitVec 12} (lab : Label) (q : Ask) (hlen : i.len = 4) (hd : d ≠ ⟨.g, 0⟩) (hv : Fits d.file v) :
    Asked s (advance i (askFill s s.cur d v sp lab q) s.cur) d sp q ∧ (me (advance i (askFill s s.cur d v sp lab q) s.cur)).regVal d = v := by
  have plc (f : Arch → Arch) : (s.modArch s.cur f).plc s.cur = s.plc s.cur := by simp [State.plc]
  have run : askFill s s.cur d v sp lab q =
      { s.modArch s.cur (fun a => a.setReg d v ⟨(), .empty, lab, 0, (me s).pc, false, true⟩) with labelJobs := s.labelJobs ++ [asked s d sp q] } := by
    simp only [askFill, isG0_of_ne hd, plc]
    rfl
  rw [run]
  obtain ⟨others, pc, val, rmeta, regs⟩ := advance_written rfl rfl hlen hd hv
  exact ⟨⟨rfl, others, pc, congrArg Reg.fe rmeta, congrArg Reg.dueLab rmeta, regs⟩, val⟩

end

/-! ### Products that the cell knows (R20) -/

theorem localProduct_bot (pc : List PEntry) (l : Label) : localProduct pc [.bot, l] = .known (.lab .bot) := rfl

theorem localProduct_top (pc : List PEntry) {ls : List Label} (h : ∀ l ∈ ls, l.h = 0) : localProduct pc ls = .known (.lab .top) := by
  have noBot : ls.any Label.isBot = false := List.any_eq_false.mpr fun l hl => by simp [Label.isBot, h l hl]
  have noProper : properLabels ls = [] := List.filter_eq_nil_iff.mpr fun l hl => by simp [proper_iff, h l hl]
  rw [localProduct, noBot, noProper]
  rfl

theorem localProduct_single (pc : List PEntry) {l : Label} (h : l.h ≠ 0xFFFFFF) :
    localProduct pc [l] = .known (.lab (if l.h = 0 then .top else l)) := by
  split
  case isTrue top => exact localProduct_top pc fun m hm => by rw [List.mem_singleton.mp hm, top]
  case isFalse notTop =>
    have notBot : l.isBot = false := beq_eq_false_iff_ne.mpr h
    simp [localProduct, properLabels, notBot, proper_iff.mpr ⟨notTop, h⟩]

/-! ### Contents that the cell knows (R142, R238) -/

theorem localContent_bot {pc : List PEntry} {l : Label} {envs : List Word} (h : l.h = 0xFFFFFF) (hc : localContent pc l = some envs) : envs = [] := by
  simpa [localContent, Label.isTop, Label.isBot, h] using hc.symm

theorem holdsIn_iff (envs : List Word) (e : Word) : holdsIn envs e = true ↔ someWithin envs e := by
  simp [holdsIn, someWithin]

/-- The word that names a label of a space, or ⊤ (R235). -/
theorem labelName_eq {l : Label} (h : l.h ≠ 0xFFFFFF) : labelName l = if l.h = 0 then 0 else ((l.sp ++ l.h : BitVec 36)).setWidth 64 := by
  split
  case isTrue top => simp [labelName, proper_iff, top, w64]
  case isFalse notTop =>
    apply BitVec.eq_of_toNat_eq
    have small : l.h.toNat < 2 ^ 24 := l.h.isLt
    rw [labelName, if_pos (proper_iff.mpr ⟨notTop, h⟩), BitVec.toNat_setWidth, BitVec.toNat_append, ← Nat.shiftLeft_add_eq_or_of_lt small]
    simp [w64, Nat.shiftLeft_eq, Nat.add_comm]

/-! The label that a word names (R235, R236). -/

theorem namedLabel_top {x : Word} (h : x.setWidth 24 = 0#24) : namedLabel x = .top := by
  rw [BitVec.setWidth_eq_extractLsb' (by decide)] at h
  exact if_pos h

theorem namedLabel_bot {x : Word} (h : x.setWidth 24 = 0xFFFFFF#24) : namedLabel x = .bot := by
  rw [BitVec.setWidth_eq_extractLsb' (by decide)] at h
  rw [namedLabel, h]
  rfl

theorem namedLabel_proper {x : Word} (top : x.setWidth 24 ≠ 0#24) (bot : x.setWidth 24 ≠ 0xFFFFFF#24) :
    namedLabel x = ⟨x.extractLsb' 24 12, x.setWidth 24⟩ := by
  rw [BitVec.setWidth_eq_extractLsb' (by decide)] at *
  exact (if_neg top).trans (if_neg bot)

/-! ### Instructions that inspect a label (R235, R238) -/

section
variable {i : Instr} {s : State} {d : BitVec 6} {xs : List Src} {l : Label} {q : Ask} {f : List Word → Word}

theorem len_of_inspects {a : Arch} (h : inspects a i = some (d, xs, l, q, f)) : i.len = 4 := by
  cases i with
  | lget | lholds | lenv | lcnt => exact len_of_odd rfl (by omega)
  | _ => cases h

/-- A use of `inspect` whose sources and space pass. -/
theorem inspect_next (hi : MayIssue i s) (hs : labelSrcs s s.cur (gd d) xs = .ok (me s)) {l : Arch → Label} {q : Arch → Ask}
    {g : Arch → List Word → Word} (he : exec i s = issueSeq i s (fun s c => do
      let r ← labelSrcs s c (gd d) xs
      .ok (inspect s c (gd d) (l r) (q r) (g r)))) :
    exec i s = .next (advance i (inspect s s.cur (gd d) (l (me s)) (q (me s)) (g (me s))) s.cur) := by
  obtain ⟨held, checks⟩ := hi
  rw [he, issueSeq_ok held checks (by rw [hs]; rfl)]

/-- Each is a use of `inspect` whose function gives the word of its rule from a content that the cell knows. -/
theorem inspects_next (h : inspects (me s) i = some (d, xs, l, q, f)) (hi : MayIssue i s) (hs : labelSrcs s s.cur (gd d) xs = .ok (me s)) :
    ∃ g, exec i s = .next (advance i (inspect s s.cur (gd d) l q g) s.cur) ∧ ∀ pc envs, localContent pc l = some envs → g envs = f envs := by
  cases i with
  | lget d x w file =>
    cases h
    refine ⟨_, inspect_next hi hs rfl, fun pc envs known => ?_⟩
    cases envs with
    | nil => rfl
    | cons e envs => exact labelName_eq fun bot => List.cons_ne_nil e envs (localContent_bot bot known)
  | lholds d x y wx wy =>
    cases h
    exact ⟨_, inspect_next hi hs rfl, fun _ _ _ => rfl⟩
  | lenv d x y wx wy =>
    cases h
    refine ⟨_, inspect_next hi hs rfl, fun _ envs _ => ?_⟩
    by_cases inside : (gv (me s) y).toNat < envs.length
    · exact (if_pos inside).symm
    · exact (List.getD_eq_default _ _ (not_lt.mp inside)).trans (if_neg inside).symm
  | lcnt d x w =>
    cases h
    exact ⟨_, inspect_next hi hs rfl, fun _ _ _ => rfl⟩
  | _ => cases h

/-- A content that the cell knows gives the word at once, under ⊤ (R238). -/
theorem inspect_known {g : List Word → Word} {envs : List Word} (hlen : i.len = 4) (hd : d ≠ 0)
    (hc : localContent (s.cell (cellOf s.cur)).pcache l = some envs) :
    Got s (advance i (inspect s s.cur (gd d) l q g) s.cur) (gd d) (.w (g envs)) .top := by
  have filled : Filled s (fillTop s s.cur (gd d) (.w (g envs))) (gd d) (.w (g envs)) .top :=
    filled_fill (gd_ne_g0 hd) (localProduct_top _ nofun)
  simp only [inspect, hc]
  exact (filled.hitContent s.cur l).got hlen (gd_ne_g0 hd) (.g _)

/-- A content that it does not know is asked of the Accord unit (R238). -/
theorem inspect_unknown {g : List Word → Word} (hlen : i.len = 4) (hd : d ≠ 0) (hc : localContent (s.cell (cellOf s.cur)).pcache l = none) :
    Asked s (advance i (inspect s s.cur (gd d) l q g) s.cur) (gd d) l.sp q := by
  simp only [inspect, hc]
  exact (asked_advance _ _ hlen (gd_ne_g0 hd) (.g 0)).1

end

/-! ### LSYNC (R242) -/

/-- What a table reads under a key, unless it is the default, is one of its entries. -/
theorem any_of_get {α : Type} {f : α → Bool} {m : Tab α} {k : Nat} {v : α} (hv : f v = false) (h : f (Tab.get m k v) = true) :
    m.any (fun p => f p.2) = true := by
  induction m with
  | nil => exact absurd h (by simp [Tab.get, hv])
  | cons p m ih =>
    rw [Tab.get] at h
    rw [List.any_cons, Bool.or_eq_true]
    split at h
    · exact .inl h
    · exact .inr (ih h)

theorem any_due {α : Type} {m : Tab (Reg α)} {n : Nat} {v : α} (he : (Tab.get m n (.of v)).meta.fe = .empty)
    (hl : (Tab.get m n (.of v)).meta.dueLab = true) : m.any (fun p => p.2.fe == .empty && p.2.dueLab) = true :=
  any_of_get (f := fun r : Reg α => r.fe == .empty && r.dueLab) (v := .of v) rfl (by rw [Bool.and_eq_true]; exact ⟨beq_iff_eq.mpr he, hl⟩)

/-- A register that awaits its label holds LSYNC. -/
theorem labelsDue_of_rmeta {a : Arch} {r : RegId} (he : (a.rmeta r).fe = .empty) (hl : (a.rmeta r).dueLab = true) : labelsDue a = true := by
  obtain ⟨file, n⟩ := r
  simp only [labelsDue, Bool.or_eq_true]
  cases file with
  | g =>
    by_cases zero : n = 0
    · subst zero; cases he
    · have read : a.rmeta ⟨.g, n⟩ = (Tab.get a.g n (.of 0)).meta := by simp only [Arch.rmeta, Arch.gr, if_neg zero]
      rw [read] at he hl
      exact .inl (.inl (.inl (.inl (any_due he hl))))
  | v => exact .inl (.inl (.inl (.inr (any_due he hl))))
  | k => exact .inl (.inl (.inr (any_due he hl)))
  | q => exact .inl (.inr (any_due he hl))
  | x => exact .inr (any_due he hl)

theorem exec_lsync (s : State) : exec .lsync s = issueSeq .lsync s fun s c => if labelsDue (s.ctx c).arch then waits else .ok s := rfl

theorem lsync_next {s : State} (hi : MayIssue .lsync s) (h : labelsDue (me s) = false) : exec .lsync s = .next (advance .lsync s s.cur) := by
  obtain ⟨held, checks⟩ := hi
  rw [exec_lsync, issueSeq_ok held checks (if_neg (Bool.not_eq_true _ ▸ h))]

theorem lsync_waits {s : State} (hi : MayIssue .lsync s) (h : labelsDue (me s) = true) : exec .lsync s = .next s := by
  obtain ⟨held, checks⟩ := hi
  rw [exec_lsync, issueSeq_error (e := .wait .nothing) held checks (if_pos h)]
  rfl

/-! ### Instructions whose rule has ended (R234, R236, R239) -/

section
variable {i : Instr} {s u : State} {body : State → Nat → Except Stop State} {d : RegId} {v : RV} {l : Label}

/-- A rule that fills a register at once. -/
theorem Filled.next (h : Filled s u d v l) (hi : MayIssue i s) (he : exec i s = issueSeq i s body) (hb : body s s.cur = .ok u) (hlen : i.len = 4)
    (hd : d ≠ ⟨.g, 0⟩) (hv : Fits d.file v) : ∃ t, exec i s = .next t ∧ Got s t d v l := by
  obtain ⟨held, checks⟩ := hi
  exact ⟨_, by rw [he, issueSeq_ok held checks hb], h.got hlen hd hv⟩

/-- A rule that asks the Accord unit. -/
theorem asked_next {sp : BitVec 12} {lab : Label} {q : Ask} (hi : MayIssue i s) (he : exec i s = issueSeq i s body)
    (hb : body s s.cur = .ok (askFill s s.cur d v sp lab q)) (hlen : i.len = 4) (hd : d ≠ ⟨.g, 0⟩) (hv : Fits d.file v) :
    ∃ t, exec i s = .next t ∧ Asked s t d sp q ∧ (me t).regVal d = v := by
  obtain ⟨held, checks⟩ := hi
  exact ⟨_, by rw [he, issueSeq_ok held checks hb], asked_advance lab q hlen hd hv⟩

end

section
variable {s : State} {d x y : BitVec 6} {wx wy : Bool}

/-! ### LPROD (R237) -/

theorem exec_lprod : exec (.lprod d x y wx wy) s = issueSeq (.lprod d x y wx wy) s (fun s c => do
    let r ← labelSrcs s c (gd d) [srcG x wx 0, srcG y wy 1]
    .ok (fill s c (gd d) (.w (gv r x)) (srcLabels r [srcG x wx 0, srcG y wy 1]))) := rfl

theorem lprod_next (hi : MayIssue (.lprod d x y wx wy) s) (hs : labelSrcs s s.cur (gd d) [srcG x wx 0, srcG y wy 1] = .ok (me s)) :
    exec (.lprod d x y wx wy) s = .next (advance (.lprod d x y wx wy)
      (fill s s.cur (gd d) (.w (gv (me s) x)) (srcLabels (me s) [srcG x wx 0, srcG y wy 1])) s.cur) := by
  obtain ⟨held, checks⟩ := hi
  rw [exec_lprod, issueSeq_ok held checks (by rw [hs]; rfl)]

/-! ### LTAG (R234) -/

theorem len_ltag : (Instr.ltag d x y wx wy).len = 4 := len_of_odd rfl (by omega)

theorem exec_ltag : exec (.ltag d x y wx wy) s = issueSeq (.ltag d x y wx wy) s fun s c => tagValue s c d x y wx wy := rfl

theorem tagValue_eq (hs : labelSrcs s s.cur (gd d) [srcG x wx 0, srcG y wy 1] = .ok (me s)) :
    tagValue s s.cur d x y wx wy = .ok (
      if ((me s).gr x.toNat).lab.isBot then fill s s.cur (gd d) (.w (gv (me s) x)) [.bot, ((me s).gr y.toNat).lab]
      else if ((me s).gr x.toNat).lab.isTop && gv (me s) y == 0 then fill s s.cur (gd d) (.w (gv (me s) x)) [.top, ((me s).gr y.toNat).lab]
      else askFill s s.cur (gd d) (.w (gv (me s) x)) ((me s).space.setWidth 12) ⟨(me s).space.setWidth 12, 1⟩
        (.tag ((me s).gr x.toNat).lab (gv (me s) y) ((me s).gr y.toNat).lab)) := by
  rw [tagValue, hs, ← spaceNo_eq]
  rfl

section
variable (hi : MayIssue (.ltag d x y wx wy) s) (hs : labelSrcs s s.cur (gd d) [srcG x wx 0, srcG y wy 1] = .ok (me s)) (hd : d ≠ 0)
include hi hs hd

theorem ltag_bot (bot : ((me s).gr x.toNat).lab.h = 0xFFFFFF) :
    ∃ t, exec (.ltag d x y wx wy) s = .next t ∧ Got s t (gd d) (.w (gv (me s) x)) .bot := by
  have filled : Filled s (fill s s.cur (gd d) (.w (gv (me s) x)) [.bot, ((me s).gr y.toNat).lab]) (gd d) (.w (gv (me s) x)) .bot :=
    filled_fill (gd_ne_g0 hd) (localProduct_bot _ _)
  exact filled.next hi exec_ltag (by rw [tagValue_eq hs, if_pos (isBot_iff.mpr bot)]) len_ltag (gd_ne_g0 hd) (.g _)

theorem ltag_top (top : ((me s).gr x.toNat).lab.h = 0) (zero : gv (me s) y = 0) (topY : ((me s).gr y.toNat).lab.h = 0) :
    ∃ t, exec (.ltag d x y wx wy) s = .next t ∧ Got s t (gd d) (.w (gv (me s) x)) .top := by
  have filled : Filled s (fill s s.cur (gd d) (.w (gv (me s) x)) [.top, ((me s).gr y.toNat).lab]) (gd d) (.w (gv (me s) x)) .top :=
    filled_fill (gd_ne_g0 hd) (localProduct_top _ (by simp [topY, Label.top]))
  have notBot : ¬((me s).gr x.toNat).lab.isBot = true := fun bot => absurd (top.symm.trans (isBot_iff.mp bot)) (by decide)
  have topEmpty : (((me s).gr x.toNat).lab.isTop && gv (me s) y == 0) = true := Bool.and_eq_true_iff.mpr ⟨isTop_iff.mpr top, beq_iff_eq.mpr zero⟩
  exact filled.next hi exec_ltag (by rw [tagValue_eq hs, if_neg notBot, if_pos topEmpty]) len_ltag (gd_ne_g0 hd) (.g _)

theorem ltag_asked (h : ((me s).gr x.toNat).lab.proper = true ∨ ((me s).gr x.toNat).lab.h = 0 ∧ gv (me s) y ≠ 0) :
    ∃ t, exec (.ltag d x y wx wy) s = .next t ∧
      Asked s t (gd d) ((me s).space.setWidth 12) (.tag ((me s).gr x.toNat).lab (gv (me s) y) ((me s).gr y.toNat).lab) ∧
      (me t).regVal (gd d) = .w (gv (me s) x) := by
  have notBot : ¬((me s).gr x.toNat).lab.isBot = true := fun bot => by
    obtain proper | ⟨top, -⟩ := h
    · exact (proper_iff.mp proper).2 (isBot_iff.mp bot)
    · exact absurd (top.symm.trans (isBot_iff.mp bot)) (by decide)
  have notEmpty : ¬(((me s).gr x.toNat).lab.isTop && gv (me s) y == 0) = true := fun both => by
    obtain ⟨top, zero⟩ := Bool.and_eq_true_iff.mp both
    obtain proper | ⟨-, nonzero⟩ := h
    · exact (proper_iff.mp proper).1 (isTop_iff.mp top)
    · exact nonzero (beq_iff_eq.mp zero)
  exact asked_next hi exec_ltag (by rw [tagValue_eq hs, if_neg notBot, if_neg notEmpty]) len_ltag (gd_ne_g0 hd) (.g _)

end

/-! ### LSET (R236) -/

section
variable {f : RFile} {w : Bool} (hi : MayIssue (.lset d x w f) s)
  (hs : labelSrcs s s.cur ⟨f, d.toNat⟩ [srcG x w 0, ⟨⟨f, d.toNat⟩, true, 2⟩] = .ok (me s))

theorem len_lset : (Instr.lset d x w f).len = 4 := len_of_odd rfl (by omega)

theorem exec_lset : exec (.lset d x w f) s = issueSeq (.lset d x w f) s fun s c => setLabel s c d x w f := rfl

include hs

theorem setLabel_eq (hr : (⟨f, d.toNat⟩ : RegId) ≠ ⟨.g, 0⟩) {l : Label} (hl : namedLabel (gv (me s) x) = l) : setLabel s s.cur d x w f =
    if l.proper = false then .ok (s.modArch s.cur fun a => a.setReg ⟨f, d.toNat⟩ ((me s).regVal ⟨f, d.toNat⟩) (fullMeta l))
    else if l.sp ≠ (me s).space.setWidth 12 ∨ Tab.get? (s.space l.sp).entries l.h.toNat = none then raise 8 (l.sp.setWidth 64)
    else .ok (askFill s s.cur ⟨f, d.toNat⟩ ((me s).regVal ⟨f, d.toNat⟩) l.sp l (.set l)) := by
  simp only [setLabel, fileReg, hs, hl, isG0_of_ne hr, ← spaceNo_eq, Option.isNone_iff_eq_none, Bool.not_eq_true', Bool.false_eq_true, if_false, bind,
    Except.bind, Bool.or_eq_true, decide_eq_true_eq]

include hi

/-- ⊤ and ⊥ are written at once. -/
theorem lset_plain (hr : (⟨f, d.toNat⟩ : RegId) ≠ ⟨.g, 0⟩) {l : Label} (hl : namedLabel (gv (me s) x) = l) (plain : l.proper = false) :
    ∃ t, exec (.lset d x w f) s = .next t ∧ Got s t ⟨f, d.toNat⟩ ((me s).regVal ⟨f, d.toNat⟩) l :=
  (filled_modArch s _ _ l).next hi exec_lset (by rw [setLabel_eq hs hr hl, if_pos plain]) len_lset hr (fits_regVal _ _)

/-- A label of another space, or one that the table of its space does not list, is a fault (R232, R236). -/
theorem lset_fault (hr : (⟨f, d.toNat⟩ : RegId) ≠ ⟨.g, 0⟩) {l : Label} (hl : namedLabel (gv (me s) x) = l) (proper : l.proper = true)
    (bad : l.sp ≠ (me s).space.setWidth 12 ∨ Tab.get? (s.space l.sp).entries l.h.toNat = none) :
    exec (.lset d x w f) s = .next (takeTrap s s.cur ⟨8, 0, l.sp.setWidth 64, 0⟩ false (me s).pc) := by
  obtain ⟨held, checks⟩ := hi
  have stop : setLabel s s.cur d x w f = .error (.trap ⟨8, 0, l.sp.setWidth 64, 0⟩) := by
    rw [setLabel_eq hs hr hl, if_neg (by simp [proper]), if_pos bad]
    rfl
  rw [exec_lset, issueSeq_error held checks stop]
  rfl

theorem lset_asked (hr : (⟨f, d.toNat⟩ : RegId) ≠ ⟨.g, 0⟩) {l : Label} (hl : namedLabel (gv (me s) x) = l) (proper : l.proper = true)
    (good : ¬(l.sp ≠ (me s).space.setWidth 12 ∨ Tab.get? (s.space l.sp).entries l.h.toNat = none)) :
    ∃ t, exec (.lset d x w f) s = .next t ∧ Asked s t ⟨f, d.toNat⟩ l.sp (.set l) ∧ (me t).regVal ⟨f, d.toNat⟩ = (me s).regVal ⟨f, d.toNat⟩ :=
  asked_next hi exec_lset (by rw [setLabel_eq hs hr hl, if_neg (by simp [proper]), if_neg good]) len_lset hr (fits_regVal _ _)

end

/-! ### LSEL (R239) -/

theorem len_lsel : (Instr.lsel d x y wx wy).len = 4 := len_of_odd rfl (by omega)

theorem exec_lsel : exec (.lsel d x y wx wy) s = issueSeq (.lsel d x y wx wy) s fun s c => selectLabelled s c d x y wx wy := rfl

section
variable {envs : List Word} (hi : MayIssue (.lsel d x y wx wy) s) (hs : labelSrcs s s.cur (gd d) [srcG x wx 0, srcG y wy 1] = .ok (me s))
  (hd : d ≠ 0) (hc : localContent (s.cell (cellOf s.cur)).pcache ((me s).gr x.toNat).lab = some envs)

include hs hc

theorem selectLabelled_known : selectLabelled s s.cur d x y wx wy = .ok (hitContent (
    if holdsIn envs (me s).view then fill s s.cur (gd d) (.w (gv (me s) x)) [((me s).gr x.toNat).lab]
    else fill s s.cur (gd d) (.w (gv (me s) y)) [((me s).gr y.toNat).lab]) s.cur ((me s).gr x.toNat).lab) := by
  simp only [selectLabelled, hs, bind, Except.bind, hc]

include hi hd

/-- Where the source that is chosen is not ⊥, its value and label are the destination's. -/
theorem lsel_chosen {z : BitVec 6} (chosen : (if holdsIn envs (me s).view then x else y) = z) (notBot : ((me s).gr z.toNat).lab.h ≠ 0xFFFFFF) :
    ∃ t, exec (.lsel d x y wx wy) s = .next t ∧ (me t).gr d.toNat =
      ⟨gv (me s) z, .full, if ((me s).gr z.toNat).lab.h = 0 then .top else ((me s).gr z.toNat).lab, 0, 0, false, false⟩ := by
  have filled := (filled_fill (s := s) (v := .w (gv (me s) z)) (gd_ne_g0 hd) (localProduct_single _ notBot)).hitContent s.cur ((me s).gr x.toNat).lab
  have run : selectLabelled s s.cur d x y wx wy = .ok
      (hitContent (fill s s.cur (gd d) (.w (gv (me s) z)) [((me s).gr z.toNat).lab]) s.cur ((me s).gr x.toNat).lab) := by
    rw [selectLabelled_known hs hc, ← chosen]
    split <;> rfl
  obtain ⟨t, next, -, -, value, label, -⟩ := filled.next hi exec_lsel run len_lsel (gd_ne_g0 hd) (.g _)
  exact ⟨t, next, gr_eq_of_rmeta value label⟩

end

end

/-- Settles O39: each label instruction, once its sources and its space pass, fills its destination at once or asks the Accord unit. -/
theorem labelInstructions : Obligations.LabelInstructions := by
  unfold Obligations.LabelInstructions
  refine ⟨?lprod, ?ltag, ?inspect, ?lset, ?lsel, ?lsync⟩
  case lprod =>
    intro s d x y wx wy i xs hi hw hr hs
    exact lprod_next hi (labelSrcs_ok hw hr hs)
  case ltag =>
    intro s d x y wx wy i xs la lb e sp hi hw hr hs hd
    have ready := labelSrcs_ok hw hr hs
    exact ⟨ltag_bot hi ready hd, ltag_top hi ready hd, ltag_asked hi ready hd⟩
  case inspect =>
    intro s i d xs l q f h hi hw hr hs hd
    have hlen := len_of_inspects h
    obtain ⟨g, next, value⟩ := inspects_next h hi (labelSrcs_ok hw hr hs)
    refine ⟨fun envs known => ⟨_, next, ?_⟩, fun unknown => ⟨_, next, inspect_unknown hlen hd unknown⟩⟩
    rw [← value _ envs known]
    exact inspect_known hlen hd known
  case lset =>
    intro s d x w f i r v h sp xs hi hr hs hd
    have full : ((me s).rmeta r).fe = .full := hr.1 ⟨r, true, 2⟩ (by simp [xs])
    have ready := labelSrcs_ok (d := r) (by rw [Writable, full]; decide) hr hs
    refine ⟨fun top => ?_, fun bot => ?_, fun top bot bad => ?_, fun top bot same listed => ?_⟩
    · exact lset_plain hi ready hd (namedLabel_top top) rfl
    · exact lset_plain hi ready hd (namedLabel_bot bot) rfl
    · exact lset_fault hi ready hd (l := ⟨sp, h⟩) (namedLabel_proper top bot) (proper_iff.mpr ⟨top, bot⟩) bad
    · exact lset_asked hi ready hd (l := ⟨sp, h⟩) (namedLabel_proper top bot) (proper_iff.mpr ⟨top, bot⟩) (not_or.mpr ⟨not_not.mpr same, listed⟩)
  case lsel =>
    intro s d x y wx wy envs i xs hi hw hr hs hd known
    have ready := labelSrcs_ok hw hr hs
    refine ⟨fun within => ?_, fun without notBot notTop => ?_⟩
    · have notBot : ((me s).gr x.toNat).lab.h ≠ 0xFFFFFF := fun bot => by
        obtain ⟨e, he, -⟩ := within
        rw [localContent_bot bot known] at he
        exact List.not_mem_nil he
      exact lsel_chosen hi ready hd known (if_pos ((holdsIn_iff _ _).mpr within)) notBot
    · have := lsel_chosen hi ready hd known (if_neg fun h => without ((holdsIn_iff _ _).mp h)) notBot
      rwa [if_neg notTop] at this
  case lsync =>
    intro s hi
    exact ⟨lsync_next hi, lsync_waits hi, fun r => labelsDue_of_rmeta⟩

end Sys2Proof.Proofs
end
